-- ==== Sys2Proof/Word.lean ====
section
/-! DEFINITION. The word types of the W64: 32-bit lane values, bytes, 64-bit pairs, lane masks. -/

namespace Sys2Proof

/-- A lane value, a scalar register, one word of memory (R50). -/
abbrev Word := BitVec 32

/-- One byte of memory (R294: the location). -/
abbrev Byte := BitVec 8

/-- A 64-bit value held in an even/odd register pair (R16). -/
abbrev DWord := BitVec 64

/-- One bit per lane of a group, lane 0 in bit 0 (R72). -/
abbrev LaneMask := BitVec 32

/-- A virtual or physical address of 48 bits (R3). -/
abbrev Addr := BitVec 48

/-- A line descriptor: SCALE in [15:8], FMT in [7:0] (R53). -/
abbrev LineDesc := BitVec 16

end Sys2Proof
end

