-- ==== Sys2Proof/Syntax.lean ====
section
/-! DEFINITION. The syntax of the W64: the operands and variants of the 96-bit instruction words (R18-R36), and
one constructor of Instr per row of spec/opcode_table.json. The rows that no word encodes (landings, fills, protocol
steps, firmware and host steps) are constructors too, with the data of the step as their arguments. -/

namespace Sys2Proof

/-- Guard field GRD (R21): neg is N, stage is K, idx is IDX. -/
structure Guard where
  neg : Bool
  stage : Bool
  idx : BitVec 3
  deriving DecidableEq, Repr

/-- Scheduling field SCH (R22). -/
structure Sched where
  sw : Bool
  stop : Bool
  rua : Bool
  rub : Bool
  ruc : Bool
  pf : BitVec 3
  deriving DecidableEq, Repr

/-- The fields every word has: guard and scheduling. -/
structure Hdr where
  guard : Guard
  sch : Sched
  deriving DecidableEq, Repr

/-- FILE of a destination (R24). -/
inductive DFile where
  | vec | scal | pred | spec
  deriving DecidableEq, Repr

/-- CLMP of a destination (R24, R26). -/
inductive Clamp where
  | none | unit | sym | sat
  deriving DecidableEq, Repr

/-- Destination field D (R24), its two must-be-zero bits left out. -/
structure Dst where
  file : DFile
  reg : BitVec 10
  clmp : Clamp
  scl : BitVec 3
  deriving DecidableEq, Repr

/-- FILE of a register source (R27): the fourth code is reserved in A and marks an immediate in B. -/
inductive SFile where
  | vec | scal | spec
  deriving DecidableEq, Repr

/-- SUB of a source (R27, R28). -/
inductive Sub where
  | whole | lo | hi | lob
  deriving DecidableEq, Repr

/-- A register source A or B (R27), its must-be-zero bit left out. -/
structure Src where
  file : SFile
  reg : BitVec 10
  neg : Bool
  abs : Bool
  sub : Sub
  kill : Bool
  deriving DecidableEq, Repr

/-- The third source C of form C (R31). -/
structure CSrc where
  scal : Bool
  reg : BitVec 10
  neg : Bool
  abs : Bool
  sub : Sub
  kill : Bool
  deriving DecidableEq, Repr

/-- Permutation class CLS (R33). -/
inductive PermCls where
  | none | rot | bfly | bcast
  deriving DecidableEq, Repr

/-- Lane permutation of A in form N (R33), its must-be-zero bits left out. -/
structure Perm where
  cls : PermCls
  seg : BitVec 3
  dist : BitVec 5
  deriving DecidableEq, Repr

/-- Rounding field RM (R30). -/
inductive Rm where
  | rne | rz | rd | ru
  deriving DecidableEq, Repr

/-- Operand B and field X of opcodes 0x10-0x63: form N, form I or form C (R29-R32). -/
inductive AluX where
  | n (b : Src) (perm : Perm) (rm : Rm)
  | i (imm : Word)
  | c (b : Src) (c : CSrc)
  deriving DecidableEq, Repr

/-- An instruction of opcodes 0x10-0x63 but for its variant. -/
structure Alu where
  hdr : Hdr
  d : Dst
  a : Src
  x : AluX
  deriving DecidableEq, Repr

/-- Operand B of the other classes: a register, or a short immediate (R36). -/
inductive BOp where
  | src (s : Src)
  | imm (v : BitVec 16)
  deriving DecidableEq, Repr

/-- SCOPE (R34, R296). -/
inductive Scope where
  | team | dom | wafer | sys
  deriving DecidableEq, Repr

/-- ORD (R34, R297). -/
inductive Ord where
  | plain | acq | rel | ar
  deriving DecidableEq, Repr

/-- CPOL (R34, R155). -/
inductive Cpol where
  | normal | evict | keep | bypass
  deriving DecidableEq, Repr

/-- Qualifiers of the memory and atomic class (R34). -/
structure MemQ where
  scope : Scope
  ord : Ord
  str : Bool
  sc : Bool
  poll : Bool
  cpol : Cpol
  disp : BitVec 7
  deriving DecidableEq, Repr

/-- Qualifiers of the copy class (R34). -/
structure CopyQ where
  cc : BitVec 2
  scope : Scope
  desc : Bool
  cpol : Cpol
  deriving DecidableEq, Repr

/-- Qualifiers of the matrix class (R34); bsrc is MEM in MRD (R219). -/
structure MatQ where
  acc : BitVec 4
  cmask : BitVec 4
  bsrc : Bool
  deriving DecidableEq, Repr

/-- Qualifiers of the bank class (R34). -/
structure BankQ where
  scope : Scope
  ord : Ord
  deriving DecidableEq, Repr

/-- Qualifiers of the synchronisation class (R34): path bits in the order LS, CP, MX, BK from bit 3 down. -/
structure SyncQ where
  scope : Scope
  ord : Ord
  frm : BitVec 4
  dest : BitVec 4
  deriving DecidableEq, Repr

/-- The operand fields of the classes outside 0x10-0x63, over the class's qualifier type. -/
structure Gen (Q : Type) where
  hdr : Hdr
  d : Dst
  a : Src
  b : BOp
  q : Q
  deriving DecidableEq, Repr

/-- Control, system and DCC class: X is OFS or a depth, 16 bits (R34). -/
abbrev Ctl := Gen (BitVec 16)
abbrev Mem := Gen MemQ
abbrev Cpy := Gen CopyQ
abbrev Mat := Gen MatQ
abbrev Bnk := Gen BankQ
abbrev Syn := Gen SyncQ

/-! Variants: the values of VAR that an opcode's description assigns. -/

/-- IADD, ISUB (R109). -/
inductive IntTy4 where
  | s32 | u32 | s64 | u64
  deriving DecidableEq, Repr

/-- IMUL, IMULHI, IMIN, IMAX, IADIF (R109). -/
inductive IntTy where
  | s32 | u32
  deriving DecidableEq, Repr

/-- IMAD (R109). -/
inductive MadTy where
  | s32 | u32 | wideS | wideU
  deriving DecidableEq, Repr

/-- SHL, SHR, SAR (R110). -/
inductive ShiftV where
  | asGiven | wrap
  deriving DecidableEq, Repr

/-- The single variant 0x0. -/
inductive Only where
  | only
  deriving DecidableEq, Repr

/-- BFE (R112). -/
inductive ExtV where
  | u32 | s32
  deriving DecidableEq, Repr

/-- ICMP (R114). -/
inductive ICond where
  | eq | ne | ltS | leS | gtS | geS | ltU | leU | gtU | geU
  deriving DecidableEq, Repr

/-- SEL (R115): the lane predicate and its negation. -/
structure SelV where
  neg : Bool
  k : BitVec 3
  deriving DecidableEq, Repr

/-- LEA (R116): shift n, sx sign-extends B. -/
structure LeaV where
  sx : Bool
  n : BitVec 3
  deriving DecidableEq, Repr

/-- MOV (R117). -/
inductive MovTy where
  | b32 | b64
  deriving DecidableEq, Repr

/-- MOVLS (R118). -/
inductive MovlsV where
  | get | first | put
  deriving DecidableEq, Repr

/-- DP4 (R121): signedness of the bytes of A and of B. -/
inductive Dp4V where
  | s8s8 | u8u8 | s8u8 | u8s8
  deriving DecidableEq, Repr

/-- FADD, FMUL, FFMA, FMIN, FMAX, FRND (R122). -/
inductive FTy where
  | f32 | f16x2 | bf16x2
  deriving DecidableEq, Repr

/-- FCMP (R124). -/
inductive FCond where
  | eq | ne | lt | le | gt | ge | num | nan
  deriving DecidableEq, Repr

/-- FDOT2 (R127). -/
inductive DotTy where
  | f16 | bf16
  deriving DecidableEq, Repr

/-- CVT (R136), in the order of its table. -/
inductive CvtV where
  | f32s32 | f32u32 | s32f32 | u32f32 | f32f16 | f32bf16 | f16x2 | bf16x2
  | f8e4x2 | f8e5x2 | f32f8e4 | f32f8e5 | s8f32 | i4f32 | f32s8 | f32i4
  deriving DecidableEq, Repr

/-- PACKQ, UNPKQ (R137, R138). -/
inductive PackTy where
  | q4x | i4
  deriving DecidableEq, Repr

/-- SHFL (R140). -/
inductive ShflV where
  | idx | up | down | xor
  deriving DecidableEq, Repr

/-- VOTE (R141). -/
inductive VoteV where
  | any | all | uni | ballot
  deriving DecidableEq, Repr

/-- GRED (R142). -/
inductive RedOp where
  | iadd | iminS | imaxS | iminU | imaxU | and | or | xor | fadd | fmin | fmax
  deriving DecidableEq, Repr

/-- GSCAN (R143), in the order of its variants. -/
inductive ScanV where
  | iadd | iaddEx | fadd | faddEx | imaxS | iminS | imaxU | iminU | and | or | xor | fmax | fmin
  deriving DecidableEq, Repr

/-- RNG (R144). -/
inductive RngTy where
  | u32 | f32
  deriving DecidableEq, Repr

/-- P2V (R146). -/
inductive P2vV where
  | pack | one
  deriving DecidableEq, Repr

/-- V2P (R146). -/
inductive V2pV where
  | unpack | one
  deriving DecidableEq, Repr

/-- SETEXM (R73). -/
inductive ExmOp where
  | set | or | andn | and
  deriving DecidableEq, Repr

/-- Load sizes (R153). -/
inductive LdSz where
  | u8 | s8 | u16 | s16 | b32 | b64 | b128
  deriving DecidableEq, Repr

/-- Store sizes (R153). -/
inductive StSz where
  | b8 | b16 | b32 | b64 | b128
  deriving DecidableEq, Repr

/-- PREF (R160). -/
inductive PrefV where
  | l1 | l2
  deriving DecidableEq, Repr

/-- CCTL (R161). -/
inductive CctlV where
  | wb | inv | wball | invall | ipath
  deriving DecidableEq, Repr

/-- ATOM, RED, ATOMS operations (R162). -/
inductive AtomOp where
  | addU32 | minS32 | maxS32 | minU32 | maxU32 | and | or | xor | exch | fadd | fmin | fmax | addU64 | exchB64
  deriving DecidableEq, Repr

/-- ATOMCAS, CASS widths (R162). -/
inductive CasTy where
  | b32 | b64
  deriving DecidableEq, Repr

/-- Matrix modes (R218). -/
inductive MatMode where
  | f32 | f16 | f8 | q4f8
  deriving DecidableEq, Repr

/-- MMAS: the mode and S (R219). -/
inductive SparseS where
  | s8 | s16 | s32 | s48
  deriving DecidableEq, Repr

structure SparseV where
  mode : MatMode
  s : SparseS
  deriving DecidableEq, Repr

/-- Element formats of MRD's memory form (R230). -/
inductive MrdFmt where
  | f32 | bf16 | f16 | f8e4 | f8e5
  deriving DecidableEq, Repr

/-- MRD's memory form: the format and DESC (R219). -/
structure MrdV where
  fmt : MrdFmt
  desc : Bool
  deriving DecidableEq, Repr

/-- MACC.ld and MACC.ldadd (R219). -/
inductive MaccV where
  | ld | ldadd
  deriving DecidableEq, Repr

/-- BUPD operations (R257). -/
inductive BupdOp where
  | iadd | fadd | fmin | fmax | ffma | mov | and | or
  deriving DecidableEq, Repr

/-- BUPD: the operation and the vector form (R253). -/
structure BupdV where
  op : BupdOp
  vec : Bool
  deriving DecidableEq, Repr

/-- BRED operations (R258). -/
inductive BredOp where
  | iadd | fadd | fmax | fmin | imaxS | iminS
  deriving DecidableEq, Repr

/-! Data of the steps that no word encodes. -/

/-- Who makes an MMIO or host access: a general core or DCC by core number, or a host port (R357, R385). -/
inductive Requester where
  | core (cid : Nat)
  | port (n : Nat)
  deriving DecidableEq, Repr

/-- An AtomicOp of a host port or a peer (R385). -/
inductive HostAtom where
  | add32 (v : Word) | add64 (v : DWord) | swap32 (v : Word) | swap64 (v : DWord)
  | cas32 (cmp new : Word) | cas64 (cmp new : DWord)
  deriving DecidableEq, Repr

/-- An offset in a window of a host port: 512 MiB of registers, or up to 4 TiB of the wafer's addresses (R385). -/
inductive HostBar where
  | bar0 (ofs : BitVec 29) | bar2 (ofs : BitVec 42)
  deriving DecidableEq, Repr

/-- An access that arrives on a wafer link (R389). -/
inductive PeerAcc where
  | read (n : Nat)
  | write (data : List Byte)
  | atomic (op : HostAtom)
  deriving DecidableEq, Repr

/-- A part that firmware retires (R325). -/
inductive Part where
  | core (site : Nat)
  | array (hc : Nat)
  deriving DecidableEq, Repr

/-- A host port or a wafer link (R388). -/
inductive Port where
  | host (n : Nat)
  | link (n : Nat)
  deriving DecidableEq, Repr

/-- The alarm sources (R378, ALMLOG of R9). -/
inductive AlarmSrc where
  | tamper | glitch | forged | misuse
  deriving DecidableEq, Repr

/-- A privileged or unprivileged MMIO access (R8, R322). -/
structure MmioAcc where
  req : Requester
  priv : Bool
  asid : Nat
  deriving DecidableEq, Repr

/-- What firmware sets in a new context's block beside the defaults of R322. -/
structure CtxInit where
  ptroot : BitVec 64
  fqbase : BitVec 64
  fqmask : Word
  save : BitVec 64
  savesz : Word
  lines : List Nat
  deriving DecidableEq, Repr

/-- A firmware image offered to the boot ROM (R377): its bytes, version, signature and public key. -/
structure BootImage where
  body : List Byte
  version : Nat
  sig : Nat
  key : List Byte
  deriving DecidableEq, Repr

/-- One constructor per row of spec/opcode_table.json. -/
inductive Instr where
  -- control flow 0x00-0x0E (R86)
  | nop (o : Ctl) | ifi (o : Ctl) | elsei (o : Ctl) | endif (o : Ctl) | loop (o : Ctl) | endloop (o : Ctl)
  | breaki (o : Ctl) | cont (o : Ctl)
  | hloop (k : BitVec 2) (o : Ctl) | hloopp (k : BitVec 2) (o : Ctl) | hlexit (k : BitVec 2) (o : Ctl)
  | jmp (o : Ctl) | jmps (o : Ctl) | call (o : Ctl) | ret (o : Ctl)
  -- integer, bit and address 0x10-0x2D
  | iadd (v : IntTy4) (o : Alu) | isub (v : IntTy4) (o : Alu) | imul (v : IntTy) (o : Alu) | imulhi (v : IntTy) (o : Alu)
  | imad (v : MadTy) (o : Alu) | imin (v : IntTy) (o : Alu) | imax (v : IntTy) (o : Alu) | iadif (v : IntTy) (o : Alu)
  | shl (v : ShiftV) (o : Alu) | shr (v : ShiftV) (o : Alu) | sar (v : ShiftV) (o : Alu) | rol (v : Only) (o : Alu)
  | and (v : Only) (o : Alu) | or (v : Only) (o : Alu) | xor (v : Only) (o : Alu) | andn (v : Only) (o : Alu)
  | bfe (v : ExtV) (o : Alu) | bfi (v : Only) (o : Alu) | popc (v : Only) (o : Alu) | clz (v : Only) (o : Alu)
  | brev (v : Only) (o : Alu) | icmp (v : ICond) (o : Alu) | sel (v : SelV) (o : Alu) | lea (v : LeaV) (o : Alu)
  | mov (v : MovTy) (o : Alu) | movls (v : MovlsV) (o : Alu) | movsr (v : Only) (o : Alu) | movrs (v : Only) (o : Alu)
  | prmt (v : Only) (o : Alu) | dp4 (v : Dp4V) (o : Alu)
  -- floating point 0x30-0x3A, special functions 0x40-0x46, conversion 0x47-0x49
  | fadd (v : FTy) (o : Alu) | fmul (v : FTy) (o : Alu) | ffma (v : FTy) (o : Alu) | fmin (v : FTy) (o : Alu)
  | fmax (v : FTy) (o : Alu) | fcmp (v : FCond) (o : Alu) | frnd (v : FTy) (o : Alu) | fldexp (v : Only) (o : Alu)
  | fdiv (v : Only) (o : Alu) | fsqrt (v : Only) (o : Alu) | fdot2 (v : DotTy) (o : Alu)
  | rcp (v : Only) (o : Alu) | rsq (v : Only) (o : Alu) | exp2 (v : Only) (o : Alu) | log2 (v : Only) (o : Alu)
  | sinpi (v : Only) (o : Alu) | cospi (v : Only) (o : Alu) | tanh (v : Only) (o : Alu)
  | cvt (v : CvtV) (o : Alu) | packq (v : PackTy) (o : Alu) | unpkq (v : PackTy) (o : Alu)
  -- exchange, random numbers, predicates, mask 0x50-0x63
  | shfl (v : ShflV) (o : Alu) | vote (v : VoteV) (o : Alu) | gred (v : RedOp) (o : Alu) | gscan (v : ScanV) (o : Alu)
  | xshfl (v : Only) (o : Alu) | xshflTimeout (gid : Nat) | rng (v : RngTy) (o : Alu)
  | plop (v : BitVec 4) (o : Alu) | p2v (v : P2vV) (o : Alu) | v2p (v : V2pV) (o : Alu) | setexm (v : ExmOp) (o : Alu)
  -- memory and atomics 0x70-0x84
  | ld (v : LdSz) (o : Mem) | st (v : StSz) (o : Mem) | lds (v : LdSz) (o : Mem) | sts (v : StSz) (o : Mem)
  | ldu (v : LdSz) (o : Mem) | stu (v : StSz) (o : Mem) | ldq (v : Only) (o : Mem) | lddesc (v : Only) (o : Mem)
  | stdesc (v : Only) (o : Mem) | pref (v : PrefV) (o : Mem) | cctl (v : CctlV) (o : Mem)
  | atom (v : AtomOp) (o : Mem) | atomcas (v : CasTy) (o : Mem) | red (v : AtomOp) (o : Mem)
  | atoms (v : AtomOp) (o : Mem) | cass (v : Only) (o : Mem)
  -- copies 0x90-0x96
  | cpyin (o : Cpy) | cpyout (o : Cpy) | cpygth (o : Cpy) | cpyreg (o : Cpy) | cpydsmTodsm (o : Cpy)
  | cpydsmFromdsm (o : Cpy) | cpywait (o : Cpy) | cpystat (o : Cpy)
  -- matrix 0xA0-0xA9
  | mchain (o : Mat) | mcend (o : Mat) | mldb (o : Mat) | mma (v : MatMode) (o : Mat) | mmas (v : SparseV) (o : Mat)
  | mzero (o : Mat) | mrd (o : Mat) | mrdMem (v : MrdV) (o : Mat) | mquire (o : Mat) | mwait (o : Mat)
  | maccAdd (o : Mat) | maccLd (v : MaccV) (o : Mat)
  -- banks 0xB0-0xB5
  | bupd (v : BupdV) (o : Bnk) | bred (v : BredOp) (o : Bnk) | vtopk (o : Bnk) | vsmax (o : Bnk) | vsamp (o : Bnk)
  | bwait (o : Bnk)
  -- synchronisation 0xC0-0xC6
  | bar (n : BitVec 4) (o : Syn) | bararv (n : BitVec 4) (o : Syn) | barwt (n : BitVec 4) (o : Syn)
  | cbar (n : BitVec 2) (o : Syn) | fence (o : Syn) | pfence (o : Syn) | tadv (o : Syn)
  -- system 0xD0-0xD7
  | exit (o : Ctl) | groupSlotFree (gid : Nat) | teamResourcesFree (tid : Nat) | trap (o : Ctl) | rte (o : Ctl)
  | bkpt (o : Ctl) | yieldi (o : Ctl) | sleep (o : Ctl) | sleepExpiry (gid : Nat) | divst (o : Ctl) | inflt (o : Ctl)
  -- domain control 0xE0-0xE7
  | gsubGraph (o : Ctl) | gsubNode (o : Ctl) | evpop (o : Ctl) | evwait (o : Ctl) | evwaitTimeout (gid : Nat)
  | nrel (o : Ctl) | folio (o : Ctl) | ctxsus (o : Ctl) | ctxres (o : Ctl) | budget (o : Ctl)
  -- landings, replay, trap entry
  | fixedResultLand (gid : Nat) | variableResultLand (gid op : Nat) (lanes : LaneMask) | instructionReplay (gid : Nat)
  | trapEntry (gid : Nat)
  -- teams, nodes, colophons
  | teamStart (tid : Nat) | clusterPlacement (nid : Nat) | nodeReady (nid : Nat) | dccProgramStart (nid : Nat)
  | nodeComplete (nid : Nat) | colophonRetry (d : Nat) | defqWrite (asid d : Nat) (va : BitVec 64)
  | evpostWrite (d : Nat) (w : Word)
  -- translation
  | pageWalk (id : Nat) | heldFaultRecordAppend (d : Nat) | replay (d : Nat) (token : BitVec 64)
  | tlbcmdRange (asid page pages : Nat) | tlbcmdAsid (asid : Nat)
  | ctlbRange (asid page pages : Nat) | ctlbAsid (asid : Nat) | tlbcmdDone (id : Nat)
  -- sizes of L1 and DSM, logical time
  | l1cfg (cid : Nat) (v : Word) | l1SizeChange (cid : Nat) | dsmcfg (d : Nat) (v : Word) | dsmSizeChange (d : Nat)
  | logicalTimeTick (cid : Nat) | domainWrap (d : Nat) | epochSweepDone (d : Nat)
  -- fills, slice and directory transactions
  | l1Fill (id : Nat) | leaseGrant (id : Nat) | sliceWrite (id : Nat) | writeBackAck (id : Nat) | sliceFill (id : Nat)
  | readShared (id : Nat) | writePermission (id : Nat) | waferScopeRead (id : Nat) | invalidation (id : Nat)
  | forward (id : Nat) | recall (id : Nat) | invalidationAck (id : Nat) | ownerWriteBack (id : Nat)
  | nearBankAtomic (id : Nat) | bankOperation (id : Nat) | bankTicketComplete (id : Nat)
  -- copy and matrix engines
  | copyStart (cid : Nat) | copyComplete (id : Nat) | copyPageResume (id : Nat)
  | matrixSubtileStart (hcid : Nat) (transfer : Bool) | matrixOpComplete (id : Nat) | matrixFaultResume (id : Nat)
  -- suspension
  | cmdSuspend (acc : MmioAcc) (asid : Nat) (dcc : Bool) | cmdResume (acc : MmioAcc) (asid : Nat) (dcc : Bool)
  | spineSuspend (asid d nid : Nat) | spineReasonEnd (asid d : Nat) | teamSaveComplete (tid : Nat)
  | divertedArrival (id : Nat) | accImageSave (hcid : Nat) | dawn (tid : Nat) | landingBufferArrival (id : Nat)
  -- debug
  | step (asid : Nat) (v : BitVec 64) | dfactRetire (asid site slot : Nat) | dfactReturn (asid site slot : Nat)
  | dbgctl (asid : Nat) (v : Word) | sampleWrite (cid : Nat) | watchpointArm (cid n : Nat) (v : BitVec 128)
  | watchpointArmComplete (cid n : Nat) | watchpointDisarm (cid n : Nat) (v : BitVec 128) | watchpointReport (id : Nat)
  | binlo (cid n : Nat) (v : BitVec 64) | elo (acc : MmioAcc) (asid : Nat) | ehi (acc : MmioAcc) (asid : Nat)
  -- metering, power, heat
  | sensorUpdate (d c : Nat) (die : BitVec 8) (dram : List (BitVec 8))
  | talRefill (d : Nat) | tal (d : Nat) (v : BitVec 128) | patUpdate (d : Nat) | ppat (d c : Nat) (v : Word)
  | powctl (d : Nat) (v : Word) | refreshIntervalStart (d : Nat) | refreshWindow (d ch : Nat)
  -- topology, alarms, boot
  | topologyRetire (d : Nat) (p : Part) | almpol (v : Word) | almlock (v : Word) | alarm (src : AlarmSrc)
  | bootImageCheck (img : BootImage) | attestationQuote (nonce : List Byte)
  -- host and links
  | hostInboundRead (port : Nat) (ofs : HostBar) (n : Nat)
  | hostInboundWrite (port : Nat) (ofs : HostBar) (data : List Byte) (relaxed : Bool)
  | hostInboundAtomic (port : Nat) (ofs : HostBar) (op : HostAtom)
  | peerInboundAccess (link : Nat) (ofs : BitVec 38) (acc : PeerAcc) | outboundFlushCompletion (port : Nat)
  | linkDown (p : Port) | linkCrcReplay (link flits : Nat) (recovered : Bool)
  | registerWrite (acc : MmioAcc) (ofs : Nat) (size : Nat) (v : BitVec 64) | linkUp (p : Port)
  | peerWriteAck (link : Nat) | yieldExpiry (gid : Nat)
  -- contexts and the rest
  | contextCreate (asid : Nat) (init : CtxInit) | contextDestroy (asid : Nat)
  | debugUnlock (sig : Nat) (body : List Byte)
  -- the last ones (Lean's runtime has no tag for a 246th constructor with fields): a grant, TLBCMD, metering, energy, reset, a mark
  | scTicketGrant | tlbcmdAll | meteringIntervalEnd | energyWindowEnd | moduleReset | markDegraded (d : Nat) (l2 : Bool)
  deriving DecidableEq, Repr

end Sys2Proof
end

