-- ==== Sys2Proof/Machine/Flags.lean ====
section
/-! DEFINITION. The sticky flags of R66 as a seven-bit value, and the integer saturation of R26. -/

namespace Sys2Proof.Machine

/-- sr.flags (R66). -/
abbrev Flags := BitVec 7

def flInv : Flags := 0b0000001
def flDbz : Flags := 0b0000010
def flOvf : Flags := 0b0000100
def flUnf : Flags := 0b0001000
def flInx : Flags := 0b0010000
def flSat : Flags := 0b0100000
def flPsn : Flags := 0b1000000

/-- A flag when a condition holds. -/
def flagIf (c : Bool) (f : Flags) : Flags := if c then f else 0

/-- R26, CLMP 11 on an integer result: the exact value v saturated to the signed or unsigned w-bit range, and SAT if that
changed it; without the clamp, v modulo 2^w (R109). -/
def clampInt (sat signed : Bool) (w : Nat) (v : Int) : BitVec w × Flags :=
  let lo : Int := if signed then -(2 ^ (w - 1) : Nat) else 0
  let hi : Int := if signed then (2 ^ (w - 1) : Nat) - 1 else (2 ^ w : Nat) - 1
  if sat then
    let c := if v < lo then lo else if hi < v then hi else v
    (BitVec.ofInt w c, flagIf (c != v) flSat)
  else (BitVec.ofInt w v, 0)

end Sys2Proof.Machine
end

