-- ==== Sys2Proof/Machine/LaneInt.lean ====
section
/-! DEFINITION. The per-lane results of the integer, bit, compare and byte instructions (R109-R121), of RNG (R144) and
of the predicate table (R145). -/

namespace Sys2Proof.Machine

/-- A 32-bit operand as the exact integer its type names. -/
def intOf (signed : Bool) (a : Word) : Int := if signed then a.toInt else a.toNat
def intOf64 (signed : Bool) (a : DWord) : Int := if signed then a.toInt else a.toNat

def isSat (c : Clamp) : Bool := c == .sat
def tySigned (t : IntTy) : Bool := t == .s32
def ty4Signed (t : IntTy4) : Bool := t == .s32 || t == .s64

/-- R109 over 32-bit operands: the exact result of op, saturated or wrapped. -/
def laneInt2 (op : Int → Int → Int) (signed sat : Bool) (a b : Word) : Word × Flags :=
  clampInt sat signed 32 (op (intOf signed a) (intOf signed b))
/-- R109 over pairs. -/
def laneInt2w (op : Int → Int → Int) (signed sat : Bool) (a b : DWord) : DWord × Flags :=
  clampInt sat signed 64 (op (intOf64 signed a) (intOf64 signed b))
def laneImulhi (t : IntTy) (a b : Word) : Word :=
  BitVec.ofInt 32 ((intOf (tySigned t) a * intOf (tySigned t) b) / (2 ^ 32 : Nat))
/-- IMAD of 32 bits and .wide (R109). -/
def laneImad (signed sat : Bool) (a b c : Word) : Word × Flags :=
  clampInt sat signed 32 (intOf signed a * intOf signed b + intOf signed c)
def laneImadWide (signed sat : Bool) (a b : Word) (c : DWord) : DWord × Flags :=
  clampInt sat signed 64 (intOf signed a * intOf signed b + intOf64 signed c)
def laneImin (t : IntTy) (a b : Word) : Word := if intOf (tySigned t) b < intOf (tySigned t) a then b else a
def laneImax (t : IntTy) (a b : Word) : Word := if intOf (tySigned t) a < intOf (tySigned t) b then b else a
def laneIadif (t : IntTy) (a b : Word) : Word :=
  BitVec.ofInt 32 ((intOf (tySigned t) a - intOf (tySigned t) b).natAbs : Nat)

/-- The count of R110. -/
def shiftCount (v : ShiftV) (b : Word) : Nat := if v == .wrap then b.toNat % 32 else b.toNat
def laneShl (v : ShiftV) (a b : Word) : Word := if shiftCount v b < 32 then a <<< shiftCount v b else 0
def laneShr (v : ShiftV) (a b : Word) : Word := if shiftCount v b < 32 then a >>> shiftCount v b else 0
def laneSar (v : ShiftV) (a b : Word) : Word := a.sshiftRight (min (shiftCount v b) 31)
def laneRol (a b : Word) : Word := a.rotateLeft (b.toNat % 32)

/-- pos, len and the highest bit of R112. -/
def fieldPos (b : Word) : Nat := b.toNat % 256
def fieldLen (b : Word) : Nat := b.toNat / 256 % 256
def fieldWidth (b : Word) : Nat := min (fieldPos b + fieldLen b) 32 - fieldPos b
/-- BFE (R112). -/
def laneBfe (v : ExtV) (a b : Word) : Word :=
  if fieldLen b = 0 || 32 ≤ fieldPos b then 0
  else
    let w := fieldWidth b
    let f := a.toNat / 2 ^ fieldPos b % 2 ^ w
    if v == .s32 && 2 ^ (w - 1) ≤ f then BitVec.ofNat 32 (f + (2 ^ 32 - 2 ^ w)) else BitVec.ofNat 32 f
/-- BFI (R112). -/
def laneBfi (a b c : Word) : Word :=
  if fieldLen b = 0 || 32 ≤ fieldPos b then c
  else
    let mask : Word := BitVec.ofNat 32 ((2 ^ fieldWidth b - 1) * 2 ^ fieldPos b)
    (c &&& ~~~mask) ||| ((a <<< fieldPos b) &&& mask)
/-- Number of set bits among the lowest k. -/
def countBits (n : Nat) : Nat → Nat
  | 0 => 0
  | k + 1 => n / 2 ^ k % 2 + countBits n k
def popcount (a : Word) : Nat := countBits a.toNat 32
def lanePopc (a : Word) : Word := BitVec.ofNat 32 (popcount a)
def laneClz (a : Word) : Word := BitVec.ofNat 32 (if a = 0 then 32 else 31 - Nat.log2 a.toNat)
def laneBrev (a : Word) : Word := a.reverse

/-- ICMP (R114). -/
def laneIcmp (v : ICond) (a b : Word) : Bool :=
  match v with
  | .eq => a == b
  | .ne => a != b
  | .ltS => a.slt b
  | .leS => a.sle b
  | .gtS => b.slt a
  | .geS => b.sle a
  | .ltU => a.ult b
  | .leU => a.ule b
  | .gtU => b.ult a
  | .geU => b.ule a

/-- The word a comparison writes to a register (R114). -/
def boolWord (c : Bool) : Word := if c then 0xFFFFFFFF else 0

/-- LEA (R116). -/
def laneLea (v : LeaV) (a : DWord) (b : Word) : DWord :=
  a + ((if v.sx then b.signExtend 64 else b.setWidth 64) <<< v.n.toNat)

/-- Byte i of a word. -/
def byteOf (w : Word) (i : Nat) : Byte := w.extractLsb' (8 * i) 8
/-- PRMT (R120). -/
def lanePrmt (a b c : Word) : Word :=
  let pick (i : Nat) : Byte :=
    let s := (c.extractLsb' (4 * i) 4).toNat
    let by_ := if s % 8 < 4 then byteOf a (s % 8) else byteOf b (s % 8 - 4)
    if 8 ≤ s then (if by_.msb then 0xFF else 0) else by_
  pick 3 ++ pick 2 ++ pick 1 ++ pick 0

/-- DP4 (R121). -/
def laneDp4 (v : Dp4V) (a b c : Word) : Word :=
  let ext (signed : Bool) (x : Byte) : Int := if signed then x.toInt else x.toNat
  let sa := v == .s8s8 || v == .s8u8
  let sb := v == .s8s8 || v == .u8s8
  let t (i : Nat) : Int := ext sa (byteOf a i) * ext sb (byteOf b i)
  BitVec.ofInt 32 ((c.toNat : Int) + t 0 + t 1 + t 2 + t 3)

/-- One round of RNG (R144). -/
def rngRound (k0 k1 : Word) (s : Word × Word) (i : Nat) (w : Word) (p q : Nat) : Word × Word :=
  let x := s.1 + s.2 + w
  let y := s.2.rotateLeft p ^^^ x
  (x.rotateLeft q + (if i % 2 = 0 then k1 else k0), y)
/-- The 32 bits of RNG for a counter and a key (R144). -/
def rngBits (c k : DWord) : Word :=
  let c0 : Word := c.extractLsb' 0 32
  let c1 : Word := c.extractLsb' 32 32
  let k0 : Word := k.extractLsb' 0 32
  let k1 : Word := k.extractLsb' 32 32
  let s := (c0 + k0, c1 ^^^ k1)
  let s := rngRound k0 k1 s 0 0x9E3779B9 13 15
  let s := rngRound k0 k1 s 1 0x7F4A7C15 17 29
  let s := rngRound k0 k1 s 2 0xF39CC060 26 16
  let s := rngRound k0 k1 s 3 0x5CEDC834 6 24
  s.1 ^^^ s.2.rotateLeft 7

/-- PLOP's truth table (R145). -/
def laneLut (v : BitVec 4) (a b : Bool) : Bool := v.getLsbD (2 * a.toNat + b.toNat)

end Sys2Proof.Machine
end

