-- ==== Sys2Proof/Config.lean ====
section
/-! DEFINITION. What an implementation fixes and the spec does not: free values, each an opaque constant with no body, so that
no proof can know one. Each names its entry in notes/assumptions. -/

namespace Sys2Proof.Config

/-- R42, R78: whether a read by issue n of group gid, before result id lands, already sees lane l of it. Log 5. -/
opaque racePick (gid n id l : Nat) : Bool
/-- Lost rounds, contention and waits whose length no rule fixes, for the work item or result id. Log 6. -/
opaque extraDelay (id : Nat) : Nat
/-- R188: the hash of PA[47:6] that picks one of n L1 sets. Log 8. -/
opaque l1Set (line n : Nat) : Nat
/-- R272: the set of a TLB with n sets. Log 8. -/
opaque tlbSet (asid vpn n : Nat) : Nat
/-- R311: the set of the directory with n sets. Log 8. -/
opaque dirSet (line n : Nat) : Nat
/-- R44: whether the fetch number n of a core reads the current word in place of the cached one. Log 9. -/
opaque codePick (core n : Nat) : Bool
/-- R208, R205: whether word w of copy id, read while another access may change it, is the newer value. Log 20. -/
opaque copyPick (id w : Nat) : Bool
/-- R231: which of a group's eligible chain operations a unit takes, at free value n. Log 5. -/
opaque chainPick (n : Nat) : Nat
/-- R260: a value left open by a racing write, number n. Log 17. -/
opaque freeWord (n : Nat) : Word
/-- R356: the energy, in units of 2^-20 µJ, of hardware cluster h in interval n, and of the rest of domain d; R286: the µJ charged to a
node, number n. Log 16. -/
opaque clusterEnergy (h n : Nat) : Nat
opaque domainEnergy (d n : Nat) : Nat
opaque nodeEnergy (n : Nat) : Nat
/-- R358: sensor k of hardware cluster c (0 the die, 1-4 the DRAM layers) of domain d at the end of interval n. Log 11. -/
opaque sensor (d c k n : Nat) : BitVec 8
/-- R361: where in the 16 slots firmware begins to remove pulses, at its write number n. Log 11. -/
opaque patPhase (n : Nat) : Nat
/-- R377: RSA-3072 verification of a digest under a key, and signing by the identity key. Log 14. -/
opaque rsaVerify (key : List Byte) (digest : BitVec 256) (sig : Nat) : Bool
/-- R275, R377: where the firmware of domain d's DCC begins and its save area, its vector and scalar registers. Log 89. -/
opaque firmwareEntry (d : Nat) : BitVec 48
opaque firmwareSave (d : Nat) : BitVec 64
opaque firmwareRegs (d : Nat) : Nat × Nat
/-- R377, R378: the fused digest of the public key and rollback count, and the key of a signed unlock. Log 14. -/
opaque fusedKeyDigest : BitVec 256
opaque fusedRollback : Nat
opaque unlockKey : List Byte
opaque rsaSign (message : List Byte) : List Byte
/-- R377: the device identity in a quote. Log 14. -/
opaque deviceIdentity : List Byte
/-- R267: what a DRAM read, free value n, finds: 1 a corrected error, 2 an uncorrectable one, else none. Log 17. -/
opaque memError (n : Nat) : Nat
/-- R267, R376: an error that the code of a store finds: in a slice or DSM frame (its slice and line), in a word of the store die (lane l of vector
register r, or scalar register r, of group gid; word w, in bytes, of a team's scratchpad), or of a column store (an accumulator element, or
8-byte word w of the B store, of hardware cluster h). -/
inductive Upset where
  | frame (d line : Nat) | vreg (gid r l : Nat) | sreg (gid r : Nat) | spad (tid w : Nat) | acc (h slot i j : Nat) | bword (h w : Nat)
  deriving DecidableEq, Repr

/-- R267, R376: what the codes of the stores find in clock t, and whether each error is uncorrectable. Log 17. -/
opaque upsets (t : Nat) : List (Upset × Bool)
/-- R13, R249: the DSM size, in 2 MiB steps, that the resident contexts ask of domain d, at free value n. Log 80. -/
opaque dsmRequest (d n : Nat) : Nat
/-- R308: whether the test at boot found the sequencer of domain d or its router faulty. Log 10. -/
opaque sequencerBad (d : Nat) : Bool

/-- Line of a power-on memory byte (log 1). -/
def powerOnByte : Byte := 0
/-- R58: descriptor of a line that nothing has described. -/
def freshDesc : LineDesc := 0x7F00

/-! Figures of R3, R40, R41, R177, R185, R244, R247, R272, R275. -/
def domains : Nat := 64
def sites : Nat := 144
def dccSite : Nat := 144
def granules : Nat := 3072
def transferDelay : Nat := 6
def bankDelay : Nat := 3
def handlerDelay : Nat := 48
def windowDepth : Nat := 8
def dccScratch : Nat := 49152
def spineNodes : Nat := 65536
def contextNodes : Nat := 16384

end Sys2Proof.Config
end

