-- ==== Sys2Proof/Machine/Parts.lean ====
section
/-! DEFINITION. The record types that the machine's state is made of, each with the rules that name its fields. -/

namespace Sys2Proof.Machine

/-- A table by key, keys strictly rising. -/
abbrev Tbl (α : Type) := List (Nat × α)
/-- One value per lane, lane 0 first; a scalar is a list of one. -/
abbrev Lanes := List Word

/-! The group. -/

/-- Loop register Lk (R94); hi is HI. -/
structure LoopReg where
  start : Word := 0
  fin : Word := 0
  count : Word := 0
  index : Word := 0
  rrb : BitVec 6 := 0
  base : BitVec 10 := 0
  size : BitVec 7 := 0
  live : Bool := false
  pipe : Bool := false
  level : Nat := 0
  sm1 : BitVec 3 := 0
  stmask : BitVec 8 := 0
  hi : BitVec 14 := 0
  deriving DecidableEq, Repr

/-- A register by its physical number in the group's window, or a predicate, or a special register. -/
inductive RegName where
  | vec (r : Nat) | scal (r : Nat) | pred (k : Nat) | spec (r : Nat)
  deriving DecidableEq, Repr

/-- A fixed-latency result (R42) from issue to its departure from the forwarding window (R79, R80): due in cluster
clocks, beaten the lanes a later landing replaced, kill the lanes a KILL read marked. -/
structure Result where
  num : Nat
  due : Nat
  landed : Bool
  dst : RegName
  mask : LaneMask
  vals : Lanes
  flags : Flags
  beaten : LaneMask
  kill : LaneMask
  deriving DecidableEq, Repr

/-- Window entries of which an instruction's KILL marks lanes: the number of the issue, the register, the lanes (R80). -/
abbrev Kills := List (Nat × RegName × LaneMask)

/-- What a load lane delivers: a size of R153, an element of a described line (R158), a descriptor (R159). -/
inductive LoadForm where
  | data (sz : LdSz) | elem (i : Word) | desc
  deriving DecidableEq, Repr

/-- One lane of a load: its physical address and form. -/
structure LaneReq where
  lane : Nat
  pa : Nat
  form : LoadForm
  deriving DecidableEq, Repr

/-- What produced a variable-latency result. -/
inductive VKind where
  | load | atomic | xshfl | mrd | info | aperture | copy
  deriving DecidableEq, Repr

/-- A variable-latency result (R42, R43), or a write from outside the group's stream (R78, own false): the lanes not yet
landed, those whose value has arrived, the values per destination register, flags per lane, the landing time (in
cluster clocks when cl), and the lanes that wait for an L1 fill, with its work item. -/
structure VRes where
  id : Nat
  num : Nat
  kind : VKind
  own : Bool
  writer : Nat
  dsts : List RegName
  lanes : LaneMask
  ready : LaneMask
  vals : List Lanes
  lflags : List Flags
  due : Nat
  cl : Bool
  /-- An acquire of this scope, with the greatest wts it read and whether a bank of another domain served it (R196). -/
  acq : Option Scope
  wts : Nat
  far : Bool
  waits : List LaneReq
  fill : Nat
  quire : Option Nat
  /-- Virtual address of its lowest lane, and its key in the in-flight table. -/
  faddr : Nat
  infl : Nat
  /-- Of a store through the register aperture (R78): the group whose store it is, and the bytes of the word it changes, first and number. -/
  store : Option Nat := none
  part : Option (Nat × Nat) := none
  /-- Of an XSHFL's values: the core that they come from (R383). -/
  source : Option Nat := none
  /-- Virtual address of each lane, where its lanes read several lines: poison is reported with that of the lowest lane that met it (R157, R178). -/
  fas : List Nat := []
  deriving DecidableEq, Repr

/-- Outcome of a page's translation (R270): frame base with its attributes, a fault code, or not present. -/
inductive Xlat where
  | ok (pa : Nat) (w nx priv : Bool)
  | fault (code : Nat)
  | absent
  deriving DecidableEq, Repr

/-- The memory, bank or copy access in progress (R152): operands as read at the first issue, lanes still to perform, the
translations known by page, the walks awaited, the lanes that ran. -/
structure Access where
  todo : LaneMask
  ea : List Nat
  vals : List Lanes
  xl : Tbl Xlat
  walks : List Nat
  parked : Bool
  /-- Its key in the in-flight table, 0 for none (R370). -/
  key : Nat := 0
  /-- Pages of a bank operation's ranges, which no lane stands for (R256). -/
  pages : List Nat := []
  /-- A watched byte it has changed already: watchpoint and address (R373). -/
  hit : Option (Nat × Nat) := none
  /-- The context whose pages it names, where that is not the group's own (R293). -/
  ctx : Option Nat := none
  /-- What its KILL marks name: the entries that its sources were read from at its first issue; they take effect when it completes (R80, R152). -/
  kills : Kills := []
  deriving DecidableEq, Repr

/-- A trap about to be taken (R177-R179). -/
structure TrapReq where
  code : Nat
  arg : Nat
  impr : Bool := false
  defer : Bool := false
  resume : Nat
  faddr : Nat := 0
  flanes : LaneMask := 0
  skid : Option Nat := none
  /-- The instruction that raised it has completed and carries SW (R22, R174). -/
  sw : Bool := false
  deriving DecidableEq, Repr

/-- A pending asynchronous cause (R180). -/
structure Pending where
  code : Nat
  arg : Nat
  faddr : Nat
  since : Nat
  deriving DecidableEq, Repr

/-- Progress of a release (R191, R299): not begun, or the work items still awaited before the next stage. -/
structure Rel where
  scope : Scope
  stage : Nat
  deps : List Nat
  deriving DecidableEq, Repr

/-- Why a group does not issue. -/
inductive Park where
  | running
  /-- R43 after SW. -/
  | sw
  /-- A waiting instruction (R43) at its stage. -/
  | wait (stage : Nat)
  /-- R176: cluster clocks still due at the clock `since`. -/
  | sleep (since left : Nat)
  /-- Translations awaited, or replay (R151, R152). -/
  | xlat
  /-- Code fetch awaits a translation, or with 0 the release of its page. -/
  | fetch (walk : Nat)
  /-- Trap entry awaits its save area (R177). -/
  | entry (t : TrapReq) (walk : Nat)
  /-- RTE awaits its save area (R182). -/
  | rte (walk : Nat)
  /-- Unpaired in XSHFL (R241): the last clock in which the partner may arrive, the lanes offered, the destination,
  the key in the in-flight table. -/
  | xshfl (last partner : Nat) (run : LaneMask) (vals : Lanes) (dst key : Nat) (hdr : Hdr)
  /-- Double-faulted (R183). -/
  | dead
  deriving DecidableEq, Repr

/-- A queued matrix operation (R220): what it does. -/
inductive MKind where
  | mldb (src bofs rowb rows : Nat) (pitch : Int)
  | mma (mode : MatMode) (sparse : Option Nat) (aofs apitch : Nat) (b : Int) (stream : Bool) (bpitch : Int)
      (m n k mofs cmask : Nat)
  | mzero (n : Nat)
  | mrdReg (op row col : Nat) (run : LaneMask)
  | mrdMem (fmt : MrdFmt) (desc : Bool) (addr : Nat) (pitch : Int) (rows cols row0 col0 : Nat) (spad : Bool) (scale : Nat)
  | maccAdd (src : Nat)
  | maccLd (add : Bool) (addr : Nat) (pitch : Int) (rows cols row0 col0 : Nat) (spad : Bool)
  deriving DecidableEq, Repr

/-- A line's data and descriptor. -/
structure LineImg where
  data : List Byte
  desc : LineDesc
  deriving DecidableEq, Repr

/-- A queued matrix operation (R231, R238): the sub-tile and step reached, the clock (of the cluster) at which its completion is
recorded once it is known, the page it is parked for, the pieces set aside, and scratchpad words (team, offset, value) that it
reads as they were before a later store (R235). -/
structure MOp where
  id : Nat
  acc : Nat
  kind : MKind
  chain : Nat
  quire : Nat
  sub : Nat
  step : Nat
  started : Bool
  endAt : Option Nat
  parked : Option Nat
  left : List Nat
  early : List (Nat × Nat × Word)
  flags : Flags
  fault : Option (Nat × Nat)
  /-- Of the row of streamed B that it has reached: the lines read before a request was held (R355), by their numbers in the row. -/
  buf : Tbl LineImg := []
  /-- The page it was parked for, looked up since: its first access there takes the outcome as it is (R272). -/
  looked : Option Nat := none
  deriving DecidableEq, Repr

/-- A quire of the group (R233): closed, and what its completed operations raised (R68). -/
structure Quire where
  num : Nat
  closed : Bool
  flags : Flags
  deriving DecidableEq, Repr

/-- A folio entry (R281): the first and last byte of its span, and whether it writes. -/
structure Folio where
  lo : Int
  hi : Int
  empty : Bool
  write : Bool
  deriving DecidableEq, Repr

/-- The parts of a group that decide its issue (R41, R82, R168, R174, R367). -/
structure Sched1 where
  issued : Nat := 0
  notBefore : Nat := 0
  srcAt : Option Nat := none
  /-- Pending prefetches (R82): the number of the issue, the address of the instruction, the clock at which its sources are ready. -/
  prefetch : List (Nat × Nat × Nat) := []
  /-- The generation of the core's instruction path at the last taken transfer (R44). -/
  codeGen : Nat := 0
  starveV : Nat := 0
  starveM : Nat := 0
  young : Bool := false
  yieldAt : Option Nat := none
  poll : List Nat := []
  armed : Bool := false
  fromRte : Bool := false
  lastStop : Option Nat := none
  /-- Its instruction has drained the window at its issue, and is not complete (R81). -/
  drained : Bool := false
  replayPc : Option Nat := none
  sleepLeft : Nat := 0
  /-- Its first instruction has still to issue (R284): it begins with an acquire. -/
  fresh : Bool := false
  /-- Its record did not pass at dawn: it double-faults at its first issue (R343). -/
  bad : Bool := false
  /-- A wake event of SLEEP has come while it was halted: its SLEEP is over when it comes back (R334). -/
  woken : Bool := false
  /-- A DFACT that has still to take effect: 1 retire, 2 return (R288, R366). -/
  dfact : Nat := 0
  /-- The clock of its hardware cluster from which its next matrix operation outside a chain may start (R231). -/
  mxAt : Nat := 0
  deriving DecidableEq, Repr

/-- A group (R71) with what is in flight for it. Its window of the unified store (R75) is vregs and sregs, by physical
register number: a register not listed holds zero. -/
structure Group where
  team : Nat
  idx : Nat
  vregs : Tbl Lanes
  sregs : Tbl Word
  pc : Addr
  exm : LaneMask
  cnt : List Byte
  preds : List LaneMask
  gbase : Nat
  gsize : Nat
  ssize : Nat
  flags : Flags
  replay : LaneMask
  trapcause : Word
  tsa : DWord
  xtimeout : Word
  loops : List LoopReg
  cc : List Nat
  nextQuire : Nat
  quires : List Quire
  chainOpen : Bool
  chain : Nat
  mq : List MOp
  level : Bool
  priv : Bool
  pend : List Pending
  folios : List Folio
  results : List Result
  vres : List VRes
  acc : Option Access
  rel : Option Rel
  park : Park
  sched : Sched1
  retired : Bool
  acqWts : List Nat
  acqFar : List Bool
  /-- A fence has made later writes releases at domain scope or wider (R195, R305). -/
  fenced : Bool
  defCause : Nat
  defCount : Nat
  defAddr : Nat
  halted : Bool
  /-- The instruction that waits, or is to be replayed (R43, R152). -/
  held : Option Instr
  /-- The domains that have executed bank operations of the group (R306, R313). -/
  bankAt : List Nat := []
  /-- Its register words with an uncorrectable error, by register and lane, until they are written (R376). -/
  bad : List (RegName × Nat) := []
  /-- By barrier, cluster barriers from 16 on: from when it may issue after the last completed phase in which it arrived, and what the end of
  its wait acquires (R173, R196: log 35). -/
  phases : Tbl (Nat × Nat) := []
  /-- Of a firmware group: the host posts it has popped and not submitted yet, each the graph's address and the ASID of its record (R293). -/
  posts : List (Nat × Nat) := []
  deriving DecidableEq, Repr

/-! Teams and clusters. -/

/-- State word of a barrier (R171). -/
structure Barrier where
  arr : Nat := 0
  isOpen : Bool := false
  phase : Bool := false
  live : Bool := false
  exp : Nat := 0
  cnt : Nat := 0
  /-- From when the waiters of the last phase may issue (R173), and the greatest logical time of an arrival in the open and in the
  last completed phase, which the end of a wait on it acquires (R173, R196: log 35). -/
  openAt : Nat := 0
  pts : Nat := 0
  last : Nat := 0
  deriving DecidableEq, Repr

/-- Where a suspended team stands (R334-R343): rows is how many its image takes; until is when its restore ends. -/
inductive Presence where
  | present | saving (rows : Nat) | absent | restoring (until' : Nat)
  deriving DecidableEq, Repr

/-- An arrival for a team's storage (R210, R343). -/
inductive Arrival where
  /-- One register: group index, register, lanes, values. -/
  | reg (g : Nat) (r : RegName) (mask : LaneMask) (vals : Lanes)
  /-- Bytes of one lane of a register, from byte i of the word (R77). -/
  | regPart (g : Nat) (r : RegName) (l i : Nat) (bytes : List Byte)
  /-- One scratchpad word or its bytes. -/
  | spad (ofs : Nat) (bytes : List Byte)
  | spadDesc (line : Nat) (d : LineDesc)
  | counter (g c : Nat)
  /-- The arrival of group g at barrier b with its count, at the logical time pts (R172, R209). -/
  | bar (g b count pts : Nat)
  deriving DecidableEq, Repr

structure Suspend where
  st : Presence := .present
  shadow : Nat := 0
  accImg : Nat := 0
  accSaved : Bool := false
  entry : Option Nat := none
  start : Nat := 0
  /-- Added to its groups' keys while its slots are given up (R338). -/
  key : Nat := 0
  buffer : List Arrival := []
  dawns : Nat := 0
  shadowed : Nat := 0
  landed : Nat := 0
  kinds : Nat := 0
  deferred : Nat := 0
  dawnAsked : Bool := false
  /-- Of a DCC program: a resumption with DCC = 1 has asked for it (R332). -/
  wanted : Bool := false
  /-- Operations with a lower number were in flight at its last dawn (R343). -/
  mark : Nat := 0
  /-- Its image's place is kept for a dusk that follows a dawn (R330, R332). -/
  keep : Bool := false
  deriving DecidableEq, Repr

/-- A team (R166-R175). Its scratchpad is spad by byte offset, zero where not listed, with spDesc by line, 0x7F00 where
not listed (R167). slots is the group slot of each group index. -/
structure Team where
  cid : Nat
  slots : List Nat
  spBase : Nat
  spGran : Nat
  spBytes : Nat
  seq : Nat
  asid : Nat
  nid : Nat
  index : Nat
  cluster : Nat
  place : Nat
  launched : Nat
  entry : Nat
  stopmap : Nat
  bars : List Barrier
  spad : Tbl Byte
  spDesc : Tbl LineDesc
  retiredN : Nat
  sus : Suspend
  /-- The scratchpad's words with an uncorrectable error, until they are written (R376). -/
  bad : List Nat := []
  deriving DecidableEq, Repr

/-- A resident cluster (R216, R217). -/
structure Cluster where
  nid : Nat
  asid : Nat
  index : Nat
  hcid : Nat
  w : Nat
  h : Nat
  accFirst : Nat
  accCount : Nat
  teams : List Nat
  bars : List Barrier
  arr : List (Nat × Nat)
  /-- In the present dawn: its slots and B store have been read back, and the clock at which that ends (R343). -/
  accDone : Bool := false
  accUntil : Nat := 0
  deriving DecidableEq, Repr

/-! Memory-side parts. -/

/-- Replacement class of an L1 line (R188). -/
inductive LineClass where
  | evict | normal | keep
  deriving DecidableEq, Repr

/-- An L1 line (R188): per-word VALID and DIRTY. -/
structure L1Line where
  data : List Byte
  valid : BitVec 16
  dirty : BitVec 16
  desc : LineDesc
  descValid : Bool
  wts : Nat
  rts : Nat
  cls : LineClass
  asid : Nat
  used : Nat
  deriving DecidableEq, Repr

/-- Slice states (R245) but I. -/
inductive SState where
  | m | e | s | r
  deriving DecidableEq, Repr

/-- A line in a slice (R193, R244), with the core and context that wrote it last: its way home, should it leave, counts for them (R354: log 93). -/
structure SLine where
  data : List Byte
  desc : LineDesc
  st : SState
  wts : Nat
  rts : Nat
  epoch : Bool
  used : Nat
  writer : Option (Nat × Nat) := none
  deriving DecidableEq, Repr

/-- A directory entry (R311). -/
structure DirEntry where
  owner : Option Nat
  sharers : List Nat
  used : Nat
  deriving DecidableEq, Repr

/-- A TLB entry (R272): the 4 KiB page number of its first page, its size in such pages, its frame. -/
structure TlbEnt where
  asid : Nat
  vpn : Nat
  pages : Nat
  pa : Nat
  w : Bool
  nx : Bool
  priv : Bool
  deriving DecidableEq, Repr

/-- Kinds of access a walk serves (R271). -/
inductive AccKind where
  | read | write | exec | atomic
  deriving DecidableEq, Repr

/-- Paths (R295) as numbered in a fault record. -/
inductive APath where
  | ls | cp | mx | bk
  deriving DecidableEq, Repr

/-- An outstanding page fault (R271). -/
structure PageFault where
  asid : Nat
  page : Nat
  token : Nat
  released : Bool
  appended : Bool
  record : List Byte
  /-- The order in which the faults of a context arose. -/
  order : Nat
  deriving DecidableEq, Repr

/-- A watchpoint (R372): its register, and the register as it stood when EN was last written. -/
structure Watch where
  raw : BitVec 128 := 0
  live : BitVec 128 := 0
  armed : Bool := false
  installing : Option Nat := none
  asid : Nat := 0
  owner : Nat := 0
  line : Nat := 0
  deriving DecidableEq, Repr

/-- A lane-cycle bin (R375). -/
structure Bin where
  lo : Nat := 0
  hi : Nat := 0
  asid : Nat := 0
  counts : List Nat := [0, 0, 0, 0]
  deriving DecidableEq, Repr

/-- An in-flight entry (R370). -/
structure Infl where
  op : Nat
  asid : Nat
  kind : Nat
  slot : Nat
  engine : Nat
  tag : Nat
  va : Nat
  lines : Nat
  remain : Nat
  state : Nat
  deriving DecidableEq, Repr

/-- One line of the instruction path (R44): its bytes as fetched and the generation it was fetched in. -/
structure CodeLine where
  data : List Byte
  gen : Nat
  deriving DecidableEq, Repr

/-- A store that waits for its word's merging fill (R189), or for a load that its group issued before it (R154): the work item that it waits for, its
context (R199), its group, its number among the work, which tells the loads before it from those after it, the class that it gives the line, and
whether the page is read-only. -/
structure SmallStore where
  fill : Nat
  pa : Nat
  bytes : List Byte
  asid : Nat
  gid : Nat := 0
  num : Nat := 0
  cls : LineClass := .normal
  ro : Bool := false
  deriving DecidableEq, Repr

/-- A general core or domain control core. -/
structure Core where
  l1 : Tbl L1Line
  small : List SmallStore
  pts : Nat
  ptsAt : Nat
  l1cfg : Nat
  l1size : Nat
  infltLost : Nat
  watch : List Watch
  totals : List Nat
  bins : List Bin
  tlb : List TlbEnt
  bankSeq : Nat
  /-- What BWAIT acquires of completed bank operations: greatest stamp in the core's own domain, any write outside it (R262). -/
  tickets : Tbl (Nat × Bool)
  inflt : List (Option Infl)
  ptrV : List Nat
  ptrM : List Nat
  busyV : List Nat
  busyM : List Nat
  /-- Reuse latches (R83): by partition and position, the group and the registers of the source. -/
  latches : Tbl (Nat × List RegName)
  icache : Tbl CodeLine
  igen : Nat
  launchSeq : Nat
  entries : List (Option Nat)
  /-- The cluster clock from which the copy engine takes its next flit (R200). -/
  copyAt : Nat := 0
  deriving DecidableEq, Repr

/-- A hardware cluster (R215, R217, R352-R358). -/
structure Hc where
  slots : Tbl Word
  bstore : Tbl Byte
  bdesc : Tbl LineDesc
  holder : Option Nat
  wantSlot : Bool
  arrayAt : Nat × Nat
  xferAt : Nat × Nat
  arrayBusy : Nat
  xferBusy : Nat
  ppat : Nat
  ppatNew : Option Nat
  lost : Nat
  clbw : Word
  bytes : Nat
  /-- Slot-clocks of this interval by context (R356). -/
  slotClk : Tbl Nat
  die : BitVec 8
  dram : List (BitVec 8)
  /-- Accumulator elements, and 8-byte words of the B store, with an uncorrectable error, until they are written (R376). -/
  badAcc : List Nat := []
  badB : List Nat := []
  deriving DecidableEq, Repr

/-- A record on its way to an event queue (R286): the queue, or 0 for the default queue of domain qdom; the 28 bytes before SEQ; the
double-faulted group it tells of. Held ones stand in the domain's buffer, or with spilled in the overflow area (R287, R288). -/
structure Colophon where
  asid : Nat
  queue : Nat
  qdom : Nat
  kind : Nat
  body : List Byte
  gid : Option Nat
  spilled : Bool
  deriving DecidableEq, Repr

/-- A domain. -/
structure Dom where
  wm : Nat
  epoch : Bool
  wrapAsked : Bool
  wrapping : Bool
  sweepEnd : Nat
  tickBase : Nat
  dsmcfg : Nat
  dsmsize : Nat
  dbmbase : Nat
  powctl : Bool
  tal : List Nat
  /-- The clock of the last write of TAL (R359). -/
  talAt : Option Nat
  errs : List Nat
  lastUe : Nat
  qhdr : Nat
  evAsid : Nat
  evFull : Bool
  evBusy : Bool
  evRec : List Byte
  refStart : Nat
  refLen : Nat
  /-- Channels in refresh, each with the end of its window (R266). -/
  refreshing : List (Nat × Nat)
  /-- Bytes of this interval by context (R354, R356). -/
  counts : Tbl Nat
  tlb2 : List TlbEnt
  wcache : List (Nat × Nat × Nat × Nat)
  /-- Read-only pages that its cores have translated: where its R copies lie (R316). -/
  roSeen : List TlbEnt
  faults : List PageFault
  nextToken : Nat
  /-- Records held, in the order they arose (R287, R288). -/
  held : List Colophon
  /-- Of a wrap under way: the write-backs with a lower number are its own, and later ones are held (R197). -/
  wrapMark : Nat := 0
  deriving DecidableEq, Repr

/-- A suspension or resumption that has still to be reported: its domains, the teams it concerns, and the group and result of the
instruction, none for CMD (R331, R332). -/
structure Ask where
  suspend : Bool
  doms : List Nat
  teams : Nat
  dcc : Bool
  res : Option (Nat × Nat)
  deriving DecidableEq, Repr

/-- A context's block (R321), debug block (R365) and accounts (R354-R357, R362). -/
structure Ctx where
  ptroot : Nat
  fqbase : Nat
  fqmask : Nat
  fqtail : Nat
  fqhead : Nat
  save : Nat
  savesz : Nat
  lease : Nat
  prio : Nat
  preempt : Bool
  req : List Nat
  spine : List (Nat × Nat)
  cmdmask : Nat
  cmdDcc : Bool
  cmdBusy : Bool
  cmdstat : Word
  bslots : Nat
  bbytes : Nat
  benergy : Nat
  ubytes : Nat
  uenergy : Nat
  expert : Nat
  ctlb : BitVec 128
  defq : Tbl Nat
  dbgctl : Word
  dbgentry : Nat
  mbox : DWord
  stepReg : DWord
  sring : Nat
  sint : Nat
  shead : Nat
  energy : Nat
  frac : Nat
  window : Nat
  bytes : Nat
  nextHandle : Nat
  asks : List Ask
  throttle : Tbl (Nat × Nat)
  /-- By domain: why something of it was held in this interval (R362). -/
  denied : Tbl Nat
  deriving DecidableEq, Repr

/-- A launch descriptor as read (R278). -/
structure Launch where
  entry : Nat
  groups : Nat
  cw : Nat
  ch : Nat
  home : Option Nat
  scratch : Nat
  regs : Nat
  sregs : Nat
  accf : Nat
  accn : Nat
  tsa : Nat
  stopmap : Nat
  argsz : Nat
  deriving DecidableEq, Repr

/-- Where a node stands (R282-R284). -/
inductive NState where
  | waiting | ready (since : Nat) | placing (since : Nat) (next : Nat) | running | releasing (stage : Nat) (deps : List Nat) | done (released : Bool)
  deriving DecidableEq, Repr

/-- A node the spine holds (R280-R284). -/
structure Node where
  asid : Nat
  graph : Nat
  index : Nat
  kind : Nat
  stream : Nat
  folios : List Folio
  manual : Bool
  quiet : Bool
  fence : Bool
  dcc : Nat
  launchVa : Nat
  launch : Option Launch
  args : Nat
  teams : Nat
  colq : Nat
  deps : List Nat
  st : NState
  retired : Nat
  nrel : Bool
  started : Nat
  status : Nat
  /-- The submitting domain, and the domain where its completion arises (R280, R286). -/
  origin : Nat
  place : Nat
  /-- It was submitted with dependences; the cores that have held its groups (R284). -/
  depended : Bool
  cores : List Nat
  /-- The domains in which bank operations of its groups have written (R284, R313). -/
  banks : List Nat := []
  deriving DecidableEq, Repr

/-! Work in flight. -/

/-- Line data with only some bytes present. -/
abbrev ByteMask := List (Option Byte)

/-- A read served at a slice, bank or elsewhere for a group's lanes (R155, R311). -/
structure ReadReq where
  gid : Nat
  op : Nat
  core : Nat
  line : Nat
  asid : Nat
  scope : Scope
  bypass : Bool
  str : Bool
  acq : Bool
  ro : Bool
  lanes : List LaneReq
  deriving DecidableEq, Repr

/-- Who writes at a slice (R195). -/
inductive WKind where
  | writeBack | strong | desc | copy | matrix | host
  deriving DecidableEq, Repr

/-- A write on its way to the writer's slice: its bytes, those still newest in the core's L1, a descriptor. -/
structure WriteReq where
  gid : Nat
  core : Nat
  dom : Nat
  line : Nat
  asid : Nat
  kind : WKind
  bytes : ByteMask
  newest : List Bool
  desc : Option LineDesc
  rel : Option Rel
  scope : Scope
  drop : Bool
  deriving DecidableEq, Repr

/-- A lane of an atomic: address, operation operands. -/
structure AtomLane where
  lane : Nat
  pa : Nat
  b : DWord
  d : DWord
  deriving DecidableEq, Repr

/-- The operation of an atomic: R162's table, or compare and swap of a width. -/
inductive AtomKind where
  | op (o : AtomOp) | cas (t : CasTy)
  deriving DecidableEq, Repr

/-- An atomic request of one line (R165). -/
structure AtomReq where
  gid : Nat
  op : Nat
  core : Nat
  line : Nat
  asid : Nat
  scope : Scope
  acq : Bool
  sc : Bool
  ticket : Option Nat
  kind : AtomKind
  lanes : List AtomLane
  ret : Bool
  rel : Option Rel
  deriving DecidableEq, Repr

/-- A bank operation (R253-R261). -/
inductive BankKind where
  | bupd (v : BupdV) | bred (op : BredOp) | vtopk | vsmax | vsamp
  deriving DecidableEq, Repr

/-- An operation at its banks: x, y and aux are physical; VSMAX's second aux word has an address of its own, since the first may end a page. -/
structure BankReq where
  gid : Nat
  team : Nat
  nid : Nat
  core : Nat
  asid : Nat
  /-- The domain that executes it, and its number on its core. -/
  dom : Nat
  seq : Nat
  kind : BankKind
  scope : Scope
  x : Nat
  y : Nat
  aux : Nat
  n : Nat
  p1 : Word
  p2 : Word
  p3 : Word
  rel : Option Rel
  /-- The words that VSMAX works on, as it and earlier operations of its core have left them (R260, R263). -/
  snap : List Word
  aux2 : Nat := 0
  /-- Another agent has written its operands or results: it leaves free words there (R260, log 17). -/
  raced : Bool := false
  /-- Result words that later operations of its core have written since: they stand (R263). -/
  later : List Nat := []
  /-- The greatest stamp and any write outside the core's domain of what it has written so far (R262). -/
  gave : Nat × Bool := (0, false)
  /-- Lines that are still to be counted, in later intervals, before it completes (R355). -/
  owe : Nat := 0
  deriving DecidableEq, Repr

/-- The kinds of copies (R201). -/
inductive CopyKind where
  | cpyin | cpyout | gather | reg | todsm | fromdsm
  deriving DecidableEq, Repr

/-- A copy held by the engine (R200-R206). pitch is the step of its local rows; index the scratchpad offset of CPYGTH's array. -/
structure CopyReq where
  gid : Nat
  team : Nat
  core : Nat
  asid : Nat
  priv : Bool
  kind : CopyKind
  cc : Nat
  scope : Scope
  desc : Option LineDesc
  g : Nat
  l : Nat
  rowb : Nat
  rows : Nat
  gpitch : Int
  pitch : Nat
  index : Nat
  /-- Scratchpad words it reads as they were before a later store, and words that a later store overrides (R202, R208). -/
  early : List (Nat × Word)
  skip : List Nat
  /-- Words on their way: the clock they are written at, source, destination, value; descriptors by destination line and lowest offset. -/
  moved : List (Nat × Nat × Nat × Word)
  descs : List (Nat × Nat × LineDesc)
  /-- Pieces set aside for a page, and pieces whose page has been looked up since: source, destination, length. -/
  aside : List (Nat × Nat × Nat)
  again : List (Nat × Nat × Nat)
  /-- Flits of up to 128 bytes taken (R206), the index of the row reached (R202), the clocks from a flit to its write, none where each
  piece takes its own line's, and the global line counted last (R354). -/
  next : Nat
  idx : Int
  lat : Option Nat
  line : Option Nat
  started : Bool
  /-- Its last write has been performed: the cluster clock at which its counter falls (R206). -/
  written : Option Nat
  fault : Option (Nat × Nat)
  psn : Option Nat
  deriving DecidableEq, Repr

/-- A walk's place at the walker (R272): a page that the second-level TLB holds needs none; sixteen are held, and the others wait for one. -/
inductive WalkPlace where
  | none | held | waiting
  deriving DecidableEq, Repr

/-- A walk in flight (R270, R272): who asks, for which page, as what. -/
structure WalkReq where
  dom : Nat
  core : Nat
  asid : Nat
  page : Nat
  kind : AccKind
  path : APath
  priv : Bool
  gid : Option Nat
  quiet : Bool
  place : WalkPlace := .none
  deriving DecidableEq, Repr

/-- A translation invalidation in progress (R273): its range, none for everything of its ASID or of all. -/
structure TlbInv where
  asid : Option Nat
  first : Nat
  pages : Option Nat
  ctlb : Option Nat
  deriving DecidableEq, Repr

/-- The class of a message (R382). -/
inductive MsgClass where
  | request | response | probe | writeBack | shuffle | debug
  deriving DecidableEq, Repr

/-- Everything in flight. permRead is a request for write permission whose line the home reads from DRAM. fill is served by LEASE_GRANT, l1fill by L1_FILL, read by WAFER_SCOPE_READ, write by SLICE_WRITE,
wack by WRITE_BACK_ACK, and permRead by WRITE_PERMISSION, and each other one by the step of its name. An arrival names the operation that it belongs to (R210). A sliceFill without an image reads DRAM (R248). -/
inductive Job where
  | fill (core line asid : Nat) (ro : Bool) (cls : LineClass)
  | l1fill (core line asid : Nat) (cls : LineClass) (img : LineImg) (wts rts : Nat)
  | read (r : ReadReq)
  | write (w : WriteReq)
  | wack (w : WriteReq) (stamp rts : Nat)
  | atomic (a : AtomReq)
  | readShared (d line : Nat) (ro : Bool)
  | writePerm (d line : Nat)
  | permRead (d line : Nat)
  | sliceFill (d line : Nat) (img : Option LineImg) (st : SState)
  | inval (line target writer : Nat)
  | invAck (line target writer : Nat)
  | forward (line owner req : Nat) (keep ro : Bool)
  | recall (line owner : Nat)
  | ownerWb (line owner : Nat) (img : LineImg)
  | bank (b : BankReq)
  | bankDone (b : BankReq) (flags : Flags) (remote : Bool) (wts : Nat)
  | copy (c : CopyReq)
  | copyResume (parent asid page : Nat)
  | walk (w : WalkReq)
  | tlbInv (t : TlbInv)
  | flush (port : Nat)
  | watchReport (core n faddr engine since : Nat) (by' : Option (Nat × Nat)) (at' : Nat)
  | arrival (op tid kind : Nat) (a : Arrival)
  | accSave (hcid : Nat) (started : Bool)
  deriving DecidableEq, Repr

/-- A work item, which can be served from clock due on. One with wait is a request held at its core for the next interval, and wait the clocks
that its way takes (R355). -/
structure Work where
  id : Nat
  due : Nat
  job : Job
  wait : Option Nat := none
  deriving DecidableEq, Repr

/-- A write posted to the host or a peer and not yet performed at system scope (R387, R389). -/
structure Posted where
  id : Nat
  gid : Nat
  port : Nat
  pa : Nat
  bytes : List Byte
  /-- The context whose translation gave pa (R273). -/
  asid : Nat := 0
  deriving DecidableEq, Repr

/-- Wafer-wide registers and the spine's own state (R9, R308, R323, R377, R378). -/
structure Wafer where
  tlbcmd : BitVec 128
  almpol : Nat
  almlog : Nat
  almlock : Bool
  halted : Bool
  keysErased : Bool
  hwin : List Nat
  obase : List Nat
  lnkdrop : List Nat
  pwin : List Nat
  lreplay : List Nat
  lfail : List Nat
  msix : Tbl Byte
  gen : Nat
  cores : Tbl (List Nat)
  arrays : Tbl (List Nat)
  /-- Parts that firmware is retiring (R325). -/
  retiring : List (Nat × Part)
  dramst : Tbl Nat
  l2st : Tbl Nat
  linkup : Nat
  hostup : Nat
  nextTicket : Nat
  ticketOut : Option Nat
  /-- SC atomics performed in some of their lanes of a line and not in all: instruction and line (R165, R308). -/
  scOpen : List (Nat × Nat) := []
  measure : BitVec 256
  unlockFails : Nat
  booted : Option Nat
  unlocked : Bool
  elo : Tbl Word
  replies : List (Nat × List Byte × Bool)
  quotes : List (List Byte)
  tickets : List Nat
  deriving DecidableEq, Repr

end Sys2Proof.Machine
end

