-- ==== Sys2Proof/Machine/State.lean ====
section
/-! DEFINITION. The machine's state as plain data, its faults and refusals, and the state after reset. INVENTORY.md gives the
rule of each field. -/

namespace Sys2Proof.Machine

/-- The whole wafer. Numbers: core cid = 145·domain + site (site 144 the DCC), group gid = 64·cid + slot, hardware cluster
hcid = 12·domain + c, line = PA / 64, slice line key = 2^42·domain + line. -/
structure State where
  /-- The domain clock, counted from reset. -/
  now : Nat
  /-- The ports that have issued in this clock: 16·cid + 2·partition + port. -/
  turns : List Nat
  /-- The group whose instruction issues. -/
  cur : Nat
  /-- The next number of a work item, variable result, team or fault token. -/
  uid : Nat
  /-- The model's own counter of free values used (not the spec's): log 5. -/
  freeUsed : Nat
  /-- Steps of the outside world and of firmware still to come, each with the clock from which it may take place, first one next: log 4. -/
  agenda : List (Nat × Instr)
  /-- Everything in flight, oldest first. -/
  work : List Work
  /-- DRAM and host memory by physical address (R6, R7): canonical, zero where not listed (log 1). -/
  mem : List Host.Cell
  /-- Descriptors of DRAM lines (R53): 0x7F00 where not listed (R58). -/
  desc : Tbl LineDesc
  groups : Tbl Group
  teams : Tbl Team
  clusters : Tbl Cluster
  cores : Tbl Core
  hcs : Tbl Hc
  doms : Tbl Dom
  ctxs : Tbl Ctx
  lines : Tbl SLine
  dirs : Tbl DirEntry
  nodes : Tbl Node
  posted : List Posted
  wafer : Wafer
  deriving DecidableEq, Repr

/-- Why the machine stops. -/
inductive Fault where
  /-- An instruction word is executed with no group issuing: raised by exec only, never by step. Safe. -/
  | noIssuingGroup
  deriving DecidableEq, Repr

/-- Why an instruction has no meaning. -/
inductive Refusal where
  /-- Raised by an arm of exec that has no meaning yet. Safe. -/
  | notModelled (mnemonic : String)
  deriving DecidableEq, Repr

/-- A core that nothing has used (R186, R192, R375). -/
def freshCore : Core :=
  { l1 := [], small := [], pts := 0, ptsAt := 0, l1cfg := 10, l1size := 10, infltLost := 0, watch := List.replicate 4 {},
    totals := [0, 0, 0, 0, 0], bins := List.replicate 8 {}, tlb := [], bankSeq := 0, tickets := [], inflt := List.replicate 64 none,
    ptrV := List.replicate 8 0, ptrM := List.replicate 8 0, busyV := List.replicate 8 0, busyM := List.replicate 8 0,
    latches := [], icache := [], igen := 0, launchSeq := 0, entries := List.replicate 8 none }

/-- A hardware cluster that nothing has used: full pulse pattern (R361), no cap (R355). -/
def freshHc : Hc :=
  { slots := [], bstore := [], bdesc := [], holder := none, wantSlot := false, arrayAt := (0, 0), xferAt := (0, 0), arrayBusy := 0,
    xferBusy := 0, ppat := 0xFFFF, ppatNew := none, lost := 0, clbw := 0, bytes := 0, slotClk := [], die := 0,
    dram := [0, 0, 0, 0] }

/-- Domain d when nothing has used it. Its dirty bitmap (R274) is the top 2 MiB of its DRAM. -/
def freshDom (d : Nat) : Dom :=
  { wm := 0, epoch := false, wrapAsked := false, wrapping := false, sweepEnd := 0, tickBase := 0, dsmcfg := 0, dsmsize := 0, dbmbase := 2 ^ 36 * d + 2 ^ 36 - 2 ^ 21,
    powctl := false, tal := List.replicate 12 255, talAt := none, counts := [], errs := List.replicate 7 0, lastUe := 0, qhdr := 0, evAsid := 0, evFull := false,
    evBusy := false, evRec := List.replicate 32 0, refStart := 0, refLen := 5850, refreshing := [(0, 525)], tlb2 := [], wcache := [], roSeen := [],
    faults := [], nextToken := 1, held := [] }

/-- A context block as firmware creates it (R322). -/
def freshCtx : Ctx :=
  { ptroot := 0, fqbase := 0, fqmask := 63, fqtail := 0, fqhead := 0, save := 0, savesz := 0, lease := 10, prio := 1,
    preempt := false, req := [], spine := [], cmdmask := 0, cmdDcc := false, cmdBusy := false, cmdstat := 0,
    bslots := 0xFFFFFFFF, bbytes := 0xFFFFFFFF, benergy := 0xFFFFFFFF, ubytes := 0, uenergy := 0, expert := 0, ctlb := 0,
    defq := [], dbgctl := 0, dbgentry := 0, mbox := 0, stepReg := 0, sring := 0, sint := 256, shead := 0, energy := 0, frac := 0,
    window := 0, bytes := 0, nextHandle := 0, asks := [], throttle := [], denied := [] }

/-- The wafer's registers after reset (R9, R323, R377, R378). -/
def freshWafer : Wafer :=
  { tlbcmd := 0, almpol := 0, almlog := 0, almlock := false, halted := false, keysErased := false, hwin := [0, 0, 0, 0],
    obase := [0, 0, 0, 0], lnkdrop := List.replicate 36 0, pwin := List.replicate 32 0, lreplay := List.replicate 32 0,
    lfail := List.replicate 32 0, msix := [], gen := 0, cores := [], arrays := [], retiring := [], dramst := [], l2st := [],
    linkup := 0xFFFFFFFF, hostup := 15, nextTicket := 0, ticketOut := none, measure := 0,
    unlockFails := 0, booted := none, unlocked := false, elo := [], replies := [], quotes := [], tickets := [] }

/-- The machine right after reset: nothing launched, nothing in flight, empty memory. -/
def State.reset : State :=
  { now := 0, turns := [], cur := 0, uid := 1, freeUsed := 0, agenda := [], work := [], mem := [], desc := [], groups := [],
    teams := [], clusters := [], cores := [], hcs := [], doms := [], ctxs := [(0, freshCtx)], lines := [], dirs := [], nodes := [],
    posted := [], wafer := freshWafer }

end Sys2Proof.Machine
end

