-- ==== Sys2Proof/WellFormed.lean ====
section
/-! DEFINITION. Well-formed instructions: the limits of R20, R25, R28-R36, R38 step 4, R39, R86, R87, R97, R107, R147,
R150, R170, R174, R201, R207, R219, R253, R289, R304, R331, R345, R371. An instruction word whose fields break one of
them decodes to the illegal-instruction trap. A step that no word encodes is well-formed when its numbers name parts the
machine has. -/

namespace Sys2Proof

/-- The source field whose bits are all zero (R20). -/
def Src.zero : Src := ⟨.vec, 0, false, false, .whole, false⟩
/-- The destination field whose bits are all zero (R20). -/
def Dst.zero : Dst := ⟨.vec, 0, .none, 0⟩
/-- CLS 00 with SEG and DIST zero (R33). -/
def Perm.id : Perm := ⟨.none, 0, 0⟩

/-- The special registers that exist (R76). -/
def specialExists (r : BitVec 10) : Bool :=
  let n := r.toNat
  n ≤ 0x08 || (0x10 ≤ n && n ≤ 0x12) || (0x18 ≤ n && n ≤ 0x21) || (0x30 ≤ n && n ≤ 0x47)

/-- The special registers that MOVRS may write (R76). -/
def specialWritable (r : BitVec 10) : Bool :=
  let n := r.toNat
  n == 0x18 || n == 0x1E || n == 0x20 || (0x30 ≤ n && n ≤ 0x47)

/-- The per-lane special registers, sr.laneid and sr.cnt (R76). -/
def specialPerLane (r : BitVec 10) : Bool := r.toNat == 0x01 || r.toNat == 0x1F

/-- REG has bit 0 clear, as the name of a pair must (R25, R28). -/
def even (r : BitVec 10) : Bool := r.toNat % 2 == 0

/-- What one opcode of 0x10-0x63 accepts (R107 and its description). -/
structure Acc where
  df : List DFile
  /-- FILE values of A; the empty list means that the field must be zero. -/
  af : List SFile
  bf : List SFile
  /-- C is a source: form C (R29). -/
  three : Bool := false
  /-- form I is allowed; with `single` the immediate replaces A. -/
  imm : Bool := false
  single : Bool := false
  perm : Bool := false
  rm : Bool := false
  sub : Bool := true
  neg : Bool := false
  scl : Bool := false
  clUnit : Bool := false
  clSat : Bool := false
  wd : Bool := false
  wa : Bool := false
  wb : Bool := false
  wc : Bool := false
  /-- A, B name predicates (R145, R146). -/
  predA : Bool := false
  predB : Bool := false
  /-- a scalar destination is written from per-lane values (R39). -/
  notUniform : Bool := false

def anySrc : List SFile := [.vec, .scal, .spec]
def lanesOrScal : List DFile := [.vec, .scal]

/-- R25: the register number fits the file; a wide destination is even. -/
def dstRegOk (wide : Bool) (d : Dst) : Bool :=
  (match d.file with
   | .vec => true
   | .scal => d.reg.toNat ≤ 255
   | .pred => d.reg.toNat ≤ 7
   | .spec => specialExists d.reg) && (!wide || even d.reg)

/-- R26, R107: CLMP and SCL only where the opcode accepts them. -/
def dstModOk (a : Acc) (d : Dst) : Bool :=
  (match d.clmp with
   | .none => true
   | .unit => a.clUnit
   | .sym => a.clUnit
   | .sat => a.clSat) && (a.scl || d.scl == 0)

/-- R28: the register exists; a special register takes no modifier. -/
def srcRegOk (s : Src) : Bool :=
  match s.file with
  | .vec => true
  | .scal => s.reg.toNat ≤ 255
  | .spec => specialExists s.reg && !s.neg && !s.abs && s.sub == .whole && !s.kill

/-- R28, R107: NEG, ABS and SUB only where accepted. -/
def srcModOk (neg sub : Bool) (s : Src) : Bool :=
  (neg || (!s.neg && !s.abs)) && (sub || s.sub == .whole)

/-- R28: a 64-bit source is an even register of the vector or scalar file with no modifier but KILL. -/
def srcWideOk (s : Src) : Bool :=
  s.file != .spec && even s.reg && !s.neg && !s.abs && s.sub == .whole

/-- R145: a field that names a predicate: FILE 00 a lane predicate, FILE 01 a stage predicate, REG 0-7, NEG allowed. -/
def srcPredOk (s : Src) : Bool :=
  s.file != .spec && s.reg.toNat ≤ 7 && !s.abs && s.sub == .whole && !s.kill

/-- One source against the opcode's acceptance. -/
def srcOk (files : List SFile) (neg sub wide pred : Bool) (s : Src) : Bool :=
  if pred then srcPredOk s
  else if files.isEmpty then s == Src.zero
  else files.contains s.file && srcRegOk s && srcModOk neg sub s && (!wide || srcWideOk s)

/-- The third source (R31). -/
def csrcOk (neg sub wide : Bool) (c : CSrc) : Bool :=
  (!c.scal || c.reg.toNat ≤ 255) && (neg || (!c.neg && !c.abs)) && (sub || c.sub == .whole) &&
    (!wide || (even c.reg && !c.neg && !c.abs && c.sub == .whole))

/-- R33: CLS 00 with SEG and DIST zero, or a permutation of a vector A within the segment. -/
def permOk (accepted : Bool) (a : Src) (p : Perm) : Bool :=
  if p.cls == .none then p.seg == 0 && p.dist == 0
  else accepted && a.file == .vec && p.seg.toNat ≤ 4 && p.dist.toNat < 2 ^ (p.seg.toNat + 1)

/-- R29-R33: the form is one the opcode allows and its fields are legal. -/
def formOk (acc : Acc) (o : Alu) : Bool :=
  match o.x with
  | .n b p rm =>
    !acc.three && permOk (acc.perm && !acc.wa) o.a p && (acc.rm || rm == .rne) &&
      srcOk acc.bf acc.neg acc.sub acc.wb acc.predB b
  | .i _ => !acc.three && acc.imm && (!acc.single || o.a == Src.zero)
  | .c b c => acc.three && srcOk acc.bf acc.neg acc.sub acc.wb false b && csrcOk acc.neg acc.sub acc.wc c

/-- A against the opcode's acceptance; with a single-source immediate it is zero (R29). -/
def aOk (acc : Acc) (o : Alu) : Bool :=
  match o.x with
  | .i _ => if acc.single then o.a == Src.zero else srcOk acc.af acc.neg acc.sub acc.wa acc.predA o.a
  | _ => srcOk acc.af acc.neg acc.sub acc.wa acc.predA o.a

/-- The source reads a vector register or a per-lane special register (R39). -/
def Src.perLane (s : Src) : Bool := s.file == .vec || (s.file == .spec && specialPerLane s.reg)

/-- Some source of the instruction is read per lane (R39); absent fields do not count. -/
def readsLanes (acc : Acc) (o : Alu) : Bool :=
  let aLane := !acc.af.isEmpty && !acc.predA && o.a.perLane
  match o.x with
  | .n b _ _ => aLane || (!acc.bf.isEmpty && !acc.predB && b.perLane)
  | .i _ => !acc.single && aLane
  | .c b c => aLane || b.perLane || !c.scal

/-- R39: a scalar destination goes with uniform sources, but for the opcodes that write one from per-lane values. -/
def uniformOk (acc : Acc) (o : Alu) : Bool :=
  o.d.file != .scal || acc.notUniform || !readsLanes acc o

/-- An instruction of 0x10-0x63 against its opcode's acceptance. -/
def aluOk (acc : Acc) (o : Alu) : Bool :=
  acc.df.contains o.d.file && dstRegOk acc.wd o.d && dstModOk acc o.d && aOk acc o && formOk acc o && uniformOk acc o

/-! Acceptance by opcode. -/

def accInt : Acc := { df := lanesOrScal, af := anySrc, bf := anySrc, imm := true, perm := true, neg := true }
def accInt4 (v : IntTy4) : Acc :=
  match v with
  | .s32 | .u32 => { accInt with clSat := true }
  | .s64 | .u64 => { accInt with clSat := true, wd := true, wa := true, wb := true }
def accMad (v : MadTy) : Acc :=
  let w := v == .wideS || v == .wideU
  { df := lanesOrScal, af := anySrc, bf := anySrc, three := true, neg := true, clSat := true, wd := w, wc := w }
def accBits : Acc := { df := lanesOrScal, af := anySrc, bf := anySrc, imm := true, perm := true }
def accThree : Acc := { df := lanesOrScal, af := anySrc, bf := anySrc, three := true }
def accUnary : Acc := { df := lanesOrScal, af := anySrc, bf := [], imm := true, single := true, perm := true }
def accCmp : Acc := { df := [.vec, .scal, .pred], af := anySrc, bf := anySrc, imm := true, perm := true, neg := true }
def accLea : Acc :=
  { df := lanesOrScal, af := [.vec, .scal], bf := anySrc, imm := true, wd := true, wa := true }
def accMov (v : MovTy) : Acc :=
  match v with
  | .b32 => accUnary
  | .b64 => { df := lanesOrScal, af := [.vec, .scal], bf := [], wd := true, wa := true }
def accMovls (v : MovlsV) : Acc :=
  match v with
  | .get => { df := [.scal], af := [.vec], bf := [.scal], imm := true, notUniform := true }
  | .first => { df := [.scal], af := [.vec], bf := [], notUniform := true }
  | .put => { df := [.vec], af := [.scal], bf := [], imm := true, single := true }
def accMovsr : Acc := { df := lanesOrScal, af := [.spec], bf := [] }
def accMovrs : Acc := { df := [.spec], af := [.scal], bf := [], imm := true, single := true }
def accFloat : Acc :=
  { df := lanesOrScal, af := anySrc, bf := anySrc, imm := true, perm := true, neg := true, rm := true, scl := true,
    clUnit := true, clSat := true }
def accFfma : Acc := { accFloat with three := true, imm := false, perm := false, rm := false }
def accFminmax : Acc := { accFloat with rm := false, scl := false }
/-- The single source may be a form I immediate, as FSQRT's (log 67). -/
def accFrnd : Acc := { accFloat with bf := [], single := true, scl := false }
def accFsqrt : Acc := { accFloat with bf := [], single := true }
def accFdot : Acc := { accFfma with scl := false }
def accSpecial : Acc := { accFsqrt with rm := false }
def cvtReadsB (v : CvtV) : Bool :=
  match v with
  | .f16x2 | .bf16x2 | .f8e4x2 | .f8e5x2 | .f32f8e4 | .f32f8e5 | .f32s8 | .f32i4 => true
  | _ => false
def cvtNegAbs (v : CvtV) : Bool :=
  match v with
  | .f32s32 | .f32u32 | .s32f32 | .u32f32 | .f16x2 | .bf16x2 | .f8e4x2 | .f8e5x2 | .s8f32 | .i4f32 => true
  | _ => false
def cvtToInt (v : CvtV) : Bool :=
  match v with
  | .s32f32 | .u32f32 | .s8f32 | .i4f32 => true
  | _ => false
/-- B, where it is read, is a vector, a scalar or an immediate (R136). -/
def accCvt (v : CvtV) : Acc :=
  { df := lanesOrScal, af := anySrc, bf := if cvtReadsB v then [.vec, .scal] else [], imm := cvtReadsB v, perm := true,
    rm := true, neg := cvtNegAbs v, scl := true, clUnit := !cvtToInt v, clSat := !cvtToInt v }
def accPackq : Acc := { df := lanesOrScal, af := [.vec], bf := [], perm := true, rm := true, neg := true }
def accUnpkq : Acc :=
  { df := lanesOrScal, af := anySrc, bf := anySrc, imm := true, perm := true, scl := true, clUnit := true, clSat := true }
/-- B is a vector, a scalar or an immediate (R140). -/
def accShfl : Acc := { df := lanesOrScal, af := [.vec], bf := [.vec, .scal], imm := true }
def accVote (v : VoteV) : Acc :=
  { df := if v == .ballot then lanesOrScal else [.vec, .scal, .pred], af := [.vec], bf := [], perm := true,
    notUniform := true }
def accGred (v : RedOp) : Acc :=
  { df := lanesOrScal, af := [.vec], bf := [], perm := true, rm := v == .fadd, notUniform := true }
def accGscan (v : ScanV) : Acc :=
  { df := [.vec], af := [.vec], bf := [], perm := true, rm := v == .fadd || v == .faddEx }
def accXshfl : Acc := { df := [.vec], af := [.vec], bf := [.scal], sub := false }
def accRng : Acc := { df := lanesOrScal, af := [.vec, .scal], bf := [.scal], sub := false, wa := true, wb := true }
def accPlop : Acc := { df := [.pred], af := anySrc, bf := anySrc, predA := true, predB := true }
def accP2v (v : P2vV) : Acc := { df := [.vec], af := [], bf := [], predA := v == .one }
/-- R107 names V2P among the opcodes that take no SUB (log 62). -/
def accV2p : Acc := { df := [.pred], af := [.vec, .scal], bf := [], sub := false }
def accSetexm : Acc := { df := [.spec], af := [.scal], bf := [], imm := true, single := true, sub := false }

/-! The other classes. -/

/-- A source field of a class outside 0x10-0x63: only KILL among the modifiers. -/
def onlyKill (s : Src) : Bool := !s.neg && !s.abs && s.sub == .whole

/-- A scalar source 0-255 with only KILL. -/
def scalOk (s : Src) : Bool := s.file == .scal && s.reg.toNat ≤ 255 && onlyKill s

/-- A count, position or operand: a scalar, or a short immediate (R36). -/
def scalOrImm (b : BOp) : Bool :=
  match b with
  | .src s => scalOk s
  | .imm _ => true

/-- A scalar pair, even REG 0-254. -/
def scalPair (s : Src) : Bool := scalOk s && even s.reg

/-- A block of m scalars: REG a multiple of m (R201, R219, R253, R289, R331). -/
def scalBlock (m : Nat) (s : Src) : Bool := scalOk s && s.reg.toNat % m == 0 && s.reg.toNat + m ≤ 256

/-- A scalar destination with no CLMP or SCL. -/
def dstScal (d : Dst) : Bool := d.file == .scal && d.reg.toNat ≤ 255 && d.clmp == .none && d.scl == 0

/-- A block of m scalars as destination. -/
def dstBlock (m : Nat) (d : Dst) : Bool := dstScal d && d.reg.toNat % m == 0 && d.reg.toNat + m ≤ 256

/-- D, A and B all zero. -/
def noOperands {Q : Type} (o : Gen Q) : Bool := o.d == Dst.zero && o.a == Src.zero && o.b == .src Src.zero

/-- GRD is always or never (R87). -/
def alwaysOrNever (g : Guard) : Bool := !g.stage && g.idx == 7

/-- OFS as a signed count (R34). -/
def ofsOf (x : BitVec 16) : Int := x.toInt

def nopOk (o : Ctl) : Bool := noOperands o && o.q == 0
def ifOk (o : Ctl) : Bool := noOperands o && decide (ofsOf o.q ≥ 1)
def elseOk (o : Ctl) : Bool := ifOk o && alwaysOrNever o.hdr.guard
def endifOk (o : Ctl) : Bool := nopOk o && alwaysOrNever o.hdr.guard
def endloopOk (o : Ctl) : Bool := noOperands o && alwaysOrNever o.hdr.guard && decide (ofsOf o.q ≤ 0)
def breakOk (o : Ctl) : Bool := noOperands o && decide (o.q.toNat ≤ 253)
def contOk (o : Ctl) : Bool := noOperands o && decide (o.q.toNat ≤ 254)
def hloopOk (o : Ctl) : Bool :=
  o.d == Dst.zero && o.a == Src.zero && scalOrImm o.b && alwaysOrNever o.hdr.guard
/-- HLOOPP's region and stage count (R97). -/
def hlooppOk (o : Ctl) : Bool :=
  o.d.file == .vec && o.d.clmp == .none && o.d.scl == 0 && decide (o.d.reg.toNat < 512) &&
    o.a.file == .vec && onlyKill o.a && !o.a.kill && o.a.reg.toNat % 8 == 0 &&
    decide (o.a.reg.toNat + (o.d.reg.toNat % 64 + 1) ≤ 1024) && scalOrImm o.b && alwaysOrNever o.hdr.guard
def jmpOk (o : Ctl) : Bool := noOperands o
def jmpsOk (o : Ctl) : Bool := o.d == Dst.zero && scalOk o.a && o.b == .src Src.zero
def callOk (o : Ctl) : Bool :=
  dstScal o.d && even o.d.reg && o.a == Src.zero && o.b == .src Src.zero
def retOk (o : Ctl) : Bool := o.d == Dst.zero && scalPair o.a && o.b == .src Src.zero && o.q == 0

/-- TRAP, SLEEP (R174). -/
def sysCountOk (o : Ctl) : Bool := o.d == Dst.zero && o.a == Src.zero && scalOrImm o.b && o.q == 0
def divstOk (o : Ctl) : Bool := dstBlock 4 o.d && o.a == Src.zero && o.b == .src Src.zero && o.q == 0
def infltOk (o : Ctl) : Bool := dstBlock 4 o.d && o.a == Src.zero && scalOrImm o.b && o.q == 0
def gsubOk (o : Ctl) : Bool := dstScal o.d && scalPair o.a && o.b == .src Src.zero && o.q == 0
def evpopOk (o : Ctl) : Bool := dstBlock 8 o.d && scalPair o.a && o.b == .src Src.zero && o.q == 0
def evwaitOk (o : Ctl) : Bool := dstBlock 8 o.d && scalPair o.a && scalOrImm o.b && o.q == 0
def nrelOk (o : Ctl) : Bool := dstScal o.d && scalOk o.a && o.b == .src Src.zero && o.q == 0
/-- CTXSUS, CTXRES, BUDGET: a block from 0 to 252 (R331). -/
def block4Ok (o : Ctl) : Bool := dstScal o.d && scalBlock 4 o.a && o.b == .src Src.zero && o.q == 0
/-- FOLIO: a block from 0 to 248 (R289). -/
def folioOk (o : Ctl) : Bool := block4Ok o && o.a.reg.toNat ≤ 248

/-! Memory class: R35, R147, R150. -/

/-- The combinations of R35 that are legal; reads and writes say what the opcode does. -/
def qualOk (reads writes atomic load : Bool) (q : MemQ) : Bool :=
  (q.str || (q.ord == .plain && !q.sc)) &&
    (q.scope == .team || q.str) &&
    (reads || (q.ord != .acq && q.ord != .ar)) &&
    (writes || (q.ord != .rel && q.ord != .ar)) &&
    (atomic || !q.sc) && (load || !q.poll) && (!q.poll || q.str)

/-- An address pair of the global space (R147). -/
def addrPair (s : Src) : Bool :=
  (s.file == .vec || s.file == .scal) && (s.file == .vec || s.reg.toNat ≤ 255) && onlyKill s && even s.reg
/-- A 32-bit scratchpad address. -/
def addrWord (s : Src) : Bool :=
  (s.file == .vec || s.file == .scal) && (s.file == .vec || s.reg.toNat ≤ 255) && onlyKill s
/-- An offset, operand or element index in B: a vector or scalar register, or a short immediate. -/
def offsetOk (b : BOp) : Bool :=
  match b with
  | .src s => addrWord s
  | .imm _ => true
/-- A vector destination, of n registers aligned on n. -/
def dstVec (n : Nat) (d : Dst) : Bool :=
  d.file == .vec && d.clmp == .none && d.scl == 0 && d.reg.toNat % n == 0
/-- A data register of a store, vector or scalar, of n registers aligned on n (R147, R153). -/
def dstData (n : Nat) (d : Dst) : Bool :=
  (d.file == .vec || d.file == .scal) && (d.file == .vec || d.reg.toNat ≤ 255) && d.clmp == .none && d.scl == 0 &&
    d.reg.toNat % n == 0
/-- Registers a load of the size fills (R153). -/
def LdSz.regs (v : LdSz) : Nat :=
  match v with
  | .b64 => 2
  | .b128 => 4
  | _ => 1
def StSz.regs (v : StSz) : Nat :=
  match v with
  | .b64 => 2
  | .b128 => 4
  | _ => 1
/-- Operand registers of an atomic: pairs for the 64-bit variants (R162). -/
def AtomOp.regs (v : AtomOp) : Nat :=
  match v with
  | .addU64 | .exchB64 => 2
  | _ => 1
def CasTy.regs (v : CasTy) : Nat :=
  match v with
  | .b32 => 1
  | .b64 => 2
/-- An operand or comparand of n registers (R147). -/
def atomOperand (n : Nat) (b : BOp) : Bool :=
  match b with
  | .src s => addrWord s && s.reg.toNat % n == 0
  | .imm _ => true
def Src.isVec (s : Src) : Bool := s.file == .vec
def BOp.isVec (b : BOp) : Bool :=
  match b with
  | .src s => s.isVec
  | .imm _ => false
def teamPlain (q : MemQ) : Bool := q.scope == .team && q.cpol == .normal

def ldOk (v : LdSz) (o : Mem) : Bool :=
  dstVec v.regs o.d && addrPair o.a && offsetOk o.b && qualOk true false false true o.q
def stOk (v : StSz) (o : Mem) : Bool :=
  dstData v.regs o.d && addrPair o.a && offsetOk o.b && qualOk false true false false o.q &&
    (o.d.file == .vec || o.a.isVec || o.b.isVec)
def ldsOk (v : LdSz) (o : Mem) : Bool :=
  dstVec v.regs o.d && addrWord o.a && offsetOk o.b && qualOk true false false true o.q && teamPlain o.q
def stsOk (v : StSz) (o : Mem) : Bool :=
  dstData v.regs o.d && addrWord o.a && offsetOk o.b && qualOk false true false false o.q && teamPlain o.q &&
    (o.d.file == .vec || o.a.isVec || o.b.isVec)
def lduOk (v : LdSz) (o : Mem) : Bool :=
  dstScal o.d && o.d.reg.toNat % v.regs == 0 && addrPair o.a && !o.a.isVec && scalOrImm o.b &&
    qualOk true false false true o.q
def stuOk (v : StSz) (o : Mem) : Bool :=
  dstScal o.d && o.d.reg.toNat % v.regs == 0 && addrPair o.a && !o.a.isVec && scalOrImm o.b &&
    qualOk false true false false o.q
def ldqOk (o : Mem) : Bool := dstVec 1 o.d && addrPair o.a && offsetOk o.b && qualOk true false false false o.q
def lddescOk (o : Mem) : Bool := ldqOk o
def stdescOk (o : Mem) : Bool := o.d == Dst.zero && addrPair o.a && offsetOk o.b && qualOk false true false false o.q
def prefOk (o : Mem) : Bool :=
  o.d == Dst.zero && addrPair o.a && offsetOk o.b && teamPlain o.q && o.q.ord == .plain && !o.q.str && !o.q.sc && !o.q.poll
def cctlOk (v : CctlV) (o : Mem) : Bool :=
  match v with
  | .wb | .inv => prefOk o
  | _ => noOperands o && teamPlain o.q && o.q.ord == .plain && !o.q.str && !o.q.sc && !o.q.poll && o.q.disp == 0
def atomQ (q : MemQ) : Bool := q.str && !q.poll && q.cpol == .normal
/-- ATOM's operations are all of R162's table. -/
def atomOk (v : AtomOp) (o : Mem) : Bool :=
  dstVec v.regs o.d && addrPair o.a && atomOperand v.regs o.b && atomQ o.q
def atomcasOk (v : CasTy) (o : Mem) : Bool :=
  dstVec v.regs o.d && addrPair o.a && atomOperand v.regs o.b && atomQ o.q
/-- RED has no exchange (R162) and takes no acquire (R150). -/
def redOk (v : AtomOp) (o : Mem) : Bool :=
  v != .exch && v != .exchB64 && o.d == Dst.zero && addrPair o.a && atomOperand v.regs o.b && atomQ o.q &&
    (o.q.ord == .plain || o.q.ord == .rel) && (o.a.isVec || o.b.isVec)
/-- ATOMS has no 64-bit variant (R162) and no SC (R150). -/
def atomsOk (v : AtomOp) (o : Mem) : Bool :=
  v.regs == 1 && dstVec 1 o.d && addrWord o.a && atomOperand 1 o.b && atomQ o.q && !o.q.sc && o.q.scope == .team
def cassOk (o : Mem) : Bool :=
  dstVec 1 o.d && addrWord o.a && atomOperand 1 o.b && atomQ o.q && !o.q.sc && o.q.scope == .team

/-! Copies R201, R207; matrix R219; banks R253; synchronisation R170, R304, R198. -/

def cpyOk (descAllowed : Bool) (o : Cpy) : Bool :=
  o.d == Dst.zero && o.b == .src Src.zero && scalBlock 8 o.a && (descAllowed || !o.q.desc)
def cpywaitOk (o : Cpy) : Bool :=
  o.d == Dst.zero && o.a == Src.zero && scalOrImm o.b && o.q.scope == .team && !o.q.desc && o.q.cpol == .normal
def cpystatOk (o : Cpy) : Bool :=
  dstScal o.d && o.a == Src.zero && o.b == .src Src.zero && o.q.cc == 0 && o.q.scope == .team && !o.q.desc &&
    o.q.cpol == .normal

def matNone (q : MatQ) : Bool := q.acc == 0 && q.cmask == 0 && !q.bsrc
def matAcc (q : MatQ) : Bool := q.cmask == 0 && !q.bsrc
def mchainOk (o : Mat) : Bool := noOperands o && matNone o.q
def mldbOk (o : Mat) : Bool := o.d == Dst.zero && o.b == .src Src.zero && scalBlock 8 o.a && matNone o.q
def mmaOk (o : Mat) : Bool := o.d == Dst.zero && o.b == .src Src.zero && scalBlock 8 o.a
def mzeroOk (o : Mat) : Bool := o.d == Dst.zero && o.a == Src.zero && scalOrImm o.b && matAcc o.q
def mrdOk (o : Mat) : Bool := dstVec 1 o.d && o.a == Src.zero && scalOrImm o.b && matAcc o.q
def mrdMemOk (o : Mat) : Bool :=
  o.d == Dst.zero && o.b == .src Src.zero && scalBlock 8 o.a && o.q.cmask == 0 && o.q.bsrc
def mquireOk (o : Mat) : Bool := dstScal o.d && o.a == Src.zero && o.b == .src Src.zero && matNone o.q
def mwaitOk (o : Mat) : Bool := o.d == Dst.zero && o.a == Src.zero && scalOrImm o.b && matNone o.q
def maccAddOk (o : Mat) : Bool := mzeroOk o
def maccLdOk (o : Mat) : Bool := o.d == Dst.zero && o.b == .src Src.zero && scalBlock 8 o.a && matAcc o.q

def bankOk (o : Bnk) : Bool :=
  dstScal o.d && scalBlock 8 o.a && o.b == .src Src.zero && (o.q.ord == .plain || o.q.ord == .rel)
def bwaitOk (o : Bnk) : Bool :=
  o.d == Dst.zero && o.a == Src.zero && (match o.b with | .src s => scalOk s | .imm _ => false) &&
    (o.q.ord == .plain || o.q.ord == .acq)

def barOk (ord : Ord) (o : Syn) : Bool :=
  o.d == Dst.zero && o.a == Src.zero && scalOrImm o.b && o.q.ord == ord && o.q.frm == 0 && o.q.dest == 0
def barwtOk (o : Syn) : Bool := noOperands o && o.q.ord == .acq && o.q.frm == 0 && o.q.dest == 0
def cbarOk (o : Syn) : Bool := barOk .ar o && o.q.scope != .team
def fenceOk (o : Syn) : Bool := noOperands o && o.q.ord != .plain && o.q.frm == 0 && o.q.dest == 0
def pfenceOk (o : Syn) : Bool := noOperands o && o.q.ord == .ar && o.q.frm != 0 && o.q.dest != 0
def tadvOk (o : Syn) : Bool :=
  dstScal o.d && o.a == Src.zero && scalOrImm o.b && o.q.scope == .team && o.q.ord == .plain && o.q.frm == 0 &&
    o.q.dest == 0

/-! Steps: the parts they name exist (R3, R10, R11, R321). -/

def domOk (d : Nat) : Bool := d < 64
/-- A core number 145·domain + site, site 144 the domain control core. -/
def cidOk (cid : Nat) : Bool := cid < 64 * 145
def asidOk (a : Nat) : Bool := a < 65536
def hcidOk (h : Nat) : Bool := h < 64 * 12
def portOk (p : Port) : Bool :=
  match p with
  | .host n => n < 4
  | .link n => n < 32

/-- The instruction is well-formed. -/
def Instr.wf (i : Instr) : Bool :=
  match i with
  | .nop o => nopOk o | .ifi o => ifOk o | .elsei o => elseOk o | .endif o => endifOk o
  | .loop o => elseOk o | .endloop o => endloopOk o | .breaki o => breakOk o | .cont o => contOk o
  | .hloop _ o => hloopOk o | .hloopp _ o => hlooppOk o | .hlexit _ o => nopOk o
  | .jmp o => jmpOk o | .jmps o => jmpsOk o | .call o => callOk o | .ret o => retOk o
  | .iadd v o => aluOk (accInt4 v) o | .isub v o => aluOk (accInt4 v) o
  | .imul _ o => aluOk { accInt with clSat := true } o | .imulhi _ o => aluOk accInt o
  | .imad v o => aluOk (accMad v) o | .imin _ o => aluOk accInt o | .imax _ o => aluOk accInt o
  | .iadif _ o => aluOk accInt o
  | .shl _ o => aluOk accBits o | .shr _ o => aluOk accBits o | .sar _ o => aluOk accBits o | .rol _ o => aluOk accBits o
  | .and _ o => aluOk accBits o | .or _ o => aluOk accBits o | .xor _ o => aluOk accBits o | .andn _ o => aluOk accBits o
  | .bfe _ o => aluOk accBits o | .bfi _ o => aluOk accThree o
  | .popc _ o => aluOk accUnary o | .clz _ o => aluOk accUnary o | .brev _ o => aluOk accUnary o
  | .icmp _ o => aluOk accCmp o
  | .sel v o => aluOk accBits o && (o.d.file != .scal || v.k == 7)
  | .lea _ o => aluOk accLea o | .mov v o => aluOk (accMov v) o | .movls v o => aluOk (accMovls v) o
  | .movsr _ o => aluOk accMovsr o | .movrs _ o => aluOk accMovrs o && specialWritable o.d.reg
  | .prmt _ o => aluOk accThree o | .dp4 _ o => aluOk accThree o
  | .fadd _ o => aluOk accFloat o | .fmul _ o => aluOk accFloat o | .ffma _ o => aluOk accFfma o
  | .fmin _ o => aluOk accFminmax o | .fmax _ o => aluOk accFminmax o | .fcmp _ o => aluOk accCmp o
  | .frnd _ o => aluOk accFrnd o | .fldexp _ o => aluOk accFloat o | .fdiv _ o => aluOk accFloat o
  | .fsqrt _ o => aluOk accFsqrt o | .fdot2 _ o => aluOk accFdot o
  | .rcp _ o => aluOk accSpecial o | .rsq _ o => aluOk accSpecial o | .exp2 _ o => aluOk accSpecial o
  | .log2 _ o => aluOk accSpecial o | .sinpi _ o => aluOk accSpecial o | .cospi _ o => aluOk accSpecial o
  | .tanh _ o => aluOk accSpecial o
  | .cvt v o => aluOk (accCvt v) o | .packq _ o => aluOk accPackq o | .unpkq _ o => aluOk accUnpkq o
  | .shfl _ o => aluOk accShfl o | .vote v o => aluOk (accVote v) o | .gred v o => aluOk (accGred v) o
  | .gscan v o => aluOk (accGscan v) o | .xshfl _ o => aluOk accXshfl o | .xshflTimeout _ => true
  | .rng _ o => aluOk accRng o | .plop _ o => aluOk accPlop o | .p2v v o => aluOk (accP2v v) o
  | .v2p v o => aluOk accV2p o && (v != .unpack || o.d.reg == 0)
  | .setexm _ o => aluOk accSetexm o && o.d.reg == 0
  | .ld v o => ldOk v o | .st v o => stOk v o | .lds v o => ldsOk v o | .sts v o => stsOk v o
  | .ldu v o => lduOk v o | .stu v o => stuOk v o | .ldq _ o => ldqOk o | .lddesc _ o => lddescOk o
  | .stdesc _ o => stdescOk o | .pref _ o => prefOk o | .cctl v o => cctlOk v o
  | .atom v o => atomOk v o | .atomcas v o => atomcasOk v o | .red v o => redOk v o
  | .atoms v o => atomsOk v o | .cass _ o => cassOk o
  | .cpyin o => cpyOk false o | .cpyout o => cpyOk true o | .cpygth o => cpyOk false o | .cpyreg o => cpyOk false o
  | .cpydsmTodsm o => cpyOk true o | .cpydsmFromdsm o => cpyOk true o | .cpywait o => cpywaitOk o
  | .cpystat o => cpystatOk o
  | .mchain o => mchainOk o | .mcend o => mchainOk o | .mldb o => mldbOk o | .mma _ o => mmaOk o | .mmas _ o => mmaOk o
  | .mzero o => mzeroOk o | .mrd o => mrdOk o | .mrdMem _ o => mrdMemOk o | .mquire o => mquireOk o
  | .mwait o => mwaitOk o | .maccAdd o => maccAddOk o | .maccLd _ o => maccLdOk o
  | .bupd _ o => bankOk o | .bred _ o => bankOk o | .vtopk o => bankOk o | .vsmax o => bankOk o | .vsamp o => bankOk o
  | .bwait o => bwaitOk o
  | .bar _ o => barOk .ar o | .bararv _ o => barOk .rel o | .barwt _ o => barwtOk o | .cbar _ o => cbarOk o
  | .fence o => fenceOk o | .pfence o => pfenceOk o | .tadv o => tadvOk o
  | .exit o => nopOk o | .groupSlotFree _ => true | .teamResourcesFree _ => true
  | .trap o => sysCountOk o | .rte o => nopOk o | .bkpt o => nopOk o | .yieldi o => nopOk o | .sleep o => sysCountOk o
  | .sleepExpiry _ => true | .divst o => divstOk o | .inflt o => infltOk o
  | .gsubGraph o => gsubOk o | .gsubNode o => gsubOk o | .evpop o => evpopOk o | .evwait o => evwaitOk o
  | .evwaitTimeout _ => true | .nrel o => nrelOk o | .folio o => folioOk o | .ctxsus o => block4Ok o
  | .ctxres o => block4Ok o | .budget o => block4Ok o
  | .fixedResultLand _ => true | .variableResultLand _ _ _ => true | .instructionReplay _ => true | .trapEntry _ => true
  | .teamStart _ => true | .clusterPlacement _ => true | .nodeReady _ => true | .dccProgramStart _ => true
  | .nodeComplete _ => true | .colophonRetry d => domOk d | .defqWrite a d _ => asidOk a && domOk d
  | .evpostWrite d _ => domOk d | .scTicketGrant => true
  | .pageWalk _ => true | .heldFaultRecordAppend d => domOk d | .replay d _ => domOk d
  | .tlbcmdRange a p n => asidOk a && decide (p < 2 ^ 36) && decide (n < 2 ^ 30) | .tlbcmdAsid a => asidOk a | .tlbcmdAll => true
  | .ctlbRange a p n => asidOk a && decide (p < 2 ^ 36) && decide (n < 2 ^ 30) | .ctlbAsid a => asidOk a | .tlbcmdDone _ => true
  | .l1cfg c _ => cidOk c | .l1SizeChange c => cidOk c | .dsmcfg d _ => domOk d | .dsmSizeChange d => domOk d
  | .logicalTimeTick c => cidOk c | .domainWrap d => domOk d | .epochSweepDone d => domOk d
  | .l1Fill _ => true | .leaseGrant _ => true | .sliceWrite _ => true | .writeBackAck _ => true | .sliceFill _ => true
  | .readShared _ => true | .writePermission _ => true | .waferScopeRead _ => true | .invalidation _ => true
  | .forward _ => true | .recall _ => true | .invalidationAck _ => true | .ownerWriteBack _ => true
  | .nearBankAtomic _ => true | .bankOperation _ => true | .bankTicketComplete _ => true
  | .copyStart c => cidOk c | .copyComplete _ => true | .copyPageResume _ => true
  | .matrixSubtileStart h _ => hcidOk h | .matrixOpComplete _ => true | .matrixFaultResume _ => true
  | .cmdSuspend _ a _ => asidOk a | .cmdResume _ a _ => asidOk a | .spineSuspend a d _ => asidOk a && domOk d
  | .spineReasonEnd a d => asidOk a && domOk d | .teamSaveComplete _ => true | .divertedArrival _ => true
  | .accImageSave h => hcidOk h | .dawn _ => true | .landingBufferArrival _ => true
  | .step a _ => asidOk a | .dfactRetire a _ _ => asidOk a | .dfactReturn a _ _ => asidOk a | .dbgctl a _ => asidOk a
  | .sampleWrite c => cidOk c | .watchpointArm c n _ => cidOk c && n < 4 | .watchpointArmComplete c n => cidOk c && n < 4
  | .watchpointDisarm c n _ => cidOk c && n < 4 | .watchpointReport _ => true
  | .binlo c i _ => cidOk c && i < 8 | .elo _ a => asidOk a | .ehi _ a => asidOk a
  | .meteringIntervalEnd => true | .energyWindowEnd => true | .sensorUpdate d c _ m => domOk d && c < 12 && m.length == 4
  | .talRefill d => domOk d | .tal d _ => domOk d | .patUpdate d => domOk d | .ppat d c _ => domOk d && c < 12
  | .powctl d _ => domOk d | .refreshIntervalStart d => domOk d | .refreshWindow d ch => domOk d && ch < 32
  | .topologyRetire d p => domOk d && (match p with | .core s => s < 144 | .array c => c < 12)
  | .almpol _ => true | .almlock _ => true | .alarm _ => true | .bootImageCheck _ => true
  | .attestationQuote n => n.length == 32 | .moduleReset => true
  | .hostInboundRead p _ n => p < 4 && n ≤ 4096 | .hostInboundWrite p _ b _ => p < 4 && b.length ≤ 512
  | .hostInboundAtomic p _ _ => p < 4 | .peerInboundAccess l _ _ => l < 32 | .outboundFlushCompletion p => p < 4
  | .linkDown p => portOk p | .linkCrcReplay l _ _ => l < 32 | .registerWrite _ _ _ _ => true | .linkUp p => portOk p
  | .peerWriteAck l => l < 32 | .yieldExpiry _ => true
  | .contextCreate a _ => asidOk a | .contextDestroy a => asidOk a | .debugUnlock _ _ => true | .markDegraded d _ => domOk d

end Sys2Proof
end

