-- ==== Sys2Proof/Machine/Base.lean ====
section
/-! DEFINITION. Tables, memory bytes, and the accessors of State: the ground of every other operation. -/

namespace Sys2Proof.Machine

/-! Tables with strictly rising keys. -/

def tget {α : Type} : Tbl α → Nat → Option α
  | [], _ => none
  | (k, a) :: t, x => if k = x then some a else tget t x

def tput {α : Type} : Tbl α → Nat → α → Tbl α
  | [], x, a => [(x, a)]
  | (k, b) :: t, x, a => if x < k then (x, a) :: (k, b) :: t else if x = k then (x, a) :: t else (k, b) :: tput t x a

def tdel {α : Type} : Tbl α → Nat → Tbl α
  | [], _ => []
  | (k, b) :: t, x => if k = x then t else (k, b) :: tdel t x

def tgetD {α : Type} (t : Tbl α) (x : Nat) (d : α) : α := (tget t x).getD d

/-- Write a value, keeping no entry equal to the default. -/
def tputD {α : Type} [DecidableEq α] (t : Tbl α) (x : Nat) (d a : α) : Tbl α := if a = d then tdel t x else tput t x a

/-! Bytes. -/

/-- n bytes of a number, least significant first (R16). -/
def leBytes (n v : Nat) : List Byte := (List.range n).map fun i => BitVec.ofNat 8 (v / 256 ^ i)

/-- The number of a list of bytes, least significant first (R16). -/
def leVal (bs : List Byte) : Nat := bs.foldr (fun b v => b.toNat + 256 * v) 0

def wordOf (n : Nat) : Word := BitVec.ofNat 32 n
def dwordOf (lo hi : Word) : DWord := BitVec.ofNat 64 (lo.toNat + 2 ^ 32 * hi.toNat)
def loWord (d : DWord) : Word := d.extractLsb' 0 32
def hiWord (d : DWord) : Word := d.extractLsb' 32 32
def lane (v : Lanes) (l : Nat) : Word := v.getD l 0
def zeroLanes : Lanes := List.replicate 32 0
/-- Bits [hi:lo] of a number. -/
def bits (v hi lo : Nat) : Nat := v / 2 ^ lo % 2 ^ (hi + 1 - lo)
def maskOf (f : Nat → Bool) : LaneMask := BitVec.ofNat 32 ((List.range 32).foldl (fun a l => if f l then a + 2 ^ l else a) 0)
def lanesOf (m : LaneMask) : List Nat := (List.range 32).filter fun l => m.getLsbD l

/-- Memory at the listed bytes (R6): power-on bytes read as Config.powerOnByte. -/
def memGet (m : List Host.Cell) (a : Nat) : Byte := tgetD m a Config.powerOnByte
def memPut (m : List Host.Cell) (a : Nat) (b : Byte) : List Host.Cell := tputD m a Config.powerOnByte b
def memRead (m : List Host.Cell) (a n : Nat) : List Byte := (List.range n).map fun i => memGet m (a + i)
def memWrite (m : List Host.Cell) (a : Nat) : List Byte → List Host.Cell
  | [] => m
  | b :: bs => memWrite (memPut m a b) (a + 1) bs

/-- A table in canonical form: keys strictly rising, no entry equal to what an unlisted key reads as. -/
abbrev Canon {α : Type} (d : α) (t : Tbl α) : Prop := (t.Pairwise fun x y => x.1 < y.1) ∧ ∀ c ∈ t, c.2 ≠ d

/-- Memory in canonical form. -/
abbrev Memory.wf (m : List Host.Cell) : Prop := Canon Config.powerOnByte m

/-- Replace the bytes from offset o of a list. -/
def patch (bs : List Byte) (o : Nat) (new : List Byte) : List Byte :=
  bs.mapIdx fun i b => if o ≤ i ∧ i < o + new.length then new.getD (i - o) b else b

def slice (bs : List Byte) (o n : Nat) : List Byte := (List.range n).map fun i => bs.getD (o + i) 0
def zeroLine : List Byte := List.replicate 64 0

/-- Replace the bytes of a word from byte i. -/
def patchWord (w : Word) (i : Nat) (bs : List Byte) : Word := wordOf (leVal (patch (leBytes 4 w.toNat) i bs))

def setAt {α : Type} (l : List α) (i : Nat) (a : α) : List α := l.set i a

/-! Numbers of things. -/

def cidOf (d site : Nat) : Nat := 145 * d + site
def cidDom (cid : Nat) : Nat := cid / 145
def cidSite (cid : Nat) : Nat := cid % 145
def gidCid (gid : Nat) : Nat := gid % 2 ^ 32 / 64
def gidSlot (gid : Nat) : Nat := gid % 64
def gidOf (cid slot : Nat) : Nat := 64 * cid + slot
def isDcc (cid : Nat) : Bool := cidSite cid == Config.dccSite
/-- Hardware cluster of a core site (R215). -/
def siteHc (site : Nat) : Nat := 4 * (site / 12 / 4) + site % 12 / 3
def cidHcid (cid : Nat) : Nat := 12 * cidDom cid + siteHc (cidSite cid)
def lineKey (d line : Nat) : Nat := 2 ^ 42 * d + line
def nidOf (asid handle idx : Nat) : Nat := 2 ^ 32 * asid + 2 ^ 16 * handle + idx

/-! Accessors. -/

def State.group (s : State) (gid : Nat) : Option Group := tget s.groups gid
def State.core (s : State) (cid : Nat) : Core := tgetD s.cores cid freshCore
def State.hc (s : State) (h : Nat) : Hc := tgetD s.hcs h freshHc
def State.dom (s : State) (d : Nat) : Dom := tgetD s.doms d (freshDom d)
def State.ctx (s : State) (asid : Nat) : Option Ctx := tget s.ctxs asid
def State.team (s : State) (tid : Nat) : Option Team := tget s.teams tid
def State.putGroup (s : State) (gid : Nat) (g : Group) : State := { s with groups := tput s.groups gid g }
def State.putCore (s : State) (cid : Nat) (c : Core) : State := { s with cores := tput s.cores cid c }
def State.putHc (s : State) (h : Nat) (x : Hc) : State := { s with hcs := tput s.hcs h x }
def State.putDom (s : State) (d : Nat) (x : Dom) : State := { s with doms := tput s.doms d x }
def State.putCtx (s : State) (a : Nat) (x : Ctx) : State := { s with ctxs := tput s.ctxs a x }
def State.putTeam (s : State) (tid : Nat) (t : Team) : State := { s with teams := tput s.teams tid t }
def State.putMem (s : State) (m : List Host.Cell) : State := { s with mem := m }
def State.putWafer (s : State) (w : Wafer) : State := { s with wafer := w }

def State.modGroup (s : State) (gid : Nat) (f : Group → Group) : State :=
  match s.group gid with
  | some g => s.putGroup gid (f g)
  | none => s

def State.modCore (s : State) (cid : Nat) (f : Core → Core) : State := s.putCore cid (f (s.core cid))
def State.modDom (s : State) (d : Nat) (f : Dom → Dom) : State := s.putDom d (f (s.dom d))
def State.modHc (s : State) (h : Nat) (f : Hc → Hc) : State := s.putHc h (f (s.hc h))
def State.modTeam (s : State) (tid : Nat) (f : Team → Team) : State :=
  match s.team tid with
  | some t => s.putTeam tid (f t)
  | none => s
def State.modNode (s : State) (nid : Nat) (f : Node → Node) : State :=
  match tget s.nodes nid with
  | some n => { s with nodes := tput s.nodes nid (f n) }
  | none => s
def State.modCtx (s : State) (a : Nat) (f : Ctx → Ctx) : State :=
  match s.ctx a with
  | some c => s.putCtx a (f c)
  | none => s

/-- The clock of a core: its hardware cluster's pulses, or the domain clock on a DCC (R353). -/
def State.cclk (s : State) (cid : Nat) : Nat := if isDcc cid then s.now else s.now - (s.hc (cidHcid cid)).lost

/-- The core has acknowledged its domain's wrap: its 64 clk are over and the write-backs with which it answered the wrap are acknowledged (R197). -/
def State.wrapAcked (s : State) (cid : Nat) : Bool :=
  (s.dom (cidDom cid)).wrapping && decide ((s.dom (cidDom cid)).sweepEnd ≤ s.now) && s.work.all fun w =>
    match w.job with
    | .write r => r.core != cid || r.kind != .writeBack || decide ((s.dom (cidDom cid)).wrapMark ≤ w.id)
    | .wack r _ _ => r.core != cid || r.kind != .writeBack || decide ((s.dom (cidDom cid)).wrapMark ≤ w.id)
    | _ => true

/-- A core's logical time: a tick every 64 clk since it last changed (R192); a DCC has none (R277). It reads 0 from a
wrap's acknowledgement to its end, and stands still at 0xFFFF (R197). -/
def State.pts (s : State) (cid : Nat) : Nat :=
  let c := s.core cid
  if isDcc cid then 0
  else if s.wrapAcked cid then 0
  else min 0xFFFF (c.pts + ((s.now - (s.dom (cidDom cid)).tickBase) / 64 - c.ptsAt))

/-- Set a core's logical time. -/
def State.setPts (s : State) (cid v : Nat) : State := 
  s.modCore cid fun c => { c with pts := v, ptsAt := (s.now - (s.dom (cidDom cid)).tickBase) / 64 }

def State.findWork (s : State) (id : Nat) : Option Work := s.work.find? fun w => w.id == id
def State.delWork (s : State) (id : Nat) : State := { s with work := s.work.filter fun w => w.id != id }

/-- The elements of a list, each once, in the order of their first places. -/
def uniqueNats (l : List Nat) : List Nat := l.foldl (fun a x => if a.contains x then a else a ++ [x]) []

/-- A free value's number. -/
def State.nextFree (s : State) : State := { s with freeUsed := s.freeUsed + 1 }

/-! Transits (R379-R381, R248). -/

/-- Coordinates of core site `site` of domain d. -/
def routerX (d site : Nat) : Nat := 12 * (d % 8) + site % 12
def routerY (d site : Nat) : Nat := 12 * (d / 8) + site / 12
def absDiff (a b : Nat) : Nat := (a - b) + (b - a)
/-- Core site of an agent: a DCC stands at router 78 (R380). -/
def siteRouter (site : Nat) : Nat := if site == Config.dccSite then 78 else site
/-- Transit without contention between two sites. -/
def transit (d site d' site' : Nat) : Nat :=
  let h := absDiff (routerX d site) (routerX d' site') + absDiff (routerY d site) (routerY d' site')
  1 + (h + 7) / 8 + 2 * (absDiff (d % 8) (d' % 8) + absDiff (d / 8) (d' / 8))

/-- Router site of slice bank k (R380). -/
def bankSite (k : Nat) : Nat := 12 * (2 + k / 8) + 2 + k % 8

/-- Transit of a message that passes through a router of its own domain on its way: its hops are those of both parts, and it crosses the boundaries of
the second (R248). -/
def transitVia (d site via d' site' : Nat) : Nat :=
  let h := absDiff (routerX d site) (routerX d via) + absDiff (routerY d site) (routerY d via) +
    absDiff (routerX d via) (routerX d' site') + absDiff (routerY d via) (routerY d' site')
  1 + (h + 7) / 8 + 2 * (absDiff (d % 8) (d' % 8) + absDiff (d / 8) (d' / 8))

/-- Domain and router site of a port, host ports 0-3 and wafer links from 4 on (R380). -/
def portRouter (port : Nat) : Nat × Nat :=
  if port = 0 then (0, 0) else if port = 1 then (7, 11) else if port = 2 then (56, 132) else if port = 3 then (63, 143)
  else
    let n := port - 4
    if n < 8 then (n, 6) else if n < 16 then (8 * (n - 8) + 7, 83) else if n < 24 then (56 + (n - 16), 138) else (8 * (n - 24), 72)

/-! The physical address map (R5-R7, R387, R389). -/

/-- What a physical address names. -/
inductive Target where
  | dram (d ofs : Nat)
  | dsm (d ofs : Nat)
  | core (ofs : Nat)
  | mmio (ofs : Nat)
  | topo (ofs : Nat)
  /-- Host memory by port, with its offset. -/
  | host (port ofs : Nat)
  /-- A peer module by wafer link. -/
  | peer (link ofs : Nat)
  | bad
  deriving DecidableEq, Repr

def targetOf (pa : Nat) : Target :=
  if bits pa 47 47 = 0 then
    if bits pa 46 42 = 0 then .dram (bits pa 41 36) (bits pa 35 0) else .bad
  else match bits pa 46 44 with
    | 0 => if bits pa 43 31 = 0 then .dsm (bits pa 30 25) (bits pa 24 0) else .bad
    | 1 => if bits pa 43 23 = 0 then .core (bits pa 22 0) else .bad
    | 2 => if bits pa 43 32 = 0 then .mmio (bits pa 31 0) else .bad
    | 3 => if bits pa 43 20 = 0 then .topo (bits pa 19 0) else .bad
    | 4 => if bits pa 43 43 = 0 then .host (bits pa 42 41) (bits pa 40 0) else .peer (bits pa 42 38) (bits pa 37 0)
    | _ => .bad

/-- The domain a DRAM or DSM line is homed in (R165, R250). -/
def lineHome (line : Nat) : Nat :=
  match targetOf (64 * line) with
  | .dram d _ => d
  | .dsm d _ => d
  | _ => 0

def lineIsDsm (line : Nat) : Bool :=
  match targetOf (64 * line) with
  | .dsm _ _ => true
  | _ => false

def lineIsFar (line : Nat) : Bool :=
  match targetOf (64 * line) with
  | .host _ _ => true
  | .peer _ _ => true
  | _ => false

/-- Slice bank of a line (R244, R250). -/
def lineBank (line : Nat) : Nat :=
  let pa := 64 * line
  if lineIsDsm line then bits pa 11 6
  else bits pa 11 6 ^^^ bits pa 17 12 ^^^ bits pa 23 18 ^^^ bits pa 29 24 ^^^ bits pa 35 30

/-- Set of a DRAM line (R244). -/
def lineSet (line : Nat) : Nat := bits (64 * line) 22 12 ^^^ bits (64 * line) 33 23

/-- DRAM channel of a line (R265). -/
def lineChannel (line : Nat) : Nat := bits (64 * line) 12 8 ^^^ bits (64 * line) 20 16 ^^^ bits (64 * line) 28 24

/-- The slice that serves a core for a line: its own, or for DSM the bank's (R251). -/
def sliceOf (cid line : Nat) : Nat := if lineIsDsm line then lineHome line else cidDom cid

/-! Messages (R382, R383). -/

/-- Grid distance of domains (R326). -/
def gridDistance (a b : Nat) : Nat := absDiff (a / 8) (b / 8) + absDiff (a % 8) (b % 8)
/-- The domains in ascending grid distance from h, ties in ascending number (R326). -/
def domainsFrom (h : Nat) : List Nat := (List.range 15).flatMap fun k => (List.range 64).filter fun d => gridDistance h d == k
/-- SEQDOM: 27, or the first domain in order from 27 whose sequencer and router passed the test (R308). -/
def seqDom : Nat := ((domainsFrom 27).find? fun d => !Config.sequencerBad d).getD 27

/-- The port behind which a far address lies: host ports 0-3, wafer links from 4 on. -/
def farPort (pa : Nat) : Nat :=
  match targetOf pa with
  | .host p _ => p
  | .peer n _ => 4 + n
  | _ => 0

/-- Transit from a core to the home bank of a line, through its own slice's bank where the line is homed elsewhere (R248), or to the router of the port
that the line lies behind (R380). -/
def State.toHome (cid line : Nat) : Nat :=
  let d := cidDom cid
  let site := siteRouter (cidSite cid)
  let bank := bankSite (lineBank line)
  if lineIsFar line then transit d site (portRouter (farPort (64 * line))).1 (portRouter (farPort (64 * line))).2
  else if lineHome line = d then transit d site d bank
  else transitVia d site bank (lineHome line) bank

/-- Transit from a core to the slice or bank that serves it. -/
def State.toSlice (cid line : Nat) : Nat :=
  if lineIsFar line || lineIsDsm line then State.toHome cid line else transit (cidDom cid) (siteRouter (cidSite cid)) (cidDom cid) (bankSite (lineBank line))

/-- A core's port of the mesh, a slice bank's, that of the agents at a domain's router 78, and that of a host port or wafer link (R380). -/
def corePort (cid : Nat) : Nat := 4 * cid
def bankPort (d line : Nat) : Nat := 4 * (64 * d + lineBank line) + 1
def domPort (d : Nat) : Nat := 4 * d + 2
def farPortOf (port : Nat) : Nat := 4 * port + 3

/-- Where a request of the core's for a line goes in: its slice or bank, or the port that host or peer memory lies behind. -/
def linePort (cid line : Nat) : Nat := if lineIsFar line then farPortOf (farPort (64 * line)) else bankPort (sliceOf cid line) line

/-- Where an atomic on a line is performed. -/
def homePort (line : Nat) : Nat := if lineIsFar line then farPortOf (farPort (64 * line)) else bankPort (lineHome line) line

/-- The class of the messages that an item stands for (R382). A strong store or descriptor write goes as a request (log 94). -/
def Job.msgClass (j : Job) : MsgClass :=
  match j with
  | .fill _ _ _ _ _ => .request
  | .read _ => .request
  | .atomic _ => .request
  | .write w => if w.kind == .strong || w.kind == .desc then .request else .writeBack
  | .bank _ => .request
  | .l1fill _ _ _ _ _ _ _ => .response
  | .wack _ _ _ => .response
  | .bankDone _ _ _ _ => .response
  | .readShared _ _ _ => .request
  | .writePerm _ _ => .request
  | .permRead _ _ => .request
  | .sliceFill _ _ _ _ => .response
  | .inval _ _ _ => .probe
  | .invAck _ _ _ => .response
  | .forward _ _ _ _ _ => .probe
  | .recall _ _ => .probe
  | .ownerWb _ _ _ => .writeBack
  | .copy _ => .request
  | .copyResume _ _ _ => .request
  | .walk _ => .request
  | .tlbInv _ => .request
  | .flush _ => .request
  | .watchReport _ _ _ _ _ _ _ => .debug
  | .arrival _ _ _ _ => .writeBack
  | .accSave _ _ => .writeBack

/-- Source and destination port of an item that is one message; none of one that stands for a series of them, or for work at one place. An SC
atomic without its ticket goes to the sequencer's router. -/
def Job.ports (j : Job) : Option (Nat × Nat) :=
  let home := fun (line : Nat) => bankPort (lineHome line) line
  match j with
  | .fill c line _ _ _ => some (corePort c, linePort c line)
  | .read r => some (corePort r.core, linePort r.core r.line)
  | .atomic a => some (corePort a.core, if a.sc && a.ticket.isNone then domPort seqDom else homePort a.line)
  | .write w => some (corePort w.core, linePort w.core w.line)
  | .bank b => some (corePort b.core, bankPort b.dom (b.x / 64))
  | .l1fill c line _ _ _ _ _ => some (linePort c line, corePort c)
  | .wack w _ _ => some (linePort w.core w.line, corePort w.core)
  | .bankDone b _ _ _ => some (bankPort b.dom (b.x / 64), corePort b.core)
  | .readShared d line _ => some (bankPort d line, home line)
  | .writePerm d line => some (bankPort d line, home line)
  | .sliceFill d line (some _) _ => some (home line, bankPort d line)
  | .inval line target _ => some (home line, bankPort target line)
  | .invAck line target writer => some (bankPort target line, bankPort writer line)
  | .forward line owner _ _ _ => some (home line, bankPort owner line)
  | .recall line owner => some (home line, bankPort owner line)
  | .ownerWb line owner _ => some (bankPort owner line, home line)
  | .watchReport c _ _ engine _ _ _ => some (if engine = 1 then corePort c else 4 * engine + 1, corePort c)
  | _ => none

/-- Class, source port and destination port of a message (R382, R383). -/
def Job.channel (j : Job) : Option (MsgClass × Nat × Nat) := j.ports.map fun (a, b) => (j.msgClass, a, b)

/-- When a message that would arrive at t arrives: not before one of its channel that set out earlier. Of two that are due at one clock the one
that stands first in the list of work is served first, and so those that stand behind it are passed by a clock (R383). -/
def fifoTime (c : MsgClass × Nat × Nat) (front back : List Work) (t : Nat) : Nat :=
  let after := fun (k : Nat) (l : List Work) (t : Nat) => l.foldl (fun t w => if w.wait.isNone && w.job.channel == some c then max t (w.due + k) else t) t
  after 1 back (after 0 front t)

/-- The arrival of item `id`, in its place or at the end of the list. -/
def State.arrivesAt (s : State) (id : Nat) (j : Job) (t : Nat) : Nat :=
  match j.channel with
  | none => t
  | some c => fifoTime c (s.work.takeWhile fun w => w.id != id) ((s.work.dropWhile fun w => w.id != id).drop 1) t

/-- Add a work item that can be served after dt clocks. -/
def State.addWork (s : State) (dt : Nat) (j : Job) : State :=
  { s with work := s.work ++ [⟨s.uid, s.arrivesAt s.uid j (s.now + dt + Config.extraDelay s.uid), j, none⟩], uid := s.uid + 1 }

/-- Change an item in place: it keeps its number and its position. -/
def State.setWork (s : State) (id dt : Nat) (j : Job) : State :=
  { s with work := s.work.map fun w => if w.id == id then ⟨id, s.arrivesAt id j (s.now + dt), j, none⟩ else w }

/-- Virtual addresses run through their 4 KiB page. -/
def pageOf (va : Nat) : Nat := va / 4096

/-- Context of a group, by its team. -/
def State.teamOf (s : State) (g : Group) : Option Team := s.team g.team
def State.asidOf (s : State) (g : Group) : Nat := ((s.teamOf g).map (·.asid)).getD 0

end Sys2Proof.Machine
end

