-- ==== Sys2Proof/Machine/Slice.lean ====
section
/-! DEFINITION. The L2 slices, DRAM and the home directory (R193, R195, R244-R251, R274, R311-R316): what a slice holds, the stamps,
and the transitions that the home makes for a read, a write permission and a home write. -/

namespace Sys2Proof.Machine

/-! Lines. -/

def dramLine (s : State) (line : Nat) : LineImg := ⟨memRead s.mem (64 * line) 64, tgetD s.desc line Config.freshDesc⟩

/-- Where the outside world's byte at an outbound address is kept: one host memory behind the four ports (R387), one window per
wafer link (R389). -/
def State.farAddr (s : State) (pa : Nat) : Nat :=
  match targetOf pa with
  | .host p o => 2 ^ 64 + ((s.wafer.obase.getD p 0) + o) % 2 ^ 64
  | .peer n o => 2 ^ 65 + 2 ^ 38 * n + o
  | _ => pa

/-- A line of host or peer memory as a read finds it, after the writes posted before it: it has no descriptor. -/
def State.farLine (s : State) (line : Nat) : LineImg :=
  ⟨s.posted.foldl (fun bs p => if p.pa / 64 == line then patch bs (p.pa % 64) p.bytes else bs) (memRead s.mem (s.farAddr (64 * line)) 64), Config.freshDesc⟩
def State.farWrite (s : State) (pa : Nat) (bs : List Byte) : State := { s with mem := memWrite s.mem (s.farAddr pa) bs }

/-- What accesses of other kinds find written: posted writes of the line reach its memory before them (R387). -/
def State.settleFar (s : State) (line : Nat) : State :=
  let mine := fun (p : Posted) => p.pa / 64 == line
  let s' := (s.posted.filter mine).foldl (fun s p => s.farWrite p.pa p.bytes) s
  { s' with posted := s'.posted.map fun p => if mine p then { p with bytes := [] } else p }

/-- Write a line and its descriptor to DRAM. -/
def State.dramPut (s : State) (line : Nat) (img : LineImg) : State :=
  { s with mem := memWrite s.mem (64 * line) img.data, desc := tputD s.desc line Config.freshDesc img.desc }

/-- A DSM line that nothing has written: zero, undescribed (R249), no stamps. -/
def freshDsm (epoch : Bool) : SLine :=
  { data := zeroLine, desc := Config.freshDesc, st := .m, wts := 0, rts := 0, epoch := epoch, used := 0 }

/-- The line as slice d holds it. DSM lines are always at their bank (R250). -/
def State.sline (s : State) (d line : Nat) : Option SLine :=
  match tget s.lines (lineKey d line) with
  | some x => some x
  | none => if lineIsDsm line && lineHome line == d then some (freshDsm (s.dom d).epoch) else none

def State.putSline (s : State) (d line : Nat) (x : SLine) : State :=
  { s with lines := tput s.lines (lineKey d line) { x with used := s.now } }
def State.delSline (s : State) (d line : Nat) : State := { s with lines := tdel s.lines (lineKey d line) }

def SLine.img (x : SLine) : LineImg := ⟨x.data, x.desc⟩

/-- Stamps as they read under the slice's epoch (R193). -/
def State.stamps (s : State) (d : Nat) (x : SLine) : Nat × Nat := if x.epoch == (s.dom d).epoch then (x.wts, x.rts) else (0, 0)

/-- Begin a domain wrap (R197). -/
def State.startWrap (s : State) (d : Nat) : State :=
  if (s.dom d).wrapping then s else s.modDom d fun x => { x with wrapAsked := true }

/-- Raise the watermark; past 0xFFFF the domain wraps. -/
def State.raiseW (s : State) (d v : Nat) : State :=
  let s := s.modDom d fun x => { x with wm := min 0xFFFF (max x.wm v) }
  if v > 0xFFFF then s.startWrap d else s

/-- The slice loses its copy to an invalidation, a forward or a recall (R195, R312). -/
def State.dropCopy (s : State) (d line : Nat) : State :=
  match s.sline d line with
  | some x => (s.raiseW d ((s.stamps d x).2 + 1)).delSline d line
  | none => s

/-- An access of the slice's line is a use of it (R246). -/
def State.useSline (s : State) (d line : Nat) : State :=
  match tget s.lines (lineKey d line) with
  | some x => s.putSline d line x
  | none => s

/-! Frames and victims (R244, R246, R249). -/

/-- Ways of a set that DSM leaves to the cache: 96 MiB less the DSM size in all; of a size that is no multiple of four steps, the sets with
the lowest numbers give one way more (R249: log 79). -/
def State.waysAt (s : State) (d set : Nat) : Nat :=
  let n := (s.dom d).dsmsize
  12 - n / 4 - (if set < 512 * (n % 4) then 1 else 0)

def State.ways (s : State) (d line : Nat) : Nat := s.waysAt d (lineSet line)

/-! Metering (R354). -/

/-- Charge n bytes to the core's cluster and to a context (R354). -/
def State.charge (s : State) (cid asid n : Nat) : State :=
  let s := if isDcc cid then s else s.modHc (cidHcid cid) fun h => { h with bytes := h.bytes + n }
  let s := if n = 0 then s else s.modDom (cidDom cid) fun x => { x with counts := tput x.counts asid (tgetD x.counts asid 0 + n) }
  s.modCtx asid fun c => { c with bytes := c.bytes + n }

/-- A line that goes home across a domain boundary is counted for who wrote it last (R354: log 93). -/
def State.chargeWriter (s : State) (x : SLine) : State :=
  match x.writer with
  | some (cid, asid) => s.charge cid asid 64
  | none => s

/-- Slice d drops a line as victim. Leases on its copies expire under R196 (R246), and so W keeps what its stamps were (log 95). -/
def State.evictSline (s : State) (d line : Nat) : State :=
  match s.sline d line with
  | none => s
  | some x =>
    let h := lineHome line
    let s := (s.raiseW d (s.stamps d x).2).delSline d line
    if x.st == .m then
      if h == d then s.dramPut line x.img
      else (s.chargeWriter x).addWork (transit d (bankSite (lineBank line)) h (bankSite (lineBank line))) (.ownerWb line d x.img)
    else s

/-- Lines of slice d in the bank and set of `line`. -/
def State.setLines (s : State) (d line : Nat) : List (Nat × SLine) :=
  (s.lines.filter fun (k, _) =>
    let l := k % 2 ^ 42
    k / 2 ^ 42 == d && l != line && !lineIsDsm l && lineBank l == lineBank line && lineSet l == lineSet line).map
      fun (k, x) => (k % 2 ^ 42, x)

/-- A line whose frame a fill or an atomic uses is not chosen (R246). -/
def State.frameBusy (s : State) (d line : Nat) : Bool :=
  s.work.any fun w =>
    match w.job with
    | .fill c l _ _ _ => l == line && cidDom c == d
    | .atomic a => a.line == line && lineHome line == d
    | _ => false

/-- The least recently used of some lines. -/
def oldestLine (l : List (Nat × SLine)) : Option (Nat × SLine) :=
  l.foldl (fun (b : Option (Nat × SLine)) x =>
    match b with
    | some y => if x.2.used < y.2.used then some x else b
    | none => some x) none

/-- Whether a frame for the line is free or can be freed (R246). -/
def State.frameFor (s : State) (d line : Nat) : Bool :=
  lineIsDsm line || (s.sline d line).isSome || decide ((s.setLines d line).length < s.ways d line) ||
    (s.setLines d line).any fun (l, _) => !s.frameBusy d l

/-- Make a frame free: victims leave where the set is full, never one whose frame is in use (R246). An agent that acts whole at one clock, and finds
every frame in use, keeps its line beside them until a frame of the set can be freed (log 79). -/
def State.roomFor (s : State) (d line : Nat) : State :=
  if lineIsDsm line || (s.sline d line).isSome then s
  else (List.range ((s.setLines d line).length + 1 - s.ways d line)).foldl (fun s _ =>
    match oldestLine ((s.setLines d line).filter fun (l, _) => !s.frameBusy d l) with
    | some v => s.evictSline d v.1
    | none => s) s

/-- Enter a line from DRAM or from another domain, with stamps W + 1 (R193), a victim leaving first where the set is full. -/
def State.enterSline (s : State) (d line : Nat) (img : LineImg) (st : SState) : State :=
  let s := s.roomFor d line
  let w := (s.dom d).wm + 1
  let s := if w > 0xFFFF then s.startWrap d else s
  s.putSline d line { data := img.data, desc := img.desc, st := st, wts := min 0xFFFF w, rts := min 0xFFFF w, epoch := (s.dom d).epoch, used := s.now }

/-! The directory (R311). -/

def State.dir (s : State) (line : Nat) : Option DirEntry := tget s.dirs line
def State.owner (s : State) (line : Nat) : Option Nat := (s.dir line).bind (·.owner)
def State.sharers (s : State) (line : Nat) : List Nat := ((s.dir line).map (·.sharers)).getD []
def State.freeDir (s : State) (line : Nat) : State := { s with dirs := tdel s.dirs line }

/-- Invalidations to the sharers other than `writer`, acknowledged to it (R312), that set out dt clocks from now. -/
def State.invalSharers (s : State) (line writer dt : Nat) : State :=
  ((s.sharers line).filter (· != writer)).foldl (fun s t =>
    s.addWork (dt + transit (lineHome line) (bankSite (lineBank line)) t (bankSite (lineBank line))) (.inval line t writer)) s

/-! Lines on their way (R267, R312, R314). -/

def poisonDesc (d : LineDesc) : LineDesc := BitVec.ofNat 16 (d.toNat % 256 + 0xFF00)

/-- One more on an error counter of domain h (R376). -/
def State.countError (s : State) (h k : Nat) : State := s.modDom h fun x => { x with errs := x.errs.set k (min 0xFFFFFFFF (x.errs.getD k 0 + 1)) }

/-- A line is read from DRAM: what the read finds is left open; a corrected error is counted, an uncorrectable one poisons the line at the slice
(R267, R376, log 17). -/
def State.readDram (s : State) (line : Nat) : State × LineImg :=
  let e := Config.memError s.freeUsed
  let img := dramLine s line
  let one := fun (x : Dom) (k : Nat) (hit : Bool) => if hit then min 0xFFFFFFFF (x.errs.getD k 0 + 1) else x.errs.getD k 0
  (s.nextFree.modDom (lineHome line) fun x =>
      { x with errs := (x.errs.set 0 (one x 0 (e == 1))).set 1 (one x 1 (e == 2)), lastUe := if e == 2 then 64 * line else x.lastUe },
    { img with desc := if e == 2 then poisonDesc img.desc else img.desc })

/-- A line arrives at slice d: from the home's DRAM without an image, else from another slice. What no longer entitles d to it is
not entered. A grant's data replaces a shared copy, which is lost as by an invalidation, so that no lease on it outlives the write (R195). -/
def State.landFill (s : State) (d line : Nat) (img : Option LineImg) (st : SState) : State :=
  match img with
  | none =>
    if lineHome line == d && (s.owner line).isNone && (s.sline d line).isNone then
      let (s, im) := s.readDram line
      s.enterSline d line im (if (s.dir line).isSome then .s else .e)
    else s
  | some im =>
    let entitled := match st with
      | .m => s.owner line == some d
      | .r => true
      | _ => (s.sharers line).contains d
    if !entitled then s
    else
      match s.sline d line with
      | some _ => if st == .m then (s.dropCopy d line).enterSline d line im .m else s
      | none => s.enterSline d line im st

/-- Data of a former owner arrives at the home: of an eviction or a recall, M with the entry freed; of a forward that kept S, a
clean copy; discarded when another domain owns the line (R312, R314). -/
def State.landOwnerWb (s : State) (line o : Nat) (img : LineImg) : State :=
  let h := lineHome line
  match s.owner line with
  | some o' => if o' == o then (s.enterSline h line img .m).freeDir line else s
  | none => if (s.sline h line).isSome then s else (s.dramPut line img).enterSline h line img (if (s.dir line).isSome then .s else .e)

/-- The data on its way to the slices that hold or get a line lands. -/
def State.landAll (s : State) (line : Nat) : State :=
  s.work.foldl (fun s w =>
    match w.job with
    | .sliceFill d l (some im) st => if l == line then (s.landFill d l (some im) st).delWork w.id else s
    | .ownerWb l o im => if l == line then (s.landOwnerWb l o im).delWork w.id else s
    | _ => s) s

/-! The home's own moves (R312). -/

/-- Take the line from its owner at once: the owner drops it, or keeps S; the home slice gets the data, M after a recall, clean
and in DRAM after a forward (R312). -/
def State.takeFromOwner (s : State) (line : Nat) (keep : Bool) : State :=
  match s.owner line with
  | none => s
  | some o =>
    let h := lineHome line
    match s.sline o line with
    | none => s.freeDir line
    | some x =>
      if keep then
        let t := ((s.putSline o line { x with st := .s }).dramPut line x.img).enterSline h line x.img .s
        { t with dirs := tput t.dirs line { owner := none, sharers := [o], used := s.now } }
      else ((s.dropCopy o line).enterSline h line x.img .m).freeDir line

/-- The other lines of one home whose entries share a directory set (R311: 2 Mi entries in 16-way sets). -/
def State.dirSetOf (s : State) (line : Nat) : List (Nat × DirEntry) :=
  s.dirs.filter fun (l, _) => lineHome l == lineHome line && l != line && Config.dirSet l 131072 == Config.dirSet line 131072

/-- A transaction on the line is under way: its entry is no victim while another will do (R314). -/
def State.dirBusy (s : State) (line : Nat) : Bool :=
  s.work.any fun w =>
    match w.job with
    | .sliceFill _ l _ _ => l == line
    | .ownerWb l _ _ => l == line
    | .forward l _ _ _ _ => l == line
    | .recall l _ => l == line
    | _ => false

def oldestEntry (l : List (Nat × DirEntry)) : Option (Nat × DirEntry) :=
  l.foldl (fun (b : Option (Nat × DirEntry)) x =>
    match b with
    | some y => if x.2.used < y.2.used then some x else b
    | none => some x) none

/-- The home slice holds a line, from DRAM where no slice owns it. -/
def State.homeFetch (s : State) (line : Nat) : State :=
  let h := lineHome line
  match s.sline h line with
  | some _ => s
  | none =>
    let (s, img) := s.readDram line
    s.enterSline h line img (if (s.dir line).isSome then .s else .e)

/-- A home write's removal of the other copies (R312): a recall, or invalidations that are still to be acknowledged. -/
def State.homeTake (s : State) (line : Nat) : State :=
  match s.owner line with
  | some _ => s.takeFromOwner line false
  | none => (s.invalSharers line (lineHome line) 0).freeDir line

/-! The dirty bitmap (R274). -/

/-- The dirty bitmap's byte and bit of a DRAM line (R274). -/
def dirtyBit (base line : Nat) : Nat × Nat :=
  let ofs := 64 * line % 2 ^ 36
  let p := ofs / 4096 % 512
  (base + 64 * (ofs / 2 ^ 21) + p / 8, p % 8)

/-- The byte at a DRAM address wherever its newest copy is. -/
def State.newestByte (s : State) (pa : Nat) : Byte :=
  let line := pa / 64
  let at' := (s.owner line).getD (lineHome line)
  match s.sline at' line with
  | some x => x.data.getD (pa % 64) 0
  | none => memGet s.mem pa

/-- The descriptor of a line wherever its newest copy is. -/
def State.newestDesc (s : State) (line : Nat) : LineDesc :=
  match s.sline ((s.owner line).getD (lineHome line)) line with
  | some x => x.desc
  | none => tgetD s.desc line Config.freshDesc

/-- Set the page's dirty bit at wafer scope (R274): a home write of the bitmap's byte. The address is DBMBASE's as it stands (R5: log 78). -/
def State.markDirty (s : State) (line : Nat) : State :=
  match targetOf (64 * line) with
  | .dram d _ =>
    let (a, b) := dirtyBit (s.dom d).dbmbase line
    if (s.newestByte a).getLsbD b then s
    else
      let l := a / 64
      let h := lineHome l
      let s := ((s.landAll l).homeTake l).homeFetch l
      match s.sline h l with
      | some x =>
        let r := (s.stamps h x).2
        let new := patch x.data (a % 64) [(x.data.getD (a % 64) 0) ||| BitVec.ofNat 8 (2 ^ b)]
        (s.putSline h l { x with data := new, st := .m, wts := min 0xFFFF (r + 1), epoch := (s.dom h).epoch, rts := r }).raiseW h (r + 1)
      | none => s
  | _ => s

/-- Before an agent that acts whole at one clock uses a line, the data on its way lands; a write-back from another slice marks the page (R274). -/
def State.settle (s : State) (line : Nat) : State :=
  let back := s.work.any fun w =>
    match w.job with
    | .ownerWb l _ _ => l == line
    | _ => false
  if back then (s.landAll line).markDirty line else s.landAll line

/-- A write-back from another slice, taken at once: the page is marked (R274). -/
def State.takeMarked (s : State) (line : Nat) (keep : Bool) : State :=
  if (s.owner line).isSome then (s.takeFromOwner line keep).markDirty line else s

/-- A directory entry chosen as victim is freed as by a home write, without writing data (R312). -/
def State.evictDir (s : State) (line : Nat) : State :=
  let s := s.settle line
  match s.owner line with
  | some _ => s.takeMarked line false
  | none => (s.invalSharers line (lineHome line) 0).freeDir line

/-! Entries of the directory. -/

/-- Make an entry, with a victim where its set is full. -/
def State.putDir (s : State) (line : Nat) (e : DirEntry) : State :=
  let set := s.dirSetOf line
  let s :=
    if (s.dir line).isNone && set.length ≥ 16 then
      match (oldestEntry (set.filter fun (l, _) => !s.dirBusy l)).orElse fun _ => oldestEntry set with
      | some v => s.evictDir v.1
      | none => s
    else s
  { s with dirs := tput s.dirs line { e with used := s.now } }

def State.addSharer (s : State) (line d : Nat) : State :=
  s.putDir line { owner := none, sharers := d :: (s.sharers line).filter (· != d), used := s.now }

/-! Whole transactions, for the agents that act at one clock. -/

/-- The home slice holds the line, from DRAM or the owner if need be. -/
def State.homeHolds (s : State) (line : Nat) : State := (s.takeMarked line true).homeFetch line

/-- Clean the home's copy, so that it may be shared (R312). -/
def State.cleanHome (s : State) (line : Nat) : State :=
  let h := lineHome line
  match s.sline h line with
  | some x => if lineIsDsm line then s else (if x.st == .m then s.dramPut line x.img else s).putSline h line { x with st := .s }
  | none => s

/-- The home serves a read-shared request of d whole: data into slice d as S, or as R without an entry (R312, R316). -/
def State.shareTo (s : State) (d line : Nat) (ro : Bool) : State :=
  let h := lineHome line
  let s := s.homeHolds line
  if d == h then s
  else
    match s.sline h line with
    | none => s
    | some x =>
      let s := s.useSline h line
      if ro then s.enterSline d line x.img .r
      else ((s.cleanHome line).addSharer line d).enterSline d line x.img .s

/-- A home write's removal of the other copies, with the page marked where an owner's data comes home. -/
def State.homeClaim (s : State) (line : Nat) : State := if (s.owner line).isSome then s.takeMarked line false else s.homeTake line

/-- The home grants d write permission whole (R312). -/
def State.grantTo (s : State) (d line : Nat) : State :=
  let h := lineHome line
  match s.owner line with
  | some o =>
    if o == d then s
    else
      match s.sline o line with
      | some x =>
        let s := (s.dropCopy o line).enterSline d line x.img .m
        s.putDir line { owner := some d, sharers := [], used := s.now }
      | none => s
  | none =>
    let s := s.homeFetch line
    match s.sline h line with
    | none => s
    | some y =>
      let s := (s.invalSharers line d 0).dropCopy h line
      let s := s.putDir line { owner := some d, sharers := [], used := s.now }
      (s.dropCopy d line).enterSline d line y.img .m

/-- Slice d can be read for the line: it holds it, or fetches it (R311). -/
def State.getShared (s : State) (d line : Nat) (ro : Bool) : State :=
  match s.sline d line with
  | some _ => s
  | none => s.shareTo d line ro

/-- Slice d can write the line (R311): E or M at home, M elsewhere. -/
def State.getOwned (s : State) (d line : Nat) : State :=
  if lineHome line == d then
    let s := (s.homeClaim line).homeFetch line
    match s.sline d line with
    | some x => s.putSline d line { x with st := .m }
    | none => s
  else s.grantTo d line

/-- Whether slice d may write the line now. -/
def State.canWrite (s : State) (d line : Nat) : Bool :=
  match s.sline d line with
  | some x => if lineHome line == d then (s.dir line).isNone else x.st == .m
  | none => false

/-! Writes at a slice. -/

/-- Replace the bytes that are present in `new`. -/
def patchMask (bs : List Byte) (new : ByteMask) : List Byte :=
  bs.mapIdx fun i b =>
    match new.getD i none with
    | some v => v
    | none => b

/-- Write a line that slice d may write, as a write with no core's time (R195). -/
def State.bankWrite (s : State) (d line : Nat) (new : ByteMask) (desc : Option LineDesc) : State :=
  match s.sline d line with
  | none => s
  | some x =>
    let r := (s.stamps d x).2
    let x := { x with data := patchMask x.data new, desc := desc.getD x.desc, st := .m, wts := min 0xFFFF (r + 1), rts := r, epoch := (s.dom d).epoch }
    ((s.putSline d line x).raiseW d (r + 1)).markDirty line

/-- Lease length of a context (R199). -/
def State.leaseOf (s : State) (asid : Nat) : Nat := ((s.ctx asid).map (·.lease)).getD 10

/-- Write as a core of domain d (R195): the new line and the stamp w. The pts of the writer is set with the acknowledgement. -/
def State.coreWrite (s : State) (cid d line asid : Nat) (new : ByteMask) (desc : Option LineDesc) : State × Nat :=
  match s.sline d line with
  | none => (s, 0)
  | some x =>
    let r := (s.stamps d x).2
    let w := max (s.pts cid) (r + 1)
    let x := { x with data := patchMask x.data new, desc := desc.getD x.desc, st := .m, wts := min 0xFFFF w, rts := min 0xFFFF (w + s.leaseOf asid), epoch := (s.dom d).epoch,
                      writer := some (cid, asid) }
    ((s.putSline d line x).markDirty line, w)

/-- Who has written the line in slice d last, where that write carries no core's time (log 93). -/
def State.noteWriter (s : State) (d line cid asid : Nat) : State :=
  match tget s.lines (lineKey d line) with
  | some x => { s with lines := tput s.lines (lineKey d line) { x with writer := some (cid, asid) } }
  | none => s

/-- Bytes and offset as a line mask. -/
def byteMask (o : Nat) (bs : List Byte) : ByteMask :=
  (List.range 64).map fun i => if o ≤ i ∧ i < o + bs.length then some (bs.getD (i - o) 0) else none

/-- Overlay: the bytes present in b win. -/
def overMask (a b : ByteMask) : ByteMask :=
  (List.range 64).map fun i =>
    match b.getD i none with
    | some v => some v
    | none => a.getD i none

/-! Reads and writes by the engines, the walker, the spine and the host, whole at one clock. -/

/-- Read a line through slice d (R205, R235, R272), ro where its page has W = 0 (R316). An access of the hardware at a physical base that
a register holds (PTROOT, FQBASE, SRING, SAVE) comes here with no test of R5: a base outside DRAM, DSM and outbound memory reads what the model's
memory holds there, and poison comes with the bytes as stored (log 69, log 78). -/
def State.engineReadAs (s : State) (d line : Nat) (ro : Bool) : State × LineImg :=
  if lineIsFar line then (s, s.farLine line)
  else
    let d := if lineIsDsm line then lineHome line else d
    let s := (s.settle line).getShared d line ro
    match s.sline d line with
    | some x => (s.useSline d line, x.img)
    | none => (s, dramLine s line)

def State.engineRead (s : State) (d line : Nat) : State × LineImg := s.engineReadAs d line false

/-- Write a line through slice d with no core's time (R195). A physical base that a register holds is not tested (log 78). -/
def State.engineWrite (s : State) (d line : Nat) (new : ByteMask) (desc : Option LineDesc) : State :=
  if lineIsFar line then (s.settleFar line).farWrite (64 * line) (patchMask (s.farLine line).data new)
  else
    let d := if lineIsDsm line then lineHome line else d
    ((s.settle line).getOwned d line).bankWrite d line new desc

/-- Read n bytes at a physical address through slice d. -/
def State.engineReadBytes (s : State) (d : Nat) : Nat → Nat → State × List Byte
  | _, 0 => (s, [])
  | pa, n + 1 =>
    let (s, img) := s.engineRead d (pa / 64)
    let b := img.data.getD (pa % 64) 0
    let (s, rest) := s.engineReadBytes d (pa + 1) n
    (s, b :: rest)

/-- Write bytes at a physical address through slice d. -/
def State.engineWriteBytes (s : State) (d pa : Nat) (bs : List Byte) : State :=
  let first := pa / 64
  let last := (pa + bs.length - 1) / 64
  if bs.isEmpty then s
  else (List.range (last - first + 1)).foldl (fun s k =>
    let l := first + k
    s.engineWrite d l ((List.range 64).map fun i =>
      if pa ≤ 64 * l + i ∧ 64 * l + i < pa + bs.length then bs[64 * l + i - pa]? else none) none) s

/-! What is counted (R354). -/

def scopeNum : Scope → Nat
  | .team => 0
  | .dom => 1
  | .wafer => 2
  | .sys => 3

/-- Whether the slice of domain d serves a read of the line at a scope (R205, R311): at wafer scope or wider a copy that is shared is not enough. -/
def State.sliceServes (s : State) (d line : Nat) (sc : Scope) : Bool :=
  match s.sline d line with
  | some x => scopeNum sc < 2 || x.st != .s || lineHome line == d
  | none => false

/-- Bytes that cross a domain boundary when slice d gets the line (R354): it comes from another domain's home or owner, and a reader's copy comes to the
home as well (R312). The owner's answers to the home's probes are counted so, with the request that they answer (R355). -/
def State.crossing (s : State) (d line : Nat) (read : Bool) : Nat :=
  let h := lineHome line
  match s.owner line with
  | some o => if o == d then 0 else if read && h != d then 128 else 64
  | none => if h == d then 0 else 64

/-- Bytes counted for a line that an agent of domain d reads or writes (R354): the line, and again where it crosses a domain boundary. -/
def State.lineBytes (s : State) (d line : Nat) (sc : Scope) (read : Bool) : Nat :=
  if lineIsFar line then 0
  else if lineIsDsm line then (if lineHome line == d then 64 else 128)
  else if s.sliceServes d line sc then 64 else 64 + s.crossing d line read

/-! Latency (R248, R266). -/

/-- Clocks until a DRAM channel ends its refresh window, at clock t (R266). -/
def refreshWait (x : Dom) (ch t : Nat) : Nat :=
  let start := if t < x.refStart + x.refLen then x.refStart else x.refStart + x.refLen
  let a := start + ch * x.refLen / 32
  let left := if a ≤ t ∧ t < a + 525 then a + 525 - t else 0
  x.refreshing.foldl (fun m (c, e) => if c == ch then max m (e - t) else m) left

/-- Latency of a line that its home bank serves, from a core (R248). -/
def homeLatency (cid line : Nat) : Nat := 64 + 2 * State.toHome cid line + (if lineIsFar line || lineHome line = cidDom cid then 0 else 20)

/-- Latency of a line that is in no slice: it reaches its channel after the 64 clk of the miss and its way (R248, R392). -/
def State.dramLatency (s : State) (cid line : Nat) : Nat :=
  homeLatency cid line + 150 + refreshWait (s.dom (lineHome line)) (lineChannel line) (s.now + homeLatency cid line - State.toHome cid line)

/-- How a request reads R248's table: a load that the own slice serves in any state; one that a shared copy there does not serve (R311);
an atomic, which the home bank performs. -/
inductive PathKind where
  | any | wide | home
  deriving DecidableEq, Repr

/-- Whether the core's own slice serves such a request now. -/
def State.servesOwn (s : State) (d line : Nat) (k : PathKind) : Bool :=
  match s.sline d line with
  | none => false
  | some x =>
    match k with
    | .any => true
    | .wide => x.st != .s || lineHome line == d
    | .home => lineHome line == d

/-- Latency of a request for `line` from a core site, by where the newest copy is now (R248). -/
def State.pathLatency (s : State) (cid line : Nat) (k : PathKind) : Nat :=
  let d := cidDom cid
  let h := lineHome line
  let bank := bankSite (lineBank line)
  if lineIsFar line then homeLatency cid line
  else if s.servesOwn d line k then 64 + 2 * State.toSlice cid line
  else match s.owner line with
  | some o => homeLatency cid line + 2 * transit h bank o bank + 20
  | none => if (s.sline h line).isSome then homeLatency cid line else s.dramLatency cid line

end Sys2Proof.Machine
end

