-- ==== Sys2Proof/Machine/L1.lean ====
section
/-! DEFINITION. A core's L1 under leases, write-backs, and the progress of releases (R154, R155, R186-R196, R299, R354, R355). -/

namespace Sys2Proof.Machine

/-! Requests and their caps (R354, R355). -/

/-- Whether a new request of the core is held until the next interval (R355). -/
def State.heldBy (s : State) (cid asid : Nat) : Bool :=
  !isDcc cid && ((((s.hc (cidHcid cid)).clbw.toNat != 0) && decide ((s.hc (cidHcid cid)).bytes ≥ 1024 * (s.hc (cidHcid cid)).clbw.toNat)) ||
    (match s.ctx asid with
      | some c => c.bbytes != 0xFFFFFFFF && decide (c.bytes ≥ 1024 * c.bbytes)
      | none => false))

/-- The lines that may be counted in this interval before the core's requests are held, none for no bound (R355). -/
def State.room (s : State) (cid asid : Nat) : Option Nat :=
  let left := fun (kib used : Nat) => some ((1024 * kib - used + 63) / 64)
  let h := s.hc (cidHcid cid)
  let a := if isDcc cid || h.clbw.toNat == 0 then none else left h.clbw.toNat h.bytes
  let b := if isDcc cid then none else (s.ctx asid).bind fun c => if c.bbytes = 0xFFFFFFFF then none else left c.bbytes c.bytes
  match a, b with
  | some x, some y => some (min x y)
  | some x, none => some x
  | none, y => y

/-- Count lines as far as the caps of this interval let them pass: the state, and how many are left for the next (R354, R355). -/
def State.chargeSome (s : State) (cid asid lines : Nat) : State × Nat :=
  let k := ((s.room cid asid).map (min lines)).getD lines
  (s.charge cid asid (64 * k), lines - k)

/-- Bytes counted when a request enters the mesh: of its line, but none of a line behind a port, nor of a bank operation, which is counted as it
runs (R354). -/
def Job.meshBytes (j : Job) : Nat :=
  let of := fun (line : Nat) => if lineIsFar line then 0 else 64
  match j with
  | .fill _ line _ _ _ => of line
  | .read r => of r.line
  | .write r => of r.line
  | .atomic a => of a.line
  | _ => 0

/-- A new request of a core, with dt clocks of way: counted it sets out, or it is held at its core until the next interval (R354, R355). -/
def State.addRequest (s : State) (cid asid dt : Nat) (j : Job) : State :=
  if s.heldBy cid asid then { s with work := s.work ++ [⟨s.uid, s.now, j, some dt⟩], uid := s.uid + 1 }
  else (s.charge cid asid j.meshBytes).addWork dt j

/-- A request whose release is done sets out, with dt clocks of way, or is held. -/
def State.enter (s : State) (id cid asid dt : Nat) (j : Job) : State :=
  if s.heldBy cid asid then { s with work := s.work.map fun w => if w.id == id then ⟨id, s.now, j, some dt⟩ else w }
  else (s.charge cid asid j.meshBytes).setWork id dt j

/-! Lines of L1. -/

def State.l1 (s : State) (cid line : Nat) : Option L1Line := tget (s.core cid).l1 line
def State.putL1 (s : State) (cid line : Nat) (x : L1Line) : State := s.modCore cid fun c => { c with l1 := tput c.l1 line { x with used := s.now } }
def State.delL1 (s : State) (cid line : Nat) : State := s.modCore cid fun c => { c with l1 := tdel c.l1 line }

/-- Whether word w of the line can be read (R190). -/
def L1Line.readable (x : L1Line) (pts w : Nat) : Bool := x.valid.getLsbD w && (x.dirty.getLsbD w || decide (pts ≤ x.rts))

/-- The bytes of the dirty words. -/
def L1Line.dirtyBytes (x : L1Line) : ByteMask :=
  (List.range 64).map fun i => if x.dirty.getLsbD (i / 4) then some (x.data.getD i 0) else none

/-- The write that carries a line's dirty words (R191). -/
def writeBackOf (gid cid line : Nat) (x : L1Line) (drop : Bool) : WriteReq :=
  { gid := gid, core := cid, dom := if lineIsDsm line then lineHome line else cidDom cid, line := line, asid := x.asid, kind := .writeBack,
    bytes := x.dirtyBytes, newest := List.replicate 64 true, desc := none, rel := none, scope := .team, drop := drop }

/-- Insert a work item before item `id`, or at the end; it arrives in the order of its channel (R383). -/
def State.addBefore (s : State) (id : Option Nat) (dt : Nat) (j : Job) : State :=
  let front := match id with
    | none => s.work
    | some i => s.work.takeWhile fun x => x.id != i
  let back := s.work.drop front.length
  let t := s.now + dt + Config.extraDelay s.uid
  let due := match j.channel with
    | some c => fifoTime c front back t
    | none => t
  { s with work := front ++ [⟨s.uid, due, j, none⟩] ++ back, uid := s.uid + 1 }

/-- Whether a write-back of the line is on its way already with every dirty word. -/
def State.backing (s : State) (cid line : Nat) (dirty : BitVec 16) : Bool :=
  s.work.any fun w =>
    let carries := fun (r : WriteReq) => r.core == cid && r.line == line && r.kind == .writeBack &&
      (List.range 64).all fun i => !dirty.getLsbD (i / 4) || ((r.bytes.getD i none).isSome && r.newest.getD i false)
    match w.job with
    | .write r => carries r
    | .wack r _ _ => carries r
    | _ => false

/-- The core's stores of the line on their way to the slice before item `before`, or all of them (R155). -/
def State.storesAhead (s : State) (before : Option Nat) (cid line : Nat) : List (Nat × WriteReq) :=
  let ahead : List Work := match before with
    | some i => s.work.takeWhile fun w => w.id != i
    | none => s.work
  ahead.filterMap fun w =>
      match w.job with
      | .write r => if r.core == cid && r.line == line && r.kind != .writeBack then some (w.id, r) else none
      | _ => none

def ByteMask.some' (m : ByteMask) : Bool := m.any (·.isSome)

/-- Send the dirty words of a line of L1: bytes that a store on its way to the slice replaces go before that store (R154). -/
def State.sendDirty (s : State) (before : Option Nat) (gid cid line : Nat) (x : L1Line) (drop : Bool) : State :=
  let ahead := s.storesAhead before cid line
  let old := fun (i : Nat) => ahead.any fun (_, r) => r.newest.getD i false && (r.bytes.getD i none).isSome
  let w := writeBackOf gid cid line x drop
  let first : ByteMask := w.bytes.mapIdx fun i b => if old i then b else none
  let rest : ByteMask := w.bytes.mapIdx fun i b => if old i then none else b
  let s :=
    match ahead.head? with
    | some (i, _) =>
      if ByteMask.some' first then s.addBefore (some i) (State.toSlice cid line) (.write { w with bytes := first, newest := List.replicate 64 false }) else s
    | none => s
  if ByteMask.some' rest then s.addBefore before (State.toSlice cid line) (.write { w with bytes := rest }) else s

/-- Send the dirty words of one line to the slice (R191). -/
def State.writeBackLine (s : State) (before : Option Nat) (gid cid line : Nat) (drop : Bool) : State :=
  match s.l1 cid line with
  | none => s
  | some x =>
    let s := if x.dirty = 0 || (!drop && s.backing cid line x.dirty) then s else s.sendDirty before gid cid line x drop
    if drop then s.delL1 cid line else s

/-- Send every dirty word of the core's L1 (R191). -/
def State.writeBackAll (s : State) (before : Option Nat) (gid cid : Nat) (drop : Bool) : State :=
  (s.core cid).l1.foldl (fun s (l, _) => s.writeBackLine before gid cid l drop) s

def LineClass.rank : LineClass → Nat
  | .evict => 0
  | .normal => 1
  | .keep => 2

/-- Sets of an L1 of `size` × 64 KiB, 16 ways (R188). -/
def l1Sets (size : Nat) : Nat := 64 * size

/-- Make room for a line: the victim's dirty words are written back (R188). -/
def State.l1Room (s : State) (cid line : Nat) : State :=
  if (s.l1 cid line).isSome then s
  else
    let n := l1Sets (s.core cid).l1size
    let set := (s.core cid).l1.filter fun (l, _) => Config.l1Set l n == Config.l1Set line n
    if set.length < 16 then s
    else
      match set.foldl (fun (b : Option (Nat × L1Line)) x =>
          match b with
          | some y => if x.2.cls.rank < y.2.cls.rank || (x.2.cls.rank == y.2.cls.rank && x.2.used < y.2.used) then some x else b
          | none => some x) none with
      | some v => s.writeBackLine none 0 cid v.1 true
      | none => s

def emptyL1 (cls : LineClass) (asid : Nat) : L1Line :=
  { data := zeroLine, valid := 0, dirty := 0, desc := Config.freshDesc, descValid := false, wts := 0, rts := 0, cls := cls, asid := asid, used := 0 }

/-- Words of a line that bytes [o, o+n) cover whole. -/
def wholeWords (o n : Nat) : BitVec 16 :=
  BitVec.ofNat 16 ((List.range 16).foldl (fun a w => if o ≤ 4 * w ∧ 4 * w + 4 ≤ o + n then a + 2 ^ w else a) 0)

/-- In-flight writes of the core to these bytes no longer carry the newest value. -/
def State.staleWrites (s : State) (cid line o n : Nat) : State :=
  let upd := fun (r : WriteReq) => if r.core == cid && r.line == line then
    { r with newest := r.newest.mapIdx fun i b => b && !(decide (o ≤ i) && decide (i < o + n)) } else r
  { s with work := s.work.map fun w =>
      match w.job with
      | .write r => { w with job := .write (upd r) }
      | .wack r a b => { w with job := .wack (upd r) a b }
      | _ => w }

/-- Whether an atomic or strong write of the core to the line is still to be answered: weak accesses then go behind it (R154). -/
def State.linePending (s : State) (cid line : Nat) : Bool :=
  s.work.any fun w =>
    match w.job with
    | .write r => r.core == cid && r.line == line && r.kind != .writeBack
    | .wack r _ _ => r.core == cid && r.line == line && r.kind != .writeBack
    | .atomic a => a.core == cid && a.line == line
    | _ => false

def State.atomicPending (s : State) (cid line : Nat) : Bool :=
  s.work.any fun w =>
    match w.job with
    | .atomic a => a.core == cid && a.line == line
    | _ => false

/-- The replacement class that a line takes from an access that L1 serves: of one with CPOL 00, as of a prefetch, normal (R155: log 96). -/
def State.classL1 (s : State) (cid line : Nat) (cls : LineClass) : State :=
  match s.l1 cid line with
  | some x => s.putL1 cid line { x with cls := cls }
  | none => s

/-- An access that L1 does not serve gives a line that L1 holds the class of CPOL 01 or 10, and changes nothing else (R155). -/
def State.classAsked (s : State) (cid line : Nat) (cpol : Cpol) : State :=
  match cpol with
  | .evict => s.classL1 cid line .evict
  | .keep => s.classL1 cid line .keep
  | _ => s

/-- The fill on its way takes the class of the latest access that waits for it. -/
def State.classFill (s : State) (id : Nat) (cls : LineClass) : State :=
  { s with work := s.work.map fun w =>
      match w.job with
      | .fill c l a ro _ => if w.id == id then { w with job := .fill c l a ro cls } else w
      | .l1fill c l a _ img wts rts => if w.id == id then { w with job := .l1fill c l a cls img wts rts } else w
      | _ => w }

/-- A merging fill of the line is asked for, unless one that follows every pending access is on its way; its item. A fill that the
slice has served is shared only while its lease still reads (R190). -/
def State.askFill (s : State) (cid line asid : Nat) (ro : Bool) (cls : LineClass) : State × Nat :=
  let pend := s.work.filter fun w =>
    match w.job with
    | .fill c l _ _ _ => c == cid && l == line
    | .l1fill c l _ _ _ _ _ => c == cid && l == line
    | .write r => r.core == cid && r.line == line && r.kind != .writeBack
    | .atomic a => a.core == cid && a.line == line
    | _ => false
  let s := s.classL1 cid line cls
  let new := (s.addRequest cid asid (State.toSlice cid line) (.fill cid line asid ro cls), s.uid)
  match pend.getLast? with
  | some ⟨i, _, .fill _ _ _ _ _, _⟩ => (s.classFill i cls, i)
  | some ⟨i, _, .l1fill _ _ _ _ _ _ rts, _⟩ => if s.pts cid ≤ rts then (s.classFill i cls, i) else new
  | _ => new

/-- Keep a store until its line's merging fill. -/
def State.keepStore (s : State) (gid cid asid pa : Nat) (bs : List Byte) (cls : LineClass) (ro : Bool) : State :=
  let (s, i) := s.askFill cid (pa / 64) asid ro cls
  s.modCore cid fun c => { c with small := c.small ++ [⟨i, pa, bs, asid, gid, s.uid, cls, ro⟩] }

/-- Whether a kept store shares bytes with [pa, pa+n). -/
def SmallStore.overlaps (m : SmallStore) (pa n : Nat) : Bool := decide (m.pa < pa + n) && decide (pa < m.pa + m.bytes.length)

/-- The bytes of a kept store outside [pa, pa+n). -/
def SmallStore.without (m : SmallStore) (pa n : Nat) : List SmallStore :=
  if m.overlaps pa n then
    m.bytes.zipIdx.filterMap fun (b, i) => if pa ≤ m.pa + i ∧ m.pa + i < pa + n then none else some { m with pa := m.pa + i, bytes := [b] }
  else [m]

/-- Bytes of kept stores that a later store of the core replaces are no longer wanted. -/
def State.overKept (s : State) (cid pa n : Nat) : State :=
  if (s.core cid).small.any fun m => m.overlaps pa n then
    s.modCore cid fun c => { c with small := c.small.flatMap fun m => m.without pa n }
  else s

/-- A weak store's bytes reach L1 (R189): words covered whole and words that are valid are written and dirty at once, and the bytes of any other word
wait for a merging fill of the line. -/
def State.l1Place (s : State) (gid cid asid pa : Nat) (bs : List Byte) (cls : LineClass) (ro : Bool) : State :=
  let line := pa / 64
  let o := pa % 64
  let s := s.l1Room cid line
  let x := (s.l1 cid line).getD (emptyL1 cls asid)
  let whole := wholeWords o bs.length
  let touched := wholeWords (o / 4 * 4) ((o + bs.length + 3) / 4 * 4 - o / 4 * 4)
  let part := touched &&& ~~~whole &&& ~~~x.valid
  let here := touched &&& ~~~part
  let new : ByteMask := (List.range 64).map fun i => if here.getLsbD (i / 4) && o ≤ i && i < o + bs.length then bs[i - o]? else none
  let s := (s.staleWrites cid line o bs.length).overKept cid pa bs.length
  let s := if here = 0 then s else
    s.putL1 cid line { x with data := patchMask x.data new, valid := x.valid ||| whole, dirty := x.dirty ||| here, cls := cls, asid := asid }
  ((List.range 16).filter part.getLsbD).foldl (fun s w =>
    let a := max o (4 * w)
    s.keepStore gid cid asid (64 * line + a) (slice bs (a - o) (min (o + bs.length) (4 * w + 4) - a)) cls ro) s

/-- A weak store of bytes within one line (R189). Behind an atomic on its way to the line it waits for a fill that follows the atomic (R155). -/
def State.l1Store (s : State) (gid cid asid pa : Nat) (bs : List Byte) (cls : LineClass) (ro : Bool) : State :=
  if s.atomicPending cid (pa / 64) then s.keepStore gid cid asid pa bs cls ro else s.l1Place gid cid asid pa bs cls ro

/-- The last item by which the group's earlier loads of a line get their values: a fill that they wait for, or a read that L1 does not serve. -/
def State.loadKey (s : State) (gid line : Nat) : Option Nat :=
  let fills := ((s.group gid).map fun g => (g.vres.filter fun v => v.waits.any fun r => r.pa / 64 == line).map (·.fill)).getD []
  ((s.work.filter fun w => fills.contains w.id || match w.job with
    | .read r => r.gid == gid && r.line == line
    | _ => false).getLast?).map (·.id)

/-- Keep a store until the loads of its group that were issued before it have their values (R154): nothing is fetched for it. -/
def State.keepBehind (s : State) (gid cid asid pa : Nat) (bs : List Byte) (cls : LineClass) (ro : Bool) : State :=
  match s.loadKey gid (pa / 64) with
  | none => s.l1Store gid cid asid pa bs cls ro
  | some i => (s.classL1 cid (pa / 64) cls).modCore cid fun c => { c with small := c.small ++ [⟨i, pa, bs, asid, gid, s.uid, cls, ro⟩] }

/-- The stores that waited for this item reach L1. -/
def State.placeKept (s : State) (cid id : Nat) : State :=
  let kept := (s.core cid).small.filter fun m => m.fill == id
  let s := s.modCore cid fun c => { c with small := c.small.filter fun m => m.fill != id }
  kept.foldl (fun s m => s.l1Place m.gid cid m.asid m.pa m.bytes m.cls m.ro) s

/-- Bytes at a physical address from L1 if every word can be read (R190), also those of a descriptor read (needDesc). -/
def State.l1Read (s : State) (cid pa n : Nat) (needDesc : Bool) : Option (List Byte × LineDesc) :=
  let line := pa / 64
  if s.linePending cid line || (s.core cid).small.any (fun m => m.overlaps pa n) then none
  else
    match s.l1 cid line with
    | none => none
    | some x =>
      let pts := s.pts cid
      let words := (List.range 16).filter fun w => decide (4 * w < pa % 64 + n) && decide (pa % 64 < 4 * w + 4)
      if words.all (x.readable pts) && (!needDesc || x.descValid) then
        some (slice x.data (pa % 64) n, if x.descValid then x.desc else Config.freshDesc)
      else none

/-- A strong store leaves the L1 copy, where there is one, with the written value and descriptor, the words written whole clean and under
the writer's lease, from the clock at which the slice performs it; bytes that the core has stored since stand (R155, R159, R195:
log 109). -/
def State.l1Wrote (s : State) (r : WriteReq) (clean : BitVec 16) (stamp rts : Nat) : State :=
  match s.l1 r.core r.line with
  | none => s
  | some x =>
    let fresh : ByteMask := (List.range 64).map fun i =>
      if r.newest.getD i false && (x.valid.getLsbD (i / 4) || clean.getLsbD (i / 4)) then r.bytes.getD i none else none
    let x := { x with data := patchMask x.data fresh, valid := x.valid ||| clean, dirty := x.dirty &&& ~~~clean }
    let x := if stamp = 0 then x else { x with wts := stamp, rts := rts }
    s.putL1 r.core r.line (match r.desc with
      | some d => { x with desc := d, descValid := true }
      | none => x)

/-- The line as the core sees it over an image from L2: its dirty words stand (R155). -/
def State.overDirty (s : State) (cid line : Nat) (img : LineImg) : LineImg :=
  match s.l1 cid line with
  | some x => { img with data := patchMask img.data x.dirtyBytes }
  | none => img

/-- The runs of bytes that are present. -/
def maskRuns (m : ByteMask) : List (Nat × List Byte) :=
  ((m.zipIdx).foldl (fun (acc : List (Nat × List Byte)) (b, i) =>
    match b with
    | none => acc
    | some v =>
      match acc.getLast? with
      | some (o, bs) => if o + bs.length == i then acc.dropLast ++ [(o, bs ++ [v])] else acc ++ [(i, [v])]
      | none => [(i, [v])]) [])

/-- A posted write towards host memory or a peer, with the zero-length read or acknowledgement that performs it (R387, R389). -/
def State.postWrite (s : State) (gid asid port pa : Nat) (bs : List Byte) : State :=
  let s := { s with posted := s.posted ++ [(⟨s.uid, gid, port, pa, bs, asid⟩ : Posted)], uid := s.uid + 1 }
  s.addWork 0 (.flush port)

/-! Releases (R191, R195, R299). -/

/-- The work that a release of the group must see done first: its accesses in flight, and the core's write-backs and fills for
waiting small stores. -/
def State.releaseDeps (s : State) (gid cid : Nat) (scope : Scope) : List Nat :=
  (s.work.filter fun w =>
    match w.job with
    | .read r => r.gid == gid || (scope != .team && r.core == cid && (s.core cid).small.any fun m => m.fill == w.id)
    | .atomic a => a.gid == gid
    | .write r => r.gid == gid || (scope != .team && r.core == cid)
    | .wack r _ _ => r.gid == gid || (scope != .team && r.core == cid)
    | .fill c _ _ _ _ => scope != .team && c == cid && (s.core cid).small.any fun m => m.fill == w.id
    | .l1fill c _ _ _ _ _ _ => scope != .team && c == cid && (s.core cid).small.any fun m => m.fill == w.id
    | _ => false).map (·.id)

/-- Whether none of these is in flight. -/
def State.allDone (s : State) (ids : List Nat) : Bool := s.work.all fun w => !ids.contains w.id

/-- Invalidations for permissions that the domain used are all acknowledged, and those with which the home removed copies of a line before it gave the
domain the line (R298, R312, R313). -/
def State.acksDone (s : State) (d : Nat) : Bool :=
  s.work.all fun w =>
    match w.job with
    | .inval l _ wr => wr != d && !(wr == lineHome l && s.owner l == some d)
    | .invAck l _ wr => wr != d && !(wr == lineHome l && s.owner l == some d)
    | _ => true

/-- A release begins: it names what it waits for. -/
def State.relStart (s : State) (gid cid : Nat) (scope : Scope) : Rel := ⟨scope, 0, s.releaseDeps gid cid scope⟩

/-- Every load and atomic of the group with a number below `upto`, or every one, has its values (R301: release order). -/
def State.readsDone (s : State) (gid : Nat) (upto : Option Nat) : Bool :=
  match s.group gid with
  | some g => g.vres.all fun v => !v.own || (upto.map fun n => decide (n ≤ v.id)).getD false || v.kind == .xshfl || v.kind == .mrd || v.ready == v.lanes
  | none => true

/-- Every store of the group into registers of its team with a number below `upto`, or every one, has landed (R78, R299). -/
def State.storesLanded (s : State) (gid : Nat) (upto : Option Nat) : Bool :=
  s.groups.all fun (_, g) => g.vres.all fun v => v.store != some gid || (upto.map fun n => decide (n ≤ v.id)).getD false

/-- No store of the group with a number up to `upto`, or none at all, still waits to reach L1 (R189). -/
def State.keptPlaced (s : State) (gid cid : Nat) (upto : Option Nat) : Bool :=
  (s.core cid).small.all fun m => m.gid != gid || (upto.map fun n => decide (n < m.num)).getD false

/-- Whether a release can move: what it waits for is done. -/
def State.relCan (s : State) (gid cid : Nat) (upto : Option Nat) (r : Rel) : Bool :=
  s.allDone r.deps && s.readsDone gid upto && s.storesLanded gid upto && (r.scope == .team || s.keptPlaced gid cid upto) &&
    (r.scope == .team || r.stage == 0 ||
      ((scopeNum r.scope < 2 || s.acksDone (cidDom cid)) && (r.scope != .sys || !s.posted.any fun p => p.gid == gid)))

/-- One move of a release: at stage 0 the earlier accesses, then the write-back of every dirty word, at stage 1 its
acknowledgements, and at wafer and system scope those of the invalidations and posted writes. `none` when it may be performed. -/
def State.relMove (s : State) (gid cid : Nat) (before upto : Option Nat) (r : Rel) : State × Option Rel :=
  if !s.relCan gid cid upto r then (s, some r)
  else if r.scope == .team then (s, none)
  else if r.stage == 0 then
    let s' := s.writeBackAll before gid cid false
    let ids := (s'.work.filter fun w =>
      match w.job with
      | .write q => q.core == cid && q.kind == .writeBack
      | .wack q _ _ => q.core == cid && q.kind == .writeBack
      | _ => false).map (·.id)
    (s', some ⟨r.scope, 1, ids⟩)
  else (s, none)

end Sys2Proof.Machine
end

