-- ==== Sys2Proof/Machine/Translate.lean ====
section
/-! DEFINITION. Translation (R268-R273): TLBs, table walks, page faults and their records. -/

namespace Sys2Proof.Machine

/-! TLBs (R272). -/

def TlbEnt.covers (e : TlbEnt) (asid page : Nat) : Bool :=
  e.asid == asid && decide (e.vpn ≤ page) && decide (page < e.vpn + e.pages)

def TlbEnt.frame (e : TlbEnt) (page : Nat) : Nat := e.pa + 4096 * (page - e.vpn)

/-- Whether the entry lets the access through (R270). -/
def TlbEnt.allows (e : TlbEnt) (k : AccKind) (priv : Bool) : Bool :=
  (priv || !e.priv) &&
    match k with
    | .read => true
    | .write => e.w
    | .atomic => e.w
    | .exec => !e.nx

def tlbFind (t : List TlbEnt) (asid page : Nat) : Option TlbEnt := t.find? fun e => e.covers asid page

/-- Enter an entry, the oldest of a full set leaving. -/
def tlbFill (t : List TlbEnt) (sets ways : Nat) (e : TlbEnt) : List TlbEnt :=
  let t := t.filter fun x => !(x.asid == e.asid && x.vpn == e.vpn && x.pages == e.pages)
  let same := fun (x : TlbEnt) => Config.tlbSet x.asid x.vpn sets == Config.tlbSet e.asid e.vpn sets
  if t.length < ways || (t.filter same).length < ways then e :: t
  else
    match (t.filter same).getLast? with
    | some v => e :: t.filter fun x => !(x == v)
    | none => e :: t

def tlbDrop (t : List TlbEnt) (asid page : Nat) : List TlbEnt := t.filter fun e => !e.covers asid page

/-! Walks (R268-R270). -/

/-- One table entry's fields (R269). -/
structure Pte where
  raw : Nat
  deriving DecidableEq, Repr

def Pte.v (p : Pte) : Bool := bits p.raw 0 0 == 1
def Pte.w (p : Pte) : Bool := bits p.raw 1 1 == 1
def Pte.priv (p : Pte) : Bool := bits p.raw 4 4 == 1
def Pte.leaf (p : Pte) : Bool := bits p.raw 7 7 == 1
def Pte.nx (p : Pte) : Bool := bits p.raw 59 59 == 1
def Pte.pa (p : Pte) : Nat := 4096 * bits p.raw 47 12

/-- Whether a valid entry at this level is well made (R269, R270). -/
def Pte.ok (p : Pte) (level : Nat) : Bool :=
  bits p.raw 63 60 == 0 && bits p.raw 58 48 == 0 && bits p.raw 11 8 == 0 && bits p.raw 6 5 == 0 && bits p.raw 3 2 == 0 &&
    (if p.leaf then level != 4 && (level != 2 || bits p.raw 20 12 == 0) && (level != 3 || bits p.raw 29 12 == 0)
     else level != 1 && !p.nx && !p.priv && !p.w &&
       (match targetOf p.pa with
        | .dram _ _ => true
        | _ => false))

/-- Outcome of a walk: an entry, not present, or malformed. -/
inductive Walked where
  | ent (e : TlbEnt)
  | absent
  | bad
  deriving DecidableEq, Repr

/-- Table read by the walker at the domain's slice, as a strong domain-scope load (R272): a poisoned line reads zero (R59). -/
def State.walkerRead (s : State) (d pa : Nat) : State × Nat :=
  let (s, img) := s.engineRead d (pa / 64)
  (s, if img.desc.toNat / 256 == 255 then 0 else leVal (slice img.data (pa % 64) 8))

/-- Walk from `level` down; entries of levels 4 to 2 come from the walk cache unless fresh is asked for. -/
def State.walkFrom (s : State) (d asid page : Nat) (fresh : Bool) : Nat → Nat → State × Walked
  | 0, _ => (s, .bad)
  | level + 1, table =>
    let n := level + 1
    let idx := page / 512 ^ level % 512
    let pfx := page / 512 ^ level
    let hit := if fresh || n == 1 then none else (s.dom d).wcache.find? fun (a, l, p, _) => a == asid && l == n && p == pfx
    let (s, raw) :=
      match hit with
      | some (_, _, _, r) => (s, r)
      | none => (s.charge (cidOf d 144) asid (s.lineBytes d ((table + 8 * idx) / 64) .dom true)).walkerRead d (table + 8 * idx)
    let p : Pte := ⟨raw⟩
    if !p.v then (s, .absent)
    else if !p.ok n then (s, .bad)
    else
      let s :=
        if n ≥ 2 && hit.isNone then
          s.modDom d fun x => { x with wcache := ((asid, n, pfx, raw) :: x.wcache.filter fun (a, l, q, _) => !(a == asid && l == n && q == pfx)).take 64 }
        else s
      if p.leaf then (s, .ent ⟨asid, pfx * 512 ^ level, 512 ^ level, p.pa, p.w, p.nx, p.priv⟩)
      else s.walkFrom d asid page fresh level p.pa

/-- The walk from the root: PTROOT's address is used as it stands (R5: log 78). -/
def State.walk (s : State) (d asid page : Nat) (fresh : Bool) : State × Walked :=
  match s.ctx asid with
  | some c => s.walkFrom d asid page fresh 4 c.ptroot
  | none => (s, .absent)

/-! Page faults (R271). -/

def AccKind.code : AccKind → Nat
  | .read => 0
  | .write => 1
  | .exec => 2
  | .atomic => 3

def APath.code : APath → Nat
  | .ls => 0
  | .cp => 1
  | .mx => 2
  | .bk => 3

def faultRecord (d cid asid page token : Nat) (k : AccKind) (p : APath) : List Byte :=
  leBytes 8 (4096 * page) ++ leBytes 2 asid ++ leBytes 1 d ++ leBytes 1 (cidSite cid) ++ leBytes 1 k.code ++ leBytes 1 p.code ++
    leBytes 2 0 ++ leBytes 8 token ++ leBytes 8 0

/-- Append a fault record to the context's ring if it has room; whether it did. -/
def State.appendFault (s : State) (d asid : Nat) (record : List Byte) : State × Bool :=
  match s.ctx asid with
  | none => (s, false)
  | some c =>
    if (c.fqtail + 2 ^ 32 - c.fqhead) % 2 ^ 32 > c.fqmask then (s, false)
    else
      let s := s.engineWriteBytes d (c.fqbase + 32 * (c.fqtail % (c.fqmask + 1))) record
      (s.putCtx asid { c with fqtail := (c.fqtail + 1) % 2 ^ 32 }, true)

/-- Raise a page fault, unless one is outstanding for the page in the domain. Records of a context are appended in the order the faults arose,
whichever domains hold them. -/
def State.pageFault (s : State) (d cid asid page : Nat) (k : AccKind) (p : APath) : State :=
  if (s.dom d).faults.any fun f => f.asid == asid && f.page == page then s
  else
    let token := (s.dom d).nextToken
    let rec' := faultRecord d cid asid page token k p
    let waiting := s.doms.any fun (_, x) => x.faults.any fun f => f.asid == asid && !f.appended
    let (s, done) := if waiting then (s, false) else s.appendFault d asid rec'
    let s := s.modDom d fun x =>
      { x with faults := x.faults ++ [⟨asid, page, token, false, done, rec', s.uid⟩], nextToken := token + 1 }
    { s with uid := s.uid + 1 }

/-- Whether accesses to the page are parked in the domain. -/
def State.faulting (s : State) (d asid page : Nat) : Bool := (s.dom d).faults.any fun f => f.asid == asid && f.page == page

/-! Looking a page up. -/

/-- The page by the core TLB, when the entry lets the access through (R272). -/
def State.tlbHit (s : State) (cid asid page : Nat) (k : AccKind) (priv : Bool) : Option Xlat :=
  match tlbFind (s.core cid).tlb asid page with
  | some e => if e.allows k priv then some (.ok (e.frame page) e.w e.nx e.priv) else none
  | none => none

def State.fillTlbs (s : State) (d cid : Nat) (e : TlbEnt) : State :=
  let s := s.modDom d fun x => { x with tlb2 := tlbFill x.tlb2 1024 16 e, roSeen := if e.w || x.roSeen.contains e then x.roSeen else x.roSeen ++ [e] }
  s.modCore cid fun c => { c with tlb := tlbFill c.tlb 64 8 e }

/-- Translate for an access at once: second-level TLB, walk, and the re-walk before a permission fault (R270). The hardware's own accesses (trap
save areas, queues, launch descriptors) come here without the clocks of a walk (log 87). -/
def State.translate (s : State) (cid asid page : Nat) (k : AccKind) (priv : Bool) : State × Xlat :=
  let d := cidDom cid
  match s.tlbHit cid asid page k priv with
  | some x => (s, x)
  | none =>
    match tlbFind (s.dom d).tlb2 asid page with
    | some e =>
      if e.allows k priv then (s.modCore cid fun c => { c with tlb := tlbFill c.tlb 64 8 e }, .ok (e.frame page) e.w e.nx e.priv)
      else fresh s d
    | none =>
      if (tlbFind (s.core cid).tlb asid page).isSome then fresh s d
      else
        let (s, r) := s.walk d asid page false
        match r with
        | .ent e => if e.allows k priv then (s.fillTlbs d cid e, .ok (e.frame page) e.w e.nx e.priv) else fresh s d
        | .absent => (s, .absent)
        | .bad => fresh s d
where
  /-- The re-walk from the root, the page's entries dropped. -/
  fresh (s : State) (d : Nat) : State × Xlat :=
    let s := s.modDom d fun x => { x with tlb2 := tlbDrop x.tlb2 asid page }
    let s := s.modCore cid fun c => { c with tlb := tlbDrop c.tlb asid page }
    let (s, r) := s.walk d asid page true
    match r with
    | .ent e => if e.allows k priv then (s.fillTlbs d cid e, .ok (e.frame page) e.w e.nx e.priv) else (s, .fault 0x06)
    | .absent => (s, .absent)
    | .bad => (s, .fault 0x06)

/-- Clocks that a walk takes from `level` down, its next read at clock t: of each table line that the walk cache does not spare, which it does not use
with `fresh` (R270, R272). -/
def State.walkClocks (s : State) (d asid page t : Nat) (fresh : Bool) : Nat → Nat → Nat
  | 0, _ => 0
  | level + 1, table =>
    let n := level + 1
    let at' := table + 8 * (page / 512 ^ level % 512)
    let hit := if fresh || n == 1 then none else (s.dom d).wcache.find? fun (a, l, p, _) => a == asid && l == n && p == page / 512 ^ level
    let (lat, raw) := match hit with
      | some (_, _, _, r) => (0, r)
      | none => ({ s with now := t }.pathLatency (cidOf d 78) (at' / 64) .any, leVal ((List.range 8).map fun k => s.newestByte (at' + k)))
    let p : Pte := ⟨raw⟩
    if !p.v || !p.ok n || p.leaf then lat else lat + s.walkClocks d asid page (t + lat) fresh level p.pa

/-- Clocks of a walk from the root that begins at clock t. The root's address is PTROOT's as it stands (R5: log 78). -/
def State.walkFromRoot (s : State) (d asid page t : Nat) (fresh : Bool) : Nat :=
  s.walkClocks d asid page t fresh 4 (((s.ctx asid).map (·.ptroot)).getD 0)

/-- The entries that the TLBs hold for a page let the access through or, with none, a walk finds out; without it the page is walked from the root again
(R270): whether the first look at it walks, and whether a walk from the root follows. -/
def State.walkNeeds (s : State) (w : WalkReq) : Bool × Bool :=
  let d := cidDom w.core
  match tlbFind (s.dom d).tlb2 w.asid w.page with
  | some e => (false, !e.allows w.kind w.priv)
  | none =>
    if (tlbFind (s.core w.core).tlb w.asid w.page).isSome then (false, true)
    else
      (true, match (s.walk d w.asid w.page false).2 with
        | .ent e => !e.allows w.kind w.priv
        | .absent => false
        | .bad => true)

/-- Clocks of the walks of a page that begin at clock t (R270, R272). -/
def State.walksOf (s : State) (w : WalkReq) (t : Nat) : Nat :=
  let d := cidDom w.core
  let (first, again) := s.walkNeeds w
  let a := if first then s.walkFromRoot d w.asid w.page t false else 0
  a + if again then s.walkFromRoot d w.asid w.page (t + a) true else 0

/-- Clocks from the core to its second-level TLB and back (R272). -/
def walkTrip (cid : Nat) : Nat := 2 * transit (cidDom cid) (siteRouter (cidSite cid)) (cidDom cid) 78 + 8

/-- Walks of domain d that hold a place at its walker (R272). -/
def State.walksHeld (s : State) (d : Nat) : Nat :=
  (s.work.filter fun w =>
    match w.job with
    | .walk x => x.dom == d && x.place == .held
    | _ => false).length

/-- Ask for a walk. Its end is PAGE_WALK. A page that the second-level TLB holds, for such an access, costs the way there and back; of the others, sixteen
walk at once, and one more begins when a place is free (R272). -/
def State.askWalk (s : State) (w : WalkReq) : State × Nat :=
  let d := cidDom w.core
  let t := walkTrip w.core
  let place : WalkPlace :=
    if s.walkNeeds w == (false, false) then .none else if s.walksHeld d < 16 then .held else .waiting
  let dt := if place == .held then t + s.walksOf w (s.now + t) else t
  (s.addWork dt (.walk { w with place := place }), s.uid)

/-- A place at the walker is free: the oldest walk that waits for one begins. -/
def State.nextWalk (s : State) (d : Nat) : State :=
  match s.work.find? fun w => match w.job with
    | .walk x => x.dom == d && x.place == .waiting
    | _ => false with
  | some ⟨id, due, .walk x, _⟩ =>
    let t := max s.now due
    s.setWork id (t - s.now + s.walksOf x t) (.walk { x with place := .held })
  | _ => s

/-! Addresses a device rule forbids (R7, R8, R164, R387, R388). -/

/-- Size of a domain's DSM in bytes. -/
def State.dsmBytes (s : State) (d : Nat) : Nat := 2 ^ 21 * (s.dom d).dsmsize

def State.portUp (s : State) (port : Nat) : Bool := s.wafer.hostup.testBit port
def State.linkIsUp (s : State) (n : Nat) : Bool := s.wafer.linkup.testBit n

/-- The wafer-level blocks of the MMIO aperture (R8). -/
inductive Block where
  | wafer (ofs : Nat)
  | energy (asid ofs : Nat)
  | debug (asid ofs : Nat)
  | dom (d ofs : Nat)
  | ctx (asid ofs : Nat)
  | none
  deriving DecidableEq, Repr

def blockOf (ofs : Nat) : Block :=
  if ofs < 0xC0000 then .wafer ofs
  else if 0x100000 ≤ ofs ∧ ofs < 0x200000 then .energy ((ofs - 0x100000) / 16) (ofs % 16)
  else if 0x1000000 ≤ ofs ∧ ofs < 0x2000000 then .debug ((ofs - 0x1000000) / 256) (ofs % 256)
  else if 0x4000000 ≤ ofs ∧ ofs < 0x8000000 then .dom ((ofs - 0x4000000) / 0x100000) (ofs % 0x100000)
  else if 0x10000000 ≤ ofs ∧ ofs < 0x20000000 then .ctx ((ofs - 0x10000000) / 4096) (ofs % 4096)
  else .none

/-- The trap code an MMIO access of a context takes, or none (R7, R8, R322, R357, R365). -/
def mmioCheck (asid ofs size : Nat) (priv : Bool) : Option Nat :=
  if size != 4 && size != 8 then some 0x05
  else match blockOf ofs with
  | .none => some 0x05
  | .ctx a _ => if priv || a == asid then none else some 0x06
  | .debug a _ => if priv || a == asid then none else some 0x06
  | .energy a _ => if priv || a == asid then none else some 0x06
  | _ => if priv then none else some 0x06

/-- The trap code of a translated access by a group, or none (R5, R7, R77, R152, R164, R388). A group of the team that has retired, its slot and window
freed, is addressed as one that the team lacks: 0x05 (log 86). -/
def State.targetCheck (s : State) (g : Group) (cid asid pa size : Nat) (k : AccKind) (lineOp : Bool) (hostOk : Bool) : Option Nat :=
  match targetOf pa with
  | .bad => some 0x05
  | .dram _ _ => none
  | .dsm d o => if o < s.dsmBytes d then none else some 0x05
  | .topo _ => if k == .write || k == .atomic then some 0x06 else none
  | .mmio o => if k == .atomic || lineOp then some 0x05 else mmioCheck asid o size g.priv
  | .host p _ => if !s.portUp p then some 0x05 else if k == .atomic && !hostOk then some 0x05 else none
  | .peer n _ => if !s.linkIsUp n then some 0x05 else if k == .atomic && !hostOk then some 0x05 else none
  | .core o =>
    if k == .atomic || (size > 8 && !lineOp) then some 0x05
    else match s.team g.team with
    | none => some 0x05
    | some t =>
      if o < 0x100000 then if o + size ≤ t.spBytes then none else some 0x05
      else if lineOp then some 0x05
      else
        let reg := fun (gi r : Nat) (vec : Bool) =>
          match (t.slots[gi]?).bind fun sl => s.group (gidOf cid sl) with
          | some h => if r < (if vec then h.gsize else h.ssize) then none else some 0x05
          | none => some 0x05
        if o < 0x108000 then
          if isDcc cid && bits o 14 10 != 0 then some 0x05
          else (reg (bits o 14 10) (bits o 9 2) false).orElse fun _ => if size == 8 then reg (bits o 14 10) (bits o 9 2 + 1) false else none
        else if o < 0x400000 then some 0x05
        else if isDcc cid && (bits o 21 17 != 0 || bits o 6 2 != 0 || size == 8) then some 0x05
        else reg (bits o 21 17) (bits o 16 7) true

end Sys2Proof.Machine
end

