-- ==== Sys2Proof/Machine/Window.lean ====
section
/-! DEFINITION. A group's registers, its forwarding window and its results in flight (R42, R79-R84), and the hardware-loop
renaming of vector names (R94, R99). -/

namespace Sys2Proof.Machine

def bool1 (b : Bool) : Nat := if b then 1 else 0

/-! Loops. -/

def Group.loop (g : Group) (k : Nat) : LoopReg := g.loops.getD k {}
def Group.putLoop (g : Group) (k : Nat) (l : LoopReg) : Group := { g with loops := setAt g.loops k l }
def Group.liveLoops (g : Group) : List Nat := (List.range 4).filter fun k => (g.loop k).live
/-- The live loop of highest LEVEL among those that p accepts. -/
def Group.innermost (g : Group) (p : LoopReg → Bool) : Option Nat :=
  (List.range 4).foldl (fun best k =>
    let l := g.loop k
    if l.live && p l then
      match best with
      | some b => if (g.loop b).level < l.level then some k else best
      | none => some k
    else best) none
/-- The innermost live loop, and the innermost live pipelined loop (R94). -/
def Group.innerLoop (g : Group) : Option Nat := g.innermost fun _ => true
def Group.innerPipe (g : Group) : Option Nat := g.innermost fun l => l.pipe

/-- Stage predicates (R21, R94). -/
def Group.stages (g : Group) : BitVec 8 :=
  match g.innerPipe with
  | some k => (g.loop k).stmask
  | none => 1

/-- Physical number of vector name r (R99). -/
def Group.rename (g : Group) (r : Nat) : Nat :=
  match g.innerPipe with
  | some k =>
    let l := g.loop k
    let b := l.base.toNat
    let z := l.size.toNat
    if b ≤ r ∧ r < b + z then b + (r - b + l.rrb.toNat) % z else r
  | none => r

/-- Whether vector name r lies in the rotating region. -/
def Group.rotates (g : Group) (r : Nat) : Bool :=
  match g.innerPipe with
  | some k => (g.loop k).base.toNat ≤ r && r < (g.loop k).base.toNat + (g.loop k).size.toNat
  | none => false

/-! Masks and guards (R21). -/

def Group.cntOf (g : Group) (l : Nat) : Nat := (g.cnt.getD l 0).toNat
def Group.setCnt (g : Group) (f : Nat → Nat → Nat) : Group :=
  { g with cnt := (List.range 32).map fun l => BitVec.ofNat 8 (if g.exm.getLsbD l then f l (g.cntOf l) else g.cntOf l) }
def Group.predMask (g : Group) (k : Nat) : LaneMask := if k ≥ 7 then 0xFFFFFFFF else g.preds.getD k 0

/-- The guard's value in lane l. -/
def Group.guardAt (g : Group) (gd : Guard) (l : Nat) : Bool :=
  let v := if gd.stage then g.stages.getLsbD gd.idx.toNat else (g.predMask gd.idx.toNat).getLsbD l
  v != gd.neg

/-- The lanes that run an instruction. -/
def Group.runMask (g : Group) (h : Hdr) : LaneMask :=
  maskOf fun l => g.exm.getLsbD l && g.cntOf l == 0 && g.guardAt h.guard l

/-! Register values. -/

def Group.bankLanes (g : Group) : RegName → Lanes
  | .vec r => tgetD g.vregs r zeroLanes
  | .scal r => [tgetD g.sregs r 0]
  | _ => zeroLanes

/-- The words that a write makes good again (R376). -/
def Group.mend (g : Group) (n : RegName) (mask : LaneMask) : Group := { g with bad := g.bad.filter fun (m, l) => !(m == n && mask.getLsbD l) }

/-- Whether the bank holds lane l of a register with an uncorrectable error (R376). -/
def Group.badAt (g : Group) (n : RegName) (l : Nat) : Bool := g.bad.contains (n, l)

/-- Put the named lanes of a register into the banks. -/
def Group.bankPut (g : Group) (n : RegName) (mask : LaneMask) (vals : Lanes) : Group :=
  match n with
  | .vec r =>
    let old := tgetD g.vregs r zeroLanes
    { g with vregs := tputD g.vregs r zeroLanes ((List.range 32).map fun l => if mask.getLsbD l then lane vals l else lane old l) }
  | .scal r => if mask.getLsbD 0 then { g with sregs := tputD g.sregs r 0 (lane vals 0) } else g
  | _ => g

/-- Write the named lanes of a register to the banks: a word with an uncorrectable error is good again. -/
def Group.writeBank (g : Group) (n : RegName) (mask : LaneMask) (vals : Lanes) : Group := (g.bankPut n mask vals).mend n mask

/-- Whether the result is still delivered in lane l to the instruction now at issue (R79). -/
def Result.serves (r : Result) (issued : Nat) (n : RegName) (l : Nat) : Bool :=
  r.landed && r.dst == n && issued ≤ r.num + Config.windowDepth && r.mask.getLsbD l && !r.beaten.getLsbD l

/-- Whether a variable result has the value of lane l of register n but has not landed it. -/
def VRes.offers (v : VRes) (n : RegName) (l : Nat) : Option Word :=
  if v.lanes.getLsbD l && v.ready.getLsbD l then
    match v.dsts.findIdx? (· == n) with
    | some i => some (lane (v.vals.getD i []) l)
    | none => none
  else none

/-- The word after this landing: the whole of w, or only the bytes that it changes (R77). -/
def VRes.over (v : VRes) (old w : Word) : Word :=
  match v.part with
  | none => w
  | some (i, n) => patchWord old i (slice (leBytes 4 w.toNat) i n)

/-- The value of lane l of register n as the window and the banks hold it (R79). -/
def Group.heldLane (g : Group) (n : RegName) (l : Nat) : Word :=
  match g.results.find? fun r => r.serves g.sched.issued n l with
  | some r => lane r.vals l
  | none => lane (g.bankLanes n) l

/-- The value that a read at this clock delivers for lane l of register n (R23, R42, R78-R80). -/
def Group.readLane (g : Group) (gid : Nat) (n : RegName) (l : Nat) : Word :=
  g.vres.foldl (fun v r =>
    match r.offers n l with
    | some w => if Config.racePick gid g.sched.issued r.id l then r.over v w else v
    | none => v) (g.heldLane n l)

def Group.readVec (g : Group) (gid r : Nat) : Lanes := (List.range 32).map fun l => g.readLane gid (.vec r) l
def Group.readScal (g : Group) (gid k : Nat) : Word := g.readLane gid (.scal k) 0
def Group.readPair (g : Group) (gid k : Nat) : DWord := dwordOf (g.readScal gid k) (g.readScal gid (k + 1))

/-- Whether lane l of n is in the window, so that no bank read is needed (R79). -/
def Group.forwarded (g : Group) (n : RegName) (l : Nat) : Bool := g.results.any fun r => r.serves g.sched.issued n l

/-- KILL: the window results that served these lanes are dead (R80). -/
def Group.killLanes (g : Group) (n : RegName) (mask : LaneMask) : Group :=
  { g with results := g.results.map fun r =>
      if r.dst == n then { r with kill := r.kill ||| maskOf fun l => mask.getLsbD l && r.serves g.sched.issued n l } else r }

/-- The lanes of a window entry that KILL marks name. -/
def Kills.of (ks : Kills) (r : Result) : LaneMask := ks.foldl (fun m (n, d, k) => if n == r.num && d == r.dst then m ||| k else m) 0

/-- KILL marks that take effect, on the entries they name alone (R80). -/
def Group.kill (g : Group) (ks : Kills) : Group :=
  { g with results := g.results.map fun r => if r.landed then { r with kill := r.kill ||| Kills.of ks r } else r }

/-! Landing. -/

/-- Later landings stand over the landed results of the same register (R42, R80). -/
def Group.beat (g : Group) (n : RegName) (mask : LaneMask) : Group :=
  { g with results := g.results.map fun r => if r.landed && r.dst == n then { r with beaten := r.beaten ||| mask } else r }

/-- Flags are gathered (R66, R68). -/
def Group.orFlags (g : Group) (fl : Flags) : Group := { g with flags := g.flags ||| fl }

/-- Admit and dismiss lanes (R74). -/
def Group.setExm (g : Group) (m : LaneMask) : Group :=
  { g with cnt := (List.range 32).map fun l => if m.getLsbD l && !g.exm.getLsbD l then 0 else g.cnt.getD l 0, exm := m }

/-- Write loop register field n (R76, R94, R102) at its landing, k and f from its number. LIVE changes keep the stack numbered
from 0; hi is PC[47:34] of the MOVRS. -/
def Group.writeLoop (g : Group) (k f : Nat) (w : Word) (hi : BitVec 14) : Group :=
  let l := g.loop k
  match f with
  | 0 => g.putLoop k { l with start := w }
  | 1 => g.putLoop k { l with fin := w }
  | 2 => g.putLoop k { l with count := w }
  | 3 => g.putLoop k { l with index := w }
  | 4 => g.putLoop k { l with rrb := w.extractLsb' 26 6, base := w.extractLsb' 16 10, size := w.extractLsb' 0 7 }
  | _ =>
    let live := w.getLsbD 31
    let l' := { l with live := live, pipe := w.getLsbD 30, sm1 := w.extractLsb' 8 3, stmask := w.extractLsb' 0 8 }
    if live && !l.live then g.putLoop k { l' with level := g.liveLoops.length, hi := hi }
    else if !live && l.live then
      let g := g.putLoop k { l' with level := 0 }
      { g with loops := g.loops.map fun x => if x.live && l.level < x.level then { x with level := x.level - 1 } else x }
    else g.putLoop k l'

/-- Special-register landing of MOVRS and SETEXM: the value, and for a loop register PC[47:34] of the MOVRS. -/
def Group.landSpecial (g : Group) (r : Nat) (vals : Lanes) : Group :=
  let w := lane vals 0
  if r = 0x00 then g.setExm w
  else if r = 0x18 then { g with flags := w.extractLsb' 0 7 }
  else if r = 0x1E then { g with xtimeout := w }
  else if r = 0x20 then
    match g.innerPipe with
    | some k => g.putLoop k { g.loop k with rrb := w.extractLsb' 0 6 }
    | none => g
  else if 0x30 ≤ r ∧ r ≤ 0x47 then g.writeLoop ((r - 0x30) / 6) ((r - 0x30) % 6) w ((lane vals 1).extractLsb' 0 14)
  else g

/-- Land one fixed result: into the window, the predicates or a special register (R42, R68, R79). -/
def Group.landOne (g : Group) (r : Result) : Group :=
  match r.dst with
  | .pred k =>
    let old := g.predMask k
    let new := maskOf fun l => if r.mask.getLsbD l then (lane r.vals l).getLsbD 0 else old.getLsbD l
    ({ g with preds := if k < 7 then setAt g.preds k new else g.preds }).orFlags r.flags
  | .spec n => (g.landSpecial n r.vals).orFlags r.flags
  | n =>
    let g := g.beat n r.mask
    { g with results := g.results ++ [{ r with landed := true }], flags := g.flags ||| r.flags }

/-- The live lanes of a result (R80). -/
def Result.liveMask (r : Result) : LaneMask := r.mask &&& ~~~r.beaten &&& ~~~r.kill

/-- Results that leave the window are written to the banks unless dead (R80). -/
def Group.expire (g : Group) : Group :=
  let gone := g.results.filter fun r => r.landed && r.num + Config.windowDepth < g.sched.issued
  let g := { g with results := g.results.filter fun r => !(r.landed && r.num + Config.windowDepth < g.sched.issued) }
  gone.foldl (fun g r => g.writeBank r.dst r.liveMask r.vals) g

/-- A write of the mask or of a loop register, which renaming, guards and back edges use. -/
def Result.governs (r : Result) : Bool :=
  match r.dst with
  | .spec n => n == 0 || n == 0x20 || decide (0x30 ≤ n)
  | _ => false

/-- An instruction has issued and is not complete (a memory or bank access, an exchange, a wait): it still uses the mask and the loop registers
of its issue, in its back edge as well, which belongs to its issue (R74, R98, R102). -/
def Group.underWay (g : Group) : Bool := g.held.isSome

/-- Whether a fixed result lands at clock t. -/
def Group.dueAt (g : Group) (t : Nat) (r : Result) : Bool := !r.landed && decide (r.due ≤ t) && !(r.governs && g.underWay)

/-- Land every fixed result that is due, in issue order within a clock (R42); all of them when the clock is none. A result that eight later
instructions have passed leaves the window as it lands (R80). -/
def Group.landFixed (g : Group) (clk : Option Nat) : Group :=
  let isDue := fun (r : Result) => match clk with
    | some t => g.dueAt t r
    | none => !r.landed
  let due := g.results.filter isDue
  let g := { g with results := g.results.filter fun r => !isDue r }
  -- by due clock, a write of sr.flags before the flags of its clock (R68), else in issue order
  let key := fun (r : Result) => 2 * r.due + bool1 (r.dst != .spec 0x18)
  let order := due.foldl (fun (acc : List Result) r => (acc.filter fun x => key x ≤ key r) ++ [r] ++ (acc.filter fun x => key r < key x)) []
  (order.foldl Group.landOne g).expire

/-- Drain the window (R81): landed entries only; the others stay in flight. -/
def Group.drain (g : Group) : Group :=
  let gone := g.results.filter (·.landed)
  let g := { g with results := g.results.filter fun r => !r.landed }
  gone.foldl (fun g r => g.writeBank r.dst r.liveMask r.vals) g

/-- Drain at the issue of an instruction that is not complete at once (R81): entries of which its KILL marks lanes stay with those lanes
until it completes, so that a trap before that finds the values it read. -/
def Group.drainNow (g : Group) (ks : Kills) : Group :=
  let gone := g.results.filter (·.landed)
  let kept := g.results.filterMap fun r =>
    if !r.landed then some r else if Kills.of ks r = 0 then none else some { r with mask := r.mask &&& Kills.of ks r }
  let g := { g with results := kept, sched := { g.sched with drained := true } }
  gone.foldl (fun g r => g.writeBank r.dst (r.liveMask &&& ~~~(Kills.of ks r)) r.vals) g

/-- The end of an instruction with KILL marks (R80): what it killed is dead, and out of a window that it drained at its issue. -/
def Group.spend (g : Group) (ks : Kills) : Group :=
  let g' := g.kill ks
  if g.sched.drained then { g' with results := g'.results.filter fun r => !r.landed || Kills.of ks r == 0 } else g'

/-- Trap entry and a halt: the outstanding fixed results land first (R81). -/
def Group.landAndDrain (g : Group) : Group := (g.landFixed none).drain

/-- A landing from outside the window (R42, R78): the banks are written and window entries of those lanes are replaced. -/
def Group.landOutside (g : Group) (n : RegName) (mask : LaneMask) (vals : Lanes) : Group := (g.writeBank n mask vals).beat n mask

/-- Enter a fixed result. -/
def Group.addResult (g : Group) (due : Nat) (dst : RegName) (mask : LaneMask) (vals : Lanes) (fl : Flags) : Group :=
  let r : Result :=
    { num := g.sched.issued, due := due, landed := false, dst := dst, mask := mask, vals := vals, flags := fl, beaten := 0, kill := 0 }
  if mask = 0 ∧ fl = 0 then g else { g with results := g.results ++ [r] }

/-- Whether the group has a variable result of its own outstanding (R43). -/
def Group.outstanding (g : Group) : Bool := g.vres.any fun v => v.own

/-! Special registers read (R76). -/

/-- Field f as the register holds it, live or not (R94, R178). -/
def LoopReg.raw (l : LoopReg) (f : Nat) : Word :=
  match f with
  | 0 => l.start
  | 1 => l.fin
  | 2 => l.count
  | 3 => l.index
  | 4 => wordOf (l.rrb.toNat * 2 ^ 26 + l.base.toNat * 2 ^ 16 + l.size.toNat)
  | _ => wordOf (bool1 l.live * 2 ^ 31 + bool1 l.pipe * 2 ^ 30 + l.level * 2 ^ 28 + l.sm1.toNat * 2 ^ 8 + l.stmask.toNat)

/-- Field f as a special register reads it: zero for a loop that is not live (R94). -/
def LoopReg.field (l : LoopReg) (f : Nat) : Word := if l.live then l.raw f else 0

/-- Special register n, lane l, as the group reads it. -/
def State.special (s : State) (gid : Nat) (g : Group) (n l : Nat) : Word :=
  let t := s.teamOf g
  let tn := fun (f : Team → Nat) => wordOf ((t.map f).getD 0)
  if n = 0x00 then g.exm
  else if n = 0x01 then wordOf l
  else if n = 0x02 then wordOf g.idx
  else if n = 0x03 then tn (·.index)
  else if n = 0x04 then wordOf (((t.bind fun t => tget s.clusters t.cluster).map (·.index)).getD 0)
  else if n = 0x05 then if isDcc (gidCid gid) && gidSlot gid == 0 then 0xFFFFFFFF else tn fun t => t.nid % 2 ^ 32
  else if n = 0x06 then wordOf (cidSite (gidCid gid))
  else if n = 0x07 then wordOf (cidDom (gidCid gid))
  else if n = 0x08 then wordOf (gidSlot gid)
  else if n = 0x10 then wordOf g.gbase
  else if n = 0x11 then wordOf g.gsize
  else if n = 0x12 then wordOf g.ssize
  else if n = 0x18 then g.flags.zeroExtend 32
  else if n = 0x19 then wordOf (s.pts (gidCid gid))
  else if n = 0x1A then g.replay
  else if n = 0x1B then g.trapcause
  else if n = 0x1C then loWord g.tsa
  else if n = 0x1D then hiWord g.tsa
  else if n = 0x1E then g.xtimeout
  else if n = 0x1F then wordOf (g.cntOf l)
  else if n = 0x20 then
    match g.innerPipe with
    | some k => wordOf (g.loop k).rrb.toNat
    | none => 0
  else if n = 0x21 then g.stages.zeroExtend 32
  else if 0x30 ≤ n ∧ n ≤ 0x47 then (g.loop ((n - 0x30) / 6)).field ((n - 0x30) % 6)
  else 0

end Sys2Proof.Machine
end

