-- ==== Sys2Proof/Machine/Ops.lean ====
section
/-! DEFINITION. The operations every instruction shares: completing with its back edge (R41, R98), taking a trap and returning
from one (R177-R183), the core-local aperture (R77, R78), colophons (R286-R288), pending causes (R180). -/

namespace Sys2Proof.Machine

/-! The core-local aperture (R77, R78). -/

def Team.spByte (t : Team) (o : Nat) : Byte := tgetD t.spad o 0
def Team.spBytesAt (t : Team) (o n : Nat) : List Byte := (List.range n).map fun i => t.spByte (o + i)
/-- Whether one of these bytes lies in a word with an uncorrectable error (R376). -/
def Team.badIn (t : Team) (o n : Nat) : Bool := t.bad.any fun w => decide (w < o + n) && decide (o < w + 4)
def Team.spWrite (t : Team) (o : Nat) (bs : List Byte) : Team :=
  { t with
    spad := (bs.zipIdx).foldl (fun m (b, i) => tputD m (o + i) 0 b) t.spad
    bad := t.bad.filter fun w => !(decide (w < o + bs.length) && decide (o < w + 4)) }
def Team.spLineDesc (t : Team) (line : Nat) : LineDesc := tgetD t.spDesc line Config.freshDesc
def Team.spSetDesc (t : Team) (line : Nat) (d : LineDesc) : Team := { t with spDesc := tputD t.spDesc line Config.freshDesc d }
def Team.spLine (t : Team) (line : Nat) : LineImg := ⟨t.spBytesAt (64 * line) 64, t.spLineDesc line⟩

/-- Group gi of the team. -/
def Team.gid (t : Team) (gi : Nat) : Nat := t.sus.key + gidOf t.cid (t.slots.getD gi 0)

/-! Words of the scratchpad that a copy not yet waited for moves (R208, log 20). -/

/-- Whether a byte offset lies in the copy's local rows, or in CPYGTH's index array. -/
def CopyReq.localHas (c : CopyReq) (o : Nat) : Bool :=
  (List.range c.rows).any fun r => decide (c.l + r * c.pitch ≤ o) && decide (o < c.l + r * c.pitch + c.rowb)
def CopyReq.indexHas (c : CopyReq) (o : Nat) : Bool := c.kind == .gather && decide (c.index ≤ o) && decide (o < c.index + 4 * c.rows)

def CopyReq.intoSpad (c : CopyReq) : Bool := c.kind == .cpyin || c.kind == .gather

/-- The copy keeps the old value of a word it has yet to read. -/
def CopyReq.keepOld (c : CopyReq) (w : Nat) (old : Word) : CopyReq := if c.early.any (·.1 == w) then c else { c with early := (w, old) :: c.early }

/-- A word that something else stores while the copy is held: pick says which of the two stands, or which value the copy reads. -/
def CopyReq.raced (c : CopyReq) (pick : Bool) (w : Nat) (old new : Word) : CopyReq :=
  let c := if c.intoSpad && c.localHas w && pick then { c with skip := w :: c.skip } else c
  if c.indexHas w && pick then c.keepOld w old
  else if c.kind == .cpyout && c.localHas w then
    if pick then { c with moved := c.moved.map fun (t, a, b, x) => if a == w then (t, a, b, new) else (t, a, b, x) } else c.keepOld w old
  else c

/-- Whether a copy is held for the team, other than `self`. -/
def State.copying (s : State) (self tid : Nat) : Bool :=
  s.work.any fun w =>
    match w.job with
    | .copy c => c.team == tid && w.id != self
    | _ => false

/-- Queued matrix operations of the team's cluster may still read this word as it was (R235). -/
def State.opsKeepOld (s : State) (tid cl w : Nat) (old : Word) : State :=
  let keep := fun (m : MOp) => if Config.copyPick s.freeUsed m.id && !m.early.any (fun (x, y, _) => x == tid && y == w) then
    { m with early := (tid, w, old) :: m.early } else m
  { s with
    groups := s.groups.map fun (gid, g) =>
      (gid, if !g.mq.isEmpty && ((s.team g.team).map (·.cluster)) == some cl then { g with mq := g.mq.map keep } else g)
    freeUsed := s.freeUsed + 1 }

/-- Store bytes in the team's scratchpad; self is the copy that stores, or 0. -/
def State.spadStore (s : State) (self tid o : Nat) (bs : List Byte) : State :=
  match s.team tid with
  | none => s
  | some t =>
    let t' := t.spWrite o bs
    let s := s.putTeam tid t'
    let words := (List.range ((o % 4 + bs.length + 3) / 4)).map fun k => o / 4 * 4 + 4 * k
    let s := if s.groups.any fun (_, g) => !g.mq.isEmpty then words.foldl (fun s w => s.opsKeepOld tid t.cluster w (wordOf (leVal (t.spBytesAt w 4)))) s else s
    if !s.copying self tid then s
    else
      words.foldl (fun s w =>
        let old := wordOf (leVal (t.spBytesAt w 4))
        let new := wordOf (leVal (t'.spBytesAt w 4))
        { s with
          work := s.work.map fun x =>
            match x.job with
            | .copy c => if c.team == tid && x.id != self then { x with job := .copy (c.raced (Config.copyPick s.freeUsed x.id) w old new) } else x
            | _ => x
          freeUsed := s.freeUsed + 1 }) s

/-- The team as a reader of these bytes of its scratchpad finds it: words that a copy is writing are old or new. -/
def State.spadSeen (s : State) (tid : Nat) (t : Team) (wanted : Nat → Bool) : Team :=
  s.work.foldl (fun t x =>
    match x.job with
    | .copy c =>
      if c.team == tid && c.started && c.intoSpad then
        c.moved.foldl (fun t (_, _, d, v) =>
          if wanted d && !c.skip.contains d && Config.copyPick s.freeUsed (2 ^ 40 * x.id + d) then t.spWrite d (leBytes 4 v.toNat) else t) t
      else t
    | _ => t) t

/-- A free value is used by such a read. -/
def State.spadRead (s : State) (tid : Nat) : State := if s.copying 0 tid then s.nextFree else s

/-- The register word an aperture offset names: group index, register, lane (R77). -/
def apertureReg (o : Nat) : Nat × RegName × Nat :=
  if o < 0x108000 then (bits o 14 10, .scal (bits o 9 2), 0) else (bits o 21 17, .vec (bits o 16 7), bits o 6 2)

/-- The aperture offset of lane l of a register of group index gi (R77). -/
def apertureOfs (gi : Nat) (r : RegName) (l : Nat) : Nat :=
  match r with
  | .scal k => 0x100000 + 1024 * gi + 4 * k
  | .vec k => 0x400000 + 131072 * gi + 128 * k + 4 * l
  | .pred _ => 0
  | .spec _ => 0

/-- Read up to 8 bytes of the core-local aperture: registers from the banks (R81). -/
def State.apertureRead (s : State) (t : Team) (o n : Nat) : List Byte :=
  if o < 0x100000 then t.spBytesAt o n
  else (List.range n).map fun i =>
    let (gi, r, l) := apertureReg (o + i)
    match s.group (t.gid gi) with
    | some g => byteAt (lane (g.bankLanes r) l) ((o + i) % 4)
    | none => 0
where
  byteAt (w : Word) (i : Nat) : Byte := w.extractLsb' (8 * i) 8

/-- Whether such a read meets a word with an uncorrectable error (R376). -/
def State.apertureBad (s : State) (t : Team) (o n : Nat) : Bool :=
  if o < 0x100000 then t.badIn o n
  else (List.range n).any fun i =>
    let (gi, r, l) := apertureReg (o + i)
    ((s.group (t.gid gi)).map fun g => g.badAt r l).getD false

/-- An aperture write to registers lands like a variable result of the owner (R78): it stays in flight in the owner's list until
due; writer is the copy that writes, or 0, and store the group whose store it is. A store of 1 or 2 bytes leaves the word's other bytes
(R77). -/
def State.apertureWrite (s : State) (writer : Nat) (store : Option Nat) (tid : Nat) (t : Team) (o due : Nat) (bs : List Byte) : State :=
  if o < 0x100000 then s.spadStore 0 tid o bs
  else
    let words := (List.range ((o % 4 + bs.length + 3) / 4)).map fun k => o / 4 * 4 + 4 * k
    words.foldl (fun s w =>
      let (gi, r, l) := apertureReg w
      let gid := t.gid gi
      match s.group gid with
      | none => s
      | some g =>
        let lo := max o w
        let part := (bs.drop (lo - o)).take (w + 4 - lo)
        let v := patchWord 0 (lo - w) part
        let res : VRes :=
          { id := s.uid, num := g.sched.issued, kind := .aperture, own := false, writer := writer, dsts := [r], lanes := BitVec.ofNat 32 (2 ^ l),
            ready := BitVec.ofNat 32 (2 ^ l), vals := [(List.range 32).map fun i => if i == l then v else 0], lflags := [], due := due, cl := true,
            acq := none, wts := 0, far := false, waits := [], fill := 0, quire := none, faddr := 0, infl := 0, store := store,
            part := if part.length = 4 then none else some (lo - w, part.length) }
        { s.putGroup gid { g with vres := g.vres ++ [res] } with uid := s.uid + 1 }) s

/-! Bytes as the group's own path sees them, whole at one clock: for the trap save area and descriptors. -/

/-- Read bytes of memory for a core: its dirty or leased words, else its slice (R155, R190), whose lines are counted (R354). -/
def State.coreRead (s : State) (gid pa : Nat) (n : Nat) : State × List Byte :=
  let cid := gidCid gid
  match targetOf pa with
  | .core o =>
    match (s.group gid).bind fun g => s.team g.team with
    | some t => (s, s.apertureRead t o n)
    | none => (s, List.replicate n 0)
  | _ =>
    let d := cidDom cid
    let asid := ((s.group gid).map s.asidOf).getD 0
    let r := (List.range n).foldl (fun (acc : State × List Byte × Option Nat) i =>
      let (s, out, last) := acc
      let line := (pa + i) / 64
      match s.l1Read cid (pa + i) 1 false with
      | some (b, _) => (s, out ++ [b.getD 0 0], last)
      | none =>
        let s := if last == some line then s else s.charge cid asid (s.lineBytes d line .team true)
        let (s, img) := s.engineRead d line
        let img := s.overDirty cid line img
        (s, out ++ [img.data.getD ((pa + i) % 64) 0], some line)) (s, [], none)
    (r.1, r.2.1)

/-- Split a byte run at line ends. -/
def byLines (pa : Nat) (bs : List Byte) : List (Nat × List Byte) :=
  let first := pa / 64
  let last := (pa + bs.length - 1) / 64
  if bs.isEmpty then []
  else (List.range (last - first + 1)).map fun k =>
    let lo := max pa (64 * (first + k))
    let hi := min (pa + bs.length) (64 * (first + k) + 64)
    (lo, (bs.drop (lo - pa)).take (hi - lo))

/-- Weak stores of a run of bytes by the hardware for a group (R177: path LS, team scope). -/
def State.coreStore (s : State) (gid asid pa : Nat) (bs : List Byte) : State :=
  let cid := gidCid gid
  (byLines pa bs).foldl (fun s (a, part) =>
    match targetOf a with
    | .core o =>
      match (s.group gid).bind fun g => (s.team g.team).map fun t => (g.team, t) with
      | some (tid, t) => s.apertureWrite 0 (some gid) tid t o (s.cclk cid) part
      | none => s
    | _ =>
      let remote := isDcc cid || (lineIsDsm (a / 64) && lineHome (a / 64) != cidDom cid) || lineIsFar (a / 64)
      if remote then (s.charge cid asid (s.lineBytes (cidDom cid) (a / 64) .team false)).engineWriteBytes (cidDom cid) a part else s.l1Store gid cid asid a part .normal false) s

/-! Colophons (R285-R288). -/

/-- The 28 bytes of a record before SEQ. -/
def colophonBody (node kind status dom info energy fault : Nat) : List Byte :=
  leBytes 4 node ++ leBytes 1 kind ++ leBytes 1 status ++ leBytes 2 dom ++ leBytes 8 info ++ leBytes 8 energy ++ leBytes 4 fault

/-- The domain whose bank serves a line's home steps (R287), d for memory outside the wafer. -/
def bankDom (d line : Nat) : Nat := if lineIsFar line then d else lineHome line

/-- Whether an event queue may lie here (R285). -/
def State.queueMem (s : State) (pa : Nat) : Bool :=
  match targetOf pa with
  | .dram _ _ => true
  | .dsm d o => decide (o < s.dsmBytes d)
  | _ => false

/-- Bytes at a virtual address of a context, by the hardware of domain d; none when it cannot be read now. -/
def State.hwRead (s : State) (d asid va : Nat) : Nat → State × Option (List Byte)
  | 0 => (s, some [])
  | n + 1 =>
    let cid := cidOf d 144
    let (s, x) := s.translate cid asid (pageOf va) .read (asid == 0)
    match x with
    | .ok pa _ _ _ =>
      if !s.queueMem pa then (s, none)
      else
        let (s, bs) := s.engineReadBytes (bankDom d (pa / 64)) (pa + va % 4096) 1
        let (s, rest) := s.hwRead d asid (va + 1) n
        (s, rest.map fun r => bs ++ r)
    | .absent => (s.pageFault d cid asid (pageOf va) .read .ls, none)
    | .fault _ => (s, none)

/-- Write bytes at a virtual address of a context, by the hardware of domain d; whether it could. -/
def State.hwWrite (s : State) (d asid va : Nat) (bs : List Byte) : State × Bool :=
  let cid := cidOf d 144
  let (s, x) := s.translate cid asid (pageOf va) .write (asid == 0)
  match x with
  | .ok pa _ _ _ => if s.queueMem pa then (s.engineWriteBytes (bankDom d (pa / 64)) (pa + va % 4096) bs, true) else (s, false)
  | .absent => (s.pageFault d cid asid (pageOf va) .write .ls, false)
  | .fault _ => (s, false)

/-- The queue a record goes to: COLQ, or the context's default queue for the domain (R280, R286). -/
def State.queueOf (s : State) (c : Colophon) : Nat :=
  if c.queue ≠ 0 then c.queue else ((s.ctx c.asid).map fun x => tgetD x.defq c.qdom 0).getD 0

/-- Append one record under R287; whether it was. -/
def State.appendRecord (s : State) (d asid hdr : Nat) (body : List Byte) : State × Bool :=
  if hdr = 0 then (s, false)
  else
    let (s, h) := s.hwRead d asid hdr 32
    match h with
    | none => (s, false)
    | some h =>
      let ring := leVal (slice h 0 8)
      let mask := leVal (slice h 8 4)
      let tail := leVal (slice h 16 4)
      let head := leVal (slice h 24 4)
      if (tail + 2 ^ 32 - head) % 2 ^ 32 > mask then (s, false)
      else
        let (s, ok) := s.hwWrite d asid (ring + 32 * (tail &&& mask)) (body ++ leBytes 4 (tail + 1))
        if ok then s.hwWrite d asid (hdr + 16) (leBytes 4 (tail + 1)) else (s, false)

/-- Merge a throttle notice into one of the same context that is still held (R288). -/
def mergeNotice (l : List Colophon) (c : Colophon) : Option (List Colophon) :=
  if c.kind == 3 && l.any (fun x => x.kind == 3 && x.asid == c.asid) then
    some (l.map fun x =>
      if x.kind == 3 && x.asid == c.asid then
        let st := leVal (slice x.body 5 1) ||| leVal (slice c.body 5 1)
        let info := min (2 ^ 64 - 1) (leVal (slice x.body 8 8) + leVal (slice c.body 8 8))
        { x with body := patch (patch x.body 5 (leBytes 1 st)) 8 (leBytes 8 info) }
      else x)
  else none

/-- Records in a domain's buffer (R287). -/
def Dom.buffered (x : Dom) : List Colophon := x.held.filter fun c => !c.spilled

/-- Hold a record in the domain's buffer, or in the overflow area when the buffer is full (R287, R288). -/
def State.holdRecord (s : State) (d : Nat) (c : Colophon) : State :=
  s.modDom d fun x =>
    match mergeNotice x.held c with
    | some l => { x with held := l }
    | none => { x with held := x.held ++ [{ c with spilled := decide (x.buffered.length ≥ 256) }] }

/-- Append a record, or hold it behind those held for its queue (R287, R288). -/
def State.emit (s : State) (d : Nat) (c : Colophon) : State :=
  let q := s.queueOf c
  let held := (s.dom d).held.any fun x => x.asid == c.asid && s.queueOf x == q
  if held then s.holdRecord d c
  else
    let (s', ok) := s.appendRecord d c.asid q c.body
    if ok then s' else s'.holdRecord d c

/-! Pending causes (R180, R341). -/

/-- Whether a team is not where it was launched: halted by dusk and not yet back. -/
def Team.away (t : Team) : Bool := t.sus.st != .present

/-- Whether a team's state is in its image, not in the core (R336-R343). -/
def Team.inImage (t : Team) : Bool :=
  match t.sus.st with
  | .absent => true
  | .restoring _ => true
  | _ => false

/-- Address of offset o of the record of group idx in the team's image (R336, R337). -/
def Team.recordAt (t : Team) (idx o : Nat) : Nat := t.sus.shadow + 0x109000 + 512 * idx + o

/-- Change n bytes of a team's image (R210). -/
def State.imageMod (s : State) (t : Team) (a n : Nat) (f : Nat → Nat) : State :=
  let d := cidDom t.cid
  let (s, b) := s.engineReadBytes d a n
  s.engineWriteBytes d a (leBytes n (f (leVal b)))

/-- Set flags of a group, in its record while it is absent (R338). -/
def State.raiseFlags (s : State) (gid : Nat) (fl : Flags) : State :=
  match s.group gid with
  | none => s
  | some g =>
    match s.team g.team with
    | some t => if t.inImage then s.imageMod t (t.recordAt g.idx 0x1C) 4 (· ||| fl.toNat) else s.putGroup gid (g.orFlags fl)
    | none => s.putGroup gid (g.orFlags fl)

/-- Hold a fault of an absent group in its record (R341): the first one's cause and address, and the count. -/
def State.holdFault (s : State) (gid : Nat) (g : Group) (code faddr : Nat) : State :=
  match s.team g.team with
  | none => s
  | some t =>
    if t.inImage then
      let (s, n) := s.engineReadBytes (cidDom t.cid) (t.recordAt g.idx 0xE4) 4
      let s := if leVal n = 0 then
          (s.imageMod t (t.recordAt g.idx 0xE0) 4 fun _ => code).imageMod t (t.recordAt g.idx 0xE8) 8 fun _ => faddr
        else s
      s.imageMod t (t.recordAt g.idx 0xE4) 4 (· + 1)
    else if g.defCount = 0 then s.putGroup gid { g with defCause := code, defAddr := faddr, defCount := 1 }
    else s.putGroup gid { g with defCount := g.defCount + 1 }

/-- Make an asynchronous cause pending in a group, one per code; an absent group holds the fault instead (R180, R341). -/
def State.pendCause (s : State) (gid code arg faddr : Nat) : State :=
  match s.group gid with
  | none => s
  | some g =>
    if g.halted then s.holdFault gid g (if code == 0x11 then arg else code) faddr
    else if g.pend.any fun p => p.code == code then s
    else s.putGroup gid { g with pend := g.pend ++ [⟨code, arg, faddr, g.sched.issued⟩] }

/-- Poison met for a group: PSN, or the poison trap where the context holds PTRAP (R157, R376). -/
def State.ptrap (s : State) (asid : Nat) : Bool := ((s.ctx asid).map fun c => c.dbgctl.getLsbD 2).getD false
def State.poisonFor (s : State) (gid asid faddr : Nat) : State :=
  if s.ptrap asid then s.pendCause gid 0x0E 0 faddr else s.raiseFlags gid flPsn

/-! Completing an instruction (R41, R79-R81, R98). -/

/-- Counters of present lanes. -/
def Group.anyZero (g : Group) : Bool := (List.range 32).any fun l => g.exm.getLsbD l && g.cntOf l == 0

def pcWord (pc : Addr) : Word := pc.extractLsb' 2 32

/-- The back edge at this instruction (R98): the loops that end here, innermost first, at most four. A loop ends here where HI and END both do (R94:
log 104). -/
def Group.backEdge (g : Group) : Nat → Group × Option Addr
  | 0 => (g, none)
  | fuel + 1 =>
    match g.innerLoop with
    | none => (g, none)
    | some k =>
      let L := g.loop k
      if L.fin = pcWord g.pc ∧ L.hi = g.pc.extractLsb' 34 14 then
        let g := g.setCnt fun _ c => if c == 1 then 0 else c
        if L.count.toNat > 1 && g.anyZero then
          let S := L.sm1.toNat + 1
          let count := L.count - 1
          let L := { L with count := count, index := L.index + 1 }
          let L :=
            if L.pipe then
              { L with
                rrb := BitVec.ofNat 6 ((L.rrb.toNat + L.size.toNat - 1) % L.size.toNat),
                stmask := BitVec.ofNat 8 ((2 * L.stmask.toNat + bool1 (decide (count.toNat > S - 1))) % 2 ^ S) }
            else L
          (g.putLoop k L, some (L.hi ++ L.start ++ (0 : BitVec 2)))
        else
          let g := g.setCnt fun _ c => if c == 2 then 0 else if c > 2 then c - 2 else c
          (g.putLoop k { L with live := false, level := 0 }).backEdge fuel
      else (g, none)

/-- The group past its instruction: at `jump`, a taken transfer, or at the back edge or the next word. -/
def Group.past (g : Group) (clk gen : Nat) (jump : Option Addr) : Group :=
  let b := match jump with
    | some a => (g, a)
    | none => ((g.backEdge 4).1, (g.backEdge 4).2.getD (g.pc + 12))
  let sc := g.sched
  { b.1 with
    pc := b.2, acc := none, rel := none, held := none, replay := if g.level && g.acc.isNone then g.replay else 0,
    sched := { sc with
      issued := sc.issued + 1, srcAt := none, fromRte := false, replayPc := if g.level then sc.replayPc else none,
      notBefore := max sc.notBefore (clk + 1 + (if jump.isSome then Config.transferDelay else 0)),
      prefetch := if jump.isSome then [] else sc.prefetch.filter (fun p => p.1 > sc.issued),
      codeGen := if jump.isSome then gen else sc.codeGen, drained := false } }

/-- The window moves on; SW drains it, unless it did so at the issue, and parks a group with results outstanding (R22, R81). -/
def Group.movedOn (g : Group) (sw drains : Bool) : Group :=
  let g := g.expire
  let g := if drains then g.drain else g
  if sw && g.outstanding && g.park == .running then { g with park := .sw } else g

/-- The instruction completes. -/
def State.finish (s : State) (gid : Nat) (g : Group) (h : Hdr) (jump : Option Addr) : State :=
  s.putGroup gid ((g.past (s.cclk (gidCid gid)) (s.core (gidCid gid)).igen jump).movedOn h.sch.sw (h.sch.sw && !g.sched.drained))

/-! Traps (R177-R183). -/

/-- CAUSE (R179). -/
def causeWord (t : TrapReq) : Word := wordOf (bool1 t.defer * 2 ^ 31 + bool1 t.impr * 2 ^ 30 + t.arg % 2 ^ 16 * 2 ^ 8 + t.code)

/-- The save area from offset 0x008 as written at entry (R178); every loop register whole, live or not, so that RTE restores it exactly
(R104, log 71). -/
def saveArea (g : Group) (t : TrapReq) : List Byte :=
  leBytes 8 t.resume ++ leBytes 4 (causeWord t).toNat ++ leBytes 4 g.exm.toNat ++ leBytes 4 g.replay.toNat ++ leBytes 4 g.flags.toNat ++
    leBytes 8 t.faddr ++ leBytes 4 t.flanes.toNat ++ leBytes 4 0 ++
    ((List.range 7).flatMap fun k => leBytes 4 (g.predMask k).toNat) ++ leBytes 4 g.xtimeout.toNat ++
    ((List.range 4).flatMap fun k => (List.range 6).flatMap fun f => leBytes 4 ((g.loop k).raw f).toNat) ++
    ((List.range 32).map fun l => g.cnt.getD l 0)

/-- LOOPHI (R178). -/
def loopHi (g : Group) : List Byte := (List.range 4).flatMap fun k => leBytes 2 (g.loop k).hi.toNat

/-- A double fault (R183): the group halts at level 1 and a colophon tells its second cause. -/
def State.doubleFault (s : State) (gid : Nat) (g : Group) (t : TrapReq) : State :=
  let cid := gidCid gid
  let d := cidDom cid
  let asid := s.asidOf g
  let info := cidSite cid + 256 * gidSlot gid
  let s := s.putGroup gid { g with park := .dead, level := true, acc := none, rel := none, held := none }
  s.emit d ⟨asid, 0, d, 4, colophonBody 0xFFFFFFFF 4 0 d info 0 (causeWord t).toNat, some gid, false⟩

/-- The level a group runs at when it is in no handler of the debug agent (R275, R366). -/
def State.basePriv (s : State) (gid : Nat) (g : Group) : Bool := isDcc (gidCid gid) && gidSlot gid == 0 && s.asidOf g == 0

/-- Lines of the save area that an access of the core still changes. -/
def State.saveBusy (s : State) (cid base : Nat) : Bool :=
  (List.range 16).any fun k => s.linePending cid (base / 64 + k) || (s.core cid).small.any fun m => m.pa / 64 == base / 64 + k

/-- The code of an access that the save area's bytes 0x000 to 0x0DF do not allow (R177, R182). -/
def State.areaCheck (s : State) (g : Group) (cid asid base : Nat) (k : AccKind) : Option Nat :=
  (List.range 28).findSome? fun i => s.targetCheck g cid asid (base + 8 * i) 8 k false true

/-- The second cause of a trap whose save area cannot be written: a precise one of its own (R179, R183). -/
def TrapReq.second (t : TrapReq) (c : Nat) : TrapReq := { t with code := c, arg := 0, impr := false, defer := false }

/-- Trap entry (R177): results land and the window drains, the control state is saved, and the handler is entered at level 1. A
save area whose page is absent, or awaits the release of a fault (R271), leaves the group parked in entry until TRAP_ENTRY. The entry
address becomes the pc as it stands, its low 48 bits: R18's misaligned fetch is not tested at entry (log 66). HANDLER is read whether
or not its line is poisoned (log 69). SW of the instruction that raised the trap parks the group at the handler (R22, R174). -/
def State.enterTrap (s : State) (gid : Nat) (t : TrapReq) : State :=
  match s.group gid with
  | none => s
  | some g =>
    let cid := gidCid gid
    let asid := s.asidOf g
    let g := g.landAndDrain
    let g := { g with trapcause := if g.level then g.trapcause else causeWord t }
    if g.level then s.doubleFault gid g t
    else
      let debug := ((s.ctx asid).map fun c => c.dbgctl.getLsbD 0).getD false && (t.code == 0x21 || t.code == 0x22 || t.code == 0x23)
      let tsa := g.tsa.toNat
      if s.faulting (cidDom cid) asid (pageOf tsa) then s.putGroup gid { g with park := .entry t 0 }
      else
      let (s, x) := s.translate cid asid (pageOf tsa) .write g.priv
      match x with
      | .absent => (s.putGroup gid { g with park := .entry t 0 }).pageFault (cidDom cid) cid asid (pageOf tsa) .write .ls
      | .fault c => s.doubleFault gid g (t.second c)
      | .ok pa _ _ _ =>
        let base := pa + tsa % 4096
        match s.areaCheck g cid asid base .write with
        | some c => s.doubleFault gid g (t.second c)
        | none =>
          if s.saveBusy cid base then s.putGroup gid { g with park := .entry t 0 }
          else
            let (s, hb) := s.coreRead gid base 8
            let entry := if debug then ((s.ctx asid).map (·.dbgentry)).getD 0 else leVal hb
            let s := s.putGroup gid g
            let s := s.coreStore gid asid (base + 8) (saveArea g t)
            let s := match t.skid with
              | some k => s.coreStore gid asid (base + 0xD0) (leBytes 4 (min 255 k))
              | none => s
            let s := s.coreStore gid asid (base + 0xD4) (leBytes 4 0 ++ loopHi g)
            if entry = 0 then s.doubleFault gid g t
            else
              let sc := { g.sched with notBefore := s.cclk cid + Config.handlerDelay, prefetch := [], srcAt := none, fromRte := false,
                                                      drained := false, codeGen := (s.core cid).igen }
              s.putGroup gid { g with
                level := true, priv := debug || s.basePriv gid g, pc := BitVec.ofNat 48 entry, cnt := List.replicate 32 0,
                loops := g.loops.map fun l => { l with live := false, level := 0 },
                park := if t.sw && g.outstanding then .sw else .running, acc := none, rel := none, held := none, sched := sc }

/-- Take a trap (R177): the one way an instruction raises an exception. -/
def State.takeTrap (s : State) (gid : Nat) (t : TrapReq) : State := s.enterTrap gid t

/-- A precise trap at the instruction at pc (R179). -/
def State.trapHere (s : State) (gid : Nat) (g : Group) (code arg : Nat) : State :=
  (s.putGroup gid g).takeTrap gid { code := code, arg := arg, resume := g.pc.toNat }

/-- A precise trap that resumes at the next instruction (R179): the instruction completes first. -/
def State.trapNext (s : State) (gid : Nat) (g : Group) (h : Hdr) (code arg : Nat) : State :=
  let s := s.finish gid g h none
  match s.group gid with
  | some g' => s.takeTrap gid { code := code, arg := arg, resume := g'.pc.toNat, sw := h.sch.sw }
  | none => s

/-- The control state as read back from a save area or group record from offset 0x008 on, with LOOPHI (R178, R182). -/
def restoreFrom (g : Group) (b hi : List Byte) : Group :=
  let w := fun (o : Nat) => wordOf (leVal (slice b (o - 8) 4))
  let loops := (List.range 4).map fun k =>
    let f := fun (i : Nat) => w (0x50 + 24 * k + 4 * i)
    let l : LoopReg := { start := f 0, fin := f 1, count := f 2, index := f 3, rrb := (f 4).extractLsb' 26 6, base := (f 4).extractLsb' 16 10,
                         size := (f 4).extractLsb' 0 7, live := (f 5).getLsbD 31, pipe := (f 5).getLsbD 30,
                         level := ((f 5).extractLsb' 28 2).toNat, sm1 := (f 5).extractLsb' 8 3, stmask := (f 5).extractLsb' 0 8,
                         hi := BitVec.ofNat 14 (leVal (slice hi (2 * k) 2)) }
    l
  { g with
    exm := w 0x14, replay := w 0x18, flags := (w 0x1C).extractLsb' 0 7, preds := (List.range 7).map fun k => w (0x30 + 4 * k),
    xtimeout := w 0x4C, loops := loops, cnt := slice b (0xB0 - 8) 32 }

/-- Whether the fields RTE reads are well formed (R182). -/
def saveOk (b : List Byte) : Bool :=
  let resume := leVal (slice b 0 8)
  leVal (slice b 0xC 4) != 0 && resume % 4 == 0 && decide (resume < 2 ^ 48)

/-- The handler's fixed results still in flight at its return: those of registers land, with no flags, and those of predicates and
special registers give way to what is restored (R104, R182: log 72). -/
def Group.settled (g : Group) : Group :=
  { g with results := g.results.filterMap fun r =>
      if r.landed then some r
      else match r.dst with
        | .vec _ => some { r with flags := 0 }
        | .scal _ => some { r with flags := 0 }
        | _ => none }

/-- Return from a handler at level 1 (R182), also for DFACT (R366): `again` is what to do when the save area cannot be read yet,
`fail` when the return would double-fault. It counts as an issue of the group (R79), and SW parks the group that returns (R174). A DCC
group's mask stays lane 0 (R275). -/
def State.returnFrom (s : State) (gid : Nat) (g : Group) (sw : Bool) (again : State → State) (fail : State → Nat → Nat → State) : State :=
  let cid := gidCid gid
  let asid := s.asidOf g
  let tsa := g.tsa.toNat
  let (s, x) := s.translate cid asid (pageOf tsa) .read g.priv
  match x with
  | .absent => again (s.pageFault (cidDom cid) cid asid (pageOf tsa) .read .ls)
  | .fault c => fail s c 0
  | .ok pa _ _ _ =>
    let base := pa + tsa % 4096
    match s.areaCheck g cid asid base .read with
    | some c => fail s c 0
    | none =>
      if s.saveBusy cid base then again s
      else
        let (s, b) := s.coreRead gid (base + 8) 0xC8
        let (s, hi) := s.coreRead gid (base + 0xD8) 8
        if !saveOk b then fail s 0x02 2
        else
          let resume := leVal (slice b 0 8)
          let g := restoreFrom g.settled b hi
          let g := if isDcc cid then { g with exm := 1 } else g
          let sc := { g.sched with
            issued := g.sched.issued + 1, notBefore := s.cclk cid + Config.handlerDelay, prefetch := [], srcAt := none, fromRte := true,
            codeGen := (s.core cid).igen, drained := false,
            replayPc := if g.sched.replayPc == some resume then some resume else none }
          s.putGroup gid ({ g with
            level := false, priv := s.basePriv gid g, pc := BitVec.ofNat 48 resume, park := .running, acc := none, rel := none, held := none, sched := sc }.movedOn sw sw)

end Sys2Proof.Machine
end

