-- ==== Sys2Proof/Machine/Operands.lean ====
section
/-! DEFINITION. Operands: how a source becomes a value (R27-R33, R99), the window test (R75), and the one frame in which every lane
instruction of opcodes 0x10-0x63 reads, computes and writes (R39, R106-R108). -/

namespace Sys2Proof.Machine

/-- The operand type that ABS and NEG act on (R28): F32, packed pair, I32, U32. -/
inductive OpTy where
  | f32 | pack | s32 | u32
  deriving DecidableEq, Repr

/-- SUB (R28). -/
def subWord (s : Sub) (w : Word) : Word :=
  match s with
  | .whole => w
  | .lo => (w.extractLsb' 0 16).zeroExtend 32
  | .hi => (w.extractLsb' 16 16).zeroExtend 32
  | .lob => w.extractLsb' 0 16 ++ w.extractLsb' 0 16

/-- ABS, then NEG (R28). -/
def modWord (t : OpTy) (abs neg : Bool) (w : Word) : Word :=
  match t with
  | .f32 =>
    let w := if abs then w &&& 0x7FFFFFFF else w
    if neg then w ^^^ 0x80000000 else w
  | .pack =>
    let w := if abs then w &&& 0x7FFF7FFF else w
    if neg then w ^^^ 0x80008000 else w
  | .s32 =>
    let w := if abs && w.msb then -w else w
    if neg then -w else w
  | .u32 => if neg then -w else w

/-- Source lane of the permutation (R33). -/
def permLane (p : Perm) (l : Nat) : Nat :=
  let S := 2 ^ (p.seg.toNat + 1)
  let base := l - l % S
  match p.cls with
  | .none => l
  | .rot => base + (l % S + p.dist.toNat) % S
  | .bfly => base + (l % S ^^^ p.dist.toNat)
  | .bcast => base + p.dist.toNat

/-- The physical register a source names, none for a special register. -/
def srcName (g : Group) (f : SFile) (r : Nat) : Option RegName :=
  match f with
  | .vec => some (.vec (g.rename r))
  | .scal => some (.scal r)
  | .spec => none

def dstName (g : Group) (f : DFile) (r : Nat) : RegName :=
  match f with
  | .vec => .vec (g.rename r)
  | .scal => .scal r
  | .pred => .pred r
  | .spec => .spec r

/-- The raw value of a source in every lane, before SUB, ABS and NEG. -/
def State.rawLanes (s : State) (gid : Nat) (g : Group) (f : SFile) (r : Nat) : Lanes :=
  match f with
  | .vec => g.readVec gid (g.rename r)
  | .scal => List.replicate 32 (g.readScal gid r)
  | .spec => (List.range 32).map fun l => s.special gid g r l

/-- A formed 32-bit source (R28): permutation, SUB, ABS, NEG. -/
def State.srcLanes (s : State) (gid : Nat) (g : Group) (t : OpTy) (x : Src) (p : Perm) : Lanes :=
  let raw := s.rawLanes gid g x.file x.reg.toNat
  (List.range 32).map fun l => modWord t x.abs x.neg (subWord x.sub (lane raw (permLane p l)))

def State.csrcLanes (s : State) (gid : Nat) (g : Group) (t : OpTy) (x : CSrc) : Lanes :=
  let raw := s.rawLanes gid g (if x.scal then .scal else .vec) x.reg.toNat
  (List.range 32).map fun l => modWord t x.abs x.neg (subWord x.sub (lane raw l))

/-- High halves of a 64-bit source: the odd register. -/
def State.hiLanes (s : State) (gid : Nat) (g : Group) (f : SFile) (r : Nat) : Lanes := s.rawLanes gid g f (r + 1)

/-- Which operands are 64-bit pairs. -/
structure Wide where
  d : Bool := false
  a : Bool := false
  b : Bool := false
  c : Bool := false
  deriving DecidableEq, Repr

/-- The types of A, B and C. -/
structure Types where
  a : OpTy
  b : OpTy
  c : OpTy
  deriving DecidableEq, Repr

def Types.all (t : OpTy) : Types := ⟨t, t, t⟩

/-- A lane instruction's formed operands, every lane: words, and the high words of pairs. -/
structure AluIn where
  a : Lanes
  b : Lanes
  c : Lanes
  aHi : Lanes
  bHi : Lanes
  cHi : Lanes
  deriving DecidableEq, Repr

def AluIn.aw (x : AluIn) (l : Nat) : DWord := dwordOf (lane x.a l) (lane x.aHi l)
def AluIn.bw (x : AluIn) (l : Nat) : DWord := dwordOf (lane x.b l) (lane x.bHi l)
def AluIn.cw (x : AluIn) (l : Nat) : DWord := dwordOf (lane x.c l) (lane x.cHi l)

/-- The rounding mode (R30, R31, R60). -/
def aluRm (o : Alu) : Rm :=
  match o.x with
  | .n _ _ rm => rm
  | _ => .rne

def aluPerm (o : Alu) : Perm :=
  match o.x with
  | .n _ p _ => p
  | _ => Perm.id

/-- The operands of a lane instruction (R28-R32). single: the immediate stands in place of A (R29). -/
def State.aluIn (s : State) (gid : Nat) (g : Group) (o : Alu) (t : Types) (w : Wide) (single signed : Bool) : AluIn :=
  let a := s.srcLanes gid g t.a o.a (aluPerm o)
  let aHi := if w.a then s.hiLanes gid g o.a.file o.a.reg.toNat else zeroLanes
  match o.x with
  | .n b _ _ =>
    { a := a, aHi := aHi, b := s.srcLanes gid g t.b b Perm.id,
      bHi := if w.b then s.hiLanes gid g b.file b.reg.toNat else zeroLanes, c := zeroLanes, cHi := zeroLanes }
  | .i imm =>
    let iv := List.replicate 32 imm
    let hi := List.replicate 32 (if signed && imm.msb then (0xFFFFFFFF : Word) else 0)
    if single then { a := iv, aHi := hi, b := zeroLanes, bHi := zeroLanes, c := zeroLanes, cHi := zeroLanes }
    else { a := a, aHi := aHi, b := iv, bHi := hi, c := zeroLanes, cHi := zeroLanes }
  | .c b c =>
    { a := a, aHi := aHi, b := s.srcLanes gid g t.b b Perm.id,
      bHi := if w.b then s.hiLanes gid g b.file b.reg.toNat else zeroLanes, c := s.csrcLanes gid g t.c c,
      cHi := if w.c then s.hiLanes gid g (if c.scal then .scal else .vec) c.reg.toNat else zeroLanes }

/-! The register names an instruction uses (R75, R80, R84, R99). -/

/-- A register source: its position A, B or C as 0, 1, 2, its name, whether it is a pair, its KILL bit, and which lane each
lane reads. -/
structure Use where
  pos : Nat
  file : SFile
  reg : Nat
  count : Nat
  kill : Bool
  perm : Perm
  deriving DecidableEq, Repr

def pairCount (wide : Bool) : Nat := if wide then 2 else 1

def srcUse (x : Src) (pos n : Nat) (p : Perm) : Use := ⟨pos, x.file, x.reg.toNat, n, x.kill, p⟩
def csrcUse (x : CSrc) (n : Nat) : Use := ⟨2, if x.scal then .scal else .vec, x.reg.toNat, n, x.kill, Perm.id⟩

/-- The sources a lane instruction reads; readsA and readsB say which of its fields name values (not predicates). -/
def aluUses (o : Alu) (w : Wide) (readsA readsB single : Bool) : List Use :=
  let a := if readsA then [srcUse o.a 0 (pairCount w.a) (aluPerm o)] else []
  match o.x with
  | .n b _ _ => a ++ (if readsB then [srcUse b 1 (pairCount w.b) Perm.id] else [])
  | .i _ => if single then [] else a
  | .c b c => a ++ [srcUse b 1 (pairCount w.b) Perm.id, csrcUse c (pairCount w.c)]

/-- Whether a run of n registers, named before renaming, lies in the window (R75). -/
def Group.inWindow (g : Group) (f : SFile) (r n : Nat) : Bool :=
  match f with
  | .vec => (List.range n).all fun i => decide (g.rename (r + i) < g.gsize)
  | .scal => decide (r + n ≤ g.ssize)
  | .spec => true

/-- A 64-bit vector operand with a half in the rotating region (R99); the four registers of a 128-bit one are each renamed. -/
def Group.pairFault (g : Group) (f : SFile) (r n : Nat) : Bool :=
  f == .vec && n == 2 && (List.range n).any fun i => g.rotates (r + i)

/-- The faults of register names, in the order loop fault, window fault: the trap's code and argument. -/
def Group.nameFault (g : Group) (us : List (SFile × Nat × Nat)) : Option (Nat × Nat) :=
  if us.any fun (f, r, n) => g.pairFault f r n then some (0x0B, (g.innerPipe).getD 0)
  else if us.all fun (f, r, n) => g.inWindow f r n then none
  else some (0x07, 0)

def Use.name (u : Use) : SFile × Nat × Nat := (u.file, u.reg, u.count)

/-- A destination as a name to test; predicates and special registers are never out of the window. -/
def dstUse (d : Dst) (n : Nat) : List (SFile × Nat × Nat) :=
  match d.file with
  | .vec => [(.vec, d.reg.toNat, n)]
  | .scal => [(.scal, d.reg.toNat, n)]
  | _ => []

/-- KILL on the sources, for the lanes the running lanes read (R80): aMask of a vector A, their own of the others. -/
def Group.killUses (g : Group) (run aMask : LaneMask) (us : List Use) : Group :=
  us.foldl (fun g u =>
    if u.kill then
      (List.range u.count).foldl (fun g i =>
        match srcName g u.file (u.reg + i) with
        | some (.vec r) => g.killLanes (.vec r) (if u.pos = 0 then aMask else run)
        | some n => g.killLanes n 1
        | none => g) g
    else g) g

/-- The entries of which these uses kill lanes, by what serves them now (R80). -/
def Group.killsOf (g : Group) (run aMask : LaneMask) (us : List Use) : Kills :=
  (g.results.zip (g.killUses run aMask us).results).filterMap fun (r, x) =>
    if x.kill &&& ~~~r.kill = 0 then none else some (r.num, r.dst, x.kill &&& ~~~r.kill)

/-- What a lane computes: low word, high word of a pair, flags. -/
structure LaneOut where
  w : Word
  hi : Word := 0
  fl : Flags := 0
  deriving DecidableEq, Repr

def outOf (x : Word × Flags) : LaneOut := ⟨x.1, 0, x.2⟩
def outOfWide (x : DWord × Flags) : LaneOut := ⟨loWord x.1, hiWord x.1, x.2⟩

/-- Latencies of the rows of R40, in cluster clocks. -/
def latAlu : Nat := 4
def latDot : Nat := 5
def latDiv : Nat := 30
def latSpecial : Nat := 12
def latCvt : Nat := 6
def latShuffle : Nat := 8
def latScan : Nat := 10
def latRng : Nat := 6
def latPred : Nat := 2
def latMov : Nat := 4

/-- OR of the flags of the running lanes (R67). -/
def orFlagsOf (run : LaneMask) (f : Nat → Flags) : Flags := (lanesOf run).foldl (fun a l => a ||| f l) 0

/-- Enter the result of a lane instruction: per lane, or once for a scalar destination (R39, R106). -/
def Group.writeAlu (g : Group) (d : Dst) (wide : Bool) (run : LaneMask) (due : Nat) (f : Nat → LaneOut) : Group :=
  let outs := (List.range 32).map fun l => if run.getLsbD l then f l else ⟨0, 0, 0⟩
  let at' := fun (l : Nat) => outs.getD l ⟨0, 0, 0⟩
  match d.file with
  | .scal =>
    let o := at' (((lanesOf run).head?).getD 0)
    let g := g.addResult due (.scal d.reg.toNat) 1 [o.w] o.fl
    if wide then g.addResult due (.scal (d.reg.toNat + 1)) 1 [o.hi] 0 else g
  | _ =>
    let fl := orFlagsOf run fun l => (at' l).fl
    let g := g.addResult due (dstName g d.file d.reg.toNat) run (outs.map (·.w)) fl
    if wide then g.addResult due (dstName g d.file (d.reg.toNat + 1)) run (outs.map (·.hi)) 0 else g

/-- How a lane instruction reads: pairs, which fields name values, whether the immediate stands for A, 64-bit immediates signed. -/
structure Shape where
  w : Wide := {}
  readsA : Bool := true
  readsB : Bool := true
  single : Bool := false
  signed : Bool := false
  /-- The lanes of A that lane l's result reads, where they are not those of the permutation (R139). -/
  aLanes : Option (AluIn → Nat → List Nat) := none

/-- The lanes of A that the running lanes read. -/
def Shape.aMask (sh : Shape) (o : Alu) (x : AluIn) (run : LaneMask) : LaneMask :=
  match sh.aLanes with
  | some f => maskOf fun j => (lanesOf run).any fun l => (f x l).contains j
  | none => maskOf fun j => (lanesOf run).any fun l => permLane (aluPerm o) l == j

/-- Act on the issuing group; without one, the fault of exec. -/
def State.withGroup (s : State) (f : Nat → Group → State) : Host.Outcome State Fault Refusal :=
  match s.group s.cur with
  | none => .fault .noIssuingGroup
  | some g => .next (f s.cur g)

/-- A lane instruction whose lanes run: its faults, or its result in flight. -/
def State.aluRun (s : State) (gid : Nat) (g : Group) (o : Alu) (sh : Shape) (lat : Nat) (run : LaneMask) (x : AluIn)
    (f : AluIn → Nat → LaneOut) : State :=
  let us := aluUses o sh.w sh.readsA sh.readsB sh.single
  match g.nameFault (us.map (·.name) ++ dstUse o.d (pairCount sh.w.d)) with
  | some (code, arg) => s.trapHere gid g code arg
  | none =>
    let g' := (g.killUses run (sh.aMask o x run) us).writeAlu o.d sh.w.d run (s.cclk (gidCid gid) + lat) (f x)
    s.finish gid g' o.hdr none

/-- The frame of every lane instruction: nothing where no lane runs, else aluRun over the operands at issue (R106). -/
def State.alu (s : State) (o : Alu) (sh : Shape) (t : Types) (lat : Nat) (f : AluIn → Nat → LaneOut) : Host.Outcome State Fault Refusal :=
  s.withGroup fun gid g =>
    let run := g.runMask o.hdr
    if run = 0 then s.finish gid g o.hdr none
    else s.aluRun gid g o sh lat run (s.aluIn gid g o t sh.w sh.single sh.signed) f

/-! Scalar operands of the other classes (R36). -/

/-- A scalar source's value. -/
def Group.scalar (g : Group) (gid : Nat) (x : Src) : Word := g.readScal gid x.reg.toNat
/-- A pair's value. -/
def Group.scalarPair (g : Group) (gid : Nat) (x : Src) : DWord := g.readPair gid x.reg.toNat
/-- A block of n scalars. -/
def Group.scalarBlock (g : Group) (gid : Nat) (x : Src) (n : Nat) : List Word := (List.range n).map fun i => g.readScal gid (x.reg.toNat + i)
/-- A scalar or a zero-extended short immediate. -/
def Group.bopWord (g : Group) (gid : Nat) (b : BOp) : Word :=
  match b with
  | .src x => g.scalar gid x
  | .imm v => v.zeroExtend 32
/-- The register a B operand names, if it names one. -/
def bopUse (b : BOp) (n : Nat) : List Use :=
  match b with
  | .src x => [srcUse x 1 n Perm.id]
  | .imm _ => []
/-- Whether these uses and a destination of n registers lie in the window; the group's own view (R75). -/
def Group.useFault (g : Group) (us : List Use) (d : List (SFile × Nat × Nat)) : Option (Nat × Nat) := g.nameFault (us.map (·.name) ++ d)

/-- An instruction executed once for the group if some lane runs it, whose register names are tested first: what the other
classes share. -/
def State.uniform (s : State) (gid : Nat) (g : Group) (h : Hdr) (us : List Use) (d : List (SFile × Nat × Nat)) (f : Group → State) : State :=
  if g.runMask h = 0 then s.finish gid g h none
  else
    match g.useFault us d with
    | some (code, arg) => s.trapHere gid g code arg
    | none => f (g.killUses (g.runMask h) (g.runMask h) us)

end Sys2Proof.Machine
end

