-- ==== Sys2Proof/Machine/Integer.lean ====
section
/-! DEFINITION. Integer, bit, address and move instructions, opcodes 0x10-0x2D (R109-R121, R102). -/

namespace Sys2Proof.Machine

abbrev Out := Host.Outcome State Fault Refusal

/-- A 32-bit lane operation on A and B with no flags. -/
def plain2 (f : Word → Word → Word) (x : AluIn) (l : Nat) : LaneOut := ⟨f (lane x.a l) (lane x.b l), 0, 0⟩
def plain3 (f : Word → Word → Word → Word) (x : AluIn) (l : Nat) : LaneOut := ⟨f (lane x.a l) (lane x.b l) (lane x.c l), 0, 0⟩
def plain1 (f : Word → Word) (x : AluIn) (l : Nat) : LaneOut := ⟨f (lane x.a l), 0, 0⟩

def tyOf (t : IntTy) : Types := Types.all (if tySigned t then .s32 else .u32)
def ty4Of (t : IntTy4) : Types := Types.all (if ty4Signed t then .s32 else .u32)
def ty4Wide (t : IntTy4) : Bool := t == .s64 || t == .u64
def wideAB (w : Bool) : Wide := { d := w, a := w, b := w }

/-- IADD and ISUB (R109): 32-bit or pairs. -/
def addSub (op : Int → Int → Int) (v : IntTy4) (o : Alu) (x : AluIn) (l : Nat) : LaneOut :=
  if ty4Wide v then outOfWide (laneInt2w op (ty4Signed v) (isSat o.d.clmp) (x.aw l) (x.bw l))
  else outOf (laneInt2 op (ty4Signed v) (isSat o.d.clmp) (lane x.a l) (lane x.b l))

def execIadd (v : IntTy4) (o : Alu) (s : State) : Out :=
  s.alu o { w := wideAB (ty4Wide v), signed := ty4Signed v } (ty4Of v) latAlu (addSub (· + ·) v o)
def execIsub (v : IntTy4) (o : Alu) (s : State) : Out :=
  s.alu o { w := wideAB (ty4Wide v), signed := ty4Signed v } (ty4Of v) latAlu (addSub (· - ·) v o)
def execImul (v : IntTy) (o : Alu) (s : State) : Out :=
  s.alu o {} (tyOf v) latAlu fun x l => outOf (laneInt2 (· * ·) (tySigned v) (isSat o.d.clmp) (lane x.a l) (lane x.b l))
def execImulhi (v : IntTy) (o : Alu) (s : State) : Out := s.alu o {} (tyOf v) latAlu (plain2 (laneImulhi v))

/-- IMAD (R109): for .wide, C and D are pairs. -/
def madOut (v : MadTy) (o : Alu) (x : AluIn) (l : Nat) : LaneOut :=
  match v with
  | .s32 => outOf (laneImad true (isSat o.d.clmp) (lane x.a l) (lane x.b l) (lane x.c l))
  | .u32 => outOf (laneImad false (isSat o.d.clmp) (lane x.a l) (lane x.b l) (lane x.c l))
  | .wideS => outOfWide (laneImadWide true (isSat o.d.clmp) (lane x.a l) (lane x.b l) (x.cw l))
  | .wideU => outOfWide (laneImadWide false (isSat o.d.clmp) (lane x.a l) (lane x.b l) (x.cw l))

def madWide (v : MadTy) : Bool := v == .wideS || v == .wideU
def madTypes (v : MadTy) : Types := Types.all (if v == .s32 || v == .wideS then .s32 else .u32)

def execImad (v : MadTy) (o : Alu) (s : State) : Out :=
  s.alu o { w := { d := madWide v, c := madWide v } } (madTypes v) latAlu (madOut v o)
def execImin (v : IntTy) (o : Alu) (s : State) : Out := s.alu o {} (tyOf v) latAlu (plain2 (laneImin v))
def execImax (v : IntTy) (o : Alu) (s : State) : Out := s.alu o {} (tyOf v) latAlu (plain2 (laneImax v))
def execIadif (v : IntTy) (o : Alu) (s : State) : Out := s.alu o {} (tyOf v) latAlu (plain2 (laneIadif v))

def execShl (v : ShiftV) (o : Alu) (s : State) : Out := s.alu o {} (Types.all .u32) latAlu (plain2 (laneShl v))
def execShr (v : ShiftV) (o : Alu) (s : State) : Out := s.alu o {} (Types.all .u32) latAlu (plain2 (laneShr v))
def execSar (v : ShiftV) (o : Alu) (s : State) : Out := s.alu o {} (Types.all .u32) latAlu (plain2 (laneSar v))
def execRol (_ : Only) (o : Alu) (s : State) : Out := s.alu o {} (Types.all .u32) latAlu (plain2 laneRol)
def execAnd (_ : Only) (o : Alu) (s : State) : Out := s.alu o {} (Types.all .u32) latAlu (plain2 (· &&& ·))
def execOr (_ : Only) (o : Alu) (s : State) : Out := s.alu o {} (Types.all .u32) latAlu (plain2 (· ||| ·))
def execXor (_ : Only) (o : Alu) (s : State) : Out := s.alu o {} (Types.all .u32) latAlu (plain2 (· ^^^ ·))
def execAndn (_ : Only) (o : Alu) (s : State) : Out := s.alu o {} (Types.all .u32) latAlu (plain2 fun a b => a &&& ~~~b)
def execBfe (v : ExtV) (o : Alu) (s : State) : Out := s.alu o {} (Types.all .u32) latAlu (plain2 (laneBfe v))
def execBfi (_ : Only) (o : Alu) (s : State) : Out := s.alu o {} (Types.all .u32) latAlu (plain3 laneBfi)

/-- The shape of a single-source instruction (R29). -/
def unary : Shape := { readsB := false, single := true }

def execPopc (_ : Only) (o : Alu) (s : State) : Out := s.alu o unary (Types.all .u32) latAlu (plain1 lanePopc)
def execClz (_ : Only) (o : Alu) (s : State) : Out := s.alu o unary (Types.all .u32) latAlu (plain1 laneClz)
def execBrev (_ : Only) (o : Alu) (s : State) : Out := s.alu o unary (Types.all .u32) latAlu (plain1 laneBrev)

/-- The operand type of a condition of R114; equality reads its sources as I32. -/
def icmpTypes (v : ICond) : Types :=
  Types.all (match v with
    | .ltU => .u32
    | .leU => .u32
    | .gtU => .u32
    | .geU => .u32
    | _ => .s32)

def execIcmp (v : ICond) (o : Alu) (s : State) : Out := s.alu o {} (icmpTypes v) latAlu (plain2 fun a b => boolWord (laneIcmp v a b))

/-- SEL (R115): the predicate as it stands at issue. -/
def execSel (v : SelV) (o : Alu) (s : State) : Out :=
  let m := ((s.group s.cur).map fun g => g.predMask v.k.toNat).getD 0
  s.alu o {} (Types.all .u32) latAlu fun x l => ⟨if m.getLsbD l != v.neg then lane x.a l else lane x.b l, 0, 0⟩

def execLea (v : LeaV) (o : Alu) (s : State) : Out :=
  s.alu o { w := { d := true, a := true } } (Types.all .u32) latAlu fun x l => outOfWide (laneLea v (x.aw l) (lane x.b l), 0)

def execMov (v : MovTy) (o : Alu) (s : State) : Out :=
  let w := v == .b64
  s.alu o { w := { d := w, a := w }, readsB := false, single := true } (Types.all .u32) latAlu fun x l => ⟨lane x.a l, lane x.aHi l, 0⟩

/-- MOVLS (R118). -/
def movlsOut (v : MovlsV) (run : LaneMask) (x : AluIn) (l : Nat) : LaneOut :=
  match v with
  | .get => ⟨lane x.a ((lane x.b l).toNat % 32), 0, 0⟩
  | .first => ⟨lane x.a (((lanesOf run).head?).getD 0), 0, 0⟩
  | .put => ⟨lane x.a l, 0, 0⟩

def movlsShape (v : MovlsV) (run : LaneMask) : Shape :=
  match v with
  | .get => { aLanes := some fun x l => [(lane x.b l).toNat % 32] }
  | .first => { readsB := false, aLanes := some fun _ _ => [((lanesOf run).head?).getD 0] }
  | .put => unary

def execMovls (v : MovlsV) (o : Alu) (s : State) : Out :=
  let run := ((s.group s.cur).map fun g => g.runMask o.hdr).getD 0
  s.alu o (movlsShape v run) (Types.all .u32) latShuffle (movlsOut v run)

def execMovsr (_ : Only) (o : Alu) (s : State) : Out := s.alu o { readsB := false } (Types.all .u32) latMov (plain1 id)

/-- The group as it will stand with every special write that is in flight (R102). -/
def Group.withPendingSpecials (g : Group) : Group :=
  (g.results.filter fun r => match r.dst with
    | .spec n => n != 0
    | _ => false).foldl (fun g r => match r.dst with
      | .spec n => g.landSpecial n r.vals
      | _ => g) g

/-- The check of a MOVRS that makes Lk live, on the loop registers as they will stand at t + 4: after its own back edge and every earlier
write (R98, R102). -/
def Group.liveFault (g : Group) (k : Nat) (w : Word) : Bool :=
  let g := (g.backEdge 4).1.withPendingSpecials
  let l := g.loop k
  w.getLsbD 31 && !l.live &&
    (decide (g.liveLoops.length ≥ 4) || decide (l.fin < l.start) ||
      (match g.innerLoop with
        | some i => decide ((g.loop i).fin < l.fin)
        | none => false) ||
      (w.getLsbD 30 && (l.base.toNat % 8 != 0 || l.size.toNat == 0 || decide (l.size.toNat > 64) || decide (l.base.toNat + l.size.toNat > 1024))))

/-- The scalar source or immediate of MOVRS and SETEXM. -/
def State.groupSource (_ : State) (gid : Nat) (g : Group) (o : Alu) : Word :=
  match o.x with
  | .i imm => imm
  | _ => subWord o.a.sub (g.readScal gid o.a.reg.toNat)

/-- Whether the register form of MOVRS or SETEXM names a scalar outside the window. -/
def Group.groupSourceBad (g : Group) (o : Alu) : Bool :=
  match o.x with
  | .i _ => false
  | _ => !g.inWindow o.a.file o.a.reg.toNat 1

/-- MOVRS (R119, R102): the write lands at t + 4; one to a stage register holds the next issue until then. -/
def execMovrs (_ : Only) (o : Alu) (s : State) : Out :=
  s.withGroup fun gid g =>
    let r := o.d.reg.toNat
    let w := s.groupSource gid g o
    let k := (r - 0x30) / 6
    let stage := 0x30 ≤ r && r ≤ 0x47 && (r - 0x30) % 6 == 5
    if g.runMask o.hdr = 0 then s.finish gid g o.hdr none
    else if g.groupSourceBad o then s.trapHere gid g 0x07 0
    else if stage && g.liveFault k w then s.trapHere gid g 0x0A k
    else
      let g := g.killUses 0 0 (aluUses o {} true false true)
      let t := s.cclk (gidCid gid) + latMov
      let g := g.addResult t (.spec r) 1 [w, (g.pc.extractLsb' 34 14).zeroExtend 32] 0
      let g := if stage then { g with sched := { g.sched with notBefore := max g.sched.notBefore t } } else g
      s.finish gid g o.hdr none

def execPrmt (_ : Only) (o : Alu) (s : State) : Out := s.alu o {} (Types.all .u32) latAlu (plain3 lanePrmt)
def execDp4 (v : Dp4V) (o : Alu) (s : State) : Out := s.alu o {} (Types.all .u32) latDot (plain3 (laneDp4 v))

end Sys2Proof.Machine
end

