-- ==== Sys2Proof/Machine/Control.lean ====
section
/-! DEFINITION. Control flow, divergence and hardware loops, opcodes 0x00-0x0E (R85-R105). -/

namespace Sys2Proof.Machine

/-- a + 12 × n, modulo 2^48 (R34). -/
def target (a : Addr) (n : Int) : Addr := a + BitVec.ofInt 48 (12 * n)

/-- The guard that never runs (R86). -/
def never (h : Hdr) : Bool := h.guard.neg && !h.guard.stage && h.guard.idx == 7

/-- A structured instruction: nothing when guarded never (R87). -/
def State.structured (s : State) (o : Ctl) (f : Nat → Group → State) : Out :=
  s.withGroup fun gid g => if never o.hdr then s.finish gid g o.hdr none else f gid g

/-- Whether some present lane's counter meets a condition. -/
def Group.anyPresent (g : Group) (p : Nat → Bool) : Bool := (List.range 32).any fun l => g.exm.getLsbD l && p (g.cntOf l)

/-- Complete, jumping to e when no present lane is left running. -/
def State.finishSkip (s : State) (gid : Nat) (g : Group) (h : Hdr) (e : Addr) : State :=
  s.finish gid g h (if g.anyZero then none else some e)

def execNop (o : Ctl) (s : State) : Out := s.withGroup fun gid g => s.finish gid g o.hdr none

/-- IF (R88). -/
def execIfi (o : Ctl) (s : State) : Out :=
  s.structured o fun gid g =>
    if g.anyPresent (· == 255) then s.trapHere gid g 0x09 0
    else
      s.finishSkip gid (g.setCnt fun l c => if c > 0 then c + 1 else if g.guardAt o.hdr.guard l then 0 else 1) o.hdr
        (target g.pc (ofsOf o.q))

/-- ELSE (R88). -/
def execElsei (o : Ctl) (s : State) : Out :=
  s.structured o fun gid g =>
    s.finishSkip gid (g.setCnt fun _ c => if c == 0 then 1 else if c == 1 then 0 else c) o.hdr (target g.pc (ofsOf o.q))

/-- ENDIF (R88). -/
def execEndif (o : Ctl) (s : State) : Out :=
  s.structured o fun gid g => s.finish gid (g.setCnt fun _ c => c - 1) o.hdr none

/-- BREAK, CONT and LOOP directly in a pipelined body (R101). -/
def Group.pipeFault (g : Group) : Bool :=
  (match g.innerLoop with
    | some k => (g.loop k).pipe
    | none => false) && g.anyZero

/-- LOOP (R89). -/
def execLoop (o : Ctl) (s : State) : Out :=
  s.structured o fun gid g =>
    if g.pipeFault then s.trapHere gid g 0x0B 0xFFFF
    else if g.anyPresent (· ≥ 254) then s.trapHere gid g 0x09 0
    else s.finishSkip gid (g.setCnt fun _ c => if c > 0 then c + 2 else 0) o.hdr (target g.pc (ofsOf o.q))

/-- ENDLOOP (R89). -/
def execEndloop (o : Ctl) (s : State) : Out :=
  s.structured o fun gid g =>
    let g1 := g.setCnt fun _ c => if c == 1 then 0 else c
    if g1.anyZero then s.finish gid g1 o.hdr (some (target g.pc (ofsOf o.q)))
    else s.finish gid (g1.setCnt fun _ c => if c == 2 then 0 else if c > 2 then c - 2 else c) o.hdr none

/-- BREAK and CONT (R90): the lanes that leave get a count. -/
def State.leave (s : State) (o : Ctl) (n : Nat) : Out :=
  s.withGroup fun gid g =>
    if never o.hdr then s.finish gid g o.hdr none
    else if g.pipeFault then s.trapHere gid g 0x0B 0xFFFF
    else s.finish gid (g.setCnt fun l c => if c == 0 && g.guardAt o.hdr.guard l then n else c) o.hdr none

def execBreaki (o : Ctl) (s : State) : Out := s.leave o (o.q.toNat % 256 + 2)
def execCont (o : Ctl) (s : State) : Out := s.leave o (o.q.toNat % 256 + 1)

/-! Hardware loops. -/

/-- The address of a loop's last instruction. -/
def LoopReg.endAt (l : LoopReg) : Addr := l.hi ++ l.fin ++ (0 : BitVec 2)

/-- The checks of R95 and R96. -/
def Group.hloopFault (g : Group) (k : Nat) (ofs : Int) (e : Addr) (n S : Nat) : Bool :=
  (g.loop k).live || g.liveLoops.length ≥ 4 || ofs ≤ 0 || e.extractLsb' 34 14 != g.pc.extractLsb' 34 14 ||
    (match g.innerLoop with
      | some i => decide ((g.loop i).endAt < e)
      | none => false) || n + S - 1 > 0xFFFFFFFF

/-- HLOOP and HLOOPP with S stages and a rotating region (R95, R96). -/
def State.hloopStart (s : State) (gid : Nat) (g : Group) (o : Ctl) (k S : Nat) (pipe : Bool) (base : BitVec 10) (size : Nat) : State :=
  if g.anyZero && (g.useFault (bopUse o.b 1) []).isSome then s.trapHere gid g 0x07 0
  else
    let n := (g.bopWord gid o.b).toNat
    let e := target g.pc (ofsOf o.q)
    let g' := if g.anyZero then g.killUses 0 0 (bopUse o.b 1) else g
    if g.hloopFault k (ofsOf o.q) e n S then s.trapHere gid g 0x0A k
    else if n = 0 || !g.anyZero then s.finish gid g' o.hdr (some (e + 12))
    else if g.anyPresent (· ≥ 254) then s.trapHere gid g 0x09 0
    else
      let level := g.liveLoops.length
      let l : LoopReg :=
        { start := pcWord (g.pc + 12), fin := pcWord e, count := wordOf (n + S - 1), index := 0, rrb := 0, base := base,
          size := BitVec.ofNat 7 size, live := true, pipe := pipe, level := level, sm1 := BitVec.ofNat 3 (S - 1), stmask := 1,
          hi := g.pc.extractLsb' 34 14 }
      s.finish gid ((g'.setCnt fun _ c => if c > 0 then c + 2 else 0).putLoop k l) o.hdr none

def execHloop (k : BitVec 2) (o : Ctl) (s : State) : Out :=
  s.structured o fun gid g => s.hloopStart gid g o k.toNat 1 false 0 0

/-- HLOOPP: D names S - 1 and SIZE - 1, A names BASE (R97). -/
def execHloopp (k : BitVec 2) (o : Ctl) (s : State) : Out :=
  s.structured o fun gid g =>
    s.hloopStart gid g o k.toNat ((o.d.reg.extractLsb' 6 3).toNat + 1) true o.a.reg ((o.d.reg.extractLsb' 0 6).toNat + 1)

/-- HLEXIT (R100). -/
def execHlexit (k : BitVec 2) (o : Ctl) (s : State) : Out :=
  s.withGroup fun gid g =>
    let L := g.loop k.toNat
    if g.runMask o.hdr = 0 then s.finish gid g o.hdr none
    else if !L.live then s.trapHere gid g 0x0B k.toNat
    else
      let m : Word := wordOf (L.sm1.toNat + 1)
      s.finish gid (g.putLoop k.toNat { L with count := if L.count ≤ m then L.count else m }) o.hdr none

/-! Jumps and calls (R92). -/

def execJmp (o : Ctl) (s : State) : Out :=
  s.withGroup fun gid g =>
    s.finish gid g o.hdr (if g.runMask o.hdr = 0 then none else some (target g.pc (ofsOf o.q)))

def execJmps (o : Ctl) (s : State) : Out :=
  s.withGroup fun gid g => s.uniform gid g o.hdr [srcUse o.a 0 1 Perm.id] [] fun g' =>
    s.finish gid g' o.hdr (some (target g.pc (ofsOf o.q + (g.scalar gid o.a).toInt)))

/-- CALL: the pair is seen by the next instruction (log 22). -/
def execCall (o : Ctl) (s : State) : Out :=
  s.withGroup fun gid g => s.uniform gid g o.hdr [] (dstUse o.d 2) fun g' =>
    if g.anyPresent (· != 0) then s.trapHere gid g 0x09 0
    else
      let ret := g.pc + 12
      let due := s.cclk (gidCid gid) + 1
      let g' := g'.addResult due (.scal o.d.reg.toNat) 1 [ret.extractLsb' 0 32] 0
      let g' := g'.addResult due (.scal (o.d.reg.toNat + 1)) 1 [(ret.extractLsb' 32 16).zeroExtend 32] 0
      s.finish gid g' o.hdr (some (target g.pc (ofsOf o.q)))

def execRet (o : Ctl) (s : State) : Out :=
  s.withGroup fun gid g => s.uniform gid g o.hdr [srcUse o.a 0 2 Perm.id] [] fun g' =>
    let p := g.scalarPair gid o.a
    if g.anyPresent (· != 0) then s.trapHere gid g 0x09 0
    else if p.extractLsb' 48 16 != 0 || p.extractLsb' 0 2 != 0 then s.trapHere gid g 0x03 0
    else s.finish gid g' o.hdr (some (p.extractLsb' 0 48))

end Sys2Proof.Machine
end

