-- ==== Sys2Proof/Machine/Float.lean ====
section
/-! DEFINITION. Floating-point values and formats (R50), exact arithmetic on them, the one rounding of R60 with its
flags (R62), and the clamps of R26. A finite value is held exactly as a signed integer times a power of two. -/

namespace Sys2Proof.Machine

/-- A floating-point value: the finite one is (-1)^neg * m * 2^e. -/
inductive FVal where
  | nan
  | inf (neg : Bool)
  | fin (neg : Bool) (m : Nat) (e : Int)
  deriving DecidableEq, Repr

/-- A binary format (R50): exponent and fraction widths; e4 marks F8E4, which has no infinities. -/
structure Fmt where
  ew : Nat
  fw : Nat
  e4 : Bool
  deriving DecidableEq, Repr

def fmtF32 : Fmt := ⟨8, 23, false⟩
def fmtF16 : Fmt := ⟨5, 10, false⟩
def fmtBF16 : Fmt := ⟨8, 7, false⟩
def fmtF8E4 : Fmt := ⟨4, 3, true⟩
def fmtF8E5 : Fmt := ⟨5, 2, false⟩

def Fmt.bias (f : Fmt) : Nat := 2 ^ (f.ew - 1) - 1
def Fmt.width (f : Fmt) : Nat := 1 + f.ew + f.fw
/-- The exponent field of infinities and NaNs. -/
def Fmt.eMax (f : Fmt) : Nat := 2 ^ f.ew - 1
/-- Exponent of the lowest fraction bit of subnormals and of the smallest normals. -/
def Fmt.qMin (f : Fmt) : Int := 1 - (f.bias : Int) - f.fw
/-- Significand and lowest exponent of the largest finite value. -/
def Fmt.maxM (f : Fmt) : Nat := if f.e4 then 2 ^ (f.fw + 1) - 2 else 2 ^ (f.fw + 1) - 1
def Fmt.maxQ (f : Fmt) : Int := (if f.e4 then (f.eMax : Int) else (f.eMax : Int) - 1) - f.bias - f.fw

/-- Canonical NaN (R61). -/
def Fmt.nan (f : Fmt) : Nat :=
  if f.e4 then 0x7F else f.eMax * 2 ^ f.fw + 2 ^ (f.fw - 1)
/-- Sign bit in place. -/
def Fmt.sign (f : Fmt) (neg : Bool) : Nat := if neg then 2 ^ (f.ew + f.fw) else 0
def Fmt.infBits (f : Fmt) (neg : Bool) : Nat := f.sign neg + f.eMax * 2 ^ f.fw
/-- The largest finite value with a sign. -/
def Fmt.maxBits (f : Fmt) (neg : Bool) : Nat :=
  f.sign neg + (if f.e4 then f.eMax * 2 ^ f.fw + (2 ^ f.fw - 2) else f.eMax * 2 ^ f.fw - 1)

/-- The value of a bit pattern (R50). -/
def decodeF (f : Fmt) (b : Nat) : FVal :=
  let neg := b / 2 ^ (f.ew + f.fw) % 2 == 1
  let ex := b / 2 ^ f.fw % 2 ^ f.ew
  let fr := b % 2 ^ f.fw
  if f.e4 && ex == f.eMax && fr == 2 ^ f.fw - 1 then .nan
  else if !f.e4 && ex == f.eMax then (if fr == 0 then .inf neg else .nan)
  else if ex == 0 then .fin neg fr f.qMin
  else .fin neg (2 ^ f.fw + fr) (f.qMin + (ex - 1 : Nat))

/-- Number of bits of a natural number. -/
def bitLen (n : Nat) : Nat := if n = 0 then 0 else Nat.log2 n + 1

/-- m * 2^e (and a little more when sticky) as a multiple of 2^q, rounded in the mode; true when inexact (R60). -/
def roundAt (rm : Rm) (neg sticky : Bool) (m : Nat) (e q : Int) : Nat × Bool :=
  if q ≤ e then
    let k := m * 2 ^ (e - q).toNat
    (if sticky && ((rm == .ru && !neg) || (rm == .rd && neg)) then k + 1 else k, sticky)
  else
    -- beyond the significand's width every shift gives the same quotient and rest below half a unit
    let s := min (q - e).toNat (bitLen m + 2)
    let k := m / 2 ^ s
    let rest := m % 2 ^ s
    let half := 2 ^ (s - 1)
    let inexact := rest != 0 || sticky
    let up :=
      match rm with
      | .rne => decide (half < rest) || (rest == half && (sticky || k % 2 == 1))
      | .rz => false
      | .rd => neg && inexact
      | .ru => !neg && inexact
    (if up then k + 1 else k, inexact)

/-- Bit pattern of k * 2^q with k below 2^(fw+1), or equal to it after a carry, and q at least qMin. -/
def packBits (f : Fmt) (neg : Bool) (k : Nat) (q : Int) : Nat :=
  -- a significand with the hidden bit adds one to the exponent field by itself
  f.sign neg + (q - f.qMin).toNat * 2 ^ f.fw + k

/-- One rounding of the exact value to the format (R60), with the flags of R62. sticky says that the value lies
strictly between m and m + 1 units of 2^e; m then has at least two bits more than the format's precision. -/
def roundF (f : Fmt) (rm : Rm) (neg sticky : Bool) (m : Nat) (e : Int) : Nat × Flags :=
  if m = 0 && !sticky then (f.sign neg, 0)
  else
    let lead : Int := e + (bitLen m : Int) - 1
    let qu : Int := lead - f.fw
    let q := max qu f.qMin
    let (k, inexact) := roundAt rm neg sticky m e q
    if q > f.maxQ || (q == f.maxQ && k > f.maxM) then
      if f.e4 then (f.maxBits neg, flOvf ||| flInx ||| flSat)
      else
        let toInf :=
          match rm with
          | .rne => true
          | .rz => false
          | .rd => neg
          | .ru => !neg
        (if toInf then f.infBits neg else f.maxBits neg, flOvf ||| flInx)
    else
      -- tininess after rounding with unbounded exponent
      let ku := (roundAt rm neg sticky m e qu).1
      let tiny := decide (qu < f.qMin) && !(qu + 1 == f.qMin && ku == 2 ^ (f.fw + 1))
      (packBits f neg k q, flagIf inexact flInx ||| flagIf (tiny && inexact) flUnf)

/-- A value to the format; NaN gives the canonical NaN with no flag. -/
def encodeF (f : Fmt) (rm : Rm) (v : FVal) : Nat × Flags :=
  match v with
  | .nan => (f.nan, 0)
  | .inf neg => if f.e4 then (f.maxBits neg, flSat) else (f.infBits neg, 0)
  | .fin neg m e => roundF f rm neg false m e

/-! Exact arithmetic. -/

def FVal.isNan (v : FVal) : Bool :=
  match v with
  | .nan => true
  | _ => false
def FVal.isZero (v : FVal) : Bool :=
  match v with
  | .fin _ 0 _ => true
  | _ => false
def FVal.isInf (v : FVal) : Bool :=
  match v with
  | .inf _ => true
  | _ => false
def FVal.neg (v : FVal) : FVal :=
  match v with
  | .nan => .nan
  | .inf n => .inf (!n)
  | .fin n m e => .fin (!n) m e
def FVal.abs (v : FVal) : FVal :=
  match v with
  | .nan => .nan
  | .inf _ => .inf false
  | .fin _ m e => .fin false m e
def FVal.sgn (v : FVal) : Bool :=
  match v with
  | .nan => false
  | .inf n => n
  | .fin n _ _ => n
def FVal.zero : FVal := .fin false 0 0
def FVal.one : FVal := .fin false 1 0
def FVal.ofInt (i : Int) : FVal := .fin (decide (i < 0)) i.natAbs 0
/-- v * 2^k. -/
def FVal.scale (v : FVal) (k : Int) : FVal :=
  match v with
  | .fin n m e => .fin n m (e + k)
  | w => w

/-- Signed significand of a finite value at a common exponent. -/
def sig (n : Bool) (m : Nat) (e q : Int) : Int :=
  let k : Int := (m * 2 ^ (e - q).toNat : Nat)
  if n then -k else k

/-- Exact sum; a zero sum of nonzero or opposite terms is +0, or -0 toward minus infinity (R122). -/
def exAdd (rm : Rm) (a b : FVal) : FVal :=
  match a, b with
  | .nan, _ => .nan
  | _, .nan => .nan
  | .inf n, .inf n' => if n == n' then .inf n else .nan
  | .inf n, _ => .inf n
  | _, .inf n => .inf n
  | .fin n m e, .fin n' m' e' =>
    if m = 0 && m' = 0 then (if n == n' then .fin n 0 0 else .fin (rm == .rd) 0 0)
    else
      let q := min e e'
      let v := sig n m e q + sig n' m' e' q
      if v = 0 then .fin (rm == .rd) 0 0 else .fin (decide (v < 0)) v.natAbs q

/-- Exact product; zero times infinity is NaN. -/
def exMul (a b : FVal) : FVal :=
  match a, b with
  | .nan, _ => .nan
  | _, .nan => .nan
  | .inf n, .inf n' => .inf (n != n')
  | .inf n, .fin n' m _ => if m = 0 then .nan else .inf (n != n')
  | .fin n m _, .inf n' => if m = 0 then .nan else .inf (n != n')
  | .fin n m e, .fin n' m' e' => .fin (n != n') (m * m') (e + e')

/-- Comparison of two numbers; neither is NaN. -/
def fLt (a b : FVal) : Bool :=
  match a, b with
  | .nan, _ => false
  | _, .nan => false
  | .inf n, .inf n' => n && !n'
  | .inf n, .fin _ _ _ => n
  | .fin _ _ _, .inf n => !n
  | .fin n m e, .fin n' m' e' => let q := min e e'; decide (sig n m e q < sig n' m' e' q)
/-- Equality with -0 = +0; neither is NaN. -/
def fEq (a b : FVal) : Bool := !a.isNan && !b.isNan && !fLt a b && !fLt b a

/-! Clamps and the common end of an operation. -/

/-- R26: the clamp on a rounded value of the format, and SAT if it changed the value. -/
def clampF (f : Fmt) (c : Clamp) (b : Nat) : Nat × Flags :=
  let v := decodeF f b
  let one (neg : Bool) : Nat := (encodeF f .rne (.fin neg 1 0)).1
  match c with
  | .none => (b, 0)
  | .unit =>
    if v.isNan || fLt v .zero then (0, flSat)
    else if fLt .one v then (one false, flSat) else (b, 0)
  | .sym =>
    if v.isNan then (0, flSat)
    else if fLt v (.fin true 1 0) then (one true, flSat)
    else if fLt .one v then (one false, flSat) else (b, 0)
  | .sat => if v.isInf then (f.maxBits v.sgn, flSat) else (b, 0)

/-- SCL as a signed power of two (R24). -/
def sclOf (s : BitVec 3) : Int := s.toInt

/-- Scale, round once, clamp (R26) an exact value. -/
def finishF (f : Fmt) (rm : Rm) (d : Dst) (v : FVal) : Nat × Flags :=
  let (b, fl) := encodeF f rm (v.scale (sclOf d.scl))
  let (b', fl') := clampF f d.clmp b
  (b', fl ||| fl')

/-- As finishF, where a NaN result is an invalid operation (R122); CLMP 01 and 10 make a NaN +0.0, by R26's table (log 105). -/
def finishInv (f : Fmt) (rm : Rm) (d : Dst) (v : FVal) : Nat × Flags :=
  let (b, fl) := finishF f rm d v
  (b, fl ||| flagIf v.isNan flInv)

/-- F32 as a lane value. -/
def f32 (w : Word) : FVal := decodeF fmtF32 w.toNat
/-- An F32 value rounded RNE with its flags dropped: the inner steps of R128. -/
def toF32 (v : FVal) : FVal := decodeF fmtF32 (encodeF fmtF32 .rne v).1

/-- The format of a variant of R122. -/
def fmtOf (t : FTy) : Fmt :=
  match t with
  | .f32 => fmtF32
  | .f16x2 => fmtF16
  | .bf16x2 => fmtBF16

/-- An element-wise operation on a word: whole for .f32, by halves for a packed variant, OR of the flags (R108). -/
def elementwise (t : FTy) (op : Nat → Nat → Nat → Nat × Flags) (a b c : Word) : Word × Flags :=
  match t with
  | .f32 =>
    let (r, fl) := op a.toNat b.toNat c.toNat
    (BitVec.ofNat 32 r, fl)
  | _ =>
    let (lo, fl) := op (a.toNat % 65536) (b.toNat % 65536) (c.toNat % 65536)
    let (hi, fl') := op (a.toNat / 65536) (b.toNat / 65536) (c.toNat / 65536)
    (BitVec.ofNat 32 (hi * 65536 + lo), fl ||| fl')

/-- FADD, FMUL, FFMA (R122). -/
def laneFadd (t : FTy) (rm : Rm) (d : Dst) (a b : Word) : Word × Flags :=
  elementwise t (fun x y _ => finishInv (fmtOf t) rm d (exAdd rm (decodeF (fmtOf t) x) (decodeF (fmtOf t) y))) a b 0
def laneFmul (t : FTy) (rm : Rm) (d : Dst) (a b : Word) : Word × Flags :=
  elementwise t (fun x y _ => finishInv (fmtOf t) rm d (exMul (decodeF (fmtOf t) x) (decodeF (fmtOf t) y))) a b 0
def laneFfma (t : FTy) (d : Dst) (a b c : Word) : Word × Flags :=
  elementwise t (fun x y z =>
    finishInv (fmtOf t) .rne d (exAdd .rne (exMul (decodeF (fmtOf t) x) (decodeF (fmtOf t) y)) (decodeF (fmtOf t) z))) a b c

/-- The smaller of two values with -0 below +0 (R123). -/
def minLt (a b : FVal) : Bool := fLt a b || (fEq a b && a.sgn && !b.sgn)
/-- FMIN and FMAX on bit patterns: no flag (R123). -/
def minmax (f : Fmt) (isMax : Bool) (x y : Nat) : Nat :=
  let a := decodeF f x
  let b := decodeF f y
  if a.isNan then (if b.isNan then f.nan else y)
  else if b.isNan then x
  else if isMax then (if minLt a b then y else x) else (if minLt b a then y else x)
def laneFminmax (t : FTy) (isMax : Bool) (d : Dst) (a b : Word) : Word × Flags :=
  elementwise t (fun x y _ => clampF (fmtOf t) d.clmp (minmax (fmtOf t) isMax x y)) a b 0

/-- FCMP (R124). -/
def laneFcmp (v : FCond) (a b : Word) : Bool :=
  let x := f32 a
  let y := f32 b
  let nan := x.isNan || y.isNan
  match v with
  | .eq => fEq x y
  | .ne => !fEq x y
  | .lt => fLt x y
  | .le => !nan && !fLt y x
  | .gt => fLt y x
  | .ge => !nan && !fLt x y
  | .num => !nan
  | .nan => nan

/-- A value rounded to an integral value in the mode, and whether that changed it (R64, R125). -/
def roundInt (rm : Rm) (v : FVal) : FVal × Bool :=
  match v with
  | .fin n m e =>
    let (k, inexact) := roundAt rm n false m e 0
    if e ≥ 0 then (v, false) else (.fin n k 0, inexact)
  | w => (w, false)

/-- FRND (R125). -/
def laneFrnd (t : FTy) (rm : Rm) (d : Dst) (a : Word) : Word × Flags :=
  elementwise t (fun x _ _ =>
    let v := decodeF (fmtOf t) x
    if v.isZero then clampF (fmtOf t) d.clmp x
    else clampF (fmtOf t) d.clmp (encodeF (fmtOf t) .rne (roundInt rm v).1).1) a 0 0

/-- FLDEXP (R125): B has been read as I32. -/
def laneFldexp (rm : Rm) (d : Dst) (a b : Word) : Word × Flags :=
  let (r, fl) := finishF fmtF32 rm d ((f32 a).scale b.toInt)
  (BitVec.ofNat 32 r, fl)

/-- Quotient of two finite nonzero values, to 2 bits beyond F32 precision and a sticky bit. -/
def exDivFinite (m : Nat) (e : Int) (m' : Nat) (e' : Int) : Nat × Int × Bool :=
  let s := 28 + bitLen m'
  let n := m * 2 ^ s
  (n / m', e - e' - s, n % m' != 0)

/-- Scale, round and clamp a value with a sticky bit. -/
def finishSticky (rm : Rm) (d : Dst) (neg sticky : Bool) (m : Nat) (e : Int) : Word × Flags :=
  let (b, fl) := roundF fmtF32 rm neg sticky m (e + sclOf d.scl)
  let (b', fl') := clampF fmtF32 d.clmp b
  (BitVec.ofNat 32 b', fl ||| fl')

/-- A special result that takes no rounding: the clamp still acts. -/
def finishSpecial (d : Dst) (b : Nat) (fl : Flags) : Word × Flags :=
  let (b', fl') := clampF fmtF32 d.clmp b
  (BitVec.ofNat 32 b', fl ||| fl')

/-- FDIV (R126). -/
def laneFdiv (rm : Rm) (d : Dst) (a b : Word) : Word × Flags :=
  match f32 a, f32 b with
  | .nan, _ => finishSpecial d fmtF32.nan 0
  | _, .nan => finishSpecial d fmtF32.nan 0
  | .inf _, .inf _ => finishSpecial d fmtF32.nan flInv
  | .inf n, .fin n' _ _ => finishSpecial d (fmtF32.infBits (n != n')) 0
  | .fin n _ _, .inf n' => finishSpecial d (fmtF32.sign (n != n')) 0
  | .fin n m e, .fin n' m' e' =>
    if m' = 0 then
      if m = 0 then finishSpecial d fmtF32.nan flInv else finishSpecial d (fmtF32.infBits (n != n')) flDbz
    else if m = 0 then finishSpecial d (fmtF32.sign (n != n')) 0
    else
      let (q, x, st) := exDivFinite m e m' e'
      finishSticky rm d (n != n') st q x

/-- Integer square root by digits, from bit k down. -/
def isqrtFrom (n : Nat) : Nat → Nat → Nat
  | 0, r => if (r + 1) * (r + 1) ≤ n then r + 1 else r
  | k + 1, r => isqrtFrom n k (if (r + 2 ^ (k + 1)) * (r + 2 ^ (k + 1)) ≤ n then r + 2 ^ (k + 1) else r)
def isqrt (n : Nat) : Nat := isqrtFrom n (bitLen n / 2) 0

/-- FSQRT (R126). -/
def laneFsqrt (rm : Rm) (d : Dst) (a : Word) : Word × Flags :=
  match f32 a with
  | .nan => finishSpecial d fmtF32.nan 0
  | .inf n => if n then finishSpecial d fmtF32.nan flInv else finishSpecial d (fmtF32.infBits false) 0
  | .fin n m e =>
    if m = 0 then finishSpecial d (fmtF32.sign n) 0
    else if n then finishSpecial d fmtF32.nan flInv
    else
      let s : Nat := 56 - bitLen m
      let s := if (e - s) % 2 = 0 then s else s + 1
      let v := m * 2 ^ s
      let r := isqrt v
      finishSticky rm d false (r * r != v) r ((e - s) / 2)

/-- One step of a sum of products (R69): F32(acc + p), INV when the result is NaN. -/
def mulAddStep (acc p : FVal) : FVal × Flags :=
  let v := exAdd .rne acc p
  let (b, fl) := encodeF fmtF32 .rne v
  (decodeF fmtF32 b, fl ||| flagIf v.isNan flInv)

/-- FDOT2 (R127, R70). -/
def laneFdot2 (t : DotTy) (d : Dst) (a b c : Word) : Word × Flags :=
  let f := if t == .f16 then fmtF16 else fmtBF16
  let h (w : Word) (k : Nat) : FVal := decodeF f (w.toNat / 65536 ^ k % 65536)
  let (s0, fl0) := mulAddStep (f32 c) (exMul (h a 0) (h b 0))
  let (s1, fl1) := mulAddStep s0 (exMul (h a 1) (h b 1))
  let (r, fl2) := clampF fmtF32 d.clmp (encodeF fmtF32 .rne s1).1
  (BitVec.ofNat 32 r, fl0 ||| fl1 ||| fl2)

end Sys2Proof.Machine
end

