-- ==== Sys2Proof/Machine/Convert.lean ====
section
/-! DEFINITION. Conversions between formats: CVT (R136), PACKQ and UNPKQ (R137, R138), the elements of a word or line
(R50-R52), the conversion of a random word to F32 (R144). -/

namespace Sys2Proof.Machine

/-- I4 code: sign-magnitude, 0b1000 reads as zero (R51). -/
def i4Val (c : Nat) : Int := let m : Int := (c % 8 : Nat); if c / 8 % 2 == 1 then -m else m
/-- The code of an integer -7 to 7; zero is 0b0000. -/
def i4Code (v : Int) : Nat := if v < 0 then 8 + v.natAbs % 8 else v.natAbs % 8
/-- Nibble i of a word. -/
def nibble (w : Word) (i : Nat) : Nat := w.toNat / 16 ^ i % 16

/-- Element j of the Q4X group with codes c0 to c3 (R52). -/
def q4xElem (c0 c1 c2 c3 j : Nat) : FVal :=
  if c0 = 8 then
    match j with
    | 0 => decodeF fmtF8E4 (c1 * 16 + c2)
    | 3 => FVal.ofInt (i4Val c3)
    | _ => .zero
  else FVal.ofInt (i4Val (match j with | 0 => c0 | 1 => c1 | 2 => c2 | _ => c3))

/-- The integer a finite value holds. -/
def fvInt (v : FVal) : Int :=
  match v with
  | .fin n m e => sig n m e 0
  | _ => 0

/-- R64: a value to an integer range, in the mode. -/
def toIntRange (rm : Rm) (lo hi : Int) (v : FVal) : Int × Flags :=
  match v with
  | .nan => (0, flInv)
  | .inf n => (if n then lo else hi, flInv ||| flSat)
  | .fin _ _ _ =>
    let (r, inexact) := roundInt rm v
    let i := fvInt r
    if i < lo then (lo, flInv ||| flSat) else if hi < i then (hi, flInv ||| flSat) else (i, flagIf inexact flInx)

/-- A floating-point destination of CVT: scale, round, clamp, in a format. -/
def cvtTo (f : Fmt) (rm : Rm) (d : Dst) (v : FVal) : Nat × Flags := finishF f rm d v
/-- Two results side by side, the second shifted by w bits. -/
def cvtPair (f : Fmt) (w : Nat) (rm : Rm) (d : Dst) (a b : Word) : Word × Flags :=
  let (lo, fl) := cvtTo f rm d (f32 a)
  let (hi, fl') := cvtTo f rm d (f32 b)
  (BitVec.ofNat 32 (hi * 2 ^ w + lo), fl ||| fl')
def cvtOne (rm : Rm) (d : Dst) (v : FVal) : Word × Flags :=
  let (r, fl) := cvtTo fmtF32 rm d v
  (BitVec.ofNat 32 r, fl)
/-- CVT to an integer format: SCL scales the exact input (R136). -/
def cvtInt (rm : Rm) (d : Dst) (lo hi : Int) (a : Word) : Int × Flags := toIntRange rm lo hi ((f32 a).scale (sclOf d.scl))

/-- CVT (R136). -/
def laneCvt (v : CvtV) (rm : Rm) (d : Dst) (a b : Word) : Word × Flags :=
  match v with
  | .f32s32 => cvtOne rm d (FVal.ofInt a.toInt)
  | .f32u32 => cvtOne rm d (FVal.ofInt a.toNat)
  | .s32f32 => let (i, fl) := cvtInt rm d (-(2 ^ 31 : Nat)) ((2 ^ 31 : Nat) - 1) a; (BitVec.ofInt 32 i, fl)
  | .u32f32 => let (i, fl) := cvtInt rm d 0 ((2 ^ 32 : Nat) - 1) a; (BitVec.ofInt 32 i, fl)
  | .f32f16 => cvtOne rm d (decodeF fmtF16 (a.toNat % 65536))
  | .f32bf16 => cvtOne rm d (decodeF fmtBF16 (a.toNat % 65536))
  | .f16x2 => cvtPair fmtF16 16 rm d a b
  | .bf16x2 => cvtPair fmtBF16 16 rm d a b
  | .f8e4x2 => cvtPair fmtF8E4 8 rm d a b
  | .f8e5x2 => cvtPair fmtF8E5 8 rm d a b
  | .f32f8e4 => cvtOne rm d (decodeF fmtF8E4 (byteOf a (b.toNat % 4)).toNat)
  | .f32f8e5 => cvtOne rm d (decodeF fmtF8E5 (byteOf a (b.toNat % 4)).toNat)
  | .s8f32 => let (i, fl) := cvtInt rm d (-128) 127 a; (BitVec.ofInt 32 i, fl)
  | .i4f32 => let (i, fl) := cvtInt rm d (-7) 7 a; (BitVec.ofNat 32 (i4Code i), fl)
  | .f32s8 => cvtOne rm d (FVal.ofInt (byteOf a (b.toNat % 4)).toInt)
  | .f32i4 => cvtOne rm d (FVal.ofInt (i4Val (nibble a (b.toNat % 8))))

/-- An ordinary code of R137 and its flags. -/
def ordCode (rm : Rm) (a : FVal) : Nat × Flags :=
  match a with
  | .nan => (0, flInv)
  | .inf n => (i4Code (if n then -7 else 7), flSat)
  | .fin _ _ _ =>
    let (r, inexact) := roundInt rm a
    let i := fvInt r
    let c : Int := if i < -7 then -7 else if 7 < i then 7 else i
    (i4Code c, flagIf (c != i) flSat ||| flagIf inexact flInx)

/-- The rounded element of R137 lies outside -7 to 7. -/
def beyond7 (rm : Rm) (a : FVal) : Bool :=
  match a with
  | .nan => false
  | .inf _ => true
  | .fin _ _ _ => 7 < (fvInt (roundInt rm a).1).natAbs
/-- A dropped element loses its value: it is NaN or does not round to zero. -/
def dropsValue (rm : Rm) (a : FVal) : Bool :=
  match a with
  | .nan => true
  | .inf _ => true
  | .fin _ _ _ => fvInt (roundInt rm a).1 != 0

/-- The four codes of a group as a 16-bit value (R137). -/
def packGroup (v : PackTy) (rm : Rm) (a0 a1 a2 a3 : FVal) : Nat × Flags :=
  let (c3, f3) := ordCode rm a3
  if v == .q4x && (a0.isNan || beyond7 rm a0) then
    let (e, fe) := encodeF fmtF8E4 rm a0
    (8 + e / 16 * 16 + e % 16 * 256 + c3 * 4096, fe ||| f3 ||| flagIf (dropsValue rm a1 || dropsValue rm a2) flSat)
  else
    let (c0, f0) := ordCode rm a0
    let (c1, f1) := ordCode rm a1
    let (c2, f2) := ordCode rm a2
    (c0 + c1 * 16 + c2 * 256 + c3 * 4096, f0 ||| f1 ||| f2 ||| f3)

/-- PACKQ over the eight values of an aligned run of lanes (R137). -/
def lanePackq (v : PackTy) (rm : Rm) (a : Nat → Word) : Word × Flags :=
  let (lo, fl) := packGroup v rm (f32 (a 0)) (f32 (a 1)) (f32 (a 2)) (f32 (a 3))
  let (hi, fl') := packGroup v rm (f32 (a 4)) (f32 (a 5)) (f32 (a 6)) (f32 (a 7))
  (BitVec.ofNat 32 (hi * 65536 + lo), fl ||| fl')

/-- UNPKQ (R138). -/
def laneUnpkq (v : PackTy) (d : Dst) (a b : Word) : Word × Flags :=
  let j := b.toNat % 8
  let g := j / 4 * 4
  let x :=
    match v with
    | .q4x => q4xElem (nibble a g) (nibble a (g + 1)) (nibble a (g + 2)) (nibble a (g + 3)) (j % 4)
    | .i4 => FVal.ofInt (i4Val (nibble a j))
  cvtOne .rne d x

/-- RNG.f32 (R144). -/
def rngF32 (bits : Word) : Word := BitVec.ofNat 32 (bitsOfRng bits)
where
  /-- (bits >> 8) * 2^-24 as an F32 pattern. -/
  bitsOfRng (bits : Word) : Nat := (encodeF fmtF32 .rne (.fin false (bits.toNat / 256) (-24))).1

/-! Elements of a described line (R50-R55). -/

/-- A format of R54; none is the undescribed code and every reserved one. -/
inductive LFmt where
  | none | f32 | f16 | bf16 | f8e4 | f8e5 | q4x | i4 | i8 | mask
  deriving DecidableEq, Repr

def fmtCode (c : Nat) : LFmt :=
  if c = 0x10 then .f32 else if c = 0x11 then .f16 else if c = 0x12 then .bf16
  else if c = 0x20 then .f8e4 else if c = 0x21 then .f8e5
  else if c = 0x30 then .q4x else if c = 0x31 then .i4 else if c = 0x38 then .i8
  else if c = 0x40 then .mask else .none
def descFmt (d : LineDesc) : LFmt := fmtCode (d.toNat % 256)
def descScale (d : LineDesc) : Nat := d.toNat / 256
/-- SCALE = 0xFF (R59). -/
def poisoned (d : LineDesc) : Bool := descScale d == 0xFF

/-- Little-endian value of n bytes of a list from byte i. -/
def leNat (bs : List Byte) (i n : Nat) : Nat :=
  ((bs.drop i).take n).foldr (fun b acc => b.toNat + 256 * acc) 0
/-- Elements per 64-byte line (R51, R158); an undescribed line holds sixteen F32, a mask line 512 presence bits. -/
def LFmt.count (f : LFmt) : Nat :=
  match f with
  | .none | .f32 => 16
  | .f16 | .bf16 => 32
  | .f8e4 | .f8e5 | .i8 => 64
  | .q4x | .i4 => 128
  | .mask => 512
/-- Code i of four bits in a line. -/
def lineNibble (bs : List Byte) (i : Nat) : Nat := leNat bs (i / 2) 1 / 16 ^ (i % 2) % 16
/-- Element i of a line in a format, before its scale (R50-R52). -/
def lineElem (f : LFmt) (bs : List Byte) (i : Nat) : FVal :=
  match f with
  | .none | .f32 => decodeF fmtF32 (leNat bs (4 * i) 4)
  | .f16 => decodeF fmtF16 (leNat bs (2 * i) 2)
  | .bf16 => decodeF fmtBF16 (leNat bs (2 * i) 2)
  | .f8e4 => decodeF fmtF8E4 (leNat bs i 1)
  | .f8e5 => decodeF fmtF8E5 (leNat bs i 1)
  | .i8 => FVal.ofInt (BitVec.ofNat 8 (leNat bs i 1)).toInt
  | .i4 => FVal.ofInt (i4Val (lineNibble bs i))
  | .q4x =>
    let g := i / 4 * 4
    q4xElem (lineNibble bs g) (lineNibble bs (g + 1)) (lineNibble bs (g + 2)) (lineNibble bs (g + 3)) (i % 4)
  | .mask => FVal.ofInt (leNat bs (i / 8) 1 / 2 ^ (i % 8) % 2)
/-- Scale of a described line; an undescribed line and a mask line have none (R55, R158). -/
def lineScale (d : LineDesc) : Int := if descFmt d == .none || descFmt d == .mask then 0 else (descScale d : Int) - 127

end Sys2Proof.Machine
end

