-- ==== Sys2Proof/Machine/SpecialFn.lean ====
section
/-! DEFINITION. The special functions RCP to TANH (R128-R135): each algorithm step by step, over exact values, with
every inner operation rounded to F32 RNE. -/

namespace Sys2Proof.Machine

/-- What an algorithm of R130-R135 ends with: an exact value for the final rounding (inx: it came from a polynomial or
refinement path), or a result that stops the algorithm with its flags. -/
inductive Fin32 where
  | final (v : FVal) (inx : Bool)
  | stop (bits : Nat) (fl : Flags)
  deriving DecidableEq, Repr

/-- FFMA, FMUL and FADD of R122 rounded RNE, no flag kept. -/
def ffma (a b c : FVal) : FVal := toF32 (exAdd .rne (exMul a b) c)
def fmul (a b : FVal) : FVal := toF32 (exMul a b)
def fadd (a b : FVal) : FVal := toF32 (exAdd .rne a b)
/-- bits(y) and float(n) of R128. -/
def bitsOf (v : FVal) : Nat := (encodeF fmtF32 .rne v).1
def floatOf (n : Nat) : FVal := decodeF fmtF32 (n % 2 ^ 32)
def half : FVal := .fin false 1 (-1)

/-- f in [1, 2) and E with |x| = f * 2^E, of a finite nonzero x. -/
def decompose (m : Nat) (e : Int) : FVal × Int :=
  (.fin false m (1 - (bitLen m : Int)), e + (bitLen m : Int) - 1)

/-- A polynomial by Horner's rule in F32 FFMA, highest coefficient first (R132-R135). -/
def horner (x : FVal) (acc : FVal) (cs : List Nat) : FVal := cs.foldl (fun p c => ffma p x (floatOf c)) acc

/-- R130. -/
def rcpCore (x : FVal) : Fin32 :=
  match x with
  | .nan => .stop fmtF32.nan 0
  | .inf n => .stop (fmtF32.sign n) 0
  | .fin n m e =>
    if m = 0 then .stop (fmtF32.infBits n) flDbz
    else
      let (f, ex) := decompose m e
      if fEq f .one then .final (.fin n 1 (-ex)) false
      else
        let y0 := floatOf (2 ^ 32 + 0x7EF311C3 - bitsOf f)
        let refine (y : FVal) : FVal := ffma y (ffma f.neg y .one) y
        let y := refine (refine y0)
        let err := ffma f.neg y .one
        let v := exAdd .rne (exMul y err) y
        .final ((if n then v.neg else v).scale (-ex)) true

/-- R131. -/
def rsqCore (x : FVal) : Fin32 :=
  match x with
  | .nan => .stop fmtF32.nan 0
  | .inf n => if n then .stop fmtF32.nan flInv else .stop 0 0
  | .fin n m e =>
    if m = 0 then .stop (fmtF32.infBits n) flDbz
    else if n then .stop fmtF32.nan flInv
    else
      let (f, ex) := decompose m e
      let even := ex % 2 == 0
      let mm := if even then f else f.scale 1
      let k := if even then ex / 2 else (ex - 1) / 2
      if fEq mm .one then .final (.fin false 1 (-k)) false
      else
        let y0 := floatOf (0x5F375A86 - bitsOf mm / 2)
        let h := mm.scale (-1)
        let u (y : FVal) : FVal := ffma h.neg (fmul y y) (.fin false 3 (-1))
        let refine (y : FVal) : FVal := fmul y (u y)
        let y := refine (refine y0)
        .final ((exMul y (u y)).scale (-k)) true

/-- R132. -/
def exp2Core (x : FVal) : Fin32 :=
  match x with
  | .nan => .stop fmtF32.nan 0
  | .inf n => if n then .stop 0 0 else .stop (fmtF32.infBits false) 0
  | .fin _ _ _ =>
    if !fLt x (FVal.ofInt 192) then .final (.fin false 1 192) false
    else if fLt x (FVal.ofInt (-192)) then .final (.fin false 1 (-192)) false
    else
      let n := (roundInt .rne x).1
      let f := exAdd .rne x n.neg
      let ni : Int :=
        match n with
        | .fin s m e => sig s m e 0
        | _ => 0
      let p := horner f (floatOf 0x39218688) [0x3AAEC3FF, 0x3C1D955B, 0x3D635847, 0x3E75FDF0, 0x3F317218]
      .final ((exAdd .rne (exMul p f) .one).scale ni) (!f.isZero)

/-- R133. -/
def log2Core (x : FVal) : Fin32 :=
  match x with
  | .nan => .stop fmtF32.nan 0
  | .inf n => if n then .stop fmtF32.nan flInv else .stop (fmtF32.infBits false) 0
  | .fin n m e =>
    if m = 0 then .stop (fmtF32.infBits true) flDbz
    else if n then .stop fmtF32.nan flInv
    else
      let (f, ex) := decompose m e
      let high := 0x3FB504F3 ≤ bitsOf f
      let mm := if high then f.scale (-1) else f
      let e' := if high then ex + 1 else ex
      let t := fadd mm FVal.one.neg
      let q := horner t (floatOf 0xBE38AA3B)
        [0x3E530B4C, 0xBE76384A, 0x3E93BB63, 0xBEB8AA3B, 0x3EF6384A, 0xBF38AA3B, 0x3FB8AA3B]
      .final (exAdd .rne (exMul t q) (FVal.ofInt e')) (!t.isZero)

/-- poly(w) of R134: the exact w * s. -/
def sinPoly (w : FVal) : Fin32 :=
  let z := fmul w w
  .final (exMul w (horner z (floatOf 0xBBF183AF) [0x3DA83C00, 0xBF19696E, 0x402335C0, 0xC0A55DE6, 0x40490FDB])) true

/-- x - 2 * round_to_even(x / 2), exact (R134). -/
def reduce2 (x : FVal) : FVal := exAdd .rne x ((roundInt .rne (x.scale (-1))).1.scale 1).neg

/-- SINPI (R134). -/
def sinpiCore (x : FVal) : Fin32 :=
  if x.isNan then .stop fmtF32.nan 0
  else if x.isInf then .stop fmtF32.nan flInv
  else
    let r := reduce2 x
    let r := if fLt half r then exAdd .rne .one r.neg
      else if fLt r half.neg then exAdd .rne FVal.one.neg r.neg else r
    if r.isZero then .stop (fmtF32.sign x.sgn) 0
    else if fEq r.abs half then .final (r.scale 1) false
    else sinPoly r

/-- COSPI (R134). -/
def cospiCore (x : FVal) : Fin32 :=
  if x.isNan then .stop fmtF32.nan 0
  else if x.isInf then .stop fmtF32.nan flInv
  else
    let a := (reduce2 x).abs
    if fEq a half then .stop 0 0
    else if a.isZero then .final .one false
    else if fEq a .one then .final FVal.one.neg false
    else
      let w := fadd half a.neg
      if fEq w.abs half then .final (w.scale 1) false else sinPoly w

/-- The F32 value an algorithm ends with, SCL 0 and no flags (R135). -/
def plainResult (r : Fin32) : FVal :=
  match r with
  | .final v _ => toF32 v
  | .stop b _ => decodeF fmtF32 b

/-- R135. -/
def tanhCore (x : FVal) : Fin32 :=
  match x with
  | .nan => .stop fmtF32.nan 0
  | .inf n => .stop (bitsOf (.fin n 1 0)) 0
  | .fin n m _ =>
    if m = 0 then .stop (fmtF32.sign n) 0
    else
      let a := x.abs
      if !fLt a (FVal.ofInt 10) then .final (.fin n 1 0) false
      else if fLt a half then
        let z := fmul x x
        let u := horner z (floatOf 0xBC1136EA) [0x3CB327BB, 0xBD5D0DC2, 0x3E088889, 0xBEAAAAAB]
        let g := fmul x z
        .final (exAdd .rne (exMul g u) x) true
      else
        let t := fmul a (floatOf 0x4038AA3B)
        let d := fadd (plainResult (exp2Core t)) .one
        let q := plainResult (rcpCore d)
        let v := exAdd .rne (q.scale 1).neg .one
        .final (if n then v.neg else v) true

/-- The final rounding of R128: scale, round RNE, clamp, and INX from a polynomial or refinement path. A value with which an algorithm stops is clamped and
not scaled (log 106). -/
def finishSpecialFn (d : Dst) (r : Fin32) : Word × Flags :=
  match r with
  | .stop b fl => finishSpecial d b fl
  | .final v inx =>
    let (b, fl) := finishF fmtF32 .rne d v
    (BitVec.ofNat 32 b, fl ||| flagIf inx flInx)

def laneRcp (d : Dst) (a : Word) : Word × Flags := finishSpecialFn d (rcpCore (f32 a))
def laneRsq (d : Dst) (a : Word) : Word × Flags := finishSpecialFn d (rsqCore (f32 a))
def laneExp2 (d : Dst) (a : Word) : Word × Flags := finishSpecialFn d (exp2Core (f32 a))
def laneLog2 (d : Dst) (a : Word) : Word × Flags := finishSpecialFn d (log2Core (f32 a))
def laneSinpi (d : Dst) (a : Word) : Word × Flags := finishSpecialFn d (sinpiCore (f32 a))
def laneCospi (d : Dst) (a : Word) : Word × Flags := finishSpecialFn d (cospiCore (f32 a))
def laneTanh (d : Dst) (a : Word) : Word × Flags := finishSpecialFn d (tanhCore (f32 a))

end Sys2Proof.Machine
end

