-- ==== Sys2Proof/Machine/Floating.lean ====
section
/-! DEFINITION. Floating point, special functions and conversions, opcodes 0x30-0x49 (R122-R138). -/

namespace Sys2Proof.Machine

def fTypes (t : FTy) : Types := Types.all (if t == .f32 then .f32 else .pack)

def execFadd (v : FTy) (o : Alu) (s : State) : Out :=
  s.alu o {} (fTypes v) latAlu fun x l => outOf (laneFadd v (aluRm o) o.d (lane x.a l) (lane x.b l))
def execFmul (v : FTy) (o : Alu) (s : State) : Out :=
  s.alu o {} (fTypes v) latAlu fun x l => outOf (laneFmul v (aluRm o) o.d (lane x.a l) (lane x.b l))
def execFfma (v : FTy) (o : Alu) (s : State) : Out :=
  s.alu o {} (fTypes v) latAlu fun x l => outOf (laneFfma v o.d (lane x.a l) (lane x.b l) (lane x.c l))
def execFmin (v : FTy) (o : Alu) (s : State) : Out :=
  s.alu o {} (fTypes v) latAlu fun x l => outOf (laneFminmax v false o.d (lane x.a l) (lane x.b l))
def execFmax (v : FTy) (o : Alu) (s : State) : Out :=
  s.alu o {} (fTypes v) latAlu fun x l => outOf (laneFminmax v true o.d (lane x.a l) (lane x.b l))
def execFcmp (v : FCond) (o : Alu) (s : State) : Out :=
  s.alu o {} (fTypes .f32) latAlu (plain2 fun a b => boolWord (laneFcmp v a b))
def execFrnd (v : FTy) (o : Alu) (s : State) : Out :=
  s.alu o unary (fTypes v) latAlu fun x l => outOf (laneFrnd v (aluRm o) o.d (lane x.a l))

/-- FLDEXP: A is F32, B is I32 (R125). -/
def execFldexp (_ : Only) (o : Alu) (s : State) : Out :=
  s.alu o {} ⟨.f32, .s32, .f32⟩ latAlu fun x l => outOf (laneFldexp (aluRm o) o.d (lane x.a l) (lane x.b l))
def execFdiv (_ : Only) (o : Alu) (s : State) : Out :=
  s.alu o {} (fTypes .f32) latDiv fun x l => outOf (laneFdiv (aluRm o) o.d (lane x.a l) (lane x.b l))
def execFsqrt (_ : Only) (o : Alu) (s : State) : Out :=
  s.alu o unary (fTypes .f32) latDiv fun x l => outOf (laneFsqrt (aluRm o) o.d (lane x.a l))

/-- FDOT2: A and B are packed pairs, C is F32 (R127). -/
def execFdot2 (v : DotTy) (o : Alu) (s : State) : Out :=
  s.alu o {} ⟨.pack, .pack, .f32⟩ latDot fun x l => outOf (laneFdot2 v o.d (lane x.a l) (lane x.b l) (lane x.c l))

/-- The frame of 0x40-0x46 (R128). -/
def State.special1 (s : State) (o : Alu) (f : Dst → Word → Word × Flags) : Out :=
  s.alu o unary (fTypes .f32) latSpecial fun x l => outOf (f o.d (lane x.a l))

def execRcp (_ : Only) (o : Alu) (s : State) : Out := s.special1 o laneRcp
def execRsq (_ : Only) (o : Alu) (s : State) : Out := s.special1 o laneRsq
def execExp2 (_ : Only) (o : Alu) (s : State) : Out := s.special1 o laneExp2
def execLog2 (_ : Only) (o : Alu) (s : State) : Out := s.special1 o laneLog2
def execSinpi (_ : Only) (o : Alu) (s : State) : Out := s.special1 o laneSinpi
def execCospi (_ : Only) (o : Alu) (s : State) : Out := s.special1 o laneCospi
def execTanh (_ : Only) (o : Alu) (s : State) : Out := s.special1 o laneTanh

/-- CVT's source types (R136): integers for 0x0 and 0x1, F32 for the variants that accept NEG and ABS. -/
def cvtTypes (v : CvtV) : Types :=
  match v with
  | .f32s32 => Types.all .s32
  | .f32u32 => Types.all .u32
  | _ => Types.all .f32

def execCvt (v : CvtV) (o : Alu) (s : State) : Out :=
  s.alu o { readsB := cvtReadsB v, single := !cvtReadsB v } (cvtTypes v) latCvt fun x l =>
    outOf (laneCvt v (aluRm o) o.d (lane x.a l) (lane x.b l))

/-- The first lane of the aligned run of eight that holds l (R137). -/
def octet (l : Nat) : Nat := l / 8 * 8

def execPackq (v : PackTy) (o : Alu) (s : State) : Out :=
  s.alu o { readsB := false, aLanes := some fun _ l => (List.range 8).map fun i => permLane (aluPerm o) (octet l + i) } (fTypes .f32) latCvt
    fun x l => outOf (lanePackq v (aluRm o) fun i => lane x.a (octet l + i))
def execUnpkq (v : PackTy) (o : Alu) (s : State) : Out :=
  s.alu o {} (Types.all .u32) latCvt fun x l => outOf (laneUnpkq v o.d (lane x.a l) (lane x.b l))

end Sys2Proof.Machine
end

