-- ==== Sys2Proof/Machine/Report.lean ====
section
/-! DEFINITION. The in-flight table (R370) and watchpoint reports (R372-R374). -/

namespace Sys2Proof.Machine

/-! The in-flight table. -/

/-- Take the first free entry; with none, the operation is only counted (R370). -/
def State.inflTake (s : State) (cid : Nat) (e : Infl) : State :=
  s.modCore cid fun c =>
    match c.inflt.findIdx? (·.isNone) with
    | some i => { c with inflt := c.inflt.set i (some e) }
    | none => { c with infltLost := min 0xFFFFFFFF (c.infltLost + 1) }

/-- Change the entry of an operation. -/
def State.inflMod (s : State) (cid op : Nat) (f : Infl → Option Infl) : State :=
  s.modCore cid fun c => { c with inflt := c.inflt.map fun x =>
    match x with
    | some e => if e.op == op then f e else x
    | none => none }

def State.inflFree (s : State) (cid op : Nat) : State := s.inflMod cid op fun _ => none
def State.inflState (s : State) (cid op st : Nat) : State := s.inflMod cid op fun e => some { e with state := st }

/-- The operation that a result belongs to: the copy that writes it, or its instruction, by its key in the in-flight table where it has one. -/
def VRes.operation (v : VRes) : Nat := if v.writer != 0 then v.writer else if v.infl = 0 then v.id else v.infl

/-! Watchpoints. -/

/-- First watched line, number of lines and byte mask of a watchpoint's register (R372). -/
def watchVa (w : Watch) : Nat := 64 * bits w.live.toNat 47 6
def watchLines (w : Watch) : Nat := bits w.live.toNat 56 51 + 1
def watchSlot (w : Watch) : Nat := bits w.live.toNat 62 57
def watchMask (w : Watch) (b : Nat) : Bool := w.live.getLsbD (64 + b)

/-- Byte offset of the first watched byte of `line` that a write changed. -/
def watchChange (w : Watch) (asid line : Nat) (old new : List Byte) : Option Nat :=
  if w.armed && w.asid == asid && w.line ≤ line && line < w.line + watchLines w then
    (List.range 64).find? fun b => watchMask w b && old.getD b 0 != new.getD b 0
  else none

/-- FADDR of a hit. -/
def watchFaddr (w : Watch) (line b : Nat) : Nat := watchVa w + 64 * (line - w.line) + b

/-- The watchpoints of a core that a write hits: number and FADDR. -/
def State.watchHits (s : State) (cid asid line : Nat) (old new : List Byte) : List (Nat × Nat) :=
  ((s.core cid).watch.zipIdx).filterMap fun (w, n) => (watchChange w asid line old new).map fun b => (n, watchFaddr w line b)

/-- The owning group of a watchpoint as it is now numbered, also while its team is away (R338, R372). -/
def State.watchOwner (s : State) (w : Watch) : Option Nat :=
  (s.groups.find? fun (gid, g) => gid % 2 ^ 32 == w.owner && s.asidOf g == w.asid).map (·.1)

/-- An imprecise report sets out (R374): the owner's issues after this clock are counted, and so are the issuing group's. -/
def State.watchSend (s : State) (cid n faddr engine : Nat) (by' : Option Nat) : State :=
  let issuedOf := fun (g : Nat) => ((s.group g).map fun x => x.sched.issued).getD 0
  let j : Job := .watchReport cid n faddr engine (((s.watchOwner ((s.core cid).watch.getD n {})).map issuedOf).getD 0) (by'.map fun g => (g, issuedOf g)) s.now
  { s with work := s.work ++ [⟨s.uid, s.arrivesAt s.uid j (s.now + min 64 (1 + Config.extraDelay s.uid)), j, none⟩], uid := s.uid + 1 }

/-- An issue in the clock in which a watched write is performed is not among those that follow the write (R374, R394). -/
def State.watchSkip (s : State) (gid : Nat) : State :=
  { s with work := s.work.map fun w =>
      match w.job with
      | .watchReport c n fa e since by' t =>
        if t = s.now then
          { w with job := .watchReport c n fa e (if s.watchOwner ((s.core c).watch.getD n {}) == some gid then since + 1 else since)
                     (by'.map fun (g, k) => (g, if g = gid then k + 1 else k)) t }
        else w
      | _ => w }

/-- A write of the core's copy engine (R373). Of the writes that one watchpoint reports at one clock the first is sent. -/
def State.watchCopy (s : State) (cid asid gid line : Nat) (old new : List Byte) : State :=
  (s.watchHits cid asid line old new).foldl (fun s (n, fa) =>
    let sent := s.work.any fun w => match w.job with
      | .watchReport c k _ 0x01 _ _ t => c == cid && k == n && t == s.now
      | _ => false
    if sent then s else s.watchSend cid n fa 0x01 (some gid)) s

/-- A write of a near-bank unit for the context (R373): every core's watchpoints. -/
def State.watchBank (s : State) (asid gid line : Nat) (old new : List Byte) : State :=
  s.cores.foldl (fun s (cid, _) =>
    (s.watchHits cid asid line old new).foldl (fun s (n, fa) =>
      s.watchSend cid n fa (0x80 + lineBank line) (if gidCid gid == cid then some gid else none)) s) s

/-- Whether the issuing group has run its 16 instructions past a watched write whose report travels (R374). -/
def State.watchHolds (s : State) (gid : Nat) (g : Group) : Bool :=
  s.work.any fun w =>
    match w.job with
    | .watchReport _ _ _ _ _ (some (x, n)) _ => x == gid && decide (n + 16 ≤ g.sched.issued)
    | _ => false

/-- A report becomes pending in its group, in its record as well while that is in the team's image: it is taken after dawn (R337, R374). -/
def State.pendWatch (s : State) (gid n faddr engine since : Nat) : State :=
  match s.group gid with
  | none => s
  | some g =>
    if g.pend.any (fun p => p.code == 0x22) then s
    else
      let s := s.putGroup gid { g with pend := g.pend ++ [⟨0x22, engine * 256 + n, faddr, since⟩] }
      match s.team g.team with
      | some t => if t.inImage then s.imageMod t (t.recordAt g.idx 0xD8) 8 (· ||| 2 ^ 0x22) else s
      | none => s

/-- WATCHPOINT_REPORT (R374): the report becomes pending in the owning group, unless the watchpoint was disarmed. -/
def execWatchpointReport (id : Nat) (s : State) : Host.Outcome State Fault Refusal :=
  .next (match s.findWork id with
    | some ⟨_, _, .watchReport cid n faddr engine since _ _, _⟩ =>
      let s := s.delWork id
      let w := (s.core cid).watch.getD n {}
      if !w.armed then s
      else
        match s.watchOwner w with
        | some gid => s.pendWatch gid n faddr engine since
        | none => s
    | _ => s)

end Sys2Proof.Machine
end

