-- ==== Sys2Proof/Machine/Exchange.lean ====
section
/-! DEFINITION. Lane exchange, votes, reductions, exchange between groups and random numbers, opcodes 0x50-0x55 (R139-R144,
R240-R243). -/

namespace Sys2Proof.Machine

/-! Exchange within the group. -/

/-- The lane that lane l of SHFL reads (R140). -/
def shflLane (v : ShflV) (l b : Nat) : Nat :=
  match v with
  | .idx => b % 32
  | .up => if b ≤ l then l - b else l
  | .down => if l + b ≤ 31 then l + b else l
  | .xor => l ^^^ b % 32

def execShfl (v : ShflV) (o : Alu) (s : State) : Out :=
  s.alu o { aLanes := some fun x l => [shflLane v l (lane x.b l).toNat] } (Types.all .u32) latShuffle
    fun x l => ⟨lane x.a (shflLane v l (lane x.b l).toNat), 0, 0⟩

/-- The lanes of the issuing group that would run an instruction. -/
def State.curRun (s : State) (h : Hdr) : LaneMask := ((s.group s.cur).map fun g => g.runMask h).getD 0

/-- VOTE's result over the running lanes (R141). -/
def voteOut (v : VoteV) (run : LaneMask) (a : Lanes) : Word :=
  let yes := (lanesOf run).filter fun l => lane a l != 0
  let n := (lanesOf run).length
  match v with
  | .any => boolWord (!yes.isEmpty)
  | .all => boolWord (yes.length == n)
  | .uni => boolWord (yes.isEmpty || yes.length == n)
  | .ballot => maskOf fun l => yes.contains l

/-- The lanes of A that the running lanes up to `last` read. -/
def runLanes (o : Alu) (run : LaneMask) (last : Nat) : List Nat := ((lanesOf run).filter (· ≤ last)).map (permLane (aluPerm o))

def execVote (v : VoteV) (o : Alu) (s : State) : Out :=
  let run := s.curRun o.hdr
  s.alu o { readsB := false, aLanes := some fun _ _ => runLanes o run 31 } (Types.all .u32) latShuffle
    fun x _ => ⟨voteOut v run x.a, 0, 0⟩

/-- One step of a reduction (R142). -/
def redStep (v : RedOp) (rm : Rm) (a b : Word) : Word × Flags :=
  match v with
  | .iadd => (a + b, 0)
  | .iminS => (laneImin .s32 a b, 0)
  | .imaxS => (laneImax .s32 a b, 0)
  | .iminU => (laneImin .u32 a b, 0)
  | .imaxU => (laneImax .u32 a b, 0)
  | .and => (a &&& b, 0)
  | .or => (a ||| b, 0)
  | .xor => (a ^^^ b, 0)
  | .fadd => laneFadd .f32 rm Dst.zero a b
  | .fmin => laneFminmax .f32 false Dst.zero a b
  | .fmax => laneFminmax .f32 true Dst.zero a b

/-- A over the listed lanes in order: the first one unrounded, then each step (R142). -/
def reduce (v : RedOp) (rm : Rm) (a : Lanes) : List Nat → LaneOut
  | [] => ⟨0, 0, 0⟩
  | l :: ls => outOf (ls.foldl (fun (acc : Word × Flags) m =>
      let r := redStep v rm acc.1 (lane a m)
      (r.1, acc.2 ||| r.2)) (lane a l, 0))

def execGred (v : RedOp) (o : Alu) (s : State) : Out :=
  let run := s.curRun o.hdr
  s.alu o { readsB := false, aLanes := some fun _ _ => runLanes o run 31 } (Types.all .u32) latShuffle
    fun x _ => reduce v (aluRm o) x.a (lanesOf run)

/-- The reduction of a scan and whether it leaves out the lane itself (R143). -/
def scanOp (v : ScanV) : RedOp × Bool :=
  match v with
  | .iadd => (.iadd, false)
  | .iaddEx => (.iadd, true)
  | .fadd => (.fadd, false)
  | .faddEx => (.fadd, true)
  | .imaxS => (.imaxS, false)
  | .iminS => (.iminS, false)
  | .imaxU => (.imaxU, false)
  | .iminU => (.iminU, false)
  | .and => (.and, false)
  | .or => (.or, false)
  | .xor => (.xor, false)
  | .fmax => (.fmax, false)
  | .fmin => (.fmin, false)

def execGscan (v : ScanV) (o : Alu) (s : State) : Out :=
  let run := s.curRun o.hdr
  let upTo := fun (l : Nat) => (lanesOf run).filter fun m => m < l || (m == l && !(scanOp v).2)
  s.alu o { readsB := false, aLanes := some fun _ l => runLanes o run l } (Types.all .u32) latScan
    fun x l => reduce (scanOp v).1 (aluRm o) x.a (upTo l)

/-- RNG (R144): the counter and the key are pairs. -/
def execRng (v : RngTy) (o : Alu) (s : State) : Out :=
  s.alu o { w := { a := true, b := true } } (Types.all .u32) latRng fun x l =>
    let r := rngBits (x.aw l) (x.bw l)
    ⟨if v == .f32 then rngF32 r else r, 0, 0⟩

/-! Exchange between groups (R240-R243). -/

/-- The group a partner word names, if it is well formed (R240). -/
def partnerOf (w : Word) : Option Nat :=
  let n := w.toNat
  if bits n 31 20 != 0 || bits n 13 6 > 143 then none else some (gidOf (cidOf (bits n 19 14) (bits n 13 6)) (bits n 5 0))

/-- What a group receives (R242). -/
def xshflTake (mine yours : LaneMask) (a b : Lanes) : Lanes :=
  (List.range 32).map fun l => if mine.getLsbD l then (if yours.getLsbD l then lane b l else lane a l) else 0

/-- A variable result whose values are known (R42, R43). -/
def freshVRes (id num : Nat) (kind : VKind) (dsts : List RegName) (lanes : LaneMask) (vals : List Lanes) (due : Nat) : VRes :=
  { id := id, num := num, kind := kind, own := true, writer := 0, dsts := dsts, lanes := lanes, ready := lanes, vals := vals, lflags := [],
    due := due, cl := false, acq := none, wts := 0, far := false, waits := [], fill := 0, quire := none, faddr := 0, infl := id }

/-- The sources of XSHFL. -/
def xshflUses (o : Alu) : List Use := aluUses o {} true true false

/-- KILL of an XSHFL takes effect when it is paired, on the entries that its issue read (R80): a group halted before that issues it again (R243). -/
def Group.xshflKill (g : Group) : Group := g.spend ((g.acc.map fun a => a.kills).getD [])

/-- When values from core `src` that would reach core `dst` at t arrive: not before those that set out on that way earlier (R383). -/
def State.shuffleTime (s : State) (src dst t : Nat) : Nat :=
  s.groups.foldl (fun t (x, g) => if gidCid x == dst then g.vres.foldl (fun t v => if v.source == some src then max t v.due else t) t else t) t

/-- Put the values that the partner's core sends in flight to a group and let it go on. -/
def State.xshflGive (s : State) (gid : Nat) (h : Hdr) (run : LaneMask) (dst key : Nat) (vals : Lanes) (src due : Nat) : State :=
  match s.group gid with
  | none => s
  | some g =>
    let v := { freshVRes s.uid g.sched.issued .xshfl [.vec dst] run [vals] (s.shuffleTime src (gidCid gid) due) with infl := key, source := some src }
    let s := { s with uid := s.uid + 1 }
    let s := if run = 0 then s.inflFree (gidCid gid) key else s
    s.finish gid { g.xshflKill with vres := if run = 0 then g.vres else g.vres ++ [v], park := .running, acc := none } h none

/-- The waiting offer of group h to gid, if it may still pair (R241). -/
def State.offerOf (s : State) (h gid asid : Nat) : Option (LaneMask × Lanes × Nat × Nat × Hdr) :=
  match s.group h with
  | none => none
  | some x =>
    match x.park with
    | .xshfl last p run vals dst key hdr =>
      if p == gid && s.asidOf x == asid && s.now ≤ last && !x.halted then some (run, vals, dst, key, hdr) else none
    | _ => none

def State.xshfl (s : State) (gid : Nat) (g : Group) (o : Alu) : State :=
  let run := g.runMask o.hdr
  let us := xshflUses o
  let bReg := match o.x with
    | .n b _ _ => b.reg.toNat
    | _ => 0
  if run = 0 then s.finish gid g o.hdr none
  else
    match g.nameFault (us.map (·.name) ++ dstUse o.d 1) with
    | some (code, arg) => s.trapHere gid g code arg
    | none =>
      match partnerOf (g.readScal gid bReg) with
      | none => s.trapHere gid g 0x05 0
      | some h =>
        if h == gid then s.trapHere gid g 0x05 0
        else
          let vals := g.readVec gid (g.rename o.a.reg.toNat)
          let dst := g.rename o.d.reg.toNat
          let ks := g.killsOf run run us
          let g' := { (if o.hdr.sch.sw then g.drainNow ks else g) with
            held := some (.xshfl .only o), acc := some { todo := 0, ea := [], vals := [], xl := [], walks := [], parked := false, kills := ks } }
          let key := s.uid
          let e : Infl :=
            { op := key, asid := s.asidOf g, kind := 5, slot := gidSlot gid, engine := 0, tag := 0, va := 0, lines := 0, remain := 0, state := 1 }
          let s := { s.inflTake (gidCid gid) e with uid := s.uid + 1 }
          match s.offerOf h gid (s.asidOf g) with
          | none => s.putGroup gid { g' with park := .xshfl (s.now + g.xtimeout.toNat) h run vals dst key o.hdr }
          | some (run2, vals2, dst2, key2, hdr2) =>
            let cid := gidCid gid
            let hid := gidCid h
            let t := transit (cidDom cid) (siteRouter (cidSite cid)) (cidDom hid) (siteRouter (cidSite hid))
            let due := s.now + 8 + 2 * t + Config.extraDelay s.uid
            let s := s.putGroup gid g'
            let s := s.xshflGive gid o.hdr run dst key (xshflTake run run2 vals vals2) hid due
            s.xshflGive h hdr2 run2 dst2 key2 (xshflTake run2 run vals2 vals) cid due

def execXshfl (_ : Only) (o : Alu) (s : State) : Out := s.withGroup fun gid g => s.xshfl gid g o

/-- XSHFL_TIMEOUT (R241): the wait of an unpaired group has expired. -/
def execXshflTimeout (gid : Nat) (s : State) : Out :=
  .next (match s.group gid with
    | none => s
    | some g =>
      match g.park with
      | .xshfl last _ _ _ _ key _ =>
        if last < s.now then (s.inflFree (gidCid gid) key).trapHere gid { g with park := .running } 0x0D 0 else s
      | _ => s)

end Sys2Proof.Machine
end

