-- ==== Sys2Proof/Machine/Coherence.lean ====
section
/-! DEFINITION. The steps of the L1, slice and directory protocol: fills, leases, writes and their acknowledgements, probes, atomics,
logical time and its wrap, the sizes of L1 and DSM (R155, R163, R186-R197, R244-R251, R308, R311-R316). -/

namespace Sys2Proof.Machine

/-! What waits for what. -/

/-- Whether an item before `id` meets a condition. -/
def State.jobBefore (s : State) (id : Nat) (p : Job → Bool) : Bool := (s.work.takeWhile fun w => w.id != id).any fun w => p w.job
def State.anyJob (s : State) (p : Job → Bool) : Bool := s.work.any fun w => p w.job

/-- An item of the core's that changes or fetches the line. -/
def Job.ofCoreLine (j : Job) (cid line : Nat) : Bool :=
  match j with
  | .write r => r.core == cid && r.line == line
  | .atomic a => a.core == cid && a.line == line
  | _ => false

/-- A kept small store of the core's waits for this line. -/
def State.fillBefore (s : State) (id cid line : Nat) : Bool :=
  s.jobBefore id fun j =>
    match j with
    | .fill c l _ _ _ => c == cid && l == line
    | .l1fill c l _ _ _ _ _ => c == cid && l == line
    | _ => false

/-- An earlier read of the line by the same group, or an exchange between the lanes of one SC atomic: strong reads of a location by one
agent are performed in program order (R303). -/
def State.ownReadBefore (s : State) (id gid line : Nat) : Bool :=
  s.jobBefore id fun j =>
    match j with
    | .read r => r.gid == gid && r.line == line
    | _ => false

/-- A read of the core's that L1 does not serve, of this line. -/
def State.readBefore (s : State) (id cid line : Nat) : Bool :=
  s.jobBefore id fun j =>
    match j with
    | .read r => r.core == cid && r.line == line
    | _ => false

/-- Data on its way to slice d (R314). -/
def State.supplied (s : State) (d line : Nat) : Bool :=
  s.anyJob fun j =>
    match j with
    | .readShared x l _ => x == d && l == line
    | .writePerm x l => x == d && l == line
    | .sliceFill x l _ _ => x == d && l == line
    | .forward l _ x _ _ => x == d && l == line
    | _ => false

/-- A transaction on the line stands open at its home (R314): a probe that it has sent to an owner, or an owner's data that comes to it, or a removal that
is acknowledged to it, or its own read of DRAM for a grant. -/
def State.homeBusy (s : State) (line : Nat) : Bool :=
  s.anyJob fun j =>
    match j with
    | .forward l _ _ _ _ => l == line
    | .recall l _ => l == line
    | .ownerWb l _ _ => l == line
    | .permRead _ l => l == line
    | .inval l _ w => l == line && w == lineHome l
    | .invAck l _ w => l == line && w == lineHome l
    | _ => false

/-- The home has answered slice d's request for the line: the answer is on its way, from it or from the owner that it asked. A probe waits for such an
answer, and is applied at once where the request itself has still to be served (R312, R314: log 99). -/
def State.replyTo (s : State) (d line : Nat) : Bool :=
  s.anyJob fun j =>
    match j with
    | .sliceFill x l _ _ => x == d && l == line
    | .forward l _ x _ _ => x == d && l == line && d != lineHome l
    | .permRead x l => x == d && l == line
    | _ => false

/-- Acknowledgements still due for the line, to whichever writer: an atomic at the home waits for all of them (R313). -/
def State.homeAcks (s : State) (line : Nat) : Bool :=
  s.anyJob fun j =>
    match j with
    | .inval l _ _ => l == line
    | .invAck l _ _ => l == line
    | _ => false

/-- A read that the slice of its own domain does not serve from a shared copy (R311). -/
def ReadReq.wide (r : ReadReq) : Bool := r.bypass || scopeNum r.scope ≥ 2

/-- A strong read of a page with W = 0, homed elsewhere, that makes an R copy in its own slice where that holds none (R316). -/
def ReadReq.replicates (r : ReadReq) : Bool := r.ro && r.str && lineHome r.line != cidDom r.core

/-- A read that its own slice does not serve, and no copy there will, has set out from its core: nothing there holds it (R311). -/
def State.readOut (s : State) (w : Work) (r : ReadReq) : Bool :=
  !lineIsFar r.line && (if lineIsDsm r.line then lineHome r.line != cidDom r.core else r.wide && !r.replicates && !s.servesOwn (cidDom r.core) r.line .wide) &&
    !(s.jobBefore w.id fun j => j.ofCoreLine r.core r.line) && !s.fillBefore w.id r.core r.line && !s.ownReadBefore w.id r.gid r.line

/-- An entry of the miss table of slice d (R247): a request of its own that needs DRAM or another domain, or one of another slice for which it reads
DRAM. -/
def State.missEntry (s : State) (d : Nat) (w : Work) : Bool :=
  match w.job with
  | .readShared x _ _ => x == d
  | .writePerm x _ => x == d
  | .permRead x l => x == d || lineHome l == d
  | .sliceFill x _ _ _ => x == d
  | .forward _ _ x _ _ => x == d
  | .recall l _ => lineHome l == d
  | .read r => cidDom r.core == d && s.readOut w r
  | _ => false

/-- Entries in use of slice d's miss table. -/
def State.misses (s : State) (d : Nat) : Nat := (s.work.filter (s.missEntry d)).length

/-- A read that needs an entry has one: the table holds 256, and those before it come first (R247). -/
def State.missRoom (s : State) (id d : Nat) : Bool := decide (((s.work.takeWhile fun w => w.id != id).filter (s.missEntry d)).length < 256)

def State.bankHop (d line d' : Nat) : Nat := transit d (bankSite (lineBank line)) d' (bankSite (lineBank line))
/-- DRAM's share of a latency for a request that is at its slice (R248): it reaches its channel after the 64 clk of the slice's miss (R392). -/
def State.dramTime (s : State) (line : Nat) : Nat :=
  150 + refreshWait (s.dom (lineHome line)) (lineChannel line) (s.now + 64)

/-- Ask for the line at slice d to read it (R311). -/
def State.askLine (s : State) (d line : Nat) (ro : Bool) : State :=
  if lineHome line == d && (s.owner line).isNone then s.addWork (s.dramTime line) (.sliceFill d line none .e)
  else s.addWork (State.bankHop d line (lineHome line) + 20) (.readShared d line ro)

/-- Ask for permission to write the line at slice d: at home a recall, invalidations or DRAM, else from the home (R311, R312);
what another domain's slice must lose first takes 20 clk (R264). -/
def State.askOwn (s : State) (d line : Nat) : State :=
  let h := lineHome line
  if h != d then s.addWork (State.bankHop d line h + 20) (.writePerm d line)
  else
    match s.owner line with
    | some o => s.addWork (State.bankHop h line o + 20) (.recall line o)
    | none =>
      if (s.dir line).isSome then (s.invalSharers line h 20).freeDir line
      else s.addWork (s.dramTime line) (.sliceFill d line none .e)

/-- Whether asking would do something new, and the slice's miss table of 256 entries has room: a request that finds it full waits. Write-backs
wait among the work in flight, which stands for the pool of buffers that always takes them (R247). -/
def State.canAsk (s : State) (d line : Nat) : Bool :=
  !s.supplied d line && (lineHome line != d || !s.homeBusy line) && decide (s.misses d < 256)

/-- Whether a write at slice d, which holds the line, would be stamped beyond 0xFFFF (R197); cid for a core's own time. -/
def State.stampPast (s : State) (d line : Nat) (cid : Option Nat) : Bool :=
  match s.sline d line with
  | some x =>
    let r := (s.stamps d x).2 + 1
    decide ((match cid with
      | some c => max (s.pts c) r
      | none => r) > 0xFFFF)
  | none => false

/-- Whether the write of a line that slice d gets first would be stamped beyond 0xFFFF, as the line enters it or then (R193, R197). -/
def State.writePast (s : State) (d line : Nat) (cid : Option Nat) : Bool :=
  if s.canWrite d line then s.stampPast d line cid
  else
    let held := ((s.sline d line).map fun x => (s.stamps d x).2 + 1).getD 0
    decide (max (s.dom d).wm held + 2 > 0xFFFF)

/-- Whether such a write waits for a wrap that is asked for and has not begun. -/
def State.stampHeld (s : State) (d line : Nat) (cid : Option Nat) : Bool :=
  s.stampPast d line cid && (s.dom d).wrapAsked && !(s.dom d).wrapping

/-- Whether a core's write at a slice carries the core's time (R195, R277). -/
def hasTime (cid d : Nat) : Bool := !isDcc cid && cidDom cid == d

/-! What VSMAX works on (R260, R263). -/

/-- n words in DSM from a physical address, as the banks hold them: a poisoned line reads zero (R257). -/
def State.bankWords (s : State) (pa n : Nat) : List Word × Bool :=
  let read := fun (a : Nat) =>
    match s.sline (lineHome (a / 64)) (a / 64) with
    | some x => if poisoned x.desc then ((0 : Word), true) else (wordOf (leVal (slice x.data (a % 64) 4)), false)
    | none => (0, false)
  let ws := (List.range n).map fun i => read (pa + 4 * i)
  (ws.map (·.1), ws.any (·.2))

/-- The words that VSMAX works on, for the test of a racing write (R260). -/
def State.bankSnap (s : State) (b : BankReq) : List Word :=
  if b.kind == .vsmax then (s.bankWords b.x b.n).1 ++ (s.bankWords b.y b.n).1 else []

/-- Writes that are none of another agent to the VSMAX operations that p accepts: what those compare with moves on, unless something else has
come between already; f notes the words written. -/
def State.bankResnap (before s : State) (p : BankReq → Bool) (f : BankReq → BankReq) : State :=
  let upd := fun (c : BankReq) =>
    if c.kind == .vsmax && p c then f { c with raced := c.raced || before.bankSnap c != c.snap, snap := s.bankSnap c } else c
  { s with work := s.work.map fun w =>
      match w.job with
      | .bank c => { w with job := .bank (upd c) }
      | .bankDone c fl far wts => { w with job := .bankDone (upd c) fl far wts }
      | _ => w }

/-- A write of the group's own, or a write-back of its core that its release waits for, is none of another agent to an operation (R260, R263). -/
def BankReq.owns (b : BankReq) (gid core : Nat) (back : Bool) : Bool := b.core == core && (if back then b.rel.isSome else b.gid == gid)

/-! Which items can be served. -/

/-- New fills and writes of the domain are held: a wrap is under way, or begins as soon as what is on its way has arrived (R197). -/
def State.slicesHeld (s : State) (d : Nat) : Bool := (s.dom d).wrapping || ((s.dom d).wrapAsked && (s.dom d).sweepEnd == 0)

/-- A line entering slice d would be stamped past 0xFFFF: outside a wrap it is held for one (R193, R197). -/
def State.entryPast (s : State) (d line : Nat) : Bool := (s.sline d line).isNone && decide ((s.dom d).wm + 1 > 0xFFFF) && !(s.dom d).wrapping

/-- Whether a read can be served now (R311): far memory and DSM always; a wide read at a slice with M, E or R, or at the home when no other domain owns
the line; another read at its own slice. -/
def State.readServed (s : State) (r : ReadReq) : Bool :=
  if lineIsFar r.line || lineIsDsm r.line then true
  else
    match s.sline (cidDom r.core) r.line with
    | some x => !r.wide || x.st != .s || ((s.owner r.line).isNone && !s.homeBusy r.line)
    | none => r.wide && !r.replicates && (s.owner r.line).isNone && !s.homeBusy r.line

def State.readNeedsForward (s : State) (r : ReadReq) : Bool :=
  r.wide && !(r.replicates && (s.sline (cidDom r.core) r.line).isNone) && (s.owner r.line).isSome && !s.homeBusy r.line

/-- Whether the line's data and permission are at the home for an atomic (R252, R311). -/
def State.atomicPlace (s : State) (line : Nat) : Bool := lineIsFar line || (s.canWrite (lineHome line) line && !s.homeAcks line)

/-- Whether the ticket rules let an atomic be performed (R308). -/
def State.ticketOk (s : State) (a : AtomReq) : Bool := !a.sc || (a.ticket.isSome && a.ticket == s.wafer.ticketOut)

/-- An SC atomic of another instruction has been performed in some of its lanes of this line and not in all: nothing comes between them
(R165, R308). -/
def State.lineLocked (s : State) (op line : Nat) : Bool := s.wafer.scOpen.any fun (o, l) => o != op && l == line

/-- A write that its slice performs or asks permission for, not one that its release still holds. A wrap holds new fills and writes; the write-backs of
the wrap itself, which set out as it began, and those of other domains' cores go on (R197, R247). -/
def State.writeIn (s : State) (w : Work) (r : WriteReq) : Bool :=
  !s.slicesHeld r.dom || (r.kind == .writeBack && (cidDom r.core != r.dom || !(s.dom r.dom).wrapping || decide (w.id < (s.dom r.dom).wrapMark)))

/-- An atomic has reached its home: its release, its core's earlier accesses to the line and its ticket do not hold it, nor does a wrap, nor another SC
atomic that has begun on the line. -/
def State.atomicIn (s : State) (w : Work) (a : AtomReq) : Bool :=
  a.rel.isNone && (s.l1 a.core a.line).isNone && s.ticketOk a && !s.slicesHeld (lineHome a.line) && !s.lineLocked a.op a.line &&
    !s.stampHeld (lineHome a.line) a.line none && !(s.jobBefore w.id fun j => j.ofCoreLine a.core a.line) && !s.fillBefore w.id a.core a.line &&
    !s.readBefore w.id a.core a.line && !(s.anyJob fun j => match j with
      | .wack r _ _ => r.core == a.core && r.line == a.line
      | _ => false)

/-- A request for the line that reached its home before item w, and that only what goes on at the home holds there: the home serves them one at a time, in
the order in which they came (R314). -/
def State.arrivedBefore (s : State) (w : Work) (line : Nat) : Bool :=
  s.work.any fun v =>
    decide (v.due < w.due) && v.wait.isNone &&
      match v.job with
      | .readShared _ l _ => l == line
      | .writePerm _ l => l == line
      | .atomic a => a.line == line && !lineIsFar line && !lineIsDsm line && s.atomicIn v a
      | .read r => r.line == line && !lineIsDsm line && s.readOut v r
      | .write r => r.line == line && r.dom == lineHome line && r.rel.isNone && !lineIsFar line && !lineIsDsm line && s.writeIn v r &&
          !s.stampHeld r.dom line (if hasTime r.core r.dom then some r.core else none) && !(s.jobBefore v.id fun j => j.ofCoreLine r.core line) &&
          (r.kind == .writeBack || (!s.readBefore v.id r.core line && !s.fillBefore v.id r.core line))
      | _ => false

/-- Whether an item of the memory path can be served, its time having come. -/
def State.memReady (s : State) (w : Work) : Bool :=
  match w.job with
  | .fill cid line _ _ _ =>
    let d := sliceOf cid line
    !s.slicesHeld d && !(s.jobBefore w.id fun j => j.ofCoreLine cid line) && !s.readBefore w.id cid line &&
      !s.fillBefore w.id cid line && ((s.sline d line).isSome || s.canAsk d line)
  | .l1fill cid line _ _ _ _ _ => !s.fillBefore w.id cid line
  | .read r =>
    !(s.jobBefore w.id fun j => j.ofCoreLine r.core r.line) && !s.fillBefore w.id r.core r.line &&
      !s.ownReadBefore w.id r.gid r.line && !(s.readOut w r && ((!lineIsDsm r.line && s.arrivedBefore w r.line) || !s.missRoom w.id (cidDom r.core))) &&
      (s.readServed r || s.readNeedsForward r ||
        ((!r.wide || r.replicates) && (s.sline (cidDom r.core) r.line).isNone && s.canAsk (cidDom r.core) r.line))
  | .write r =>
    s.writeIn w r &&
      !(s.jobBefore w.id fun j => j.ofCoreLine r.core r.line) &&
      (r.kind == .writeBack || (!s.readBefore w.id r.core r.line && !s.fillBefore w.id r.core r.line)) &&
      (match r.rel with
        | some l => s.relCan r.gid r.core (some w.id) l
        | none =>
          lineIsFar r.line || (if s.canWrite r.dom r.line then !s.stampHeld r.dom r.line (if hasTime r.core r.dom then some r.core else none)
            else s.canAsk r.dom r.line && (r.kind == .writeBack || r.dom != lineHome r.line || !s.arrivedBefore w r.line)))
  | .wack _ _ _ => true
  | .atomic a =>
    !s.slicesHeld (lineHome a.line) && !s.lineLocked a.op a.line && !(s.jobBefore w.id fun j => j.ofCoreLine a.core a.line) &&
      !s.fillBefore w.id a.core a.line && !s.readBefore w.id a.core a.line &&
      (match a.rel with
        | some l => s.relCan a.gid a.core (some a.op) l
        | none =>
          !(s.anyJob fun j => match j with
            | .wack r _ _ => r.core == a.core && r.line == a.line
            | _ => false) &&
          (((s.l1 a.core a.line).isSome) || (s.ticketOk a && !s.arrivedBefore w a.line && !s.stampHeld (lineHome a.line) a.line none && (s.atomicPlace a.line || (!s.homeAcks a.line && s.canAsk (lineHome a.line) a.line)))))
  | .readShared _ line _ =>
    !s.homeBusy line && !s.arrivedBefore w line &&
      ((s.owner line).isSome || (s.sline (lineHome line) line).isSome || s.canAsk (lineHome line) line)
  | .writePerm _ line =>
    !s.homeBusy line && !s.arrivedBefore w line &&
      ((s.owner line).isSome || (s.sline (lineHome line) line).isSome || (!s.supplied (lineHome line) line && decide (s.misses (lineHome line) < 256)))
  | .permRead _ _ => true
  | .sliceFill d line _ _ => s.frameFor d line && (!s.entryPast d line || !(s.dom d).wrapAsked)
  | .inval line t _ => !s.replyTo t line
  | .invAck _ _ _ => true
  | .forward line o _ _ _ => !s.replyTo o line
  | .recall line o => !s.replyTo o line
  | .ownerWb line _ _ => !s.entryPast (lineHome line) line || !(s.dom (lineHome line)).wrapAsked
  | _ => false

/-- Serve item `id` by f when it can be served, its time having come; otherwise nothing happens. -/
def State.serve (s : State) (id : Nat) (ready : State → Work → Bool) (f : Work → State) : Out :=
  .next (match s.findWork id with
    | some w => if w.wait.isNone && ready s w && w.due ≤ s.now then f w else s
    | none => s)

/-! Loads. -/

/-- A load's value for the registers of one lane, with flags, from a line's image (R153, R157-R159). -/
def loadLane (img : LineImg) (o : Nat) (form : LoadForm) : List Word × Flags :=
  let ext := fun (bits : Nat) (signed : Bool) (v : Nat) =>
    if signed && v ≥ 2 ^ (bits - 1) then wordOf (v + 2 ^ 32 - 2 ^ bits) else wordOf v
  match form with
  | .desc => ([wordOf img.desc.toNat], 0)
  | .data sz =>
    let zero := poisoned img.desc
    let v := fun (k n : Nat) => if zero then 0 else leVal (slice img.data (o + k) n)
    let fl := flagIf zero flPsn
    match sz with
    | .u8 => ([wordOf (v 0 1)], fl)
    | .s8 => ([ext 8 true (v 0 1)], fl)
    | .u16 => ([wordOf (v 0 2)], fl)
    | .s16 => ([ext 16 true (v 0 2)], fl)
    | .b32 => ([wordOf (v 0 4)], fl)
    | .b64 => ([wordOf (v 0 4), wordOf (v 4 4)], fl)
    | .b128 => ([wordOf (v 0 4), wordOf (v 4 4), wordOf (v 8 4), wordOf (v 12 4)], fl)
  | .elem i =>
    if poisoned img.desc then ([0], flPsn)
    else
      let f := descFmt img.desc
      if i.toNat ≥ f.count then ([0], flInv)
      else
        let r := encodeF fmtF32 .rne ((lineElem f img.data i.toNat).scale (lineScale img.desc))
        ([wordOf r.1], r.2)

/-- Deliver lanes of result `op` of group gid: values, flags, and the time after which they land. The stamp of a bank of another domain is
not used (R196). -/
def State.deliver (s : State) (gid op : Nat) (vals : List (Nat × List Word × Flags)) (wts : Nat) (far : Bool) (due : Nat) : State :=
  s.modGroup gid fun g => { g with vres := g.vres.map fun v =>
    if v.id == op then
      { v with
        ready := v.ready ||| maskOf (fun l => vals.any fun (k, _, _) => k == l),
        vals := v.vals.mapIdx fun i old => (List.range 32).map fun l =>
          match vals.find? fun (k, _, _) => k == l with
          | some (_, ws, _) => ws.getD i 0
          | none => lane old l,
        lflags := (List.range 32).map fun l =>
          match vals.find? fun (k, _, _) => k == l with
          | some (_, _, fl) => fl
          | none => v.lflags.getD l 0,
        wts := if far then v.wts else max v.wts wts, far := v.far || far, due := max v.due due, waits := [] }
    else v }

/-- Lanes of a load from a line. -/
def loadLanes (img : LineImg) (rs : List LaneReq) : List (Nat × List Word × Flags) := rs.map fun r => (r.lane, loadLane img (r.pa % 64) r.form)

/-- A read that met poison is counted (R376). -/
def State.countPoison (s : State) (cid : Nat) (img : LineImg) : State :=
  if poisoned img.desc then s.modDom (cidDom cid) fun x => { x with errs := x.errs.set 6 (min 0xFFFFFFFF (x.errs.getD 6 0 + 1)) } else s

/-- Remember the stamps a strong load returned, for FENCE (R305). -/
def State.noteStrong (s : State) (gid : Nat) (scope : Scope) (wts : Nat) (far : Bool) : State :=
  s.modGroup gid fun g =>
    let k := scopeNum scope
    { g with acqWts := if far then g.acqWts else g.acqWts.set k (max (g.acqWts.getD k 0) wts), acqFar := g.acqFar.set k (g.acqFar.getD k false || far) }

/-! Steps of a core's requests. -/

/-- LEASE_GRANT (R194): the slice serves a fill, or asks for the line. -/
def State.leaseGrant (s : State) (id cid line asid : Nat) (ro : Bool) (cls : LineClass) : State :=
  let d := sliceOf cid line
  match s.sline d line with
  | none => (s.charge cid asid (s.crossing d line true)).askLine d line ro
  | some x =>
    let (wts, rts) := s.stamps d x
    let g := min 0xFFFF (max rts (s.pts cid + s.leaseOf asid))
    let s := (s.putSline d line { x with wts := wts, rts := g, epoch := (s.dom d).epoch })
    s.setWork id (State.toSlice cid line) (.l1fill cid line asid cls x.img wts g)

def execLeaseGrant (id : Nat) (s : State) : Out :=
  s.serve id State.memReady fun w =>
    match w.job with
    | .fill cid line asid ro cls => s.leaseGrant id cid line asid ro cls
    | _ => s

/-- The line after a merging fill: dirty words stand, the kept stores of this fill are applied (R189, R190). -/
def mergeFill (x : L1Line) (img : LineImg) (wts rts : Nat) (kept : List SmallStore) : L1Line :=
  let base := patchMask img.data x.dirtyBytes
  let data := kept.foldl (fun b m => patch b (m.pa % 64) m.bytes) base
  let dirty := kept.foldl (fun (d : BitVec 16) m => d ||| wholeWords (m.pa % 64 / 4 * 4) ((m.pa % 64 % 4 + m.bytes.length + 3) / 4 * 4)) x.dirty
  { x with data := data, valid := 0xFFFF, dirty := dirty, desc := img.desc, descValid := true, wts := wts, rts := rts,
           asid := ((kept.getLast?).map (·.asid)).getD x.asid }

/-- L1_FILL (R190, R194): the fill lands, the core's time moves on, the loads that waited complete: each sees the kept stores that were issued before it
(R154). A new line has the class of the latest access that waited for it (R155). -/
def State.l1FillLand (s : State) (id cid line asid : Nat) (cls : LineClass) (img : LineImg) (wts rts : Nat) : State :=
  let s := s.l1Room cid line
  let kept := (s.core cid).small.filter fun m => m.fill == id
  let old := (s.l1 cid line).getD (emptyL1 cls asid)
  let s := (s.putL1 cid line (mergeFill old img wts rts kept)).modCore cid fun c => { c with small := c.small.filter fun m => m.fill != id }
  let s := s.setPts cid (max (s.pts cid) wts)
  let seen := fun (upto : Nat) =>
    let x := mergeFill old img wts rts (kept.filter fun m => decide (m.num ≤ upto))
    (⟨x.data, x.desc⟩ : LineImg)
  let s := s.groups.foldl (fun s (gid, g) =>
    if gidCid gid == cid then
      g.vres.foldl (fun s v =>
        if v.fill == id && !v.waits.isEmpty then (s.countPoison cid (seen v.id)).deliver gid v.id (loadLanes (seen v.id) v.waits) wts false s.now else s) s
    else s) s
  s.delWork id

def execL1Fill (id : Nat) (s : State) : Out :=
  s.serve id State.memReady fun w =>
    match w.job with
    | .l1fill cid line asid cls img wts rts => s.l1FillLand id cid line asid cls img wts rts
    | _ => s

/-- The image a read is served from, with its wts and whether a bank of another domain served it (R155, R311); a line that no slice holds is read
from DRAM (R267). -/
def State.readImage (s : State) (r : ReadReq) : State × LineImg × Nat × Bool :=
  let d := cidDom r.core
  let h := lineHome r.line
  let other := h != d
  if lineIsFar r.line then (s, s.farLine r.line, 0, false)
  else
    match s.sline (sliceOf r.core r.line) r.line with
    | some x =>
      if lineIsDsm r.line then (s, x.img, (s.stamps h x).1, other)
      else if !r.wide || x.st != .s then (s, x.img, (s.stamps d x).1, false)
      else atHome h other
    | none => atHome h other
where
  atHome (h : Nat) (other : Bool) : State × LineImg × Nat × Bool :=
    match s.sline h r.line with
    | some x => (s, x.img, (s.stamps h x).1, other)
    | none => ((s.readDram r.line).1, (s.readDram r.line).2, 0, other)

/-- Whether a read that is served now goes to DRAM. -/
def State.readsDram (s : State) (r : ReadReq) : Bool :=
  !lineIsFar r.line && !lineIsDsm r.line && (s.sline (lineHome r.line) r.line).isNone && !s.servesOwn (cidDom r.core) r.line (if r.wide then .wide else .any)

/-- WAFER_SCOPE_READ: a read that L1 does not serve (R155, R311). What an owner sends to the home for it is counted (R354). -/
def State.serveRead (s : State) (id : Nat) (r : ReadReq) : State :=
  if s.readServed r then
    let late := if s.readsDram r then s.dramTime r.line else 0
    let (s, img, wts, far) := s.readImage r
    let img := s.overDirty r.core r.line img
    let s := s.useSline (if far then lineHome r.line else sliceOf r.core r.line) r.line
    let s := ((s.charge r.core r.asid (if far then 64 else 0)).countPoison r.core img).noteStrong r.gid r.scope wts far
    let back := if far then State.toHome r.core r.line else State.toSlice r.core r.line
    ((s.deliver r.gid r.op (loadLanes img r.lanes) wts far (s.now + late + back)).placeKept r.core id).delWork id
  else if s.readNeedsForward r then
    let h := lineHome r.line
    (s.charge r.core r.asid 64).addWork (State.bankHop h r.line ((s.owner r.line).getD 0) + 20) (.forward r.line ((s.owner r.line).getD 0) h true false)
  else (s.charge r.core r.asid (s.crossing (cidDom r.core) r.line true)).askLine (cidDom r.core) r.line r.ro

def execWaferScopeRead (id : Nat) (s : State) : Out :=
  s.serve id State.memReady fun w =>
    match w.job with
    | .read r => s.serveRead id r
    | _ => s

/-- The core's own slice learns of a release whose write goes to a bank of another domain (R195). -/
def State.releaseAbroad (s : State) (cid bank : Nat) (scope : Scope) : State :=
  if scope != .team && !isDcc cid && cidDom cid != bank then s.raiseW (cidDom cid) (s.pts cid) else s

/-- A write that a fence has made a release, about to go to the bank of domain d (R195). -/
def State.fencedAbroad (s : State) (gid cid d : Nat) : State :=
  if ((s.group gid).map (·.fenced)).getD false then s.releaseAbroad cid d .dom else s

/-- Words whose four bytes a write carries and that are still its newest. -/
def WriteReq.cleanWords (r : WriteReq) : BitVec 16 :=
  BitVec.ofNat 16 ((List.range 16).foldl (fun a w =>
    if (List.range 4).all fun i => (r.bytes.getD (4 * w + i) none).isSome && r.newest.getD (4 * w + i) false then a + 2 ^ w else a) 0)

/-- SLICE_WRITE (R195, R311): the release it carries first, then permission, then the write and its stamp. -/
def State.sliceWrite (s : State) (id : Nat) (r : WriteReq) : State :=
  match r.rel with
  | some l =>
    let (s, l') := s.relMove r.gid r.core (some id) (some id) l
    let s := if l'.isNone then s.releaseAbroad r.core r.dom r.scope else s
    if l'.isNone then s.enter id r.core r.asid 0 (.write { r with rel := none }) else s.setWork id 0 (.write { r with rel := l' })
  | none =>
    if lineIsFar r.line then
      ((maskRuns r.bytes).foldl (fun s (o, bs) => s.postWrite r.gid r.asid (farPort (64 * r.line)) (64 * r.line + o) bs) s).delWork id
    else if !s.canWrite r.dom r.line then (s.charge r.core r.asid (s.crossing r.dom r.line false)).askOwn r.dom r.line
    else if s.stampPast r.dom r.line (if hasTime r.core r.dom then some r.core else none) && !(s.dom r.dom).wrapping then s.startWrap r.dom
    else
      let s := s.charge r.core r.asid ((if r.kind == .writeBack then 64 else 0) + (if r.dom == cidDom r.core then 0 else 64))
      let back := State.toSlice r.core r.line
      let before := s
      let own := fun (b : BankReq) => b.owns r.gid r.core (r.kind == .writeBack)
      let id' := fun (b : BankReq) => b
      if hasTime r.core r.dom then
        let (s, w) := s.coreWrite r.core r.dom r.line r.asid r.bytes r.desc
        let rts := min 0xFFFF (w + s.leaseOf r.asid)
        let s := if r.kind == .writeBack then s else s.l1Wrote r r.cleanWords (min 0xFFFF w) rts
        State.bankResnap before (s.setWork id back (.wack r (min 0xFFFF w) rts)) own id'
      else State.bankResnap before ((((s.fencedAbroad r.gid r.core r.dom).bankWrite r.dom r.line r.bytes r.desc).noteWriter r.dom r.line r.core r.asid).setWork id back (.wack r 0 0)) own id'

def execSliceWrite (id : Nat) (s : State) : Out :=
  s.serve id State.memReady fun w =>
    match w.job with
    | .write r => s.sliceWrite id r
    | _ => s

/-- WRITE_BACK_ACK (R191, R195): the core's time moves on; the words of a write-back are clean and the line carries the grant. The L1 copy of a
strong store's line took the value and the grant when the slice performed it, with the core's own accesses behind it until now. -/
def State.writeAck (s : State) (id : Nat) (r : WriteReq) (stamp rts : Nat) : State :=
  let s := if isDcc r.core then s else s.setPts r.core (max (s.pts r.core) stamp)
  let s := match s.l1 r.core r.line with
    | none => s
    | some x =>
      if r.kind != WKind.writeBack then s
      else
        let x := { x with dirty := x.dirty &&& ~~~r.cleanWords }
        s.putL1 r.core r.line (if stamp = 0 then x else { x with wts := stamp, rts := rts })
  s.delWork id

def execWriteBackAck (id : Nat) (s : State) : Out :=
  s.serve id State.memReady fun w =>
    match w.job with
    | .wack r stamp rts => s.writeAck id r stamp rts
    | _ => s

/-! Steps of the slices and the directory. -/

/-- A line that has come lands at slice d by f; one that would enter stamped past 0xFFFF, a victim's stamps counted, waits for the wrap that it asks
for (R193, R197, R246). -/
def State.landAt (s : State) (id d line : Nat) (f : State → State) : State :=
  if (s.sline d line).isNone && ((f s).sline d line).isSome && (s.roomFor d line).entryPast d line then (s.roomFor d line).startWrap d else (f s).delWork id

/-- SLICE_FILL (R248, R193): a line whose stamp would pass 0xFFFF asks for the wrap first (R197). -/
def execSliceFill (id : Nat) (s : State) : Out :=
  s.serve id State.memReady fun w =>
    match w.job with
    | .sliceFill d line img st => s.landAt id d line fun s => s.landFill d line img st
    | _ => s

/-- READ_SHARED (R312): the owner is asked, or the home, which reads DRAM first where it holds nothing, sends data from its slice and notes the sharer,
for a read-only page none (R316). A read served to another slice is a use of the line (R246). -/
def State.readSharedAt (s : State) (id d line : Nat) (ro : Bool) : State :=
  let h := lineHome line
  match s.owner line with
  | some o => if o == d then s.delWork id else s.setWork id (State.bankHop h line o + 20) (.forward line o d true ro)
  | none =>
    if d == h then s.delWork id
    else
      match s.sline h line with
      | none => s.askLine h line ro
      | some x =>
        let s := s.useSline h line
        let s := if ro then s else (s.cleanHome line).addSharer line d
        s.setWork id (State.bankHop h line d) (.sliceFill d line (some x.img) (if ro then .r else .s))

def execReadShared (id : Nat) (s : State) : Out :=
  s.serve id State.memReady fun w =>
    match w.job with
    | .readShared d line ro => s.readSharedAt id d line ro
    | _ => s

/-- The home grants slice d the line with its data, and removes the other copies (R312). -/
def State.grantPerm (s : State) (id d line : Nat) (img : LineImg) : State :=
  let h := lineHome line
  let s := ((s.invalSharers line d 0).dropCopy h line).putDir line { owner := some d, sharers := [], used := s.now }
  s.setWork id (State.bankHop h line d) (.sliceFill d line (some img) .m)

/-- WRITE_PERMISSION (R312): grant with data and invalidations, or a forward to the owner. Where the home slice does not hold the line it reads DRAM
first, with an entry of its miss table (R247, R248). -/
def State.writePermAt (s : State) (id d line : Nat) : State :=
  let h := lineHome line
  match s.owner line with
  | some o => if o == d then s.delWork id else s.setWork id (State.bankHop h line o + 20) (.forward line o d false false)
  | none =>
    match s.sline h line with
    | some x => s.grantPerm id d line x.img
    | none =>
      s.setWork id (s.dramTime line) (.permRead d line)

/-- The data of DRAM has come, or a slice has got the line meanwhile. -/
def State.permReadDone (s : State) (id d line : Nat) : State :=
  if (s.owner line).isSome || (s.sline (lineHome line) line).isSome then s.writePermAt id d line
  else (s.readDram line).1.grantPerm id d line (s.readDram line).2

def execWritePermission (id : Nat) (s : State) : Out :=
  s.serve id State.memReady fun w =>
    match w.job with
    | .writePerm d line => s.writePermAt id d line
    | .permRead d line => s.permReadDone id d line
    | _ => s

/-- INVALIDATION (R312, R195): the copy is dropped, W raised, the writer acknowledged. The copy of a slice that has
become the owner since stands (log 110), and so does an R copy, which no directory entry names (R316). -/
def State.invalidate (s : State) (id line t writer : Nat) : State :=
  let drop : Bool := match s.sline t line with
    | some x => x.st == .s || x.st == .e
    | none => false
  (if drop then s.dropCopy t line else s).setWork id (State.bankHop t line writer) (.invAck line t writer)

def execInvalidation (id : Nat) (s : State) : Out :=
  s.serve id State.memReady fun w =>
    match w.job with
    | .inval line t writer => s.invalidate id line t writer
    | _ => s

/-- INVALIDATION_ACK (R313). -/
def execInvalidationAck (id : Nat) (s : State) : Out :=
  s.serve id State.memReady fun w =>
    match w.job with
    | .invAck _ _ _ => s.delWork id
    | _ => s

/-- The write-back of a former owner that the home has not taken yet: until then it answers forwards and recalls from its buffer (R314). -/
def State.buffered (s : State) (line o : Nat) : Option (Nat × LineImg) :=
  s.work.findSome? fun w =>
    match w.job with
    | .ownerWb l x img => if l == line && x == o then some (w.id, img) else none
    | _ => none

/-- The data that slice o gives to a probe as the line's owner, and the state after it: it keeps S or drops the line; out of the write-back
buffer the write-back itself is discarded, since its data is taken (R312, R314). -/
def State.ownerGives (s : State) (line o : Nat) (keep : Bool) : Option (State × LineImg × Bool) :=
  if s.owner line != some o then none
  else
    match s.sline o line with
    | some x => some (if keep then s.putSline o line { x with st := .s } else s.dropCopy o line, x.img, true)
    | none => (s.buffered line o).map fun (i, img) => (s.delWork i, img, false)

/-- FORWARD (R312, R314): the owner sends the data on, keeping S or dropping the line; a probe that finds another owner asks again. A reader of
a read-only page takes it as R, without an entry (R316). -/
def State.forwardAt (s : State) (id line o req : Nat) (keep ro : Bool) : State :=
  let h := lineHome line
  match s.ownerGives line o keep with
  | some (s, img, held) =>
    if keep then
      let share := (if held then [o] else []) ++ (if req == h || ro then [] else [req])
      let s := if share.isEmpty then s.freeDir line else s.putDir line { owner := none, sharers := share, used := s.now }
      if req == h then s.setWork id (State.bankHop o line h) (.ownerWb line o img)
      else (s.setWork id (State.bankHop o line req) (.sliceFill req line (some img) (if ro then .r else .s))).addWork (State.bankHop o line h) (.ownerWb line o img)
    else
      let s := s.putDir line { owner := some req, sharers := [], used := s.now }
      s.setWork id (State.bankHop o line req) (.sliceFill req line (some img) .m)
  | none =>
    if req == h then s.delWork id
    else if keep then s.setWork id (State.bankHop o line h) (.readShared req line ro)
    else s.setWork id (State.bankHop o line h) (.writePerm req line)

def execForward (id : Nat) (s : State) : Out :=
  s.serve id State.memReady fun w =>
    match w.job with
    | .forward line o req keep ro => s.forwardAt id line o req keep ro
    | _ => s

/-- RECALL (R312, R314): the owner's data goes to the home and the line is dropped. -/
def State.recallAt (s : State) (id line o : Nat) : State :=
  match s.ownerGives line o false with
  | some (s, img, _) => s.setWork id (State.bankHop o line (lineHome line)) (.ownerWb line o img)
  | none => s.delWork id

def execRecall (id : Nat) (s : State) : Out :=
  s.serve id State.memReady fun w =>
    match w.job with
    | .recall line o => s.recallAt id line o
    | _ => s

/-- OWNER_WRITE_BACK (R312, R314): a write-back from another slice marks its page (R274). -/
def execOwnerWriteBack (id : Nat) (s : State) : Out :=
  s.serve id State.memReady fun w =>
    match w.job with
    | .ownerWb line o img => s.landAt id (lineHome line) line fun s => (s.landOwnerWb line o img).markDirty line
    | _ => s

/-! Atomics (R162-R165). -/

/-- The new value of an operation of R162 and its flags, on 32 bits, or 64 where the operation says so. -/
def atomNew (o : AtomOp) (m b : DWord) : DWord × Flags :=
  let w := fun (x : Word) => (x.zeroExtend 64, (0 : Flags))
  let mw := loWord m
  let bw := loWord b
  let f := fun (r : Word × Flags) => (r.1.zeroExtend 64, r.2)
  match o with
  | .addU32 => w (mw + bw)
  | .minS32 => w (laneImin .s32 mw bw)
  | .maxS32 => w (laneImax .s32 mw bw)
  | .minU32 => w (laneImin .u32 mw bw)
  | .maxU32 => w (laneImax .u32 mw bw)
  | .and => w (mw &&& bw)
  | .or => w (mw ||| bw)
  | .xor => w (mw ^^^ bw)
  | .exch => w bw
  | .fadd => f (laneFadd .f32 .rne Dst.zero mw bw)
  | .fmin => f (laneFminmax .f32 false Dst.zero mw bw)
  | .fmax => f (laneFminmax .f32 true Dst.zero mw bw)
  | .addU64 => (m + b, 0)
  | .exchB64 => (b, 0)

def AtomKind.bytes : AtomKind → Nat
  | .op o => if o.regs == 2 then 8 else 4
  | .cas t => if t.regs == 2 then 8 else 4

/-- The word an atomic leaves, from the old value, the operand and for compare-and-swap the swap value (R163). -/
def atomStep (k : AtomKind) (m b d : DWord) : DWord × Flags :=
  match k with
  | .op o => atomNew o m b
  | .cas t => (if (if t.regs == 2 then m == b else loWord m == loWord b) then d else m, 0)

/-- Apply the lanes of one line in ascending order (R163, R165): the bytes, and each lane's old value and flags. -/
def atomApply (k : AtomKind) (psn : Bool) (data : List Byte) (ls : List AtomLane) : List Byte × List (Nat × List Word × Flags) :=
  ls.foldl (fun (acc : List Byte × List (Nat × List Word × Flags)) a =>
    let n := k.bytes
    let m : DWord := BitVec.ofNat 64 (if psn then 0 else leVal (slice acc.1 (a.pa % 64) n))
    let r := atomStep k m a.b a.d
    (patch acc.1 (a.pa % 64) (leBytes n r.1.toNat), acc.2 ++ [(a.lane, [loWord m, hiWord m], r.2 ||| flagIf psn flPsn)])) (data, [])

/-- The bytes of a line that an atomic writes. -/
def atomMask (k : AtomKind) (ls : List AtomLane) (data : List Byte) : ByteMask :=
  (List.range 64).map fun i => if ls.any fun a => a.pa % 64 ≤ i && i < a.pa % 64 + k.bytes then some (data.getD i 0) else none

/-- Whether other requests of the same instruction for the line are still to be performed. -/
def State.moreLanes (s : State) (a : AtomReq) : Bool :=
  decide ((s.work.filter fun w => match w.job with
    | .atomic b => b.op == a.op && b.line == a.line
    | _ => false).length > 1)

/-- A line of the instruction is performed with its last request: it leaves the lines that its entry counts (R370). -/
def State.atomRemain (s : State) (a : AtomReq) : State :=
  if s.moreLanes a then s
  else
    match (s.group a.gid).bind fun g => g.vres.find? (·.id == a.op) with
    | some v => if v.infl = 0 then s else s.inflMod a.core v.infl fun e => some { e with remain := e.remain - 1 }
    | none => s

/-- Whether other lanes of the same SC instruction in the line are still to be performed (R165). -/
def State.scPerformed (s : State) (a : AtomReq) : State :=
  if !a.sc then s
  else
    let more := s.moreLanes a
    let rest := s.wafer.scOpen.filter fun x => x != (a.op, a.line)
    s.putWafer { s.wafer with scOpen := if more then (a.op, a.line) :: rest else rest }

/-- Perform an atomic request at its place (R163, R195, R252): values to the lanes, the stamp to the core. RED reports no flag, and raises no poison
trap (R163: log 70). -/
def State.atomPerform (s : State) (id : Nat) (a : AtomReq) : State :=
  let h := lineHome a.line
  let reply : WriteReq :=
    { gid := a.gid, core := a.core, dom := h, line := a.line, asid := a.asid, kind := .strong, bytes := [], newest := [], desc := none, rel := none,
      scope := a.scope, drop := false }
  let back := State.toHome a.core a.line + 4
  if lineIsFar a.line then
    let img := s.farLine a.line
    let (data, outs) := atomApply a.kind false img.data a.lanes
    let s := (((s.settleFar a.line).farWrite (64 * a.line) data).scPerformed a).atomRemain a
    (s.deliver a.gid a.op outs 0 false (s.now + back)).setWork id back (.wack reply 0 0)
  else
    match s.sline h a.line with
    | none => s
    | some x =>
      let psn := poisoned x.desc
      let (data, outs) := atomApply a.kind psn x.data a.lanes
      let s := (s.charge a.core a.asid (if h == cidDom a.core then 0 else 64)).countPoison a.core x.img
      let before := s
      let s := State.bankResnap before ((s.fencedAbroad a.gid a.core h).bankWrite h a.line (atomMask a.kind a.lanes data) none)
        (fun b => b.owns a.gid a.core false) fun b => b
      let s := ((s.watchBank a.asid a.gid a.line x.data data).scPerformed a).atomRemain a
      let wts := match s.sline h a.line with
        | some y => y.wts
        | none => 0
      let s := s.noteStrong a.gid a.scope wts (cidDom a.core != h)
      (s.deliver a.gid a.op outs wts (cidDom a.core != h) (s.now + back)).setWork id back (.wack reply wts 0)

/-- The ticket is given back when its atomic has been performed (R308). -/
def State.ticketDone (s : State) (a : AtomReq) : State := if a.ticket.isSome then s.putWafer { s.wafer with ticketOut := none } else s

/-- NEAR_BANK_ATOMIC: the release, the core's own dirty words, the other copies, then the request (R155, R163, R308, R311). -/
def State.atomicAt (s : State) (id : Nat) (a : AtomReq) : State :=
  let h := lineHome a.line
  match a.rel with
  | some l =>
    let (s, l') := s.relMove a.gid a.core (some id) (some a.op) l
    let s := if l'.isNone then s.releaseAbroad a.core h a.scope else s
    if l'.isNone then s.enter id a.core a.asid 0 (.atomic { a with rel := none }) else s.setWork id 0 (.atomic { a with rel := l' })
  | none =>
    if (s.l1 a.core a.line).isSome then s.writeBackLine (some id) a.gid a.core a.line true
    else if !s.atomicPlace a.line then (s.charge a.core a.asid (s.crossing h a.line false)).askOwn h a.line
    else if !lineIsFar a.line && s.stampPast h a.line none && !(s.dom h).wrapping then s.startWrap h
    else
      (s.atomPerform id a).ticketDone a

def execNearBankAtomic (id : Nat) (s : State) : Out :=
  s.serve id State.memReady fun w =>
    match w.job with
    | .atomic a => s.atomicAt id a
    | _ => s

/-- The SC atomics before item `id` that a ticket for it would pass over: of its group, since a group's tickets follow its program order and
the lanes ascend, and of its core's line, since they are performed before it; with `others`, those of other instructions alone. -/
def State.ticketBehind (s : State) (id : Nat) (a : AtomReq) (others : Bool) : Bool :=
  s.jobBefore id fun j => match j with
    | .atomic b => b.sc && b.ticket.isNone && (b.gid == a.gid || (b.core == a.core && b.line == a.line)) && !(others && b.op == a.op)
    | _ => false

/-- The lanes of an SC atomic's instruction that are not performed yet. -/
def State.scLanes (s : State) (op : Nat) : List Work := s.work.filter fun w =>
  match w.job with
  | .atomic b => b.op == op
  | _ => false

/-- A lane whose line other lanes of its instruction follow keeps every other atomic off the line until they are performed (R165). The sequencer, which
chooses the order, lets none begin that would then itself wait for a line so kept, or for the turn of another instruction: so that no two wait for each
other (R308: log 97). -/
def State.scMayBegin (s : State) (a : AtomReq) : Bool :=
  let rest := s.scLanes a.op
  let more := (rest.filter fun w => match w.job with
    | .atomic b => b.line == a.line
    | _ => false).length > 1
  !more || rest.all fun w => match w.job with
    | .atomic b => !s.lineLocked b.op b.line && !s.ticketBehind w.id b true
    | _ => true

/-- The SC atomic to which the sequencer grants the next ticket (R308): the first in order among those that have set out. -/
def State.ticketNext (s : State) : Option Work :=
  if s.wafer.ticketOut.isSome then none
  else s.work.find? fun w =>
    match w.job with
    | .atomic a => a.sc && a.ticket.isNone && a.rel.isNone && w.wait.isNone && decide (w.due ≤ s.now) && !s.ticketBehind w.id a false &&
        !s.lineLocked a.op a.line && s.scMayBegin a
    | _ => false

/-- SC_TICKET_GRANT (R308): one ticket for one lane's atomic; the next one only when it has been performed. -/
def execScTicketGrant (s : State) : Out :=
  .next (match s.ticketNext with
    | some ⟨id, due, .atomic a, _⟩ =>
      let n := s.wafer.nextTicket
      { s with
        work := s.work.map fun w => if w.id == id then ⟨id, due, .atomic { a with ticket := some n }, none⟩ else w
        wafer := { s.wafer with nextTicket := n + 1, ticketOut := some n } }
    | _ => s)

/-! Logical time (R192, R197). -/

/-- A core's time before the hold at 0xFFFF. -/
def State.rawPts (s : State) (cid : Nat) : Nat :=
  let c := s.core cid
  c.pts + ((s.now - (s.dom (cidDom cid)).tickBase) / 64 - c.ptsAt)

/-- LOGICAL_TIME_TICK (R192): the ticks that have passed are taken; one past 0xFFFF asks for the wrap. -/
def execLogicalTimeTick (cid : Nat) (s : State) : Out :=
  .next (if isDcc cid || (s.dom (cidDom cid)).wrapping then s
    else
      let s' := s.setPts cid (s.pts cid)
      if s.rawPts cid > 0xFFFF then s'.startWrap (cidDom cid) else s')

/-- Cores of a domain that something has used. -/
def State.coresOf (s : State) (d : Nat) : List Nat := (s.cores.filter fun (c, _) => cidDom c == d && !isDcc c).map (·.1)

/-- The write-backs with which the domain's wrap began are all acknowledged. -/
def State.backsDone (s : State) (d : Nat) : Bool :=
  s.work.all fun w =>
    match w.job with
    | .write r => cidDom r.core != d || r.kind != .writeBack || decide ((s.dom d).wrapMark ≤ w.id)
    | .wack r _ _ => cidDom r.core != d || r.kind != .writeBack || decide ((s.dom d).wrapMark ≤ w.id)
    | _ => true

/-- What the slice has served to the domain's cores has reached them: fills, and acknowledgements with its stamps. -/
def State.servedLanded (s : State) (d : Nat) : Bool :=
  !s.anyJob fun j =>
    match j with
    | .l1fill c _ _ _ _ _ _ => cidDom c == d
    | .wack r _ _ => cidDom r.core == d && r.dom == d
    | _ => false

def State.wrapCan (s : State) (d : Nat) : Bool :=
  let x := s.dom d
  if x.wrapping then x.sweepEnd ≤ s.now && s.backsDone d else x.wrapAsked && x.sweepEnd = 0 && s.servedLanded d

/-- DOMAIN_WRAP (R197): new fills and writes are held, and when what the slice has served has landed every L1 is written back and dropped; each
core's time reads 0 from its acknowledgement (State.wrapAcked); then the epoch flips. The cost is 64 clk plus the time of the write-backs, so the
write-backs set out when the 64 clk are over (log 56). -/
def execDomainWrap (d : Nat) (s : State) : Out :=
  .next (if !s.wrapCan d then s
    else if !(s.dom d).wrapping then
      let u := s.uid
      let s := (s.coresOf d).foldl (fun s c => s.writeBackAll none 0 c true) s
      let s := { s with work := s.work.map fun (w : Work) => if u ≤ w.id then { w with due := w.due + 64 } else w }
      s.modDom d fun x => { x with wrapAsked := false, wrapping := true, sweepEnd := s.now + 64, wrapMark := s.uid }
    else
      let s := (s.coresOf d).foldl (fun s c => s.modCore c fun x => { x with pts := 0, ptsAt := 0 }) s
      s.modDom d fun x => { x with wrapping := false, wrapAsked := false, epoch := !x.epoch, wm := 0, tickBase := s.now, sweepEnd := s.now + 24576 })

/-- EPOCH_SWEEP_DONE (R197): every line of the slice carries the new epoch. -/
def execEpochSweepDone (d : Nat) (s : State) : Out :=
  .next (let x := s.dom d
    if x.wrapping || x.sweepEnd = 0 || s.now < x.sweepEnd then s
    else
      let s := s.modDom d fun x => { x with sweepEnd := 0 }
      { s with lines := s.lines.map fun (k, l) =>
          if k / 2 ^ 42 == d && l.epoch != x.epoch then (k, { l with wts := 0, rts := 0, epoch := x.epoch }) else (k, l) })

/-! Sizes (R186, R249). -/

/-- L1CFG (R186). -/
def execL1cfg (cid : Nat) (v : Word) (s : State) : Out :=
  .next (let n := v.toNat % 32
    if 10 ≤ n ∧ n ≤ 24 ∧ !isDcc cid then s.modCore cid fun c => { c with l1cfg := n } else s)

/-- A team has its slots and scratchpad on the core; one that is absent has given them up (R186, R338). -/
def State.resident (s : State) (cid : Nat) : Bool := s.teams.any fun (_, t) => t.cid == cid && t.sus.st != .absent

def State.l1Change (s : State) (cid : Nat) : Bool := (s.core cid).l1cfg != (s.core cid).l1size && !s.resident cid

/-- L1_SIZE_CHANGE (R186). -/
def execL1SizeChange (cid : Nat) (s : State) : Out :=
  .next (if s.l1Change cid then (s.writeBackAll none 0 cid true).modCore cid fun c => { c with l1size := c.l1cfg } else s)

/-- DSMCFG (R249). -/
def execDsmcfg (d : Nat) (v : Word) (s : State) : Out :=
  .next (let n := v.toNat % 32
    if n ≤ 16 then s.modDom d fun x => { x with dsmcfg := n } else s)

/-- L1 sizes when no context has control of them: firmware's 640 KiB on every core (R13, R186). -/
def State.l1Back (s : State) : State :=
  if s.ctxs.any fun (_, c) => c.expert.testBit 0 then s
  else { s with cores := s.cores.map fun ((k, c) : Nat × Core) => (k, { c with l1cfg := 10 }) }

/-- DSM sizes when no context has control of them: what firmware makes of the resident contexts' requests, which no register holds (R13, R249: log 80). -/
def State.dsmBack (s : State) : State :=
  if s.ctxs.any fun (_, c) => c.expert.testBit 1 then s
  else { s with freeUsed := s.freeUsed + 1, doms := s.doms.map fun ((k, x) : Nat × Dom) => (k, { x with dsmcfg := min 16 (Config.dsmRequest k s.freeUsed) }) }

/-- The sizes that a context has set and gives up: other contexts may hold them still (R13: log 80). -/
def State.sizesBack (s : State) (old new : Nat) : State :=
  let s := if old.testBit 0 && !new.testBit 0 then s.l1Back else s
  if old.testBit 1 && !new.testBit 1 then s.dsmBack else s

/-- Where a domain's DSM begins (R7). -/
def dsmBase (d : Nat) : Nat := 2 ^ 47 + 2 ^ 25 * d

/-- Whether a table maps the domain's DSM at any level below: a leaf whose range meets it. -/
def State.tableMapsDsm (s : State) (d : Nat) : Nat → Nat → Bool
  | 0, _ => false
  | level + 1, table =>
    (List.range 512).any fun i =>
      let p : Pte := ⟨leVal ((List.range 8).map fun k => s.newestByte (table + 8 * i + k))⟩
      p.v && p.ok (level + 1) &&
        (if p.leaf then decide (p.pa < dsmBase d + 2 ^ 25) && decide (dsmBase d < p.pa + 4096 * 512 ^ level)
         else s.tableMapsDsm d level p.pa)

def State.dsmMapped (s : State) (d : Nat) : Bool := s.ctxs.any fun (_, c) => s.tableMapsDsm d 4 c.ptroot
def State.dsmChange (s : State) (d : Nat) : Bool := (s.dom d).dsmcfg != (s.dom d).dsmsize && !s.dsmMapped d

/-- DSM_SIZE_CHANGE (R249): lines beyond the cache's ways leave, the new DSM is clear. -/
def execDsmSizeChange (d : Nat) (s : State) : Out :=
  .next (if !s.dsmChange d then s
    else
      let s := s.modDom d fun x => { x with dsmsize := x.dsmcfg }
      let s := { s with lines := s.lines.filter fun (k, _) => !(k / 2 ^ 42 == d && lineIsDsm (k % 2 ^ 42)) }
      s.lines.foldl (fun s (k, _) =>
        let l := k % 2 ^ 42
        if k / 2 ^ 42 == d && (s.setLines d l).length + 1 > s.ways d l then s.evictSline d l else s) s)

end Sys2Proof.Machine
end

