-- ==== Sys2Proof/Machine/Barrier.lean ====
section
/-! DEFINITION. Acquires (R196), barriers and their completion, opcodes 0xC0-0xC3 (R170-R173), and the retirement of a group (R175). -/

namespace Sys2Proof.Machine

/-! Acquires. -/

/-- The core's time moves on to v; past 0xFFFF its domain wraps (R197). -/
def State.advance (s : State) (cid v : Nat) : State :=
  if isDcc cid then s
  else if v > 0xFFFF then (s.setPts cid (max (s.pts cid) 0xFFFF)).startWrap (cidDom cid)
  else s.setPts cid (max (s.pts cid) v)

/-- An acquire by a group of the core that read wts, at a bank of another domain when far (R196, R277). -/
def State.acquire (s : State) (cid : Nat) (scope : Scope) (wts : Nat) (far : Bool) : State :=
  if isDcc cid || scope == .team then s
  else s.advance cid (if far || scopeNum scope ≥ 2 then max wts ((s.dom (cidDom cid)).wm + 1) else wts)

/-- The stamps of strong loads that FENCE would acquire are used up (R305). -/
def Group.forget (g : Group) : Group := { g with acqWts := [0, 0, 0, 0], acqFar := [false, false, false, false] }

/-- An acquire of the group: what FENCE acquires later are the stamps since this one (R196, R305). A team-scope acquire, which moves no time,
forgets none (log 77). -/
def State.acquireBy (s : State) (gid : Nat) (scope : Scope) (wts : Nat) (far : Bool) : State :=
  let s := s.acquire (gidCid gid) scope wts far
  if scope == .team then s else s.modGroup gid Group.forget

/-! Waiting. -/

/-- The stage a waiting instruction has reached; 0 at its first issue. -/
def Group.waitStage (g : Group) : Nat :=
  match g.park with
  | .wait k => k
  | _ => 0

/-- Wait at a stage (R43). -/
def State.waitAt (s : State) (gid : Nat) (g : Group) (k : Nat) : State := s.putGroup gid { g with park := .wait k }

/-- Complete a waiting instruction. -/
def State.endWait (s : State) (gid : Nat) (g : Group) (h : Hdr) : State := s.finish gid { g with park := .running, acc := none } h none

/-- Keep a number read at the first issue. -/
def Group.keep (g : Group) (n : Nat) : Group :=
  { g with acc := some { todo := 0, ea := [n], vals := [], xl := [], walks := [], parked := false } }
def Group.kept (g : Group) : Nat := ((g.acc.map fun a => a.ea.getD 0 0).getD 0)

/-- A wake event of SLEEP (R176): the group may issue from the clock after (R43), a halted one once it is back (R334). -/
def State.wake (s : State) (gid : Nat) : State :=
  s.modGroup gid fun g =>
    match g.park with
    | .sleep _ _ => if g.halted then { g with sched := { g.sched with woken := true } } else { g with park := .running, sched := { g.sched with notBefore := max g.sched.notBefore (s.cclk (gidCid gid) + 1) } }
    | _ => g

/-! Barriers (R171, R172). -/

/-- The completion test, with the clocks of R173. -/
def barClose (b : Barrier) (alive now delay : Nat) : Barrier × Bool :=
  let target := if b.live then alive else b.exp
  if b.isOpen && b.cnt ≥ target then
    ({ b with phase := !b.phase, isOpen := false, cnt := 0, arr := 0, openAt := now + delay, last := b.pts, pts := 0 }, true)
  else (b, false)

/-- An arrival of a group with count n; none when it does not agree with the open phase. -/
def barArrival (b : Barrier) (bit n pts : Nat) : Option Barrier :=
  if !b.isOpen then some { b with isOpen := true, live := n == 0, exp := n, cnt := 1, arr := b.arr ||| bit, pts := pts }
  else if (n == 0) != b.live || (n != 0 && n != b.exp) then none
  else some { b with cnt := b.cnt + 1, arr := b.arr ||| bit, pts := max b.pts pts }

/-- The key of a barrier in Group.phases. -/
def phaseKey (cluster : Bool) (n : Nat) : Nat := if cluster then 16 + n else n

/-- A phase in which the group arrived has completed: it wakes, and has the phase's end. -/
def State.phaseDone (s : State) (gid key : Nat) (b : Barrier) : State :=
  (s.modGroup gid fun g => { g with phases := tput g.phases key (b.openAt, b.last) }).wake gid

/-- Live groups of a team, and of a cluster. -/
def Team.live (t : Team) : Nat := t.launched - t.retiredN
def State.clusterLive (s : State) (c : Cluster) : Nat := c.teams.foldl (fun n tid => n + ((s.team tid).map Team.live).getD 0) 0

def State.putTeamBar (s : State) (tid : Nat) (t : Team) (n : Nat) (b : Barrier) : State :=
  let arrived := (List.range 32).filter fun i => b.arr.testBit i
  let (b, done) := barClose b t.live s.now 4
  let s := s.putTeam tid { t with bars := setAt t.bars n b }
  if done then arrived.foldl (fun s i => s.phaseDone (t.gid i) (phaseKey false n) b) s else s

def State.putClusterBar (s : State) (cl : Nat) (c : Cluster) (n : Nat) (b : Barrier) (arr : List (Nat × Nat)) : State :=
  let (b, done) := barClose b (s.clusterLive c) s.now 24
  let mine := arr.filter fun (k, _) => k == n
  let arr := if done then arr.filter fun (k, _) => k != n else arr
  let s := { s with clusters := tput s.clusters cl { c with bars := setAt c.bars n b, arr := arr } }
  if done then mine.foldl (fun s (_, gid) => s.phaseDone gid (phaseKey true n) b) s else s

/-- The group's arrival bit at a barrier, and the barrier. -/
def State.barOf (s : State) (gid : Nat) (g : Group) (cluster : Bool) (n : Nat) : Barrier × Bool :=
  match s.team g.team with
  | none => ({}, false)
  | some t =>
    if cluster then
      match tget s.clusters t.cluster with
      | some c => (c.bars.getD n {}, c.arr.contains (n, gid))
      | none => ({}, false)
    else (t.bars.getD n {}, (t.bars.getD n {}).arr.testBit g.idx)

/-- Groups that the population was launched with. -/
def State.population (s : State) (g : Group) (cluster : Bool) : Nat :=
  match s.team g.team with
  | none => 0
  | some t =>
    if cluster then
      match tget s.clusters t.cluster with
      | some c => c.w * c.h * t.launched
      | none => 0
    else t.launched

/-- Record the arrival; none on a mismatch. -/
def State.record (s : State) (gid : Nat) (g : Group) (cluster : Bool) (n count : Nat) : Option State :=
  let pts := s.pts (gidCid gid)
  match s.team g.team with
  | none => none
  | some t =>
    if cluster then
      match tget s.clusters t.cluster with
      | none => none
      | some c => (barArrival (c.bars.getD n {}) 0 count pts).map fun b => s.putClusterBar t.cluster c n b (c.arr ++ [(n, gid)])
    else (barArrival (t.bars.getD n {}) (2 ^ g.idx) count pts).map fun b => s.putTeamBar g.team t n b

/-- From when the group may issue after its last phase of the barrier, and what its wait acquires: of a group that never arrived, the
barrier's last phase (R173). -/
def State.phaseOf (s : State) (gid : Nat) (g : Group) (cluster : Bool) (n : Nat) : Nat × Nat :=
  let b := (s.barOf gid g cluster n).1
  tgetD g.phases (phaseKey cluster n) (b.openAt, b.last)

/-- The end of a wait: an acquire at the scope (R173). It ends in the clock before the one from which the group may issue (R43). -/
def State.barEnd (s : State) (gid : Nat) (g : Group) (o : Syn) (cluster : Bool) (n : Nat) : State :=
  let g' := if o.q.scope == .team then g else g.forget
  (s.acquire (gidCid gid) o.q.scope (s.phaseOf gid g cluster n).2 false).endWait gid g' o.hdr

/-- An arrival (R172): the count is tested, an earlier arrival of the group's is waited for, the release is performed, the arrival is
recorded; then BAR and CBAR wait for the phase. At stage 4 the arrival is under way for a halted group (R338), and from 5 on it is recorded. -/
def State.barArrive (s : State) (gid : Nat) (g : Group) (o : Syn) (cluster waits : Bool) (n : Nat) : State :=
  let cid := gidCid gid
  match g.waitStage with
  | 0 =>
    s.uniform gid g o.hdr (bopUse o.b 1) [] fun g' =>
      let count := (g.bopWord gid o.b).toNat
      if count > s.population g cluster then s.trapHere gid g 0x0F 1 else s.waitAt gid ((g'.keep count).drainNow []) 1
  | 1 => if (s.barOf gid g cluster n).2 then s else s.waitAt gid { g with rel := some (s.relStart gid cid o.q.scope) } 2
  | 2 =>
    match g.rel with
    | some r =>
      let (s, r') := s.relMove gid cid none none r
      s.waitAt gid { g with rel := r' } 2
    | none =>
      match s.record gid g cluster n g.kept with
      | none => s.trapHere gid g 0x0F 0
      | some s =>
        match s.group gid with
        | some g => if waits then s.waitAt gid g 3 else s.endWait gid g o.hdr
        | none => s
  | 4 => s
  | k =>
    if k = 5 && !waits then s.endWait gid g o.hdr
    else if (s.barOf gid g cluster n).2 || s.now + 1 < (s.phaseOf gid g cluster n).1 then s else s.barEnd gid g o cluster n

def execBar (n : BitVec 4) (o : Syn) (s : State) : Out := s.withGroup fun gid g => s.barArrive gid g o false true n.toNat
def execBararv (n : BitVec 4) (o : Syn) (s : State) : Out := s.withGroup fun gid g => s.barArrive gid g o false false n.toNat
def execCbar (n : BitVec 2) (o : Syn) (s : State) : Out := s.withGroup fun gid g => s.barArrive gid g o true true n.toNat

/-- BARWT (R172): waits while the group's bit is set. -/
def execBarwt (n : BitVec 4) (o : Syn) (s : State) : Out :=
  s.withGroup fun gid g =>
    let arrived := (s.barOf gid g false n.toNat).2
    if g.waitStage = 0 then
      s.uniform gid g o.hdr [] [] fun g' => if arrived then s.waitAt gid (g'.drainNow []) 3 else s.barEnd gid (g'.drainNow []) o false n.toNat
    else if arrived || s.now + 1 < (s.phaseOf gid g false n.toNat).1 then s
    else s.barEnd gid g o false n.toNat

/-! Retirement (R172, R175). -/

/-- The completion tests of one barrier at the retirement of a group that had arrived or not. -/
def barRetire (b : Barrier) (arrived : Bool) : Barrier := if arrived && b.live && b.isOpen then { b with cnt := b.cnt - 1 } else b

/-- A group retires: it issues no more, and every barrier of its team and cluster is tested. Its fixed results in flight land at once, and the window is
drained (R81: log 102). -/
def State.retire (s : State) (gid : Nat) : State :=
  match s.group gid with
  | none => s
  | some g =>
    let g := g.landAndDrain
    let s := s.putGroup gid { g with exm := 0, retired := true, park := .dead, acc := none, rel := none, held := none, replay := 0 }
    let s := s.modTeam g.team fun t => { t with retiredN := t.retiredN + 1 }
    let s := match s.team g.team with
      | some t => if t.live = 0 then s.modNode t.nid fun n => { n with retired := n.retired + 1, place := cidDom t.cid } else s
      | none => s
    let s := (List.range 16).foldl (fun s n =>
      match s.team g.team with
      | some t => s.putTeamBar g.team t n (barRetire (t.bars.getD n {}) ((t.bars.getD n {}).arr.testBit g.idx))
      | none => s) s
    match (s.team g.team).map (·.cluster) with
    | none => s
    | some cl =>
      (List.range 4).foldl (fun s n =>
        match tget s.clusters cl with
        | some c => s.putClusterBar cl c n (barRetire (c.bars.getD n {}) (c.arr.contains (n, gid))) c.arr
        | none => s) s

end Sys2Proof.Machine
end

