-- ==== Sys2Proof/Machine/Arrive.lean ====
section
/-! DEFINITION. Arrivals at a team's storage from outside its groups' own streams: into the core when the team is there, else by way
of the diversion steps (R209-R211, R338). -/

namespace Sys2Proof.Machine

/-- An item that can be served at once. -/
def State.addNow (s : State) (j : Job) : State := { s with work := s.work ++ [⟨s.uid, s.now, j, none⟩], uid := s.uid + 1 }

/-- Such a write clears the reuse latches that hold the register (R83). -/
def State.unlatch (s : State) (gid : Nat) (r : RegName) : State :=
  let cid := gidCid gid
  if (s.core cid).latches.isEmpty then s else s.modCore cid fun c => { c with latches := c.latches.filter fun (_, k, ns) => !(k == gid && ns.contains r) }

/-- The latches of a group clear when it is gone (R83). -/
def State.unlatchAll (s : State) (gid : Nat) : State :=
  s.modCore (gidCid gid) fun c => { c with latches := c.latches.filter fun (_, k, _) => k != gid }

/-- An arrival at a barrier of the team (R172) that was under way when its group was halted: recorded, it leaves the group as past its
arrival; where it does not agree with the open phase it stays unrecorded, and the group arrives again when it issues, which traps. -/
def State.arrived (s : State) (gid : Nat) (recorded : Bool) : State :=
  s.modGroup gid fun g => if g.park == .wait 4 then { g with park := .wait (if recorded then 5 else 2) } else g

/-- An arrival is written into the core; self is the copy that writes, or 0. -/
def State.applyArrival (s : State) (self tid : Nat) (a : Arrival) : State :=
  match s.team tid with
  | none => s
  | some t =>
    match a with
    | .reg g r m vals => (s.modGroup (t.gid g) fun x => x.landOutside r m vals).unlatch (t.gid g) r
    | .regPart g r l i bs =>
      (s.modGroup (t.gid g) fun x =>
        x.landOutside r (BitVec.ofNat 32 (2 ^ l)) ((List.range 32).map fun _ => patchWord (x.heldLane r l) i bs)).unlatch (t.gid g) r
    | .spad o bs => s.spadStore self tid o bs
    | .spadDesc l d => s.modTeam tid fun t => t.spSetDesc l d
    | .bar g b n pts =>
      match barArrival (t.bars.getD b {}) (2 ^ g) n pts with
      | none => s.arrived (t.gid g) false
      | some x => (s.putTeamBar tid t b x).arrived (t.gid g) true
    | .counter g c => (s.modGroup (t.gid g) fun x => { x with cc := x.cc.set c (x.cc.getD c 0 - 1) }).wake (t.gid g)

/-- Kinds of R345: a bit each for copies, loads and atomics, barriers, matrix results. -/
def kindBit (kind : Nat) : Nat := if kind < 4 then 2 ^ kind else 0

/-- What an arrival counts: a line's descriptor comes with the line's data (R210, R345). -/
def Arrival.count : Arrival → Nat
  | .spadDesc _ _ => 0
  | _ => 1

/-- An arrival of operation op, of kind 0 copy, 1 load or atomic, 2 barrier, 3 matrix, 4 exchange (R345); its item or result has number id.
What was in flight at the team's last dawn is counted (R343). -/
def State.arrive (s : State) (op id self tid kind : Nat) (a : Arrival) : State :=
  match s.team tid with
  | none => s
  | some t =>
    if t.away then s.addNow (.arrival op tid kind a)
    else
      let s := if id < t.sus.mark then
          s.putTeam tid { t with sus := { t.sus with landed := t.sus.landed + a.count, kinds := t.sus.kinds ||| kindBit kind } }
        else s
      s.applyArrival self tid a

/-! Quires (R68, R233). -/

/-- Whether an operation or register result of the group with this quire number is outstanding. -/
def Group.quireOpen (g : Group) (q : Nat) : Bool := g.mq.any (·.quire == q) || g.vres.any (·.quire == some q)

/-- Quires that are complete set their flags; with `every`, so does completed work that no quire has closed yet (R234). -/
def State.settleQuires (s : State) (gid : Nat) (every : Bool) : State :=
  match s.group gid with
  | none => s
  | some g =>
    let full := g.quires.filter fun q => (q.closed || every) && !g.quireOpen q.num
    let s := s.putGroup gid { g with quires := g.quires.filter fun q => !((q.closed || every) && !g.quireOpen q.num) }
    let fl := full.foldl (fun a q => a ||| q.flags) 0
    let s := if fl &&& ~~~flPsn = 0 then s else s.raiseFlags gid (fl &&& ~~~flPsn)
    if fl &&& flPsn = 0 then s else s.poisonFor gid (s.asidOf g) 0

/-- Whether q names an issued quire (R234). -/
def Group.quireIssued (g : Group) (q : Nat) : Bool := (g.nextQuire + 131071 - q) % 65536 < 32768

/-- Add flags to a quire. -/
def Group.quireFlags (g : Group) (q : Nat) (fl : Flags) : Group :=
  if fl = 0 then g
  else if g.quires.any (·.num == q) then { g with quires := g.quires.map fun x => if x.num == q then { x with flags := x.flags ||| fl } else x }
  else { g with quires := g.quires ++ [⟨q, g.quireIssued q, fl⟩] }

end Sys2Proof.Machine
end

