-- ==== Sys2Proof/Machine/Landing.lean ====
section
/-! DEFINITION. The landing of results (R42, R68, R74, R78, R157), the wake of SLEEP (R176), and the replay of a parked memory
instruction (R152). -/

namespace Sys2Proof.Machine

/-- Whether a fixed result of the group is due. -/
def State.fixedDue (s : State) (gid : Nat) (g : Group) : Bool := g.results.any (g.dueAt (s.cclk (gidCid gid)))

/-- FIXED_RESULT_LAND (R42, R74): results that are due land; a mask that became empty retires the group. -/
def execFixedResultLand (gid : Nat) (s : State) : Out :=
  .next (match s.group gid with
    | none => s
    | some g =>
      let g' := g.landFixed (some (s.cclk (gidCid gid)))
      let s := s.putGroup gid g'
      if g'.exm = 0 && g.exm != 0 && !g.retired then s.retire gid else s)

/-- OR of the flags of the lanes that land. -/
def VRes.flagsAt (v : VRes) (m : LaneMask) : Flags := (lanesOf m).foldl (fun a l => a ||| v.lflags.getD l 0) 0

/-- Whether a result's landing time has come. -/
def State.varDue (s : State) (gid : Nat) (v : VRes) : Bool := decide (v.due ≤ (if v.cl then s.cclk (gidCid gid) else s.now))

/-- The address that poison in the lanes m of a result is reported with: of the lowest of them that met it (R157, R178). -/
def VRes.poisonAt (v : VRes) (m : LaneMask) : Nat :=
  match (lanesOf m).find? fun l => v.lflags.getD l 0 &&& flPsn != 0 with
  | some l => v.fas.getD l v.faddr
  | none => v.faddr

/-- Write the lanes m of a result to its registers, with its flags; poison follows R157. -/
def State.varWrite (s : State) (gid : Nat) (g : Group) (v : VRes) (m : LaneMask) : State :=
  let kind := match v.kind with
    | .copy => 0
    | .aperture => 0
    | .xshfl => 4
    | .mrd => 3
    | _ => 1
  let s := (v.dsts.zipIdx).foldl (fun s (d, i) =>
    match v.part with
    | none => s.arrive v.operation v.id 0 g.team kind (.reg g.idx d m (v.vals.getD i []))
    | some (o, n) => (lanesOf m).foldl (fun s l => s.arrive v.operation v.id 0 g.team kind (.regPart g.idx d l o (slice (leBytes 4 (lane (v.vals.getD i []) l).toNat) o n))) s)
    (s.putGroup gid g)
  let fl := v.flagsAt m
  let s := if fl &&& ~~~flPsn = 0 then s else s.raiseFlags gid (fl &&& ~~~flPsn)
  if fl &&& flPsn = 0 then s else s.poisonFor gid (s.asidOf g) (v.poisonAt m)

/-- What the last lane of a result ends: its entry in the in-flight table, its poll mark, and for an acquire its effect (R155, R196,
R370). -/
def State.varEnd (s : State) (gid : Nat) (v : VRes) : State :=
  match s.group gid with
  | none => s
  | some g =>
    let cid := gidCid gid
    let g := { g with vres := g.vres.filter (fun x => x.id != v.id), sched := { g.sched with poll := g.sched.poll.filter (· != v.id) } }
    let s := s.putGroup gid g
    let s :=
      if v.infl = 0 then s
      else if g.vres.any (fun x => x.infl == v.infl) || (g.acc.map (·.key)) == some v.infl then
        -- the lines of an atomic have left its entry as they were performed
        if v.kind == .atomic then s else s.inflMod cid v.infl fun e => some { e with remain := e.remain - 1 }
      else s.inflFree cid v.infl
    let s := if v.quire.isSome then s.settleQuires gid false else s
    match v.acq with
    | some sc => s.acquireBy gid sc v.wts v.far
    | none => s

/-- The words of a copy into registers that land are its writes: watched ones are reported, once for all that land at one clock (R373). -/
def State.watchRegs (s : State) (gid : Nat) (g : Group) (v : VRes) (m : LaneMask) : State :=
  match s.findWork v.writer, s.team g.team with
  | some ⟨_, _, .copy c, _⟩, some t =>
    if t.away then s
    else
      (v.dsts.zipIdx).foldl (fun s (r, i) => (lanesOf m).foldl (fun s l =>
        let o := apertureOfs g.idx r l
        let at' := fun (w : Word) => patch zeroLine (o % 64) (leBytes 4 w.toNat)
        s.watchCopy (gidCid gid) c.asid c.gid ((2 ^ 47 + 2 ^ 44 + o) / 64) (at' (g.heldLane r l)) (at' (lane (v.vals.getD i []) l))) s) s
  | _, _ => s

/-- VARIABLE_RESULT_LAND (R42, R68, R176): the named lanes whose values have arrived land; a result of the group's own wakes it. -/
def State.landVar (s : State) (gid op : Nat) (lanes : LaneMask) : State :=
  match s.group gid with
  | none => s
  | some g =>
    match g.vres.find? (·.id == op) with
    | none => s
    | some v =>
      let m := lanes &&& v.lanes &&& v.ready
      if m = 0 || !s.varDue gid v then s
      else
        let left := v.lanes &&& ~~~m
        let s := if v.writer = 0 then s else s.watchRegs gid g v m
        let s := s.varWrite gid { g with vres := g.vres.map fun x => if x.id == op then { x with lanes := left, ready := x.ready &&& ~~~m } else x } v m
        let s := if left = 0 then s.varEnd gid v else s
        if v.own then s.wake gid else s

def execVariableResultLand (gid op : Nat) (lanes : LaneMask) (s : State) : Out := .next (s.landVar gid op lanes)

/-- Whether every page that a parked instruction waits for has been released (R152, R271). -/
def State.replayReady (s : State) (gid : Nat) (g : Group) : Bool :=
  match g.acc with
  | some a =>
    a.parked && (a.pages ++ (lanesOf a.todo).map fun l => pageOf (a.ea.getD l 0)).all fun p => !s.faulting (cidDom (gidCid gid)) (a.ctx.getD (s.asidOf g)) p
  | none => false

/-- INSTRUCTION_REPLAY (R152): the instruction may be issued again for its unfinished lanes, at the group's next turn. -/
def execInstructionReplay (gid : Nat) (s : State) : Out :=
  .next (match s.group gid with
    | none => s
    | some g =>
      if !g.halted && s.replayReady gid g then
        s.putGroup gid { g with park := .running, acc := g.acc.map fun a => { a with parked := false, xl := [], walks := [] } }
      else s)

end Sys2Proof.Machine
end

