-- ==== Sys2Proof/Machine/Mmio.lean ====
section
/-! DEFINITION. Reads of the topology table (R323-R325) and of the MMIO aperture (R8-R11, R321, R357, R365, R375). -/

namespace Sys2Proof.Machine

/-! The topology table. wafer.cores and wafer.arrays list what is not good, by domain (log 10). -/

def State.coreGood (s : State) (d site : Nat) : Bool := decide (site < 144) && !(tgetD s.wafer.cores d []).contains site
def State.arrayGood (s : State) (d hc : Nat) : Bool := decide (hc < 12) && !(tgetD s.wafer.arrays d []).contains hc
def State.goodCores (s : State) (d : Nat) : List Nat := (List.range 144).filter (s.coreGood d)
def State.goodArrays (s : State) (d : Nat) : List Nat := (List.range 12).filter (s.arrayGood d)
/-- DOMOK (R323). -/
def State.domOk (s : State) (d : Nat) : Bool := decide (d < 64) && !(s.goodCores d).isEmpty
def sumOf (l : List Nat) : Nat := l.foldl (· + ·) 0
def maskBits (l : List Nat) : Nat := l.foldl (fun a i => a + 2 ^ i) 0

/-- Wafer links that attach to domain d (R380). -/
def domLinks (d : Nat) : List Nat :=
  (List.range 32).filter fun n =>
    (if n < 8 then n else if n < 16 then 8 * (n - 8) + 7 else if n < 24 then 56 + (n - 16) else 8 * (n - 24)) == d
def domHost (d : Nat) : Nat := if d = 0 then 0 else if d = 7 then 1 else if d = 56 then 2 else if d = 63 then 3 else 0xFF

/-- The record of domain d (R324). -/
def State.topoRecord (s : State) (d : Nat) : List Byte :=
  leBytes 18 (maskBits (s.goodCores d)) ++ leBytes 2 (maskBits (s.goodArrays d)) ++ leBytes 1 (tgetD s.wafer.dramst d 0) ++ leBytes 1 (tgetD s.wafer.l2st d 0) ++
    leBytes 1 16 ++ leBytes 1 0 ++ leBytes 4 (maskBits (domLinks d)) ++ leBytes 1 (domHost d) ++ leBytes 1 0 ++
    leBytes 2 (s.goodCores d).length ++ leBytes 1 (s.goodArrays d).length ++ leBytes 31 0

/-- The header (R323). -/
def State.topoHeader (s : State) : List Byte :=
  let doms := List.range 64
  leBytes 4 s.wafer.gen ++ leBytes 2 (sumOf (doms.map fun d => (s.goodCores d).length)) ++
    leBytes 2 (sumOf (doms.map fun d => (s.goodArrays d).length)) ++ leBytes 8 (maskBits (doms.filter s.domOk)) ++
    leBytes 4 s.wafer.linkup ++ leBytes 1 s.wafer.hostup ++ leBytes 1 seqDom ++ leBytes 42 0

def State.topoByte (s : State) (o : Nat) : Byte :=
  if o < 0x40 then s.topoHeader.getD o 0
  else if o < 0x1040 then (s.topoRecord ((o - 0x40) / 64)).getD ((o - 0x40) % 64) 0
  else 0

/-! Where a context stands in a domain (R321, R330). -/

def State.teamsOf (s : State) (asid : Nat) : List (Nat × Team) := s.teams.filter fun (_, t) => t.asid == asid
def State.teamsIn (s : State) (asid d : Nat) : List (Nat × Team) := (s.teamsOf asid).filter fun (_, t) => cidDom t.cid == d

/-- Whether a reason holds for the context in the domain. -/
def State.reasonHolds (s : State) (asid d : Nat) : Bool :=
  match s.ctx asid with
  | some c => c.req.contains d || c.spine.any fun (x, _) => x == d
  | none => false

/-- Halted and not yet saved, and what follows until the restore ends (R338, R343). -/
def Team.isSaving (t : Team) : Bool :=
  match t.sus.st with
  | .saving _ => true
  | _ => false
def Team.isBack (t : Team) : Bool := t.away && !t.isSaving && !(isDcc t.cid && t.sus.st == .absent && !t.sus.dawnAsked)

/-- Coming back, or to come back (R343): a domain is in dawn from the resumption on, whatever has been requested since (R330). -/
def Team.inDawn (t : Team) : Bool :=
  match t.sus.st with
  | .restoring _ => true
  | .absent => t.sus.dawnAsked
  | _ => false

/-- STATE of one domain: 0 no work, 1 running, 2 in dusk, 3 suspended, 4 in dawn. -/
def State.domState (s : State) (asid d : Nat) : Nat :=
  let ts := (s.teamsIn asid d).map (·.2)
  if ts.any Team.isSaving then 2
  else if ts.any Team.inDawn then 4
  else if s.reasonHolds asid d then 3
  else if ts.any Team.isBack then 4
  else if ts.isEmpty then 0 else 1

def State.ctxState (s : State) (asid : Nat) : Nat := (List.range 64).foldl (fun a d => max a (s.domState asid d)) 0
def State.susMask (s : State) (asid : Nat) : Nat := maskBits ((List.range 64).filter fun d => s.domState asid d == 3)

/-- Group slots a context holds now. -/
def State.uslots (s : State) (asid : Nat) : Nat :=
  sumOf ((s.teamsOf asid).map fun (_, t) => if t.sus.key = 0 then ((List.range t.slots.length).filter fun i => (s.group (t.gid i)).isSome).length else 0)

/-! Operations in flight towards a team (R338). -/

/-- What is in flight towards the team, each operation once: copies, loads, atomics, exchanges and register results of matrix operations,
matrix operations that write its scratchpad, and operations whose arrivals wait, arrivals at its barriers among them. -/
def State.flightOps (s : State) (tid : Nat) (t : Team) : List Nat :=
  let works := s.work.filterMap fun w =>
    match w.job with
    | .copy c => if c.team == tid then some w.id else none
    | .arrival op x _ _ => if x == tid then some op else none
    | _ => none
  let ofGroup := fun (g : Group) => (g.vres.filter (·.own)).map VRes.operation ++ g.mq.filterMap fun m =>
    match m.kind with
    | .mrdMem _ _ _ _ _ _ _ _ spad _ => if spad then some m.id else none
    | _ => none
  uniqueNats (works ++ (List.range t.slots.length).flatMap fun i => ((s.group (t.gid i)).map ofGroup).getD [])

def State.inFlight (s : State) (tid : Nat) (t : Team) : Nat := (s.flightOps tid t).length

/-- Whether the team's entry of the diversion table, if it was given one, is in use (R209, R343): diverting while something is in flight, or closing. -/
def State.entryLive (s : State) (tid : Nat) : Bool :=
  match s.team tid with
  | none => false
  | some t => t.sus.entry.isSome &&
      match t.sus.st with
      | .present => false
      | .restoring _ => true
      | _ => s.inFlight tid t != 0

/-- The team that uses entry i of a core's table. -/
def State.entryAt (s : State) (cid i : Nat) : Option Nat :=
  ((s.core cid).entries.getD i none).filter fun tid => s.entryLive tid && ((s.team tid).map fun t => t.cid == cid && t.sus.entry == some i).getD false

/-- A diversion entry as it reads (R209): zero throughout when it is free. -/
def State.entryBits (s : State) (cid i : Nat) : Nat :=
  match (s.entryAt cid i).bind fun tid => (s.team tid).map fun t => (tid, t) with
  | none => 0
  | some (tid, t) =>
      let st := match t.sus.st with
        | .restoring _ => 2
        | _ => 1
      st + 2 ^ 8 * (s.inFlight tid t) + 2 ^ 25 * (t.seq % 2 ^ 32) + 2 ^ 57 * t.asid + 2 ^ 73 * t.spGran + 2 ^ 84 * t.spBase + 2 ^ 96 * maskBits t.slots +
        2 ^ 160 * t.sus.shadow

/-! Registers. Each function gives the register that holds a byte of a block: its first offset and its value. -/

def waferReg (s : State) (o : Nat) : Nat × Nat :=
  let w := s.wafer
  if o < 0x10 then (0, w.tlbcmd.toNat)
  else if o < 0x100 then (o, 0)
  else if o < 0x104 then (0x100, w.almpol)
  else if o < 0x108 then (0x104, w.almlog)
  else if o < 0x10C then (0x108, bool1 w.almlock)
  else if 0x1000 ≤ o ∧ o < 0x1400 then
    let n := (o - 0x1000) / 0x100
    let r := o % 0x100
    if r < 8 then (o - r, w.hwin.getD n 0)
    else if r < 16 then (o - r + 8, w.obase.getD n 0)
    else if r < 20 then (o - r + 16, w.lnkdrop.getD n 0) else (o, 0)
  else if 0x2000 ≤ o ∧ o < 0x4000 then
    let n := (o - 0x2000) / 0x100
    let r := o % 0x100
    if r < 8 then (o - r, w.pwin.getD n 0)
    else if 0x40 ≤ r ∧ r < 0x48 then (o - r + 0x40, w.lreplay.getD n 0)
    else if 0x48 ≤ r ∧ r < 0x4C then (o - r + 0x48, w.lfail.getD n 0) else (o, 0)
  else if 0x80000 ≤ o ∧ o < 0xC0000 ∧ o % 0x10000 < 0x8100 then (o, (tgetD w.msix o 0).toNat)
  else (o, 0)

/-- Counters that are read as R357 states, by core and offset in the core block: the value of the counter that starts there. -/
def State.coreCounter (s : State) (cid r : Nat) : Option Nat :=
  let c := s.core cid
  if 0x400 ≤ r ∧ r < 0x420 ∧ r % 8 = 0 then
    some (c.totals.getD ((r - 0x400) / 8) 0)
  else if r = 0x420 then
    -- idle lanes: those of every port and clock in which nothing issued (log 36)
    some (32 * ((if isDcc cid then 1 else 16) * s.cclk cid - c.totals.getD 4 0))
  else if 0x480 ≤ r ∧ r < 0x680 then
    let i := (r - 0x480) / 0x40
    let q := (r - 0x480) % 0x40
    if 0x18 ≤ q ∧ q < 0x38 ∧ q % 8 = 0 then some ((c.bins.getD i {}).counts.getD ((q - 0x18) / 8) 0) else none
  else none

def coreReg (s : State) (cid r : Nat) : Nat × Nat :=
  let c := s.core cid
  if r < 4 then (0, if isDcc cid then 0 else c.l1cfg)
  else if 8 ≤ r ∧ r < 12 then (8, c.infltLost)
  else if 0x40 ≤ r ∧ r < 0x80 then (r - r % 16, if isDcc cid then 0 else (c.watch.getD ((r - 0x40) / 16) {}).raw.toNat)
  else if 0x100 ≤ r ∧ r < 0x200 then
    (r - r % 32, s.entryBits cid ((r - 0x100) / 32))
  else if 0x480 ≤ r ∧ r < 0x680 ∧ (r - 0x480) % 0x40 < 0x12 then
    let i := (r - 0x480) / 0x40
    let q := (r - 0x480) % 0x40
    let b := c.bins.getD i {}
    if q < 8 then (r - q, b.lo) else if q < 16 then (r - q + 8, b.hi) else (r - q + 16, b.asid)
  else (r, 0)

def domReg (s : State) (d o : Nat) : Nat × Nat :=
  let x := s.dom d
  if o < 4 then (0, x.dsmcfg)
  else if 8 ≤ o ∧ o < 16 then (8, x.dbmbase)
  else if 0x10 ≤ o ∧ o < 0x18 then (0x10, 0)
  else if 0x18 ≤ o ∧ o < 0x1C then (0x18, bool1 x.powctl)
  else if 0x20 ≤ o ∧ o < 0x30 then (0x20, leVal (x.tal.map (BitVec.ofNat 8)))
  else if 0x100 ≤ o ∧ o < 0x11C then (o - o % 4, x.errs.getD ((o - 0x100) / 4) 0)
  else if 0x120 ≤ o ∧ o < 0x128 then (0x120, x.lastUe)
  else if 0x200 ≤ o ∧ o < 0x260 then
    let h := s.hc (12 * d + (o - 0x200) / 8)
    (o - o % 8, leVal (h.die :: h.dram))
  else if 0x400 ≤ o ∧ o < 0x700 then
    let h := s.hc (12 * d + (o - 0x400) / 0x40)
    let q := o % 0x40
    if q < 4 then (o - q, h.ppatNew.getD h.ppat) else if q < 8 then (o - q + 4, h.clbw.toNat) else (o, 0)
  else if 0x1000 ≤ o ∧ o < 0x1040 then
    let q := o - 0x1000
    if q < 8 then (0x1000, x.qhdr)
    else if q < 0xA then (0x1008, x.evAsid)
    else if 0x10 ≤ q ∧ q < 0x14 then (0x1010, bool1 x.evBusy + 2 * bool1 x.evFull)
    else if 0x20 ≤ q then (0x1020, leVal x.evRec) else (o, 0)
  else if 0x8000 ≤ o ∧ o < 0x8000 + 0x1000 * 145 then
    let (b, v) := coreReg s (cidOf d ((o - 0x8000) / 0x1000)) (o % 0x1000)
    (o - o % 0x1000 + b, v)
  else (o, 0)

def debugReg (c : Ctx) (o : Nat) : Nat × Nat :=
  if o < 4 then (0, c.dbgctl.toNat)
  else if 8 ≤ o ∧ o < 0x10 then (8, c.dbgentry)
  else if 0x10 ≤ o ∧ o < 0x18 then (0x10, c.mbox.toNat)
  else if 0x18 ≤ o ∧ o < 0x20 then (0x18, c.stepReg.toNat)
  else if 0x20 ≤ o ∧ o < 0x28 then (0x20, 0)
  else if 0x28 ≤ o ∧ o < 0x30 then (0x28, c.sring)
  else if 0x30 ≤ o ∧ o < 0x34 then (0x30, c.sint)
  else if 0x34 ≤ o ∧ o < 0x38 then (0x34, c.shead) else (o, 0)

def ctxReg (s : State) (asid : Nat) (c : Ctx) (o : Nat) : Nat × Nat :=
  if o < 8 then (0, c.ptroot)
  else if o < 0x10 then (8, c.fqbase)
  else if o < 0x14 then (0x10, c.fqmask)
  else if o < 0x18 then (0x14, c.fqtail)
  else if o < 0x1C then (0x18, c.fqhead)
  else if o < 0x20 then (o, 0)
  else if o < 0x28 then (0x20, c.save)
  else if o < 0x2C then (0x28, c.savesz)
  else if o < 0x2E then (0x2C, c.lease)
  else if o < 0x2F then (0x2E, c.prio + 4 * bool1 c.preempt)
  else if o < 0x30 then (0x2F, s.ctxState asid)
  else if o < 0x38 then (0x30, s.susMask asid)
  else if o < 0x40 then (0x38, c.cmdmask)
  else if o < 0x44 then (0x40, 4 * bool1 c.cmdDcc + 2 ^ 31 * bool1 c.cmdBusy)
  else if o < 0x48 then (0x44, c.cmdstat.toNat)
  else if o < 0x4C then (0x48, c.bslots)
  else if o < 0x50 then (0x4C, c.bbytes)
  else if o < 0x54 then (0x50, c.benergy)
  else if o < 0x58 then (0x54, s.uslots asid)
  else if o < 0x5C then (0x58, c.ubytes)
  else if o < 0x60 then (0x5C, c.uenergy)
  else if o < 0x64 then (0x60, c.expert)
  else if o < 0x70 then (o, 0)
  else if o < 0x80 then (0x70, c.ctlb.toNat)
  else if 0x100 ≤ o ∧ o < 0x300 then (o - o % 8, tgetD c.defq ((o - 0x100) / 8) 0)
  else (o, 0)

def reqKey : Requester → Nat
  | .core c => c
  | .port n => 2 ^ 32 + n

/-- The counter whose low half starts at this offset, if it is read by halves (R357, R375). -/
def State.latched (s : State) (ofs : Nat) : Option Nat :=
  match blockOf ofs with
  | .energy a o => if o = 0 then some (((s.ctx a).map (·.energy)).getD 0) else none
  | .dom d o => if 0x8000 ≤ o ∧ o < 0x8000 + 0x1000 * 145 then s.coreCounter (cidOf d ((o - 0x8000) / 0x1000)) (o % 0x1000) else none
  | _ => none

/-- The word at a 4-byte-aligned offset. -/
def State.mmioWord (s : State) (req : Requester) (ofs : Nat) : Word :=
  match s.latched ofs with
  | some v => wordOf (v % 2 ^ 32)
  | none =>
    if ofs % 8 = 4 ∧ (s.latched (ofs - 4)).isSome then tgetD s.wafer.elo (reqKey req) 0
    else
      wordOf (leVal ((List.range 4).map fun i =>
        let o := ofs + i
        let at' := fun (rel : Nat) (r : Nat × Nat) => BitVec.ofNat 8 (r.2 / 256 ^ (rel - r.1))
        match blockOf o with
        | .none => 0
        | .wafer w => at' w (waferReg s w)
        | .energy _ _ => 0
        | .debug a w =>
          match s.ctx a with
          | some c => at' w (debugReg c w)
          | none => 0
        | .dom d w => at' w (domReg s d w)
        | .ctx a w =>
          match s.ctx a with
          | some c => at' w (ctxReg s a c w)
          | none => 0))

/-- Read 4 or 8 bytes; a counter's low half latches its high half for the requester. -/
def State.mmioRead (s : State) (req : Requester) (ofs size : Nat) : State × Nat :=
  let s :=
    match s.latched ofs with
    | some v => s.putWafer { s.wafer with elo := tput s.wafer.elo (reqKey req) (wordOf (v / 2 ^ 32)) }
    | none => s
  let lo := (s.mmioWord req (ofs / 4 * 4)).toNat
  (s, if size == 8 then lo + 2 ^ 32 * (s.mmioWord req (ofs / 4 * 4 + 4)).toNat else lo)

end Sys2Proof.Machine
end

