-- ==== Sys2Proof/Machine/Access.lean ====
section
/-! DEFINITION. What the memory instructions share: effective addresses and their checks (R147, R148), translation and replay (R151,
R152), and how loads, stores and atomics set out (R153-R165, R189-R191, R251, R387). -/

namespace Sys2Proof.Machine

/-! Operands and addresses. -/

/-- Register r of a file in lane l, a scalar in every lane. -/
def Group.laneWord (g : Group) (gid : Nat) (f : SFile) (r l : Nat) : Word :=
  match f with
  | .vec => g.readLane gid (.vec (g.rename r)) l
  | .scal => g.readScal gid r
  | .spec => 0

def Group.lanePair (g : Group) (gid : Nat) (f : SFile) (r l : Nat) : Nat :=
  (g.laneWord gid f r l).toNat + 2 ^ 32 * (g.laneWord gid f (r + 1) l).toNat

/-- An offset in B: I32 or a sign-extended short immediate. -/
def Group.laneOffset (g : Group) (gid : Nat) (b : BOp) (l : Nat) : Int :=
  match b with
  | .src x => (g.laneWord gid x.file x.reg.toNat l).toInt
  | .imm v => v.toInt

/-- An operand in B of n words: registers, or a short immediate sign-extended to the access. -/
def Group.laneOperand (g : Group) (gid : Nat) (b : BOp) (n l : Nat) : List Word :=
  match b with
  | .src x => (List.range n).map fun i => g.laneWord gid x.file (x.reg.toNat + i) l
  | .imm v => [v.signExtend 32, (v.signExtend 64).extractLsb' 32 32].take n

/-- B read as U32, or a short immediate zero-extended (LDQ, STDESC). -/
def Group.laneIndex (g : Group) (gid : Nat) (b : BOp) (l : Nat) : Word :=
  match b with
  | .src x => g.laneWord gid x.file x.reg.toNat l
  | .imm v => v.zeroExtend 32

/-- The words of a data register D. -/
def Group.laneData (g : Group) (gid : Nat) (d : Dst) (n l : Nat) : List Word :=
  (List.range n).map fun i => g.laneWord gid (if d.file == .vec then .vec else .scal) (d.reg.toNat + i) l

/-- Global effective address (R148). -/
def Group.ea64 (g : Group) (gid : Nat) (a : Src) (q : MemQ) (u : Nat) (off : Int) (line : Bool) (l : Nat) : Nat :=
  let e := ((g.lanePair gid a.file a.reg.toNat l : Int) + off + q.disp.toInt * u) % 2 ^ 64
  if line then e.toNat / 64 * 64 else e.toNat

/-- Scratchpad effective address (R148). -/
def Group.ea32 (g : Group) (gid : Nat) (a : Src) (q : MemQ) (u : Nat) (off : Int) (l : Nat) : Nat :=
  (((g.laneWord gid a.file a.reg.toNat l).toNat + off + q.disp.toInt * u) % 2 ^ 32 : Int).toNat

/-! Translation and replay. -/

/-- How an instruction goes to memory: once for the group or per lane, its access size, its kind, whether it names lines, whether host
memory takes it as an atomic (R164), whether the in-flight table holds it (R370), whether it is a release; the sources that make its
addresses, its other sources, and its destination or data registers. -/
structure MemPlan where
  uni : Bool
  size : Nat
  kind : AccKind
  lineOp : Bool
  hostOk : Bool
  tracked : Bool
  rel : Bool := false
  addr : List Use := []
  data : List Use := []
  regs : List (SFile × Nat × Nat) := []
  deriving DecidableEq, Repr

/-- Whether the instruction's ORD makes it a release (R34). -/
def memReleases (q : MemQ) : Bool := q.ord == .rel || q.ord == .ar

/-- What the issue of a memory instruction does to the window: SW and a release drain it (R81). -/
def Group.memStart (g : Group) (h : Hdr) (rel : Bool) (ks : Kills) : Group := if h.sch.sw || rel then g.drainNow ks else g

/-- Lanes that a memory instruction runs at its first issue: after RTE to it only those of sr.replay (R152, R182). -/
def Group.memRun (g : Group) (h : Hdr) : LaneMask :=
  let run := g.runMask h
  if !g.level && g.sched.replayPc == some g.pc.toNat && g.replay != 0 then run &&& g.replay else run

/-- A precise trap of a memory access in the lanes `bad` (R178, R179). -/
def State.memTrap (s : State) (gid : Nat) (g : Group) (code : Nat) (bad : LaneMask) (ea : List Nat) : State :=
  let fa := ea.getD (((lanesOf bad).head?).getD 0) 0
  let key := (g.acc.map (·.key)).getD 0
  let s := if key != 0 && !(g.vres.any fun v => v.infl == key) then s.inflFree (gidCid gid) key else s
  let g := { g with sched := { g.sched with replayPc := some g.pc.toNat } }
  (s.putGroup gid g).takeTrap gid { code := code, arg := 0, resume := g.pc.toNat, faddr := fa, flanes := bad }

/-- The lanes to perform: lane 0 alone of an instruction that acts once. -/
def MemPlan.lanes (p : MemPlan) (m : LaneMask) : List Nat := if p.uni then (if m = 0 then [] else [0]) else lanesOf m

/-- Unique lines of an access (R151). -/
def Access.lines (a : Access) : List Nat := uniqueNats ((lanesOf a.todo).map fun l => a.ea.getD l 0 / 64)

/-- Enter the access in the in-flight table, at its issue (R370). -/
def State.memEntry (s : State) (gid : Nat) (g : Group) (p : MemPlan) (a : Access) : State × Access :=
  if !p.tracked || a.key != 0 then (s, a)
  else
    let ls := a.lines
    let first := (lanesOf a.todo).foldl (fun m l => min m (a.ea.getD l 0)) (2 ^ 48 - 1)
    let e : Infl := { op := s.uid, asid := s.asidOf g, kind := 4, slot := gidSlot gid, engine := 0, tag := 0, va := first, lines := ls.length, remain := ls.length, state := 0 }
    ({ s.inflTake (gidCid gid) e with uid := s.uid + 1 }, { a with key := s.uid })

/-- An access about to be performed at physical addresses: lane, address, whether its page is read-only (R316). -/
abbrev Placed := List (Nat × Nat × Bool)

/-- What performing does: the state after it, and a watchpoint hit. -/
abbrev Perform := State → Access → Placed → State × Option (Nat × Nat)

/-- Every translation is known: faults, among them those of data registers (R180: log 24), or the present lanes are performed and the
others wait for their pages (R152). -/
def State.memPerform (s : State) (gid : Nat) (g : Group) (h : Hdr) (p : MemPlan) (a : Access) (known : Nat → Option Xlat) (perform : Perform) : State :=
  let cid := gidCid gid
  let asid := s.asidOf g
  let at' := fun (l : Nat) => known (pageOf (a.ea.getD l 0))
  let paOf := fun (l : Nat) =>
    match at' l with
    | some (.ok pa w _ _) => some (pa + a.ea.getD l 0 % 4096, !w)
    | _ => none
  let bad := fun (l : Nat) =>
    match at' l with
    | some (.fault c) => some c
    | _ =>
      match paOf l with
      | some (pa, _) => s.targetCheck g cid asid pa p.size p.kind p.lineOp p.hostOk
      | none => none
  let wrong := maskOf fun l => a.todo.getLsbD l && (bad l).isSome
  match (lanesOf wrong).head?.bind bad, g.useFault p.data p.regs with
  | some code, _ => s.memTrap gid { g with acc := some a } code wrong a.ea
  | none, some (code, arg) => (s.inflFree cid a.key).trapHere gid g code arg
  | none, none =>
    let absent := maskOf fun l => a.todo.getLsbD l && (paOf l).isNone
    let present := a.todo &&& ~~~absent
    let s := (s.inflState cid a.key 1).putGroup gid g
    let placed := (p.lanes present).filterMap fun l =>
      let l' := if p.uni then ((lanesOf present).head?).getD 0 else l
      (paOf l').map fun (pa, ro) => (l, pa, ro)
    let (s, hit) := if present = 0 then (s, a.hit) else
      let (s, x) := perform s a placed
      (s, a.hit.orElse fun _ => x)
    match s.group gid with
    | none => s
    | some g =>
      if absent = 0 then
        let s := if p.tracked && !(g.vres.any fun v => v.infl == a.key) then s.inflFree cid a.key else s
        let s := s.finish gid { g.spend a.kills with park := .running, acc := some a } h none
        match hit, s.group gid with
        | some (n, fa), some g' => s.takeTrap gid { code := 0x22, arg := n, resume := g'.pc.toNat, faddr := fa, sw := h.sch.sw }
        | _, _ => s
      else
        let s := s.inflState cid a.key 2
        s.putGroup gid { g with replay := absent, park := .xlat, acc := some { a with todo := absent, xl := [], walks := [], parked := true, hit := hit } }

/-- The unique pages of the lanes to perform. -/
def Access.pageList (a : Access) : List Nat := uniqueNats ((lanesOf a.todo).map fun l => pageOf (a.ea.getD l 0))

/-- Translate what is not known yet; when all is, perform (R151). -/
def State.memGo (s : State) (gid : Nat) (g : Group) (h : Hdr) (p : MemPlan) (a : Access) (perform : Perform) : State :=
  let cid := gidCid gid
  let asid := s.asidOf g
  let known := fun (page : Nat) => (tget a.xl page).orElse fun _ => s.tlbHit cid asid page p.kind g.priv
  if a.parked || !a.walks.isEmpty then s
  else
    let pages := a.pageList
    let missing := pages.filter fun q => (known q).isNone
    if missing.isEmpty then s.memPerform gid g h p a known perform
    else
      let xl := pages.foldl (fun t q => match known q with
        | some x => tput t q x
        | none => t) a.xl
      let (s, ws) := missing.foldl (fun (acc : State × List Nat) q =>
        let (s, id) := acc.1.askWalk ⟨cidDom cid, cid, asid, q, p.kind, .ls, g.priv, some gid, false, .none⟩
        (s, acc.2 ++ [id])) (s, [])
      s.putGroup gid { g with acc := some { a with xl := xl, walks := ws }, park := .xlat }

/-- One page is looked up in a clock: the next instruction issues at t + P or later (R151). -/
def Group.lookUps (g : Group) (clk pages : Nat) : Group := { g with sched := { g.sched with notBefore := max g.sched.notBefore (clk + pages) } }

/-- A memory instruction in the global space: the operands are read at the first issue, R148's checks made, then translation. The address
sources are tested first, since without them there is no address (R180: log 24). A repeat looks its pages up again (R151, R152). -/
def State.memAccess (s : State) (gid : Nat) (g : Group) (h : Hdr) (p : MemPlan) (eaOf : Group → Nat → Nat)
    (valsOf : Group → Nat → List Word) (perform : Perform) : State :=
  match g.acc with
  | some a =>
    let again := !a.parked && a.xl.isEmpty && a.walks.isEmpty
    s.memGo gid (if again then (g.memStart h p.rel a.kills).lookUps (s.cclk (gidCid gid)) a.pageList.length else g) h p a perform
  | none =>
    let run := g.memRun h
    if run = 0 then s.finish gid g h none
    else
      match g.useFault p.addr [] with
      | some (code, arg) => s.trapHere gid g code arg
      | none =>
        let lanes := List.range 32
        let ea := lanes.map fun l => if p.uni || run.getLsbD l then eaOf g l else 0
        let ks := g.killsOf run run (p.addr ++ p.data)
        let a : Access :=
          { todo := run, ea := ea, vals := lanes.map fun l => if p.uni || run.getLsbD l then valsOf g l else [], xl := [], walks := [], parked := false, kills := ks }
        let off := maskOf fun l => run.getLsbD l && ea.getD l 0 % p.size != 0
        let high := maskOf fun l => run.getLsbD l && decide (ea.getD l 0 ≥ 2 ^ 48)
        if off != 0 then s.memTrap gid g 0x04 off ea
        else if high != 0 then s.memTrap gid g 0x05 high ea
        else
          let (s, a) := s.memEntry gid g p a
          s.memGo gid ((g.memStart h p.rel ks).lookUps (s.cclk (gidCid gid)) a.pageList.length) h p a perform

/-! Loads. -/

/-- Bytes of a load size (R153). -/
def ldBytes : LdSz → Nat
  | .u8 => 1
  | .s8 => 1
  | .u16 => 2
  | .s16 => 2
  | .b32 => 4
  | .b64 => 8
  | .b128 => 16

/-- Bytes of a store size (R153). -/
def stBytes : StSz → Nat
  | .b8 => 1
  | .b16 => 2
  | .b32 => 4
  | .b64 => 8
  | .b128 => 16

/-- What a load does with its lines: destinations, form per lane, size, qualifiers. -/
structure LoadPlan where
  dsts : List RegName
  form : Nat → LoadForm
  size : Nat
  q : MemQ
  pages : Nat
  lines : Nat := 1

/-- Rounds lost at the shared port of the store's banks by an access of m rows one after another: at most three for a row, how many is
left open (R187: log 6). -/
def State.lostRounds (s : State) (m : Nat) : Nat := Config.extraDelay s.uid % (3 * m + 1)

/-- Whether L1 may serve a load or take a store of this line (R155, R251, R277, R387). -/
def l1May (cid line : Nat) (q : MemQ) : Bool :=
  !isDcc cid && !q.poll && q.cpol != .bypass && !(q.str && scopeNum q.scope ≥ 1) && !lineIsFar line && !(lineIsDsm line && lineHome line != cidDom cid)

def classOf (q : MemQ) : LineClass :=
  match q.cpol with
  | .evict => .evict
  | .keep => .keep
  | _ => .normal

/-- The word of a line that element i occupies. -/
def elemOfs (d : LineDesc) (i : Word) : Nat :=
  let n := (descFmt d).count
  if i.toNat < n then 4 * (i.toNat * 16 / n) else 0

/-- A lane from L1, if every word it needs can be read (R190). -/
def State.l1Lane (s : State) (cid : Nat) (r : LaneReq) : Option (List Word × Flags) :=
  let line := r.pa / 64
  match s.l1 cid line with
  | none => none
  | some x =>
    let img : LineImg := ⟨x.data, if x.descValid then x.desc else Config.freshDesc⟩
    let ok := match r.form with
      | .data sz => (s.l1Read cid r.pa (ldBytes sz) false).isSome
      | .elem i => (s.l1Read cid (64 * line + elemOfs x.desc i) 4 true).isSome
      | .desc => x.descValid && decide (s.pts cid ≤ x.rts) && !s.linePending cid line
    if ok then some (loadLane img (r.pa % 64) r.form) else none

/-- A load's result in flight, nothing arrived yet. -/
def loadRes (id num key due : Nat) (cl : Bool) (lp : LoadPlan) (lanes : LaneMask) (fa : Nat) : VRes :=
  { id := id, num := num, kind := .load, own := true, writer := 0, dsts := lp.dsts, lanes := lanes, ready := 0,
    vals := lp.dsts.map fun _ => zeroLanes, lflags := [], due := due, cl := cl, acq := if lp.q.ord == .acq || lp.q.ord == .ar then some lp.q.scope else none,
    wts := 0, far := false, waits := [], fill := 0, quire := none, faddr := fa, infl := key }

/-- Put a result in flight. -/
def State.addVRes (s : State) (gid : Nat) (v : VRes) (poll : Bool) : State :=
  let s := s.modGroup gid fun g => { g with vres := g.vres ++ [v], sched := { g.sched with poll := if poll then g.sched.poll ++ [v.id] else g.sched.poll } }
  { s with uid := s.uid + 1 }

/-- The lanes of a load in one line of memory set out (R155). -/
def State.loadLine (s : State) (gid : Nat) (a : Access) (lp : LoadPlan) (hit : Nat) (line : Nat) (ls : Placed) : State :=
  let cid := gidCid gid
  match s.group gid with
  | none => s
  | some g =>
    let asid := s.asidOf g
    let reqs := ls.map fun (l, pa, _) => ({ lane := l, pa := pa, form := lp.form l } : LaneReq)
    let mask := maskOf fun l => ls.any fun (k, _, _) => k == l
    let fa := a.ea.getD ((ls.head?.map (·.1)).getD 0) 0
    let ro := ls.any fun (_, _, r) => r
    let num := g.sched.issued
    let id := s.uid
    let wide := lp.q.poll || lp.q.cpol == .bypass || isDcc cid || (lp.q.str && scopeNum lp.q.scope ≥ 2)
    let far := s.now + s.pathLatency cid line (if wide && !(ro && lp.q.str) then .wide else .any)
    if l1May cid line lp.q then
      match reqs.mapM fun r => (s.l1Lane cid r).map fun v => (r.lane, v.1, v.2) with
      | some vals =>
        let due := s.cclk cid + hit + s.lostRounds ((lp.lines + 3) / 4)
        let s := s.addVRes gid (loadRes id num a.key due true lp mask fa) lp.q.poll
        let s := s.classL1 cid line (classOf lp.q)
        let s := match s.l1 cid line with
          | some x => if x.descValid then s.countPoison cid ⟨x.data, x.desc⟩ else s
          | none => s
        s.deliver gid id vals 0 false due
      | none =>
        let s := s.addVRes gid (loadRes id num a.key far false lp mask fa) lp.q.poll
        let (s, f) := s.askFill cid line asid ro (classOf lp.q)
        s.modGroup gid fun g => { g with vres := g.vres.map fun v => if v.id == id then { v with waits := reqs, fill := f } else v }
    else
      let s := s.addVRes gid (loadRes id num a.key far false lp mask fa) lp.q.poll
      let r : ReadReq :=
        { gid := gid, op := id, core := cid, line := line, asid := asid, scope := if lp.q.str then lp.q.scope else .team,
          bypass := lp.q.poll || lp.q.cpol == .bypass || isDcc cid, str := lp.q.str, acq := lp.q.ord == .acq, ro := ro, lanes := reqs }
      (s.classAsked cid line lp.q.cpol).addRequest cid asid (State.toSlice cid line) (.read r)

/-- Lanes that no slice serves: the core-local aperture, MMIO and the topology table, read now. -/
def State.loadDevice (s : State) (gid cid : Nat) (lp : LoadPlan) (x : Nat × Nat × Bool) : State × (Nat × List Word × Flags) :=
  let (l, pa, _) := x
  let fresh := fun (bs : List Byte) => (⟨bs, Config.freshDesc⟩ : LineImg)
  match targetOf pa with
  | .core o =>
    match (s.group gid).bind fun g => (s.team g.team).map fun t => (g.team, t) with
    | some (tid, t) =>
      if o < 0x100000 then
        let img := (s.spadSeen tid t fun w => w / 64 == o / 64).spLine (o / 64)
        let v := loadLane img (o % 64) (lp.form l)
        ((s.spadRead tid).countPoison cid img, (l, v.1, v.2 ||| flagIf (t.badIn o lp.size) flPsn))
      else
        let v := loadLane (fresh (s.apertureRead t o 64)) 0 (lp.form l)
        (s, (l, v.1, v.2 ||| flagIf (s.apertureBad t o lp.size) flPsn))
    | none => (s, (l, [], 0))
  | .mmio o =>
    let (s, v) := s.mmioRead (.core cid) o lp.size
    let r := loadLane (fresh (leBytes 64 v)) 0 (lp.form l)
    (s, (l, r.1, r.2))
  | .topo o =>
    let r := loadLane (fresh ((List.range 64).map fun i => s.topoByte (o / 64 * 64 + i))) (o % 64) (lp.form l)
    (s, (l, r.1, r.2))
  | _ => (s, (l, [], 0))

def isMemory (pa : Nat) : Bool :=
  match targetOf pa with
  | .dram _ _ => true
  | .dsm _ _ => true
  | .host _ _ => true
  | .peer _ _ => true
  | _ => false

def isLocal (pa : Nat) : Bool :=
  match targetOf pa with
  | .core _ => true
  | _ => false

def isTopo (pa : Nat) : Bool :=
  match targetOf pa with
  | .topo _ => true
  | _ => false

/-- The most rows of the store that these scratchpad offsets touch in one bank (R156). -/
def scratchRows (base : Nat) (ofs : List Nat) : Nat :=
  let rows := uniqueNats (ofs.map fun o => 8 * base + o / 128)
  (List.range 48).foldl (fun m b => max m (rows.filter fun r => r % 48 == b).length) 1

/-- Lanes of one kind of device, landing together. -/
def State.loadDevices (s : State) (gid : Nat) (a : Access) (lp : LoadPlan) (ls : Placed) (due : Nat) (cl : Bool) : State :=
  if ls.isEmpty then s
  else
    let cid := gidCid gid
    let num := ((s.group gid).map fun g => g.sched.issued).getD 0
    let id := s.uid
    let mask := maskOf fun l => ls.any fun (k, _, _) => k == l
    let s := s.addVRes gid { loadRes id num a.key due cl lp mask (a.ea.getD ((ls.head?.map (·.1)).getD 0) 0) with fas := a.ea } lp.q.poll
    let (s, vals) := ls.foldl (fun (acc : State × List (Nat × List Word × Flags)) x =>
      let (s, v) := acc.1.loadDevice gid cid lp x
      (s, acc.2 ++ [v])) (s, [])
    s.deliver gid id vals 0 false due

/-- A load sets out: one result per line (R153, R155), and one per aperture, with the latencies of R396. -/
def State.loadAll (s : State) (gid : Nat) (lp : LoadPlan) (a : Access) (ls : Placed) : State :=
  let cid := gidCid gid
  let mem := ls.filter fun (_, pa, _) => isMemory pa
  let lines := uniqueNats (mem.map fun (_, pa, _) => pa / 64)
  let hit := 32 + (lp.pages - 1) + ((lines.length + 3) / 4 - 1)
  let s := lines.foldl (fun s line => s.loadLine gid a { lp with lines := lines.length } hit line (mem.filter fun (_, pa, _) => pa / 64 == line)) s
  let spad := ls.filter fun (_, pa, _) => isLocal pa && decide (pa % 2 ^ 23 < 0x100000)
  let rows := scratchRows (((s.group gid).bind s.teamOf |>.map (·.spBase)).getD 0) (spad.map fun (_, pa, _) => pa % 2 ^ 23)
  let s := s.loadDevices gid a lp spad (s.cclk cid + 22 + (rows - 1) + s.lostRounds rows) true
  let regs := ls.filter fun (_, pa, _) => isLocal pa && decide (0x100000 ≤ pa % 2 ^ 23)
  let s := s.loadDevices gid a lp regs (s.cclk cid + 22 + s.lostRounds 1) true
  let topo := ls.filter fun (_, pa, _) => isTopo pa
  let way := 64 + 2 * transit (cidDom cid) (siteRouter (cidSite cid)) (cidDom cid) 78
  let s := s.loadDevices gid a lp topo (s.now + way + Config.extraDelay s.uid) false
  s.loadDevices gid a lp (ls.filter fun (_, pa, _) => !isMemory pa && !isLocal pa && !isTopo pa) (s.now + Config.extraDelay s.uid) false

/-! Stores. -/

/-- The bytes of a line that lanes store, the highest-numbered lane's standing (R154). -/
def storeMask (u : Nat) (a : Access) (ls : Placed) : ByteMask :=
  ls.foldl (fun m (l, pa, _) => overMask m (byteMask (pa % 64) (leBytes u (leVal ((a.vals.getD l []).flatMap fun w => leBytes 4 w.toNat) % 2 ^ (8 * u))))) []

/-- Whether the group still waits for bytes of this line that [pa, pa+n) overlaps, from an earlier load. -/
def State.ownWaits (s : State) (gid pa n : Nat) : Bool :=
  let shares := fun (r : LaneReq) => decide (r.pa < pa + n) && decide (pa < r.pa + (match r.form with
    | .data _ => 16
    | _ => 64)) && r.pa / 64 == pa / 64
  (match s.group gid with
    | some g => g.vres.any fun v => v.waits.any shares
    | none => false) ||
  s.work.any fun w =>
    match w.job with
    | .read r => r.gid == gid && r.lanes.any shares
    | _ => false

/-- A write that goes to the slice or bank itself (R155, R195, R251, R277). -/
def State.sliceStore (s : State) (gid : Nat) (line : Nat) (kind : WKind) (m : ByteMask) (desc : Option LineDesc) (q : MemQ) : State :=
  let cid := gidCid gid
  let asid := ((s.group gid).map fun g => s.asidOf g).getD 0
  let s := (maskRuns m).foldl (fun s (o, bs) => s.staleWrites cid line o bs.length) s
  let rel := if memReleases q then some (s.relStart gid cid q.scope) else none
  let r : WriteReq :=
    { gid := gid, core := cid, dom := sliceOf cid line, line := line, asid := asid, kind := kind, bytes := m, newest := List.replicate 64 true,
      desc := desc, rel := rel, scope := q.scope, drop := false }
  let s := s.classAsked cid line q.cpol
  if rel.isSome then s.addWork (State.toSlice cid line) (.write r) else s.addRequest cid asid (State.toSlice cid line) (.write r)

/-- A line's bytes as the core's groups last see them, with their stores on the way, for the check of a watchpoint. -/
def State.seenLine (s : State) (cid line : Nat) : List Byte :=
  let held := if lineIsFar line then (s.farLine line).data
    else (List.range 64).map fun i =>
      match s.l1 cid line with
      | some x => if x.valid.getLsbD (i / 4) then x.data.getD i 0 else s.newestByte (64 * line + i)
      | none => s.newestByte (64 * line + i)
  (s.storesAhead none cid line).foldl (fun bs (_, r) =>
    patchMask bs ((List.range 64).map fun i => if r.newest.getD i false then r.bytes.getD i none else none)) held

/-- A line's descriptor as the core's groups last see it. -/
def State.seenDesc (s : State) (cid line : Nat) : LineDesc :=
  let held := match s.l1 cid line with
    | some x => if x.descValid then x.desc else s.newestDesc line
    | none => s.newestDesc line
  (s.storesAhead none cid line).foldl (fun d (_, r) => r.desc.getD d) held

/-- A store of bytes of one line sets out. -/
def State.storeLine (s : State) (gid : Nat) (q : MemQ) (line : Nat) (m : ByteMask) (ro : Bool) : State × Option (Nat × Nat) :=
  let cid := gidCid gid
  let asid := ((s.group gid).map fun g => s.asidOf g).getD 0
  let hit := if (s.core cid).watch.any (·.armed) then
      let old := s.seenLine cid line
      (s.watchHits cid asid line old (patchMask old m)).head?
    else none
  let s :=
    if l1May cid line q && !q.str then
      (maskRuns m).foldl (fun s (o, bs) =>
        if s.ownWaits gid (64 * line + o) bs.length then s.keepBehind gid cid asid (64 * line + o) bs (classOf q) ro
        else s.l1Store gid cid asid (64 * line + o) bs (classOf q) ro) s
    else s.sliceStore gid line .strong m none q
  (s, hit)

/-- A store to the team's own storage through the aperture (R77, R78). -/
def State.storeLocal (s : State) (gid : Nat) (u : Nat) (a : Access) (x : Nat × Nat × Bool) : State × Option (Nat × Nat) :=
  let (l, pa, _) := x
  let cid := gidCid gid
  match (s.group gid).bind fun g => (s.team g.team).map fun t => (g, t) with
  | none => (s, none)
  | some (g, t) =>
    let o := pa % 2 ^ 23
    let bs := leBytes u (leVal ((a.vals.getD l []).flatMap fun w => leBytes 4 w.toNat) % 2 ^ (8 * u))
    let hit := if (s.core cid).watch.any (·.armed) then
        let old := s.apertureRead t (o / 64 * 64) 64
        (s.watchHits cid (s.asidOf g) (pa / 64) old (patch old (o % 64) bs)).head?
      else none
    (s.apertureWrite 0 (some gid) g.team t o (s.cclk cid + 22) bs, hit)

/-- MMIO writes are the next steps of the machine: the registers' own. -/
def State.storeMmio (s : State) (gid : Nat) (u : Nat) (a : Access) (ls : Placed) : State :=
  match s.group gid with
  | none => s
  | some g =>
    let acc : MmioAcc := ⟨.core (gidCid gid), g.priv, s.asidOf g⟩
    let write := fun (x : Nat × Nat × Bool) => Instr.registerWrite acc (x.2.1 % 2 ^ 32) u
      (BitVec.ofNat 64 (leVal ((a.vals.getD x.1 []).flatMap fun w => leBytes 4 w.toNat) % 2 ^ (8 * u)))
    { s with agenda := ls.map (fun x => (s.now, write x)) ++ s.agenda }

/-- A store sets out (R153-R155). -/
def State.storeAll (s : State) (gid u : Nat) (q : MemQ) (a : Access) (ls : Placed) : State × Option (Nat × Nat) :=
  let mem := ls.filter fun (_, pa, _) => isMemory pa
  let lines := uniqueNats (mem.map fun (_, pa, _) => pa / 64)
  let join := fun (x : Option (Nat × Nat)) (r : State × Option (Nat × Nat)) => (r.1, x.orElse fun _ => r.2)
  let r := lines.foldl (fun (acc : State × Option (Nat × Nat)) line =>
    let mine := mem.filter fun (_, pa, _) => pa / 64 == line
    join acc.2 (acc.1.storeLine gid q line (storeMask u a mine) (mine.any fun (_, _, ro) => ro))) (s, none)
  let r := (ls.filter fun (_, pa, _) => isLocal pa).foldl (fun acc x => join acc.2 (acc.1.storeLocal gid u a x)) r
  (r.1.storeMmio gid u a (ls.filter fun (_, pa, _) => !isMemory pa && !isLocal pa), r.2)

/-- A watchpoint that a change of the line's descriptor hits: its first watched byte there (R373: log 75). -/
def State.watchDesc (s : State) (cid asid line : Nat) (old new : LineDesc) : Option (Nat × Nat) :=
  if old == new then none
  else (s.watchHits cid asid line zeroLine (List.replicate 64 1)).head?

/-- A descriptor of one line sets out. -/
def State.descLine (s : State) (gid : Nat) (q : MemQ) (line pa : Nat) (d : LineDesc) : State × Option (Nat × Nat) :=
  let cid := gidCid gid
  match s.group gid with
  | none => (s, none)
  | some g =>
    let memory := (s.sliceStore gid line .desc [] (some d) q, s.watchDesc cid (s.asidOf g) line (s.seenDesc cid line) d)
    match targetOf pa with
    | .core o =>
      let old := ((s.team g.team).map fun t => t.spLineDesc (o / 64)).getD d
      (s.modTeam g.team fun t => t.spSetDesc (o / 64) d, s.watchDesc cid (s.asidOf g) line old d)
    | .dram _ _ => memory
    | .dsm _ _ => memory
    | _ => (s, none)

/-- Descriptors set out (R159): the highest-numbered lane's value per line. Host memory has none (log 34). -/
def State.descAll (s : State) (gid : Nat) (q : MemQ) (a : Access) (ls : Placed) : State × Option (Nat × Nat) :=
  let lines := uniqueNats (ls.map fun (_, pa, _) => pa / 64)
  lines.foldl (fun (acc : State × Option (Nat × Nat)) line =>
    match (ls.filter fun (_, pa, _) => pa / 64 == line).getLast? with
    | none => acc
    | some (l, pa, _) =>
      let r := acc.1.descLine gid q line pa (((a.vals.getD l []).getD 0 0).extractLsb' 0 16)
      (r.1, acc.2.orElse fun _ => r.2)) (s, none)

/-! Atomics. -/

/-- An atomic sets out: one request per line (R163, R165), or of one with SC one per lane, in ascending lane order, each of which takes a
ticket (R308). -/
def State.atomAll (s : State) (gid : Nat) (k : AtomKind) (q : MemQ) (dsts : List RegName) (a : Access) (ls : Placed) : State :=
  let cid := gidCid gid
  match s.group gid with
  | none => s
  | some g =>
    let asid := s.asidOf g
    let id := s.uid
    let lines := uniqueNats (ls.map fun (_, pa, _) => pa / 64)
    let mask := maskOf fun l => ls.any fun (x, _, _) => x == l
    let seq := if q.sc then 2 * transit (cidDom cid) (siteRouter (cidSite cid)) seqDom 78 else 0
    let lat := seq + lines.foldl (fun m line => max m (s.pathLatency cid line .home)) 0
    let acq := q.ord == .acq || q.ord == .ar
    let res : VRes :=
      { id := id, num := g.sched.issued, kind := .atomic, own := true, writer := 0, dsts := dsts, lanes := mask, ready := 0, vals := dsts.map fun _ => zeroLanes,
        lflags := [], due := s.now + lat + 4, cl := false, acq := if acq then some q.scope else none, wts := 0, far := false, waits := [], fill := 0,
        quire := none, faddr := a.ea.getD ((ls.head?.map (·.1)).getD 0) 0, infl := a.key, fas := a.ea }
    let s := if dsts.isEmpty then { s with uid := s.uid + 1 } else s.addVRes gid res false
    let rel := if memReleases q then some (s.relStart gid cid q.scope) else none
    let parts : List Placed := if q.sc then ls.map fun x => [x] else lines.map fun line => ls.filter fun (_, pa, _) => pa / 64 == line
    parts.foldl (fun s mine =>
      let line := ((mine.head?).map fun (_, pa, _) => pa / 64).getD 0
      let word := fun (l i : Nat) => (a.vals.getD l []).getD i 0
      let r : AtomReq :=
        { gid := gid, op := id, core := cid, line := line, asid := asid, scope := q.scope, acq := acq, sc := q.sc, ticket := none, kind := k,
          lanes := mine.map fun (l, pa, _) => ⟨l, pa, dwordOf (word l 0) (word l 1), dwordOf (word l 2) (word l 3)⟩, ret := !dsts.isEmpty, rel := rel }
      if rel.isSome then s.addWork (State.toHome cid line) (.atomic r) else s.addRequest cid asid (State.toHome cid line) (.atomic r)) s

/-! The scratchpad (R156). -/

/-- Latency of a scratchpad instruction: 22 and one clock more per further row of the fullest bank. -/
def scratchLatency (base : Nat) (ofs : List Nat) : Nat := 22 + (scratchRows base ofs - 1)

/-- A scratchpad access performed over the lanes, with the words each brings; what it does to the window as it completes. -/
def State.scratchGo (s : State) (gid : Nat) (g : Group) (h : Hdr) (u : Nat) (a : Access)
    (act : State → Team → List (Nat × Nat × List Word) → Nat → State) : State :=
  match s.team g.team with
  | none => s
  | some t =>
    let lanes := (lanesOf a.todo).map fun l => (l, a.ea.getD l 0, a.vals.getD l [])
    let ofs := lanes.map (·.2.1)
    let s := s.putGroup gid { g.spend a.kills with park := .running, acc := none }
    let t := s.spadSeen g.team t fun w => ofs.any fun o => decide (w < o + u) && decide (o < w + 4)
    let s := act (s.spadRead g.team) t lanes (s.cclk (gidCid gid) + scratchLatency t.spBase ofs + s.lostRounds (scratchRows t.spBase ofs))
    match s.group gid with
    | some g => s.finish gid g h none
    | none => s

/-- Whether a scratchpad release must still wait for the group's earlier reads and stores into registers (R299, R301: log 76). -/
def State.scratchHeld (s : State) (gid : Nat) (rel : Bool) : Bool := rel && !(s.readsDone gid none && s.storesLanded gid none)

/-- A scratchpad instruction: its checks, then `act` over the running lanes with their offsets and words. The address sources are tested
before R148's checks, the other registers after them (R180: log 24). -/
def State.scratch (s : State) (gid : Nat) (g : Group) (h : Hdr) (u : Nat) (rel : Bool) (addr data : List Use) (d : List (SFile × Nat × Nat))
    (eaOf : Group → Nat → Nat) (valsOf : Group → Nat → List Word) (act : State → Team → List (Nat × Nat × List Word) → Nat → State) : State :=
  match g.acc with
  | some a => if s.scratchHeld gid rel then s else s.scratchGo gid g h u a act
  | none =>
    let run := g.memRun h
    if run = 0 then s.finish gid g h none
    else
      match g.useFault addr [] with
      | some (code, arg) => s.trapHere gid g code arg
      | none =>
        let lanes := List.range 32
        let ea := lanes.map fun l => if run.getLsbD l then eaOf g l else 0
        let size := ((s.team g.team).map (·.spBytes)).getD 0
        let off := maskOf fun l => run.getLsbD l && ea.getD l 0 % u != 0
        let high := maskOf fun l => run.getLsbD l && decide (ea.getD l 0 + u > size)
        if off != 0 then s.memTrap gid g 0x04 off ea
        else if high != 0 then s.memTrap gid g 0x05 high ea
        else
          match g.useFault data d with
          | some (code, arg) => s.trapHere gid g code arg
          | none =>
            let ks := g.killsOf run run (addr ++ data)
            let a : Access :=
              { todo := run, ea := ea, vals := lanes.map fun l => if run.getLsbD l then valsOf g l else [], xl := [], walks := [], parked := false, kills := ks }
            let g := g.memStart h rel ks
            if s.scratchHeld gid rel then s.waitAt gid { g with acc := some a } 1 else s.scratchGo gid g h u a act

/-- A scratchpad result in flight, with its entry in the in-flight table. -/
def State.scratchRes (s : State) (gid : Nat) (kind : VKind) (dsts : List RegName) (lanes : List (Nat × Nat × List Word)) (vals : List (Nat × List Word × Flags)) (due : Nat)
    (q : MemQ) : State :=
  match s.group gid with
  | none => s
  | some g =>
    let key := s.uid
    let first := lanes.foldl (fun m (_, o, _) => min m o) (2 ^ 32)
    let n := (uniqueNats (lanes.map fun (_, o, _) => o / 64)).length
    let s := { s.inflTake (gidCid gid) ⟨key, s.asidOf g, 4, gidSlot gid, 0, 0, first, n, n, 1⟩ with uid := s.uid + 1 }
    let id := s.uid
    let mask := maskOf fun l => lanes.any fun (k, _, _) => k == l
    let v : VRes :=
      { id := id, num := g.sched.issued, kind := kind, own := true, writer := 0, dsts := dsts, lanes := mask, ready := 0, vals := dsts.map fun _ => zeroLanes, lflags := [],
        due := due, cl := true, acq := none, wts := 0, far := false, waits := [], fill := 0, quire := none, faddr := ((lanes.head?).map (·.2.1)).getD 0, infl := key,
        fas := (List.range 32).map fun l => ((lanes.find? fun (k, _, _) => k == l).map (·.2.1)).getD 0 }
    (s.addVRes gid v q.poll).deliver gid id vals 0 false due

end Sys2Proof.Machine
end

