-- ==== Sys2Proof/Machine/Memory.lean ====
section
/-! DEFINITION. Memory instructions, opcodes 0x70-0x84 (R147-R165). -/

namespace Sys2Proof.Machine

/-- Destination registers of n values. -/
def Group.dstRegs (g : Group) (d : Dst) (n : Nat) : List RegName := (List.range n).map fun i => dstName g d.file (d.reg.toNat + i)

def pagesOf (a : Access) : Nat := (uniqueNats ((lanesOf a.todo).map fun l => pageOf (a.ea.getD l 0))).length

/-- A load (R153, R158, R159). form gives what a lane delivers from its kept words; index says that B is no part of the address. The
destination is named as it was at the issue: while its translations are awaited, no loop register changes (Group.underWay). -/
def State.loadInstr (s : State) (gid : Nat) (g : Group) (o : Mem) (uni : Bool) (regs size : Nat) (line index : Bool) (us : List Use) (off : Group → Nat → Int)
    (vals : Group → Nat → List Word) (form : Access → Nat → LoadForm) : State :=
  let p : MemPlan :=
    { uni := uni, size := size, kind := .read, lineOp := line, hostOk := true, tracked := true,
      addr := srcUse o.a 0 2 Perm.id :: (if index then [] else us), data := if index then us else [], regs := dstUse o.d regs }
  s.memAccess gid g o.hdr p (fun g l => g.ea64 gid o.a o.q size (off g l) line l) vals fun s a ls =>
    (s.loadAll gid ⟨g.dstRegs o.d regs, form a, size, o.q, pagesOf a, 1⟩ a ls, none)

def execLd (v : LdSz) (o : Mem) (s : State) : Out :=
  s.withGroup fun gid g => s.loadInstr gid g o false v.regs (ldBytes v) false false (bopUse o.b 1) (fun g l => g.laneOffset gid o.b l) (fun _ _ => []) fun _ _ => .data v
/-- LDU: once for the group (R39). -/
def execLdu (v : LdSz) (o : Mem) (s : State) : Out :=
  s.withGroup fun gid g => s.loadInstr gid g o true v.regs (ldBytes v) false false (bopUse o.b 1) (fun g l => g.laneOffset gid o.b l) (fun _ _ => []) fun _ _ => .data v
/-- LDQ: B is the element index. -/
def execLdq (_ : Only) (o : Mem) (s : State) : Out :=
  s.withGroup fun gid g => s.loadInstr gid g o false 1 64 true true (bopUse o.b 1) (fun _ _ => 0) (fun g l => [g.laneIndex gid o.b l]) fun a l => .elem ((a.vals.getD l []).getD 0 0)
def execLddesc (_ : Only) (o : Mem) (s : State) : Out :=
  s.withGroup fun gid g => s.loadInstr gid g o false 1 64 true false (bopUse o.b 1) (fun g l => g.laneOffset gid o.b l) (fun _ _ => []) fun _ _ => .desc

/-- A store (R153). -/
def State.storeInstr (s : State) (gid : Nat) (g : Group) (o : Mem) (uni : Bool) (regs size : Nat) : State :=
  let p : MemPlan :=
    { uni := uni, size := size, kind := .write, lineOp := false, hostOk := true, tracked := false, rel := memReleases o.q,
      addr := srcUse o.a 0 2 Perm.id :: bopUse o.b 1, regs := dstUse o.d regs }
  s.memAccess gid g o.hdr p (fun g l => g.ea64 gid o.a o.q size (g.laneOffset gid o.b l) false l)
    (fun g l => g.laneData gid o.d regs l) fun s a ls => s.storeAll gid size o.q a ls

def execSt (v : StSz) (o : Mem) (s : State) : Out := s.withGroup fun gid g => s.storeInstr gid g o false v.regs (stBytes v)
def execStu (v : StSz) (o : Mem) (s : State) : Out := s.withGroup fun gid g => s.storeInstr gid g o true v.regs (stBytes v)

/-- STDESC (R159). -/
def execStdesc (_ : Only) (o : Mem) (s : State) : Out :=
  s.withGroup fun gid g =>
    let p : MemPlan :=
      { uni := false, size := 64, kind := .write, lineOp := true, hostOk := true, tracked := false, rel := memReleases o.q,
        addr := [srcUse o.a 0 2 Perm.id], data := bopUse o.b 1 }
    s.memAccess gid g o.hdr p (fun g l => g.ea64 gid o.a o.q 64 0 true l) (fun g l => [g.laneIndex gid o.b l]) fun s a ls => s.descAll gid o.q a ls

/-! The scratchpad. -/

def execLds (v : LdSz) (o : Mem) (s : State) : Out :=
  s.withGroup fun gid g =>
    s.scratch gid g o.hdr (ldBytes v) false (srcUse o.a 0 1 Perm.id :: bopUse o.b 1) [] (dstUse o.d v.regs)
      (fun g l => g.ea32 gid o.a o.q (ldBytes v) (g.laneOffset gid o.b l) l) (fun _ _ => []) fun s t ls due =>
        let s := ls.foldl (fun s (_, e, _) => s.countPoison (gidCid gid) (t.spLine (e / 64))) s
        s.scratchRes gid .load (g.dstRegs o.d v.regs) ls (ls.map fun (l, e, _) =>
          let r := loadLane (t.spLine (e / 64)) (e % 64) (.data v)
          (l, r.1, r.2 ||| flagIf (t.badIn e (ldBytes v)) flPsn)) due o.q

def execSts (v : StSz) (o : Mem) (s : State) : Out :=
  s.withGroup fun gid g =>
    s.scratch gid g o.hdr (stBytes v) (memReleases o.q) (srcUse o.a 0 1 Perm.id :: bopUse o.b 1) [] (dstUse o.d v.regs)
      (fun g l => g.ea32 gid o.a o.q (stBytes v) (g.laneOffset gid o.b l) l) (fun g l => g.laneData gid o.d v.regs l) fun s _ ls _ => ls.foldl (fun s (_, e, ws) =>
        s.spadStore 0 g.team e (leBytes (stBytes v) (leVal (ws.flatMap fun w => leBytes 4 w.toNat) % 2 ^ (8 * (stBytes v))))) s

/-- A scratchpad atomic, lane by lane in ascending order (R163). -/
def atomScratch (k : AtomKind) (t : Team) (ls : List AtomLane) : Team × List (Nat × List Word × Flags) :=
  ls.foldl (fun (acc : Team × List (Nat × List Word × Flags)) a =>
    let (t, out) := acc
    let poison := poisoned (t.spLineDesc (a.pa / 64))
    let psn := poison || t.badIn a.pa 4
    let m : DWord := BitVec.ofNat 64 (if poison then 0 else leVal (t.spBytesAt a.pa 4))
    let r := atomStep k m a.b a.d
    (t.spWrite a.pa (leBytes 4 r.1.toNat), out ++ [(a.lane, [loWord m], r.2 ||| flagIf psn flPsn)])) (t, [])

def State.scratchAtom (s : State) (gid : Nat) (g : Group) (o : Mem) (k : AtomKind) : State :=
  s.scratch gid g o.hdr 4 (memReleases o.q) [srcUse o.a 0 1 Perm.id] (bopUse o.b 1) (dstUse o.d 1) (fun g l => g.ea32 gid o.a o.q 4 0 l)
    (fun g l => [(g.laneOperand gid o.b 1 l).getD 0 0, (g.laneData gid o.d 1 l).getD 0 0]) fun s t ls due =>
    let lanes := ls.map fun (l, e, ws) => ({ lane := l, pa := e, b := dwordOf (ws.getD 0 0) 0, d := dwordOf (ws.getD 1 0) 0 } : AtomLane)
    let s := ls.foldl (fun s (_, e, _) => s.countPoison (gidCid gid) (t.spLine (e / 64))) s
    let (t', out) := atomScratch k t lanes
    let s := ls.foldl (fun s (_, e, _) => s.spadStore 0 g.team e (t'.spBytesAt e 4)) s
    s.scratchRes gid .atomic (g.dstRegs o.d 1) ls out due o.q

def execAtoms (v : AtomOp) (o : Mem) (s : State) : Out := s.withGroup fun gid g => s.scratchAtom gid g o (.op v)
def execCass (_ : Only) (o : Mem) (s : State) : Out := s.withGroup fun gid g => s.scratchAtom gid g o (.cas .b32)

/-! Atomics at the home bank. -/

/-- Words of an atomic's lane: operand low and high, swap value low and high. -/
def Group.atomVals (g : Group) (gid : Nat) (o : Mem) (regs : Nat) (swap : Bool) (l : Nat) : List Word :=
  let b := g.laneOperand gid o.b regs l
  let d := if swap then g.laneData gid o.d regs l else []
  [b.getD 0 0, b.getD 1 0, d.getD 0 0, d.getD 1 0]

/-- The variants that host memory takes (R164). -/
def hostAtom (v : AtomOp) : Bool :=
  match v with
  | .addU32 => true
  | .addU64 => true
  | .exch => true
  | .exchB64 => true
  | _ => false

def State.atomInstr (s : State) (gid : Nat) (g : Group) (o : Mem) (k : AtomKind) (regs : Nat) (ret swap hostOk : Bool) : State :=
  let p : MemPlan :=
    { uni := false, size := 4 * regs, kind := .atomic, lineOp := false, hostOk := hostOk, tracked := ret, rel := memReleases o.q,
      addr := [srcUse o.a 0 2 Perm.id], data := bopUse o.b regs, regs := if ret then dstUse o.d regs else [] }
  s.memAccess gid g o.hdr p
    (fun g l => g.ea64 gid o.a o.q (4 * regs) 0 false l) (fun g l => g.atomVals gid o regs swap l) fun s a ls =>
      (s.atomAll gid k o.q (if ret then g.dstRegs o.d regs else []) a ls, none)

def execAtom (v : AtomOp) (o : Mem) (s : State) : Out := s.withGroup fun gid g => s.atomInstr gid g o (.op v) v.regs true false (hostAtom v)
def execAtomcas (v : CasTy) (o : Mem) (s : State) : Out := s.withGroup fun gid g => s.atomInstr gid g o (.cas v) v.regs true true true
def execRed (v : AtomOp) (o : Mem) (s : State) : Out := s.withGroup fun gid g => s.atomInstr gid g o (.op v) v.regs false false (hostAtom v)

/-! Prefetch and cache control. -/

/-- A line whose newest copy is poisoned. -/
def State.linePoisoned (s : State) (line : Nat) : Bool :=
  match s.sline ((s.owner line).getD (lineHome line)) line with
  | some x => poisoned x.desc
  | none => poisoned (tgetD s.desc line Config.freshDesc)

/-- PREF of the line at a physical address (R160). -/
def State.prefLine (s : State) (gid : Nat) (g : Group) (v : PrefV) (pa : Nat) (ro : Bool) : State :=
  let cid := gidCid gid
  let line := pa / 64
  let mem := match targetOf pa with
    | .dram _ _ => true
    | .dsm d o => o < s.dsmBytes d && d == cidDom cid
    | _ => false
  if !mem || s.linePoisoned line then s
  else
    match v with
    | .l1 =>
      if isDcc cid then s
      else if (List.range 16).all fun i => (s.l1Read cid (64 * line + 4 * i) 4 false).isSome then s
      else (s.askFill cid line (s.asidOf g) ro .normal).1
    | .l2 => if (s.sline (cidDom cid) line).isNone && s.canAsk (cidDom cid) line then s.askLine (cidDom cid) line ro else s

/-- PREF translates as a load does, but no fault of its translation is served (R151, R160): pages that the core TLB misses are walked
quietly, and when every page is known the lines are fetched. -/
def State.prefGo (s : State) (gid : Nat) (g : Group) (v : PrefV) (o : Mem) (a : Access) : State :=
  let cid := gidCid gid
  let asid := s.asidOf g
  let known := fun (page : Nat) => (tget a.xl page).orElse fun _ => s.tlbHit cid asid page .read g.priv
  let eas := uniqueNats ((lanesOf a.todo).map fun l => a.ea.getD l 0)
  let pages := uniqueNats (eas.map pageOf)
  let missing := pages.filter fun q => (known q).isNone
  if !a.walks.isEmpty then s
  else if missing.isEmpty then
    let s := eas.foldl (fun s ea =>
      match known (pageOf ea) with
      | some (.ok base w _ _) => s.prefLine gid g v (base + ea % 4096) (!w)
      | _ => s) s
    s.finish gid { g.spend a.kills with park := .running } o.hdr none
  else
    let xl := pages.foldl (fun t q => match known q with
      | some x => tput t q x
      | none => t) a.xl
    let (s, ws) := missing.foldl (fun (acc : State × List Nat) q =>
      let (s, id) := acc.1.askWalk ⟨cidDom cid, cid, asid, q, .read, .ls, g.priv, some gid, true, .none⟩
      (s, acc.2 ++ [id])) (s, [])
    s.putGroup gid { g with acc := some { a with xl := xl, walks := ws }, park := .xlat }

/-- PREF (R160). A translation, permission, address or poison makes it fetch less and never fault; a register outside the window is R75's fault (log 26). -/
def execPref (v : PrefV) (o : Mem) (s : State) : Out :=
  s.withGroup fun gid g =>
    match g.acc with
    | some a => s.prefGo gid g v o a
    | none =>
      let run := g.memRun o.hdr
      if run = 0 then s.finish gid g o.hdr none
      else
        match g.useFault (srcUse o.a 0 2 Perm.id :: bopUse o.b 1) [] with
        | some (code, arg) => s.trapHere gid g code arg
        | none =>
          let ea := (List.range 32).map fun l => if run.getLsbD l then g.ea64 gid o.a o.q 64 (g.laneOffset gid o.b l) true l else 0
          let low := maskOf fun l => run.getLsbD l && decide (ea.getD l 0 < 2 ^ 48)
          let ks := g.killsOf run run (srcUse o.a 0 2 Perm.id :: bopUse o.b 1)
          let a : Access := { todo := low, ea := ea, vals := [], xl := [], walks := [], parked := false, kills := ks }
          s.prefGo gid ((g.memStart o.hdr false ks).lookUps (s.cclk (gidCid gid)) a.pageList.length) v o a

/-- CCTL over the whole L1 or the instruction path (R161): once for the group. -/
def State.cctlAll (s : State) (gid : Nat) (g : Group) (v : CctlV) (o : Mem) : State :=
  let cid := gidCid gid
  s.uniform gid g o.hdr [] [] fun g =>
    let s := match v with
      | .wball => s.writeBackAll none gid cid false
      | .invall => s.writeBackAll none gid cid true
      | _ => s.modCore cid fun c => { c with igen := c.igen + 1 }
    s.finish gid g o.hdr none

/-- CCTL of lines (R161). -/
def State.cctlLines (s : State) (gid : Nat) (g : Group) (drop : Bool) (o : Mem) : State :=
  let p : MemPlan :=
    { uni := false, size := 64, kind := .read, lineOp := true, hostOk := true, tracked := false, addr := srcUse o.a 0 2 Perm.id :: bopUse o.b 1 }
  s.memAccess gid g o.hdr p
    (fun g l => g.ea64 gid o.a o.q 64 (g.laneOffset gid o.b l) true l) (fun _ _ => []) fun s _ ls =>
      ((uniqueNats (ls.map fun (_, pa, _) => pa / 64)).foldl (fun s line => s.writeBackLine none gid (gidCid gid) line drop) s, none)

def execCctl (v : CctlV) (o : Mem) (s : State) : Out :=
  s.withGroup fun gid g =>
    match v with
    | .wb => s.cctlLines gid g false o
    | .inv => s.cctlLines gid g true o
    | _ => s.cctlAll gid g v o

end Sys2Proof.Machine
end

