-- ==== Sys2Proof/Machine/Predicate.lean ====
section
/-! DEFINITION. Predicates and the execution mask, opcodes 0x60-0x63 (R73, R74, R145, R146). -/

namespace Sys2Proof.Machine

/-- A predicate source in every lane (R145): a lane predicate or a stage predicate, inverted by NEG. -/
def Group.predSource (g : Group) (x : Src) : LaneMask :=
  let m := if x.file == .vec then g.predMask x.reg.toNat else if g.stages.getLsbD x.reg.toNat then 0xFFFFFFFF else 0
  if x.neg then ~~~m else m

/-- A predicate source of the issuing group. -/
def State.curPred (s : State) (x : Src) : LaneMask := ((s.group s.cur).map fun g => g.predSource x).getD 0

/-- The shape of an instruction whose fields name no register values. -/
def noValues : Shape := { readsA := false, readsB := false }

def execPlop (v : BitVec 4) (o : Alu) (s : State) : Out :=
  let b := match o.x with
    | .n b _ _ => b
    | _ => Src.zero
  let pa := s.curPred o.a
  let pb := s.curPred b
  s.alu o noValues (Types.all .u32) latPred fun _ l => ⟨boolWord (laneLut v (pa.getLsbD l) (pb.getLsbD l)), 0, 0⟩

/-- p6…p0 and the constant p7 of a lane (R146). -/
def packPreds (g : Group) (l : Nat) : Word :=
  wordOf ((List.range 8).foldl (fun a k => if (g.predMask k).getLsbD l then a + 2 ^ k else a) 0)

def execP2v (v : P2vV) (o : Alu) (s : State) : Out :=
  let pa := s.curPred o.a
  s.alu o noValues (Types.all .u32) latPred fun _ l =>
    match v with
    | .pack => ⟨((s.group s.cur).map fun g => packPreds g l).getD 0, 0, 0⟩
    | .one => ⟨boolWord (pa.getLsbD l), 0, 0⟩

/-- V2P.unpack (R146): bits 0-6 of A to p0-p6. -/
def State.v2pUnpack (s : State) (gid : Nat) (g : Group) (o : Alu) : State :=
  let run := g.runMask o.hdr
  let us := aluUses o {} true false false
  if run = 0 then s.finish gid g o.hdr none
  else
    match g.nameFault (us.map (·.name)) with
    | some (code, arg) => s.trapHere gid g code arg
    | none =>
      let a := (s.aluIn gid g o (Types.all .u32) {} false false).a
      let due := s.cclk (gidCid gid) + latPred
      let g' := (List.range 7).foldl (fun (g : Group) k =>
        g.addResult due (.pred k) run ((List.range 32).map fun l => boolWord ((lane a l).getLsbD k)) 0) (g.killUses run run us)
      s.finish gid g' o.hdr none

def execV2p (v : V2pV) (o : Alu) (s : State) : Out :=
  match v with
  | .unpack => s.withGroup fun gid g => s.v2pUnpack gid g o
  | .one => s.alu o { readsB := false } (Types.all .u32) latPred fun x l => ⟨boolWord (lane x.a l != 0), 0, 0⟩

/-- The new mask of SETEXM (R73); a domain control core has lane 0 only (R277). -/
def newMask (v : ExmOp) (old src : LaneMask) (dcc : Bool) : LaneMask :=
  let m := match v with
    | .set => src
    | .or => old ||| src
    | .andn => old &&& ~~~src
    | .and => old &&& src
  if dcc then m &&& 1 else m

/-- SETEXM (R74): the new mask governs from t + 2. -/
def State.setexm (s : State) (gid : Nat) (g : Group) (v : ExmOp) (o : Alu) : State :=
  if g.runMask o.hdr = 0 then s.finish gid g o.hdr none
  else if g.groupSourceBad o then s.trapHere gid g 0x07 0
  else
    let new := newMask v g.exm (s.groupSource gid g o) (isDcc (gidCid gid))
    if new = 0 then s.trapHere gid g 0x08 0
    else
      let g' := g.killUses 0 0 (aluUses o {} true false true)
      s.finish gid (g'.addResult (s.cclk (gidCid gid) + latPred) (.spec 0) 1 [new] 0) o.hdr none

def execSetexm (v : ExmOp) (o : Alu) (s : State) : Out := s.withGroup fun gid g => s.setexm gid g v o

end Sys2Proof.Machine
end

