-- ==== Sys2Proof/Machine/Copy.lean ====
section
/-! DEFINITION. The copy engine, opcodes 0x90-0x96, and its steps (R200-R208). -/

namespace Sys2Proof.Machine

/-! Issue. -/

def State.copiesHeld (s : State) (cid : Nat) : Nat :=
  (s.work.filter fun w =>
    match w.job with
    | .copy c => c.core == cid
    | _ => false).length

/-- A copy instruction waits at issue (R200). -/
def State.copyFull (s : State) (gid : Nat) (g : Group) (cc : Nat) : Bool := s.copiesHeld (gidCid gid) ≥ 32 || g.cc.getD cc 0 ≥ 255

/-- Range of R77 that an offset is in: 0 scratchpad, 1 scalars, 2 vectors, 3 none. -/
def localRange (o : Nat) : Nat := if o < 0x100000 then 0 else if o < 0x108000 then 1 else if 0x400000 ≤ o ∧ o < 0x800000 then 2 else 3

/-- Whether the row [o, o+n) lies in one range of R77, within the team's storage (R203). -/
def State.rowOk (s : State) (gid : Nat) (g : Group) (spad regs : Bool) (o n : Nat) : Bool :=
  let k := localRange o
  k != 3 && localRange (o + n - 1) == k && (if k == 0 then spad else regs) &&
    (if k == 0 then (match s.team g.team with
      | some t => decide (o + n ≤ t.spBytes)
      | none => false)
     else (List.range (n / 4)).all fun i => (s.targetCheck g (gidCid gid) (s.asidOf g) (2 ^ 47 + 2 ^ 44 + o + 4 * i) 4 .read false true).isNone)

/-- A row's global address: of row r, or of an index (R202). -/
def CopyReq.rowG (c : CopyReq) (k : Int) : Nat := (((c.g : Int) + k * c.gpitch) % 2 ^ 64).toNat

def CopyReq.isDsm (c : CopyReq) : Bool := c.kind == .todsm || c.kind == .fromdsm

/-- The index of row r as its word of the array gives it, or r (R202). -/
def State.copyRow (s : State) (c : CopyReq) (r : Nat) : Int :=
  if c.kind == .gather then
    let w := c.index + 4 * r
    let v := match c.early.find? (·.1 == w) with
      | some (_, v) => v
      | none => ((s.team c.team).map fun (t : Team) => wordOf (leVal (t.spBytesAt w 4))).getD 0
    v.toInt
  else r

/-- The global lines of a copy, as it stands. -/
def State.copyLines (s : State) (c : CopyReq) : List Nat :=
  if c.rowb = 0 then []
  else uniqueNats ((List.range c.rows).flatMap fun r =>
    let a := c.rowG (s.copyRow c r)
    (List.range ((a + c.rowb - 1) / 64 - a / 64 + 1)).map (a / 64 + ·))

/-- The first global address of a copy (R370). -/
def State.copyFirst (s : State) (c : CopyReq) : Nat := (List.range c.rows).foldl (fun a r => min a (c.rowG (s.copyRow c r))) (if c.rows = 0 then c.g else 2 ^ 64)

/-- The block as a copy (R202). -/
def copyOf (gid : Nat) (g : Group) (asid : Nat) (kind : CopyKind) (q : CopyQ) (b : List Word) : CopyReq :=
  let w := fun (i : Nat) => (b.getD i 0).toNat
  let dsm := kind == .todsm || kind == .fromdsm
  { gid := gid, team := g.team, core := gidCid gid, asid := asid, priv := g.priv, kind := kind, cc := q.cc.toNat, scope := q.scope,
    desc := if q.desc then some (BitVec.ofNat 16 (bits (w 5) 31 16)) else none, g := w 0 + 2 ^ 32 * w 1, l := w 2 + (if dsm then 2 ^ 32 * w 3 else 0),
    rowb := bits (w 4) 20 0, rows := bits (w 5) 15 0, gpitch := (b.getD 6 0).toInt, pitch := if kind == .gather then bits (w 4) 20 0 else w 7,
    index := w 7, early := [], skip := [], moved := [], descs := [], aside := [], again := [],
    next := 0, idx := 0, lat := none, line := none, started := false, written := none, fault := none, psn := none }

/-- The checks of R203. -/
def State.copyFault (s : State) (gid : Nat) (g : Group) (c : CopyReq) (b : List Word) : Option Nat :=
  let w := fun (i : Nat) => (b.getD i 0).toNat
  let zeros := bits (w 1) 31 16 == 0 && (c.isDsm || w 3 == 0) && bits (w 4) 31 21 == 0 && decide (c.rowb ≤ 1048576) && (c.desc.isSome || bits (w 5) 31 16 == 0)
  let four := c.g % 4 == 0 && c.l % 4 == 0 && c.rowb % 4 == 0 && c.gpitch % 4 == 0 && w 7 % 4 == 0
  let rows := c.rowb = 0 || (List.range c.rows).all fun r => s.rowOk gid g (c.kind != .reg) (c.kind == .reg || c.kind == .cpyout) (c.l + r * c.pitch) c.rowb
  let array := c.kind != .gather || c.rows = 0 || s.rowOk gid g true false c.index (4 * c.rows)
  if !zeros then some 0x05
  else if !four then some 0x04
  else if c.isDsm || (rows && array) then none else some 0x05

/-- A copy instruction (R200-R203). -/
def State.copyInstr (s : State) (gid : Nat) (g : Group) (o : Cpy) (kind : CopyKind) : State :=
  if g.runMask o.hdr != 0 && s.copyFull gid g o.q.cc.toNat then s
  else s.uniform gid g o.hdr [srcUse o.a 0 8 Perm.id] [] fun g' =>
    let b := g.scalarBlock gid o.a 8
    let c := copyOf gid g (s.asidOf g) kind o.q b
    match s.copyFault gid g c b with
    | some code => s.trapHere gid g code 0
    | none =>
      let lines := s.copyLines c
      let id := s.uid
      let s := s.inflTake (gidCid gid)
        { op := id, asid := c.asid, kind := 1, slot := gidSlot gid, engine := 1, tag := c.cc, va := s.copyFirst c, lines := lines.length,
          remain := lines.length, state := 0 }
      -- what moves nothing completes at once: its counter rises and falls in this clock (R202)
      if c.rows = 0 || c.rowb = 0 then (s.inflFree (gidCid gid) id).finish gid g' o.hdr none
      else (s.addNow (.copy c)).finish gid { g' with cc := g'.cc.set c.cc (g'.cc.getD c.cc 0 + 1) } o.hdr none

def execCpyin (o : Cpy) (s : State) : Out := s.withGroup fun gid g => s.copyInstr gid g o .cpyin
def execCpyout (o : Cpy) (s : State) : Out := s.withGroup fun gid g => s.copyInstr gid g o .cpyout
def execCpygth (o : Cpy) (s : State) : Out := s.withGroup fun gid g => s.copyInstr gid g o .gather
def execCpyreg (o : Cpy) (s : State) : Out := s.withGroup fun gid g => s.copyInstr gid g o .reg
def execCpydsmTodsm (o : Cpy) (s : State) : Out := s.withGroup fun gid g => s.copyInstr gid g o .todsm
def execCpydsmFromdsm (o : Cpy) (s : State) : Out := s.withGroup fun gid g => s.copyInstr gid g o .fromdsm

/-! Where an engine's global accesses lead. -/

/-- Where a global address of a copy leads (R204): ro where its page has W = 0 (R316). -/
inductive CopyPlace where
  | at (pa : Nat) (ro : Bool)
  | absent
  | walking
  | bad (code : Nat)
  deriving DecidableEq, Repr

def State.copyTarget (s : State) (dsm ro : Bool) (pa : Nat) : CopyPlace :=
  let ok := match targetOf pa with
    | .dram _ _ => !dsm
    | .dsm d o => decide (o < s.dsmBytes d)
    | .host p _ => !dsm && s.portUp p
    | .peer n _ => !dsm && s.linkIsUp n
    | _ => false
  if ok then .at pa ro else .bad 0x05

/-- Who translates: core, context, level, path. -/
structure Engine where
  core : Nat
  asid : Nat
  priv : Bool
  path : APath
  deriving DecidableEq, Repr

/-- A walk that the engine has asked for is under way for the page. -/
def State.engineWalks (s : State) (e : Engine) (page : Nat) : Bool :=
  s.anyJob fun j =>
    match j with
    | .walk w => w.gid.isNone && w.core == e.core && w.asid == e.asid && w.page == page && w.path == e.path
    | _ => false

/-- Translate a global address for an engine through the core TLB (R204, R238, R268): a page that is not there costs a walk (R272), after which,
with `looked`, the outcome is taken as it is. -/
def State.placeOf (s : State) (e : Engine) (va : Nat) (k : AccKind) (dsm looked : Bool) : State × CopyPlace :=
  let d := cidDom e.core
  let page := pageOf va
  let at' := fun (x : Xlat) => match x with
    | .ok pa w _ _ => s.copyTarget dsm (!w) (pa + va % 4096)
    | .fault code => .bad code
    | .absent => .absent
  if va ≥ 2 ^ 48 then (s, .bad 0x05)
  else if s.faulting d e.asid page then (s, .absent)
  else
    match s.tlbHit e.core e.asid page k e.priv with
    | some x => (s, at' x)
    | none =>
      if looked then
        let (s, x) := s.translate e.core e.asid page k e.priv
        (if x == .absent then s.pageFault d e.core e.asid page k e.path else s, at' x)
      else if s.engineWalks e page then (s, .walking)
      else ((s.askWalk { dom := d, core := e.core, asid := e.asid, page := page, kind := k, path := e.path, priv := e.priv, gid := none, quiet := false }).1, .walking)

def CopyReq.engine (c : CopyReq) : Engine := ⟨c.core, c.asid, c.priv, .cp⟩

/-- A line as a copy, a bank or a matrix operation of domain d reads it at a scope, ro from a page with W = 0 (R205, R311, R316). -/
def State.scopeReadAs (s : State) (d line : Nat) (sc : Scope) (ro : Bool) : State × LineImg :=
  if scopeNum sc ≥ 2 && !ro && !lineIsFar line && !lineIsDsm line && lineHome line != d && !s.sliceServes d line sc then
    let s := (s.settle line).homeHolds line
    match s.sline (lineHome line) line with
    | some x => (s.useSline (lineHome line) line, x.img)
    | none => (s, dramLine s line)
  else s.engineReadAs d line ro

def State.scopeRead (s : State) (d line : Nat) (sc : Scope) : State × LineImg := s.scopeReadAs d line sc false

/-! The engine: it takes one flit of up to 128 bytes at a clock of its cluster (R200, R206, R353). -/

/-- Pieces of a row that stay in one line on either side. -/
def pieces : Nat → Nat → Nat → Nat → List (Nat × Nat × Nat)
  | 0, _, _, _ => []
  | fuel + 1, a, b, n =>
    if n = 0 then []
    else
      let k := min n (min (64 - a % 64) (64 - b % 64))
      (a, b, k) :: pieces fuel (a + k) (b + k) (n - k)

def CopyReq.fromLocal (c : CopyReq) : Bool := c.kind == .cpyout
def CopyReq.fromGlobal (c : CopyReq) : Bool := !c.fromLocal
def CopyReq.toLocal (c : CopyReq) : Bool := c.intoSpad || c.kind == .reg

/-- Flits of a row, and of the copy. -/
def CopyReq.perRow (c : CopyReq) : Nat := (c.rowb + 127) / 128
def CopyReq.flits (c : CopyReq) : Nat := c.rows * c.perRow

/-- The pieces of flit f, in the row with this index: source, destination, length. -/
def CopyReq.flit (c : CopyReq) (idx : Int) (f : Nat) : List (Nat × Nat × Nat) :=
  let o := 128 * (f % c.perRow)
  let ga := c.rowG idx + o
  let la := c.l + f / c.perRow * c.pitch + o
  let (a, b) := if c.fromLocal || c.kind == .fromdsm then (la, ga) else (ga, la)
  pieces 8 a b (min 128 (c.rowb - o))

def CopyReq.failed (c : CopyReq) (code va : Nat) : CopyReq := { c with fault := c.fault.orElse fun _ => some (code, va) }

/-- The descriptor that a destination line takes from the source of its lowest byte (R56). -/
def CopyReq.carry (c : CopyReq) (dst : Nat) (d : LineDesc) : CopyReq :=
  if c.descs.any fun (l, o, _) => l == dst / 64 && decide (o ≤ dst % 64) then c
  else { c with descs := (dst / 64, dst % 64, d) :: c.descs.filter fun (l, _, _) => l != dst / 64 }

/-- Words of n bytes. -/
def wordsOf (bs : List Byte) : List Word := (List.range (bs.length / 4)).map fun i => wordOf (leVal (slice bs (4 * i) 4))

/-- Bytes of the team's storage that a copy reads, a register from its bank (R208). -/
def State.copyLocal (s : State) (c : CopyReq) (o n : Nat) : List Byte × LineDesc :=
  match s.team c.team with
  | none => (List.replicate n 0, Config.freshDesc)
  | some t =>
    let bs := s.apertureRead t o n
    (c.early.foldl (fun bs (w, v) => if o ≤ w ∧ w < o + n then patch bs (w - o) (leBytes 4 v.toNat) else bs) bs,
      if o < 0x100000 then t.spLineDesc (o / 64) else Config.freshDesc)

/-- Such a read meets a word with an uncorrectable error: it reads as zero, and the copy sets PSN (R376). -/
def State.copyMeets (s : State) (c : CopyReq) (src n : Nat) : CopyReq :=
  if ((s.team c.team).map fun t => s.apertureBad t src n).getD false then { c with psn := c.psn.orElse fun _ => some src } else c

/-- Take a piece's data in, to be written lat clocks from now, and not before what the copy has taken earlier (R383): the words of a copy into registers set out for the windows, others are kept until
then. -/
def State.copyTake (s : State) (id : Nat) (c : CopyReq) (src dst place n : Nat) (bs : List Byte) (d : LineDesc) (lat : Nat) : State × CopyReq :=
  let psn := poisoned d && !(c.intoSpad || c.kind == .todsm)
  let s := if psn then s.countPoison c.core ⟨[], d⟩ else s
  let bs := if psn then List.replicate n 0 else bs
  let c := if psn then { c with psn := c.psn.orElse fun _ => some src } else c
  if c.kind == .reg then
    match s.team c.team with
    | some t => (s.apertureWrite id none c.team t dst (s.cclk c.core + lat) bs, c)
    | none => (s, c)
  else
    let c := if (c.intoSpad || c.kind == .todsm) && c.desc.isNone then c.carry place d else c
    let t := c.moved.foldl (fun t (k, _) => max t k) (s.now + lat)
    (s, { c with moved := c.moved ++ (wordsOf bs).mapIdx fun i w => (t, src + 4 * i, place + 4 * i, w) })

/-- The request for a global line enters the mesh: it is counted, once for the pieces of the line that follow one another (R354). -/
def State.copyCount (s : State) (c : CopyReq) (line : Nat) : State × CopyReq :=
  if c.line == some line then (s, c)
  else (s.charge c.core c.asid (s.lineBytes (cidDom c.core) line c.scope c.fromGlobal), { c with line := some line })

/-- L of R206 for a line. -/
def State.copyLatency (s : State) (c : CopyReq) (line : Nat) : Nat := s.pathLatency c.core line (if scopeNum c.scope ≥ 2 then .wide else .any)

/-- One piece: translated, read, or set aside, or failed (R204); looked when its page has been looked up. lat is none for a piece whose clocks
are its own line's. One whose line would enter the slice stamped past 0xFFFF is taken after the wrap (R197). -/
def State.copyPiece (s : State) (id : Nat) (c : CopyReq) (p : Nat × Nat × Nat) (looked : Bool) (lat : Option Nat) : State × CopyReq :=
  let (src, dst, n) := p
  let (s, from') := if c.fromLocal then (s, .at src false) else s.placeOf c.engine src .read (c.kind == .fromdsm) looked
  let (s, to') := if c.toLocal then (s, .at dst false) else s.placeOf c.engine dst .write (c.kind == .todsm) looked
  match from', to' with
  | .bad code, _ => (s, c.failed code src)
  | _, .bad code => (s, c.failed code dst)
  | .at a ro, .at b _ =>
    if c.fromLocal then
      let (s, c) := s.copyCount c (b / 64)
      let (bs, desc) := s.copyLocal c a n
      s.copyTake id (s.copyMeets c a n) src dst b n bs desc (lat.getD (s.copyLatency c (b / 64)))
    else
      let d := sliceOf c.core (a / 64)
      if !lineIsFar (a / 64) && s.entryPast d (a / 64) then (s.startWrap d, { c with again := c.again ++ [p] })
      else
        let t := lat.getD (s.copyLatency c (a / 64))
        let (s, c) := s.copyCount c (a / 64)
        let (s, img) := s.scopeReadAs (cidDom c.core) (a / 64) c.scope ro
        s.copyTake id c src dst b n (slice img.data (a % 64) n) img.desc t
  | _, _ => (s, { c with aside := c.aside ++ [p] })

/-- Pieces in order; a request beyond the cap or budget is held at the core, and its piece is taken later (R355). -/
def State.copyMove (s : State) (id : Nat) (c : CopyReq) (ps : List (Nat × Nat × Nat)) (looked : Bool) (lat : Option Nat) : State × CopyReq :=
  ps.foldl (fun (acc : State × CopyReq) p =>
    if acc.1.heldBy acc.2.core acc.2.asid then (acc.1, { acc.2 with again := acc.2.again ++ [p] }) else acc.1.copyPiece id acc.2 p looked lat) (s, c)

/-- The pieces that a copy has still to take. -/
def State.copyAhead (s : State) (c : CopyReq) : List (Nat × Nat × Nat) :=
  c.again ++ c.aside ++ (List.range (c.flits - c.next)).flatMap fun i =>
    let f := c.next + i
    c.flit (if f / c.perRow * c.perRow < c.next then c.idx else s.copyRow c (f / c.perRow)) f

/-- Whether the global side of a copy is its destination. -/
def CopyReq.outward (c : CopyReq) : Bool := c.fromLocal || c.kind == .fromdsm

/-- Lines of its global range that a copy has not performed yet (R370): pieces of theirs are still to be taken or to be written. A line that is written
counts once, by where its page leads. -/
def State.copyLeft (s : State) (c : CopyReq) : Nat :=
  let key := fun (p : Nat × Nat × Nat) =>
    if c.outward then
      match (s.translate c.core c.asid (pageOf p.2.1) .write c.priv).2 with
      | .ok pa _ _ _ => (pa + p.2.1 % 4096) / 64
      | _ => 2 ^ 60 + p.2.1 / 64
    else p.1 / 64
  (uniqueNats ((s.copyAhead c).map key ++ c.moved.map fun (_, a, d, _) => if c.outward then d / 64 else a / 64)).length

/-- Change a copy that is held, and what its entry counts (R370). -/
def State.setCopy (s : State) (id : Nat) (c : CopyReq) : State :=
  (s.setWork id 0 (.copy c)).inflMod c.core id fun e => some { e with remain := s.copyLeft c }

/-- What the engine takes next, by its work item: pieces whose pages have been looked up, oldest copy first; the flit that follows of a copy that
it has started; and with none of these the next copy, in the order of issue (R200). A copy whose request would be held is passed over, but none
starts before an earlier one. -/
def State.copyNext (s : State) (cid : Nat) : Option (Nat × CopyReq) :=
  let mine := s.work.filterMap fun w =>
    match w.job with
    | .copy c => if c.core == cid && w.due ≤ s.now then some (w.id, c) else none
    | _ => none
  let free := fun (c : CopyReq) => !s.heldBy cid c.asid
  if mine.isEmpty || s.cclk cid < (s.core cid).copyAt || s.slicesHeld (cidDom cid) then none
  else
    (mine.find? fun (_, c) => !c.again.isEmpty && free c).orElse fun _ =>
      (mine.find? fun (_, c) => c.started && decide (c.next < c.flits) && free c).orElse fun _ =>
        match mine.find? fun (_, c) => !c.started with
        | some (id, c) => if free c then some (id, c) else none
        | none => none

/-- L of a copy that starts: of the first line of its first flit (R206). A page that is not present gives none: then each piece takes its own line's
latency, from the clock at which it can be taken. -/
def State.startLatency (s : State) (c : CopyReq) (ps : List (Nat × Nat × Nat)) : Option Nat :=
  match ps.head? with
  | none => none
  | some (a, b, _) =>
    let va := if c.fromLocal then b else a
    match (s.translate c.core c.asid (pageOf va) .read c.priv).2 with
    | .ok pa _ _ _ => some (s.copyLatency c ((pa + va % 4096) / 64))
    | _ => none

/-- The state of a copy in the in-flight table: parked while pieces are set aside. -/
def State.copyState (s : State) (id : Nat) (c : CopyReq) : State := s.inflState c.core id (if c.aside.isEmpty then 1 else 2)

/-- COPY_START (R200, R204, R208): a copy starts, and each flit after that. -/
def execCopyStart (cid : Nat) (s : State) : Out :=
  .next (match s.copyNext cid with
    | none => s
    | some (id, c) =>
      let s := s.modCore cid fun x => { x with copyAt := s.cclk cid + 1 }
      if !c.again.isEmpty then
        let (s, c) := s.copyMove id { c with again := c.again.drop 2 } (c.again.take 2) true none
        (s.copyState id c).setCopy id c
      else
        let r := c.next / c.perRow
        let c := if c.next % c.perRow = 0 then { c with idx := s.copyRow c r } else c
        let ps := c.flit c.idx c.next
        let lat := if c.started then c.lat else (s.startLatency c ps).map (· + Config.extraDelay s.uid)
        let s := if c.started then s else { s with uid := s.uid + 1 }
        let (s, c) := s.copyMove id { c with started := true, lat := lat, next := c.next + 1 } ps false lat
        (s.copyState id c).setCopy id c)

/-- COPY_PAGE_RESUME (R204): the pieces of a page that has been looked up or released. -/
def execCopyPageResume (id : Nat) (s : State) : Out :=
  .next (match s.findWork id with
    | some ⟨_, due, .copyResume parent asid page, _⟩ =>
      if due > s.now then s
      else
        let s := s.delWork id
        match s.findWork parent with
        | some ⟨_, _, .copy c, _⟩ =>
          let waits := fun (va : Nat) => s.faulting (cidDom c.core) c.asid (pageOf va) || s.engineWalks c.engine (pageOf va)
          let free := fun (p : Nat × Nat × Nat) => c.asid == asid && (pageOf p.1 == page || pageOf p.2.1 == page) &&
            (c.fromLocal || !waits p.1) && (c.toLocal || !waits p.2.1)
          let c := { c with again := c.again ++ c.aside.filter free, aside := c.aside.filter fun p => !free p }
          (s.copyState parent c).setCopy parent c
        | _ => s
    | _ => s)

/-! Its writes. -/

/-- The lines for which words are due, with their bytes. -/
def CopyReq.dueLines (c : CopyReq) (now : Nat) : List (Nat × ByteMask) :=
  let due := c.moved.filter fun (t, _, _, _) => decide (t ≤ now)
  (uniqueNats (due.map fun (_, _, d, _) => d / 64)).map fun l =>
    (l, (due.filter fun (_, _, d, _) => d / 64 == l && !c.skip.contains d).foldl (fun m (_, _, d, v) => overMask m (byteMask (d % 64) (leBytes 4 v.toNat))) [])

/-- The descriptor that a line of a copy's global side receives (R205). -/
def CopyReq.lineDesc (c : CopyReq) (line : Nat) : Option LineDesc :=
  match c.desc with
  | some d => some d
  | none => if c.kind == .todsm then (c.descs.find? (·.1 == line)).map fun (_, _, d) => d else none

/-- One line of a copy's global side is written at its slice or bank (R195, R205): the core's L1 copy of it takes the words with the acknowledgement. -/
def State.copyWrite (s : State) (c : CopyReq) (line : Nat) (m : ByteMask) : State :=
  let desc := c.lineDesc line
  if lineIsFar line then
    let old := (s.farLine line).data
    ((maskRuns m).foldl (fun s (o, bs) => s.postWrite c.gid c.asid (farPort (64 * line)) (64 * line + o) bs) s).watchCopy c.core c.asid c.gid line old (patchMask old m)
  else
    let d := sliceOf c.core line
    let old := (List.range 64).map fun i => s.newestByte (64 * line + i)
    let s := (s.settle line).getOwned d line
    let s :=
      if hasTime c.core d then
        let (s, w) := s.coreWrite c.core d line c.asid m desc
        let reply : WriteReq :=
          { gid := c.gid, core := c.core, dom := d, line := line, asid := c.asid, kind := .copy, bytes := m, newest := List.replicate 64 true, desc := desc,
            rel := none, scope := c.scope, drop := false }
        (s.l1Wrote reply reply.cleanWords (min 0xFFFF w) (min 0xFFFF (w + s.leaseOf c.asid))).setPts c.core (max (s.pts c.core) (min 0xFFFF w))
      else (s.bankWrite d line m desc).noteWriter d line c.core c.asid
    s.watchCopy c.core c.asid c.gid line old (patchMask old m)

/-- Whether the write of a line would be stamped past 0xFFFF: it is held for a wrap (R197). -/
def State.copyPast (s : State) (c : CopyReq) (line : Nat) : Bool :=
  let d := sliceOf c.core line
  !c.toLocal && !lineIsFar line && !(s.dom d).wrapping && s.writePast d line (if hasTime c.core d then some c.core else none)

/-- A scratchpad line of the team that a copy writes, as a watchpoint of the core sees it (R373); what goes to the image of an absent team is no write
of the aperture. -/
def State.watchSpad (s : State) (c : CopyReq) (line : Nat) (m : ByteMask) : State :=
  match s.team c.team with
  | none => s
  | some t =>
    if t.away then s
    else
      let old := t.spBytesAt (64 * line) 64
      s.watchCopy c.core c.asid c.gid ((2 ^ 47 + 2 ^ 44) / 64 + line) old (patchMask old m)

/-- A line that is due is written (R205, R210). -/
def State.copyLine (s : State) (id : Nat) (c : CopyReq) (line : Nat) (m : ByteMask) : State :=
  if c.intoSpad then
    let s := s.watchSpad c line m
    let s := (maskRuns m).foldl (fun s (o, bs) => s.arrive id id id c.team 0 (.spad (64 * line + o) bs)) s
    match c.descs.find? (·.1 == line) with
    | some (_, _, d) => s.arrive id id id c.team 0 (.spadDesc line d)
    | none => s
  else
    let s := if c.isDsm && !lineIsFar line then s.charge c.core c.asid (s.lineBytes (cidDom c.core) line .team false) else s
    s.copyWrite c line m

/-- A write-back of the core's words of a line is under way: a later write of the copy engine stays behind it (R383). -/
def State.backOut (s : State) (cid line : Nat) : Bool :=
  s.anyJob fun j =>
    match j with
    | .write r => r.core == cid && r.line == line && r.kind == .writeBack
    | .wack r _ _ => r.core == cid && r.line == line && r.kind == .writeBack
    | _ => false

/-- The next line to write, whose request may enter the mesh: a copy between global lines has them held as its reads are (R355). -/
def State.copyDue (s : State) (c : CopyReq) : Option (Nat × ByteMask) :=
  if c.isDsm && s.heldBy c.core c.asid then none
  else (c.dueLines s.now).find? fun (l, _) => c.toLocal || lineIsFar l ||
    (!s.slicesHeld (sliceOf c.core l) && !(s.copyPast c l && (s.dom (sliceOf c.core l)).wrapAsked) && !s.backOut c.core l)

/-- Everything of the copy has been taken and written. -/
def CopyReq.drained (c : CopyReq) : Bool := c.started && decide (c.flits ≤ c.next) && c.again.isEmpty && c.aside.isEmpty && c.moved.isEmpty

/-- Whether every write of a copy is performed at its scope (R205, R298). -/
def State.copyPerformed (s : State) (id : Nat) (c : CopyReq) : Bool :=
  (c.kind != .reg || !s.groups.any fun (_, g) => g.vres.any fun v => v.writer == id) &&
    (c.toLocal || ((scopeNum c.scope < 2 || s.acksDone (cidDom c.core)) && (c.scope != .sys || !s.posted.any fun p => p.gid == c.gid)))

/-- Whether COPY_COMPLETE has something to do: a line to write, the end of the writes, the counter. -/
def State.copyReady (s : State) (w : Work) : Bool :=
  match w.job with
  | .copy c =>
    match c.written with
    | some t => decide (t ≤ s.cclk c.core)
    | none => (s.copyDue c).isSome || (c.drained && s.copyPerformed w.id c)
  | _ => false

/-- The copy leaves: its entry, its counter, and what it met for its group (R204, R205). -/
def State.copyEnd (s : State) (id : Nat) (c : CopyReq) : State :=
  let s := (s.delWork id).inflFree c.core id
  match s.group c.gid with
  | none => s
  | some g =>
    if g.team != c.team then s
    else
      let s := s.arrive id id 0 c.team 0 (.counter g.idx c.cc)
      let s := match c.psn with
        | some _ => s.poisonFor c.gid c.asid 0
        | none => s
      match c.fault with
      | some (code, va) => s.pendCause c.gid 0x11 code va
      | none => s

/-- One line written. -/
def State.copyStore (s : State) (id : Nat) (c : CopyReq) (line : Nat) (m : ByteMask) : State :=
  if s.copyPast c line then s.startWrap (sliceOf c.core line)
  else
    let c' := { c with moved := c.moved.filter fun (t, _, d, _) => !(decide (t ≤ s.now) && d / 64 == line) }
    (s.copyLine id c line m).setCopy id c'

/-- COPY_COMPLETE (R205, R206, R353): each line is written as its words arrive, and 4 clocks of the cluster after the last write is performed the
counter falls. -/
def execCopyComplete (id : Nat) (s : State) : Out :=
  s.serve id State.copyReady fun w =>
    match w.job with
    | .copy c =>
      match c.written, s.copyDue c with
      | some _, _ => s.copyEnd id c
      | none, some (l, m) => s.copyStore id c l m
      | none, none => s.setCopy id { c with written := some (s.cclk c.core + 4) }
    | _ => s

/-! The counters. -/

/-- CPYWAIT (R207). -/
def execCpywait (o : Cpy) (s : State) : Out :=
  s.withGroup fun gid g =>
    match g.waitStage with
    | 0 => s.uniform gid g o.hdr (bopUse o.b 1) [] fun g' => s.waitAt gid ((g'.keep (g.bopWord gid o.b).toNat).drainNow []) 1
    | _ => if g.cc.getD o.q.cc.toNat 0 ≤ g.kept then s.endWait gid g o.hdr else s

/-- CPYSTAT (R207). -/
def execCpystat (o : Cpy) (s : State) : Out :=
  s.withGroup fun gid g => s.uniform gid g o.hdr [] (dstUse o.d 1) fun g' =>
    let v := (List.range 4).foldl (fun a c => a + 2 ^ (8 * c) * (g.cc.getD c 0)) 0
    s.finish gid (g'.addResult (s.cclk (gidCid gid) + latMov) (.scal o.d.reg.toNat) 1 [wordOf v] 0) o.hdr none

end Sys2Proof.Machine
end

