-- ==== Sys2Proof/Machine/Matrix.lean ====
section
/-! DEFINITION. The issue of matrix instructions, opcodes 0xA0-0xA9 (R217-R234, R237). -/

namespace Sys2Proof.Machine

/-! What an operation names. -/

/-- Widths of the elements of A and B (R218). -/
def modeWidths : MatMode → Nat × Nat
  | .f32 => (32, 32)
  | .f16 => (16, 16)
  | .f8 => (8, 8)
  | .q4f8 => (4, 8)

def mrdWidth : MrdFmt → Nat
  | .f32 => 4
  | .bf16 => 2
  | .f16 => 2
  | .f8e4 => 1
  | .f8e5 => 1

/-- Blocks of 256. -/
def tiles (n : Nat) : Nat := (n + 255) / 256

/-- Slots an operation touches (R222, R227-R230). -/
def MOp.slots (m : MOp) : List Nat :=
  match m.kind with
  | .mldb _ _ _ _ _ => []
  | .mma _ _ _ _ _ _ _ mm nn _ _ _ => (List.range (tiles mm * tiles nn)).map (m.acc + ·)
  | .mzero n => (List.range n).map (m.acc + ·)
  | .maccAdd src => [m.acc, src]
  | _ => [m.acc]

/-- The B-store range an operation reads or writes: first byte, length, whether it writes. -/
def MOp.bRange (m : MOp) : Option (Nat × Nat × Bool) :=
  match m.kind with
  | .mldb _ bofs rowb rows _ => if rowb * rows = 0 then none else some (bofs, rowb * rows, true)
  | .mma mode _ _ _ b stream bpitch mm nn k _ _ =>
    if stream || mm * nn * k = 0 then none else some (b.toNat, (k - 1) * bpitch.toNat + (nn * (modeWidths mode).2 + 7) / 8, false)
  | _ => none

/-- Whether the later operation of a chain waits for the earlier one (R232). -/
def MOp.conflicts (a b : MOp) : Bool :=
  a.slots.any (b.slots.contains ·) ||
    match a.bRange, b.bRange with
    | some (p, n, w), some (q, k, x) => (w || x) && decide (p < q + k) && decide (q < p + n)
    | _, _ => false

/-! Issue. -/

/-- The cluster of a group. -/
def State.clusterOf (s : State) (g : Group) : Option Cluster := (s.team g.team).bind fun t => tget s.clusters t.cluster

/-- Whether a slot range is the cluster's own (R217, R237). -/
def Cluster.owns (c : Cluster) (first n : Nat) : Bool :=
  n == 0 || (decide (first + n ≤ 16) && decide (c.accFirst ≤ first) && decide (first + n ≤ c.accFirst + c.accCount))

/-- The frame of R220: nothing without running lanes, 0x0C unless all run, the queue's room, register names, then the act. -/
def State.matrixInstr (s : State) (gid : Nat) (g : Group) (o : Mat) (queued : Bool) (us : List Use) (d : List (SFile × Nat × Nat)) (f : Group → State) : State :=
  let run := g.runMask o.hdr
  if run = 0 then s.finish gid g o.hdr none
  else if run != 0xFFFFFFFF then s.trapHere gid g 0x0C 0
  else if queued && g.mq.length ≥ 8 then s
  else s.uniform gid g o.hdr us d f

/-- Enter an operation in the group's queue, with its entry in the in-flight table; a register result is in flight from now. -/
def State.enqueue (s : State) (gid : Nat) (g : Group) (o : Mat) (kind : MKind) (transfer : Bool) (range : Nat × Nat) : State :=
  let id := s.uid
  let m : MOp :=
    { id := id, acc := o.q.acc.toNat, kind := kind, chain := if g.chainOpen then g.chain else 0, quire := g.nextQuire, sub := 0, step := 0,
      started := false, endAt := none, parked := none, left := [], early := [], flags := 0, fault := none }
  let s := { s.inflTake (gidCid gid) ⟨id, s.asidOf g, 2, gidSlot gid, if transfer then 3 else 2, g.nextQuire, range.1, range.2, range.2, 0⟩ with uid := s.uid + 1 }
  s.finish gid { g with mq := g.mq ++ [m] } o.hdr none

def wordAt (b : List Word) (i : Nat) : Nat := (b.getD i 0).toNat
def fieldZero (b : List Word) (i hi lo : Nat) : Bool := bits (wordAt b i) hi lo == 0

/-- The first condition of R237 that holds. -/
def firstFault (l : List (Bool × Nat)) : Option Nat := (l.find? (·.1)).map (·.2)

/-- MCHAIN, MCEND (R232). -/
def execMchain (o : Mat) (s : State) : Out :=
  s.withGroup fun gid g => s.matrixInstr gid g o false [] [] fun g => s.finish gid { g with chainOpen := true, chain := g.chain + 1 } o.hdr none
def execMcend (o : Mat) (s : State) : Out :=
  s.withGroup fun gid g => s.matrixInstr gid g o false [] [] fun g => s.finish gid { g with chainOpen := false } o.hdr none

/-- Whether rows of n bytes in global memory have addresses of 48 bits (R237). -/
def rowsIn (base : Nat) (pitch : Int) (rows n : Nat) : Bool :=
  let last : Int := base + ((rows : Int) - 1) * pitch
  rows == 0 || n == 0 || (decide (0 ≤ last) && decide (max (base : Int) last + n ≤ 2 ^ 48))

/-- MLDB's block (R221). -/
structure LoadBlock where
  src : Nat
  bofs : Nat
  rowb : Nat
  rows : Nat
  pitch : Int
  deriving DecidableEq, Repr

def loadBlock (b : List Word) : LoadBlock :=
  { src := wordAt b 0 + 2 ^ 32 * bits (wordAt b 1) 15 0, bofs := bits (wordAt b 2) 21 0, rowb := bits (wordAt b 3) 22 0, rows := bits (wordAt b 4) 15 0,
    pitch := (b.getD 5 0).toInt }

/-- The first condition of R237 that MLDB's block meets. -/
def State.loadFault (s : State) (g : Group) (b : List Word) : Option Nat :=
  let x := loadBlock b
  let zeros := fieldZero b 1 31 16 && fieldZero b 2 31 22 && fieldZero b 3 31 23 && fieldZero b 4 31 16 && wordAt b 6 == 0 && wordAt b 7 == 0
  let holds := (s.clusterOf g).any fun c => c.accCount > 0
  firstFault [(!zeros || decide (x.rowb > 4194304), 0x05), (!holds || decide (x.bofs + x.rowb * x.rows > 4194304), 0x05),
    (!(x.src % 64 == 0 && x.bofs % 64 == 0 && x.rowb % 64 == 0 && x.pitch % 64 == 0), 0x04), (!rowsIn x.src x.pitch x.rows x.rowb, 0x05)]

/-- MLDB (R221). -/
def State.mldb (s : State) (gid : Nat) (g : Group) (o : Mat) : State :=
  s.matrixInstr gid g o true [srcUse o.a 0 8 Perm.id] [] fun g' =>
    let b := g.scalarBlock gid o.a 8
    let x := loadBlock b
    match s.loadFault g b with
    | some code => s.trapHere gid g code 0
    | none => s.enqueue gid g' o (.mldb x.src x.bofs x.rowb x.rows x.pitch) true (x.src, x.rowb * x.rows / 64)
def execMldb (o : Mat) (s : State) : Out := s.withGroup fun gid g => s.mldb gid g o

/-- The team at a cluster place. -/
def State.teamAt (s : State) (c : Cluster) (place : Nat) : Option (Nat × Team) :=
  c.teams.findSome? fun tid =>
    match s.team tid with
    | some t => if t.place == place then some (tid, t) else none
    | none => none

/-- The cluster places that supply the row blocks of A (R224). -/
def suppliers (q cmask : Nat) : List Nat :=
  if cmask = 0 then [q] else ((List.range 4).filter fun i => cmask.testBit i).map fun i => q / 4 * 4 + i

/-- Compacted or plain elements of one row of A (R225). -/
def rowElems (sparse : Option Nat) (k : Nat) : Nat :=
  match sparse with
  | some n => k / 64 * n
  | none => k

/-- Whether a scratchpad has room for the rows of A and of masks that the row block of `rows` rows from row `first` reads: a row of A lies at its
place in the block (R223), its mask at its place in the whole (R225). -/
def aFits (spBytes first rows aofs apitch rowBytes mofs maskLines : Nat) (sparse : Bool) : Bool :=
  rows == 0 || (decide (aofs + (rows - 1) * 64 * apitch + rowBytes ≤ spBytes) && (!sparse || decide (mofs + (first + rows) * 64 * maskLines ≤ spBytes)))

/-- The block of MMA and MMAS (R222). -/
structure MmaBlock where
  aofs : Nat
  apitch : Nat
  base : Nat
  bpitch : Int
  n : Nat
  m : Nat
  k : Nat
  mofs : Nat
  deriving DecidableEq, Repr

def mmaBlock (stream : Bool) (b : List Word) : MmaBlock :=
  { aofs := wordAt b 0, apitch := bits (wordAt b 1) 15 0, base := wordAt b 2 + 2 ^ 32 * (if stream then bits (wordAt b 3) 15 0 else 0), bpitch := (b.getD 4 0).toInt,
    n := bits (wordAt b 5) 26 16, m := bits (wordAt b 5) 10 0, k := bits (wordAt b 6) 15 0, mofs := wordAt b 7 }

/-- The first condition of R237 that an MMA or MMAS meets. A negative BPITCH with BSRC 0 counts as a must-be-zero bit (log 107); a CMASK bit of a team that
has gone breaches the range of its scratchpad (log 108). -/
def State.mmaFault (s : State) (c : Cluster) (t : Team) (o : Mat) (mode : MatMode) (sparse : Option Nat) (b : List Word) : Option Nat :=
  let stream := o.q.bsrc
  let x := mmaBlock stream b
  let zeros := fieldZero b 1 31 16 && fieldZero b 3 31 (if stream then 16 else 0) && (stream || decide (0 ≤ x.bpitch)) && fieldZero b 5 31 27 &&
    fieldZero b 5 15 11 && fieldZero b 6 31 16 && (sparse.isSome || x.mofs == 0)
  let range := decide (x.n ≤ 1024) && decide (x.m ≤ 1024) && (sparse.isNone || x.k % 64 == 0)
  let cmask := o.q.cmask.toNat
  let places := suppliers t.place cmask
  let column := (cmask = 0 || places.all (· < c.w * c.h)) && decide (tiles x.m ≤ places.length)
  let work := x.m * x.n * x.k != 0
  let rowBytes := (rowElems sparse x.k * (modeWidths mode).1 + 7) / 8
  let fits := !work || (List.range (tiles x.m)).all fun bi =>
    match s.teamAt c (places.getD bi 0) with
    | some (_, y) => aFits y.spBytes (256 * bi) (min 256 (x.m - 256 * bi)) x.aofs x.apitch rowBytes x.mofs ((x.k + 511) / 512) sparse.isSome
    | none => false
  let bfits := stream || (decide (c.accCount > 0) && (!work || decide (x.base + (x.k - 1) * x.bpitch.toNat + (x.n * (modeWidths mode).2 + 7) / 8 ≤ 4194304)))
  firstFault [(!c.owns o.q.acc.toNat (tiles x.m * tiles x.n), 0x07), (!(zeros && range && column), 0x05), (!(fits && bfits), 0x05),
    (!(x.aofs % 64 == 0 && x.base % 64 == 0 && x.bpitch % 64 == 0 && x.mofs % 64 == 0), 0x04),
    (stream && work && !rowsIn x.base x.bpitch x.k ((x.n * (modeWidths mode).2 + 7) / 8), 0x05)]

/-- MMA and MMAS (R222-R225). -/
def State.mma (s : State) (gid : Nat) (g : Group) (o : Mat) (mode : MatMode) (sparse : Option Nat) : State :=
  s.matrixInstr gid g o true [srcUse o.a 0 8 Perm.id] [] fun g' =>
    let b := g.scalarBlock gid o.a 8
    let x := mmaBlock o.q.bsrc b
    match s.clusterOf g, s.team g.team with
    | some c, some t =>
      match s.mmaFault c t o mode sparse b with
      | some code => s.trapHere gid g code 0
      | none =>
        s.enqueue gid g' o (.mma mode sparse x.aofs x.apitch x.base o.q.bsrc x.bpitch x.m x.n x.k x.mofs o.q.cmask.toNat) false
          (if o.q.bsrc then (x.base, x.k * ((x.n * (modeWidths mode).2 + 511) / 512)) else (0, 0))
    | _, _ => s
def execMma (v : MatMode) (o : Mat) (s : State) : Out := s.withGroup fun gid g => s.mma gid g o v none
def execMmas (v : SparseV) (o : Mat) (s : State) : Out :=
  s.withGroup fun gid g => s.mma gid g o v.mode (some (match v.s with
    | .s8 => 8
    | .s16 => 16
    | .s32 => 32
    | .s48 => 48))

/-- Whether the group's cluster owns slots. -/
def State.ownsSlots (s : State) (g : Group) (first n : Nat) : Bool := (s.clusterOf g).any fun c => c.owns first n

/-- MZERO (R228). -/
def execMzero (o : Mat) (s : State) : Out :=
  s.withGroup fun gid g => s.matrixInstr gid g o true (bopUse o.b 1) [] fun g' =>
    let n := (g.bopWord gid o.b).toNat
    if !s.ownsSlots g o.q.acc.toNat n then s.trapHere gid g 0x07 0 else s.enqueue gid g' o (.mzero n) false (0, 0)

/-- MRD, register form (R230): its result is in flight from its issue. -/
def execMrd (o : Mat) (s : State) : Out :=
  s.withGroup fun gid g => s.matrixInstr gid g o true (bopUse o.b 1) (dstUse o.d 1) fun g' =>
    let p := (g.bopWord gid o.b).toNat
    if !s.ownsSlots g o.q.acc.toNat 1 then s.trapHere gid g 0x07 0
    else
      let op := s.uid
      let v : VRes :=
        { id := op, num := g.sched.issued, kind := .mrd, own := true, writer := 0, dsts := [.vec (g.rename o.d.reg.toNat)], lanes := g.runMask o.hdr, ready := 0,
          vals := [zeroLanes], lflags := [], due := 0, cl := true, acq := none, wts := 0, far := false, waits := [], fill := 0, quire := some g.nextQuire,
          faddr := 0, infl := 0 }
      ({ s with uid := s.uid + 1 }).enqueue gid { g' with vres := g'.vres ++ [v] } o (.mrdReg op (p % 256) (p / 256 % 8) (g.runMask o.hdr)) false (0, 0)

/-- The tile block of R227 after R237's checks: its fields, or the fault. -/
structure TileBlock where
  addr : Nat
  pitch : Int
  rows : Nat
  cols : Nat
  row0 : Nat
  col0 : Nat
  spad : Bool
  scale : Nat
  deriving DecidableEq, Repr

def tileOf (b : List Word) : TileBlock :=
  { addr := wordAt b 0 + 2 ^ 32 * bits (wordAt b 1) 15 0, pitch := (b.getD 2 0).toInt, rows := bits (wordAt b 3) 24 16, cols := bits (wordAt b 4) 8 0,
    row0 := bits (wordAt b 3) 7 0, col0 := bits (wordAt b 3) 15 8, spad := bits (wordAt b 4) 31 31 == 1, scale := bits (wordAt b 5) 7 0 }

/-- The first condition of R237 that a tile of MRD or MACCLD meets. A negative PITCH with LOC 1, and COLS of 0 or above 256, count with the ranges (log 107). -/
def State.tileFault (s : State) (g : Group) (acc : Nat) (b : List Word) (width : Nat) (scaled : Bool) : Option Nat :=
  let t := tileOf b
  let zeros := fieldZero b 1 31 16 && (!t.spad || fieldZero b 1 15 0) && fieldZero b 3 31 25 && fieldZero b 4 30 9 && fieldZero b 5 31 8 &&
    wordAt b 6 == 0 && wordAt b 7 == 0 && (if scaled then t.scale != 255 else t.scale == 0) && (!t.spad || decide (0 ≤ t.pitch))
  let range := decide (1 ≤ t.rows) && decide (t.rows ≤ 256) && decide (1 ≤ t.cols) && decide (t.cols ≤ 256) && decide (t.row0 + t.rows ≤ 256) &&
    decide (t.col0 + t.cols ≤ 256)
  let fits := !t.spad || (match s.team g.team with
    | some x => decide (t.addr + (t.rows - 1) * t.pitch.toNat + t.cols * width ≤ x.spBytes)
    | none => false)
  firstFault [(!s.ownsSlots g acc 1, 0x07), (!(zeros && range), 0x05), (!fits, 0x05), (!(t.addr % 64 == 0 && t.pitch % 64 == 0), 0x04),
    (!t.spad && !rowsIn t.addr t.pitch t.rows (t.cols * width), 0x05)]

/-- MRD, memory form (R227, R230). -/
def execMrdMem (v : MrdV) (o : Mat) (s : State) : Out :=
  s.withGroup fun gid g => s.matrixInstr gid g o true [srcUse o.a 0 8 Perm.id] [] fun g' =>
    let b := g.scalarBlock gid o.a 8
    let t := tileOf b
    match s.tileFault g o.q.acc.toNat b (mrdWidth v.fmt) true with
    | some code => s.trapHere gid g code 0
    | none =>
      s.enqueue gid g' o (.mrdMem v.fmt v.desc t.addr t.pitch t.rows t.cols t.row0 t.col0 t.spad t.scale) true
        (if t.spad then (0, 0) else (t.addr, t.rows * ((t.cols * mrdWidth v.fmt + 63) / 64)))

/-- MACC.add (R229). -/
def execMaccAdd (o : Mat) (s : State) : Out :=
  s.withGroup fun gid g => s.matrixInstr gid g o true (bopUse o.b 1) [] fun g' =>
    let m := (g.bopWord gid o.b).toNat
    match firstFault [(!(s.ownsSlots g o.q.acc.toNat 1 && s.ownsSlots g (m % 16) 1), 0x07), (decide (m ≥ 16), 0x05)] with
    | some code => s.trapHere gid g code 0
    | none => s.enqueue gid g' o (.maccAdd m) false (0, 0)

/-- MACC.ld, MACC.ldadd (R229). -/
def execMaccLd (v : MaccV) (o : Mat) (s : State) : Out :=
  s.withGroup fun gid g => s.matrixInstr gid g o true [srcUse o.a 0 8 Perm.id] [] fun g' =>
    let b := g.scalarBlock gid o.a 8
    let t := tileOf b
    match s.tileFault g o.q.acc.toNat b 4 false with
    | some code => s.trapHere gid g code 0
    | none =>
      s.enqueue gid g' o (.maccLd (v == .ldadd) t.addr t.pitch t.rows t.cols t.row0 t.col0 t.spad) true
        (if t.spad then (0, 0) else (t.addr, t.rows * ((t.cols * 4 + 63) / 64)))

/-- MQUIRE (R233). -/
def execMquire (o : Mat) (s : State) : Out :=
  s.withGroup fun gid g => s.matrixInstr gid g o false [] (dstUse o.d 1) fun g' =>
    let q := g'.nextQuire
    let g' := { g' with nextQuire := (q + 1) % 65536, quires := g'.quires.map fun (x : Quire) => if x.num == q then { x with closed := true } else x }
    (s.finish gid (g'.addResult (s.cclk (gidCid gid) + latMov) (.scal o.d.reg.toNat) 1 [wordOf q] 0) o.hdr none).settleQuires gid false

/-- Whether MWAIT of q may end (R234). -/
def Group.quireDone (g : Group) (q : Nat) : Bool :=
  if g.quireIssued q then
    let early := fun (x : Nat) => decide ((q + 65536 - x) % 65536 < 32768)
    !g.mq.any (fun m => early m.quire) && !g.vres.any fun v =>
      match v.quire with
      | some x => early x
      | none => false
  else g.mq.isEmpty && !g.vres.any fun v => v.quire.isSome

/-- MWAIT (R234). -/
def execMwait (o : Mat) (s : State) : Out :=
  s.withGroup fun gid g =>
    match g.waitStage with
    | 0 => s.matrixInstr gid g o false (bopUse o.b 1) [] fun g' => s.waitAt gid ((g'.keep ((g.bopWord gid o.b).toNat % 65536)).drainNow []) 1
    | _ =>
      if g.quireDone g.kept then
        let s := s.settleQuires gid (!g.quireIssued g.kept)
        match s.group gid with
        | some g => s.endWait gid g o.hdr
        | none => s
      else s

end Sys2Proof.Machine
end

