-- ==== Sys2Proof/Machine/Array.lean ====
section
/-! DEFINITION. The matrix array and the transfer unit: what they take next, one sub-tile or operation at a time, and completion
(R217, R218, R221-R239). -/

namespace Sys2Proof.Machine

/-! The stores of a hardware cluster. -/

def accKey (slot i j : Nat) : Nat := 65536 * slot + 256 * i + j
def Hc.acc (h : Hc) (slot i j : Nat) : Word := tgetD h.slots (accKey slot i j) 0
def Hc.setAcc (h : Hc) (slot i j : Nat) (w : Word) : Hc :=
  { h with slots := tputD h.slots (accKey slot i j) 0 w, badAcc := h.badAcc.filter (· != accKey slot i j) }
/-- PSN where a read of an element, or of bits of a B-store line, meets an uncorrectable error (R376). -/
def Hc.accPsn (h : Hc) (slot i j : Nat) : Flags := flagIf (h.badAcc.contains (accKey slot i j)) flPsn
def Hc.bPsn (h : Hc) (line bit : Nat) : Flags := flagIf (h.badB.contains (8 * line + bit / 64)) flPsn
def Hc.bLine (h : Hc) (line : Nat) : LineImg := ⟨(List.range 64).map fun i => tgetD h.bstore (64 * line + i) 0, tgetD h.bdesc line Config.freshDesc⟩
def Hc.setBLine (h : Hc) (line : Nat) (img : LineImg) : Hc :=
  { h with
    bstore := (img.data.zipIdx).foldl (fun t (b, i) => tputD t (64 * line + i) 0 b) h.bstore
    bdesc := tputD h.bdesc line Config.freshDesc img.desc
    badB := h.badB.filter fun w => w / 8 != line }

/-- The clock of a hardware cluster (R353). -/
def State.hclk (s : State) (h : Nat) : Nat := s.now - (s.hc h).lost

/-! Elements (R218). -/

/-- Element i of a line whose format is accepted; else +0.0 with INV or PSN. -/
def matElem (accept : LFmt → Bool) (img : LineImg) (i : Nat) : FVal × Flags :=
  if poisoned img.desc then (.zero, flPsn)
  else if !accept (descFmt img.desc) then (.zero, flInv)
  else ((lineElem (descFmt img.desc) img.data i).scale (lineScale img.desc), 0)

def acceptsA : MatMode → LFmt → Bool
  | .f32, f => f == .f32 || f == .none
  | .f16, f => f == .f16 || f == .bf16
  | .f8, f => f == .f8e4 || f == .f8e5
  | .q4f8, f => f == .q4x || f == .i4

def acceptsB : MatMode → LFmt → Bool
  | .f32, f => f == .f32 || f == .none
  | .f16, f => f == .f16 || f == .bf16
  | _, f => f == .f8e4 || f == .f8e5

/-- Element k of a row that starts at a byte: its line, and its index there. -/
def elemPlace (row width k : Nat) : Nat × Nat :=
  let bit := 8 * row + k * width
  (bit / 512, bit % 512 / width)

/-- A scratchpad line as an operation reads it (R235). -/
def State.opLine (s : State) (m : MOp) (tid line : Nat) : LineImg :=
  match s.team tid with
  | none => ⟨zeroLine, Config.freshDesc⟩
  | some t =>
    let img := (s.spadSeen tid t fun w => w / 64 == line).spLine line
    ⟨m.early.foldl (fun d (x, w, v) => if x == tid && w / 64 == line then patch d (w % 64) (leBytes 4 v.toNat) else d) img.data, img.desc⟩

/-- PSN where such a read meets a word with an uncorrectable error (R376). -/
def State.opPsn (s : State) (tid line bit width : Nat) : Flags :=
  flagIf (((s.team tid).map fun t => t.badIn (64 * line + bit / 8) ((width + 7) / 8)).getD false) flPsn

/-! One sub-tile of MMA and MMAS. -/

/-- The fields of an MMA at work. -/
structure Mma where
  mode : MatMode
  sparse : Option Nat
  aofs : Nat
  apitch : Nat
  b : Int
  stream : Bool
  bpitch : Int
  m : Nat
  n : Nat
  k : Nat
  mofs : Nat
  cmask : Nat
  deriving DecidableEq, Repr

/-- The real positions of row r of the whole A from step k0 up to k1, each with its compacted index (R225), and the flags of its mask lines. -/
def State.realSteps (s : State) (op : MOp) (x : Mma) (tid r k0 k1 : Nat) : List (Nat × Nat) × Flags :=
  let ks := (List.range (k1 - k0)).map (k0 + ·)
  match x.sparse with
  | none => (ks.map fun k => (k, k), 0)
  | some n =>
    let lines := (x.k + 511) / 512
    let blocks := uniqueNats (ks.map (· / 64))
    blocks.foldl (fun (acc : List (Nat × Nat) × Flags) g =>
      let at' := x.mofs / 64 + r * lines + g / 8
      let img := s.opLine op tid at'
      let set := (List.range 64).filter fun p => (img.data.getD ((64 * g + p) % 512 / 8) 0).getLsbD (p % 8)
      if poisoned img.desc || s.opPsn tid at' (64 * g % 512) 64 != 0 then (acc.1, acc.2 ||| flPsn)
      else if descFmt img.desc != .mask || set.length != n then (acc.1, acc.2 ||| flInv)
      else (acc.1 ++ ((set.zipIdx).map fun (p, i) => (64 * g + p, n * g + i)).filter fun (k, _) => decide (k0 ≤ k) && decide (k < k1), acc.2)) ([], 0)

/-- The sum of one element over its real steps (R69). -/
def sumElem (acc : Word) (steps : List (Nat × FVal × FVal × Flags)) : Word × Flags :=
  let r := steps.foldl (fun (st : FVal × Flags) (_, a, b, fl) =>
    let (v, f) := mulAddStep st.1 (exMul a b)
    (v, st.2 ||| f ||| fl)) (f32 acc, 0)
  if steps.isEmpty then (acc, 0) else (BitVec.ofNat 32 (encodeF fmtF32 .rne r.1).1, r.2)

/-- Where streaming a row of B stops. -/
inductive Reach where
  | absent (page : Nat)
  | held
  | bad (code va : Nat)
  deriving DecidableEq, Repr

/-- A line that an operation reads at the slice of its domain, at domain scope: counted, and whether the read itself finds an uncorrectable
error, which R238 stops at; poison that the line has already is R59's (log 82). -/
def State.matrixRead (s : State) (e : Engine) (op line : Nat) (ro : Bool) : State × LineImg × Bool :=
  let d := cidDom e.core
  let before := poisoned (s.newestDesc line)
  let (s, img) := (s.charge e.core e.asid (s.lineBytes d line .dom true)).scopeReadAs d line .dom ro
  ((s.countPoison e.core img).inflMod e.core op fun x => some { x with remain := x.remain - 1 }, img, !before && poisoned img.desc)

/-- A line that is read would enter the slice stamped past 0xFFFF: it is held for the wrap (R197). -/
def State.readPast (s : State) (core pa : Nat) : Bool := !lineIsFar (pa / 64) && s.entryPast (sliceOf core (pa / 64)) (pa / 64)

/-- Lines of one streamed row, by key; the first that cannot be read stops it, and so does one whose request is held (R238, R355). -/
def State.streamLines (s : State) (e : Engine) (op : MOp) (k row : Nat) : List Nat → Tbl LineImg → State × Tbl LineImg × Option Reach
  | [], t => (s, t, none)
  | j :: js, t =>
    let va := row + 64 * j
    match if k = op.step then tget op.buf j else none with
    | some img => s.streamLines e op k row js (tput t (64 * k + j) img)
    | none =>
      if s.heldBy e.core e.asid then (s, t, some .held)
      else
        let (s, p) := s.placeOf e va .read false (op.looked == some (pageOf va))
        match p with
        | .at pa ro =>
          if s.readPast e.core pa then (s.startWrap (sliceOf e.core (pa / 64)), t, some .held)
          else
          let (s, img, new) := s.matrixRead e op.id (pa / 64) ro
          if new then (s, t, some (.bad 0x0E va)) else s.streamLines e op k row js (tput t (64 * k + j) img)
        | .bad code => (s, t, some (.bad code va))
        | _ => (s, t, some (.absent (pageOf va)))

/-- Rows of streamed B in ascending k (R238): the lines read, and the step and cause of a stop. -/
def State.streamRows (s : State) (e : Engine) (op : MOp) (x : Mma) (js : List Nat) : List Nat → Tbl LineImg → State × Tbl LineImg × Option (Nat × Reach)
  | [], t => (s, t, none)
  | k :: ks, t =>
    let row := ((x.b + k * x.bpitch) % 2 ^ 64).toNat
    let (s, t, r) := s.streamLines e op k row js t
    match r with
    | some why => (s, t, some (k, why))
    | none => s.streamRows e op x js ks t

/-- Clocks of K steps (R226). -/
def Mma.clocks (x : Mma) (steps : Nat) : Nat :=
  let n := match x.sparse with
    | some p => steps * p / 64
    | none => steps
  match x.mode with
  | .f32 => 4 * n
  | .f16 => 2 * n
  | .f8 => n
  | .q4f8 => (n + 1) / 2

/-- Apply steps k0 to k1 of sub-tile (bi, bj) to its slot (R223, R225). -/
def State.subTile (s : State) (h : Nat) (op : MOp) (x : Mma) (tid bi bj k0 k1 : Nat) (rows : Tbl LineImg) : State × Flags :=
  let (wa, wb) := modeWidths x.mode
  let slot := op.acc + bi * tiles x.n + bj
  let hc := s.hc h
  let bAt := fun (k c : Nat) =>
    if x.stream then
      let p := elemPlace 0 wb c
      matElem (acceptsB x.mode) ((tget rows (64 * k + p.1)).getD ⟨zeroLine, Config.freshDesc⟩) p.2
    else
      let p := elemPlace (x.b + k * x.bpitch).toNat wb c
      let v := matElem (acceptsB x.mode) (hc.bLine p.1) p.2
      (v.1, v.2 ||| hc.bPsn p.1 (p.2 * wb))
  let mrows := min 256 (x.m - 256 * bi)
  let ncols := min 256 (x.n - 256 * bj)
  let (hc, fl) := (List.range mrows).foldl (fun (acc : Hc × Flags) i =>
    let (steps, mfl) := s.realSteps op x tid (256 * bi + i) k0 k1
    let as := steps.map fun (k, e) =>
      let p := elemPlace (x.aofs + i * 64 * x.apitch) wa e
      let v := matElem (acceptsA x.mode) (s.opLine op tid p.1) p.2
      (k, v.1, v.2 ||| s.opPsn tid p.1 (p.2 * wa) wa)
    (List.range ncols).foldl (fun (acc : Hc × Flags) j =>
      let (v, f) := sumElem (acc.1.acc slot i j) (as.map fun (k, a, fa) =>
        let (b, fb) := bAt k (256 * bj + j)
        (k, a, b, fa ||| fb))
      (acc.1.setAcc slot i j v, acc.2 ||| f ||| acc.1.accPsn slot i j)) (acc.1, acc.2 ||| mfl)) (hc, 0)
  (s.putHc h hc, fl)

/-- The scratchpad and B-store lines that a sub-tile reads, each counted where it is poisoned (R376). -/
def State.tilePoison (s : State) (h core : Nat) (op : MOp) (x : Mma) (tid bi bj k0 k1 : Nat) : State :=
  let (wa, wb) := modeWidths x.mode
  let rows := List.range (min 256 (x.m - 256 * bi))
  let ks := (List.range (k1 - k0)).map (k0 + ·)
  let aLines := rows.flatMap fun i => (s.realSteps op x tid (256 * bi + i) k0 k1).1.map fun (_, e) => (elemPlace (x.aofs + i * 64 * x.apitch) wa e).1
  let mLines := if x.sparse.isNone then [] else rows.flatMap fun i => ks.map fun k => x.mofs / 64 + (256 * bi + i) * ((x.k + 511) / 512) + k / 512
  let bLines := if x.stream then [] else ks.flatMap fun k => (List.range (min 256 (x.n - 256 * bj))).map fun j => (elemPlace (x.b + k * x.bpitch).toNat wb (256 * bj + j)).1
  let s := (uniqueNats (aLines ++ mLines)).foldl (fun s l => s.countPoison core (s.opLine op tid l)) s
  (uniqueNats bLines).foldl (fun s l => s.countPoison core ((s.hc h).bLine l)) s

/-! What is taken next (R231, R232). -/

def MKind.transfer : MKind → Bool
  | .mldb _ _ _ _ _ => true
  | .mrdMem _ _ _ _ _ _ _ _ _ _ => true
  | .maccLd _ _ _ _ _ _ _ _ => true
  | _ => false

/-- It reads or writes memory outside the cluster as it runs. -/
def MKind.requests : MKind → Bool
  | .mldb _ _ _ _ _ => true
  | .mrdMem _ _ _ _ _ _ _ _ spad _ => !spad
  | .maccLd _ _ _ _ _ _ _ spad => !spad
  | .mma _ _ _ _ _ stream _ _ _ _ _ _ => stream
  | _ => false

/-- Whether the operation after `before` in its queue may start or go on: outside a chain, after the clock in which the one before it
completed. -/
def opEligible (clk mxAt : Nat) (before : List MOp) (m : MOp) : Bool :=
  m.endAt.isNone && m.parked.isNone && ((before.isEmpty && (m.chain != 0 || decide (mxAt ≤ clk))) || (m.chain != 0 && before.all fun b => b.chain == m.chain && !b.conflicts m))

/-- A group's eligible operations for a unit. -/
def Group.eligibleOps (g : Group) (clk : Nat) (transfer : Bool) : List MOp :=
  ((g.mq.zipIdx).filter fun (m, i) => m.kind.transfer == transfer && (m.left.isEmpty || !transfer) && opEligible clk g.sched.mxAt (g.mq.take i) m).map (·.1)

/-- New requests of the group's operations wait: held at the core (R355), or for a wrap (R197). -/
def State.requestsHeld (s : State) (gid : Nat) (g : Group) : Bool := s.heldBy (gidCid gid) (s.asidOf g) || s.slicesHeld (cidDom (gidCid gid))

/-- The slots that the operation's next move touches: of an MMA, that of its next sub-tile. -/
def MOp.nextSlots (m : MOp) : List Nat :=
  match m.kind with
  | .mma _ _ _ _ _ _ _ _ _ _ _ _ => (m.slots.drop m.sub).take 1
  | _ => m.slots

/-- A sub-tile of the operation has stopped midway, or its page is awaited. -/
def MOp.midway (m : MOp) : Bool := m.endAt.isNone && (m.step != 0 || m.parked.isSome || m.looked.isSome)

/-- Slots of hardware cluster h in which sub-tiles of other groups have stopped: nothing else enters one before its sub-tile has ended (R231, R236, R238). -/
def State.stoppedSlots (s : State) (h gid : Nat) : List Nat :=
  s.groups.flatMap fun (x, g) =>
    if x != gid && !isDcc (gidCid x) && cidHcid (gidCid x) == h then (g.mq.filter MOp.midway).flatMap MOp.nextSlots else []

/-- What unit of hardware cluster h may take of a group now. -/
def State.unitOps (s : State) (gid : Nat) (g : Group) (h : Nat) (transfer : Bool) : List MOp :=
  let busy := s.stoppedSlots h gid
  (g.eligibleOps (s.hclk h) transfer).filter fun m => !(m.kind.requests && s.requestsHeld gid g) && !m.nextSlots.any busy.contains

/-- The key of the service order: team place, group slot; the group number after them. -/
def State.serviceKey (s : State) (gid : Nat) (g : Group) : Nat := 2 ^ 50 * (64 * ((s.teamOf g).map (·.place)).getD 0 + gidSlot gid) + gid % 2 ^ 50

/-- The group that a unit of hardware cluster h serves next, from the key it last served (R231). -/
def State.nextServed (s : State) (h : Nat) (transfer : Bool) (last : Nat) : Option (Nat × Group) :=
  let can := s.groups.filter fun (gid, g) =>
    !g.mq.isEmpty && !isDcc (gidCid gid) && cidHcid (gidCid gid) == h && !(s.unitOps gid g h transfer).isEmpty
  let least := fun (l : List (Nat × Group)) => l.foldl (fun (b : Option (Nat × Group)) x =>
    match b with
    | some y => if s.serviceKey x.1 x.2 < s.serviceKey y.1 y.2 then some x else b
    | none => some x) none
  (least (can.filter fun (gid, g) => decide (s.serviceKey gid g > last))).orElse fun _ => least can

def Hc.unitBusy (h : Hc) (transfer : Bool) : Nat := if transfer then h.xferBusy else h.arrayBusy

/-- Whether MATRIX_SUBTILE_START has something to take. -/
def State.unitReady (s : State) (h : Nat) (transfer : Bool) : Bool :=
  decide ((s.hc h).unitBusy transfer ≤ s.hclk h) && (s.nextServed h transfer (if transfer then (s.hc h).xferAt.1 else (s.hc h).arrayAt.1)).isSome

/-- Change an operation of a group's queue. -/
def State.setOp (s : State) (gid : Nat) (m : MOp) : State :=
  s.modGroup gid fun g => { g with mq := g.mq.map fun x => if x.id == m.id then m else x }

/-- The unit is taken for c clocks, by a group of this key. -/
def State.takeUnit (s : State) (h : Nat) (transfer : Bool) (key c : Nat) : State :=
  s.modHc h fun x =>
    if transfer then { x with xferBusy := s.hclk h + c, xferAt := (key, 0) } else { x with arrayBusy := s.hclk h + c, arrayAt := (key, 0) }

/-- The lines of step k that a stopped sub-tile has read. -/
def rowBuf (rows : Tbl LineImg) (k : Nat) : Tbl LineImg := rows.filterMap fun (key, img) => if key / 64 = k then some (key % 64, img) else none

/-- One sub-tile of an MMA (R223, R226, R231, R238). A product of no elements completes when the array reaches it (R222); a sub-tile parks for a
page's walk as it does for its fault (log 83). -/
def State.runMma (s : State) (h gid : Nat) (g : Group) (key : Nat) (op : MOp) (x : Mma) : State :=
  let total := if x.m * x.n * x.k = 0 then 0 else tiles x.m * tiles x.n
  let fill := if op.started then 0 else 260
  let op := { op with started := true }
  match s.teamOf g, s.clusterOf g with
  | some t, some c =>
    if total ≤ op.sub then (s.setOp gid { op with endAt := some (s.hclk h) }).takeUnit h false key 0
    else
      let bi := op.sub / tiles x.n
      let bj := op.sub % tiles x.n
      let tid := ((s.teamAt c ((suppliers t.place x.cmask).getD bi 0)).map (·.1)).getD g.team
      let wb := (modeWidths x.mode).2
      let j0 := 256 * bj * wb / 512
      let js := (List.range ((min x.n (256 * bj + 256) * wb + 511) / 512 - j0)).map (j0 + ·)
      let ks := (List.range (x.k - op.step)).map (op.step + ·)
      let e : Engine := ⟨gidCid gid, s.asidOf g, g.priv, .mx⟩
      let (s, rows, stop) := if x.stream then s.streamRows e op x js ks [] else (s, [], none)
      let k1 := match stop with
        | some (k, _) => k
        | none => x.k
      let (s, fl) := ((s.tilePoison h (gidCid gid) op x tid bi bj op.step k1).spadRead tid).subTile h op x tid bi bj op.step k1 rows
      let op := { op with flags := op.flags ||| fl, buf := [], looked := none }
      -- rows of B that the mesh brings more slowly make the array wait (R226, log 6)
      let time := fill + x.clocks (k1 - op.step) + (if x.stream then Config.extraDelay s.uid else 0)
      let s := if x.stream then { s with uid := s.uid + 1 } else s
      let op := match stop with
        | some (k, .absent page) => { op with step := k, parked := some page, buf := rowBuf rows k }
        | some (k, .held) => { op with step := k, buf := rowBuf rows k }
        | some (_, .bad code va) => { op with sub := total, endAt := some (s.hclk h + time + 3), fault := some (code, va) }
        | none =>
          let op := { op with sub := op.sub + 1, step := 0 }
          if op.sub = total then { op with endAt := some (s.hclk h + time + 3) } else op
      let s := s.inflState (gidCid gid) op.id (if op.parked.any (s.faulting (cidDom (gidCid gid)) (s.asidOf g)) then 2 else 1)
      (s.setOp gid op).takeUnit h false key time
  | _, _ => s.setOp gid { op with endAt := some (s.hclk h) }

/-- MZERO, MACC.add and MRD's register form (R226, R228-R230). -/
def State.runArray (s : State) (h gid : Nat) (key : Nat) (op : MOp) : State :=
  let hc := s.hc h
  let cells := (List.range 256).flatMap fun i => (List.range 256).map fun j => (i, j)
  let ends := fun (s : State) (fl : Flags) (c : Nat) =>
    (s.setOp gid { op with started := true, flags := op.flags ||| fl, endAt := some (s.hclk h + c + 3) }).takeUnit h false key c
  match op.kind with
  | .mzero n =>
    let slots := hc.slots.filter fun (k, _) => !(decide (op.acc ≤ k / 65536) && decide (k / 65536 < op.acc + n))
    let bad := hc.badAcc.filter fun k => !(decide (op.acc ≤ k / 65536) && decide (k / 65536 < op.acc + n))
    ends (s.putHc h { hc with slots := slots, badAcc := bad }) 0 (32 * n)
  | .maccAdd src =>
    let (hc', fl) := cells.foldl (fun (a : Hc × Flags) (i, j) =>
      let (w, f) := laneFadd .f32 .rne Dst.zero (hc.acc op.acc i j) (hc.acc src i j)
      (a.1.setAcc op.acc i j w, a.2 ||| f ||| hc.accPsn op.acc i j ||| hc.accPsn src i j)) (hc, 0)
    ends (s.putHc h hc') fl 64
  | .mrdReg res row blk _ =>
    let vals := (List.range 32).map fun l => (l, [hc.acc op.acc row (32 * blk + l)], hc.accPsn op.acc row (32 * blk + l))
    ends (s.deliver gid res vals 0 false (s.hclk h + 16)) 0 16
  | _ => s

/-! The transfer unit. -/

/-- The pieces of a transfer: number, row, byte offset in the row, length. -/
def MKind.pieces (k : MKind) : List (Nat × Nat × Nat × Nat) :=
  let rows := fun (n bytes : Nat) =>
    let per := (bytes + 63) / 64
    (List.range n).flatMap fun r => (List.range per).map fun i => (r * per + i, r, 64 * i, min 64 (bytes - 64 * i))
  match k with
  | .mldb _ _ rowb n _ => rows n rowb
  | .mrdMem fmt _ _ _ n cols _ _ _ _ => rows n (cols * mrdWidth fmt)
  | .maccLd _ _ _ n cols _ _ _ => rows n (4 * cols)
  | _ => []

/-- The memory address of a piece, and whether it is in the scratchpad. -/
def MKind.pieceAt (k : MKind) (r o : Nat) : Nat × Bool :=
  match k with
  | .mldb src _ _ _ pitch => ((((src : Int) + r * pitch) % 2 ^ 64).toNat + o, false)
  | .mrdMem _ _ addr pitch _ _ _ _ spad _ => ((((addr : Int) + r * pitch) % 2 ^ 64).toNat + o, spad)
  | .maccLd _ addr pitch _ _ _ _ spad => ((((addr : Int) + r * pitch) % 2 ^ 64).toNat + o, spad)
  | _ => (0, false)

/-- The bytes that MRD writes in a piece, with flags (R230). -/
def mrdBytes (hc : Hc) (slot : Nat) (fmt : MrdFmt) (scale row col n : Nat) : List Byte × Flags :=
  let f := match fmt with
    | .f32 => fmtF32
    | .bf16 => fmtBF16
    | .f16 => fmtF16
    | .f8e4 => fmtF8E4
    | .f8e5 => fmtF8E5
  (List.range n).foldl (fun (a : List Byte × Flags) i =>
    let (b, fl) := encodeF f .rne ((f32 (hc.acc slot row (col + i))).scale (127 - (scale : Int)))
    (a.1 ++ leBytes (mrdWidth fmt) b, a.2 ||| fl ||| hc.accPsn slot row (col + i))) ([], 0)

/-- The descriptor that MRD with `.desc` gives a line. -/
def mrdDesc (fmt : MrdFmt) (scale : Nat) : LineDesc :=
  BitVec.ofNat 16 (256 * scale + match fmt with
    | .f32 => 0x10
    | .bf16 => 0x12
    | .f16 => 0x11
    | .f8e4 => 0x20
    | .f8e5 => 0x21)

/-- Load elements of a line into a slot row (R229). -/
def loadSlot (hc : Hc) (slot row col n : Nat) (add : Bool) (img : LineImg) : Hc × Flags :=
  (List.range n).foldl (fun (a : Hc × Flags) i =>
    let (v, f) := matElem (acceptsA .f32) img i
    let (w, f') := encodeF fmtF32 .rne v
    let (w, f'') := if add then laneFadd .f32 .rne Dst.zero (a.1.acc slot row (col + i)) (BitVec.ofNat 32 w) else (BitVec.ofNat 32 w, 0)
    (a.1.setAcc slot row (col + i) w, a.2 ||| f ||| f' ||| f'' ||| flagIf add flPsn &&& a.1.accPsn slot row (col + i))) (hc, 0)

/-- A global line that a matrix operation writes, with no core's time (log 7). -/
def State.matrixWrite (s : State) (gid core asid line : Nat) (m : ByteMask) (desc : Option LineDesc) : State :=
  if lineIsFar line then (maskRuns m).foldl (fun s (o, bs) => s.postWrite gid asid (farPort (64 * line)) (64 * line + o) bs) s
  else ((s.charge core asid (s.lineBytes (cidDom core) line .team false)).engineWrite (cidDom core) line m desc).noteWriter (sliceOf core line) line core asid

/-- Move one piece whose place is known; the second address is its virtual one. A line in which the read finds an uncorrectable error is not
moved (R238). -/
def State.movePiece (s : State) (h gid : Nat) (g : Group) (op : MOp) (r o n at' va : Nat) (spad ro : Bool) : State × MOp :=
  let core := gidCid gid
  let asid := s.asidOf g
  let read := fun (s : State) =>
    if spad then (s.countPoison core (s.opLine op g.team (at' / 64)), s.opLine op g.team (at' / 64), false) else s.matrixRead ⟨core, asid, g.priv, .mx⟩ op.id (at' / 64) ro
  let failed := { op with fault := op.fault.orElse fun _ => some (0x0E, va) }
  match op.kind with
  | .mldb _ bofs rowb _ _ =>
    let (s, img, new) := read s
    if new then (s, failed) else (s.modHc h fun x => x.setBLine ((bofs + r * rowb + o) / 64) img, op)
  | .maccLd add _ _ _ _ row0 col0 _ =>
    let (s, img, new) := read s
    if new then (s, failed)
    else
      let (hc, fl) := loadSlot (s.hc h) op.acc (row0 + r) (col0 + o / 4) (n / 4) add img
      let fl := if spad then fl ||| s.opPsn g.team (at' / 64) 0 (8 * n) else fl
      (s.putHc h hc, { op with flags := op.flags ||| fl })
  | .mrdMem fmt desc _ _ _ _ row0 col0 _ scale =>
    let w := mrdWidth fmt
    let (bs, fl) := mrdBytes (s.hc h) op.acc fmt scale (row0 + r) (col0 + o / w) (n / w)
    let op := { op with flags := op.flags ||| fl }
    let d := if desc then some (mrdDesc fmt scale) else none
    if spad then
      let s := s.arrive op.id op.id 0 g.team 3 (.spad at' bs)
      (match d with
        | some d => s.arrive op.id op.id 0 g.team 3 (.spadDesc (at' / 64) d)
        | none => s, op)
    else ((s.matrixWrite gid core asid (at' / 64) (byteMask 0 bs) d).inflMod core op.id fun x => some { x with remain := x.remain - 1 }, op)
  | _ => (s, op)

def MKind.writes : MKind → Bool
  | .mrdMem _ _ _ _ _ _ _ _ _ _ => true
  | _ => false

/-- The write of a line would be stamped past 0xFFFF and is held for a wrap (R197). -/
def State.matrixPast (s : State) (gid pa : Nat) : Bool :=
  let d := sliceOf (gidCid gid) (pa / 64)
  !lineIsFar (pa / 64) && !(s.dom d).wrapping && s.writePast d (pa / 64) none

/-- The access of a piece waits so. -/
def State.piecePast (s : State) (gid : Nat) (op : MOp) (pa : Nat) : Bool :=
  if op.kind.writes then s.matrixPast gid pa else s.readPast (gidCid gid) pa

/-- Reach for a piece: moved, set aside, or failed (R204, R238); looked when its page has been looked up. A request that is held is set aside until
it may go. -/
def State.reachPiece (s : State) (h gid : Nat) (g : Group) (op : MOp) (looked : Bool) (p : Nat × Nat × Nat × Nat) : State × MOp :=
  let (i, r, o, n) := p
  let (a, spad) := op.kind.pieceAt r o
  let later := { op with left := op.left ++ [i] }
  if spad then s.movePiece h gid g op r o n a a true false
  else if s.requestsHeld gid g then (s, later)
  else
    let (s, x) := s.placeOf ⟨gidCid gid, s.asidOf g, g.priv, .mx⟩ a (if op.kind.writes then .write else .read) false looked
    match x with
    | .at pa ro => if s.piecePast gid op pa then (s.startWrap (sliceOf (gidCid gid) (pa / 64)), later) else s.movePiece h gid g op r o n pa a false ro
    | .bad code => (s, { op with fault := op.fault.orElse fun _ => some (code, a) })
    | _ => (s, later)

/-- A load of a slot ends at its first fault; MLDB and MRD move everything else (R238). -/
def MOp.stopped (op : MOp) : Bool :=
  op.fault.isSome && match op.kind with
    | .maccLd _ _ _ _ _ _ _ _ => true
    | _ => false

def State.reachAll (s : State) (h gid : Nat) (g : Group) (op : MOp) (looked : Bool) (ps : List (Nat × Nat × Nat × Nat)) : State × MOp :=
  let (s, op) := ps.foldl (fun (acc : State × MOp) p => if acc.2.stopped then acc else acc.1.reachPiece h gid g acc.2 looked p) (s, op)
  (s, if op.stopped then { op with left := [] } else op)

/-- Latency of the first line of a transfer (R226). -/
def State.transferLatency (s : State) (gid : Nat) (g : Group) (op : MOp) : Nat :=
  let (a, spad) := op.kind.pieceAt 0 0
  if spad then 22
  else
    match s.placeOf ⟨gidCid gid, s.asidOf g, g.priv, .mx⟩ a .read false false with
    | (_, .at pa _) => s.pathLatency (gidCid gid) (pa / 64) .any
    | _ => 0

/-- The state of a transfer in the in-flight table: parked while a page fault holds a piece. -/
def State.transferState (s : State) (gid : Nat) (g : Group) (op : MOp) : State :=
  let parked := op.kind.pieces.any fun (i, r, o, _) => op.left.contains i && s.faulting (cidDom (gidCid gid)) (s.asidOf g) (pageOf (op.kind.pieceAt r o).1)
  s.inflState (gidCid gid) op.id (if parked then 2 else 1)

/-- A transfer (R221, R226, R227). -/
def State.runTransfer (s : State) (h gid : Nat) (g : Group) (key : Nat) (op : MOp) : State :=
  let ps := op.kind.pieces
  let bytes := ps.foldl (fun a (_, _, _, n) => a + n) 0
  let c := if ps.isEmpty then 0 else s.transferLatency gid g op + (bytes + 127) / 128
  let (s, op) := s.reachAll h gid g { op with started := true, endAt := some (s.hclk h + (if ps.isEmpty then 0 else c + 3)) } false ps
  ((s.transferState gid g op).setOp gid op).takeUnit h true key c

/-- MATRIX_SUBTILE_START (R231). -/
def execMatrixSubtileStart (h : Nat) (transfer : Bool) (s : State) : Out :=
  .next (if !s.unitReady h transfer then s
    else
      match s.nextServed h transfer (if transfer then (s.hc h).xferAt.1 else (s.hc h).arrayAt.1) with
      | none => s
      | some (gid, g) =>
        let ops := s.unitOps gid g h transfer
        let key := s.serviceKey gid g
        let n := if ops.length ≤ 1 then 0 else Config.chainPick s.freeUsed % ops.length
        let s := if ops.length ≤ 1 then s else s.nextFree
        match ops[n]? with
        | none => s
        | some op =>
          match op.kind with
          | .mma mode sparse aofs apitch b stream bpitch m n k mofs cmask =>
            s.runMma h gid g key op ⟨mode, sparse, aofs, apitch, b, stream, bpitch, m, n, k, mofs, cmask⟩
          | _ => if transfer then s.runTransfer h gid g key op else s.runArray h gid key op)

/-! Completion and resumption. -/

/-- The operation with this number, and its group. -/
def State.findOp (s : State) (id : Nat) : Option (Nat × Group × MOp) :=
  s.groups.findSome? fun (gid, g) => (g.mq.find? (·.id == id)).map fun m => (gid, g, m)

/-- Whether an operation's completion is due. -/
def State.opDone (s : State) (gid : Nat) (m : MOp) : Bool :=
  m.left.isEmpty && m.parked.isNone && match m.endAt with
    | some t => decide (t ≤ s.hclk (cidHcid (gidCid gid)))
    | none => false

/-- MATRIX_OP_COMPLETE (R226, R233): the entry frees; a quire that is complete sets its flags; a fault becomes pending (R238);
the completion of a quire wakes a sleeping group (R176). -/
def execMatrixOpComplete (id : Nat) (s : State) : Out :=
  .next (match s.findOp id with
    | none => s
    | some (gid, g, m) =>
      if !s.opDone gid m then s
      else
        let g := { g with mq := (g.mq.filter fun x => x.id != id), sched := { g.sched with mxAt := s.hclk (cidHcid (gidCid gid)) + 1 } }
        let last := g.quireIssued m.quire && !g.quireOpen m.quire
        let s := (s.putGroup gid (g.quireFlags m.quire m.flags)).inflFree (gidCid gid) id
        let s := match m.fault with
          | some (code, va) => s.pendCause gid 0x11 code va
          | none => s
        let s := s.settleQuires gid false
        if last then s.wake gid else s)

/-- Whether what waits for a page can go on: no fault of the page is outstanding and no walk under way. -/
def State.pageFree (s : State) (gid : Nat) (g : Group) (page : Nat) : Bool :=
  !s.faulting (cidDom (gidCid gid)) (s.asidOf g) page && !s.engineWalks ⟨gidCid gid, s.asidOf g, g.priv, .mx⟩ page

/-- Whether a piece set aside may go now. -/
def State.pieceFree (s : State) (gid : Nat) (g : Group) (m : MOp) (r o : Nat) : Bool :=
  let a := (m.kind.pieceAt r o).1
  s.pageFree gid g (pageOf a) && !s.requestsHeld gid g &&
    !(match s.placeOf ⟨gidCid gid, s.asidOf g, g.priv, .mx⟩ a (if m.kind.writes then .write else .read) false true with
      | (t, .at pa _) => t.piecePast gid m pa && (t.dom (sliceOf (gidCid gid) (pa / 64))).wrapAsked
      | _ => false)

/-- Whether a parked operation, or a piece it set aside, can go on (R238). -/
def State.opReleased (s : State) (gid : Nat) (g : Group) (m : MOp) : Bool :=
  m.parked.any (s.pageFree gid g) || m.kind.pieces.any fun (i, r, o, _) => m.left.contains i && s.pieceFree gid g m r o

/-- MATRIX_FAULT_RESUME (R238). -/
def execMatrixFaultResume (id : Nat) (s : State) : Out :=
  .next (match s.findOp id with
    | none => s
    | some (gid, g, m) =>
      if !s.opReleased gid g m then s
      else
        let h := cidHcid (gidCid gid)
        if m.parked.isSome then (s.inflState (gidCid gid) id 1).setOp gid { m with looked := m.parked, parked := none }
        else
          let ps := m.kind.pieces.filter fun (i, r, o, _) => m.left.contains i && s.pieceFree gid g m r o
          let t := s.transferLatency gid g m
          let (s, m) := s.reachAll h gid g { m with left := m.left.filter fun i => !ps.any fun (j, _, _, _) => j == i } true ps
          (s.transferState gid g m).setOp gid { m with endAt := some (max (m.endAt.getD 0) (s.hclk h + t + 4)) })

end Sys2Proof.Machine
end

