-- ==== Sys2Proof/Machine/System.lean ====
section
/-! DEFINITION. System instructions, opcodes 0xD0-0xD7, with what follows them: retirement, slots and team resources freed, expiries,
trap entry retried (R174-R183, R345, R370, R371). -/

namespace Sys2Proof.Machine

/-! Leaving. -/

/-- Clear lanes of the mask, in a pending landing of it as well (R74, R175). -/
def Group.leaveLanes (g : Group) (run : LaneMask) : Group :=
  let clear := fun (r : Result) => if r.dst == .spec 0 then { r with vals := r.vals.map fun w => w &&& ~~~run } else r
  { g with exm := g.exm &&& ~~~run, results := g.results.map clear }

/-- EXIT (R175): its clearing stands against a SETEXM still pending (R74). One that no lane runs does nothing, and drains nothing (R81: log 103). -/
def execExit (o : Ctl) (s : State) : Out :=
  s.withGroup fun gid g =>
    let run := g.runMask o.hdr
    if run = 0 then s.finish gid g o.hdr none
    else
      let g' := g.drain.leaveLanes run
      if g'.exm == 0 then (s.putGroup gid g').retire gid else s.finish gid g' o.hdr none

/-- A copy still to write a register of group gi of the team. -/
def CopyReq.touches (c : CopyReq) (tid gi : Nat) : Bool :=
  c.team == tid && c.kind == .reg && (List.range c.rows).any fun r =>
    let lo := c.l + r * c.pitch
    (apertureReg lo).1 ≤ gi && gi ≤ (apertureReg (lo + c.rowb - 1)).1

/-- Whether a retired group's slot and window can be freed (R175). -/
def State.slotFreeable (s : State) (g : Group) : Bool :=
  g.retired && g.vres.isEmpty && g.mq.isEmpty && !g.halted &&
    !s.work.any fun w =>
      match w.job with
      | .copy c => c.touches g.team g.idx
      | _ => false

/-- A slot number that no core has, in place of a freed one. -/
def noSlot : Nat := 2 ^ 30

/-- GROUP_SLOT_FREE (R175): what the reuse latches hold of the group goes with it (R83). -/
def execGroupSlotFree (gid : Nat) (s : State) : Out :=
  .next (match s.group gid with
    | none => s
    | some g =>
      if !s.slotFreeable g then s
      else { (s.modTeam g.team fun t => { t with slots := setAt t.slots g.idx noSlot }).unlatchAll gid with groups := tdel s.groups gid })

/-- Whether a team's scratchpad and barriers can be freed (R175): retired, no copy and no matrix operation that targets them. -/
def State.teamFreeable (s : State) (tid : Nat) (t : Team) : Bool :=
  t.launched != 0 && t.live = 0 && t.sus.st == .present &&
    (!s.work.any fun w =>
      match w.job with
      | .copy c => c.team == tid
      | .arrival _ x _ _ => x == tid
      | _ => false) &&
    !s.groups.any fun (_, g) => !g.mq.isEmpty && ((s.team g.team).map (·.cluster)) == some t.cluster && (g.team == tid || g.mq.any fun m =>
      match m.kind with
      | .mma _ _ _ _ _ _ _ _ _ _ _ cmask => cmask != 0
      | _ => false)

/-- A team leaves its cluster; the last one frees the cluster, its accumulator slots and B store (R217). -/
def State.leaveCluster (s : State) (tid cl : Nat) : State :=
  match tget s.clusters cl with
  | none => s
  | some c =>
    let c := { c with teams := c.teams.filter (· != tid) }
    if c.teams.isEmpty then
      let s := { s with clusters := tdel s.clusters cl }
      s.modHc c.hcid fun h => if h.holder == some cl then { h with holder := none, slots := [], bstore := [], bdesc := [], badAcc := [], badB := [] } else h
    else { s with clusters := tput s.clusters cl c }

/-- TEAM_RESOURCES_FREE (R175): scratchpad, barriers and accumulator slots at once; the team is gone with its last slot. -/
def execTeamResourcesFree (tid : Nat) (s : State) : Out :=
  .next (match s.team tid with
    | none => s
    | some t =>
      if !s.teamFreeable tid t then s
      else
        let s := s.leaveCluster tid t.cluster
        if t.slots.all (· == noSlot) then { s with teams := tdel s.teams tid }
        else s.putTeam tid { t with spGran := 0, spBytes := 0, spad := [], spDesc := [], bad := [], bars := List.replicate 16 {} })

/-! Traps. -/

/-- TRAP (R174, R181). -/
def execTrap (o : Ctl) (s : State) : Out :=
  s.withGroup fun gid g => s.uniform gid g o.hdr (bopUse o.b 1) [] fun g' => s.trapNext gid g' o.hdr 0x20 ((g.bopWord gid o.b).toNat % 2 ^ 16)

def execBkpt (o : Ctl) (s : State) : Out :=
  s.withGroup fun gid g => s.uniform gid g o.hdr [] [] fun g' => s.trapNext gid g' o.hdr 0x21 0

/-- RTE (R182). -/
def execRte (o : Ctl) (s : State) : Out :=
  s.withGroup fun gid g =>
    if g.runMask o.hdr = 0 then s.finish gid g o.hdr none
    else if !g.level then s.trapHere gid g 0x02 1
    else if s.faulting (cidDom (gidCid gid)) (s.asidOf g) (pageOf g.tsa.toNat) then s.putGroup gid { g with park := .rte 0 }
    else
      s.returnFrom gid g o.hdr.sch.sw (fun s => s.putGroup gid { g with park := .rte 0 }) fun s code arg => s.trapHere gid g code arg

/-- Whether a group that waits in trap entry can go on: its page has been released, and the core's own writes there are performed (R154). A group
that dusk has halted completes its entry first, before its team is saved (R184, log 88). -/
def State.entryReady (s : State) (gid : Nat) (g : Group) : Bool :=
  let cid := gidCid gid
  let tsa := g.tsa.toNat
  match g.park with
  | .entry _ _ => (!g.halted || !((s.team g.team).map Team.inImage).getD false) && !s.faulting (cidDom cid) (s.asidOf g) (pageOf tsa) &&
      (match s.tlbHit cid (s.asidOf g) (pageOf tsa) .write g.priv with
      | some (.ok pa _ _ _) => !s.saveBusy cid (pa + tsa % 4096)
      | _ => true)
  | _ => false

/-- TRAP_ENTRY (R177): entry that waited for its save area goes on. -/
def execTrapEntry (gid : Nat) (s : State) : Out :=
  .next (match s.group gid with
    | none => s
    | some g =>
      match g.park with
      | .entry t _ => if s.entryReady gid g then s.enterTrap gid t else s
      | _ => s)

/-! Yielding and sleeping. -/

/-- YIELD (R174): not eligible in the next 8 clk. -/
def execYieldi (o : Ctl) (s : State) : Out :=
  s.withGroup fun gid g =>
    if g.runMask o.hdr = 0 then s.finish gid g o.hdr none
    else s.finish gid { g with sched := { g.sched with yieldAt := some (s.cclk (gidCid gid) + 9) } } o.hdr none

def State.yieldOver (s : State) (gid : Nat) (g : Group) : Bool :=
  match g.sched.yieldAt with
  | some t => decide (t ≤ s.cclk (gidCid gid))
  | none => false

/-- YIELD_EXPIRY: eligible again, marked young until it next issues. -/
def execYieldExpiry (gid : Nat) (s : State) : Out :=
  .next (s.modGroup gid fun g => if s.yieldOver gid g then { g with sched := { g.sched with yieldAt := none, young := true } } else g)

/-- SLEEP (R176). With SW, outstanding results hold the group as long as they would wake it. -/
def execSleep (o : Ctl) (s : State) : Out :=
  s.withGroup fun gid g => s.uniform gid g o.hdr (bopUse o.b 1) [] fun g' =>
    let n := (g.bopWord gid o.b).toNat
    (s.finish gid g'.drain o.hdr none).modGroup gid fun x =>
      if n != 0 && x.park == .running then { x with park := .sleep (s.cclk (gidCid gid)) n } else x

def State.sleepOver (s : State) (gid : Nat) (g : Group) : Bool :=
  match g.park with
  | .sleep t n => decide (t + n < s.cclk (gidCid gid))
  | _ => false

/-- SLEEP_EXPIRY (R176). -/
def execSleepExpiry (gid : Nat) (s : State) : Out :=
  .next (s.modGroup gid fun g => if s.sleepOver gid g && !g.halted then { g with park := .running } else g)

/-! Reports. -/

/-- Scalars that land at a variable latency, with their flags and the address that poison is reported with (R40, R157). -/
def State.landScalars (s : State) (gid : Nat) (g : Group) (h : Hdr) (d : Dst) (ws : List Word) (due : Nat) (acq : Option Scope) (fl : Flags) (faddr : Nat) :
    State :=
  let dsts := (List.range ws.length).map fun i => RegName.scal (d.reg.toNat + i)
  let v := { freshVRes s.uid g.sched.issued .info dsts 1 (ws.map fun w => [w]) due with infl := 0, acq := acq, lflags := [fl], faddr := faddr }
  let s := { s with uid := s.uid + 1 }
  s.finish gid { g with vres := g.vres ++ [v], park := .running } h none

/-- Scalars that land at a variable latency and set no flag (R40). -/
def State.giveScalars (s : State) (gid : Nat) (g : Group) (h : Hdr) (d : Dst) (ws : List Word) (due : Nat) (acq : Option Scope) : State :=
  s.landScalars gid g h d ws due acq 0 0

/-- DIVST (R345). -/
def execDivst (o : Ctl) (s : State) : Out :=
  s.withGroup fun gid g => s.uniform gid g o.hdr [] (dstUse o.d 4) fun g' =>
    let u := ((s.team g.team).map (·.sus)).getD {}
    s.giveScalars gid g' o.hdr o.d
      [wordOf u.dawns, wordOf u.shadowed, wordOf u.landed, wordOf (u.kinds * 2 ^ 16 + min 0xFFFF u.deferred)] (s.now + 1 + Config.extraDelay s.uid) none

/-- An entry as INFLT returns it (R370). -/
def inflWords (e : Infl) : List Word :=
  [wordOf (e.va % 2 ^ 32), wordOf (min 0xFFFF e.lines * 2 ^ 16 + e.va / 2 ^ 32 % 2 ^ 16), wordOf (e.engine * 2 ^ 24 + e.slot * 2 ^ 16 + e.tag % 2 ^ 16),
    wordOf (min 0xFFFF e.remain * 2 ^ 16 + e.state * 2 ^ 4 + e.kind)]

/-- STATE of an entry of a core: 3 while the operation's arrivals are diverted, 4 while they go to the landing buffer (R370). -/
def State.inflAt (s : State) (cid : Nat) (e : Infl) : Nat :=
  match s.teams.find? fun (tid, t) => t.cid == cid && t.asid == e.asid && t.away && (s.flightOps tid t).contains e.op with
  | some (_, t) => if t.inImage && t.sus.st != .absent then 4 else 3
  | none => e.state

/-- INFLT (R371). -/
def execInflt (o : Ctl) (s : State) : Out :=
  s.withGroup fun gid g => s.uniform gid g o.hdr (bopUse o.b 1) (dstUse o.d 4) fun g' =>
    let n := (g.bopWord gid o.b).toNat
    if n ≥ 64 then s.trapHere gid g 0x05 0
    else
      let ws := match (s.core (gidCid gid)).inflt.getD n none with
        | some e => if e.asid == s.asidOf g then inflWords { e with state := s.inflAt (gidCid gid) e } else [0, 0, 0, 0]
        | none => [0, 0, 0, 0]
      s.giveScalars gid g' o.hdr o.d ws (s.now + 1 + Config.extraDelay s.uid) none

end Sys2Proof.Machine
end

