-- ==== Sys2Proof/Machine/Fence.lean ====
section
/-! DEFINITION. FENCE, PFENCE and TADV, opcodes 0xC4-0xC6 (R196-R198, R304-R307). -/

namespace Sys2Proof.Machine

/-- The bank operations and atomics of the group that are not complete. -/
def State.banksDone (s : State) (gid : Nat) : Bool :=
  !s.work.any fun w =>
    match w.job with
    | .bank b => b.gid == gid
    | .bankDone b _ _ _ => b.gid == gid
    | .atomic a => a.gid == gid
    | _ => false

/-- The group's copies that are not complete. -/
def State.copiesDone (s : State) (gid : Nat) : Bool :=
  !s.work.any fun w =>
    match w.job with
    | .copy c => c.gid == gid
    | _ => false

/-- The loads and atomics of the group have all landed. -/
def Group.landed (g : Group) : Bool := g.vres.all fun v => !(v.own && (v.kind == .load || v.kind == .atomic))

/-- Whether writes performed at a slice are performed at S as well: those of the core's domain, and of the domains that have executed bank
operations of the group (R298, R313). -/
def State.farDone (s : State) (gid cid : Nat) (sc : Scope) : Bool :=
  (scopeNum sc < 2 || (s.acksDone (cidDom cid) && (((s.group gid).map (·.bankAt)).getD []).all s.acksDone)) && (sc != .sys || !s.posted.any fun p => p.gid == gid)

/-- The stamps of strong loads and atomics at scope S or wider since the last acquire (R305). -/
def Group.noted (g : Group) (sc : Scope) : Nat × Bool :=
  (List.range 4).foldl (fun (a : Nat × Bool) k =>
    if scopeNum sc ≤ k then (max a.1 (g.acqWts.getD k 0), a.2 || g.acqFar.getD k false) else a) (0, false)

/-- The acquire of FENCE (R305). -/
def State.fenceAcquire (s : State) (gid : Nat) (g : Group) (sc : Scope) : State :=
  let (w, far) := g.noted sc
  (s.putGroup gid g).acquireBy gid sc w far

/-- Later writes of the group are releases (R305). -/
def Group.fence (g : Group) (sc : Scope) : Group := if sc == .team then g else { g with fenced := true }

/-- FENCE: stage 1 waits for the loads, stage 2 for the release. -/
def State.fence (s : State) (gid : Nat) (g : Group) (o : Syn) : State :=
  let cid := gidCid gid
  let acq := o.q.ord == .acq || o.q.ord == .ar
  let rel := o.q.ord == .rel || o.q.ord == .ar
  let ends := fun (s : State) (g : Group) =>
    let s := if acq then s.fenceAcquire gid g o.q.scope else s
    match s.group gid with
    | some g => s.endWait gid (if rel then g.fence o.q.scope else g) o.hdr
    | none => s
  match g.waitStage with
  | 0 => s.uniform gid g o.hdr [] [] fun g' => s.waitAt gid (g'.drainNow []) 1
  | 1 =>
    if acq && !g.landed then s
    else if rel then s.waitAt gid { g with rel := some (s.relStart gid cid o.q.scope) } 2
    else ends s g
  | _ =>
    match g.rel with
    | some r =>
      let (s, r') := s.relMove gid cid none none r
      s.waitAt gid { g with rel := r' } 2
    | none => ends s g

def execFence (o : Syn) (s : State) : Out := s.withGroup fun gid g => s.fence gid g o

/-- The group's matrix operations are complete, their register results landed (R233). -/
def Group.matrixDone (g : Group) : Bool := g.mq.isEmpty && g.vres.all fun v => v.kind != .mrd

/-- PFENCE (R306): the paths of FROM are waited for in stage 1, the release of LS in stage 2; path bits LS, CP, MX, BK from bit 3 down. -/
def State.pfence (s : State) (gid : Nat) (g : Group) (o : Syn) : State :=
  let cid := gidCid gid
  let has := fun (m : BitVec 4) (k : Nat) => m.getLsbD k
  let ends := fun (s : State) (g : Group) =>
    let engines := has o.q.frm 0 || has o.q.frm 1 || has o.q.frm 2
    let s := if has o.q.dest 3 then
        let s := s.fenceAcquire gid g o.q.scope
        if engines && o.q.scope != .team && !isDcc cid then s.advance cid ((s.dom (cidDom cid)).wm + 1) else s
      else s
    match s.group gid with
    | some g => s.endWait gid (if has o.q.frm 3 then g.fence o.q.scope else g) o.hdr
    | none => s
  match g.waitStage with
  | 0 => s.uniform gid g o.hdr [] [] fun g' => s.waitAt gid (g'.drainNow []) 1
  | 1 =>
    let ready := (!has o.q.frm 2 || s.copiesDone gid) && (!has o.q.frm 1 || g.matrixDone) && (!has o.q.frm 0 || s.banksDone gid) &&
      (!(has o.q.frm 0 || has o.q.frm 1 || has o.q.frm 2) || s.farDone gid cid o.q.scope) && (!has o.q.frm 3 || g.landed)
    if !ready then s
    else if has o.q.frm 3 then s.waitAt gid { g with rel := some (s.relStart gid cid o.q.scope) } 2
    else ends s g
  | _ =>
    match g.rel with
    | some r =>
      let (s, r') := s.relMove gid cid none none r
      s.waitAt gid { g with rel := r' } 2
    | none => ends s g

def execPfence (o : Syn) (s : State) : Out := s.withGroup fun gid g => s.pfence gid g o

/-- TADV (R198): the result is the core's time after the advance, 0 when a wrap took place. -/
def execTadv (o : Syn) (s : State) : Out :=
  s.withGroup fun gid g => s.uniform gid g o.hdr (bopUse o.b 1) (dstUse o.d 1) fun g' =>
    let cid := gidCid gid
    let v := s.pts cid + (g.bopWord gid o.b).toNat
    let wraps := decide (v > 0xFFFF)
    (s.advance cid v).finish gid
      (g'.addResult (s.cclk cid + latMov) (.scal o.d.reg.toNat) 1 [if wraps then 0 else wordOf v] 0) o.hdr none

end Sys2Proof.Machine
end

