-- ==== Sys2Proof/Machine/Bank.lean ====
section
/-! DEFINITION. Bank and vocabulary operations, opcodes 0xB0-0xB5, and the banks that perform them (R252-R264). -/

namespace Sys2Proof.Machine

/-! Issue. -/

/-- A range of an operation: address, bytes, whether it is written, whether it must lie in DSM. -/
structure BankRange where
  va : Nat
  bytes : Nat
  write : Bool
  dsm : Bool
  deriving DecidableEq, Repr

/-- The block of R255. -/
structure BankBlock where
  x : Nat
  y : Nat
  n : Nat
  p1 : Word
  p2 : Word
  p3 : Word
  deriving DecidableEq, Repr

def bankBlock (b : List Word) : BankBlock :=
  let w := fun (i : Nat) => (b.getD i 0).toNat
  ⟨w 0 + 2 ^ 32 * bits (w 1) 15 0, w 2 + 2 ^ 32 * bits (w 3) 15 0, bits (w 4) 22 0, b.getD 5 0, b.getD 6 0, b.getD 7 0⟩

/-- VSMAX's aux address, 0 for none. -/
def BankBlock.aux (b : BankBlock) : Nat := b.p2.toNat + 2 ^ 32 * b.p3.toNat

/-- Must-be-zero bits and limits (R255, R256). -/
def bankZeros (k : BankKind) (b : List Word) : Bool :=
  let w := fun (i : Nat) => (b.getD i 0).toNat
  let n := bits (w 4) 22 0
  bits (w 1) 31 16 == 0 && bits (w 3) 31 16 == 0 && bits (w 4) 31 23 == 0 && decide (n ≤ 4194304) &&
    match k with
    | .bupd v => (if v.vec then w 5 == 0 else w 2 == 0 && w 3 == 0) && (v.op == .ffma || w 6 == 0) && w 7 == 0
    | .bred _ => w 5 == 0 && w 6 == 0 && w 7 == 0
    | .vtopk => decide (w 5 ≤ 256) && w 6 == 0 && w 7 == 0
    | .vsmax => true
    | .vsamp => decide (1 ≤ n) && decide (n ≤ 256) && w 6 == 0 && w 7 == 0

/-- Alignments (R256). -/
def bankAligned (k : BankKind) (b : BankBlock) : Bool :=
  match k with
  | .bupd v => b.x % 4 == 0 && (!v.vec || b.y % 4 == 0)
  | .bred _ => b.x % 4 == 0 && b.y % 4 == 0
  | .vtopk => b.x % 4 == 0 && b.y % 8 == 0
  | .vsmax => b.x % 4 == 0 && b.y % 4 == 0 && b.aux % 4 == 0
  | .vsamp => b.x % 8 == 0 && b.y % 8 == 0

/-- The ranges an operation names: X, Y, and the result or aux (R256). X's page is needed even when N = 0: it says which domain works. -/
def bankRanges (k : BankKind) (b : BankBlock) : BankRange × Option BankRange × Option BankRange :=
  let x := fun (n : Nat) (w : Bool) => (⟨b.x, n, w, true⟩ : BankRange)
  match k with
  | .bupd v => (x (4 * b.n) true, if v.vec && b.n != 0 then some ⟨b.y, 4 * b.n, false, true⟩ else none, none)
  | .bred _ => (x (4 * b.n) false, none, some ⟨b.y, 4, true, false⟩)
  | .vtopk => (x (4 * b.n) false, if b.p1 = 0 then none else some ⟨b.y, 8 * b.p1.toNat, true, true⟩, none)
  | .vsmax => (x (4 * b.n) false, if b.n = 0 then none else some ⟨b.y, 4 * b.n, true, true⟩, if b.aux = 0 then none else some ⟨b.aux, 8, true, false⟩)
  | .vsamp => (x (8 * b.n) false, none, some ⟨b.y, 8, true, false⟩)

def BankRange.pages (r : BankRange) : List Nat := (List.range ((r.va + max r.bytes 4 - 1) / 4096 - r.va / 4096 + 1)).map (r.va / 4096 + ·)

/-- Every page of the ranges, and whether it is written. -/
def rangePages (rs : List BankRange) : List (Nat × Bool) :=
  (uniqueNats (rs.flatMap BankRange.pages)).map fun p => (p, rs.any fun r => r.write && r.pages.contains p)

/-- Where a result word leads, in DRAM or DSM (R256). -/
def State.bankWordAt (s : State) (known : Nat → Option Xlat) (va : Nat) : Option Nat :=
  match known (pageOf va) with
  | some (.ok pa _ _ _) =>
    match targetOf (pa + va % 4096) with
    | .dram _ _ => some (pa + va % 4096)
    | .dsm d o => if o < s.dsmBytes d then some (pa + va % 4096) else none
    | _ => none
  | _ => none

/-- The physical addresses of a result's words. -/
def State.bankResult (s : State) (known : Nat → Option Xlat) (r : BankRange) : Option (List Nat) :=
  let ws := (List.range (r.bytes / 4)).map fun i => s.bankWordAt known (r.va + 4 * i)
  if ws.all (·.isSome) then some (ws.filterMap id) else none

/-- The physical run of a range whose pages are known, if it is one ascending run of one domain's DSM (R256). -/
def State.bankPlace (s : State) (known : Nat → Option Xlat) (r : BankRange) : Option Nat :=
  let pas := r.pages.map fun p =>
    match known p with
    | some (.ok pa _ _ _) => some pa
    | _ => none
  match pas.head?.join with
  | none => none
  | some base =>
    let pa := base + r.va % 4096
    let last := pa + max r.bytes 4 - 1
    if !(pas.zipIdx).all fun (x, i) => x == some (base + 4096 * i) then none
    else
      match targetOf pa, targetOf last with
      | .dsm d _, .dsm e o => if d == e && decide (o < s.dsmBytes d) then some pa else none
      | _, _ => none

def State.banksHeld (s : State) (cid : Nat) : Nat :=
  (s.work.filter fun w =>
    match w.job with
    | .bank b => b.core == cid
    | .bankDone b _ _ _ => b.core == cid
    | _ => false).length

/-- Latency of the first line and the fullest bank's lines (R264). -/
def bankLb (pa bytes : Nat) : Nat :=
  let lines := if bytes = 0 then [] else (List.range ((pa + bytes - 1) / 64 - pa / 64 + 1)).map (pa / 64 + ·)
  (List.range 64).foldl (fun m b => max m (lines.filter fun l => lineBank l == b).length) 0

/-- Clocks from the issuing core to the first bank of X. -/
def BankReq.way (b : BankReq) : Nat := transit (cidDom b.core) (siteRouter (cidSite b.core)) b.dom (bankSite (lineBank (b.x / 64)))

/-- The sources of a bank instruction. -/
def bankUses (o : Bnk) : List Use := [srcUse o.a 0 8 Perm.id]

/-- An operation that has passed every check is accepted: it sets out, or waits for its release (R254, R263). Its KILL marks take effect
(R80). -/
def State.bankAccept (s : State) (gid : Nat) (g : Group) (o : Bnk) (k : BankKind) (b : BankBlock) (x y aux aux2 : Nat) : State :=
  let cid := gidCid gid
  let d := lineHome (x / 64)
  let seq := (s.core cid).bankSeq
  let ticket := wordOf (cidSite cid * 2 ^ 24 + seq)
  let rel := if o.q.ord == .rel || o.q.ord == .ar then some (s.relStart gid cid o.q.scope) else none
  let r : BankReq :=
    { gid := gid, team := g.team, nid := ((s.teamOf g).map (·.nid)).getD 0, core := cid, asid := s.asidOf g, dom := d, seq := seq, kind := k, scope := o.q.scope,
      x := x, y := y, aux := aux, n := b.n, p1 := b.p1, p2 := b.p2, p3 := b.p3, rel := rel, snap := [], aux2 := aux2 }
  let r := { r with snap := s.bankSnap r }
  let lines := (4 * b.n + 63) / 64
  let s := s.inflTake cid ⟨s.uid, s.asidOf g, 3, gidSlot gid, 0x80 + lineBank (x / 64), seq, b.x, lines, lines, 0⟩
  let s := if rel.isSome then s.addNow (.bank r) else s.addRequest cid r.asid r.way (.bank r)
  let s := s.modCore cid fun c => { c with bankSeq := (seq + 1) % 65536, tickets := tdel c.tickets seq }
  let g := (g.spend ((g.acc.map (·.kills)).getD [])).addResult (s.cclk cid + latMov) (.scal o.d.reg.toNat) 1 [ticket] 0
  s.finish gid { g with park := .running } o.hdr none

/-- The translations are known: the tests of R256 that need them. -/
def State.bankChecked (s : State) (gid : Nat) (g : Group) (o : Bnk) (k : BankKind) (b : BankBlock) (a : Access) (known : Nat → Option Xlat) : State :=
  let (rx, ry, ra) := bankRanges k b
  let rs := rx :: (ry.toList ++ ra.toList)
  let pages := rangePages rs
  let bad := pages.findSome? fun (p, _) =>
    match known p with
    | some (.fault c) => some (p, c)
    | _ => none
  let at' := fun (r : BankRange) (p : Nat) => List.replicate 32 (max r.va (4096 * p))
  match bad with
  | some (p, c) => s.memTrap gid g c a.todo (at' ((rs.find? fun r => r.pages.contains p).getD rx) p)
  | none =>
    let absent := pages.filter fun (p, _) => !(match known p with
      | some (.ok _ _ _ _) => true
      | _ => false)
    if !absent.isEmpty then
      s.putGroup gid { g with
        replay := a.todo, park := .xlat, acc := some { a with xl := [], walks := [], parked := true, pages := absent.map (·.1) } }
    else
      let px := s.bankPlace known rx
      let py := ry.map (s.bankPlace known)
      let pa := ra.map (s.bankResult known)
      let fail := fun (r : BankRange) => s.memTrap gid g 0x05 a.todo (List.replicate 32 r.va)
      match px, py, pa with
      | none, _, _ => fail rx
      | _, some none, _ => fail (ry.getD rx)
      | _, _, some none => fail (ra.getD rx)
      | some x, py, pa =>
        let y := py.join
        let elsewhere := y.any fun y => lineHome (y / 64) != lineHome (x / 64)
        let crossed := k == .vsmax && y.any fun y => x != y && decide (x < y + 4 * b.n) && decide (y < x + 4 * b.n)
        if elsewhere || crossed then fail (ry.getD rx)
        else
          let res := pa.join.getD []
          let aux := fun (i : Nat) => if k == .vsmax then res.getD i 0 else 0
          s.bankAccept gid g o k b x (y.getD (res.getD 0 0)) (aux 0) (aux 1)

/-- Translate what is not known yet (R151, R256). -/
def State.bankGo (s : State) (gid : Nat) (g : Group) (o : Bnk) (k : BankKind) (a : Access) : State :=
  let cid := gidCid gid
  let asid := s.asidOf g
  let b := bankBlock (a.vals.getD 0 [])
  let (rx, ry, ra) := bankRanges k b
  let pages := rangePages (rx :: (ry.toList ++ ra.toList))
  let kindOf := fun (w : Bool) => if w then AccKind.write else .read
  let look := fun (x : Nat × Bool) => (tget a.xl x.1).orElse fun _ => s.tlbHit cid asid x.1 (kindOf x.2) g.priv
  let known := fun (p : Nat) => (pages.find? (·.1 == p)).bind look
  if a.parked || !a.walks.isEmpty then s
  else
    let missing := pages.filter fun x => (look x).isNone
    if missing.isEmpty then s.bankChecked gid g o k b a known
    else
      let xl := pages.foldl (fun t x => match look x with
        | some v => tput t x.1 v
        | none => t) a.xl
      let (s, ws) := missing.foldl (fun (acc : State × List Nat) x =>
        let (s, id) := acc.1.askWalk ⟨cidDom cid, cid, asid, x.1, kindOf x.2, .bk, g.priv, some gid, false, .none⟩
        (s, acc.2 ++ [id])) (s, [])
      s.putGroup gid { g with acc := some { a with xl := xl, walks := ws }, park := .xlat }

/-- Whether the operation is a release (R263): its issue drains the window (R81). -/
def bankReleases (o : Bnk) : Bool := o.q.ord == .rel || o.q.ord == .ar

/-- An instruction of 0xB0-0xB4 (R253-R256). A repeat looks its pages up and drains again (R152). -/
def State.bankInstr (s : State) (gid : Nat) (g : Group) (o : Bnk) (k : BankKind) : State :=
  let cid := gidCid gid
  if g.runMask o.hdr != 0 && s.banksHeld cid ≥ 64 then s
  else
    match g.acc with
    | some a =>
      let again := !a.parked && a.xl.isEmpty && a.walks.isEmpty
      let (rx, ry, ra) := bankRanges k (bankBlock (a.vals.getD 0 []))
      let n := (rangePages (rx :: (ry.toList ++ ra.toList))).length
      s.bankGo gid (if again then (g.memStart o.hdr (bankReleases o) a.kills).lookUps (s.cclk cid) n else g) o k a
    | none =>
      s.uniform gid g o.hdr (bankUses o) (dstUse o.d 1) fun _ =>
        let ws := g.scalarBlock gid o.a 8
        let b := bankBlock ws
        let (rx, ry, ra) := bankRanges k b
        let rs := rx :: (ry.toList ++ ra.toList)
        if !bankZeros k ws then s.trapHere gid g 0x05 0
        else if !bankAligned k b then s.trapHere gid g 0x04 0
        else if rs.any fun r => decide (r.va + r.bytes > 2 ^ 48) then s.trapHere gid g 0x05 0
        else
          let pages := rangePages rs
          let ks := g.killsOf (g.runMask o.hdr) (g.runMask o.hdr) (bankUses o)
          let a : Access := { todo := g.runMask o.hdr, ea := List.replicate 32 b.x, vals := [ws], xl := [], walks := [], parked := false, kills := ks }
          s.bankGo gid { (g.memStart o.hdr (bankReleases o) ks).lookUps (s.cclk cid) pages.length with acc := some a } o k a

def execBupd (v : BupdV) (o : Bnk) (s : State) : Out := s.withGroup fun gid g => s.bankInstr gid g o (.bupd v)
def execBred (v : BredOp) (o : Bnk) (s : State) : Out := s.withGroup fun gid g => s.bankInstr gid g o (.bred v)
def execVtopk (o : Bnk) (s : State) : Out := s.withGroup fun gid g => s.bankInstr gid g o .vtopk
def execVsmax (o : Bnk) (s : State) : Out := s.withGroup fun gid g => s.bankInstr gid g o .vsmax
def execVsamp (o : Bnk) (s : State) : Out := s.withGroup fun gid g => s.bankInstr gid g o .vsamp

/-- BWAIT (R262). -/
def execBwait (o : Bnk) (s : State) : Out :=
  s.withGroup fun gid g =>
    let cid := gidCid gid
    match g.waitStage with
    | 0 => s.uniform gid g o.hdr (bopUse o.b 1) [] fun g' =>
      let t := (g.bopWord gid o.b).toNat
      if t / 2 ^ 24 != cidSite cid || bits t 23 16 != 0 then s.trapHere gid g 0x05 0 else s.waitAt gid ((g'.keep (t % 65536)).drainNow []) 1
    | _ =>
      let seq := g.kept
      let busy := s.work.any fun w =>
        match w.job with
        | .bank b => b.core == cid && b.seq == seq
        | .bankDone b _ _ _ => b.core == cid && b.seq == seq
        | _ => false
      if busy then s
      else
        let (w, far) := tgetD (s.core cid).tickets seq (0, false)
        let s := if o.q.ord == .acq then s.acquireBy gid o.q.scope w far else s
        match s.group gid with
        | some g => s.endWait gid g o.hdr
        | none => s

/-! What the banks compute. -/

def fOp (r : Nat × Flags) : Word × Flags := (BitVec.ofNat 32 r.1, r.2)

/-- One element of BUPD (R257). -/
def bupdElem (op : BupdOp) (x b c : Word) : Word × Flags :=
  match op with
  | .iadd => (x + b, 0)
  | .fadd => laneFadd .f32 .rne Dst.zero x b
  | .fmin => laneFminmax .f32 false Dst.zero x b
  | .fmax => laneFminmax .f32 true Dst.zero x b
  | .ffma => laneFfma .f32 Dst.zero x b c
  | .mov => (b, 0)
  | .and => (x &&& b, 0)
  | .or => (x ||| b, 0)

/-- BUPD over its elements in order, Y in X seen as updated (R257). -/
def bupdAll (op : BupdOp) (c : Word) (xs : List Word) (bs : List (Word ⊕ Nat)) : List Word × Flags :=
  (xs.zip bs).foldl (fun (acc : List Word × Flags) (x, b) =>
    let bv := match b with
      | .inl w => w
      | .inr i => acc.1.getD i 0
    let r := bupdElem op x bv c
    (acc.1 ++ [r.1], acc.2 ||| r.2)) ([], 0)

def bredOp (op : BredOp) (a b : Word) : Word × Flags :=
  match op with
  | .iadd => (a + b, 0)
  | .fadd => laneFadd .f32 .rne Dst.zero a b
  | .fmax => laneFminmax .f32 true Dst.zero a b
  | .fmin => laneFminmax .f32 false Dst.zero a b
  | .imaxS => (laneImax .s32 a b, 0)
  | .iminS => (laneImin .s32 a b, 0)

def bredEmpty : BredOp → Word
  | .iadd => 0
  | .fadd => 0
  | .fmax => 0xFF800000
  | .fmin => 0x7F800000
  | .imaxS => 0x80000000
  | .iminS => 0x7FFFFFFF

/-- Fold a list that starts with its first element. -/
def foldFirst (op : BredOp) : List Word → Option (Word × Flags)
  | [] => none
  | x :: xs => some (xs.foldl (fun (a : Word × Flags) y =>
      let r := bredOp op a.1 y
      (r.1, a.2 ||| r.2)) (x, 0))

/-- The reduction of words at a physical address: by bank, then over the banks (R258). -/
def bredAll (op : BredOp) (pa : Nat) (xs : List Word) : Word × Flags :=
  let parts := (List.range 64).filterMap fun b =>
    foldFirst op (((xs.zipIdx).filter fun (_, i) => lineBank ((pa + 4 * i) / 64) == b).map (·.1))
  match foldFirst op (parts.map (·.1)) with
  | some (v, fl) => (v, parts.foldl (fun a p => a ||| p.2) fl)
  | none => (bredEmpty op, 0)

/-- Whether element a ranks before b in VTOPK's order (R259). -/
def ranksBefore (a b : Word × Nat) : Bool :=
  let x := f32 a.1
  let y := f32 b.1
  if x.isNan then y.isNan && decide (a.2 < b.2)
  else if y.isNan then true
  else fLt y x || (!fLt x y && decide (a.2 < b.2))

def insertRank (a : Word × Nat) : List (Word × Nat) → List (Word × Nat)
  | [] => [a]
  | b :: l => if ranksBefore a b then a :: b :: l else b :: insertRank a l

/-- VTOPK's list: k pairs (R259). -/
def topkAll (k : Nat) (xs : List Word) : List Word :=
  let best := (xs.zipIdx).foldl (fun l x => (insertRank x l).take k) []
  (List.range k).flatMap fun j =>
    match best[j]? with
    | some (v, i) => [if (f32 v).isNan then 0x7FC00000 else v, wordOf i]
    | none => [0x7FC00000, 0xFFFFFFFF]

/-- log2(e) to 2^-252, cut (log 18). -/
def log2e : Nat := 10440792057303024265186601660077970749204792664570690634427900171533516285512

/-- F32(log2(e) / T) for positive T = m 2^e, rounded to nearest: no tie can arise (R260). -/
def log2eOver (t : FVal) : Nat × Flags :=
  match t with
  | .fin _ m e => roundF fmtF32 .rne false true (log2e / m) (-252 - e)
  | _ => (fmtF32.nan, 0)

def isInfNan (w : Word) : Bool := (f32 w).isNan || (f32 w).isInf

/-- VSMAX (R260): the y_i, the aux, flags. Pass 3 divides each y_i as pass 2 computed it, whether or not the line at Y is poisoned (log 84). -/
def smaxAll (t : Word) (pa : Nat) (xs : List Word) : List Word × (Word × Word) × Flags :=
  let tv := f32 t
  if tv.isNan || tv.isInf || tv.isZero || tv.sgn || xs.any isInfNan then (xs.map fun _ => 0x7FC00000, (0x7FC00000, 0x7FC00000), flInv)
  else
    match xs with
    | [] => ([], (0xFF800000, 0), 0)
    | x0 :: rest =>
      let m := rest.foldl (fun a x => (laneFminmax .f32 true Dst.zero a x).1) x0
      let (c, fc) := log2eOver tv
      let es := xs.map fun x =>
        let (a, f1) := fOp (encodeF fmtF32 .rne (exMul (exAdd .rne (f32 x) (f32 m).neg) (decodeF fmtF32 c)))
        let (y, f2) := laneExp2 Dst.zero a
        (y, f1 ||| f2)
      let ys := es.map (·.1)
      let (sum, fs) := bredAll .fadd pa ys
      let outs := ys.map fun y => laneFdiv .rne Dst.zero y sum
      (outs.map (·.1), (m, sum), fc ||| fs ||| es.foldl (fun a e => a ||| e.2) 0 ||| outs.foldl (fun a e => a ||| e.2) 0)

/-- VSAMP over values and indexes (R261). -/
def sampAll (u : Word) (vs : List (Word × Word)) : (Word × Word) × Flags :=
  let none' := ((0xFFFFFFFF, 0xFFFFFFFF) : Word × Word)
  let uv := f32 u
  let badU := uv.isNan || fLt uv .zero || !fLt uv .one
  let badV := vs.any fun (v, _) => isInfNan v || fLt (f32 v) .zero
  if badU || badV then (none', flInv)
  else
    match vs with
    | [] => (none', flInv)
    | (v0, _) :: rest =>
      let sums := rest.foldl (fun (acc : List Word × Flags) (v, _) =>
        let r := laneFadd .f32 .rne Dst.zero (acc.1.getLast?.getD 0) v
        (acc.1 ++ [r.1], acc.2 ||| r.2)) ([v0], 0)
      let last := sums.1.getLast?.getD 0
      if (f32 last).isZero then (none', sums.2 ||| flInv)
      else
        let (t, ft) := laneFmul .f32 .rne Dst.zero u last
        let j := (sums.1.findIdx? fun x => fLt (f32 t) (f32 x)).getD (vs.length - 1)
        ((wordOf j, (vs.getD j (0, 0)).2), sums.2 ||| ft)

/-! The banks at work. -/

/-- Words as a byte mask of line l. -/
def wordsMask (l : Nat) (ws : List (Nat × Word)) : ByteMask :=
  (ws.filter fun (a, _) => a / 64 == l).foldl (fun m (a, w) => overMask m (byteMask (a % 64) (leBytes 4 w.toNat))) []

/-- Where an operation writes a line: its own domain's slice, or the bank of a DSM line (R311). -/
def BankReq.sliceOf (b : BankReq) (line : Nat) : Nat := if lineIsDsm line then lineHome line else b.dom

/-- Lines of the n bytes at pa. -/
def linesOf (pa n : Nat) : List Nat := if n = 0 then [] else (List.range ((pa + n - 1) / 64 - pa / 64 + 1)).map (pa / 64 + ·)

/-- Bytes of X, and of the list or second range at Y. -/
def BankReq.xBytes (b : BankReq) : Nat := if b.kind == .vsamp then 8 * b.n else 4 * b.n
def BankReq.yBytes (b : BankReq) : Nat :=
  match b.kind with
  | .bupd v => if v.vec then 4 * b.n else 0
  | .bred _ => 4
  | .vtopk => 8 * b.p1.toNat
  | .vsmax => 4 * b.n
  | .vsamp => 8

/-- Lines that an operation writes. -/
def BankReq.written (b : BankReq) : List Nat :=
  let y := linesOf b.y b.yBytes
  match b.kind with
  | .bupd _ => linesOf b.x b.xBytes
  | .vsmax => uniqueNats (y ++ if b.aux = 0 then [] else [b.aux / 64, b.aux2 / 64])
  | _ => y

/-- The line still lacks the permission that an operation's domain writes it under, or, homed there, the loss of every other copy (R252, R311). -/
def State.bankLacks (s : State) (b : BankReq) (line : Nat) : Bool := !lineIsDsm line && !s.canWrite b.dom line

/-- Whether the write of a line has to wait: for acknowledgements due to its home bank, for a wrap, for an SC atomic that has begun on it. -/
def State.bankWaits (s : State) (b : BankReq) (line : Nat) : Bool :=
  let d := b.sliceOf line
  s.slicesHeld d || s.lineLocked 0 line || (lineHome line == d && s.homeAcks line) ||
    (if s.bankLacks b line then !s.canAsk d line else s.stampHeld d line none)

/-- Words are written: those of DRAM in the slice of the domain at work, which has permission, others at their banks (R195, R311): the state, the
greatest stamp in the core's own domain, any write outside it. -/
def State.bankPut (s : State) (b : BankReq) (ws : List (Nat × Word)) : State × Nat × Bool :=
  (uniqueNats (ws.map fun (a, _) => a / 64)).foldl (fun (acc : State × Nat × Bool) l =>
    let (s, w, far) := acc
    let d := b.sliceOf l
    let m := wordsMask l ws
    let old := ((s.sline d l).map (·.data)).getD zeroLine
    let s := (((s.fencedAbroad b.gid b.core d).bankWrite d l m none).noteWriter d l b.core b.asid).watchBank b.asid b.gid l old (patchMask old m)
    let stamp := ((s.sline d l).map (·.wts)).getD 0
    if d == cidDom b.core then (s, max w stamp, far) else (s, w, true)) (s, 0, false)

def wordsFrom (pa : Nat) (ws : List Word) : List (Nat × Word) := ws.mapIdx fun i w => (pa + 4 * i, w)

/-- What an operation writes, with its flags (R257-R261). VTOPK with k = 0 writes nothing and, reading nothing of X for it, sets no flag (R259: log 92). -/
def State.bankCompute (s : State) (b : BankReq) : List (Nat × Word) × Flags :=
  let (xs, px) := s.bankWords b.x (if b.kind == .vsamp then 2 * b.n else b.n)
  match b.kind with
  | .bupd v =>
    let (ys, py) := if v.vec then s.bankWords b.y b.n else ([], false)
    let bs : List (Word ⊕ Nat) := (List.range b.n).map fun e =>
      if !v.vec then .inl b.p1
      else
        let a := b.y + 4 * e
        if b.x ≤ a ∧ a < b.x + 4 * e ∧ (s.bankWords a 1).2 = false then .inr ((a - b.x) / 4) else .inl (ys.getD e 0)
    let (out, fl) := bupdAll v.op b.p2 xs bs
    (wordsFrom b.x out, fl ||| flagIf (px || py) flPsn)
  | .bred op =>
    let (v, fl) := bredAll op b.x xs
    ([(b.y, v)], fl ||| flagIf px flPsn)
  | .vtopk => if b.p1 = 0 then ([], 0) else (wordsFrom b.y (topkAll b.p1.toNat xs), flagIf px flPsn)
  | .vsmax =>
    let (ys, aux, fl) := smaxAll b.p1 b.x xs
    (wordsFrom b.y ys ++ (if b.aux = 0 then [] else [(b.aux, aux.1), (b.aux2, aux.2)]), fl ||| flagIf px flPsn)
  | .vsamp =>
    let pairs := (List.range b.n).map fun j => (xs.getD (2 * j) 0, xs.getD (2 * j + 1) 0)
    let (r, fl) := sampAll b.p1 pairs
    ([(b.y, r.1), (b.y + 4, r.2)], fl ||| flagIf px flPsn)

/-- What a racing write leaves of VSMAX: free words and flags, at the same places (R260, log 17). -/
def State.raceWords (s : State) (ws : List (Nat × Word)) : List (Nat × Word) × Flags :=
  (ws.mapIdx fun i (a, _) => (a, Config.freeWord (s.freeUsed + 1 + i)), (Config.freeWord s.freeUsed).extractLsb' 0 7)

/-- Clocks of a result's own path, from the bank that produces it to its home bank and back (R264); what the loss of another slice's copy takes
has passed before. -/
def BankReq.resultPath (b : BankReq) (from' to' : Nat) : Nat :=
  2 * transit b.dom (bankSite (lineBank (from' / 64))) (lineHome (to' / 64)) (bankSite (lineBank (to' / 64))) + 4

/-- The longest of the paths of result words i < n. -/
def BankReq.pathsOf (b : BankReq) (n : Nat) (from' to' : Nat → Nat) : Nat :=
  (List.range n).foldl (fun m i => max m (b.resultPath (from' i) (to' i))) 0

/-- The duration after the operation reaches its banks (R264). -/
def State.bankTime (s : State) (b : BankReq) : Nat :=
  let lb := bankLb b.x b.xBytes
  let f := s.pathLatency b.core (b.x / 64) .any
  let list := b.pathsOf (b.yBytes / 4) (fun _ => b.x) fun i => b.y + 4 * i
  match b.kind with
  | .bupd v => f + (if v.vec then 2 * lb else lb)
  | .bred _ => f + lb + 64 + list
  | .vtopk => f + lb + 8 * b.p1.toNat + 64 + list
  | .vsmax =>
    let ys := b.pathsOf b.n (fun i => b.x + 4 * i) fun i => b.y + 4 * i
    f + 3 * lb + 160 + max ys (if b.aux = 0 then 0 else max (b.resultPath b.x b.aux) (b.resultPath b.x b.aux2))
  | .vsamp => f + 2 * ((b.n + 7) / 8) + 16 + list

/-- Whether an operation can move on or be performed: its release; then earlier operations of its core in the domain (R263), and what each line
that it writes waits for. -/
def State.bankReady (s : State) (w : Work) : Bool :=
  match w.job with
  | .bank b =>
    match b.rel with
    | some r => s.relCan b.gid b.core (some w.id) r
    | none =>
      !(s.jobBefore w.id fun j => match j with
        | .bank c => c.core == b.core && c.dom == b.dom
        | _ => false) &&
        !s.slicesHeld b.dom && b.written.all fun l => !s.bankWaits b l
  | _ => false

/-- How many lines an operation is counted with: each line of its ranges, and each DSM line that it writes in another domain; a DRAM line that comes
from another domain is counted as it is asked for (R354). -/
def BankReq.lines (b : BankReq) : Nat :=
  let all := uniqueNats (linesOf b.x b.xBytes ++ linesOf b.y b.yBytes ++ b.written)
  all.length + (b.written.filter fun l => lineIsDsm l && lineHome l != b.dom).length

/-- The domains in which operations have written, remembered for PFENCE and for the node's completion (R284, R306, R313). -/
def BankReq.noted (b : BankReq) (l : List Nat) : List Nat := uniqueNats (l ++ b.dom :: b.written.map b.sliceOf)

/-- The lines that an operation reads, each counted where it is poisoned (R376); VTOPK with k = 0 reads none (log 92). -/
def State.bankPoison (s : State) (b : BankReq) : State :=
  let y := match b.kind with
    | .bupd _ => linesOf b.y b.yBytes
    | _ => []
  (uniqueNats (if b.kind == .vtopk && b.p1 == 0 then [] else linesOf b.x b.xBytes ++ y)).foldl (fun s l =>
    match s.sline (lineHome l) l with
    | some x => s.countPoison b.core x.img
    | none => s) s

/-- The words of an operation, those of one that a write of another agent has met free ones, less what later operations have written (R260, R263). -/
def State.bankWordsOf (s : State) (b : BankReq) : List (Nat × Word) × Flags :=
  let (ws, fl) := s.bankCompute b
  let (ws, fl) := if b.raced then s.raceWords ws else (ws, fl)
  (ws.filter fun (a, _) => !b.later.contains a, fl)

/-- The words are written (R257-R263). What a rewrite repeats takes only the path of its results, and is not counted again. -/
def State.bankPerform (s : State) (id : Nat) (b : BankReq) (again : Bool) : State :=
  let before := s
  let b := { b with raced := b.kind == .vsmax && (b.raced || s.bankSnap b != b.snap) }
  let (ws, fl) := s.bankWordsOf b
  let time := (if again then b.resultPath b.x b.y else s.bankTime b) + 4 +
    transit b.dom (bankSite (lineBank (b.x / 64))) (cidDom b.core) (siteRouter (cidSite b.core))
  let s := if b.raced then { s with freeUsed := s.freeUsed + b.n + 3 } else s
  let s := (s.modGroup b.gid fun g => { g with bankAt := b.noted g.bankAt }).modNode b.nid fun n => { n with banks := b.noted n.banks }
  let (s, owe) := if again then (s, 0) else (s.bankPoison b).chargeSome b.core b.asid b.lines
  let (s, w, far) := s.bankPut b ws
  let s := s.inflMod b.core id fun e => some { e with state := 1, remain := min owe e.lines }
  let b := { b with gave := (max b.gave.1 w, b.gave.2 || far), owe := owe }
  let mine := fun (c : BankReq) => c.core == b.core && c.dom == b.dom
  let writes := ws.map (·.1)
  let wrote := fun (c : BankReq) =>
    if c.seq == b.seq then c else { c with later := c.later ++ writes.filter fun a => !c.later.contains a && c.written.contains (a / 64) }
  State.bankResnap before (s.setWork id time (.bankDone b fl b.gave.2 b.gave.1)) mine wrote

/-- BANK_OPERATION (R257-R263): the release, after which VSMAX's operands stand as they are; permission for the result's lines; the wrap that a
stamp past 0xFFFF needs; then the words. -/
def State.bankRun (s : State) (id : Nat) (b : BankReq) : State :=
  match b.rel with
  | some r =>
    let (s, r') := s.relMove b.gid b.core (some id) (some id) r
    let s := if r'.isNone then s.releaseAbroad b.core b.dom b.scope else s
    if r'.isNone then s.enter id b.core b.asid b.way (.bank { b with rel := none }) else s.setWork id 0 (.bank { b with rel := r' })
  | none =>
    match b.written.find? (s.bankLacks b), b.written.find? fun l => s.stampPast (b.sliceOf l) l none && !(s.dom (b.sliceOf l)).wrapping with
    | some l, _ => (s.charge b.core b.asid (s.crossing b.dom l false)).askOwn b.dom l
    | none, some l => s.startWrap (b.sliceOf l)
    | none, none => s.bankPerform id b (b.raced && b.gave != (0, false))

def execBankOperation (id : Nat) (s : State) : Out :=
  s.serve id State.bankReady fun w =>
    match w.job with
    | .bank b => s.bankRun id b
    | _ => s

/-- Whether every write of a bank operation is performed at its scope (R263). -/
def State.bankPerformed (s : State) (w : Work) : Bool :=
  match w.job with
  | .bankDone b _ _ _ => b.owe == 0 && (scopeNum b.scope < 2 || s.acksDone b.dom)
  | _ => false

/-- BANK_TICKET_COMPLETE (R263): the ticket completes with its flags. Where a write of another agent has met VSMAX since, the operation goes to its
banks once more and leaves free values, with permission, stamps and acknowledgements as for any write (R252, R260, R262). -/
def execBankTicketComplete (id : Nat) (s : State) : Out :=
  s.serve id State.bankPerformed fun w =>
    match w.job with
    | .bankDone b fl far wts =>
      if b.kind == .vsmax && !b.raced && s.bankSnap b != b.snap then s.setWork id 0 (.bank { b with raced := true })
      else
      let s := (s.delWork id).inflFree b.core id
      let s := s.modCore b.core fun c => { c with tickets := tput c.tickets b.seq (wts, far) }
      match s.group b.gid with
      | none => s
      | some g =>
        if g.team != b.team then s
        else
          let s := if fl &&& ~~~flPsn = 0 then s else s.raiseFlags b.gid (fl &&& ~~~flPsn)
          let s := if fl &&& flPsn = 0 then s else s.poisonFor b.gid b.asid 0
          s.wake b.gid
    | _ => s

end Sys2Proof.Machine
end

