-- ==== Sys2Proof/Machine/Walk.lean ====
section
/-! DEFINITION. The walker's steps and its fault records, REPLAY, and the invalidation of translations (R151, R152, R270-R273, R316). -/

namespace Sys2Proof.Machine

/-! Walks. -/

/-- Whether a walk can end: it does not wait for a place at the walker (R272). -/
def State.walkReady (_ : State) (w : Work) : Bool :=
  match w.job with
  | .walk x => x.place != .waiting
  | _ => false

/-- What an access sees of a page: a page with a fault outstanding parks every access to it (R271). -/
def State.lookPage (s : State) (w : WalkReq) : State × Xlat :=
  if s.faulting w.dom w.asid w.page then (s, .absent) else s.translate w.core w.asid w.page w.kind w.priv

/-- The outcome reaches the instruction that asked (R151), or the fetch: a fetch that is denied takes its trap, and one
whose page is absent stays parked. -/
def State.walkTell (s : State) (id gid : Nat) (w : WalkReq) (x : Xlat) : State :=
  match s.group gid with
  | none => s
  | some g =>
    match g.park with
    | .fetch k =>
      if k != id then s
      else
        match x with
        | .fault code =>
          (s.putGroup gid { g with park := .running }).takeTrap gid { code := code, arg := 0, resume := g.pc.toNat }
        | .absent => s.putGroup gid { g with park := .fetch 0 }
        | .ok _ _ _ _ => s.putGroup gid { g with park := .running }
    | _ =>
      let told := fun (a : Access) => if a.walks.contains id then { a with walks := a.walks.filter (· != id), xl := tput a.xl w.page x } else a
      s.putGroup gid { g with acc := g.acc.map told }

/-- The copies that meet a condition go on with the pieces set aside for a page (R204). -/
def State.resumeWhere (s : State) (p : CopyReq → Bool) (asid page : Nat) : State :=
  s.work.foldl (fun s w =>
    match w.job with
    | .copy c =>
      if p c && c.asid == asid && c.aside.any (fun x => pageOf x.1 == page || pageOf x.2.1 == page) then s.addNow (.copyResume w.id asid page) else s
    | _ => s) s

/-- PAGE_WALK (R270-R272): the outcome reaches who asked; a copy takes up the pieces of the page, unless a fault keeps it. -/
def execPageWalk (id : Nat) (s : State) : Out :=
  s.serve id State.walkReady fun i =>
    match i.job with
    | .walk w =>
      let (s, x) := (if w.place == .held then (s.delWork id).nextWalk w.dom else s.delWork id).lookPage w
      let s := match x with
        | .absent => if w.quiet then s else s.pageFault w.dom w.core w.asid w.page w.kind w.path
        | _ => s
      match w.gid with
      | some gid => s.walkTell id gid w x
      | none => if s.faulting w.dom w.asid w.page then s else s.resumeWhere (fun c => c.core == w.core) w.asid w.page
    | _ => s

/-! Release of pages. -/

/-- Copies of the domain with pieces set aside for the page go on (R204). -/
def State.resumeCopies (s : State) (d asid page : Nat) : State := s.resumeWhere (fun c => cidDom c.core == d) asid page

/-- The fault is over: accesses to its page translate again. -/
def State.endFault (s : State) (d : Nat) (f : PageFault) : State :=
  (s.modDom d fun x => { x with faults := x.faults.filter fun y => y.token != f.token }).resumeCopies d f.asid f.page

/-- Change the fault with this token. -/
def markFault (token : Nat) (f : PageFault → PageFault) (x : Dom) : Dom := { x with faults := x.faults.map fun y => if y.token == token then f y else y }

/-- REPLAY (R271): a token that names no outstanding fault of the domain has no effect; a record still held keeps its page parked. -/
def execReplay (d : Nat) (token : BitVec 64) (s : State) : Out :=
  .next (match (s.dom d).faults.find? fun f => f.token == token.toNat with
    | none => s
    | some f =>
      if f.appended then s.endFault d f
      else s.modDom d (markFault f.token fun y => { y with released := true }))

/-- The first held record of each context: the one to append next. -/
def State.heldRecords (s : State) (d : Nat) : List PageFault :=
  (s.dom d).faults.foldl (fun l f => if f.appended || l.any (fun y => y.asid == f.asid) then l else l ++ [f]) []

/-- Whether the fault ring of a context has room (R271). -/
def State.ringRoom (s : State) (asid : Nat) : Bool :=
  match s.ctx asid with
  | some c => decide ((c.fqtail + 2 ^ 32 - c.fqhead) % 2 ^ 32 ≤ c.fqmask)
  | none => false

/-- Whether the record is the context's oldest held one, in whichever domain: records are appended in the order the faults arose (R271). -/
def State.recordFirst (s : State) (f : PageFault) : Bool :=
  s.doms.all fun (_, x) => x.faults.all fun y => y.asid != f.asid || y.appended || decide (f.order ≤ y.order)

/-- The record that a domain can append now. -/
def State.recordNext (s : State) (d : Nat) : Option PageFault := (s.heldRecords d).find? fun f => s.ringRoom f.asid && s.recordFirst f

/-- HELD_FAULT_RECORD_APPEND (R271). -/
def execHeldFaultRecordAppend (d : Nat) (s : State) : Out :=
  .next (match s.recordNext d with
    | none => s
    | some f =>
      let (s, ok) := s.appendFault d f.asid f.record
      if !ok then s
      else if f.released then s.endFault d f
      else s.modDom d (markFault f.token fun y => { y with appended := true }))

/-! Invalidation. -/

def TlbInv.covers (t : TlbInv) (asid page : Nat) : Bool :=
  (match t.asid with
    | some a => a == asid
    | none => true) &&
    match t.pages with
    | some n => decide (t.first ≤ page) && decide (page < t.first + n)
    | none => true

/-- Whether the invalidation reaches some page of a run of n pages. -/
def TlbInv.meets (t : TlbInv) (asid first n : Nat) : Bool :=
  (match t.asid with
    | some a => a == asid
    | none => true) &&
    match t.pages with
    | some k => decide (t.first < first + n) && decide (first < t.first + k)
    | none => true

def TlbInv.hits (t : TlbInv) (e : TlbEnt) : Bool := t.meets e.asid e.vpn e.pages

/-- Drop every entry of the range in every TLB and walk cache, and what accesses have kept of them. -/
def State.dropRange (s : State) (t : TlbInv) : State :=
  let core := fun (c : Core) => { c with tlb := c.tlb.filter fun e => !t.hits e }
  let dom := fun (x : Dom) =>
    { x with
      tlb2 := x.tlb2.filter fun e => !t.hits e
      wcache := x.wcache.filter fun (a, l, p, _) => !t.meets a (p * 512 ^ (l - 1)) (512 ^ (l - 1)) }
  let group := fun (g : Group) => { g with acc := g.acc.map fun a => { a with xl := a.xl.filter fun (p, _) => !t.covers (s.asidOf g) p } }
  { s with
    cores := s.cores.map fun (k, c) => (k, core c)
    doms := s.doms.map fun (k, x) => (k, dom x)
    groups := s.groups.map fun (k, g) => (k, group g) }

/-- Whether a read-only page that the domain has used, and the range covers, has this line. -/
def TlbInv.shows (t : TlbInv) (seen : List TlbEnt) (line : Nat) : Bool :=
  seen.any fun e =>
    let page := line / 64
    decide (e.pa / 4096 ≤ page) && decide (page < e.pa / 4096 + e.pages) && t.covers e.asid (e.vpn + (page - e.pa / 4096))

/-- Drop the R copies of the range in every slice (R316): of every page that the domain has used as read-only and that the range covers, then or now
(log 98). -/
def State.dropR (s : State) (t : TlbInv) : State :=
  { s with lines := s.lines.filter fun (k, x) => !(x.st == SState.r && t.shows (s.dom (k / 2 ^ 42)).roSeen (k % 2 ^ 42)) }

/-- Whether accesses of a context are concerned. -/
def TlbInv.mine (t : TlbInv) (asid : Nat) : Bool :=
  match t.asid with
  | some a => a == asid
  | none => true

/-- Whether an item is an access of the contexts concerned that has been translated and is not performed: of a copy, words on their way to a
global place. What is on its way to become an R copy is awaited whosever it is (R316). -/
def TlbInv.waits (t : TlbInv) (j : Job) : Bool :=
  let mine := t.mine
  match j with
  | .read r => mine r.asid
  | .write r => mine r.asid && r.kind != .writeBack
  | .wack r _ _ => mine r.asid && r.kind != .writeBack
  | .fill _ _ a _ _ => mine a
  | .atomic a => mine a.asid
  | .bank b => mine b.asid
  | .copy c => mine c.asid && !c.toLocal && !c.moved.isEmpty
  | .readShared _ _ ro => ro
  | .forward _ _ _ _ ro => ro
  | .sliceFill _ _ _ st => st == .r
  | _ => false

/-- An invalidation begins: GO. -/
def State.startInv (s : State) (t : TlbInv) : State := (s.dropRange t).addWork 0 (.tlbInv t)

/-- TLBCMD while an invalidation that it started goes on: GO reads zero, DONE is clear (log 42). -/
def tlbcmdWord (page asid mode pages : Nat) : BitVec 128 :=
  BitVec.ofNat 128 (page % 2 ^ 36 * 2 ^ 92 + asid % 2 ^ 16 * 2 ^ 76 + mode * 2 ^ 62 + pages % 2 ^ 30 * 4)

def execTlbcmdRange (asid page pages : Nat) (s : State) : Out :=
  .next ((s.putWafer { s.wafer with tlbcmd := tlbcmdWord page asid 0 pages }).startInv ⟨some asid, page, some pages, none⟩)
def execTlbcmdAsid (asid : Nat) (s : State) : Out :=
  .next ((s.putWafer { s.wafer with tlbcmd := tlbcmdWord 0 asid 1 0 }).startInv ⟨some asid, 0, none, none⟩)
def execTlbcmdAll (s : State) : Out :=
  .next ((s.putWafer { s.wafer with tlbcmd := tlbcmdWord 0 0 2 0 }).startInv ⟨none, 0, none, none⟩)
def execCtlbRange (asid page pages : Nat) (s : State) : Out :=
  .next ((s.modCtx asid fun c => { c with ctlb := tlbcmdWord page asid 0 pages }).startInv ⟨some asid, page, some pages, some asid⟩)
def execCtlbAsid (asid : Nat) (s : State) : Out :=
  .next ((s.modCtx asid fun c => { c with ctlb := tlbcmdWord 0 asid 1 0 }).startInv ⟨some asid, 0, none, some asid⟩)

/-- Whether the accesses in flight when an invalidation began are performed, writes posted to the host and to peers among them. -/
def State.invReady (s : State) (w : Work) : Bool :=
  match w.job with
  | .tlbInv t => !s.jobBefore w.id t.waits && !s.posted.any fun p => t.mine p.asid && decide (p.id < w.id)
  | _ => false

/-- TLBCMD_DONE (R273, R316). -/
def execTlbcmdDone (id : Nat) (s : State) : Out :=
  s.serve id State.invReady fun w =>
    match w.job with
    | .tlbInv t =>
      let s := ((s.delWork id).dropRange t).dropR t
      -- DONE stands for every invalidation that the register has started
      let more := s.anyJob fun j =>
        match j with
        | .tlbInv u => u.ctlb == t.ctlb
        | _ => false
      if more then s
      else
        match t.ctlb with
        | some a => s.modCtx a fun c => { c with ctlb := c.ctlb ||| 2 }
        | none => s.putWafer { s.wafer with tlbcmd := s.wafer.tlbcmd ||| 2 }
    | _ => s

end Sys2Proof.Machine
end

