-- ==== Sys2Proof/Machine/Spine.lean ====
section
/-! DEFINITION. Domain control instructions, opcodes 0xE0-0xE4, graphs and their dependences, records and their queues (R280-R293). -/

namespace Sys2Proof.Machine

/-! Bytes that a descriptor or a queue has at virtual addresses. -/

/-- Frames of the pages of a range, the pages that are absent, the walks asked for, and the first page that is denied, with its address. -/
structure Places where
  frames : Tbl Nat := []
  absent : List Nat := []
  walks : List Nat := []
  bad : Option (Nat × Nat) := none
  deriving DecidableEq, Repr

def rangeOf (va n : Nat) : List Nat := (List.range ((va + max n 1 - 1) / 4096 - va / 4096 + 1)).map (va / 4096 + ·)

/-- A page of a range in its place. -/
def Places.add (q : Places) (va p : Nat) (x : CopyPlace) : Places :=
  match x with
  | .at pa _ => { q with frames := tput q.frames p pa }
  | .absent => { q with absent := q.absent ++ [p] }
  | .walking => q
  | .bad code => { q with bad := q.bad.orElse fun _ => some (code, max va (4096 * p)) }

/-- Translate every page of a range for the hardware itself, at once (log 87). -/
def State.placesOf (s : State) (e : Engine) (k : AccKind) (va n : Nat) : State × Places :=
  (rangeOf va n).foldl (fun (acc : State × Places) p =>
    let (s, x) := acc.1.placeOf e (4096 * p) k false true
    (s, acc.2.add va p x)) (s, {})

/-- Translate every page of a range for an instruction of the group, which has learnt xl so far: a page that is not known costs a walk (R151). -/
def State.placesFor (s : State) (gid : Nat) (e : Engine) (xl : Tbl Xlat) (k : AccKind) (va n : Nat) : State × Places :=
  (rangeOf va n).foldl (fun (acc : State × Places) p =>
    let (s, q) := acc
    let put := fun (x : CopyPlace) => (s, q.add va p x)
    if p ≥ 2 ^ 36 then put (.bad 0x05)
    else if s.faulting (cidDom e.core) e.asid p then put .absent
    else
      match (tget xl p).orElse fun _ => s.tlbHit e.core e.asid p k e.priv with
      | some (.ok pa w _ _) => put (s.copyTarget false (!w) pa)
      | some (.fault code) => put (.bad code)
      | some .absent => put .absent
      | none =>
        let (s, id) := s.askWalk { dom := cidDom e.core, core := e.core, asid := e.asid, page := p, kind := k, path := e.path, priv := e.priv, gid := some gid, quiet := false }
        (s, { q with walks := q.walks ++ [id] })) (s, {})

def Places.pa (p : Places) (va : Nat) : Nat := tgetD p.frames (va / 4096) 0 + va % 4096

/-- The range can be used now. -/
def Places.ok (p : Places) : Bool := p.absent.isEmpty && p.walks.isEmpty

/-- The runs of a range that stay in one line. -/
def lineRuns (va n : Nat) : List (Nat × Nat) :=
  if n = 0 then []
  else (List.range ((va + n - 1) / 64 - va / 64 + 1)).map fun k =>
    let lo := max va (64 * (va / 64 + k))
    (lo, min (va + n) (64 * (va / 64 + k) + 64) - lo)

/-- Read a range at wafer scope, whole at one clock (R289): a poisoned line reads zero, with PSN (R157). -/
def State.placedRead (s : State) (d : Nat) (p : Places) (va n : Nat) : State × List Byte × Flags :=
  (lineRuns va n).foldl (fun (acc : State × List Byte × Flags) (a, k) =>
    let (s, out, fl) := acc
    let pa := p.pa a
    let (s, img) := s.scopeRead d (pa / 64) .wafer
    if poisoned img.desc then (s.countPoison (cidOf d 144) img, out ++ List.replicate k 0, fl ||| flPsn)
    else (s, out ++ slice img.data (pa % 64) k, fl)) (s, [], 0)

/-! Folios and nodes. -/

/-- A folio entry (R281); none when it is malformed. -/
def folioOf (b : List Byte) : Option Folio :=
  let v := leVal b
  let base : Int := (bits v 127 80 : Nat)
  let extent := bits v 79 56
  let pitch : Int := (BitVec.ofNat 32 (bits v 55 24)).toInt
  let rows := bits v 23 8
  let d : Int := ((rows : Int) - 1) * pitch
  if bits v 1 0 = 0 ∨ bits v 7 2 ≠ 0 ∨ rows = 0 then none
  else some { lo := base + min 0 d, hi := base + max 0 d + extent - 1, empty := extent == 0, write := decide (bits v 1 0 ≥ 2) }

/-- Whether two folios conflict (R281). -/
def Folio.conflicts (a b : Folio) : Bool := !a.empty && !b.empty && decide (a.lo ≤ b.hi) && decide (b.lo ≤ a.hi) && (a.write || b.write)

/-- A node descriptor as read (R280). -/
structure NodeSpec where
  kind : Nat
  flags : Nat
  stream : Nat
  dom : Nat
  launch : Nat
  args : Nat
  teams : Nat
  folios : List Folio
  deriving DecidableEq, Repr

/-- A node descriptor with further folios behind its own; none when malformed (R280, R290). -/
def nodeOf (b : List Byte) (extra : List Folio) : Option NodeSpec :=
  let f := fun (o n : Nat) => leVal (slice b o n)
  let kind := f 0 1
  let nfol := f 1 1
  let flags := f 2 1
  let zeros := fun (o n : Nat) => f o n == 0
  let sized := kind ≤ 2 && nfol ≤ 8 && flags < 8 && f 3 1 ≤ 15 && zeros 0x1C 36 && (nfol > 8 || zeros (0x40 + 16 * nfol) (0xC0 - 16 * nfol))
  let fields := (kind == 1 || zeros 4 4) && (kind != 2 || zeros 8 8) && (if kind == 0 then decide (1 ≤ f 0x18 4) && decide (f 0x18 4 ≤ 2 ^ 24) else zeros 0x18 4)
  if !sized || !fields || nfol + extra.length > 8 then none
  else
    match (List.range nfol).mapM fun i => folioOf (slice b (0x40 + 16 * i) 16) with
    | none => none
    | some fs => some ⟨kind, flags, f 3 1, f 4 4, f 8 8, f 0x10 8, f 0x18 4, fs ++ extra⟩

/-- Node count and COLQ of a graph's header (R280). -/
def graphOf (b : List Byte) : Option (Nat × Nat) :=
  let n := leVal (slice b 0 2)
  if decide (1 ≤ n) && decide (n ≤ 4096) && leVal (slice b 2 6) == 0 && leVal (slice b 0x10 48) == 0 then some (n, leVal (slice b 8 8)) else none

/-! The spine's nodes (R282-R284). -/

/-- The spine holds the node: it is not complete, or it is MANUAL and not yet released. -/
def Node.held (n : Node) : Bool :=
  match n.st with
  | .done released => !released
  | _ => true

def Node.finished (n : Node) : Bool :=
  match n.st with
  | .done _ => true
  | _ => false

def State.nodesHeld (s : State) (p : Node → Bool) : Nat := (s.nodes.filter fun (_, n) => n.held && p n).length

/-- The first handle from h on that names no graph with nodes the spine holds (R290). -/
def State.freeHandle (s : State) (asid : Nat) : Nat → Nat → Nat
  | 0, h => h % 65536
  | fuel + 1, h =>
    if s.nodes.any fun (_, n) => n.held && n.asid == asid && n.graph == h % 65536 then s.freeHandle asid fuel (h + 1) else h % 65536

/-- Enter one node with its dependences on unfinished nodes of its stream (R282). -/
def State.enterNode (s : State) (asid h idx colq d : Nat) (x : NodeSpec) : State :=
  let fence := x.flags.testBit 2
  let deps := (s.nodes.filter fun (_, p) =>
    !p.finished && p.asid == asid && p.stream == x.stream && (fence || x.folios.any fun f => p.folios.any f.conflicts)).map (·.1)
  let n : Node :=
    { asid := asid, graph := h, index := idx, kind := x.kind, stream := x.stream, folios := x.folios, manual := x.flags.testBit 0, quiet := x.flags.testBit 1,
      fence := fence, dcc := x.dom, launchVa := x.launch, launch := none, args := x.args, teams := if x.kind == 1 then 1 else x.teams, colq := colq, deps := deps,
      st := .waiting, retired := 0, nrel := false, started := 0, status := 0, origin := d, place := d, depended := !deps.isEmpty, cores := [] }
  { s with nodes := tput s.nodes (nidOf asid h idx) n }

def statFull : Word := 0x40000000
def statMalformed : Word := 0x80000000
def statDenied : Word := 0xC0000000

/-- Submit a graph in domain d (R290): the state and the result word. -/
def State.submit (s : State) (asid d colq : Nat) (specs : Option (List NodeSpec)) : State × Word :=
  match specs, s.ctx asid with
  | some xs, some c =>
    if xs.any fun x => x.kind == 1 && decide (x.dom > 63) then (s, statDenied)
    else if s.nodesHeld (fun _ => true) + xs.length > Config.spineNodes || s.nodesHeld (·.asid == asid) + xs.length > Config.contextNodes then (s, statFull)
    else
      let h := s.freeHandle asid 65536 c.nextHandle
      let s := s.putCtx asid { c with nextHandle := (h + 1) % 65536 }
      let s := { s with nodes := s.nodes.filter fun (_, n) => !(n.asid == asid && n.graph == h) }
      ((xs.zipIdx).foldl (fun s (x, i) => s.enterNode asid h i colq d x) s, wordOf h)
  | _, _ => (s, statMalformed)

/-- The dependents of a node are released. -/
def State.releaseNode (s : State) (nid : Nat) : State :=
  let s := s.modNode nid fun n => { n with st := .done true }
  { s with nodes := s.nodes.map fun (k, n) => (k, { n with deps := n.deps.filter (· != nid) }) }

/-! GSUB, NREL, FOLIO. -/

/-- Park for pages of a descriptor or queue, or for their walks (R151, R152, R289); kept is what the instruction has read already. -/
def State.dccPark (s : State) (gid : Nat) (g : Group) (p : Places) (kept : List Nat) : State :=
  let a : Access :=
    if p.absent.isEmpty then
      { todo := 0, ea := kept, vals := [], xl := (g.acc.map (·.xl)).getD [], walks := p.walks, parked := false, ctx := g.acc.bind (·.ctx) }
    else { todo := 0, ea := kept, vals := [], xl := [], walks := [], parked := true, pages := p.absent, ctx := g.acc.bind (·.ctx) }
  s.putGroup gid { g with park := .xlat, replay := if p.absent.isEmpty then g.replay else 1, acc := some a }

/-- The instruction still waits for its pages. -/
def Group.pagesWait (g : Group) : Bool :=
  match g.acc with
  | some a => a.parked || !a.walks.isEmpty
  | none => false

/-- What it has learnt of its pages. -/
def Group.learnt (g : Group) : Tbl Xlat := (g.acc.map (·.xl)).getD []

def State.dccTrap (s : State) (gid : Nat) (g : Group) (code va : Nat) : State := s.memTrap gid { g with acc := none } code 1 (List.replicate 32 va)

/-- Who reads for the group: in its own context, or in that which its instruction names. -/
def State.groupEngine (s : State) (gid : Nat) (g : Group) : Engine := ⟨gidCid gid, (g.acc.bind (·.ctx)).getD (s.asidOf g), g.priv, .ls⟩

/-- A host post popped by firmware in slot 0: the graph at INFO belongs to the context of the record's ASID (R286, R293: log 91). -/
def State.notePost (s : State) (gid : Nat) (g : Group) (ws : List Word) : Group :=
  let w := fun (i : Nat) => (ws.getD i 0).toNat
  if s.basePriv gid g && w 1 % 256 == 2 then { g with posts := g.posts ++ [(w 2 + 2 ^ 32 * w 3, w 4 % 2 ^ 16)] } else g

/-- The context in which GSUB acts: of the post that firmware submits with it, or the group's own (R290, R293). -/
def Group.postAt (g : Group) (va : Nat) : Option Nat := (g.posts.find? fun (a, _) => a == va).map (·.2)

def State.readLatency (s : State) (gid : Nat) (p : Places) (va : Nat) : Nat := s.pathLatency (gidCid gid) (p.pa va / 64) .wide

/-- The descriptor has been read in full, from va: it is submitted, a posted graph in its record's context (R290, R293). -/
def State.gsubEnd (s : State) (gid : Nat) (g : Group) (o : Ctl) (colq lat va : Nat) (fl : Flags) (specs : Option (List NodeSpec)) : State :=
  let (s, w) := s.submit (s.groupEngine gid g).asid (cidDom (gidCid gid)) colq specs
  let posts := if w == statFull then g.posts else g.posts.eraseP fun (a, _) => a == va
  s.landScalars gid { g with folios := [], acc := none, posts := posts } o.hdr o.d [w] (s.now + lat + Config.extraDelay s.uid) none fl va

/-- Read the descriptor at va (R290). -/
def State.gsubRead (s : State) (gid : Nat) (g : Group) (o : Ctl) (graph : Bool) (va : Nat) : State :=
  let d := cidDom (gidCid gid)
  let e := s.groupEngine gid g
  let size := if graph then 64 else 256
  let (s, p) := s.placesFor gid e g.learnt .read va size
  match p.bad with
  | some (code, fa) => s.dccTrap gid g code fa
  | none =>
    if !p.ok then s.dccPark gid g p [va]
    else
      let (s, b, fl) := s.placedRead d p va size
      if !graph then s.gsubEnd gid g o 0 (s.readLatency gid p va) va fl ((nodeOf b g.folios).map fun x => [x])
      else
        match graphOf b with
        | none => s.gsubEnd gid g o 0 (s.readLatency gid p va) va fl none
        | some (n, colq) =>
          let (s, p) := s.placesFor gid e g.learnt .read va (64 + 256 * n)
          match p.bad with
          | some (code, fa) => s.dccTrap gid g code fa
          | none =>
            if !p.ok then s.dccPark gid g p [va]
            else
              let (s, b, fl') := s.placedRead d p (va + 64) (256 * n)
              s.gsubEnd gid g o colq (s.readLatency gid p va) va (fl ||| fl') ((List.range n).mapM fun i => nodeOf (slice b (256 * i) 256) [])

/-- GSUB: stage 1 waits for the group's accesses, stage 2 for the release (R290). -/
def State.gsub (s : State) (gid : Nat) (g : Group) (o : Ctl) (graph : Bool) : State :=
  let cid := gidCid gid
  match g.park with
  | .xlat => if g.pagesWait then s else s.gsubRead gid g o graph g.kept
  | .wait 1 =>
    if g.landed && s.banksDone gid && s.farDone gid cid .wafer then s.waitAt gid { g with rel := some (s.relStart gid cid .wafer) } 2 else s
  | .wait _ =>
    match g.rel with
    | some r =>
      let (s, r') := s.relMove gid cid none none r
      s.waitAt gid { g with rel := r' } 2
    | none => s.gsubRead gid g o graph g.kept
  | _ => s.uniform gid g o.hdr [srcUse o.a 0 2 Perm.id] (dstUse o.d 1) fun g' =>
    let va := (g.scalarPair gid o.a).toNat
    let g' := g'.keep va
    let g' := { g' with acc := g'.acc.map fun (a : Access) => ({ a with ctx := g.postAt va } : Access) }
    s.waitAt gid (g'.drainNow []) 1

def execGsubGraph (o : Ctl) (s : State) : Out := s.withGroup fun gid g => s.gsub gid g o true
def execGsubNode (o : Ctl) (s : State) : Out := s.withGroup fun gid g => s.gsub gid g o false

/-- What NREL does (R291): the state and the status. -/
def State.nrelNode (s : State) (nid : Nat) : State × Nat :=
  match tget s.nodes nid with
  | none => (s, 3)
  | some n =>
    if !n.manual || n.nrel then (s, 2)
    else
      match n.st with
      | .done true => (s, 2)
      | .done false => ((s.modNode nid fun n => { n with nrel := true }).releaseNode nid, 0)
      | _ => (s.modNode nid fun n => { n with nrel := true }, 1)

def execNrel (o : Ctl) (s : State) : Out :=
  s.withGroup fun gid g => s.uniform gid g o.hdr [srcUse o.a 0 1 Perm.id] (dstUse o.d 1) fun g' =>
    let (s, r) := s.nrelNode (2 ^ 32 * s.asidOf g + (g.scalar gid o.a).toNat)
    s.giveScalars gid g' o.hdr o.d [wordOf r] (s.now + 1 + Config.extraDelay s.uid) none

def execFolio (o : Ctl) (s : State) : Out :=
  s.withGroup fun gid g => s.uniform gid g o.hdr [srcUse o.a 0 4 Perm.id] (dstUse o.d 1) fun g' =>
    match folioOf ((g.scalarBlock gid o.a 4).flatMap fun w => leBytes 4 w.toNat) with
    | none => s.trapHere gid g 0x05 0
    | some f =>
      if g.folios.length ≥ 8 then s.trapHere gid g 0x05 0
      else
        let g' := { g' with folios := g'.folios ++ [f] }
        s.finish gid (g'.addResult (s.cclk (gidCid gid) + latMov) (.scal o.d.reg.toNat) 1 [wordOf g'.folios.length] 0) o.hdr none

/-! EVPOP and EVWAIT (R292). -/

/-- One step on a queue: a record, the empty result, each with its latency and what poison it met; pages awaited, or a fault. -/
inductive Popped where
  | got (record : List Word) (latency : Nat) (fl : Flags)
  | empty (latency : Nat) (fl : Flags)
  | parked (p : Places)
  | bad (code va : Nat)
  deriving DecidableEq, Repr

/-- Places that must be an event queue's (R285). -/
def State.queuePlaces (s : State) (gid : Nat) (e : Engine) (xl : Tbl Xlat) (k : AccKind) (va n : Nat) : State × Places :=
  let (s, p) := s.placesFor gid e xl k va n
  if p.frames.all fun (_, pa) => s.queueMem pa then (s, p) else (s, { p with bad := p.bad.orElse fun _ => some (0x05, va) })

def State.popQueue (s : State) (gid : Nat) (g : Group) (va : Nat) : State × Popped :=
  let d := cidDom (gidCid gid)
  let e := s.groupEngine gid g
  let (s, p) := s.queuePlaces gid e g.learnt .atomic va 32
  match p.bad with
  | some (code, fa) => (s, .bad code fa)
  | none =>
    if !p.ok then (s, .parked p)
    else
      let (s, h, fl) := s.placedRead d p va 32
      let head := leVal (slice h 0x18 4)
      let rec' := leVal (slice h 0 8) + 32 * (head &&& leVal (slice h 8 4))
      let (s, q) := s.queuePlaces gid e g.learnt .read rec' 32
      match q.bad with
      | some (code, fa) => (s, .bad code fa)
      | none =>
        if !q.ok then (s, .parked q)
        else
          let (s, b, fl') := s.placedRead d q rec' 32
          let lat := max (s.readLatency gid p va) (s.readLatency gid q rec')
          if leVal (slice b 0x1C 4) = (head + 1) % 2 ^ 32 then
            let pa := p.pa (va + 0x18)
            (s.engineWriteBytes (bankDom d (pa / 64)) pa (leBytes 4 (head + 1)), .got (wordsOf b) lat (fl ||| fl'))
          else (s, .empty lat (fl ||| fl'))

def emptyRecord : List Word := List.replicate 8 0

def execEvpop (o : Ctl) (s : State) : Out :=
  s.withGroup fun gid g =>
    if g.pagesWait then s
    else s.uniform gid g o.hdr [srcUse o.a 0 2 Perm.id] (dstUse o.d 8) fun g' =>
      let va := if g.acc.isSome then g.kept else (g.scalarPair gid o.a).toNat
      let (s, r) := s.popQueue gid g va
      match r with
      | .got ws lat fl => s.landScalars gid { s.notePost gid g' ws with acc := none } o.hdr o.d ws (s.now + lat + Config.extraDelay s.uid) (some .wafer) fl va
      | .empty lat fl => s.landScalars gid { g' with acc := none } o.hdr o.d emptyRecord (s.now + lat + Config.extraDelay s.uid) none fl va
      | .parked p => s.dccPark gid g p [va]
      | .bad code fa => s.dccTrap gid g code fa

/-- EVWAIT delivers its eight scalars, which have landed when the group next issues; the latches that hold them clear (R83). -/
def State.evDeliver (s : State) (gid : Nat) (g : Group) (o : Ctl) (ws : List Word) : State :=
  let rs := (List.range ws.length).map fun i => RegName.scal (o.d.reg.toNat + i)
  let g := (ws.zip rs).foldl (fun (g : Group) (w, r) => g.landOutside r 1 [w]) g
  rs.foldl (fun s r => s.unlatch gid r) (s.endWait gid (s.notePost gid g ws) o.hdr)

/-- The poison that a try of EVWAIT met: a flag that is set already, or a trap that is pending already, stands (R157, R180, R289). -/
def State.poisonOnce (s : State) (gid : Nat) (g : Group) (fl : Flags) : State :=
  if fl &&& flPsn = 0 then s else s.poisonFor gid (s.asidOf g) g.kept

/-- One try of EVWAIT: kept are the header's address, the clock of issue and the timeout. -/
def State.evTry (s : State) (gid : Nat) (g : Group) (o : Ctl) : State :=
  let kept := (g.acc.map (·.ea)).getD []
  let (s, r) := s.popQueue gid g g.kept
  match r with
  | .got ws _ fl => (s.evDeliver gid g o ws).poisonOnce gid g fl
  | .empty _ fl => (s.waitAt gid g 1).poisonOnce gid g fl
  | .parked p => s.dccPark gid g p kept
  | .bad code fa => s.dccTrap gid { g with park := .running } code fa

def execEvwait (o : Ctl) (s : State) : Out :=
  s.withGroup fun gid g =>
    match g.acc with
    | some _ => if g.pagesWait then s else s.evTry gid g o
    | none =>
      s.uniform gid g o.hdr (srcUse o.a 0 2 Perm.id :: bopUse o.b 1) (dstUse o.d 8) fun g' =>
        let a : Access :=
          { todo := 0, ea := [(g.scalarPair gid o.a).toNat, s.now, (g.bopWord gid o.b).toNat], vals := [], xl := [], walks := [], parked := false }
        s.evTry gid { g'.drainNow [] with acc := some a } o

/-- Whether the group waits in EVWAIT and its time has passed. -/
def State.evOver (s : State) (g : Group) : Option Ctl :=
  match g.park, g.held, g.acc with
  | .wait 1, some (.evwait o), some a =>
    let t := a.ea.getD 2 0
    if t != 0xFFFFFFFF && decide (a.ea.getD 1 0 + t ≤ s.now) && !g.halted then some o else none
  | _, _, _ => none

/-- EVWAIT_TIMEOUT (R292): the empty result is delivered. -/
def execEvwaitTimeout (gid : Nat) (s : State) : Out :=
  .next (match s.group gid with
    | none => s
    | some g =>
      match s.evOver g with
      | some o => s.evDeliver gid g o emptyRecord
      | none => s)

/-! Records held (R286-R288) and posts of the host (R293). -/

/-- The held records that are first for their queue. -/
def State.firstHeld (s : State) (d : Nat) : List Colophon :=
  ((s.dom d).held.foldl (fun (acc : List Colophon × List (Nat × Nat)) c =>
    let q := (c.asid, s.queueOf c)
    if acc.2.contains q then acc else (acc.1 ++ [c], acc.2 ++ [q])) ([], [])).1

/-- Try the first held record of each queue in turn: the state, and whether one was appended or a page fault raised. -/
def State.retryHeld (s : State) (d : Nat) : List Colophon → State × Bool
  | [] => (s, false)
  | c :: cs =>
    let before := (s.dom d).faults.length
    let (s', ok) := s.appendRecord d c.asid (s.queueOf c) c.body
    if ok then (s'.modDom d fun x => { x with held := x.held.erase c }, true)
    else if (s'.dom d).faults.length != before then (s', true)
    else s.retryHeld d cs

/-- COLOPHON_RETRY (R287, R288). -/
def execColophonRetry (d : Nat) (s : State) : Out :=
  .next (let (s', did) := s.retryHeld d (s.firstHeld d)
    if did then s' else s)

/-- DEFQ_WRITE (R286): records held for the queue are appended by COLOPHON_RETRY. -/
def execDefqWrite (asid d : Nat) (va : BitVec 64) (s : State) : Out :=
  .next (s.modCtx asid fun c => { c with defq := tputD c.defq (d % 64) 0 va.toNat })

/-- Whether a page that an append to the queue needs is awaited. -/
def State.queueWaits (s : State) (d asid hdr : Nat) : Bool :=
  s.faulting d asid (pageOf hdr) ||
    match (s.hwRead d asid hdr 32).2 with
    | some h => s.faulting d asid (pageOf (leVal (slice h 0 8) + 32 * (leVal (slice h 16 4) &&& leVal (slice h 8 4))))
    | none => false

/-- EVPOST_WRITE (R293): the write of the word at 0x3C, or the post of a BUSY block going on. A queue whose page is absent leaves BUSY
set until the page is there; one that cannot be written counts as full (log 28). -/
def execEvpostWrite (d : Nat) (w : Word) (s : State) : Out :=
  .next (let x := s.dom d
    let rec' := if x.evBusy then x.evRec else patch x.evRec 28 (leBytes 4 w.toNat)
    if x.evBusy && s.queueWaits d x.evAsid x.qhdr then s
    else
      let (s', ok) := (s.modDom d fun x => { x with evRec := rec', evBusy := false }).appendRecord d x.evAsid x.qhdr (slice rec' 0 28)
      if ok then s'.modDom d fun x => { x with evFull := false }
      else if s'.queueWaits d x.evAsid x.qhdr then s'.modDom d fun x => { x with evBusy := true }
      else s'.modDom d fun x => { x with evFull := true })

end Sys2Proof.Machine
end

