-- ==== Sys2Proof/Machine/Place.lean ====
section
/-! DEFINITION. Launch descriptors, the ready pool, placement, the start of teams and DCC programs, and the completion of nodes
(R166, R167, R275-R279, R283, R284, R326-R328). -/

namespace Sys2Proof.Machine

/-! Launch descriptors. -/

def launchOf (b : List Byte) : Launch :=
  let f := fun (o n : Nat) => leVal (slice b o n)
  { entry := f 0 8, groups := f 8 1, cw := f 9 1, ch := f 0xA 1, home := if f 0xB 1 = 0xFF then none else some (f 0xB 1), scratch := f 0xC 4, regs := f 0x10 2,
    sregs := f 0x12 2, accf := f 0x14 1, accn := f 0x15 1, tsa := f 0x18 8, stopmap := f 0x20 8, argsz := f 0x28 4 }

/-- The field and reserved-byte tests of R278 and R279. -/
def launchOk (dcc : Bool) (b : List Byte) : Bool :=
  let l := launchOf b
  let home := match l.home with
    | some h => decide (h ≤ 63)
    | none => true
  l.entry % 64 == 0 && decide (l.entry < 2 ^ 48) && decide (1 ≤ l.groups) && decide (l.groups ≤ 32) && decide (1 ≤ l.cw) && decide (l.cw ≤ 3) &&
    decide (1 ≤ l.ch) && decide (l.ch ≤ 4) && home && l.scratch % 256 == 0 && decide (l.scratch ≤ 1048576) && l.regs % 8 == 0 && decide (8 ≤ l.regs) &&
    decide (l.regs ≤ 1024) && decide (l.sregs ≤ 256) && decide (l.accf ≤ 15) && decide (l.accf + l.accn ≤ 16) && l.tsa % 1024 == 0 && l.argsz % 4 == 0 &&
    leVal (slice b 0x16 2) == 0 && leVal (slice b 0x2C 20) == 0 &&
    (!dcc || (l.groups == 1 && decide (l.scratch ≤ Config.dccScratch) && l.cw * l.ch == 1 && l.accn == 0))

/-! Rectangles (R216). -/

/-- Core sites of the w by h rectangle at column x, row y of hardware cluster c, row by row. -/
def rectSites (c w h x y : Nat) : List Nat :=
  (List.range h).flatMap fun j => (List.range w).map fun i => 12 * (4 * (c / 4) + y + j) + 3 * (c % 4) + x + i

/-- Rectangles of good cores, the lowest upper-left site first. -/
def State.rects (s : State) (d c w h : Nat) : List (List Nat) :=
  (List.range (5 - h)).flatMap fun y => ((List.range (4 - w)).map fun x => rectSites c w h x y).filter fun r => r.all (s.coreGood d)

/-- Granules of a window. -/
def windowGran (regs sregs : Nat) : Nat := regs / 8 + (if sregs = 0 then 0 else 1)

/-- Whether some hardware cluster could ever hold a cluster of the launch: a team's windows and scratchpad fit a core's store beside the smallest
L1 (R166, R186), on good cores, with a good array where one is asked for (R279). -/
def State.everFits (s : State) (l : Launch) : Bool :=
  decide (l.groups * windowGran l.regs l.sregs + (l.scratch + 1023) / 1024 ≤ Config.granules - 640) && (List.range 64).any fun d => (List.range 12).any fun c => (l.accn == 0 || s.arrayGood d c) && !(s.rects d c l.cw l.ch).isEmpty

/-! Readiness. -/

def State.launchEngine (n : Node) : Engine := ⟨cidOf n.origin 144, n.asid, n.asid == 0, .ls⟩

/-- Whether NODE_READY has something to do. -/
def State.canReady (s : State) (n : Node) : Bool :=
  n.st == .waiting && n.deps.isEmpty && (n.kind == 2 || (rangeOf n.launchVa 64).all fun p => !s.faulting n.origin n.asid p)

/-- A node that starts nothing: an empty one, or a refused one with its status (R279, R283). -/
def State.emptyNode (s : State) (nid status : Nat) : State :=
  s.modNode nid fun n => { n with st := .running, teams := 0, status := status, started := s.now }

/-- NODE_READY (R279, R283): the launch descriptor is read and checked; an absent page is awaited. -/
def execNodeReady (nid : Nat) (s : State) : Out :=
  .next (match tget s.nodes nid with
    | none => s
    | some n =>
      if !s.canReady n then s
      else if n.kind = 2 then s.emptyNode nid 0
      else
        let (s, p) := s.placesOf (State.launchEngine n) .read n.launchVa 64
        if p.bad.isSome then s.emptyNode nid 1
        else if !p.absent.isEmpty then s
        else
          let (s, b, _) := s.placedRead n.origin p n.launchVa 64
          let l := launchOf b
          if !launchOk (n.kind == 1) b || (n.kind == 0 && n.teams % (l.cw * l.ch) != 0) then s.emptyNode nid 1
          else if n.kind == 0 && !s.everFits l then s.emptyNode nid 2
          else s.modNode nid fun n => { n with st := .ready s.now, launch := some l })

/-! The resources of a core (R75, R166, R185). -/

/-- Teams that hold resources of a core: a suspended one that has given them up does not, unless its dawn is asked for (R342). -/
def State.holders (s : State) (cid : Nat) : List Team :=
  (s.teams.filter fun (_, t) => t.cid == cid && (t.sus.key == 0 || t.sus.dawnAsked)).map (·.2)

/-- Slots taken on a core. -/
def State.takenSlots (s : State) (cid : Nat) : List Nat :=
  (s.holders cid).flatMap fun t => ((List.range t.slots.length).filter fun i => (s.group (t.gid i)).isSome).map fun i => t.slots.getD i 0

/-- Granules taken on a core: first and number. -/
def State.takenGran (s : State) (cid : Nat) : List (Nat × Nat) :=
  (s.holders cid).flatMap fun t =>
    (t.spBase, t.spGran) :: (List.range t.slots.length).filterMap fun i => (s.group (t.gid i)).map fun g => (g.gbase, windowGran g.gsize g.ssize)

/-- The lowest place of n granules below a limit that overlaps nothing taken (log 33). -/
def firstFit (taken : List (Nat × Nat)) (limit n : Nat) : Option Nat :=
  let starts := 0 :: taken.map fun (b, k) => b + k
  let ok := starts.filter fun a => decide (a + n ≤ limit) && taken.all fun (b, k) => n == 0 || k == 0 || decide (a + n ≤ b) || decide (b + k ≤ a)
  ok.foldl (fun (m : Option Nat) a => match m with
    | some b => some (min a b)
    | none => some a) none

/-- Places for several runs of n granules. -/
def fitMany (limit n : Nat) : Nat → List (Nat × Nat) → Option (List Nat × List (Nat × Nat))
  | 0, t => some ([], t)
  | k + 1, t =>
    match firstFit t limit n with
    | none => none
    | some a => (fitMany limit n k (t ++ [(a, n)])).map fun (l, t) => (a :: l, t)

/-- Slots for n groups in index order: the emptiest partition, its lowest slot (R166). -/
def fitSlots : Nat → List Nat → Option (List Nat)
  | 0, _ => some []
  | n + 1, taken =>
    let free := fun (p : Nat) => (List.range 8).filter fun i => !taken.contains (8 * p + i)
    let best := (List.range 8).foldl (fun b p => if (free p).length > (free b).length then p else b) 0
    match (free best).head? with
    | none => none
    | some i => (fitSlots n (taken ++ [8 * best + i])).map fun l => (8 * best + i) :: l

/-- What a team gets: slots, windows, the scratchpad's first granule. -/
structure Allot where
  slots : List Nat
  bases : List Nat
  spBase : Nat
  deriving DecidableEq, Repr

/-- Whether and where a core can start a team (R166, R186). -/
def State.allot (s : State) (cid : Nat) (l : Launch) : Option Allot :=
  let c := s.core cid
  if c.l1cfg != c.l1size then none
  else
    match fitSlots l.groups (s.takenSlots cid), fitMany (Config.granules - 64 * c.l1size) (windowGran l.regs l.sregs) l.groups (s.takenGran cid) with
    | some slots, some (bases, taken) => (firstFit taken (Config.granules - 64 * c.l1size) ((l.scratch + 1023) / 1024)).map fun b => ⟨slots, bases, b⟩
    | _, _ => none

/-! Placement. -/

/-- A cluster all of whose teams are saved and away (R339). -/
def State.clusterAway (s : State) (cl : Nat) : Bool :=
  match tget s.clusters cl with
  | some c => c.teams.all fun tid => match s.team tid with
    | some t => t.sus.st == .absent && t.sus.key != 0 && !t.sus.dawnAsked && t.sus.accImg != 0
    | none => true
  | none => true

/-- Whether the array of hardware cluster c may be taken (R327). -/
def State.arrayFree (s : State) (d c : Nat) : Bool :=
  s.arrayGood d c && match (s.hc (12 * d + c)).holder with
    | none => true
    | some cl => s.clusterAway cl

/-- The cores on which hardware cluster c can start a cluster of the launch. -/
def State.hcFits (s : State) (d c : Nat) (l : Launch) : Option (List Nat) :=
  if l.accn != 0 && !s.arrayFree d c then none
  else (s.rects d c l.cw l.ch).find? fun r => r.all fun site => (s.allot (cidOf d site) l).isSome

def State.occupied (s : State) (d c : Nat) : Nat := sumOf (((List.range 144).filter fun x => siteHc x == c).map fun x => (s.takenSlots (cidOf d x)).length)

/-- Where domain d starts the cluster: hardware cluster and cores (R327). -/
def State.domFits (s : State) (d : Nat) (l : Launch) : Option (Nat × List Nat) :=
  let tal := fun (c : Nat) => (s.dom d).tal.getD c 0
  let can := (List.range 12).filterMap fun c => if tal c = 0 then none else (s.hcFits d c l).map fun r => (c, r)
  can.foldl (fun (b : Option (Nat × List Nat)) x =>
    match b with
    | none => some x
    | some y =>
      if tal x.1 > tal y.1 || (tal x.1 == tal y.1 && decide (s.occupied d x.1 < s.occupied d y.1)) then some x else b) none

/-- Free group slots of a domain. -/
def State.freeSlots (s : State) (d : Nat) : Nat := sumOf ((s.goodCores d).map fun x => 64 - (s.takenSlots (cidOf d x)).length)

/-- Insert by key, before the first of a greater key. -/
def insertKey (k d : Nat) : List (Nat × Nat) → List (Nat × Nat)
  | [] => [(k, d)]
  | (k', d') :: l => if k < k' then (k, d) :: (k', d') :: l else (k', d') :: insertKey k d l

/-- The order in which a cluster is offered (R326). -/
def State.offerOrder (s : State) (home : Option Nat) : List Nat :=
  let key := fun (d : Nat) => match home with
    | some h => absDiff (h / 8) (d / 8) + absDiff (h % 8) (d % 8)
    | none => 9216 - s.freeSlots d
  ((List.range 64).foldl (fun l d => insertKey (key d) d l) []).map (·.2)

/-- The domain's buffer has room for records of the context: with 256 of them no new team of it is started there (R287). -/
def State.bufferRoom (s : State) (asid d : Nat) : Bool := decide (((s.dom d).buffered.filter fun c => c.asid == asid).length < 256)

/-- Whether a domain is offered a cluster of the context (R287, R326). -/
def State.offered (s : State) (asid d : Nat) : Bool :=
  s.domOk d && !s.reasonHolds asid d && decide (s.domState asid d < 2) && s.bufferRoom asid d

/-- The budget tests (R328) that fail, as throttle bits. -/
def State.budgetBits (s : State) (asid slots : Nat) : Nat :=
  match s.ctx asid with
  | none => 0
  | some c =>
    (if c.bslots != 0xFFFFFFFF && decide (s.uslots asid + slots > c.bslots) then 8 else 0) +
      (if c.bbytes != 0xFFFFFFFF && decide (c.ubytes ≥ c.bbytes) then 2 else 0) + (if c.benergy != 0xFFFFFFFF && decide (c.uenergy ≥ c.benergy) then 1 else 0)

/-- The first domain that takes the node's next cluster, with hardware cluster and cores. -/
def State.placeChoice (s : State) (n : Node) : Option (Nat × Nat × List Nat) :=
  match n.launch with
  | none => none
  | some l =>
    if s.budgetBits n.asid (l.cw * l.ch * l.groups) != 0 then none
    else ((s.offerOrder l.home).filter (s.offered n.asid)).findSome? fun d => (s.domFits d l).map fun (c, r) => (d, c, r)

/-- Whether no hardware cluster of the domain that could ever take the cluster has allowance left: a placement there is held for that (R327, R392). -/
def State.noAllowance (s : State) (d : Nat) (l : Launch) : Bool :=
  !(List.range 12).any fun c => (s.dom d).tal.getD c 0 != 0 && (l.accn == 0 || s.arrayGood d c) && !(s.rects d c l.cw l.ch).isEmpty

/-- Domains where the node's next cluster is held by a budget or for want of thermal allowance, with the throttle bits (R328, R362, log 33). -/
def State.placeHeld (s : State) (n : Node) : List (Nat × Nat) :=
  match n.launch with
  | none => []
  | some l =>
    let b := s.budgetBits n.asid (l.cw * l.ch * l.groups)
    if (s.placeChoice n).isSome then []
    else (((List.range 64).filter (s.offered n.asid)).filterMap fun d =>
      if !(List.range 12).any fun c => (s.hcFits d c l).isSome then none
      else
        let b := if s.noAllowance d l then b + 4 else b
        if b = 0 then none else some (d, b))

/-- The place of a node in the ready pool (R283). -/
def State.poolKey (s : State) (n : Node) : Option Nat :=
  let key := fun (since : Nat) =>
    (3 - ((s.ctx n.asid).map (·.prio)).getD 0) * 2 ^ 200 + since * 2 ^ 80 + n.asid * 2 ^ 60 + n.stream * 2 ^ 50 + n.graph * 2 ^ 20 + n.index
  match n.st with
  | .ready t => some (key t)
  | .placing t _ => some (key t)
  | _ => none

/-- The nodes of the ready pool in order. -/
def State.pool (s : State) : List Nat :=
  (s.nodes.foldl (fun l (k, n) => match s.poolKey n with
    | some x => insertKey x k l
    | none => l) []).map (·.2)

/-- A free slot of a domain's DCC (R275). -/
def State.dccSlot (s : State) (d : Nat) : Option Nat :=
  [1, 2, 3, 4, 5, 6, 7].find? fun k => !(s.takenSlots (cidOf d 144)).contains k

/-- Whether a node of the pool can be handed out now. -/
def State.canPlace (s : State) (n : Node) : Bool :=
  if n.kind = 1 then (s.poolKey n).isSome && (s.dccSlot n.dcc).isSome && s.bufferRoom n.asid n.dcc
  else (s.poolKey n).isSome && match s.placeChoice n with
    | some (d, c, _) =>
      (match n.launch with
        | some l => l.accn == 0 || (s.hc (12 * d + c)).holder.isNone || !(s.hc (12 * d + c)).wantSlot
        | none => false)
    | none => false

def State.placeNext (s : State) : Option Nat := s.pool.find? fun k => match tget s.nodes k with
  | some n => s.canPlace n
  | none => false

/-- A team to be started. -/
def newTeam (cid : Nat) (n : Node) (nid index cluster place : Nat) (l : Launch) : Team :=
  { cid := cid, slots := [], spBase := 0, spGran := 0, spBytes := 0, seq := 0, asid := n.asid, nid := nid, index := index, cluster := cluster, place := place,
    launched := 0, entry := l.entry, stopmap := l.stopmap, bars := List.replicate 16 {}, spad := [], spDesc := [], retiredN := 0, sus := {} }

/-- CLUSTER_PLACEMENT (R326, R327): the cluster's teams start at once, all of them; an array held by an absent cluster is saved first. -/
def execClusterPlacement (nid : Nat) (s : State) : Out :=
  .next (match tget s.nodes nid with
    | none => s
    | some n =>
      if n.kind != 0 || (s.poolKey n).isNone then s
      else
        match n.launch, s.placeChoice n with
        | some l, some (d, c, sites) =>
          let h := 12 * d + c
          if l.accn != 0 && (s.hc h).holder.isSome then
            if (s.hc h).wantSlot then s else (s.modHc h fun x => { x with wantSlot := true }).addNow (.accSave h false)
          else
            let k := match n.st with
              | .placing _ k => k
              | _ => 0
            let since := match n.st with
              | .ready t => t
              | .placing t _ => t
              | _ => s.now
            let cl := s.uid
            let wh := l.cw * l.ch
            let tids := (List.range wh).map (cl + 1 + ·)
            let cluster : Cluster :=
              { nid := nid, asid := n.asid, index := k, hcid := h, w := l.cw, h := l.ch, accFirst := l.accf, accCount := l.accn, teams := tids,
                bars := List.replicate 4 {}, arr := [] }
            let teams := (sites.zipIdx).foldl (fun t (x, q) => tput t (cl + 1 + q) (newTeam (cidOf d x) n nid (k * wh + q) cl q l)) s.teams
            let s := { s with uid := cl + 1 + wh, clusters := tput s.clusters cl cluster, teams := teams, agenda := tids.map (fun t => (s.now, Instr.teamStart t)) ++ s.agenda }
            let s := if l.accn = 0 then s else s.modHc h fun x => { x with holder := some cl, slots := [], bstore := [], bdesc := [], badAcc := [], badB := [], wantSlot := false }
            s.modNode nid fun n =>
              { n with
                st := if (k + 1) * wh < n.teams then .placing since (k + 1) else .running, started := if k = 0 then s.now else n.started,
                cores := uniqueNats (n.cores ++ sites.map (cidOf d)) }
        | _, _ => s)

/-! Starting. -/

/-- A group as a team starts it (R167, R275). -/
def newGroup (tid idx base : Nat) (dcc : Bool) (n : Node) (t : Team) (l : Launch) (at' : Nat) : Group :=
  { team := tid, idx := idx, vregs := [], sregs := if l.sregs = 0 then [] else tputD (tputD [] 0 0 (wordOf (n.args % 2 ^ 32))) 1 0 (wordOf (n.args / 2 ^ 32)),
    pc := BitVec.ofNat 48 l.entry, exm := if dcc then 1 else 0xFFFFFFFF, cnt := List.replicate 32 0, preds := List.replicate 7 0, gbase := base, gsize := l.regs,
    ssize := (l.sregs + 7) / 8 * 8, flags := 0, replay := 0, trapcause := 0, tsa := BitVec.ofNat 64 (l.tsa + 1024 * (32 * t.index + idx)), xtimeout := 0x10000,
    loops := List.replicate 4 {}, cc := [0, 0, 0, 0], nextQuire := 0, quires := [], chainOpen := false, chain := 0, mq := [], level := false, priv := false,
    pend := [], folios := [], results := [], vres := [], acc := none, rel := none, park := .running, sched := { notBefore := at', fresh := n.depended },
    retired := false, acqWts := [0, 0, 0, 0], acqFar := [false, false, false, false], fenced := false, defCause := 0, defCount := 0, defAddr := 0, halted := false,
    held := none }

/-- The team takes its slots, windows and scratchpad on its core, all clear. -/
def State.startTeam (s : State) (tid : Nat) (t : Team) (n : Node) (l : Launch) (a : Allot) : State :=
  let dcc := isDcc t.cid
  let at' := s.cclk t.cid + 1 + Config.extraDelay s.uid
  let seq := (s.core t.cid).launchSeq
  let t := { t with
    slots := a.slots, spBase := a.spBase, spGran := if dcc then 0 else (l.scratch + 1023) / 1024, spBytes := l.scratch, seq := seq, launched := l.groups }
  let groups := (a.slots.zipIdx).foldl (fun gs (slot, i) => tput gs (gidOf t.cid slot) (newGroup tid i (a.bases.getD i 0) dcc n t l at')) s.groups
  let s := { s.putTeam tid t with groups := groups, uid := s.uid + 1 }
  let s := s.modCore t.cid fun c => { c with launchSeq := seq + 1 }
  if dcc then s.modGroup (t.gid 0) fun g => { g with priv := s.basePriv (t.gid 0) g }
  else
    let h := siteHc (cidSite t.cid)
    s.modDom (cidDom t.cid) fun x => { x with tal := if x.talAt == some s.now then x.tal else x.tal.set h (x.tal.getD h 0 - l.groups) }

/-- TEAM_START (R166, R167, R359). -/
def execTeamStart (tid : Nat) (s : State) : Out :=
  .next (match s.team tid with
    | none => s
    | some t =>
      match tget s.nodes t.nid with
      | none => s
      | some n =>
        match n.launch with
        | none => s
        | some l =>
          if t.launched != 0 then s
          else
            match s.allot t.cid l with
            | some a => s.startTeam tid t n l a
            | none => s)

/-- DCC_PROGRAM_START (R275, R283, R287). The group's window begins at granule 0 whichever slot it has, so sr.gbase reads 0, and a program is held for
want of a slot only, never of room in the DCC's registers (log 85). -/
def execDccProgramStart (nid : Nat) (s : State) : Out :=
  .next (match tget s.nodes nid with
    | none => s
    | some n =>
      match n.launch, s.dccSlot n.dcc with
      | some l, some k =>
        if n.kind != 1 || (s.poolKey n).isNone || !s.bufferRoom n.asid n.dcc then s
        else
          let cid := cidOf n.dcc 144
          let tid := s.uid
          let s := { s with uid := tid + 1 }
          let s := s.startTeam tid (newTeam cid n nid 0 0 0 l) n l ⟨[k], [0], 0⟩
          s.modNode nid fun n => { n with st := .running, started := s.now, place := n.dcc, cores := [cid] }
      | _, _ => s)

/-! Completion (R284). -/

/-- The teams of a node. -/
def State.nodeTeams (s : State) (nid : Nat) : List Nat := (s.teams.filter fun (_, t) => t.nid == nid).map (·.1)

/-- Whether every team of a node has retired and nothing of its groups is under way at the engines and banks. -/
def State.nodeOver (s : State) (nid : Nat) (n : Node) : Bool :=
  decide (n.teams ≤ n.retired) &&
    (let ts := s.nodeTeams nid
     (!s.anyJob fun j => match j with
       | .bank b => b.nid == nid
       | .bankDone b _ _ _ => b.nid == nid
       | .copy c => ts.contains c.team
       | _ => false) && (ts.all fun tid => match s.team tid with
        | some t => t.sus.st == .present
        | none => true) && !s.groups.any fun (_, g) => ts.contains g.team && !g.mq.isEmpty)

/-- Accesses of a core that its release must see done. -/
def State.coreDeps (s : State) (cid : Nat) : List Nat :=
  s.releaseDeps (2 ^ 64) cid .wafer ++ (s.work.filter fun w => match w.job with
    | .atomic a => a.core == cid
    | _ => false).map (·.id)

/-- Whether NODE_COMPLETE has something to do. -/
def State.nodeCan (s : State) (nid : Nat) (n : Node) : Bool :=
  match n.st with
  | .running => s.nodeOver nid n
  | .releasing k deps => s.allDone deps && (k == 0 || ((n.cores.map cidDom) ++ n.banks).all s.acksDone)
  | _ => false

/-- The node is complete: dependents and colophon. -/
def State.finishNode (s : State) (nid : Nat) (n : Node) : State :=
  let s := s.modNode nid fun n => { n with st := .done false }
  let s := if n.manual && !n.nrel then s else s.releaseNode nid
  if n.quiet then s
  else s.nextFree.emit n.place
    ⟨n.asid, n.colq, n.origin, 1, colophonBody (nid % 2 ^ 32) 1 n.status n.place (s.now - n.started) (Config.nodeEnergy s.freeUsed) 0, none, false⟩

/-- The watermarks of the slices whose cores held the node's groups rise to those cores' times, so that the acquire of a dependent group on any
core there passes every lease on the released lines (R195, R196, R284). -/
def State.nodeReleased (s : State) (n : Node) : State :=
  n.cores.foldl (fun s c => if isDcc c then s else s.raiseW (cidDom c) (s.pts c)) s

/-- NODE_COMPLETE (R284): accesses in flight and kept stores, then the write-back of every core that held its groups, then completion. -/
def execNodeComplete (nid : Nat) (s : State) : Out :=
  .next (match tget s.nodes nid with
    | none => s
    | some n =>
      if !s.nodeCan nid n then s
      else
        match n.st with
        | .running => s.modNode nid fun n => { n with st := .releasing 0 (n.cores.flatMap s.coreDeps) }
        | .releasing 0 _ =>
          let s := n.cores.foldl (fun s c => s.writeBackAll none (2 ^ 64) c false) s
          s.modNode nid fun n => { n with st := .releasing 1 (n.cores.flatMap s.coreDeps) }
        | .releasing _ _ => (s.nodeReleased n).finishNode nid n
        | _ => s)

end Sys2Proof.Machine
end

