-- ==== Sys2Proof/Machine/Image.lean ====
section
/-! DEFINITION. Shadow images (R336, R337, R397): what a team's image holds, where it lies, how it is written and read back. -/

namespace Sys2Proof.Machine

/-! Layout. -/

/-- Groups of a team that still hold a slot, with their indexes. -/
def State.teamGroups (s : State) (t : Team) : List (Nat × Group) :=
  (List.range t.slots.length).filterMap fun i => (s.group (t.gid i)).map fun g => (i, g)

def scalOfs (idx k : Nat) : Nat := 0x100000 + 1024 * idx + 4 * k
def vecOfs (idx r l : Nat) : Nat := 0x400000 + 131072 * idx + 128 * r + 4 * l

/-- Whether a team uses barriers: one of its state words is not zero, or a group is in a barrier instruction (log 19). -/
def State.usesBars (s : State) (t : Team) : Bool :=
  t.bars.any (· != {}) || (s.teamGroups t).any fun (_, g) =>
    match g.held with
    | some (.bar _ _) => true
    | some (.bararv _ _) => true
    | some (.barwt _ _) => true
    | _ => false

/-- The ranges of an image that a team uses, ascending: offset and length (R336, R350: log 19). -/
def State.imageRanges (s : State) (t : Team) : List (Nat × Nat) :=
  let gs := s.teamGroups t
  ([(0, t.spBytes)] ++ gs.map (fun ((i, g) : Nat × Group) => (scalOfs i 0, 4 * g.ssize)) ++ (if s.usesBars t then [(0x108000, 128)] else []) ++
    [(0x108100, 128), (0x108200, 64)] ++ gs.map (fun ((i, _) : Nat × Group) => (0x109000 + 512 * i, 512)) ++ [(0x110000, t.spBytes / 64 * 2)] ++
    gs.map fun ((i, g) : Nat × Group) => (vecOfs i 0 0, 128 * g.gsize)).filter fun (_, n) => n != 0

/-- The number of the row, in saving order, that an image offset lies in (R338). -/
def rowOf (ranges : List (Nat × Nat)) (o : Nat) : Nat :=
  (ranges.foldl (fun n (a, k) => if a + k ≤ o then n + k else if a ≤ o then n + (o - a) else n) 0) / 128

def rangesBytes (ranges : List (Nat × Nat)) : Nat := sumOf (ranges.map (·.2))
def rowsFor (ranges : List (Nat × Nat)) : Nat := (rangesBytes ranges + 127) / 128

/-- The pieces of the ranges that make up row r: image offset and length. -/
def rowPieces (ranges : List (Nat × Nat)) (r : Nat) : List (Nat × Nat) :=
  (ranges.foldl (fun (acc : List (Nat × Nat) × Nat) (a, k) =>
    let lo := max (128 * r) acc.2
    let hi := min (128 * r + 128) (acc.2 + k)
    (if lo < hi then acc.1 ++ [(a + lo - acc.2, hi - lo)] else acc.1, acc.2 + k)) ([], 0)).1

/-- Image offset of an arrival (R210): of a vector register, its lowest lane's. -/
def Arrival.ofs : Arrival → Nat
  | .reg g (.scal k) _ _ => scalOfs g k
  | .reg g (.vec r) m _ => vecOfs g r (((lanesOf m).head?).getD 0)
  | .reg g _ _ _ => 0x109000 + 512 * g
  | .regPart g (.scal k) _ i _ => scalOfs g k + i
  | .regPart g (.vec r) l i _ => vecOfs g r l + i
  | .regPart g _ _ _ _ => 0x109000 + 512 * g
  | .bar _ b _ _ => 0x108000 + 8 * b
  | .spad o _ => o
  | .spadDesc l _ => 0x110000 + 2 * l
  | .counter g c => 0x108100 + 4 * g + c

/-- An arrival in parts that lie in one row each. -/
def Arrival.parts (a : Arrival) : List Arrival :=
  match a with
  | .reg g (.vec r) m vals => (lanesOf m).map fun l => .reg g (.vec r) (BitVec.ofNat 32 (2 ^ l)) vals
  | a => [a]

/-! Where images lie in the save area (R336). -/

/-- The physical ranges that images and slot images of a context take. -/
def State.imagesOf (s : State) (asid : Nat) : List (Nat × Nat) :=
  (s.teamsOf asid).flatMap fun (_, t) =>
    if t.away || t.sus.keep then
      (s.imageRanges t).map (fun (o, n) => (t.sus.shadow + o, n)) ++ (if t.sus.accImg = 0 then [] else [(t.sus.accImg, 2 ^ 23)])
    else []

/-- Whether ranges at base b lie in the area and meet nothing taken. -/
def fitsAt (lo hi b : Nat) (ranges taken : List (Nat × Nat)) : Bool :=
  ranges.all fun (o, n) => decide (lo ≤ b + o) && decide (b + o + n ≤ hi) && taken.all fun (a, k) => decide (a + k ≤ b + o) || decide (b + o + n ≤ a)

/-- The first 4 KiB-aligned base from b on that fits. -/
def findBase (lo hi : Nat) (ranges taken : List (Nat × Nat)) : Nat → Nat → Option Nat
  | 0, _ => none
  | k + 1, b => if fitsAt lo hi b ranges taken then some b else findBase lo hi ranges taken k (b + 4096)

/-- Images for teams, each with its base: the place of its last image, or the first that fits; none where an image finds no place in the area. -/
def planAll (lo hi pages : Nat) : List (Nat × List (Nat × Nat) × Nat) → List (Nat × Nat) → Option (List (Nat × Nat))
  | [], _ => some []
  | (tid, ranges, again) :: rest, taken =>
    match if again != 0 && fitsAt lo hi again ranges taken then some again else findBase lo hi ranges taken pages lo with
    | none => none
    | some b => (planAll lo hi pages rest (taken ++ ranges.map fun (o, n) => (b + o, n))).map fun l => (tid, b) :: l

/-- Bases for the images of these teams of a context; none when the area cannot hold them: the sum of their used ranges exceeds the space free there, or
the ranges, apart as they lie, find no place (R332, R336: log 19). -/
def State.planImages (s : State) (asid : Nat) (tids : List Nat) : Option (List (Nat × Nat)) :=
  match s.ctx asid with
  | none => none
  | some c =>
    let jobs := tids.filterMap fun tid => (s.team tid).map fun t => (tid, s.imageRanges t, t.sus.shadow)
    let taken := s.imagesOf asid
    let need := sumOf (jobs.map fun (_, r, _) => rangesBytes r)
    if need != 0 && decide (need + rangesBytes taken > 4096 * c.savesz) then none
    else planAll c.save (c.save + 4096 * c.savesz) c.savesz jobs taken

/-- A place for the slots and B store of a cluster, 0 where the area has no room (R339, log 19). -/
def State.planAcc (s : State) (asid : Nat) : Nat :=
  match s.ctx asid with
  | none => 0
  | some c => (findBase c.save (c.save + 4096 * c.savesz) [(0, 2 ^ 23)] (s.imagesOf asid) c.savesz c.save).getD 0

/-! Contents. -/

/-- A team barrier's state word (R171). -/
def barWord (b : Barrier) : Nat := b.arr * 2 ^ 32 + bool1 b.isOpen * 2 ^ 31 + bool1 b.phase * 2 ^ 30 + bool1 b.live * 2 ^ 29 + b.exp * 2 ^ 9 + b.cnt

def barFrom (b : Barrier) (w : Nat) : Barrier :=
  { b with arr := w / 2 ^ 32, isOpen := w.testBit 31, phase := w.testBit 30, live := w.testBit 29, exp := bits w 17 9, cnt := bits w 8 0 }

/-- WAIT and SLEEPLEFT of a halted group (R337). -/
def Group.waitCode (g : Group) : Nat × Nat :=
  match g.park with
  | .sw => (1, 0)
  | .wait _ => (2, 0)
  | .sleep _ n => (3, n)
  | .xlat => (4, 0)
  | _ => (0, 0)

/-- PENDING of a group record: a bit for each pending cause (R337). -/
def Group.pendingBits (g : Group) : Nat := (List.range 64).foldl (fun a k => if g.pend.any fun p => p.code == k then a + 2 ^ k else a) 0

/-- A group record from its offset 0x008 on (R337). -/
def groupRecord (g : Group) : List Byte :=
  let cause := if g.level then g.trapcause.toNat else 0
  let head := patch (saveArea g { code := 0, arg := 0, resume := g.pc.toNat }) 8 (leBytes 4 cause)
  let pending := g.pendingBits
  head ++ leBytes 1 (bool1 g.level) ++ leBytes 1 g.waitCode.1 ++ leBytes 2 g.nextQuire ++ leBytes 4 g.waitCode.2 ++ leBytes 8 pending ++ leBytes 4 g.defCause ++
    leBytes 4 g.defCount ++ leBytes 8 g.defAddr ++ leBytes 8 g.mq.length ++ leBytes 8 (bool1 g.chainOpen) ++ loopHi g ++ List.replicate 248 0

/-- The team record (R397). -/
def teamRecord (t : Team) : List Byte :=
  leBytes 8 (cidSite t.cid % 144) ++ leBytes 8 (maskBits t.slots % 2 ^ 64) ++ leBytes 2 t.spBase ++ leBytes 2 t.spGran ++ leBytes 4 (t.seq % 2 ^ 32) ++
    leBytes 8 t.sus.accImg ++ leBytes 1 (bool1 t.sus.accSaved) ++ leBytes 31 0

/-- Every range of the image with its bytes. -/
def State.imageBytes (s : State) (t : Team) : List (Nat × List Byte) :=
  let gs := s.teamGroups t
  let words := fun (ws : List Word) => ws.flatMap fun w => leBytes 4 w.toNat
  [(0, t.spBytesAt 0 t.spBytes), (0x108000, (List.range 16).flatMap fun b => leBytes 8 (barWord (t.bars.getD b {}))),
    (0x108100, (List.range 32).flatMap fun i => (if i < t.slots.length then ((s.group (t.gid i)).map (·.cc)).getD [0, 0, 0, 0] else [0, 0, 0, 0]).map (BitVec.ofNat 8)),
    (0x108200, teamRecord t), (0x110000, (List.range (t.spBytes / 64)).flatMap fun i => leBytes 2 (t.spLineDesc i).toNat)] ++
  gs.flatMap fun (i, g) =>
    [(scalOfs i 0, words ((List.range g.ssize).map fun k => lane (g.bankLanes (.scal k)) 0)), (0x109008 + 512 * i, groupRecord g),
      (vecOfs i 0 0, words ((List.range g.gsize).flatMap fun r => let v := g.bankLanes (.vec r); (List.range 32).map fun l => lane v l))]

/-- Bytes of the save engine are counted, and again where the image lies in another domain's memory (R354, R355). -/
def State.chargeSave (s : State) (cid asid pa n : Nat) : State :=
  s.charge cid asid (if lineIsFar (pa / 64) || lineHome (pa / 64) == cidDom cid then n else 2 * n)

/-- Row r of the store is written into the image as it now stands; its bytes are counted (R338, R350, R355). -/
def State.writeRow (s : State) (t : Team) (r : Nat) : State :=
  let chunks := s.imageBytes t
  (rowPieces (s.imageRanges t) r).foldl (fun s (o, n) => chunks.foldl (fun s (a, bs) =>
    let lo := max o a
    let hi := min (o + n) (a + bs.length)
    if lo < hi then s.engineWriteBytes (cidDom t.cid) (t.sus.shadow + lo) ((bs.drop (lo - a)).take (hi - lo)) else s) s) (s.chargeSave t.cid t.asid t.sus.shadow 128)

/-- What arrivals have set in the groups' records since their rows were saved: FLAGS, pending reports and the deferred faults (R338, R341, R374). -/
def State.writeLate (s : State) (t : Team) : State :=
  (s.teamGroups t).foldl (fun s (i, g) =>
    (s.engineWriteBytes (cidDom t.cid) (t.recordAt i 0x1C) (leBytes 4 g.flags.toNat)).engineWriteBytes (cidDom t.cid) (t.recordAt i 0xD8)
      (leBytes 8 g.pendingBits ++ leBytes 4 g.defCause ++ leBytes 4 g.defCount ++ leBytes 8 g.defAddr)) s

/-! Reading back (R343). -/

/-- A group as its record and registers in the image say, also where software has changed them; what the image has no place for stays (R337,
R343). A group whose WAIT or RESUME has changed, or REPLAY while it stands for replay, is in the condition that WAIT now names, and issues the instruction at RESUME where that is a
waiting instruction or a replay; of MQ the chain state is taken, since the queued operations themselves stay with the array (log 19). A DCC group's
mask stays lane 0 (R275). -/
def State.restoreGroup (s : State) (t : Team) (i : Nat) (g : Group) (clk : Nat) : State × Group :=
  let d := cidDom t.cid
  let (s, b) := s.engineReadBytes d (t.sus.shadow + 0x109008 + 512 * i) 0x100
  let f := fun (o n : Nat) => leVal (slice b (o - 8) n)
  let (s, sb) := s.engineReadBytes d (t.sus.shadow + scalOfs i 0) (4 * g.ssize)
  let (s, vb) := s.engineReadBytes d (t.sus.shadow + vecOfs i 0 0) (128 * g.gsize)
  let (s, cc) := s.engineReadBytes d (t.sus.shadow + 0x108100 + 4 * i) 4
  let sregs := ((wordsOf sb).zipIdx).foldl (fun m (w, k) => tputD m k 0 w) []
  let vregs := (List.range g.gsize).foldl (fun m r => tputD m r zeroLanes (wordsOf (slice vb (128 * r) 128))) []
  let resume := f 8 8
  let level := f 0xD0 1 != 0
  let pending := f 0xD8 8
  let codes := (List.range 64).filter pending.testBit
  let pend := codes.map fun k => (g.pend.find? fun p => p.code == k).getD ⟨k, 0, 0, g.sched.issued⟩
  let wait := f 0xD1 1
  let same := resume == g.pc.toNat && wait == g.waitCode.1 && (wait != 4 || wordOf (f 0x18 4) == g.replay)
  let park : Park := if g.retired || g.park == .dead then g.park
    else if same then (match g.park with
      | .sleep _ _ => .sleep clk (f 0xD4 4)
      | p => p)
    else match wait with
      | 1 => .sw
      | 3 => .sleep clk (f 0xD4 4)
      | _ => .running
  let g := restoreFrom g (slice b 0 0xC8) (slice b 0xF8 8)
  let sched := { g.sched with
    bad := !g.retired && !saveOk b, notBefore := clk + Config.handlerDelay, srcAt := none, prefetch := [],
    replayPc := if !same && wait == 4 then some resume else g.sched.replayPc }
  (s, { g with
    exm := if isDcc t.cid then 1 else g.exm, chainOpen := f 0xF8 8 % 2 == 1,
    vregs := vregs, sregs := sregs, bad := [], cc := cc.map (·.toNat), pc := BitVec.ofNat 48 resume, level := level, trapcause := if level then wordOf (f 0x10 4) else g.trapcause,
    priv := if level then g.priv else s.basePriv (gidOf t.cid (t.slots.getD i 0)) g, nextQuire := f 0xD2 2, pend := pend, park := park,
    acc := if same then g.acc else none, rel := if same then g.rel else none, held := if same then g.held else none, sched := sched,
    defCause := f 0xE0 4, defCount := f 0xE4 4, defAddr := f 0xE8 8 })

/-- The whole team from its image. -/
def State.restoreTeam (s : State) (tid : Nat) (t : Team) : State :=
  let d := cidDom t.cid
  let clk := s.cclk t.cid
  let s := s.chargeSave t.cid t.asid t.sus.shadow (128 * rowsFor (s.imageRanges t))
  let (s, sp) := s.engineReadBytes d t.sus.shadow t.spBytes
  let (s, ds) := s.engineReadBytes d (t.sus.shadow + 0x110000) (t.spBytes / 64 * 2)
  let (s, bw) := s.engineReadBytes d (t.sus.shadow + 0x108000) 128
  let t := { t with spad := [], spDesc := [], bad := [], bars := if s.usesBars t then t.bars.mapIdx fun i b => barFrom b (leVal (slice bw (8 * i) 8)) else t.bars }
  let t := t.spWrite 0 sp
  let t := (List.range (t.spBytes / 64)).foldl (fun (t : Team) i => t.spSetDesc i (BitVec.ofNat 16 (leVal (slice ds (2 * i) 2)))) t
  let s := s.putTeam tid t
  (s.teamGroups t).foldl (fun s (i, g) =>
    let (s, g) := s.restoreGroup t i g clk
    s.putGroup (t.gid i) g) s

end Sys2Proof.Machine
end

