-- ==== Sys2Proof/Machine/Dusk.lean ====
section
/-! DEFINITION. Suspension and resumption: CTXSUS, CTXRES, BUDGET, opcodes 0xE5-0xE7, CMD, the spine's own, dusk and dawn (R209-R211,
R329-R343). -/

namespace Sys2Proof.Machine

/-! A team's numbers while its slots are given up (R338). -/

/-- Replace a group number wherever the machine holds it. -/
def Job.regroup (f : Nat → Nat) (j : Job) : Job :=
  match j with
  | .read r => .read { r with gid := f r.gid }
  | .write r => .write { r with gid := f r.gid }
  | .wack r a b => .wack { r with gid := f r.gid } a b
  | .atomic a => .atomic { a with gid := f a.gid }
  | .bank b => .bank { b with gid := f b.gid }
  | .bankDone b fl far w => .bankDone { b with gid := f b.gid } fl far w
  | .copy c => .copy { c with gid := f c.gid }
  | .walk w => .walk { w with gid := w.gid.map f }
  | .watchReport c n a e t b w => .watchReport c n a e t (b.map fun (g, k) => (f g, k)) w
  | j => j

def State.regroup (s : State) (f : Nat → Nat) : State :=
  let ctx := fun (c : Ctx) => { c with asks := c.asks.map fun a => { a with res := a.res.map fun (g, o) => (f g, o) } }
  let cluster := fun (c : Cluster) => { c with arr := c.arr.map fun (n, g) => (n, f g) }
  let dom := fun (d : Dom) => { d with held := d.held.map fun c => { c with gid := c.gid.map f } }
  { s with
    work := s.work.map fun w => { w with job := w.job.regroup f }
    groups := s.groups.foldl (fun t (k, g) => tput t (f k) g) []
    posted := s.posted.map fun p => { p with gid := f p.gid }
    clusters := s.clusters.map fun (k, c) => (k, cluster c)
    doms := s.doms.map fun (k, d) => (k, dom d)
    ctxs := s.ctxs.map fun (k, c) => (k, ctx c) }

/-- The team's groups take numbers of their own, so that its slots are free. -/
def State.giveUp (s : State) (tid : Nat) (t : Team) : State :=
  let key := 2 ^ 32 * (tid + 1)
  let mine := (List.range t.slots.length).map t.gid
  let s := (mine.foldl State.unlatchAll s).regroup fun g => if mine.contains g then key + g else g
  s.putTeam tid { t with sus := { t.sus with key := key } }

/-- They take their slots again. -/
def State.takeBack (s : State) (tid : Nat) (t : Team) : State :=
  let mine := (List.range t.slots.length).map t.gid
  let s := s.regroup fun g => if mine.contains g then g - t.sus.key else g
  s.putTeam tid { t with sus := { t.sus with key := 0 } }

/-! Dusk (R334-R338). -/

/-- An arrival at a team barrier whose release is done and which has not reached the barrier: the barrier and the count (R172). -/
def Group.barUnderWay (g : Group) : Option (Nat × Nat) :=
  if g.park != .wait 2 || g.rel.isSome then none
  else
    match g.held with
    | some (.bar n _) => some (n.toNat, g.kept)
    | some (.bararv n _) => some (n.toNat, g.kept)
    | _ => none

/-- A group is halted (R334, R243): its results land and its window drains first, and a mask that this empties retires it (R74). An arrival at a
barrier that is under way goes on by itself (R338). -/
def State.haltGroup (s : State) (gid : Nat) : State :=
  match s.group gid with
  | none => s
  | some g0 =>
    if g0.halted then s
    else
      let cid := gidCid gid
      let g := g0.landAndDrain
      let g := { g with sched := { g.sched with woken := false } }
      if g.exm = 0 && g0.exm != 0 && !g.retired then ((s.putGroup gid g).retire gid).modGroup gid fun g => { g with halted := true }
      else
        match g.park, g.barUnderWay with
        | .xshfl _ _ _ _ _ key _, _ => (s.inflFree cid key).putGroup gid { g with halted := true, park := .running, held := none, acc := none }
        | .fetch _, _ => s.putGroup gid { g with halted := true, park := .running }
        | .sleep t n, _ => s.putGroup gid { g with halted := true, park := .sleep 0 (t + n - s.cclk cid) }
        | _, some (b, n) =>
          let s := s.putGroup gid { g with halted := true, park := .wait 4 }
          s.addNow (.arrival s.uid g.team 2 (.bar g.idx b n (s.pts cid)))
        | _, none => s.putGroup gid { g with halted := true }

/-- Install a team's entry where one of the eight is free. -/
def State.installEntry (s : State) (tid : Nat) (t : Team) : State :=
  match (List.range (s.core t.cid).entries.length).find? fun i => (s.entryAt t.cid i).isNone with
  | none => s
  | some i =>
    let s := s.modCore t.cid fun c => { c with entries := c.entries.set i (some tid) }
    s.putTeam tid { t with sus := { t.sus with entry := some i } }

/-- The groups of a team that is there are halted: its saving follows, at once or when a dawn under way has ended (R330, R335). -/
def State.holdTeam (s : State) (tid : Nat) : State :=
  match s.team tid with
  | some t => (List.range t.slots.length).foldl (fun s i => s.haltGroup (t.gid i)) s
  | none => s

/-- A team is halted, its image's place known: its saving begins (R337, R338). A retired accumulator image is placed beside (R339). -/
def State.haltTeam (s : State) (tid shadow accImg : Nat) : State :=
  let s := s.holdTeam tid
  match s.team tid with
  | none => s
  | some t =>
    let rows := rowsFor (s.imageRanges t)
    let sus : Suspend :=
      { t.sus with st := .saving rows, shadow := shadow, accImg := accImg, accSaved := false, entry := none, start := s.now + 1, key := 0, buffer := [],
                   shadowed := 0, kinds := 0, dawnAsked := false, wanted := false, keep := false }
    let t := { t with sus := sus }
    let s := s.putTeam tid t
    let s := match tget s.clusters t.cluster with
      | some c => { s with clusters := tput s.clusters t.cluster { c with accDone := false, accUntil := 0 } }
      | none => s
    if s.inFlight tid t = 0 || isDcc t.cid then s else s.installEntry tid t

/-- The teams of a context that dusk halts in a domain. -/
def State.duskTeams (s : State) (asid d : Nat) (dcc : Bool) : List Nat :=
  ((s.teamsIn asid d).filter fun (_, t) => t.sus.st == .present && t.launched != 0 && (dcc || !isDcc t.cid)).map (·.1)

/-- A domain is in dawn for the context: its dusk is complete, and a team is coming back or to come back (R330). -/
def State.inDawn (s : State) (asid d : Nat) : Bool :=
  let ts := (s.teamsIn asid d).map (·.2)
  !ts.any Team.isSaving && ts.any Team.inDawn

/-- A group is eligible again, with its deferred faults pending as one cause (R341). A SLEEP goes on, unless a wake event has come (R334). -/
def State.wakeGroup (s : State) (gid : Nat) : State :=
  s.modGroup gid fun g =>
    let pend := if g.defCount = 0 || g.pend.any (fun p => p.code == 0x10) then g.pend else g.pend ++ [⟨0x10, g.defCause, g.defAddr, g.sched.issued⟩]
    let park : Park := match g.park with
      | .sleep _ n => if g.sched.woken then .running else .sleep (s.cclk (gidCid gid)) n
      | p => p
    { g with halted := false, park := park, pend := pend, defCause := 0, defCount := 0, defAddr := 0, sched := { g.sched with woken := false } }

/-- Teams so held go on: the reason has gone, and no place is kept any more. -/
def State.unhold (s : State) (asid d : Nat) : State :=
  (s.teamsIn asid d).foldl (fun s (tid, t) =>
    let s := s.modTeam tid fun t => { t with sus := { t.sus with keep := false } }
    if t.away then s
    else (List.range t.slots.length).foldl (fun s i => if ((s.group (t.gid i)).map (·.halted)).getD false then s.wakeGroup (t.gid i) else s) s) s

/-- The place of the slot image of a team that is halted: a matrix cluster's teams share one. -/
def State.accFor (s : State) (asid : Nat) (t : Team) : Nat :=
  let c := tget s.clusters t.cluster
  let matrix := (c.map fun c => c.accCount != 0).getD false
  let other := (c.map (·.teams)).getD [] |>.findSome? fun x => (s.team x).bind fun y => if y.away && y.sus.accImg != 0 then some y.sus.accImg else none
  if matrix then other.getD (s.planAcc asid) else 0

/-- Halt teams whose images have been planned. -/
def State.haltAll (s : State) (asid : Nat) (plan : List (Nat × Nat)) : State :=
  plan.foldl (fun s (tid, b) =>
    match s.team tid with
    | none => s
    | some t => s.haltTeam tid b (s.accFor asid t)) s

/-- The places of these teams' images are kept until dusk (R330, R332). -/
def State.keepPlaces (s : State) (plan : List (Nat × Nat)) : State :=
  plan.foldl (fun s (tid, b) => s.modTeam tid fun t => { t with sus := { t.sus with shadow := b, keep := true } }) s

/-- Whether the request that holds in a domain halts DCC programs as well (R332). -/
def State.haltsDcc (s : State) (asid d : Nat) : Bool := ((s.ctx asid).map fun c => c.asks.any fun a => a.suspend && a.dcc && a.doms.contains d).getD false

/-- Dusk in a domain whose dawn has ended under a new reason (R330): no group has issued since, and the images go to the places that the request has
kept for them (R332). -/
def State.duskAgain (s : State) (asid d : Nat) : State :=
  let teams := s.duskTeams asid d (s.haltsDcc asid d)
  let kept := teams.filterMap fun tid => (s.team tid).bind fun t => if t.sus.keep then some (tid, t.sus.shadow) else none
  s.haltAll asid (kept ++ (s.planImages asid (teams.filter fun tid => !kept.any (·.1 == tid))).getD [])

/-- Change what is noted of the absent teams of a context in a domain. -/
def State.modAway (s : State) (asid d : Nat) (f : Team → Suspend → Suspend) : State :=
  (s.teamsIn asid d).foldl (fun s (tid, _) => s.modTeam tid fun t => if t.away then { t with sus := f t t.sus } else t) s

/-- Ask for the dawn of a domain when nothing holds it (R330): from now on its places are kept for its teams, also while others of them are
still being saved (R342). A DCC program comes back when a resumption has asked for it (R332). -/
def State.askDawn (s : State) (asid d : Nat) : State :=
  if s.reasonHolds asid d then s
  else (s.modAway asid d fun t u => { u with dawnAsked := u.dawnAsked || !isDcc t.cid || u.wanted }).unhold asid d

/-! Requests (R330-R332). -/

def resultWord (teams stat : Nat) : Word := wordOf (teams % 2 ^ 24 * 256 + stat)

/-- Whether an ask is answered (R331). -/
def State.askDone (s : State) (asid : Nat) (a : Ask) : Bool :=
  let ts := fun (d : Nat) => ((s.teamsIn asid d).map (·.2)).filter fun t => a.dcc || !isDcc t.cid
  a.doms.all fun d =>
    if a.suspend then
      !(ts d).any Team.isSaving &&
        (!((s.ctx asid).map fun c => c.req.contains d).getD false || (ts d).all fun t => t.sus.st == .absent && !t.sus.dawnAsked)
    else s.reasonHolds asid d || !(ts d).any Team.away

/-- Answer what can be answered: the instruction's result arrives, or CMDSTAT is set. -/
def State.settleAsks (s : State) (asid : Nat) : State :=
  match s.ctx asid with
  | none => s
  | some c =>
    let full := c.asks.filter (s.askDone asid)
    let s := s.putCtx asid { c with asks := c.asks.filter fun a => !full.contains a }
    full.foldl (fun s a =>
      let w := resultWord a.teams 0
      match a.res with
      | some (gid, op) => s.deliver gid op [(0, [w], 0)] 0 false s.now
      | none => s.modCtx asid fun c => { c with cmdstat := w }) s

def maskDoms (m : Nat) : List Nat := if m % 2 ^ 64 = 0 then List.range 64 else (List.range 64).filter m.testBit

/-- Set the request reason (R330, R332): the state, and the result if it stands at once. -/
def State.suspendReq (s : State) (asid : Nat) (doms : List Nat) (dcc : Bool) (res : Option (Nat × Nat)) : State × Option Word :=
  match s.ctx asid with
  | none => (s, some (resultWord 0 3))
  | some c =>
    let fresh := doms.filter fun d => !c.req.contains d
    if fresh.isEmpty then (s, some (resultWord 0 3))
    else
      let tids := (fresh.filter fun d => !s.inDawn asid d).flatMap fun d => s.duskTeams asid d dcc
      -- where dawn is under way, the teams that are there already are halted, and saved with the others when it ends (R330)
      let later := fresh.filter fun d => s.inDawn asid d
      let beside := later.flatMap fun d => s.duskTeams asid d dcc
      let back := later.flatMap fun d => (s.teamsIn asid d).filter fun (_, t) => t.away && (dcc || !isDcc t.cid)
      match s.planImages asid (tids ++ beside) with
      | none => (s, some (resultWord 0 1))
      | some plan =>
        let s := s.putCtx asid { c with req := c.req ++ fresh, asks := c.asks ++ [⟨true, fresh, tids.length + beside.length + back.length, dcc, res⟩] }
        -- a dawn that has not begun is called off
        let s := (fresh.filter fun d => !later.contains d).foldl (fun s d =>
          s.modAway asid d fun t u => if dcc || !isDcc t.cid then { u with dawnAsked := false, wanted := false } else { u with dawnAsked := false }) s
        -- the places of those that go back into dusk after dawn are kept (R330, R332)
        let s := s.keepPlaces ((plan.filter fun (tid, _) => beside.contains tid) ++ back.map fun (tid, t) => (tid, t.sus.shadow))
        (beside.foldl (fun s tid => s.holdTeam tid) (s.haltAll asid (plan.filter fun (tid, _) => tids.contains tid)), none)

/-- Clear the request reason (R330, R332). -/
def State.resumeReq (s : State) (asid : Nat) (doms : List Nat) (dcc : Bool) (res : Option (Nat × Nat)) : State × Option Word :=
  match s.ctx asid with
  | none => (s, some (resultWord 0 3))
  | some c =>
    let set := doms.filter c.req.contains
    if set.isEmpty then (s, some (resultWord 0 3))
    else
      let s := s.putCtx asid { c with req := c.req.filter fun d => !set.contains d }
      let s := if dcc then set.foldl (fun s d => s.modAway asid d fun t u => { u with wanted := u.wanted || isDcc t.cid }) s else s
      let back := set.flatMap fun d => if s.reasonHolds asid d then [] else (s.teamsIn asid d).filter fun (_, t) => t.away && (t.sus.wanted || !isDcc t.cid)
      let s := s.modCtx asid fun c => { c with asks := c.asks ++ [⟨false, set, back.length, dcc, res⟩] }
      (set.foldl (fun s d => s.askDawn asid d) s, none)

/-- A request of an instruction: its result lands when the request is answered (R331). -/
def State.reqInstr (s : State) (gid : Nat) (g : Group) (o : Ctl) (suspend : Bool) : State :=
  s.uniform gid g o.hdr [srcUse o.a 0 4 Perm.id] (dstUse o.d 1) fun g' =>
    let b := (g.scalarBlock gid o.a 4).map (·.toNat)
    let w := fun (i : Nat) => b.getD i 0
    let asid := w 0 % 2 ^ 16
    let dcc := (w 0).testBit 16
    let doms := maskDoms (w 1 + 2 ^ 32 * w 2)
    let now := fun (s : State) (v : Word) => s.giveScalars gid g' o.hdr o.d [v] (s.now + 1 + Config.extraDelay s.uid) none
    if bits (w 0) 31 17 != 0 || w 3 != 0 then s.trapHere gid g 0x05 0
    else if gidSlot gid != 0 && (asid != s.asidOf g || dcc) then now s (resultWord 0 2)
    else
      let op := s.uid
      let v := { freshVRes op g.sched.issued .info [.scal o.d.reg.toNat] 1 [[0]] (s.now + 1) with ready := 0, infl := 0 }
      let req := fun (s : State) => if suspend then s.suspendReq asid doms dcc (some (gid, op)) else s.resumeReq asid doms dcc (some (gid, op))
      match (req s).2 with
      | some word => now s word
      | none =>
        let s := ({ s with uid := op + 1 }).finish gid { g' with vres := g'.vres ++ [v], park := .running } o.hdr none
        ((req s).1).settleAsks asid

def execCtxsus (o : Ctl) (s : State) : Out := s.withGroup fun gid g => s.reqInstr gid g o true
def execCtxres (o : Ctl) (s : State) : Out := s.withGroup fun gid g => s.reqInstr gid g o false

/-- BUDGET (R333). -/
def execBudget (o : Ctl) (s : State) : Out :=
  s.withGroup fun gid g => s.uniform gid g o.hdr [srcUse o.a 0 4 Perm.id] (dstUse o.d 1) fun g' =>
    let b := (g.scalarBlock gid o.a 4).map (·.toNat)
    let w := fun (i : Nat) => b.getD i 0
    let asid := w 0 % 2 ^ 16
    let wprio := (w 0).testBit 18
    let put := fun (s : State) (r : Nat) => s.finish gid (g'.addResult (s.cclk (gidCid gid) + latMov) (.scal o.d.reg.toNat) 1 [wordOf r] 0) o.hdr none
    if bits (w 0) 31 19 != 0 then s.trapHere gid g 0x05 0
    else
      let allowed := gidSlot gid == 0 || (asid == s.asidOf g && !wprio && ((s.ctx asid).map fun c => c.expert.testBit 3).getD false)
      if !allowed then put s 1
      else
        match s.ctx asid with
        | none => put s 2
        | some c => put (s.putCtx asid { c with bslots := w 1, bbytes := w 2, benergy := w 3, prio := if wprio then bits (w 0) 17 16 else c.prio }) 0

/-- Whether an access may write CMD so (R322). -/
def cmdAllowed (acc : MmioAcc) (asid : Nat) (dcc : Bool) : Bool := acc.priv || (acc.asid == asid && !dcc)

/-- A CMD write: CMDSTAT holds the result once there is one. -/
def State.cmdWrite (s : State) (acc : MmioAcc) (asid : Nat) (dcc suspend : Bool) : State :=
  match s.ctx asid with
  | none => s
  | some c =>
    if !cmdAllowed acc asid dcc then s
    else
      let s := s.putCtx asid { c with cmdDcc := dcc }
      let doms := maskDoms c.cmdmask
      let (s, r) := if suspend then s.suspendReq asid doms dcc none else s.resumeReq asid doms dcc none
      match r with
      | some w => s.modCtx asid fun c => { c with cmdstat := w }
      | none => s.settleAsks asid

def execCmdSuspend (acc : MmioAcc) (asid : Nat) (dcc : Bool) (s : State) : Out := .next (s.cmdWrite acc asid dcc true)
def execCmdResume (acc : MmioAcc) (asid : Nat) (dcc : Bool) (s : State) : Out := .next (s.cmdWrite acc asid dcc false)

/-! The spine's suspension for priority (R329). -/

/-- The machine as the suspension of these teams would leave it, with the places of their images: the array of a cluster whose slot image finds no place
stays held. -/
def State.withoutTeams (s : State) (asid : Nat) (plan : List (Nat × Nat)) : State :=
  let s := plan.foldl (fun s (tid, b) =>
    match s.team tid with
    | none => s
    | some t => s.putTeam tid { t with sus := { t.sus with st := .saving 0, shadow := b, accImg := s.accFor asid t, dawnAsked := false } }) s
  { s with teams := s.teams.map fun (k, t) =>
      if plan.any (·.1 == k) then (k, { t with sus := { t.sus with st := .absent, key := 2 ^ 32 * (k + 1) } }) else (k, t) }

/-- Whether suspending context y in domain d lets the node's cluster start there. -/
def State.wouldStart (s : State) (n : Node) (y d : Nat) : Bool :=
  match n.launch with
  | none => false
  | some l =>
    s.offered n.asid d && !(s.duskTeams y d false).isEmpty && !s.reasonHolds y d && !s.inDawn y d &&
      match s.planImages y (s.duskTeams y d false) with
      | none => false
      | some plan => ((s.withoutTeams y plan).domFits d l).isSome

/-- When the first team of a context in a domain started: its launch number on its core, by place (R329). -/
def State.firstStart (s : State) (y d : Nat) : Nat := ((s.duskTeams y d false).head?).getD 0

/-- A suspension that the spine has decided for the node is still in dusk: it suspends only in that one domain (R329). -/
def State.spineWaits (s : State) (n : Node) : Bool :=
  s.ctxs.any fun (y, c) => c.spine.any fun (d, nid) => nid == nidOf n.asid n.graph n.index && (s.teamsIn y d).any fun (_, t) => t.isSaving

/-- The context and domain to suspend for a node of the pool. -/
def State.spineChoice (s : State) (n : Node) : Option (Nat × Nat) :=
  match n.launch with
  | none => none
  | some l =>
    let p := ((s.ctx n.asid).map (·.prio)).getD 0
    if n.kind != 0 || (s.poolKey n).isNone || s.budgetBits n.asid (l.cw * l.ch * l.groups) != 0 || (s.placeChoice n).isSome || s.spineWaits n then none
    else
      let ys := (s.ctxs.filter fun (y, c) => c.preempt && decide (c.prio < p) && y != n.asid).map (·.1)
      let d := (s.offerOrder l.home).find? fun d => ys.any fun y => s.wouldStart n y d
      d.bind fun d =>
        let can := ys.filter fun y => s.wouldStart n y d
        let prio := fun (y : Nat) => ((s.ctx y).map (·.prio)).getD 0
        (can.foldl (fun (b : Option Nat) y =>
          match b with
          | none => some y
          | some z => if prio y < prio z || (prio y == prio z && decide (s.firstStart y d > s.firstStart z d)) then some y else b) none).map fun y => (y, d)

/-- The suspension that the spine decides next. -/
def State.spineNext (s : State) : Option (Nat × Nat × Nat) :=
  s.pool.findSome? fun nid => (tget s.nodes nid).bind fun n => (s.spineChoice n).map fun (y, d) => (y, d, nid)

/-- SPINE_SUSPEND (R329). -/
def execSpineSuspend (asid d nid : Nat) (s : State) : Out :=
  .next (match (tget s.nodes nid).bind s.spineChoice with
    | none => s
    | some (y, e) =>
      if y != asid || e != d then s
      else
        match s.planImages asid (s.duskTeams asid d false) with
        | none => s
        | some plan => (s.modCtx asid fun c => { c with spine := c.spine ++ [(d, nid)] }).haltAll asid plan)

/-- Whether a saved team's slots and granules are free (R342), below the L1 as it now is (R185). -/
def State.resourcesFree (s : State) (t : Team) : Bool :=
  let mine := t.sus.key
  let others := (s.teams.filter fun (_, u) => u.cid == t.cid && u.sus.key == 0).map (·.2)
  let slots := others.flatMap fun u => ((List.range u.slots.length).filter fun i => (s.group (u.gid i)).isSome).map fun i => u.slots.getD i 0
  let grans := others.flatMap fun u =>
    (u.spBase, u.spGran) :: (List.range u.slots.length).filterMap fun i => (s.group (u.gid i)).map fun g => (g.gbase, windowGran g.gsize g.ssize)
  let own := (t.spBase, t.spGran) :: (s.teamGroups t).map fun (_, g) => (g.gbase, windowGran g.gsize g.ssize)
  mine != 0 && (s.teamGroups t).all (fun (i, _) => !slots.contains (t.slots.getD i 0)) &&
    (isDcc t.cid || own.all fun (a, n) => decide (a + n ≤ Config.granules - 64 * (s.core t.cid).l1size) &&
      grans.all fun (b, k) => n == 0 || k == 0 || decide (a + n ≤ b) || decide (b + k ≤ a))

/-- Whether the spine's reason may end (R329). -/
def State.spineOver (s : State) (asid d nid : Nat) : Bool :=
  (match tget s.nodes nid with
    | some n => n.finished
    | none => true) &&
    (s.teamsIn asid d).all fun (_, t) => t.sus.st != .absent || s.resourcesFree t

/-- SPINE_REASON_END (R329, R330). -/
def execSpineReasonEnd (asid d : Nat) (s : State) : Out :=
  .next (match s.ctx asid with
    | none => s
    | some c =>
      match c.spine.find? fun (x, nid) => x == d && s.spineOver asid d nid with
      | none => s
      | some e => ((s.putCtx asid { c with spine := c.spine.filter (· != e) }).askDawn asid d).settleAsks asid)

/-! Saving and arrivals (R210, R338). -/

/-- The clocks of a saving or restoring: the save area's first line is read or written in its DRAM (R344, R350, log 19). -/
def State.imageTime (s : State) (t : Team) : Nat := rowsFor (s.imageRanges t) + s.dramLatency t.cid (t.sus.shadow / 64)

/-- What a team's saving waits for: the entry of a group into its handler (R184, log 88), and for a team without a diversion entry everything in
flight towards it (R211). -/
def State.saveWaits (s : State) (tid : Nat) (t : Team) : Bool :=
  (t.sus.entry.isNone && s.inFlight tid t != 0) || (s.teamGroups t).any fun (_, g) =>
    match g.park with
    | .entry _ _ => true
    | _ => false

/-- Whether a team's saving is over. -/
def State.saveOver (s : State) (tid : Nat) (t : Team) : Bool :=
  t.isSaving && !s.saveWaits tid t && decide (t.sus.start + 1 + s.imageTime t ≤ s.now)

/-- Rows of the team's image are still to be written, and nothing makes the saving wait. -/
def State.rowsLeft (s : State) (tid : Nat) (t : Team) : Bool := t.isSaving && !s.saveWaits tid t && decide (s.now < t.sus.start + 1 + rowsFor (s.imageRanges t))

/-- The store of the team's core moves another team's rows in this clock: those of one that is restored, or whose saving has begun before, of two that
begin together of the one with the lower number (R344). -/
def State.storeTaken (s : State) (tid : Nat) (t : Team) : Bool :=
  s.teams.any fun (k, u) => k != tid && u.cid == t.cid &&
    match u.sus.st with
    | .restoring _ => true
    | .saving _ => s.rowsLeft k u && (decide (u.sus.start + 1 < s.now) || (decide (u.sus.start + 1 = s.now) && decide (k < tid)))
    | _ => false

/-- The save engine's work of the clock that begins: one row at each core's store (R338, R344, R350). -/
def State.saveRows (s : State) : State :=
  s.teams.foldl (fun s (tid, _) =>
    match s.team tid with
    | none => s
    | some t =>
      if !t.isSaving then s
      else if s.saveWaits tid t || (decide (s.now ≤ t.sus.start + 1) && s.storeTaken tid t) then s.putTeam tid { t with sus := { t.sus with start := s.now } }
      else if t.sus.start + 1 ≤ s.now ∧ s.now - t.sus.start - 1 < rowsFor (s.imageRanges t) then s.writeRow t (s.now - t.sus.start - 1)
      else s) s

/-- TEAM_SAVE_COMPLETE (R337, R338): the image is whole, and slots, windows and granules are free. -/
def execTeamSaveComplete (tid : Nat) (s : State) : Out :=
  .next (match s.team tid with
    | none => s
    | some t =>
      if !s.saveOver tid t then s
      else ((s.writeLate t).giveUp tid { t with sus := { t.sus with st := .absent } }).settleAsks t.asid)

/-- An arrival at a barrier word of a team's image (R210), with what the model holds of the barrier beside the word. -/
def State.imageBar (s : State) (tid : Nat) (t : Team) (g b n pts : Nat) : State :=
  let d := cidDom t.cid
  let a := t.sus.shadow + 0x108000 + 8 * b
  let (s, w) := s.engineReadBytes d a 8
  let old := barFrom (t.bars.getD b {}) (leVal w)
  match barArrival old (2 ^ g) n pts with
  | none => s.arrived (t.gid g) false
  | some x =>
    let (y, done) := barClose x t.live s.now 4
    let s := ((s.putTeam tid { t with bars := setAt t.bars b y }).engineWriteBytes d a (leBytes 8 (barWord y))).arrived (t.gid g) true
    if done then ((List.range 32).filter x.arr.testBit).foldl (fun s i => s.phaseDone (t.gid i) (phaseKey false b) y) s else s

/-- Write an arrival into a team's image (R210). -/
def State.imageArrival (s : State) (tid : Nat) (a : Arrival) : State :=
  match s.team tid with
  | none => s
  | some t =>
    let d := cidDom t.cid
    let at' := t.sus.shadow + a.ofs
    match a with
    | .reg g (.vec r) m vals => (lanesOf m).foldl (fun s l => s.engineWriteBytes d (t.sus.shadow + vecOfs g r l) (leBytes 4 (lane vals l).toNat)) s
    | .reg _ _ _ vals => s.engineWriteBytes d at' (leBytes 4 (lane vals 0).toNat)
    | .regPart _ _ _ _ bs => s.engineWriteBytes d at' bs
    | .spad _ bs => s.engineWriteBytes d at' bs
    | .spadDesc _ x => s.engineWriteBytes d at' (leBytes 2 x.toNat)
    | .counter g _ => (s.imageMod t at' 1 fun v => v - 1).wake (t.gid g)
    | .bar g b n pts => s.imageBar tid t g b n pts

/-- Whether the row of an arrival has been saved (R338). -/
def State.rowSaved (s : State) (t : Team) (a : Arrival) : Bool := decide (t.sus.start + 1 + rowOf (s.imageRanges t) a.ofs ≤ s.now)

/-- Whether an arrival can be diverted now. -/
def State.divertReady (s : State) (w : Work) : Bool :=
  match w.job with
  | .arrival _ tid _ _ => match s.team tid with
    | some t => t.isSaving || t.sus.st == .absent
    | none => false
  | _ => false

def Team.countShadow (t : Team) (kind : Nat) (a : Arrival) : Team :=
  { t with sus := { t.sus with shadowed := t.sus.shadowed + a.count, kinds := t.sus.kinds ||| kindBit kind } }

/-- DIVERTED_ARRIVAL (R210, R211, R338): into the image; while the team is being saved, into the store where its row is still to be saved. -/
def execDivertedArrival (id : Nat) (s : State) : Out :=
  s.serve id State.divertReady fun w =>
    match w.job with
    | .arrival _ tid kind a =>
      let s := s.delWork id
      match s.team tid with
      | none => s
      | some t =>
        let gone := a.parts.filter fun x => !t.isSaving || s.rowSaved t x
        let s := (a.parts.filter fun x => !gone.contains x).foldl (fun s x => s.applyArrival 0 tid x) s
        if gone.isEmpty then s else (gone.foldl (fun s x => s.imageArrival tid x) s).modTeam tid fun t => t.countShadow kind a
    | _ => s

/-! The slots and B store of an absent cluster (R339). -/

/-- Whether the absent cluster that holds the array has nothing queued. -/
def State.accReady (s : State) (w : Work) : Bool :=
  match w.job with
  | .accSave h _ =>
    match (s.hc h).holder with
    | none => true
    | some cl => !s.groups.any fun (_, g) => !g.mq.isEmpty && ((s.team g.team).map (·.cluster)) == some cl
  | _ => false

/-- Words of a slot, row by row. -/
def Hc.slotBytes (h : Hc) (slot : Nat) : List Byte :=
  (List.range 256).flatMap fun i => (List.range 256).flatMap fun j => leBytes 4 (h.acc slot i j).toNat

/-- Write slots and B store with descriptors to an image. -/
def State.saveAcc (s : State) (d : Nat) (h : Hc) (first n base : Nat) : State :=
  let s := (List.range n).foldl (fun s k => s.engineWriteBytes d (base + 2 ^ 18 * (first + k)) (h.slotBytes (first + k))) s
  (List.range 65536).foldl (fun s l =>
    let img := h.bLine l
    s.engineWrite d (base / 64 + 65536 + l) (img.data.map some) (some img.desc)) s

/-- Bytes of the slots and B store in an image. -/
def accBytes (n : Nat) : Nat := 2 ^ 18 * n + 2 ^ 22

/-- Read them back. -/
def State.loadAcc (s : State) (d hcid first n base : Nat) : State :=
  let s := (List.range n).foldl (fun s k =>
    let (s, bs) := s.engineReadBytes d (base + 2 ^ 18 * (first + k)) (2 ^ 18)
    let ws := wordsOf bs
    s.modHc hcid fun h => (ws.zipIdx).foldl (fun (h : Hc) (w, i) => h.setAcc (first + k) (i / 256) (i % 256) w) h) s
  (List.range 65536).foldl (fun s l =>
    let (s, img) := s.engineRead d (base / 64 + 65536 + l)
    s.modHc hcid fun h => h.setBLine l img) s

/-- ACC_IMAGE_SAVE (R339, R344). -/
def execAccImageSave (hcid : Nat) (s : State) : Out :=
  .next (match s.work.find? fun w => (match w.job with
      | .accSave h _ => h == hcid
      | _ => false) && s.accReady w && decide (w.due ≤ s.now) with
    | none => s
    | some w =>
      match (s.hc hcid).holder, w.job with
      | some cl, .accSave _ started =>
        if !s.clusterAway cl then (s.delWork w.id).modHc hcid fun h => { h with wantSlot := false }
        else if !started then s.setWork w.id 65536 (.accSave hcid true)
        else
          let d := hcid / 12
          match tget s.clusters cl with
          | none => (s.delWork w.id).modHc hcid fun h => { h with holder := none, wantSlot := false }
          | some c =>
            let base := (c.teams.findSome? fun tid => (s.team tid).map fun t => t.sus.accImg).getD 0
            let cid := (c.teams.findSome? fun tid => (s.team tid).map (·.cid)).getD (cidOf d 144)
            let s := s.chargeSave cid c.asid base (accBytes c.accCount)
            let s := ((s.delWork w.id).saveAcc d (s.hc hcid) c.accFirst c.accCount base).modHc hcid fun h => { h with holder := none, wantSlot := false }
            c.teams.foldl (fun s tid =>
              match s.team tid with
              | none => s
              | some t => (s.putTeam tid { t with sus := { t.sus with accSaved := true } }).engineWriteBytes d (t.sus.shadow + 0x108220) [1]) s
      | _, _ => (s.delWork w.id).modHc hcid fun h => { h with wantSlot := false })

/-! Dawn (R342, R343). -/

/-- ACCIMG and ACCSAVED as the image now says. -/
def State.imageAcc (s : State) (t : Team) : State × Nat × Bool :=
  let (s, b) := s.engineReadBytes (cidDom t.cid) (t.sus.shadow + 0x108218) 9
  (s, leVal (slice b 0 8), (b.getD 8 0).getLsbD 0)

/-- The store of a core moves a team's rows. -/
def State.rowsMove (s : State) (cid : Nat) : Bool :=
  s.teams.any fun (k, u) => u.cid == cid && match u.sus.st with
    | .restoring _ => true
    | .saving _ => s.rowsLeft k u
    | _ => false

/-- Whether the restore of a team can begin: dusk in its domain is complete, its place is free, and so is its cluster's array (R330, R342); the
store moves one team's rows at a time (R344). -/
def State.dawnCan (s : State) (t : Team) : Bool :=
  t.sus.st == .absent && t.sus.dawnAsked && s.resourcesFree t && !s.rowsMove t.cid && !(s.teamsIn t.asid (cidDom t.cid)).any (fun (_, u) => u.isSaving) &&
    match tget s.clusters t.cluster with
    | some c => c.accCount == 0 || (s.hc c.hcid).holder.isNone || (s.hc c.hcid).holder == some t.cluster
    | none => true

/-- Whether a restore is over. -/
def State.dawnOver (s : State) (t : Team) : Bool :=
  match t.sus.st with
  | .restoring u => decide (u ≤ s.now)
  | _ => false

/-- The cluster of a team that comes back takes its array again; the first team whose image says ACCSAVED has the slots and B store read back, and
every team of the cluster waits for the end of that (R339, R343). -/
def State.dawnSlots (s : State) (t : Team) (img time : Nat) (saved : Bool) : State :=
  match tget s.clusters t.cluster with
  | none => s
  | some c =>
    if c.accCount = 0 then s
    else
      let s := s.modHc c.hcid fun h => { h with holder := some t.cluster }
      if !saved || c.accDone then s
      else
        let s := (s.chargeSave t.cid t.asid img (accBytes c.accCount)).loadAcc (cidDom t.cid) c.hcid c.accFirst c.accCount img
        { s with clusters := tput s.clusters t.cluster { c with accDone := true, accUntil := s.now + time + 65536 } }

/-- The restore begins: an entry in use closes, the team takes its slots again. -/
def State.dawnBegin (s : State) (tid : Nat) (t : Team) : State :=
  let entry := if s.entryLive tid then t.sus.entry else none
  let s := if entry.isSome then s else s.modCore t.cid fun c => { c with entries := c.entries.map fun e => if e == some tid then none else e }
  let (s, img, saved) := s.imageAcc t
  let time := s.imageTime t
  let s := s.dawnSlots t img time saved
  let slots := ((tget s.clusters t.cluster).map (·.accUntil)).getD 0
  s.takeBack tid { t with sus := { t.sus with st := .restoring (max (s.now + time) slots), accImg := img, accSaved := saved, entry := entry } }

/-- The arrivals that wait for a team, in order: item, kind, arrival. -/
def State.waitingFor (s : State) (tid : Nat) : List (Nat × Nat × Arrival) :=
  s.work.filterMap fun w =>
    match w.job with
    | .arrival _ x k a => if x == tid then some (w.id, k, a) else none
    | _ => none

/-- The restore ends: image, buffer, arrivals that waited, deferred faults. Under a new reason the groups stay halted (R330). -/
def State.dawnEnd (s : State) (tid : Nat) (t : Team) : State :=
  let s := s.restoreTeam tid t
  let late := s.waitingFor tid
  let s := t.sus.buffer.foldl (fun s a => s.applyArrival 0 tid a) s
  let s := late.foldl (fun s (id, _, a) => (s.delWork id).applyArrival 0 tid a) s
  match s.team tid with
  | none => s
  | some t =>
    let d := cidDom t.cid
    let gids := (s.teamGroups t).map fun (i, _) => t.gid i
    let faults := sumOf (gids.map fun gid => ((s.group gid).map (·.defCount)).getD 0)
    let s := gids.foldl (fun s gid => s.wakeGroup gid) s
    let held := s.reasonHolds t.asid d && (!isDcc t.cid || s.haltsDcc t.asid d)
    let s := if held then gids.foldl (fun s gid => s.haltGroup gid) s else s
    let s := match t.sus.entry with
      | some i => s.modCore t.cid fun c => { c with entries := if c.entries.getD i none == some tid then c.entries.set i none else c.entries }
      | none => s
    let kinds := late.foldl (fun k (_, x, _) => k ||| kindBit x) t.sus.kinds
    s.putTeam tid { t with sus := { t.sus with
      st := .present, entry := none, dawns := (t.sus.dawns + 1) % 2 ^ 32,
      landed := sumOf (t.sus.buffer.map Arrival.count) + sumOf (late.map fun (_, _, a) => a.count), kinds := kinds, deferred := min 0xFFFF faults,
      buffer := [], dawnAsked := false, wanted := false, mark := s.uid } }

/-- DAWN (R342, R343): begins when the team's place is free, and ends when the last row is restored. -/
def execDawn (tid : Nat) (s : State) : Out :=
  .next (match s.team tid with
    | none => s
    | some t =>
      if s.dawnCan t then s.dawnBegin tid t
      else if s.dawnOver t then
        let s := s.dawnEnd tid t
        let d := cidDom t.cid
        let s := if s.reasonHolds t.asid d && !s.inDawn t.asid d then s.duskAgain t.asid d else s
        s.settleAsks t.asid
      else s)

/-- Whether an arrival for a closing entry can enter the landing buffer (R343). -/
def State.bufferReady (s : State) (w : Work) : Bool :=
  match w.job with
  | .arrival _ tid _ _ => match s.team tid with
    | some t => (match t.sus.st with
      | .restoring _ => true
      | _ => false) && decide (sumOf (t.sus.buffer.map Arrival.count) < 64)
    | none => false
  | _ => false

/-- LANDING_BUFFER_ARRIVAL (R343). -/
def execLandingBufferArrival (id : Nat) (s : State) : Out :=
  s.serve id State.bufferReady fun w =>
    match w.job with
    | .arrival _ tid kind a =>
      (s.delWork id).modTeam tid fun t => { t with sus := { t.sus with buffer := t.sus.buffer ++ [a], kinds := t.sus.kinds ||| kindBit kind } }
    | _ => s

end Sys2Proof.Machine
end

