-- ==== Sys2Proof/Machine/Power.lean ====
section
/-! DEFINITION. Clocks, metering, energy, sensors, thermal allowance, refresh, and parts retired or marked (R266, R325, R352-R362, R376). -/

namespace Sys2Proof.Machine

/-! Cluster clocks (R352, R353). -/

/-- Whether the pulse of this clock passes to a core: a DCC runs at the domain clock. -/
def State.pulsed (s : State) (cid : Nat) : Bool := isDcc cid || (s.hc (cidHcid cid)).ppat.testBit (s.now % 16)

/-- A cluster at the end of clock now: a pulse that did not pass is counted, and a new pattern begins at slot 0. -/
def Hc.endClock (h : Hc) (now : Nat) : Hc :=
  let h := if h.ppat.testBit (now % 16) then h else { h with lost := h.lost + 1 }
  match h.ppatNew with
  | some p => if (now + 1) % 16 = 0 then { h with ppat := p, ppatNew := none } else h
  | none => h

def State.endClusterClocks (s : State) : State := { s with hcs := s.hcs.map fun ((k, h) : Nat × Hc) => (k, h.endClock s.now) }

/-! What is counted clock by clock. -/

/-- Every group slot that is occupied in this clock (R356). -/
def State.countSlots (s : State) : State :=
  s.groups.foldl (fun s (gid, g) =>
    if gid < 2 ^ 32 ∧ isDcc (gidCid gid) = false then
      s.modHc (cidHcid (gidCid gid)) fun h => { h with slotClk := tput h.slotClk (s.asidOf g) (tgetD h.slotClk (s.asidOf g) 0 + 1) }
    else s) s

/-- The core and context of a request that waits at its core for the next interval (R355). -/
def Job.requester : Job → Option (Nat × Nat)
  | .fill c _ a _ _ => some (c, a)
  | .read r => some (r.core, r.asid)
  | .write r => some (r.core, r.asid)
  | .atomic a => some (a.core, a.asid)
  | .bank b => some (b.core, b.asid)
  | _ => none

/-- Something of the context is held in the domain, for these reasons (R362). -/
def State.deny (s : State) (asid d bits : Nat) : State :=
  s.modCtx asid fun c => { c with denied := tput c.denied d (tgetD c.denied d 0 ||| bits) }

/-- Whether a copy has a line to ask for that is held at its core (R355). -/
def State.copyBlocked (s : State) (c : CopyReq) : Bool :=
  s.heldBy c.core c.asid && (!c.again.isEmpty || decide (c.next < c.flits) || (c.isDsm && !(c.dueLines s.now).isEmpty))

/-- The holds of this clock: placements (R327, R328) and requests (R355): those that wait, and those that a copy or a matrix operation would make
next. -/
def State.noteHolds (s : State) : State :=
  let s := s.pool.foldl (fun s k => match tget s.nodes k with
    | some n => (s.placeHeld n).foldl (fun s (d, b) => s.deny n.asid d b) s
    | none => s) s
  let s := s.work.foldl (fun s w =>
    match w.job with
    | .copy c => if s.copyBlocked c then s.deny c.asid (cidDom c.core) 2 else s
    | .bankDone b _ _ _ => if b.owe = 0 then s else s.deny b.asid (cidDom b.core) 2
    | j => match j.requester with
      | some (c, a) => if w.wait.isSome then s.deny a (cidDom c) 2 else s
      | none => s) s
  s.groups.foldl (fun s (gid, g) =>
    let h := cidHcid (gidCid gid)
    let asks := fun (transfer : Bool) => decide ((s.hc h).unitBusy transfer ≤ s.hclk h) && (g.eligibleOps (s.hclk h) transfer).any fun m => m.kind.requests
    let left := g.mq.any fun m => !m.left.isEmpty && m.parked.isNone
    if !g.mq.isEmpty && s.heldBy (gidCid gid) (s.asidOf g) && (left || asks false || asks true) then s.deny (s.asidOf g) (cidDom (gidCid gid)) 2 else s) s

/-- Lines of a bank operation that are still to be counted: as many as this interval lets pass (R355, R370). -/
def State.payOwed (s : State) (id : Nat) (b : BankReq) (fl : Flags) (far : Bool) (wts : Nat) : State :=
  let (s, left) := s.chargeSome b.core b.asid b.owe
  ({ s with work := s.work.map fun x => if x.id == id then { x with job := .bankDone { b with owe := left } fl far wts } else x } : State).inflMod b.core id
    fun e => some { e with remain := min left e.lines }

/-- A new interval: the requests that wait are arbitrated again, oldest first; those within the cap and budget set out (R355). -/
def State.letIn (s : State) : State :=
  s.work.foldl (fun s w =>
    match w.wait, w.job.requester, w.job with
    | some dt, some (c, a), _ =>
      if s.heldBy c a then s
      else
        let s := s.charge c a w.job.meshBytes
        { s with work := s.work.map fun x => if x.id == w.id then ⟨w.id, s.arrivesAt w.id w.job (s.now + dt), w.job, none⟩ else x }
    | _, _, .bankDone b fl far wts => if b.owe = 0 then s else s.payOwed w.id b fl far wts
    | _, _, _ => s) s

/-! Energy (R356). -/

/-- Charge energy, in units of 2^-20 µJ: to ASID 0 where the context is gone. -/
def State.chargeEnergy (s : State) (asid n : Nat) : State :=
  let a := if (s.ctx asid).isSome then asid else 0
  s.modCtx a fun c =>
    let f := c.frac + n
    { c with energy := min (2 ^ 64 - 1) (c.energy + f / 2 ^ 20), frac := f % 2 ^ 20, window := c.window + f / 2 ^ 20 }

/-- Split an energy in proportion to the counts; with none, ASID 0 is charged. -/
def State.splitBy (s : State) (e : Nat) (counts : Tbl Nat) : State :=
  let total := sumOf (counts.map (·.2))
  if total = 0 then s.chargeEnergy 0 e else counts.foldl (fun s (a, k) => s.chargeEnergy a (e * k / total)) s

/-- ENERGY_SPLIT for interval n. -/
def State.splitEnergy (s : State) (n : Nat) : State :=
  let s := (List.range 768).foldl (fun s h => s.splitBy (Config.clusterEnergy h n) (s.hc h).slotClk) s
  (List.range 64).foldl (fun s d => s.splitBy (Config.domainEnergy d n) (s.dom d).counts) s

/-- A context's accounts at the end of an interval (R354, R362). -/
def Ctx.endInterval (c : Ctx) : Ctx :=
  { c with
    ubytes := c.bytes / 1024, bytes := 0, denied := [],
    throttle := c.denied.foldl (fun t (d, b) => let (st, n) := tgetD t d (0, 0); tput t d (st ||| b, n + 1)) c.throttle }

/-- METERING_INTERVAL_END (R354-R356, R362). -/
def execMeteringIntervalEnd (s : State) : Out :=
  .next (let s := s.splitEnergy (s.now / 1500)
    { s with
      ctxs := s.ctxs.map fun ((a, c) : Nat × Ctx) => (a, c.endInterval)
      hcs := s.hcs.map fun ((k, h) : Nat × Hc) => (k, { h with bytes := 0, slotClk := [] })
      doms := s.doms.map fun ((k, x) : Nat × Dom) => (k, { x with counts := [] }) }.letIn)

/-- The throttle notices of a context (R362). -/
def State.sendNotices (s : State) (asid : Nat) (t : Tbl (Nat × Nat)) : State :=
  t.foldl (fun s (d, st, n) => s.emit d ⟨asid, 0, d, 3, colophonBody 0xFFFFFFFF 3 st d n 0 0, none, false⟩) s

/-- ENERGY_WINDOW_END (R356, R362). -/
def execEnergyWindowEnd (s : State) : Out :=
  .next (let notices := s.ctxs.map fun ((a, c) : Nat × Ctx) => (a, c.throttle)
    let s := { s with ctxs := s.ctxs.map fun ((a, c) : Nat × Ctx) => (a, { c with uenergy := min 0xFFFFFFFF c.window, window := 0, throttle := [] }) }
    notices.foldl (fun s (a, t) => s.sendNotices a t) s)

/-! Sensors and thermal allowance (R358, R359). -/

/-- SENSOR_UPDATE (R358). -/
def execSensorUpdate (d c : Nat) (die : BitVec 8) (dram : List (BitVec 8)) (s : State) : Out :=
  .next (if d < 64 ∧ c < 12 then s.modHc (12 * d + c) fun h => { h with die := die, dram := (List.range 4).map fun i => dram.getD i 0 } else s)

/-- The highest of the DRAM sensors over a cluster. -/
def Hc.hottestDram (h : Hc) : Int := h.dram.foldl (fun m b => max m b.toInt) (-128)

/-- A_c of a refill: min(255, 8 × max(0, min(Hd, Hm))). -/
def Hc.allowance (h : Hc) : Nat := min 255 (8 * (min (105 - h.die.toInt) (85 - h.hottestDram)).toNat)

/-- TAL_REFILL (R359): firmware refills at the basic level. -/
def execTalRefill (d : Nat) (s : State) : Out :=
  .next (if (s.dom d).powctl then s
    else
      let hs := (List.range 12).map fun c => (s.hc (12 * d + c)).allowance
      s.modDom d fun x => { x with tal := hs, talAt := some s.now })

/-- A write of the allowances (R359). -/
def State.writeTal (s : State) (d v : Nat) : State :=
  s.modDom d fun x => { x with tal := (List.range 12).map fun c => v / 256 ^ c % 256, talAt := some s.now }

/-- TAL (R359, R360). -/
def execTal (d : Nat) (v : BitVec 128) (s : State) : Out := .next (s.writeTal d v.toNat)

/-! Pulse patterns (R352, R360, R361). -/

/-- A write of a pattern: zero is discarded. -/
def State.writePpat (s : State) (h v : Nat) : State := if v % 2 ^ 16 = 0 then s else s.modHc h fun x => { x with ppatNew := some (v % 2 ^ 16) }

/-- PPAT (R352). -/
def execPpat (d c : Nat) (v : Word) (s : State) : Out := .next (if c < 12 then s.writePpat (12 * d + c) v.toNat else s)

/-- All pulses but k evenly spaced ones, the first at slot p (log 11). -/
def withoutPulses (p k : Nat) : Nat :=
  let gone := (List.range k).map fun i => (p + 16 * i / k) % 16
  maskBits ((List.range 16).filter fun i => !gone.contains i)

/-- Firmware's write for one cluster: one pulse fewer per degree from 100 on, at least 8; 0x0101 from 112 on (R361, log 11). -/
def State.setPattern (s : State) (d c : Nat) : State :=
  let t := (s.hc (12 * d + c)).die.toInt
  let expert := (s.dom d).powctl
  if t ≥ 112 then s.writePpat (12 * d + c) 0x0101
  else if expert then s
  else if t < 100 then s.writePpat (12 * d + c) 0xFFFF
  else s.nextFree.writePpat (12 * d + c) (withoutPulses (Config.patPhase s.freeUsed) (min 8 (t - 99).toNat))

/-- PAT_UPDATE (R361). -/
def execPatUpdate (d : Nat) (s : State) : Out := .next ((List.range 12).foldl (fun s c => s.setPattern d c) s)

/-- POWCTL is written; expert control given up, the caps are unlimited again (R13, R355). -/
def State.writePowctl (s : State) (d v : Nat) : State :=
  let s := if (s.dom d).powctl && v % 2 == 0 then (List.range 12).foldl (fun s c => s.modHc (12 * d + c) fun h => { h with clbw := 0 }) s else s
  s.modDom d fun x => { x with powctl := v % 2 == 1 }

/-- POWCTL (R360). -/
def execPowctl (d : Nat) (v : Word) (s : State) : Out := .next (s.writePowctl d v.toNat)

/-! Refresh (R266). -/

/-- What every DRAM sensor of a domain last read. -/
def State.dramSensors (s : State) (d : Nat) : List Int := (List.range 12).flatMap fun c => (s.hc (12 * d + c)).dram.map (·.toInt)

/-- REFRESH_INTERVAL_START (R266). -/
def execRefreshIntervalStart (d : Nat) (s : State) : Out :=
  .next (let x := s.dom d
    if s.now < x.refStart + x.refLen then s
    else
      let ts := s.dramSensors d
      let len := if ts.any (fun t => decide (t > 85)) then 2925 else if ts.all (fun t => decide (t ≤ 83)) then 5850 else x.refLen
      s.putDom d { x with refStart := s.now, refLen := len })

/-- REFRESH_WINDOW (R266): the channel is in refresh for 525 clk. -/
def execRefreshWindow (d ch : Nat) (s : State) : Out :=
  .next (s.modDom d fun x => { x with refreshing := (x.refreshing.filter fun (c, e) => c != ch && decide (s.now < e)) ++ [(ch, s.now + 525)] })

/-! Errors that the codes of the stores find (R267, R376, log 17). -/

/-- One error: where the code corrects it, it is only counted. An uncorrectable one poisons a slice or DSM line; elsewhere the word reads as zero
from now on, with PSN for the reader, until it is written. -/
def State.upset (s : State) (u : Config.Upset) (bad : Bool) : State :=
  let store := fun (s : State) (d : Nat) => s.countError d (if bad then 5 else 4)
  let inGroup := fun (gid : Nat) (n : RegName) (l : Nat) =>
    if gid < 2 ^ 32 && (s.group gid).isSome then
      store (s.modGroup gid fun g => if bad then { (g.writeBank n (BitVec.ofNat 32 (2 ^ l)) zeroLanes) with bad := (n, l) :: (g.mend n (BitVec.ofNat 32 (2 ^ l))).bad } else g)
        (cidDom (gidCid gid))
    else s
  match u with
  | .frame d line =>
    match s.sline d line with
    | none => s
    | some x =>
      if bad then ((s.putSline d line { x with desc := poisonDesc x.desc }).countError d 3).modDom d fun y => { y with lastUe := 64 * line }
      else s.countError d 2
  | .vreg gid r l => if l < 32 ∧ r < ((s.group gid).map (·.gsize)).getD 0 then inGroup gid (.vec r) l else s
  | .sreg gid r => if r < ((s.group gid).map (·.ssize)).getD 0 then inGroup gid (.scal r) 0 else s
  | .spad tid w =>
    match s.team tid with
    | none => s
    | some t =>
      if w % 4 = 0 ∧ w < t.spBytes then
        store (if bad then s.putTeam tid { (t.spWrite w [0, 0, 0, 0]) with bad := w :: (t.spWrite w [0, 0, 0, 0]).bad } else s) (cidDom t.cid)
      else s
  | .acc h slot i j =>
    if h < 768 ∧ slot < 32 ∧ i < 256 ∧ j < 256 then
      store (if bad then s.modHc h fun x => { (x.setAcc slot i j 0) with badAcc := accKey slot i j :: (x.setAcc slot i j 0).badAcc } else s) (h / 12)
    else s
  | .bword h w =>
    if h < 768 ∧ w < 8 * 65536 then
      store (if bad then s.modHc h fun x => { x with
        bstore := (List.range 8).foldl (fun t i => tputD t (8 * w + i) 0 0) x.bstore, badB := w :: x.badB.filter (· != w) } else s) (h / 12)
    else s

/-- What the codes find in this clock. -/
def State.upsetAll (s : State) : State := (Config.upsets s.now).foldl (fun s (u, bad) => s.upset u bad) s

/-! Parts retired or marked (R324, R325, R376). -/

/-- Whether a team occupies the part. -/
def State.partBusy (s : State) (d : Nat) : Part → Bool
  | .core site => s.resident (cidOf d site)
  | .array hc => (s.hc (12 * d + hc)).holder.isSome || s.clusters.any fun (_, c) => c.hcid == 12 * d + hc && c.accCount != 0

def State.partGood (s : State) (d : Nat) : Part → Bool
  | .core site => s.coreGood d site
  | .array hc => s.arrayGood d hc

/-- The retirement that can end now. -/
def State.retireNext (s : State) : Option (Nat × Part) := s.wafer.retiring.find? fun (d, p) => !s.partBusy d p

/-- Clear a part's bit. -/
def Wafer.clearPart (w : Wafer) (d : Nat) : Part → Wafer
  | .core site => { w with cores := tput w.cores d (tgetD w.cores d [] ++ [site]) }
  | .array hc => { w with arrays := tput w.arrays d (tgetD w.arrays d [] ++ [hc]) }

/-- TOPOLOGY_RETIRE (R325): GEN is odd from the first to the last of the steps; the bit is cleared once no team occupies the part. -/
def execTopologyRetire (d : Nat) (p : Part) (s : State) : Out :=
  .next (let w := s.wafer
    if d ≥ 64 || !s.partGood d p then s
    else if !w.retiring.contains (d, p) then s.putWafer { w with gen := if w.gen % 2 = 0 then w.gen + 1 else w.gen, retiring := w.retiring ++ [(d, p)] }
    else if s.partBusy d p then s
    else
      let left := w.retiring.filter (· != (d, p))
      s.putWafer { (w.clearPart d p) with retiring := left, gen := if left.isEmpty then w.gen + 1 else w.gen })

/-- MARK_DEGRADED (R324, R376). -/
def execMarkDegraded (d : Nat) (l2 : Bool) (s : State) : Out :=
  .next (let w := s.wafer
    if d ≥ 64 then s
    else if l2 then s.putWafer { w with l2st := tput w.l2st d 1, gen := w.gen + 2 }
    else if tgetD w.dramst d 0 = 2 then s
    else s.putWafer { w with dramst := tput w.dramst d 1, gen := w.gen + 2 })

end Sys2Proof.Machine
end

