-- ==== Sys2Proof/Machine/Debug.lean ====
section
/-! DEFINITION. Stop sites, stepping, double-fault actions, sampling, watchpoints and the lane-cycle record (R363-R368, R372, R375). -/

namespace Sys2Proof.Machine

/-! Stop sites (R363, R364). -/

/-- Bytes of a context's memory, none where a page is absent or denied or is no memory: no fault is raised. -/
def State.quietRead (s : State) (cid asid va : Nat) : Nat → State × Option (List Byte)
  | 0 => (s, some [])
  | n + 1 =>
    let d := cidDom cid
    let (s, x) := s.translate cid asid (pageOf va) .read (asid == 0)
    match x with
    | .ok pa _ _ _ =>
      if !s.queueMem pa then (s, none)
      else
        let (s, bs) := s.engineReadBytes d (pa + va % 4096) 1
        let (s, rest) := s.quietRead cid asid (va + 1) n
        (s, rest.map fun r => bs ++ r)
    | _ => (s, none)

def noOrdinal : Nat := 0xFFFF

/-- Binary search of entries [lo, hi) of the map for an IOFS. -/
def State.searchMap (s : State) (cid asid map iofs : Nat) : Nat → Nat → Nat → State × Nat
  | 0, _, _ => (s, noOrdinal)
  | fuel + 1, lo, hi =>
    if hi ≤ lo then (s, noOrdinal)
    else
      let mid := (lo + hi) / 2
      let (s, b) := s.quietRead cid asid (map + 8 + 16 * mid) 8
      match b with
      | none => (s, noOrdinal)
      | some b =>
        let x := leVal (slice b 0 4)
        if x == iofs then (s, leVal (slice b 4 2))
        else if x < iofs then s.searchMap cid asid map iofs fuel (mid + 1) hi
        else s.searchMap cid asid map iofs fuel lo mid

/-- The ordinal of the instruction at pc of a team's kernel (R364). -/
def State.stopOrdinal (s : State) (t : Team) (pc : Nat) : State × Nat :=
  if t.stopmap = 0 || pc < t.entry || (pc - t.entry) % 12 != 0 then (s, noOrdinal)
  else
    let (s, h) := s.quietRead t.cid t.asid t.stopmap 4
    match h with
    | none => (s, noOrdinal)
    | some h => s.searchMap t.cid t.asid t.stopmap ((pc - t.entry) / 12) 17 0 (min 65535 (leVal h))

/-! The debug block (R365-R367). -/

/-- Groups of the context at a core site and slot, in any domain (log 37). -/
def State.namedGroups (s : State) (asid site slot : Nat) : List (Nat × Group) :=
  s.groups.filter fun (gid, g) => gid < 2 ^ 32 && cidSite (gidCid gid) == site && gidSlot gid == slot && s.asidOf g == asid && !g.retired

/-- Arm or disarm groups. -/
def State.arm (s : State) (gids : List Nat) (on : Bool) : State :=
  gids.foldl (fun s gid => s.modGroup gid fun g => { g with sched := { g.sched with armed := on } }) s

def State.groupsOf (s : State) (asid : Nat) : List Nat := (s.groups.filter fun (_, g) => s.asidOf g == asid && !g.retired).map (·.1)

def State.debugOn (s : State) (asid : Nat) : Bool := ((s.ctx asid).map fun c => c.dbgctl.getLsbD 0).getD false

/-- A write of STEP: without EN it is discarded (R367). -/
def State.writeStep (s : State) (asid : Nat) (v : DWord) : State :=
  if !s.debugOn asid then s
  else
    let s := s.modCtx asid fun c => { c with stepReg := v &&& 0xFFFF }
    let n := v.toNat
    if !v.getLsbD 15 then s
    else if v.getLsbD 14 then s.arm (s.groupsOf asid) true
    else s.arm ((s.namedGroups asid (n % 256) (n / 256 % 64)).map (·.1)) true

/-- STEP (R367). -/
def execStep (asid : Nat) (v : BitVec 64) (s : State) : Out := .next (s.writeStep asid v)

/-- A write of DBGCTL: EN = 0 disarms every armed group (R365, R367). -/
def State.writeDbgctl (s : State) (asid : Nat) (v : Word) : State :=
  let s := s.modCtx asid fun c => { c with dbgctl := v &&& 7 }
  if v.getLsbD 0 then s else s.arm (s.groupsOf asid) false

/-- DBGCTL (R365). -/
def execDbgctl (asid : Nat) (v : Word) (s : State) : Out := .next (s.writeDbgctl asid v)

/-! Double-fault actions (R288, R366). -/

/-- Whether a double-faulted group's record is still held. -/
def State.recordHeld (s : State) (gid : Nat) : Bool := (s.dom (cidDom (gidCid gid))).held.any fun c => c.gid == some gid

def Group.doubleFaulted (g : Group) : Bool := g.park == .dead && !g.retired

/-- Retire: an EXIT of every present lane. -/
def State.retireDead (s : State) (gid : Nat) (g : Group) : State := (s.putGroup gid (g.drain.leaveLanes g.exm)).retire gid

/-- Return as RTE does: a save area that cannot be read yet is waited for, and a return that would double-fault leaves the group halted. -/
def State.returnDead (s : State) (gid : Nat) (g : Group) : State :=
  let again := fun (s : State) => s.modGroup gid fun g => { g with sched := { g.sched with dfact := 2 } }
  s.returnFrom gid { g with sched := { g.sched with dfact := 0 } } false again fun s _ _ => s.modGroup gid fun g => { g with sched := { g.sched with dfact := 0 } }

/-- Whether a group's DFACT must wait: for its record, or for dawn. -/
def State.dfactWaits (s : State) (gid : Nat) (g : Group) : Bool := s.recordHeld gid || g.halted

/-- An action of DFACT on one group: 1 retire, 2 return. -/
def State.dfact (s : State) (act gid : Nat) : State :=
  match s.group gid with
  | none => s
  | some g =>
    if !g.doubleFaulted then s
    else if s.dfactWaits gid g then s.putGroup gid { g with sched := { g.sched with dfact := act } }
    else if act = 1 then s.retireDead gid { g with sched := { g.sched with dfact := 0 } } else s.returnDead gid g

def State.dfactNamed (s : State) (act asid site slot : Nat) : State :=
  (s.namedGroups asid site slot).foldl (fun s (gid, _) => s.dfact act gid) s

/-- DFACT_RETIRE (R366). -/
def execDfactRetire (asid site slot : Nat) (s : State) : Out := .next (s.dfactNamed 1 asid site slot)
/-- DFACT_RETURN (R366). -/
def execDfactReturn (asid site slot : Nat) (s : State) : Out := .next (s.dfactNamed 2 asid site slot)

/-- A write of DFACT (R365). -/
def State.writeDfact (s : State) (asid v : Nat) : State :=
  match v / 2 ^ 14 % 4 with
  | 1 => s.dfactNamed 1 asid (v % 256) (v / 256 % 64)
  | 2 => s.dfactNamed 2 asid (v % 256) (v / 256 % 64)
  | _ => s

/-! Sampling (R368). -/

def Ctx.sampleEvery (c : Ctx) : Nat := max 256 c.sint

/-- Whether a context's groups on a core are sampled in this clock. -/
def State.sampling (s : State) (cid : Nat) (c : Ctx) : Bool := c.dbgctl.getLsbD 1 && s.cclk cid % c.sampleEvery == 0

/-- The 16 bytes of a sample (log 38). -/
def sampleBytes (asid cid slot nid ordinal now : Nat) : List Byte :=
  leBytes 2 asid ++ leBytes 1 (cidSite cid) ++ leBytes 1 slot ++ leBytes 4 nid ++ leBytes 2 ordinal ++ leBytes 2 0 ++ leBytes 4 now

/-- The sample of one group. -/
def State.sampleGroup (s : State) (gid : Nat) (g : Group) : State :=
  match s.teamOf g, s.ctx (s.asidOf g) with
  | some t, some c =>
    let (s, ord) := match g.sched.lastStop with
      | some pc => s.stopOrdinal t pc
      | none => (s, noOrdinal)
    let s := s.engineWriteBytes (cidDom t.cid) (c.sring + 16 * (c.shead % 2048)) (sampleBytes t.asid t.cid (gidSlot gid) (t.nid % 2 ^ 32) ord s.now)
    s.modCtx t.asid fun c => { c with shead := (c.shead + 1) % 2 ^ 32 }
  | _, _ => s

/-- The running groups of a core whose contexts are sampled in this clock. -/
def State.toSample (s : State) (cid : Nat) : List (Nat × Group) :=
  s.groups.filter fun (gid, g) => gid < 2 ^ 32 && gidCid gid == cid && !g.retired && !g.halted && !(g.park == .dead) &&
    ((s.ctx (s.asidOf g)).map (s.sampling cid)).getD false

/-- SAMPLE_WRITE (R368). -/
def execSampleWrite (cid : Nat) (s : State) : Out := .next ((s.toSample cid).foldl (fun s (gid, g) => s.sampleGroup gid g) s)

/-! Watchpoints (R372). -/

/-- Change a watchpoint; reports of it already travelling are discarded. -/
def State.setWatch (s : State) (cid n : Nat) (w : Watch) : State :=
  let mine := fun (j : Job) => match j with
    | .watchReport c k _ _ _ _ _ => c == cid && k == n
    | _ => false
  { (s.modCore cid fun c => { c with watch := c.watch.set n w }) with work := s.work.filter fun w => !mine w.job }

/-- The register as written, reserved bits zero. -/
def watchRaw (v : BitVec 128) (en : Bool) : BitVec 128 :=
  BitVec.ofNat 128 (v.toNat / 2 ^ 64 * 2 ^ 64 + bool1 en * 2 ^ 63 + bits v.toNat 62 51 * 2 ^ 51 + bits v.toNat 47 6 * 2 ^ 6)

def isGeneral (cid n : Nat) : Bool := !isDcc cid && decide (n < 4)

/-- A write with EN = 0. -/
def State.disarmWatch (s : State) (cid n : Nat) (v : BitVec 128) : State :=
  if isGeneral cid n then s.setWatch cid n { raw := watchRaw v false, live := watchRaw v false } else s

/-- A write with EN = 1: the page is translated and installation begins, unless the range or the slot or the page forbids it. -/
def State.armWatch (s : State) (cid n : Nat) (v : BitVec 128) : State :=
  if !isGeneral cid n then s
  else
    let w : Watch := { raw := watchRaw v true, live := watchRaw v true }
    let va := watchVa w
    match s.group (gidOf cid (watchSlot w)) with
    | none => s.disarmWatch cid n v
    | some g =>
      let asid := s.asidOf g
      if va % 4096 / 64 + watchLines w > 64 then s.disarmWatch cid n v
      else
        let (s, x) := s.translate cid asid (pageOf va) .read true
        match x with
        | .ok pa _ _ _ =>
          let until' := s.now + min 256 (1 + Config.extraDelay s.uid)
          s.setWatch cid n { w with asid := asid, owner := gidOf cid (watchSlot w), line := (pa + va % 4096) / 64, installing := some until' }
        | _ => s.disarmWatch cid n v

/-- WATCHPOINT_ARM (R372). -/
def execWatchpointArm (cid n : Nat) (v : BitVec 128) (s : State) : Out := .next (s.armWatch cid n v)

/-- Whether a watchpoint's installation is over. -/
def Watch.installed (w : Watch) (now : Nat) : Bool :=
  match w.installing with
  | some t => decide (t ≤ now)
  | none => false

/-- WATCHPOINT_ARM_COMPLETE (R372). -/
def execWatchpointArmComplete (cid n : Nat) (s : State) : Out :=
  .next (let w := (s.core cid).watch.getD n {}
    if w.installed s.now then s.modCore cid fun c => { c with watch := c.watch.set n { w with armed := true, installing := none } } else s)

/-- WATCHPOINT_DISARM (R372). -/
def execWatchpointDisarm (cid n : Nat) (v : BitVec 128) (s : State) : Out := .next (s.disarmWatch cid n v)

/-! The lane-cycle record (R375). -/

/-- The class of each lane of an issue: absent, masked by divergence, predicated off or active, counted by the register's order. -/
def Group.laneClasses (g : Group) (h : Hdr) : List Nat :=
  let run := g.runMask h
  let count := fun (p : Nat → Bool) => ((List.range 32).filter p).length
  let absent := fun (l : Nat) => !g.exm.getLsbD l
  let masked := fun (l : Nat) => g.exm.getLsbD l && g.cntOf l != 0
  let off := fun (l : Nat) => g.exm.getLsbD l && g.cntOf l == 0 && !run.getLsbD l
  [count run.getLsbD, count masked, count off, count absent]

def addCounts (a b : List Nat) : List Nat := a.mapIdx fun i x => x + b.getD i 0

/-- Count one issue of a group at pc. -/
def State.countIssue (s : State) (gid : Nat) (g : Group) (h : Hdr) : State :=
  let k := g.laneClasses h
  let asid := s.asidOf g
  let pc := g.pc.toNat
  s.modCore (gidCid gid) fun c =>
    let bin := fun (b : Bin) => if b.asid == asid && decide (b.lo ≤ pc) && decide (pc < b.hi) then { b with counts := addCounts b.counts k } else b
    { c with totals := addCounts c.totals (k ++ [1]), bins := c.bins.map bin }

/-- A write of a bin's LO clears its counters. -/
def State.writeBinlo (s : State) (cid i v : Nat) : State :=
  s.modCore cid fun c => { c with bins := c.bins.set i { c.bins.getD i {} with lo := v, counts := [0, 0, 0, 0] } }

/-- BINLO (R375). -/
def execBinlo (cid i : Nat) (v : BitVec 64) (s : State) : Out := .next (s.writeBinlo cid i v.toNat)

end Sys2Proof.Machine
end

