-- ==== Sys2Proof/Machine/Fabric.lean ====
section
/-! DEFINITION. The host ports and wafer links: inbound accesses, outbound completions, links that go down and come up
(R385-R390). -/

namespace Sys2Proof.Machine

/-- A port's number: host ports 0-3, wafer links from 4 on. -/
def portNum : Port → Nat
  | .host n => n
  | .link n => 4 + n

def State.isUp (s : State) : Port → Bool
  | .host n => decide (n < 4) && s.portUp n
  | .link n => decide (n < 32) && s.linkIsUp n

/-- The domain a port hangs from (R380). -/
def portDom (p : Port) : Nat := (portRouter (portNum p)).1

/-! Inbound accesses (R386, R389). -/

/-- Base of the port's inbound window. -/
def State.inboundBase (s : State) : Port → Nat
  | .host n => s.wafer.hwin.getD n 0
  | .link n => s.wafer.pwin.getD n 0

/-- Whether an address outside the registers accepts an inbound access: what came through a link goes on through none, nor to the host (R389). -/
def State.inboundAt (s : State) (p : Port) (a : Nat) (write : Bool) : Bool :=
  let host := match p with
    | .host _ => true
    | .link _ => false
  match targetOf a with
  | .dram _ _ => true
  | .dsm d o => decide (o < s.dsmBytes d)
  | .topo _ => !write
  | .host q _ => host && s.portUp q
  | .peer k _ => host && s.linkIsUp k
  | _ => false

/-- Whether an inbound access is not an Unsupported Request: one register whole, or addresses that take it all. -/
def State.inboundOk (s : State) (p : Port) (pa n : Nat) (write : Bool) : Bool :=
  n != 0 && decide (pa + n ≤ 2 ^ 48) &&
    match targetOf pa with
    | .mmio o => (mmioCheck 0 o n true).isNone && o % n == 0
    | _ => (List.range (n / 64 + 2)).all fun k => s.inboundAt p (min (pa + 64 * k) (pa + n - 1)) write

/-- The answer of a request: its data, and whether it was served. -/
def State.reply (s : State) (p : Port) (bs : List Byte) (ok : Bool) : State := s.putWafer { s.wafer with replies := s.wafer.replies ++ [((portNum p), bs, ok)] }

/-- Bytes of one line as a strong system-scope read finds them; a poisoned line reads zero and is counted (R59, R376). -/
def State.inboundLine (s : State) (d pa n : Nat) : State × List Byte :=
  match targetOf pa with
  | .topo o => (s, (List.range n).map fun i => s.topoByte (o + i))
  | _ =>
    let (s, img) := s.scopeRead d (pa / 64) .sys
    if poisoned img.desc then (s.countPoison (cidOf d 144) img, List.replicate n 0) else (s, slice img.data (pa % 64) n)

/-- Bytes of an inbound read. -/
def State.inboundBytes (s : State) (p : Port) (pa n : Nat) : State × List Byte :=
  match targetOf pa with
  | .mmio o =>
    let (s, v) := s.mmioRead (.port (portNum p)) o n
    (s, leBytes n v)
  | _ => (byLines pa (List.replicate n 0)).foldl (fun (acc : State × List Byte) (a, part) =>
      let (s, bs) := acc.1.inboundLine (portDom p) a part.length
      (s, acc.2 ++ bs)) (s, [])

/-- A read of n bytes from physical address pa through a port. -/
def State.inboundReadAt (s : State) (p : Port) (pa n : Nat) : State :=
  if !s.isUp p then s
  else
    if !s.inboundOk p pa n false then s.reply p [] false
    else
      let (s, bs) := s.inboundBytes p pa n
      s.reply p bs true

def State.inboundRead (s : State) (p : Port) (ofs n : Nat) : State := s.inboundReadAt p (s.inboundBase p + ofs) n

/-- Physical address of the MMIO aperture, which BAR0 shows (R7, R385). -/
def mmioBase : Nat := 2 ^ 47 + 2 * 2 ^ 44

/-- Removals of the copies of lines that are under way end at once: a posted write is performed at system scope in its one step (R313, R386). -/
def State.endInvals (s : State) (p : Nat → Bool) : State :=
  s.work.foldl (fun s w =>
    match w.job with
    | .inval l t writer => if p l then (s.invalidate w.id l t writer).delWork w.id else s
    | .invAck l _ _ => if p l then s.delWork w.id else s
    | _ => s) s

/-- A posted write: at the slice, with no core's time; a write to a register is the machine's next step. -/
def State.inboundWriteAt (s : State) (p : Port) (pa : Nat) (data : List Byte) : State :=
  if !s.isUp p || !s.inboundOk p pa data.length true then s
  else
    match targetOf pa with
    | .mmio o => { s with agenda := (s.now, .registerWrite ⟨.port (portNum p), true, 0⟩ o data.length (BitVec.ofNat 64 (leVal data))) :: s.agenda }
    | _ => (s.engineWriteBytes (portDom p) pa data).endInvals fun l => decide (pa / 64 ≤ l) && decide (l ≤ (pa + data.length - 1) / 64)

def State.inboundWrite (s : State) (p : Port) (ofs : Nat) (data : List Byte) : State := s.inboundWriteAt p (s.inboundBase p + ofs) data

def hostAtomBytes : HostAtom → Nat
  | .add32 _ => 4
  | .swap32 _ => 4
  | .cas32 _ _ => 4
  | _ => 8

/-- The value an AtomicOp leaves. -/
def hostAtomNew (op : HostAtom) (m : Nat) : Nat :=
  match op with
  | .add32 v => (m + v.toNat) % 2 ^ 32
  | .add64 v => (m + v.toNat) % 2 ^ 64
  | .swap32 v => v.toNat
  | .swap64 v => v.toNat
  | .cas32 c v => if m = c.toNat then v.toNat else m
  | .cas64 c v => if m = c.toNat then v.toNat else m

/-- An AtomicOp, on DRAM and DSM only, at the home bank. There it waits, as the step `again`, while an SC atomic has begun on its line (R165). -/
def State.inboundAtomicAt (s : State) (p : Port) (pa : Nat) (op : HostAtom) (again : Instr) : State :=
  let n := hostAtomBytes op
  let plain := match targetOf pa with
    | .dram _ _ => true
    | .dsm _ _ => true
    | _ => false
  if !s.isUp p then s
  else if !plain || pa % n != 0 || !s.inboundOk p pa n true then s.reply p [] false
  else if s.lineLocked 0 (pa / 64) then { s with agenda := (s.now + 1, again) :: s.agenda }
  else
    let line := pa / 64
    let h := lineHome line
    let s := ((s.settle line).getOwned h line).endInvals (· == line)
    match s.sline h line with
    | none => s
    | some x =>
      let m := if poisoned x.desc then 0 else leVal (slice x.data (pa % 64) n)
      let s := (s.countPoison (cidOf h 144) x.img).bankWrite h line (byteMask (pa % 64) (leBytes n (hostAtomNew op m))) none
      s.reply p (leBytes n m) true

/-- The address of an access through a window of a host port: the registers through BAR0, whatever HWIN holds (R8, R385: log 81). -/
def State.barAt (s : State) (port : Nat) : HostBar → Nat
  | .bar0 o => mmioBase + o.toNat
  | .bar2 o => s.inboundBase (.host port) + o.toNat

/-- HOST_INBOUND_READ (R386); through BAR0 it reads registers, with privileged access. Each request is served in its step, and so none of the 768
that may be outstanding (R385) is. -/
def execHostInboundRead (port : Nat) (ofs : HostBar) (n : Nat) (s : State) : Out := .next (s.inboundReadAt (.host port) (s.barAt port ofs) n)
/-- HOST_INBOUND_WRITE (R386): performed as it arrives; a write with Relaxed Ordering may arrive out of order (log 39). -/
def execHostInboundWrite (port : Nat) (ofs : HostBar) (data : List Byte) (relaxed : Bool) (s : State) : Out :=
  .next (let _ := relaxed
    s.inboundWriteAt (.host port) (s.barAt port ofs) data)
/-- HOST_INBOUND_ATOMIC (R386): on DRAM and DSM only, and so not through BAR0. -/
def execHostInboundAtomic (port : Nat) (ofs : HostBar) (op : HostAtom) (s : State) : Out :=
  .next (s.inboundAtomicAt (.host port) (s.barAt port ofs) op (.hostInboundAtomic port ofs op))

/-- PEER_INBOUND_ACCESS (R389). -/
def execPeerInboundAccess (link : Nat) (ofs : BitVec 38) (acc : PeerAcc) (s : State) : Out :=
  .next (match acc with
    | .read n => s.inboundRead (.link link) ofs.toNat n
    | .write data => s.inboundWrite (.link link) ofs.toNat data
    | .atomic op => s.inboundAtomicAt (.link link) (s.inboundBase (.link link) + ofs.toNat) op (.peerInboundAccess link ofs acc))

/-! Outbound completions (R387, R389). -/

/-- The flush or acknowledgement of a port that has come back. -/
def State.flushNext (s : State) (port : Nat) : Option Work :=
  s.work.find? fun w => match w.job with
    | .flush p => p == port && decide (w.due ≤ s.now)
    | _ => false

/-- The writes of the port posted before it are performed. -/
def State.flushed (s : State) (port : Nat) : State :=
  match s.flushNext port with
  | none => s
  | some w =>
    let mine := fun (p : Posted) => p.port == port && decide (p.id < w.id)
    let s' := (s.posted.filter mine).foldl (fun s p => s.farWrite p.pa p.bytes) s
    { (s'.delWork w.id) with posted := s'.posted.filter fun p => !mine p }

/-- OUTBOUND_FLUSH_COMPLETION (R387). -/
def execOutboundFlushCompletion (port : Nat) (s : State) : Out := .next (if port < 4 then s.flushed port else s)
/-- PEER_WRITE_ACK (R389). -/
def execPeerWriteAck (link : Nat) (s : State) : Out := .next (s.flushed (4 + link))

/-! Links (R388, R390). -/

/-- A read or atomic whose port is down returns zero with poison. -/
def State.failRead (s : State) (gid op : Nat) (lanes : List Nat) : State :=
  s.deliver gid op (lanes.map fun l => (l, [0, 0, 0, 0], flPsn)) 0 false s.now

def State.countDrop (s : State) (port n : Nat) : State :=
  s.putWafer { s.wafer with lnkdrop := s.wafer.lnkdrop.set port (min 0xFFFFFFFF (s.wafer.lnkdrop.getD port 0 + n)) }

/-- Whether a line lies behind the port. -/
def behind (port line : Nat) : Bool := lineIsFar line && farPort (64 * line) == port

/-- The words of a copy that are on their way when a port goes down (R388): those read through it are zero, with PSN, and those to be written through it
are discarded and counted. -/
def State.failCopy (s : State) (port id : Nat) (c : CopyReq) : State :=
  let from' := fun (va : Nat) => !c.fromLocal && match (s.translate c.core c.asid (pageOf va) .read c.priv).2 with
    | .ok pa _ _ _ => behind port ((pa + va % 4096) / 64)
    | _ => false
  let to' := fun (pa : Nat) => !c.toLocal && behind port (pa / 64)
  let lost := { c with moved := c.moved.filter fun (_, _, d, _) => to' d }
  let drops := ((lost.dueLines (c.moved.foldl (fun m (t, _, _, _) => max m t) 0)).map fun (_, m) => (maskRuns m).length).foldl (· + ·) 0
  let words := (c.moved.filter fun (_, _, d, _) => !to' d).map fun (t, a, d, w) => (t, a, d, if from' a then 0 else w)
  let reg := c.kind == .reg && from' c.g
  let met := (c.moved.find? fun (_, a, _, _) => from' a).map fun (_, a, _, _) => a
  let met := if reg then met.orElse fun _ => some c.g else met
  let s := if reg then { s with groups := s.groups.map fun (gid, g) =>
    (gid, { g with vres := g.vres.map fun v => if v.writer == id then { v with vals := v.vals.map fun _ => zeroLanes } else v }) } else s
  (s.countDrop port drops).setCopy id { c with moved := words, psn := c.psn.orElse fun _ => met }

/-- One request outstanding at the port that goes down. -/
def State.failJob (s : State) (port : Nat) (w : Work) : State :=
  match w.job with
  | .read r => if behind port r.line then (s.delWork w.id).failRead r.gid r.op (r.lanes.map (·.lane)) else s
  | .atomic a =>
    if !behind port a.line then s
    else
      let s := s.delWork w.id
      let s := if a.ret then s.failRead a.gid a.op (a.lanes.map (·.lane)) else s.poisonFor a.gid a.asid 0
      s.ticketDone a
  | .write r => if behind port r.line then (s.delWork w.id).countDrop port (maskRuns r.bytes).length else s
  | .flush p => if p == port then s.delWork w.id else s
  | .copy c => s.failCopy port w.id c
  | _ => s

/-- The port or link goes down (R388): each outstanding request completes, posted writes are discarded and counted. -/
def State.takeDown (s : State) (p : Port) : State :=
  if !s.isUp p then s
  else
    let w := match p with
      | .host n => { s.wafer with hostup := s.wafer.hostup - 2 ^ n }
      | .link n => { s.wafer with linkup := s.wafer.linkup - 2 ^ n }
    let s := s.putWafer w
    let s := s.work.foldl (fun s w => s.failJob (portNum p) w) s
    let gone := fun (x : Posted) => x.port == (portNum p)
    let s := s.countDrop (portNum p) (s.posted.filter fun x => gone x && !x.bytes.isEmpty).length
    { s with posted := s.posted.filter fun x => !gone x }

/-- LINK_DOWN (R388). -/
def execLinkDown (p : Port) (s : State) : Out := .next (s.takeDown p)

/-- LINK_CRC_REPLAY (R390): flits replayed are counted; a recovery that failed is counted and takes the link down. -/
def execLinkCrcReplay (link flits : Nat) (recovered : Bool) (s : State) : Out :=
  .next (if link ≥ 32 || !s.linkIsUp link then s
    else
      let w := s.wafer
      let s := s.putWafer { w with lreplay := w.lreplay.set link (min (2 ^ 64 - 1) (w.lreplay.getD link 0 + flits)) }
      if recovered then s
      else (s.putWafer { s.wafer with lfail := s.wafer.lfail.set link (min 0xFFFFFFFF (s.wafer.lfail.getD link 0 + 1)) }).takeDown (.link link))

/-- LINK_UP (R323). -/
def execLinkUp (p : Port) (s : State) : Out :=
  .next (if s.isUp p then s
    else
      match p with
      | .host n => if n < 4 then s.putWafer { s.wafer with hostup := s.wafer.hostup + 2 ^ n } else s
      | .link n => if n < 32 then s.putWafer { s.wafer with linkup := s.wafer.linkup + 2 ^ n } else s)

end Sys2Proof.Machine
end

