-- ==== Sys2Proof/Machine/Boot.lean ====
section
/-! DEFINITION. Boot, attestation and alarms, and the life of a context (R13, R58, R322, R377, R378). -/

namespace Sys2Proof.Machine

/-! SHA-256, which R377 names (log 14). -/

def shaK : List Word :=
  [0x428A2F98, 0x71374491, 0xB5C0FBCF, 0xE9B5DBA5, 0x3956C25B, 0x59F111F1, 0x923F82A4, 0xAB1C5ED5,
   0xD807AA98, 0x12835B01, 0x243185BE, 0x550C7DC3, 0x72BE5D74, 0x80DEB1FE, 0x9BDC06A7, 0xC19BF174,
   0xE49B69C1, 0xEFBE4786, 0x0FC19DC6, 0x240CA1CC, 0x2DE92C6F, 0x4A7484AA, 0x5CB0A9DC, 0x76F988DA,
   0x983E5152, 0xA831C66D, 0xB00327C8, 0xBF597FC7, 0xC6E00BF3, 0xD5A79147, 0x06CA6351, 0x14292967,
   0x27B70A85, 0x2E1B2138, 0x4D2C6DFC, 0x53380D13, 0x650A7354, 0x766A0ABB, 0x81C2C92E, 0x92722C85,
   0xA2BFE8A1, 0xA81A664B, 0xC24B8B70, 0xC76C51A3, 0xD192E819, 0xD6990624, 0xF40E3585, 0x106AA070,
   0x19A4C116, 0x1E376C08, 0x2748774C, 0x34B0BCB5, 0x391C0CB3, 0x4ED8AA4A, 0x5B9CCA4F, 0x682E6FF3,
   0x748F82EE, 0x78A5636F, 0x84C87814, 0x8CC70208, 0x90BEFFFA, 0xA4506CEB, 0xBEF9A3F7, 0xC67178F2]

def shaInit : List Word :=
  [0x6A09E667, 0xBB67AE85, 0x3C6EF372, 0xA54FF53A, 0x510E527F, 0x9B05688C, 0x1F83D9AB, 0x5BE0CD19]

def rotr (x : Word) (n : Nat) : Word := x.rotateRight n

/-- The message of a block extended to n further words; w holds the last 16, newest first, and out all so far. -/
def shaExtend : Nat → List Word → List Word → List Word
  | 0, _, out => out
  | n + 1, w, out =>
    let x2 := w.getD 1 0
    let x15 := w.getD 14 0
    let a := rotr x15 7 ^^^ rotr x15 18 ^^^ (x15 >>> 3)
    let b := rotr x2 17 ^^^ rotr x2 19 ^^^ (x2 >>> 10)
    let x := w.getD 15 0 + a + w.getD 6 0 + b
    shaExtend n ((x :: w).take 16) (out ++ [x])

/-- One round. -/
def shaRound (v : List Word) (kw : Word) : List Word :=
  let r := fun (i : Nat) => v.getD i 0
  let e := r 4
  let a := r 0
  let t1 := r 7 + (rotr e 6 ^^^ rotr e 11 ^^^ rotr e 25) + ((e &&& r 5) ^^^ (~~~e &&& r 6)) + kw
  let t2 := (rotr a 2 ^^^ rotr a 13 ^^^ rotr a 22) + ((a &&& r 1) ^^^ (a &&& r 2) ^^^ (r 1 &&& r 2))
  [t1 + t2, a, r 1, r 2, r 3 + t1, e, r 5, r 6]

/-- Big-endian number of a list of bytes, and back. -/
def beVal (bs : List Byte) : Nat := bs.foldl (fun v b => 256 * v + b.toNat) 0
def beBytes (n v : Nat) : List Byte := (leBytes n v).reverse

/-- One block of 64 bytes. -/
def shaBlock (h : List Word) (bs : List Byte) : List Word :=
  let w := (List.range 16).map fun i => wordOf (beVal (slice bs (4 * i) 4))
  let ws := shaExtend 48 w.reverse w
  let v := (ws.zip shaK).foldl (fun v (x, k) => shaRound v (x + k)) h
  h.mapIdx fun i x => x + v.getD i 0

def shaBlocks : Nat → List Byte → List Word → List Word
  | 0, _, h => h
  | n + 1, bs, h => shaBlocks n (bs.drop 64) (shaBlock h (bs.take 64))

/-- The digest of a message, its first byte highest. -/
def sha256 (m : List Byte) : BitVec 256 :=
  let zeros := (119 - m.length % 64) % 64
  let padded := m ++ (0x80 :: List.replicate zeros 0) ++ beBytes 8 (8 * m.length)
  BitVec.ofNat 256 ((shaBlocks (padded.length / 64) padded shaInit).foldl (fun v w => 2 ^ 32 * v + w.toNat) 0)

def digestBytes (d : BitVec 256) : List Byte := beBytes 32 d.toNat

/-! Alarms (R378). -/

def alarmBit : AlarmSrc → Nat
  | .tamper => 1
  | .glitch => 2
  | .forged => 4
  | .misuse => 8

/-- A source fires: its bit, and what ACT says. -/
def State.alarm (s : State) (src : AlarmSrc) : State :=
  let w := { s.wafer with almlog := s.wafer.almlog ||| alarmBit src }
  match w.almpol with
  | 1 => s.putWafer { w with halted := true }
  | 2 => s.putWafer { w with halted := true, keysErased := true }
  | _ => s.putWafer w

/-- ALARM (R378). -/
def execAlarm (src : AlarmSrc) (s : State) : Out := .next (s.alarm src)

/-- A write of ALMPOL: 11 is discarded, and after LOCK only a higher ACT is taken. -/
def State.writeAlmpol (s : State) (v : Nat) : State :=
  let a := v % 4
  if a = 3 || (s.wafer.almlock && decide (a ≤ s.wafer.almpol)) then s else s.putWafer { s.wafer with almpol := a }

/-- ALMPOL (R378). -/
def execAlmpol (v : Word) (s : State) : Out := .next (s.writeAlmpol v.toNat)

def State.writeAlmlock (s : State) (v : Nat) : State := if v % 2 = 1 then s.putWafer { s.wafer with almlock := true } else s

/-- ALMLOCK (R9, R378). -/
def execAlmlock (v : Word) (s : State) : Out := .next (s.writeAlmlock v.toNat)

/-! Boot (R377). -/

/-- Whether the boot ROM accepts an image. -/
def imageOk (img : BootImage) : Bool :=
  Config.rsaVerify img.key (sha256 img.body) img.sig && sha256 img.key == Config.fusedKeyDigest && decide (Config.fusedRollback ≤ img.version)

/-- Firmware begins in slot 0 of a domain's DCC, at privileged level, as a group with lane 0 alone; where, and with how many registers, the
implementation fixes. It belongs to no node (R76, R275: log 89). -/
def State.startFirmware (s : State) (d : Nat) : State :=
  let cid := cidOf d 144
  let gid := gidOf cid 0
  if (s.group gid).isSome then s
  else
    let tid := s.uid
    let regs := Config.firmwareRegs d
    let t : Team :=
      { cid := cid, slots := [0], spBase := 0, spGran := 0, spBytes := Config.dccScratch, seq := (s.core cid).launchSeq, asid := 0, nid := 2 ^ 48 + d, index := 0, cluster := 0,
        place := 0, launched := 1, entry := (Config.firmwareEntry d).toNat, stopmap := 0, bars := List.replicate 16 {}, spad := [], spDesc := [], retiredN := 0, sus := {} }
    let g : Group :=
      { team := tid, idx := 0, vregs := [], sregs := [], pc := Config.firmwareEntry d, exm := 1, cnt := List.replicate 32 0, preds := List.replicate 7 0, gbase := 0,
        gsize := regs.1, ssize := regs.2, flags := 0, replay := 0, trapcause := 0, tsa := Config.firmwareSave d, xtimeout := 0x10000, loops := List.replicate 4 {},
        cc := [0, 0, 0, 0], nextQuire := 0, quires := [], chainOpen := false, chain := 0, mq := [], level := false, priv := true, pend := [], folios := [], results := [],
        vres := [], acc := none, rel := none, park := .running, sched := { notBefore := s.cclk cid + 1 + Config.extraDelay s.uid }, retired := false,
        acqWts := [0, 0, 0, 0], acqFar := [false, false, false, false], fenced := false, defCause := 0, defCount := 0, defAddr := 0, halted := false, held := none }
    (({ s with uid := tid + 1 }.putTeam tid t).putGroup gid g).modCore cid fun c => { c with launchSeq := c.launchSeq + 1 }

/-- BOOT_IMAGE_CHECK (R275, R377): an image that boots is measured, and runs in slot 0 of every domain's DCC. -/
def execBootImageCheck (img : BootImage) (s : State) : Out :=
  .next (if imageOk img then
      (List.range 64).foldl State.startFirmware
        (s.putWafer { s.wafer with measure := sha256 (digestBytes s.wafer.measure ++ digestBytes (sha256 img.body)), booted := some img.version })
    else s.alarm .forged)

/-- ATTESTATION_QUOTE (R377, R378): what is signed, then its signature; none once the key is erased. -/
def execAttestationQuote (nonce : List Byte) (s : State) : Out :=
  .next (if s.wafer.keysErased || nonce.length != 32 then s
    else
      let body := digestBytes s.wafer.measure ++ nonce ++ Config.deviceIdentity
      s.putWafer { s.wafer with quotes := s.wafer.quotes ++ [body ++ Config.rsaSign body] })

/-- DEBUG_UNLOCK (R378): the third failed verification is misuse. -/
def execDebugUnlock (sig : Nat) (body : List Byte) (s : State) : Out :=
  .next (if Config.rsaVerify Config.unlockKey (sha256 body) sig then s.putWafer { s.wafer with unlocked := true }
    else
      let n := s.wafer.unlockFails + 1
      let s := s.putWafer { s.wafer with unlockFails := n }
      if n = 3 then s.alarm .misuse else s)

/-- MODULE_RESET (R378): every unit as after reset; what the outside world and the parts' fuses hold stays (log 40). -/
def execModuleReset (s : State) : Out :=
  .next (let w := s.wafer
    { State.reset with
      uid := s.uid, freeUsed := s.freeUsed, agenda := s.agenda, mem := s.mem, desc := s.desc,
      wafer := { freshWafer with
        keysErased := w.keysErased, cores := w.cores, arrays := w.arrays, dramst := w.dramst, l2st := w.l2st, linkup := w.linkup, hostup := w.hostup,
        replies := w.replies, quotes := w.quotes } })

/-! Contexts (R13, R58, R322). -/

/-- CONTEXT_CREATE (R58, R322). -/
def execContextCreate (asid : Nat) (init : CtxInit) (s : State) : Out :=
  .next (if (s.ctx asid).isSome || asid ≥ 2 ^ 16 then s
    else
      let c := { freshCtx with
        ptroot := init.ptroot.toNat / 4096 * 4096, fqbase := init.fqbase.toNat / 64 * 64, fqmask := init.fqmask.toNat, save := init.save.toNat / 4096 * 4096,
        savesz := init.savesz.toNat }
      init.lines.foldl (fun s l => s.engineWrite (lineHome l) l [] (some Config.freshDesc)) (s.putCtx asid c))

/-- Work that belongs to the groups of a context that is gone; writes under way are still performed. -/
def Job.goesWith (j : Job) (asid : Nat) (gids tids : List Nat) : Bool :=
  match j with
  | .read r => gids.contains r.gid
  | .copy c => c.asid == asid
  | .copyResume _ a _ => a == asid
  | .bank b => b.asid == asid
  | .bankDone b _ _ _ => b.asid == asid
  | .atomic a => a.asid == asid && a.sc
  | .walk w => w.asid == asid
  | .arrival _ tid _ _ => tids.contains tid
  | _ => false

/-- Everything of a context leaves the machine but its memory. -/
def State.endContext (s : State) (asid : Nat) : State :=
  let gids := (s.groups.filter fun (_, g) => s.asidOf g == asid).map (·.1)
  let tids := (s.teams.filter fun (_, t) => t.asid == asid).map (·.1)
  let cls := (s.clusters.filter fun (_, c) => c.asid == asid).map (·.1)
  let core := fun (c : Core) => { c with
    inflt := c.inflt.map fun e => e.filter fun x => x.asid != asid
    entries := c.entries.map fun e => e.filter fun tid => !tids.contains tid
    watch := c.watch.map fun w => if w.asid == asid && (w.armed || w.installing.isSome) then ({} : Watch) else w }
  let dom := fun (x : Dom) => { x with
    faults := x.faults.filter fun f => f.asid != asid
    held := x.held.filter fun c => c.asid != asid }
  let hc := fun (h : Hc) => match h.holder with
    | some cl => if cls.contains cl then { h with holder := none, slots := [], bstore := [], bdesc := [], badAcc := [], badB := [] } else h
    | none => h
  let ctx := fun (c : Ctx) => { c with spine := c.spine.filter fun (_, nid) => nid / 2 ^ 32 != asid }
  { s with
    groups := s.groups.filter fun ((gid, _) : Nat × Group) => !gids.contains gid
    teams := s.teams.filter fun ((_, t) : Nat × Team) => t.asid != asid
    clusters := s.clusters.filter fun ((_, c) : Nat × Cluster) => c.asid != asid
    nodes := s.nodes.filter fun ((_, n) : Nat × Node) => n.asid != asid
    work := s.work.filter fun w => !w.job.goesWith asid gids tids
    cores := s.cores.map fun (k, c) => (k, core c)
    doms := s.doms.map fun (k, x) => (k, dom x)
    hcs := s.hcs.map fun (k, h) => (k, hc h)
    ctxs := (s.ctxs.filter fun ((a, _) : Nat × Ctx) => a != asid).map fun (a, c) => (a, ctx c)
    wafer := { s.wafer with ticketOut := if s.work.any (fun w => match w.job with
      | .atomic a => a.asid == asid && a.sc && a.ticket.isSome && a.ticket == s.wafer.ticketOut
      | _ => false) then none else s.wafer.ticketOut } }

/-- CONTEXT_DESTROY (R13): its translations are dropped with it, and its expert control ends. -/
def execContextDestroy (asid : Nat) (s : State) : Out :=
  .next (if asid = 0 || (s.ctx asid).isNone then s
    else ((s.dropRange ⟨some asid, 0, none, none⟩).endContext asid).sizesBack (((s.ctx asid).map (·.expert)).getD 0) 0)

end Sys2Proof.Machine
end

