-- ==== Sys2Proof/Machine/Register.lean ====
section
/-! DEFINITION. Writes of MMIO registers (R8-R11, R321, R322, R365), and the reads of an energy counter (R357). -/

namespace Sys2Proof.Machine

/-- The next state an event's meaning gives. -/
def stateAfter (s : State) (o : Out) : State :=
  match o with
  | .next t => t
  | _ => s

/-! A write covers bytes of one or two registers. Each is set whole: the bytes written over what it reads as. -/

/-- The registers that a write at offset o of `size` bytes touches, by their first offsets; reg gives the register of a byte. -/
def touched (reg : Nat → Nat × Nat) (o size : Nat) : List Nat := uniqueNats ((List.range size).map fun i => (reg (o + i)).1)

/-- The new value of the register that starts at b. -/
def written (reg : Nat → Nat × Nat) (b o size v : Nat) : Nat :=
  leVal ((List.range size).foldl (fun bs i => if (reg (o + i)).1 = b then patch bs (o + i - b) [BitVec.ofNat 8 (v / 256 ^ i)] else bs) (leBytes 64 (reg b).2))

/-- Set every register touched, lowest first: set takes the register's first offset and its new value. -/
def State.setTouched (s : State) (reg : Nat → Nat × Nat) (set : State → Nat → Nat → State) (o size v : Nat) : State :=
  (touched reg o size).foldl (fun s b => set s b (written reg b o size v)) s

/-- Whether a write touches [a, a+n). -/
def covers (o size a n : Nat) : Bool := decide (o < a + n) && decide (a < o + size)

/-! Translation commands (R273). -/

/-- TLBCMD after v is written: reserved bits and GO read zero, DONE is the hardware's. -/
def tlbcmdBits (old : BitVec 128) (v : Nat) : BitVec 128 :=
  BitVec.ofNat 128 (bits v 127 76 * 2 ^ 76 + bits v 63 62 * 2 ^ 62 + bits v 31 2 * 4) ||| (old &&& 2)

/-- TLBCMD as written with GO: what MODE asks for. -/
def State.tlbGo (s : State) (v : Nat) : State :=
  match bits v 63 62 with
  | 0 => stateAfter s (execTlbcmdRange (bits v 91 76) (bits v 127 92) (bits v 31 2) s)
  | 1 => stateAfter s (execTlbcmdAsid (bits v 91 76) s)
  | 2 => stateAfter s (execTlbcmdAll s)
  | _ => s

def State.writeTlbcmd (s : State) (v : Nat) (control : Bool) : State :=
  let s := s.putWafer { s.wafer with tlbcmd := tlbcmdBits s.wafer.tlbcmd v }
  if control && v % 2 == 1 then s.tlbGo v else s

def State.ctlbGo (s : State) (asid v : Nat) : State :=
  match bits v 63 62 with
  | 0 => stateAfter s (execCtlbRange asid (bits v 127 92) (bits v 31 2) s)
  | 1 => stateAfter s (execCtlbAsid asid s)
  | _ => s

def State.writeCtlb (s : State) (asid v : Nat) (control : Bool) : State :=
  let s := s.modCtx asid fun c => { c with ctlb := tlbcmdBits c.ctlb v }
  if control && v % 2 == 1 then s.ctlbGo asid v else s

/-! Wafer registers (R9). -/

def page4k (v : Nat) : Nat := v / 4096 * 4096

/-- A wafer register (R9). A counter is cleared by a write of 0 and keeps its count at any other value, as those of R10 and R11 do (log 100). -/
def State.setWafer (s : State) (o size b v : Nat) : State :=
  let w := s.wafer
  if b = 0 then s.writeTlbcmd v (covers o size 0 4)
  else if b = 0x100 then s.writeAlmpol v
  else if b = 0x108 then s.writeAlmlock v
  else if 0x1000 ≤ b ∧ b < 0x1400 then
    let n := (b - 0x1000) / 0x100
    match b % 0x100 with
    | 0 => s.putWafer { w with hwin := w.hwin.set n (page4k v) }
    | 8 => s.putWafer { w with obase := w.obase.set n (page4k v) }
    | 16 => if v = 0 then s.putWafer { w with lnkdrop := w.lnkdrop.set n 0 } else s
    | _ => s
  else if 0x2000 ≤ b ∧ b < 0x4000 then
    let n := (b - 0x2000) / 0x100
    match b % 0x100 with
    | 0 => s.putWafer { w with pwin := w.pwin.set n (page4k v) }
    | 0x40 => if v = 0 then s.putWafer { w with lreplay := w.lreplay.set n 0 } else s
    | 0x48 => if v = 0 then s.putWafer { w with lfail := w.lfail.set n 0 } else s
    | _ => s
  else if 0x80000 ≤ b ∧ b < 0xC0000 ∧ b % 0x10000 < 0x8100 then s.putWafer { w with msix := tputD w.msix b 0 (BitVec.ofNat 8 v) }
  else s

/-! Core blocks (R11) and domain blocks (R10). -/

def State.writeWatch (s : State) (cid n v : Nat) (control : Bool) : State :=
  if !control then s.modCore cid fun c => { c with watch := c.watch.modify n fun w => { w with raw := BitVec.ofNat 128 v } }
  else if v.testBit 63 then s.armWatch cid n (BitVec.ofNat 128 v) else s.disarmWatch cid n (BitVec.ofNat 128 v)

/-- A register of a core block, o the write's offset in the block. A write of 4 bytes changes its half of a word of a wider register, and either half of a
watchpoint's low word is the control word (R8: log 101). -/
def State.setCore (s : State) (cid o size b v : Nat) : State :=
  if b = 0 then stateAfter s (execL1cfg cid (wordOf v) s)
  else if b = 8 then if v = 0 then s.modCore cid fun c => { c with infltLost := 0 } else s
  else if 0x40 ≤ b ∧ b < 0x80 then if isDcc cid then s else s.writeWatch cid ((b - 0x40) / 16) v (covers o size b 8)
  else if 0x480 ≤ b ∧ b < 0x680 then
    let i := (b - 0x480) / 0x40
    match (b - 0x480) % 0x40 with
    | 0 => s.writeBinlo cid i v
    | 8 => s.modCore cid fun c => { c with bins := c.bins.modify i fun x => { x with hi := v } }
    | 16 => s.modCore cid fun c => { c with bins := c.bins.modify i fun x => { x with asid := v } }
    | _ => s
  else s

/-- A register of EVPOST (R293). -/
def State.setEvpost (s : State) (d o size b v : Nat) : State :=
  if (s.dom d).evBusy then s
  else if b = 0x1000 then s.modDom d fun x => { x with qhdr := v }
  else if b = 0x1008 then s.modDom d fun x => { x with evAsid := v }
  else if b = 0x1020 then
    let s := s.modDom d fun x => { x with evRec := leBytes 32 v }
    if covers o size 0x103C 4 then stateAfter s (execEvpostWrite d (wordOf (v / 2 ^ 224)) s) else s
  else s

/-- A register of a domain block. -/
def State.setDom (s : State) (d o size b v : Nat) : State :=
  if b = 0 then stateAfter s (execDsmcfg d (wordOf v) s)
  else if b = 8 then s.modDom d fun x => { x with dbmbase := page4k v }
  else if b = 0x10 then stateAfter s (execReplay d (BitVec.ofNat 64 v) s)
  else if b = 0x18 then s.writePowctl d v
  else if b = 0x20 then s.writeTal d v
  else if 0x100 ≤ b ∧ b < 0x11C then if v = 0 then s.modDom d fun x => { x with errs := x.errs.set ((b - 0x100) / 4) 0 } else s
  else if b = 0x120 then s.modDom d fun x => { x with lastUe := v }
  else if 0x400 ≤ b ∧ b < 0x700 then
    let h := 12 * d + (b - 0x400) / 0x40
    match b % 0x40 with
    | 0 => s.writePpat h v
    | 4 => s.modHc h fun x => { x with clbw := wordOf v }
    | _ => s
  else if 0x1000 ≤ b ∧ b < 0x1040 then s.setEvpost d o size b v
  else if 0x8000 ≤ b ∧ b < 0x8000 + 0x1000 * 145 then s.setCore (cidOf d ((b - 0x8000) / 0x1000)) (o % 0x1000) size (b % 0x1000) v
  else s

/-! Debug and context blocks (R321, R322, R365). -/

/-- A register of a debug block, by privileged code. ASID 0's takes none until it is unlocked (log 41). -/
def State.setDebug (s : State) (a b v : Nat) : State :=
  if a = 0 && !s.wafer.unlocked then s
  else if b = 0 then s.writeDbgctl a (wordOf v)
  else if b = 8 then s.modCtx a fun c => { c with dbgentry := v }
  else if b = 0x10 then s.modCtx a fun c => { c with mbox := BitVec.ofNat 64 v }
  else if b = 0x18 then s.writeStep a (BitVec.ofNat 64 v)
  else if b = 0x20 then s.writeDfact a v
  else if b = 0x28 then s.modCtx a fun c => { c with sring := page4k v }
  else if b = 0x30 then s.modCtx a fun c => { c with sint := v }
  else s

/-- A function that the context gives up goes back to its firmware default (R13). -/
def Ctx.setExpert (c : Ctx) (v : Nat) : Ctx :=
  let gone := fun (i : Nat) => c.expert.testBit i && !v.testBit i
  let c := if gone 2 then { c with lease := freshCtx.lease } else c
  let c := if gone 3 then { c with bslots := freshCtx.bslots, bbytes := freshCtx.bbytes, benergy := freshCtx.benergy } else c
  let c := if gone 5 then { c with dbgctl := c.dbgctl &&& 3 } else c
  { c with expert := v % 64 }

/-- By the context's own code: PTRAP alone, while it holds EXPERT[5]. -/
def State.setDebugOwn (s : State) (a b v : Nat) : State :=
  if b = 0 && ((s.ctx a).map fun c => c.expert.testBit 5).getD false then
    s.modCtx a fun c => { c with dbgctl := c.dbgctl &&& 3 ||| wordOf (v / 4 % 2 * 4) }
  else s

/-- Whether the context's own code may write the register (R322). -/
def Ctx.ownWrite (c : Ctx) (b : Nat) : Bool :=
  b == 0x18 || (0x100 ≤ b && b < 0x300) || b == 0x40 || (b == 0x2C && c.expert.testBit 2) || ((b == 0x48 || b == 0x4C || b == 0x50) && c.expert.testBit 3) ||
    (b == 0x70 && c.expert.testBit 4)

/-- A write of CMD (R321, R332). -/
def State.writeCmd (s : State) (acc : MmioAcc) (a v : Nat) : State :=
  let dcc := v.testBit 2
  if ((s.ctx a).map (·.cmdBusy)).getD false || !cmdAllowed acc a dcc then s
  else
    match v % 4 with
    | 1 => s.cmdWrite acc a dcc true
    | 2 => s.cmdWrite acc a dcc false
    | _ => s.modCtx a fun c => { c with cmdDcc := dcc }

/-- A register of a context block. -/
def State.setCtx (s : State) (acc : MmioAcc) (a o size b v : Nat) : State :=
  match s.ctx a with
  | none => s
  | some c =>
    if !acc.priv && !c.ownWrite b then s
    else
      match b with
      | 0x000 => s.putCtx a { c with ptroot := page4k v }
      | 0x008 => s.putCtx a { c with fqbase := v / 64 * 64 }
      | 0x010 => s.putCtx a { c with fqmask := v }
      | 0x014 => s.putCtx a { c with fqtail := v }
      | 0x018 => s.putCtx a { c with fqhead := v }
      | 0x020 => s.putCtx a { c with save := page4k v }
      | 0x028 => s.putCtx a { c with savesz := v }
      | 0x02C => if v % 1024 = 0 then s else s.putCtx a { c with lease := v % 1024 }
      | 0x02E => s.putCtx a { c with prio := v % 4, preempt := v.testBit 2 }
      | 0x038 => s.putCtx a { c with cmdmask := v }
      | 0x040 => s.writeCmd acc a v
      | 0x044 => s.putCtx a { c with cmdstat := wordOf v &&& 0xFFFFFF03 }
      | 0x048 => s.putCtx a { c with bslots := v }
      | 0x04C => s.putCtx a { c with bbytes := v }
      | 0x050 => s.putCtx a { c with benergy := v }
      | 0x060 => (s.putCtx a (c.setExpert v)).sizesBack c.expert v
      | 0x070 => s.writeCtlb a v (covers o size 0x70 4)
      | _ => if 0x100 ≤ b ∧ b < 0x300 then stateAfter s (execDefqWrite a ((b - 0x100) / 8) (BitVec.ofNat 64 v) s) else s

/-! The write (R8). -/

/-- A write that passes the checks of the aperture. -/
def State.mmioWrite (s : State) (acc : MmioAcc) (ofs size v : Nat) : State :=
  match blockOf ofs with
  | .wafer o => s.setTouched (waferReg s) (fun s b v => s.setWafer o size b v) o size v
  | .energy _ _ => s
  | .debug a o =>
    match s.ctx a with
    | some c => s.setTouched (debugReg c) (fun s b v => if acc.priv then s.setDebug a b v else s.setDebugOwn a b v) o size v
    | none => s
  | .dom d o => s.setTouched (domReg s d) (fun s b v => s.setDom d o size b v) o size v
  | .ctx a o =>
    match s.ctx a with
    | some c => s.setTouched (ctxReg s a c) (fun s b v => s.setCtx acc a o size b v) o size v
    | none => s
  | .none => s

/-- REGISTER_WRITE (R8): an access that the aperture does not allow writes nothing. -/
def execRegisterWrite (acc : MmioAcc) (ofs : Nat) (size : Nat) (v : BitVec 64) (s : State) : Out :=
  .next (if (mmioCheck acc.asid ofs size acc.priv).isSome || ofs % size != 0 then s else s.mmioWrite acc ofs size (v.toNat % 2 ^ (8 * size)))

/-! Energy counters (R357). -/

/-- A read of one half of the counter of a context; a port gets its answer. -/
def State.counterRead (s : State) (acc : MmioAcc) (ofs : Nat) : State :=
  if (mmioCheck acc.asid ofs 4 acc.priv).isSome then s
  else
    let (s, v) := s.mmioRead acc.req ofs 4
    match acc.req with
    | .port n => s.putWafer { s.wafer with replies := s.wafer.replies ++ [(n, leBytes 4 v, true)] }
    | .core _ => s

def energyOfs (asid : Nat) : Nat := 0x100000 + 16 * (asid % 2 ^ 16)

/-- ELO (R357). -/
def execElo (acc : MmioAcc) (asid : Nat) (s : State) : Out := .next (s.counterRead acc (energyOfs asid))
/-- EHI (R357). -/
def execEhi (acc : MmioAcc) (asid : Nat) (s : State) : Out := .next (s.counterRead acc (energyOfs asid + 4))

end Sys2Proof.Machine
end

