-- ==== Sys2Proof/Machine/Dispatch.lean ====
section
/-! DEFINITION. The meaning of each instruction and step, one arm for each row of the opcode table. -/

namespace Sys2Proof.Machine

def exec (i : Instr) (s : State) : Host.Outcome State Fault Refusal :=
  match i with
  | .nop o => Sys2Proof.Machine.execNop o s
  | .ifi o => Sys2Proof.Machine.execIfi o s
  | .elsei o => Sys2Proof.Machine.execElsei o s
  | .endif o => Sys2Proof.Machine.execEndif o s
  | .loop o => Sys2Proof.Machine.execLoop o s
  | .endloop o => Sys2Proof.Machine.execEndloop o s
  | .breaki o => Sys2Proof.Machine.execBreaki o s
  | .cont o => Sys2Proof.Machine.execCont o s
  | .hloop k o => Sys2Proof.Machine.execHloop k o s
  | .hloopp k o => Sys2Proof.Machine.execHloopp k o s
  | .hlexit k o => Sys2Proof.Machine.execHlexit k o s
  | .jmp o => Sys2Proof.Machine.execJmp o s
  | .jmps o => Sys2Proof.Machine.execJmps o s
  | .call o => Sys2Proof.Machine.execCall o s
  | .ret o => Sys2Proof.Machine.execRet o s
  | .iadd v o => Sys2Proof.Machine.execIadd v o s
  | .isub v o => Sys2Proof.Machine.execIsub v o s
  | .imul v o => Sys2Proof.Machine.execImul v o s
  | .imulhi v o => Sys2Proof.Machine.execImulhi v o s
  | .imad v o => Sys2Proof.Machine.execImad v o s
  | .imin v o => Sys2Proof.Machine.execImin v o s
  | .imax v o => Sys2Proof.Machine.execImax v o s
  | .iadif v o => Sys2Proof.Machine.execIadif v o s
  | .shl v o => Sys2Proof.Machine.execShl v o s
  | .shr v o => Sys2Proof.Machine.execShr v o s
  | .sar v o => Sys2Proof.Machine.execSar v o s
  | .rol v o => Sys2Proof.Machine.execRol v o s
  | .and v o => Sys2Proof.Machine.execAnd v o s
  | .or v o => Sys2Proof.Machine.execOr v o s
  | .xor v o => Sys2Proof.Machine.execXor v o s
  | .andn v o => Sys2Proof.Machine.execAndn v o s
  | .bfe v o => Sys2Proof.Machine.execBfe v o s
  | .bfi v o => Sys2Proof.Machine.execBfi v o s
  | .popc v o => Sys2Proof.Machine.execPopc v o s
  | .clz v o => Sys2Proof.Machine.execClz v o s
  | .brev v o => Sys2Proof.Machine.execBrev v o s
  | .icmp v o => Sys2Proof.Machine.execIcmp v o s
  | .sel v o => Sys2Proof.Machine.execSel v o s
  | .lea v o => Sys2Proof.Machine.execLea v o s
  | .mov v o => Sys2Proof.Machine.execMov v o s
  | .movls v o => Sys2Proof.Machine.execMovls v o s
  | .movsr v o => Sys2Proof.Machine.execMovsr v o s
  | .movrs v o => Sys2Proof.Machine.execMovrs v o s
  | .prmt v o => Sys2Proof.Machine.execPrmt v o s
  | .dp4 v o => Sys2Proof.Machine.execDp4 v o s
  | .fadd v o => Sys2Proof.Machine.execFadd v o s
  | .fmul v o => Sys2Proof.Machine.execFmul v o s
  | .ffma v o => Sys2Proof.Machine.execFfma v o s
  | .fmin v o => Sys2Proof.Machine.execFmin v o s
  | .fmax v o => Sys2Proof.Machine.execFmax v o s
  | .fcmp v o => Sys2Proof.Machine.execFcmp v o s
  | .frnd v o => Sys2Proof.Machine.execFrnd v o s
  | .fldexp v o => Sys2Proof.Machine.execFldexp v o s
  | .fdiv v o => Sys2Proof.Machine.execFdiv v o s
  | .fsqrt v o => Sys2Proof.Machine.execFsqrt v o s
  | .fdot2 v o => Sys2Proof.Machine.execFdot2 v o s
  | .rcp v o => Sys2Proof.Machine.execRcp v o s
  | .rsq v o => Sys2Proof.Machine.execRsq v o s
  | .exp2 v o => Sys2Proof.Machine.execExp2 v o s
  | .log2 v o => Sys2Proof.Machine.execLog2 v o s
  | .sinpi v o => Sys2Proof.Machine.execSinpi v o s
  | .cospi v o => Sys2Proof.Machine.execCospi v o s
  | .tanh v o => Sys2Proof.Machine.execTanh v o s
  | .cvt v o => Sys2Proof.Machine.execCvt v o s
  | .packq v o => Sys2Proof.Machine.execPackq v o s
  | .unpkq v o => Sys2Proof.Machine.execUnpkq v o s
  | .shfl v o => Sys2Proof.Machine.execShfl v o s
  | .vote v o => Sys2Proof.Machine.execVote v o s
  | .gred v o => Sys2Proof.Machine.execGred v o s
  | .gscan v o => Sys2Proof.Machine.execGscan v o s
  | .xshfl v o => Sys2Proof.Machine.execXshfl v o s
  | .xshflTimeout gid => Sys2Proof.Machine.execXshflTimeout gid s
  | .rng v o => Sys2Proof.Machine.execRng v o s
  | .plop v o => Sys2Proof.Machine.execPlop v o s
  | .p2v v o => Sys2Proof.Machine.execP2v v o s
  | .v2p v o => Sys2Proof.Machine.execV2p v o s
  | .setexm v o => Sys2Proof.Machine.execSetexm v o s
  | .ld v o => Sys2Proof.Machine.execLd v o s
  | .st v o => Sys2Proof.Machine.execSt v o s
  | .lds v o => Sys2Proof.Machine.execLds v o s
  | .sts v o => Sys2Proof.Machine.execSts v o s
  | .ldu v o => Sys2Proof.Machine.execLdu v o s
  | .stu v o => Sys2Proof.Machine.execStu v o s
  | .ldq v o => Sys2Proof.Machine.execLdq v o s
  | .lddesc v o => Sys2Proof.Machine.execLddesc v o s
  | .stdesc v o => Sys2Proof.Machine.execStdesc v o s
  | .pref v o => Sys2Proof.Machine.execPref v o s
  | .cctl v o => Sys2Proof.Machine.execCctl v o s
  | .atom v o => Sys2Proof.Machine.execAtom v o s
  | .atomcas v o => Sys2Proof.Machine.execAtomcas v o s
  | .red v o => Sys2Proof.Machine.execRed v o s
  | .atoms v o => Sys2Proof.Machine.execAtoms v o s
  | .cass v o => Sys2Proof.Machine.execCass v o s
  | .cpyin o => Sys2Proof.Machine.execCpyin o s
  | .cpyout o => Sys2Proof.Machine.execCpyout o s
  | .cpygth o => Sys2Proof.Machine.execCpygth o s
  | .cpyreg o => Sys2Proof.Machine.execCpyreg o s
  | .cpydsmTodsm o => Sys2Proof.Machine.execCpydsmTodsm o s
  | .cpydsmFromdsm o => Sys2Proof.Machine.execCpydsmFromdsm o s
  | .cpywait o => Sys2Proof.Machine.execCpywait o s
  | .cpystat o => Sys2Proof.Machine.execCpystat o s
  | .mchain o => Sys2Proof.Machine.execMchain o s
  | .mcend o => Sys2Proof.Machine.execMcend o s
  | .mldb o => Sys2Proof.Machine.execMldb o s
  | .mma v o => Sys2Proof.Machine.execMma v o s
  | .mmas v o => Sys2Proof.Machine.execMmas v o s
  | .mzero o => Sys2Proof.Machine.execMzero o s
  | .mrd o => Sys2Proof.Machine.execMrd o s
  | .mrdMem v o => Sys2Proof.Machine.execMrdMem v o s
  | .mquire o => Sys2Proof.Machine.execMquire o s
  | .mwait o => Sys2Proof.Machine.execMwait o s
  | .maccAdd o => Sys2Proof.Machine.execMaccAdd o s
  | .maccLd v o => Sys2Proof.Machine.execMaccLd v o s
  | .bupd v o => Sys2Proof.Machine.execBupd v o s
  | .bred v o => Sys2Proof.Machine.execBred v o s
  | .vtopk o => Sys2Proof.Machine.execVtopk o s
  | .vsmax o => Sys2Proof.Machine.execVsmax o s
  | .vsamp o => Sys2Proof.Machine.execVsamp o s
  | .bwait o => Sys2Proof.Machine.execBwait o s
  | .bar n o => Sys2Proof.Machine.execBar n o s
  | .bararv n o => Sys2Proof.Machine.execBararv n o s
  | .barwt n o => Sys2Proof.Machine.execBarwt n o s
  | .cbar n o => Sys2Proof.Machine.execCbar n o s
  | .fence o => Sys2Proof.Machine.execFence o s
  | .pfence o => Sys2Proof.Machine.execPfence o s
  | .tadv o => Sys2Proof.Machine.execTadv o s
  | .exit o => Sys2Proof.Machine.execExit o s
  | .groupSlotFree gid => Sys2Proof.Machine.execGroupSlotFree gid s
  | .teamResourcesFree tid => Sys2Proof.Machine.execTeamResourcesFree tid s
  | .trap o => Sys2Proof.Machine.execTrap o s
  | .rte o => Sys2Proof.Machine.execRte o s
  | .bkpt o => Sys2Proof.Machine.execBkpt o s
  | .yieldi o => Sys2Proof.Machine.execYieldi o s
  | .sleep o => Sys2Proof.Machine.execSleep o s
  | .sleepExpiry gid => Sys2Proof.Machine.execSleepExpiry gid s
  | .divst o => Sys2Proof.Machine.execDivst o s
  | .inflt o => Sys2Proof.Machine.execInflt o s
  | .gsubGraph o => Sys2Proof.Machine.execGsubGraph o s
  | .gsubNode o => Sys2Proof.Machine.execGsubNode o s
  | .evpop o => Sys2Proof.Machine.execEvpop o s
  | .evwait o => Sys2Proof.Machine.execEvwait o s
  | .evwaitTimeout gid => Sys2Proof.Machine.execEvwaitTimeout gid s
  | .nrel o => Sys2Proof.Machine.execNrel o s
  | .folio o => Sys2Proof.Machine.execFolio o s
  | .ctxsus o => Sys2Proof.Machine.execCtxsus o s
  | .ctxres o => Sys2Proof.Machine.execCtxres o s
  | .budget o => Sys2Proof.Machine.execBudget o s
  | .fixedResultLand gid => Sys2Proof.Machine.execFixedResultLand gid s
  | .variableResultLand gid op lanes => Sys2Proof.Machine.execVariableResultLand gid op lanes s
  | .instructionReplay gid => Sys2Proof.Machine.execInstructionReplay gid s
  | .trapEntry gid => Sys2Proof.Machine.execTrapEntry gid s
  | .teamStart tid => Sys2Proof.Machine.execTeamStart tid s
  | .clusterPlacement nid => Sys2Proof.Machine.execClusterPlacement nid s
  | .nodeReady nid => Sys2Proof.Machine.execNodeReady nid s
  | .dccProgramStart nid => Sys2Proof.Machine.execDccProgramStart nid s
  | .nodeComplete nid => Sys2Proof.Machine.execNodeComplete nid s
  | .colophonRetry d => Sys2Proof.Machine.execColophonRetry d s
  | .defqWrite asid d va => Sys2Proof.Machine.execDefqWrite asid d va s
  | .evpostWrite d w => Sys2Proof.Machine.execEvpostWrite d w s
  | .pageWalk id => Sys2Proof.Machine.execPageWalk id s
  | .heldFaultRecordAppend d => Sys2Proof.Machine.execHeldFaultRecordAppend d s
  | .replay d token => Sys2Proof.Machine.execReplay d token s
  | .tlbcmdRange asid page pages => Sys2Proof.Machine.execTlbcmdRange asid page pages s
  | .tlbcmdAsid asid => Sys2Proof.Machine.execTlbcmdAsid asid s
  | .ctlbRange asid page pages => Sys2Proof.Machine.execCtlbRange asid page pages s
  | .ctlbAsid asid => Sys2Proof.Machine.execCtlbAsid asid s
  | .tlbcmdDone id => Sys2Proof.Machine.execTlbcmdDone id s
  | .l1cfg cid v => Sys2Proof.Machine.execL1cfg cid v s
  | .l1SizeChange cid => Sys2Proof.Machine.execL1SizeChange cid s
  | .dsmcfg d v => Sys2Proof.Machine.execDsmcfg d v s
  | .dsmSizeChange d => Sys2Proof.Machine.execDsmSizeChange d s
  | .logicalTimeTick cid => Sys2Proof.Machine.execLogicalTimeTick cid s
  | .domainWrap d => Sys2Proof.Machine.execDomainWrap d s
  | .epochSweepDone d => Sys2Proof.Machine.execEpochSweepDone d s
  | .l1Fill id => Sys2Proof.Machine.execL1Fill id s
  | .leaseGrant id => Sys2Proof.Machine.execLeaseGrant id s
  | .sliceWrite id => Sys2Proof.Machine.execSliceWrite id s
  | .writeBackAck id => Sys2Proof.Machine.execWriteBackAck id s
  | .sliceFill id => Sys2Proof.Machine.execSliceFill id s
  | .readShared id => Sys2Proof.Machine.execReadShared id s
  | .writePermission id => Sys2Proof.Machine.execWritePermission id s
  | .waferScopeRead id => Sys2Proof.Machine.execWaferScopeRead id s
  | .invalidation id => Sys2Proof.Machine.execInvalidation id s
  | .forward id => Sys2Proof.Machine.execForward id s
  | .recall id => Sys2Proof.Machine.execRecall id s
  | .invalidationAck id => Sys2Proof.Machine.execInvalidationAck id s
  | .ownerWriteBack id => Sys2Proof.Machine.execOwnerWriteBack id s
  | .nearBankAtomic id => Sys2Proof.Machine.execNearBankAtomic id s
  | .bankOperation id => Sys2Proof.Machine.execBankOperation id s
  | .bankTicketComplete id => Sys2Proof.Machine.execBankTicketComplete id s
  | .copyStart cid => Sys2Proof.Machine.execCopyStart cid s
  | .copyComplete id => Sys2Proof.Machine.execCopyComplete id s
  | .copyPageResume id => Sys2Proof.Machine.execCopyPageResume id s
  | .matrixSubtileStart hcid transfer => Sys2Proof.Machine.execMatrixSubtileStart hcid transfer s
  | .matrixOpComplete id => Sys2Proof.Machine.execMatrixOpComplete id s
  | .matrixFaultResume id => Sys2Proof.Machine.execMatrixFaultResume id s
  | .cmdSuspend acc asid dcc => Sys2Proof.Machine.execCmdSuspend acc asid dcc s
  | .cmdResume acc asid dcc => Sys2Proof.Machine.execCmdResume acc asid dcc s
  | .spineSuspend asid d nid => Sys2Proof.Machine.execSpineSuspend asid d nid s
  | .spineReasonEnd asid d => Sys2Proof.Machine.execSpineReasonEnd asid d s
  | .teamSaveComplete tid => Sys2Proof.Machine.execTeamSaveComplete tid s
  | .divertedArrival id => Sys2Proof.Machine.execDivertedArrival id s
  | .accImageSave hcid => Sys2Proof.Machine.execAccImageSave hcid s
  | .dawn tid => Sys2Proof.Machine.execDawn tid s
  | .landingBufferArrival id => Sys2Proof.Machine.execLandingBufferArrival id s
  | .step asid v => Sys2Proof.Machine.execStep asid v s
  | .dfactRetire asid site slot => Sys2Proof.Machine.execDfactRetire asid site slot s
  | .dfactReturn asid site slot => Sys2Proof.Machine.execDfactReturn asid site slot s
  | .dbgctl asid v => Sys2Proof.Machine.execDbgctl asid v s
  | .sampleWrite cid => Sys2Proof.Machine.execSampleWrite cid s
  | .watchpointArm cid n v => Sys2Proof.Machine.execWatchpointArm cid n v s
  | .watchpointArmComplete cid n => Sys2Proof.Machine.execWatchpointArmComplete cid n s
  | .watchpointDisarm cid n v => Sys2Proof.Machine.execWatchpointDisarm cid n v s
  | .watchpointReport id => Sys2Proof.Machine.execWatchpointReport id s
  | .binlo cid n v => Sys2Proof.Machine.execBinlo cid n v s
  | .elo acc asid => Sys2Proof.Machine.execElo acc asid s
  | .ehi acc asid => Sys2Proof.Machine.execEhi acc asid s
  | .sensorUpdate d c die dram => Sys2Proof.Machine.execSensorUpdate d c die dram s
  | .talRefill d => Sys2Proof.Machine.execTalRefill d s
  | .tal d v => Sys2Proof.Machine.execTal d v s
  | .patUpdate d => Sys2Proof.Machine.execPatUpdate d s
  | .ppat d c v => Sys2Proof.Machine.execPpat d c v s
  | .powctl d v => Sys2Proof.Machine.execPowctl d v s
  | .refreshIntervalStart d => Sys2Proof.Machine.execRefreshIntervalStart d s
  | .refreshWindow d ch => Sys2Proof.Machine.execRefreshWindow d ch s
  | .topologyRetire d p => Sys2Proof.Machine.execTopologyRetire d p s
  | .almpol v => Sys2Proof.Machine.execAlmpol v s
  | .almlock v => Sys2Proof.Machine.execAlmlock v s
  | .alarm src => Sys2Proof.Machine.execAlarm src s
  | .bootImageCheck img => Sys2Proof.Machine.execBootImageCheck img s
  | .attestationQuote nonce => Sys2Proof.Machine.execAttestationQuote nonce s
  | .hostInboundRead port ofs n => Sys2Proof.Machine.execHostInboundRead port ofs n s
  | .hostInboundWrite port ofs data relaxed => Sys2Proof.Machine.execHostInboundWrite port ofs data relaxed s
  | .hostInboundAtomic port ofs op => Sys2Proof.Machine.execHostInboundAtomic port ofs op s
  | .peerInboundAccess link ofs acc => Sys2Proof.Machine.execPeerInboundAccess link ofs acc s
  | .outboundFlushCompletion port => Sys2Proof.Machine.execOutboundFlushCompletion port s
  | .linkDown p => Sys2Proof.Machine.execLinkDown p s
  | .linkCrcReplay link flits recovered => Sys2Proof.Machine.execLinkCrcReplay link flits recovered s
  | .registerWrite acc ofs size v => Sys2Proof.Machine.execRegisterWrite acc ofs size v s
  | .linkUp p => Sys2Proof.Machine.execLinkUp p s
  | .peerWriteAck link => Sys2Proof.Machine.execPeerWriteAck link s
  | .yieldExpiry gid => Sys2Proof.Machine.execYieldExpiry gid s
  | .contextCreate asid init => Sys2Proof.Machine.execContextCreate asid init s
  | .contextDestroy asid => Sys2Proof.Machine.execContextDestroy asid s
  | .debugUnlock sig body => Sys2Proof.Machine.execDebugUnlock sig body s
  | .scTicketGrant => Sys2Proof.Machine.execScTicketGrant s
  | .tlbcmdAll => Sys2Proof.Machine.execTlbcmdAll s
  | .meteringIntervalEnd => Sys2Proof.Machine.execMeteringIntervalEnd s
  | .energyWindowEnd => Sys2Proof.Machine.execEnergyWindowEnd s
  | .moduleReset => Sys2Proof.Machine.execModuleReset s
  | .markDegraded d l2 => Sys2Proof.Machine.execMarkDegraded d l2 s

end Sys2Proof.Machine
end

