-- ==== Sys2Proof/Decode.lean ====
section
/-! DEFINITION. Decoding of the 96-bit instruction word (R18-R38), total on any bits and rejecting by name, and after
it the encoder, written from the same tables. -/

namespace Sys2Proof

/-- The fields of a word (R19). -/
structure Fields where
  op : BitVec 8
  var : BitVec 4
  grd : BitVec 5
  sch : BitVec 8
  d : BitVec 19
  a : BitVec 18
  b : BitVec 18
  x : BitVec 16
  deriving DecidableEq, Repr

/-- R19, with bits [31:0] in word 0 (R18). -/
def Fields.ofWord (w : BitVec 96) : Fields :=
  { op := w.extractLsb' 88 8, var := w.extractLsb' 84 4, grd := w.extractLsb' 79 5, sch := w.extractLsb' 71 8,
    d := w.extractLsb' 52 19, a := w.extractLsb' 34 18, b := w.extractLsb' 16 18, x := w.extractLsb' 0 16 }

def Fields.toWord (f : Fields) : BitVec 96 := f.op ++ f.var ++ f.grd ++ f.sch ++ f.d ++ f.a ++ f.b ++ f.x

/-- Why a word does not decode (R38): every reason but outsideDcc is the illegal-instruction trap. -/
inductive DecodeErr where
  /-- Step 1: OP is not assigned. -/
  | unassignedOpcode
  /-- Step 2: OP 0xE0-0xE7 outside a domain control core; the illegal-context trap. -/
  | outsideDcc
  /-- Step 3: an opcode a domain control core does not execute (R276). -/
  | notOnDcc
  /-- Step 4: a reserved VAR value. -/
  | reservedVariant
  /-- Step 4: a nonzero must-be-zero bit. -/
  | mustBeZero
  /-- Step 4: a reserved file, or an immediate where the form has none. -/
  | badFile
  /-- Step 4: any other field the opcode does not accept. -/
  | illFormed
  deriving DecidableEq, Repr

/-! Field codes. -/

def bit (b : Bool) : BitVec 1 := BitVec.ofBool b

def DFile.ofBits (b : BitVec 2) : DFile :=
  match b.toNat with
  | 0 => .vec
  | 1 => .scal
  | 2 => .pred
  | _ => .spec
def DFile.bits (f : DFile) : BitVec 2 :=
  match f with
  | .vec => 0
  | .scal => 1
  | .pred => 2
  | .spec => 3
def Clamp.ofBits (b : BitVec 2) : Clamp :=
  match b.toNat with
  | 0 => .none
  | 1 => .unit
  | 2 => .sym
  | _ => .sat
def Clamp.bits (c : Clamp) : BitVec 2 :=
  match c with
  | .none => 0
  | .unit => 1
  | .sym => 2
  | .sat => 3
def Sub.ofBits (b : BitVec 2) : Sub :=
  match b.toNat with
  | 0 => .whole
  | 1 => .lo
  | 2 => .hi
  | _ => .lob
def Sub.bits (s : Sub) : BitVec 2 :=
  match s with
  | .whole => 0
  | .lo => 1
  | .hi => 2
  | .lob => 3
def SFile.bits (f : SFile) : BitVec 2 :=
  match f with
  | .vec => 0
  | .scal => 1
  | .spec => 2
def PermCls.ofBits (b : BitVec 2) : PermCls :=
  match b.toNat with
  | 0 => .none
  | 1 => .rot
  | 2 => .bfly
  | _ => .bcast
def PermCls.bits (c : PermCls) : BitVec 2 :=
  match c with
  | .none => 0
  | .rot => 1
  | .bfly => 2
  | .bcast => 3
def Rm.ofBits (b : BitVec 2) : Rm :=
  match b.toNat with
  | 0 => .rne
  | 1 => .rz
  | 2 => .rd
  | _ => .ru
def Rm.bits (r : Rm) : BitVec 2 :=
  match r with
  | .rne => 0
  | .rz => 1
  | .rd => 2
  | .ru => 3
def Scope.ofBits (b : BitVec 2) : Scope :=
  match b.toNat with
  | 0 => .team
  | 1 => .dom
  | 2 => .wafer
  | _ => .sys
def Scope.bits (s : Scope) : BitVec 2 :=
  match s with
  | .team => 0
  | .dom => 1
  | .wafer => 2
  | .sys => 3
def Ord.ofBits (b : BitVec 2) : Ord :=
  match b.toNat with
  | 0 => .plain
  | 1 => .acq
  | 2 => .rel
  | _ => .ar
def Ord.bits (o : Ord) : BitVec 2 :=
  match o with
  | .plain => 0
  | .acq => 1
  | .rel => 2
  | .ar => 3
def Cpol.ofBits (b : BitVec 2) : Cpol :=
  match b.toNat with
  | 0 => .normal
  | 1 => .evict
  | 2 => .keep
  | _ => .bypass
def Cpol.bits (c : Cpol) : BitVec 2 :=
  match c with
  | .normal => 0
  | .evict => 1
  | .keep => 2
  | .bypass => 3

/-- R21: N in bit 4, K in bit 3, IDX in [2:0]. -/
def decGuard (g : BitVec 5) : Guard := ⟨g.getLsbD 4, g.getLsbD 3, g.extractLsb' 0 3⟩
def encGuard (g : Guard) : BitVec 5 := bit g.neg ++ bit g.stage ++ g.idx
/-- R22. -/
def decSched (s : BitVec 8) : Sched :=
  ⟨s.getLsbD 7, s.getLsbD 6, s.getLsbD 5, s.getLsbD 4, s.getLsbD 3, s.extractLsb' 0 3⟩
def encSched (s : Sched) : BitVec 8 := bit s.sw ++ bit s.stop ++ bit s.rua ++ bit s.rub ++ bit s.ruc ++ s.pf
def decHdr (f : Fields) : Hdr := ⟨decGuard f.grd, decSched f.sch⟩

/-- R24. -/
def decDst (d : BitVec 19) : Except DecodeErr Dst :=
  if d.extractLsb' 0 2 = 0 then
    .ok ⟨.ofBits (d.extractLsb' 17 2), d.extractLsb' 7 10, .ofBits (d.extractLsb' 5 2), d.extractLsb' 2 3⟩
  else .error .mustBeZero
def encDst (d : Dst) : BitVec 19 := d.file.bits ++ d.reg ++ d.clmp.bits ++ d.scl ++ (0 : BitVec 2)

/-- R27: the fourth file is reserved in A; in B the caller has taken it as the immediate marker. -/
def decSrc (s : BitVec 18) : Except DecodeErr Src :=
  let mk (file : SFile) : Except DecodeErr Src :=
    if s.getLsbD 0 then .error .mustBeZero
    else .ok ⟨file, s.extractLsb' 6 10, s.getLsbD 5, s.getLsbD 4, .ofBits (s.extractLsb' 2 2), s.getLsbD 1⟩
  match (s.extractLsb' 16 2).toNat with
  | 0 => mk .vec
  | 1 => mk .scal
  | 2 => mk .spec
  | _ => .error .badFile
def encSrc (s : Src) : BitVec 18 :=
  s.file.bits ++ s.reg ++ bit s.neg ++ bit s.abs ++ s.sub.bits ++ bit s.kill ++ (0 : BitVec 1)

/-- R31. -/
def decCSrc (x : BitVec 16) : CSrc :=
  ⟨x.getLsbD 15, x.extractLsb' 5 10, x.getLsbD 4, x.getLsbD 3, .ofBits (x.extractLsb' 1 2), x.getLsbD 0⟩
def encCSrc (c : CSrc) : BitVec 16 :=
  bit c.scal ++ c.reg ++ bit c.neg ++ bit c.abs ++ c.sub.bits ++ bit c.kill

/-- R33: PERM is X[15:4] of form N. -/
def decPerm (x : BitVec 16) : Perm := ⟨.ofBits (x.extractLsb' 14 2), x.extractLsb' 11 3, x.extractLsb' 6 5⟩

/-- B.FILE = 11 (R27). -/
def bImm (b : BitVec 18) : Bool := b.getLsbD 17 && b.getLsbD 16

/-- R29-R33. -/
def decX (three : Bool) (b : BitVec 18) (x : BitVec 16) : Except DecodeErr AluX :=
  if bImm b then
    if three then .error .badFile else .ok (.i (b.extractLsb' 0 16 ++ x))
  else
    match decSrc b with
    | .error e => .error e
    | .ok s =>
      if three then .ok (.c s (decCSrc x))
      else if x.extractLsb' 2 4 = 0 then .ok (.n s (decPerm x) (.ofBits (x.extractLsb' 0 2)))
      else .error .mustBeZero
def encXb (x : AluX) : BitVec 18 :=
  match x with
  | .n b _ _ => encSrc b
  | .i imm => (3 : BitVec 2) ++ imm.extractLsb' 16 16
  | .c b _ => encSrc b
def encXx (x : AluX) : BitVec 16 :=
  match x with
  | .n _ p rm => p.cls.bits ++ p.seg ++ p.dist ++ (0 : BitVec 4) ++ rm.bits
  | .i imm => imm.extractLsb' 0 16
  | .c _ c => encCSrc c

def decAlu (three : Bool) (f : Fields) : Except DecodeErr Alu :=
  match decDst f.d, decSrc f.a, decX three f.b f.x with
  | .ok d, .ok a, .ok x => .ok ⟨decHdr f, d, a, x⟩
  | .error e, _, _ => .error e
  | _, .error e, _ => .error e
  | _, _, .error e => .error e
def encAlu (op : BitVec 8) (var : BitVec 4) (o : Alu) : Fields :=
  ⟨op, var, encGuard o.hdr.guard, encSched o.hdr.sch, encDst o.d, encSrc o.a, encXb o.x, encXx o.x⟩

/-- R36: a register, or a short immediate of 16 bits. -/
def decB (b : BitVec 18) : Except DecodeErr BOp :=
  if bImm b then .ok (.imm (b.extractLsb' 0 16))
  else
    match decSrc b with
    | .ok s => .ok (.src s)
    | .error e => .error e
def encB (b : BOp) : BitVec 18 :=
  match b with
  | .src s => encSrc s
  | .imm v => (3 : BitVec 2) ++ v

/-! Qualifier layouts (R34). -/

def decMemQ (x : BitVec 16) : Except DecodeErr MemQ :=
  .ok ⟨.ofBits (x.extractLsb' 14 2), .ofBits (x.extractLsb' 12 2), x.getLsbD 11, x.getLsbD 10, x.getLsbD 9,
    .ofBits (x.extractLsb' 7 2), x.extractLsb' 0 7⟩
def encMemQ (q : MemQ) : BitVec 16 :=
  q.scope.bits ++ q.ord.bits ++ bit q.str ++ bit q.sc ++ bit q.poll ++ q.cpol.bits ++ q.disp
def decCopyQ (x : BitVec 16) : Except DecodeErr CopyQ :=
  if x.extractLsb' 0 9 = 0 then
    .ok ⟨x.extractLsb' 14 2, .ofBits (x.extractLsb' 12 2), x.getLsbD 11, .ofBits (x.extractLsb' 9 2)⟩
  else .error .mustBeZero
def encCopyQ (q : CopyQ) : BitVec 16 := q.cc ++ q.scope.bits ++ bit q.desc ++ q.cpol.bits ++ (0 : BitVec 9)
def decMatQ (x : BitVec 16) : Except DecodeErr MatQ :=
  if x.extractLsb' 0 7 = 0 then .ok ⟨x.extractLsb' 12 4, x.extractLsb' 8 4, x.getLsbD 7⟩ else .error .mustBeZero
def encMatQ (q : MatQ) : BitVec 16 := q.acc ++ q.cmask ++ bit q.bsrc ++ (0 : BitVec 7)
def decBankQ (x : BitVec 16) : Except DecodeErr BankQ :=
  if x.extractLsb' 0 12 = 0 then .ok ⟨.ofBits (x.extractLsb' 14 2), .ofBits (x.extractLsb' 12 2)⟩
  else .error .mustBeZero
def encBankQ (q : BankQ) : BitVec 16 := q.scope.bits ++ q.ord.bits ++ (0 : BitVec 12)
def decSyncQ (x : BitVec 16) : Except DecodeErr SyncQ :=
  if x.extractLsb' 0 4 = 0 then
    .ok ⟨.ofBits (x.extractLsb' 14 2), .ofBits (x.extractLsb' 12 2), x.extractLsb' 8 4, x.extractLsb' 4 4⟩
  else .error .mustBeZero
def encSyncQ (q : SyncQ) : BitVec 16 := q.scope.bits ++ q.ord.bits ++ q.frm ++ q.dest ++ (0 : BitVec 4)
def decCtlQ (x : BitVec 16) : Except DecodeErr (BitVec 16) := .ok x

def decGen {Q : Type} (q : BitVec 16 → Except DecodeErr Q) (f : Fields) : Except DecodeErr (Gen Q) :=
  match decDst f.d, decSrc f.a, decB f.b, q f.x with
  | .ok d, .ok a, .ok b, .ok x => .ok ⟨decHdr f, d, a, b, x⟩
  | .error e, _, _, _ => .error e
  | _, .error e, _, _ => .error e
  | _, _, .error e, _ => .error e
  | _, _, _, .error e => .error e
def encGen {Q : Type} (q : Q → BitVec 16) (op : BitVec 8) (var : BitVec 4) (o : Gen Q) : Fields :=
  ⟨op, var, encGuard o.hdr.guard, encSched o.hdr.sch, encDst o.d, encSrc o.a, encB o.b, q o.q⟩
def encCtl (op : BitVec 8) (var : BitVec 4) (o : Ctl) : Fields := encGen (fun x => x) op var o

/-! VAR tables. -/

def tOnly : List (Nat × Only) := [(0, .only)]
def tIntTy4 : List (Nat × IntTy4) := [(0, .s32), (1, .u32), (2, .s64), (3, .u64)]
def tIntTy : List (Nat × IntTy) := [(0, .s32), (1, .u32)]
def tMadTy : List (Nat × MadTy) := [(0, .s32), (1, .u32), (2, .wideS), (3, .wideU)]
def tShiftV : List (Nat × ShiftV) := [(0, .asGiven), (1, .wrap)]
def tExtV : List (Nat × ExtV) := [(0, .u32), (1, .s32)]
def tICond : List (Nat × ICond) :=
  [(0, .eq), (1, .ne), (2, .ltS), (3, .leS), (4, .gtS), (5, .geS), (6, .ltU), (7, .leU), (8, .gtU), (9, .geU)]
def tMovTy : List (Nat × MovTy) := [(0, .b32), (1, .b64)]
def tMovlsV : List (Nat × MovlsV) := [(0, .get), (1, .first), (2, .put)]
def tDp4V : List (Nat × Dp4V) := [(0, .s8s8), (1, .u8u8), (2, .s8u8), (3, .u8s8)]
def tFTy : List (Nat × FTy) := [(0, .f32), (1, .f16x2), (2, .bf16x2)]
def tFCond : List (Nat × FCond) :=
  [(0, .eq), (1, .ne), (2, .lt), (3, .le), (4, .gt), (5, .ge), (6, .num), (7, .nan)]
def tDotTy : List (Nat × DotTy) := [(0, .f16), (1, .bf16)]
def tCvtV : List (Nat × CvtV) :=
  [(0, .f32s32), (1, .f32u32), (2, .s32f32), (3, .u32f32), (4, .f32f16), (5, .f32bf16), (6, .f16x2), (7, .bf16x2),
   (8, .f8e4x2), (9, .f8e5x2), (10, .f32f8e4), (11, .f32f8e5), (12, .s8f32), (13, .i4f32), (14, .f32s8), (15, .f32i4)]
def tPackTy : List (Nat × PackTy) := [(0, .q4x), (1, .i4)]
def tShflV : List (Nat × ShflV) := [(0, .idx), (1, .up), (2, .down), (3, .xor)]
def tVoteV : List (Nat × VoteV) := [(0, .any), (1, .all), (2, .uni), (3, .ballot)]
def tRedOp : List (Nat × RedOp) :=
  [(0, .iadd), (1, .iminS), (2, .imaxS), (3, .iminU), (4, .imaxU), (5, .and), (6, .or), (7, .xor), (8, .fadd),
   (9, .fmin), (10, .fmax)]
def tScanV : List (Nat × ScanV) :=
  [(0, .iadd), (1, .iaddEx), (2, .fadd), (3, .faddEx), (4, .imaxS), (5, .iminS), (6, .imaxU), (7, .iminU), (8, .and),
   (9, .or), (10, .xor), (11, .fmax), (12, .fmin)]
def tRngTy : List (Nat × RngTy) := [(0, .u32), (1, .f32)]
def tP2vV : List (Nat × P2vV) := [(0, .pack), (1, .one)]
def tV2pV : List (Nat × V2pV) := [(0, .unpack), (1, .one)]
def tExmOp : List (Nat × ExmOp) := [(0, .set), (1, .or), (2, .andn), (3, .and)]
def tLdSz : List (Nat × LdSz) := [(0, .u8), (1, .s8), (2, .u16), (3, .s16), (4, .b32), (5, .b64), (6, .b128)]
def tStSz : List (Nat × StSz) := [(0, .b8), (2, .b16), (4, .b32), (5, .b64), (6, .b128)]
def tPrefV : List (Nat × PrefV) := [(0, .l1), (1, .l2)]
def tCctlV : List (Nat × CctlV) := [(0, .wb), (1, .inv), (2, .wball), (3, .invall), (4, .ipath)]
def tAtomOp : List (Nat × AtomOp) :=
  [(0, .addU32), (1, .minS32), (2, .maxS32), (3, .minU32), (4, .maxU32), (5, .and), (6, .or), (7, .xor), (8, .exch),
   (9, .fadd), (10, .fmin), (11, .fmax), (12, .addU64), (13, .exchB64)]
def tCasTy : List (Nat × CasTy) := [(0, .b32), (1, .b64)]
def tMatMode : List (Nat × MatMode) := [(0, .f32), (1, .f16), (2, .f8), (3, .q4f8)]
def tSparseS : List (Nat × SparseS) := [(0, .s8), (1, .s16), (2, .s32), (3, .s48)]
def tMrdFmt : List (Nat × MrdFmt) := [(0, .f32), (1, .bf16), (2, .f16), (3, .f8e4), (4, .f8e5)]
def tMaccV : List (Nat × MaccV) := [(1, .ld), (2, .ldadd)]
def tBupdOp : List (Nat × BupdOp) :=
  [(0, .iadd), (1, .fadd), (2, .fmin), (3, .fmax), (4, .ffma), (5, .mov), (6, .and), (7, .or)]
def tBredOp : List (Nat × BredOp) := [(0, .iadd), (1, .fadd), (2, .fmax), (3, .fmin), (4, .imaxS), (5, .iminS)]

/-- The variant of a VAR value. -/
def ofCode {V : Type} (t : List (Nat × V)) (c : Nat) : Except DecodeErr V :=
  match t.find? (fun p => p.1 == c) with
  | some p => .ok p.2
  | none => .error .reservedVariant

/-- The VAR value of a variant of the table. -/
def codeOf {V : Type} [DecidableEq V] (t : List (Nat × V)) (v : V) : BitVec 4 :=
  match t.find? (fun p => p.2 == v) with
  | some p => BitVec.ofNat 4 p.1
  | none => 0

def SparseV.bits (v : SparseV) : BitVec 4 :=
  (codeOf tSparseS v.s).extractLsb' 0 2 ++ (codeOf tMatMode v.mode).extractLsb' 0 2
def MrdV.bits (v : MrdV) : BitVec 4 := bit v.desc ++ (codeOf tMrdFmt v.fmt).extractLsb' 0 3
def BupdV.bits (v : BupdV) : BitVec 4 := bit v.vec ++ (codeOf tBupdOp v.op).extractLsb' 0 3

/-! Combinators: one variant table, one operand layout, one constructor. -/

def decVAlu {V : Type} (t : List (Nat × V)) (mk : V → Alu → Instr) (three : Bool) (f : Fields) : Except DecodeErr Instr :=
  match ofCode t f.var.toNat, decAlu three f with
  | .ok v, .ok o => .ok (mk v o)
  | .error e, _ => .error e
  | _, .error e => .error e
def decVGen {V Q : Type} (t : List (Nat × V)) (q : BitVec 16 → Except DecodeErr Q) (mk : V → Gen Q → Instr)
    (f : Fields) : Except DecodeErr Instr :=
  match ofCode t f.var.toNat, decGen q f with
  | .ok v, .ok o => .ok (mk v o)
  | .error e, _ => .error e
  | _, .error e => .error e
def decGen0 {Q : Type} (q : BitVec 16 → Except DecodeErr Q) (mk : Gen Q → Instr) (f : Fields) : Except DecodeErr Instr :=
  if f.var = 0 then
    match decGen q f with
    | .ok o => .ok (mk o)
    | .error e => .error e
  else .error .reservedVariant
def decCtl (mk : Ctl → Instr) (f : Fields) : Except DecodeErr Instr := decGen0 decCtlQ mk f
/-- HLOOP, HLOOPP, HLEXIT: VAR[1:0] is k, VAR[3:2] zero (R86, R87). -/
def decLoop (mk : BitVec 2 → Ctl → Instr) (f : Fields) : Except DecodeErr Instr :=
  if f.var.extractLsb' 2 2 = 0 then
    match decGen decCtlQ f with
    | .ok o => .ok (mk (f.var.extractLsb' 0 2) o)
    | .error e => .error e
  else .error .reservedVariant
/-- The operand layout q with any VAR. -/
def decAny {Q : Type} (q : BitVec 16 → Except DecodeErr Q) (mk : Gen Q → Except DecodeErr Instr) (f : Fields) :
    Except DecodeErr Instr :=
  match decGen q f with
  | .ok o => mk o
  | .error e => .error e
def decAnyAlu (mk : Alu → Instr) (f : Fields) : Except DecodeErr Instr :=
  match decAlu false f with
  | .ok o => .ok (mk o)
  | .error e => .error e
def decCpydsm (f : Fields) : Except DecodeErr Instr :=
  decAny decCopyQ (fun o =>
    match f.var.toNat with
    | 0 => .ok (.cpydsmTodsm o)
    | 1 => .ok (.cpydsmFromdsm o)
    | _ => .error .reservedVariant) f
def decMmas (f : Fields) : Except DecodeErr Instr :=
  decAny decMatQ (fun o =>
    match ofCode tMatMode (f.var.extractLsb' 0 2).toNat, ofCode tSparseS (f.var.extractLsb' 2 2).toNat with
    | .ok m, .ok s => .ok (.mmas ⟨m, s⟩ o)
    | .error e, _ => .error e
    | _, .error e => .error e) f
/-- MRD: X[7] chooses the memory form (R219). -/
def decMrd (f : Fields) : Except DecodeErr Instr :=
  decAny decMatQ (fun o =>
    if o.q.bsrc then
      match ofCode tMrdFmt (f.var.extractLsb' 0 3).toNat with
      | .ok t => .ok (.mrdMem ⟨t, f.var.getLsbD 3⟩ o)
      | .error e => .error e
    else if f.var = 0 then .ok (.mrd o) else .error .reservedVariant) f
def decMacc (f : Fields) : Except DecodeErr Instr :=
  decAny decMatQ (fun o =>
    if f.var = 0 then .ok (.maccAdd o)
    else
      match ofCode tMaccV f.var.toNat with
      | .ok v => .ok (.maccLd v o)
      | .error e => .error e) f
def decBupd (f : Fields) : Except DecodeErr Instr :=
  decAny decBankQ (fun o =>
    match ofCode tBupdOp (f.var.extractLsb' 0 3).toNat with
    | .ok op => .ok (.bupd ⟨op, f.var.getLsbD 3⟩ o)
    | .error e => .error e) f
def decCbar (f : Fields) : Except DecodeErr Instr :=
  decAny decSyncQ (fun o =>
    if f.var.extractLsb' 2 2 = 0 then .ok (.cbar (f.var.extractLsb' 0 2) o) else .error .reservedVariant) f
def decGsub (f : Fields) : Except DecodeErr Instr :=
  decAny decCtlQ (fun o =>
    match f.var.toNat with
    | 0 => .ok (.gsubGraph o)
    | 1 => .ok (.gsubNode o)
    | _ => .error .reservedVariant) f

/-- OP 0x00-0x0F (R37). -/
def decOp0 (lo : Nat) (f : Fields) : Except DecodeErr Instr :=
  match lo with
  | 0 => decCtl .nop f
  | 1 => decCtl .ifi f
  | 2 => decCtl .elsei f
  | 3 => decCtl .endif f
  | 4 => decCtl .loop f
  | 5 => decCtl .endloop f
  | 6 => decCtl .breaki f
  | 7 => decCtl .cont f
  | 8 => decLoop .hloop f
  | 9 => decLoop .hloopp f
  | 10 => decLoop .hlexit f
  | 11 => decCtl .jmp f
  | 12 => decCtl .jmps f
  | 13 => decCtl .call f
  | 14 => decCtl .ret f
  | _ => .error .unassignedOpcode

/-- OP 0x10-0x1F (R37). -/
def decOp1 (lo : Nat) (f : Fields) : Except DecodeErr Instr :=
  match lo with
  | 0 => decVAlu tIntTy4 .iadd false f
  | 1 => decVAlu tIntTy4 .isub false f
  | 2 => decVAlu tIntTy .imul false f
  | 3 => decVAlu tIntTy .imulhi false f
  | 4 => decVAlu tMadTy .imad true f
  | 5 => decVAlu tIntTy .imin false f
  | 6 => decVAlu tIntTy .imax false f
  | 7 => decVAlu tIntTy .iadif false f
  | 8 => decVAlu tShiftV .shl false f
  | 9 => decVAlu tShiftV .shr false f
  | 10 => decVAlu tShiftV .sar false f
  | 11 => decVAlu tOnly .rol false f
  | 12 => decVAlu tOnly .and false f
  | 13 => decVAlu tOnly .or false f
  | 14 => decVAlu tOnly .xor false f
  | 15 => decVAlu tOnly .andn false f
  | _ => .error .unassignedOpcode

/-- OP 0x20-0x2F (R37). -/
def decOp2 (lo : Nat) (f : Fields) : Except DecodeErr Instr :=
  match lo with
  | 0 => decVAlu tExtV .bfe false f
  | 1 => decVAlu tOnly .bfi true f
  | 2 => decVAlu tOnly .popc false f
  | 3 => decVAlu tOnly .clz false f
  | 4 => decVAlu tOnly .brev false f
  | 5 => decVAlu tICond .icmp false f
  | 6 => decAnyAlu (.sel ⟨f.var.getLsbD 3, f.var.extractLsb' 0 3⟩) f
  | 7 => decAnyAlu (.lea ⟨f.var.getLsbD 3, f.var.extractLsb' 0 3⟩) f
  | 8 => decVAlu tMovTy .mov false f
  | 9 => decVAlu tMovlsV .movls false f
  | 10 => decVAlu tOnly .movsr false f
  | 11 => decVAlu tOnly .movrs false f
  | 12 => decVAlu tOnly .prmt true f
  | 13 => decVAlu tDp4V .dp4 true f
  | _ => .error .unassignedOpcode

/-- OP 0x30-0x3F (R37). -/
def decOp3 (lo : Nat) (f : Fields) : Except DecodeErr Instr :=
  match lo with
  | 0 => decVAlu tFTy .fadd false f
  | 1 => decVAlu tFTy .fmul false f
  | 2 => decVAlu tFTy .ffma true f
  | 3 => decVAlu tFTy .fmin false f
  | 4 => decVAlu tFTy .fmax false f
  | 5 => decVAlu tFCond .fcmp false f
  | 6 => decVAlu tFTy .frnd false f
  | 7 => decVAlu tOnly .fldexp false f
  | 8 => decVAlu tOnly .fdiv false f
  | 9 => decVAlu tOnly .fsqrt false f
  | 10 => decVAlu tDotTy .fdot2 true f
  | _ => .error .unassignedOpcode

/-- OP 0x40-0x4F (R37). -/
def decOp4 (lo : Nat) (f : Fields) : Except DecodeErr Instr :=
  match lo with
  | 0 => decVAlu tOnly .rcp false f
  | 1 => decVAlu tOnly .rsq false f
  | 2 => decVAlu tOnly .exp2 false f
  | 3 => decVAlu tOnly .log2 false f
  | 4 => decVAlu tOnly .sinpi false f
  | 5 => decVAlu tOnly .cospi false f
  | 6 => decVAlu tOnly .tanh false f
  | 7 => decVAlu tCvtV .cvt false f
  | 8 => decVAlu tPackTy .packq false f
  | 9 => decVAlu tPackTy .unpkq false f
  | _ => .error .unassignedOpcode

/-- OP 0x50-0x5F (R37). -/
def decOp5 (lo : Nat) (f : Fields) : Except DecodeErr Instr :=
  match lo with
  | 0 => decVAlu tShflV .shfl false f
  | 1 => decVAlu tVoteV .vote false f
  | 2 => decVAlu tRedOp .gred false f
  | 3 => decVAlu tScanV .gscan false f
  | 4 => decVAlu tOnly .xshfl false f
  | 5 => decVAlu tRngTy .rng false f
  | _ => .error .unassignedOpcode

/-- OP 0x60-0x6F (R37). -/
def decOp6 (lo : Nat) (f : Fields) : Except DecodeErr Instr :=
  match lo with
  | 0 => decAnyAlu (.plop f.var) f
  | 1 => decVAlu tP2vV .p2v false f
  | 2 => decVAlu tV2pV .v2p false f
  | 3 => decVAlu tExmOp .setexm false f
  | _ => .error .unassignedOpcode

/-- OP 0x70-0x7F (R37). -/
def decOp7 (lo : Nat) (f : Fields) : Except DecodeErr Instr :=
  match lo with
  | 0 => decVGen tLdSz decMemQ .ld f
  | 1 => decVGen tStSz decMemQ .st f
  | 2 => decVGen tLdSz decMemQ .lds f
  | 3 => decVGen tStSz decMemQ .sts f
  | 4 => decVGen tLdSz decMemQ .ldu f
  | 5 => decVGen tStSz decMemQ .stu f
  | 6 => decVGen tOnly decMemQ .ldq f
  | 7 => decVGen tOnly decMemQ .lddesc f
  | 8 => decVGen tOnly decMemQ .stdesc f
  | 9 => decVGen tPrefV decMemQ .pref f
  | 10 => decVGen tCctlV decMemQ .cctl f
  | _ => .error .unassignedOpcode

/-- OP 0x80-0x8F (R37). -/
def decOp8 (lo : Nat) (f : Fields) : Except DecodeErr Instr :=
  match lo with
  | 0 => decVGen tAtomOp decMemQ .atom f
  | 1 => decVGen tCasTy decMemQ .atomcas f
  | 2 => decVGen tAtomOp decMemQ .red f
  | 3 => decVGen tAtomOp decMemQ .atoms f
  | 4 => decVGen tOnly decMemQ .cass f
  | _ => .error .unassignedOpcode

/-- OP 0x90-0x9F (R37). -/
def decOp9 (lo : Nat) (f : Fields) : Except DecodeErr Instr :=
  match lo with
  | 0 => decGen0 decCopyQ .cpyin f
  | 1 => decGen0 decCopyQ .cpyout f
  | 2 => decGen0 decCopyQ .cpygth f
  | 3 => decGen0 decCopyQ .cpyreg f
  | 4 => decCpydsm f
  | 5 => decGen0 decCopyQ .cpywait f
  | 6 => decGen0 decCopyQ .cpystat f
  | _ => .error .unassignedOpcode

/-- OP 0xA0-0xAF (R37). -/
def decOpA (lo : Nat) (f : Fields) : Except DecodeErr Instr :=
  match lo with
  | 0 => decGen0 decMatQ .mchain f
  | 1 => decGen0 decMatQ .mcend f
  | 2 => decGen0 decMatQ .mldb f
  | 3 => decVGen tMatMode decMatQ .mma f
  | 4 => decMmas f
  | 5 => decGen0 decMatQ .mzero f
  | 6 => decMrd f
  | 7 => decGen0 decMatQ .mquire f
  | 8 => decGen0 decMatQ .mwait f
  | 9 => decMacc f
  | _ => .error .unassignedOpcode

/-- OP 0xB0-0xBF (R37). -/
def decOpB (lo : Nat) (f : Fields) : Except DecodeErr Instr :=
  match lo with
  | 0 => decBupd f
  | 1 => decVGen tBredOp decBankQ .bred f
  | 2 => decGen0 decBankQ .vtopk f
  | 3 => decGen0 decBankQ .vsmax f
  | 4 => decGen0 decBankQ .vsamp f
  | 5 => decGen0 decBankQ .bwait f
  | _ => .error .unassignedOpcode

/-- OP 0xC0-0xCF (R37). -/
def decOpC (lo : Nat) (f : Fields) : Except DecodeErr Instr :=
  match lo with
  | 0 => decAny decSyncQ (fun o => .ok (.bar f.var o)) f
  | 1 => decAny decSyncQ (fun o => .ok (.bararv f.var o)) f
  | 2 => decAny decSyncQ (fun o => .ok (.barwt f.var o)) f
  | 3 => decCbar f
  | 4 => decGen0 decSyncQ .fence f
  | 5 => decGen0 decSyncQ .pfence f
  | 6 => decGen0 decSyncQ .tadv f
  | _ => .error .unassignedOpcode

/-- OP 0xD0-0xDF (R37). -/
def decOpD (lo : Nat) (f : Fields) : Except DecodeErr Instr :=
  match lo with
  | 0 => decCtl .exit f
  | 1 => decCtl .trap f
  | 2 => decCtl .rte f
  | 3 => decCtl .bkpt f
  | 4 => decCtl .yieldi f
  | 5 => decCtl .sleep f
  | 6 => decCtl .divst f
  | 7 => decCtl .inflt f
  | _ => .error .unassignedOpcode

/-- OP 0xE0-0xEF (R37). -/
def decOpE (lo : Nat) (f : Fields) : Except DecodeErr Instr :=
  match lo with
  | 0 => decGsub f
  | 1 => decCtl .evpop f
  | 2 => decCtl .evwait f
  | 3 => decCtl .nrel f
  | 4 => decCtl .folio f
  | 5 => decCtl .ctxsus f
  | 6 => decCtl .ctxres f
  | 7 => decCtl .budget f
  | _ => .error .unassignedOpcode

/-- Step 1 and step 4 of R38: the operation of OP, its variant and its fields. -/
def decodeFields (f : Fields) : Except DecodeErr Instr :=
  match (f.op.extractLsb' 4 4).toNat with
  | 0 => decOp0 (f.op.extractLsb' 0 4).toNat f
  | 1 => decOp1 (f.op.extractLsb' 0 4).toNat f
  | 2 => decOp2 (f.op.extractLsb' 0 4).toNat f
  | 3 => decOp3 (f.op.extractLsb' 0 4).toNat f
  | 4 => decOp4 (f.op.extractLsb' 0 4).toNat f
  | 5 => decOp5 (f.op.extractLsb' 0 4).toNat f
  | 6 => decOp6 (f.op.extractLsb' 0 4).toNat f
  | 7 => decOp7 (f.op.extractLsb' 0 4).toNat f
  | 8 => decOp8 (f.op.extractLsb' 0 4).toNat f
  | 9 => decOp9 (f.op.extractLsb' 0 4).toNat f
  | 10 => decOpA (f.op.extractLsb' 0 4).toNat f
  | 11 => decOpB (f.op.extractLsb' 0 4).toNat f
  | 12 => decOpC (f.op.extractLsb' 0 4).toNat f
  | 13 => decOpD (f.op.extractLsb' 0 4).toNat f
  | 14 => decOpE (f.op.extractLsb' 0 4).toNat f
  | _ => .error .unassignedOpcode

/-- Step 3 of R38: opcodes a domain control core does not execute (R276). -/
def notOnDccOp (op : Nat) : Bool :=
  op == 0x54 || (0x90 ≤ op && op ≤ 0x96) || (0xA0 ≤ op && op ≤ 0xA9) || (0xC0 ≤ op && op ≤ 0xC3) || op == 0xC6

/-- What a domain control core refuses at step 4: a PFENCE that names CP or MX (R304). -/
def dccIllFormed (i : Instr) : Bool :=
  match i with
  | .pfence o => (o.q.frm ||| o.q.dest) &&& 0b0110#4 != 0
  | _ => false

/-- OP is assigned (R37, step 1 of R38). -/
def assigned (op : Nat) : Bool :=
  op ≤ 0x0E || (0x10 ≤ op && op ≤ 0x2D) || (0x30 ≤ op && op ≤ 0x3A) || (0x40 ≤ op && op ≤ 0x49) ||
    (0x50 ≤ op && op ≤ 0x55) || (0x60 ≤ op && op ≤ 0x63) || (0x70 ≤ op && op ≤ 0x7A) || (0x80 ≤ op && op ≤ 0x84) ||
    (0x90 ≤ op && op ≤ 0x96) || (0xA0 ≤ op && op ≤ 0xA9) || (0xB0 ≤ op && op ≤ 0xB5) || (0xC0 ≤ op && op ≤ 0xC6) ||
    (0xD0 ≤ op && op ≤ 0xD7) || (0xE0 ≤ op && op ≤ 0xE7)

/-- R38, in its order: what the word means on a general core or on a domain control core. -/
def decode (onDcc : Bool) (w : BitVec 96) : Except DecodeErr Instr :=
  let f := Fields.ofWord w
  let op := f.op.toNat
  if !assigned op then .error .unassignedOpcode
  else if 0xE0 ≤ op && !onDcc then .error .outsideDcc
  else if onDcc && notOnDccOp op then .error .notOnDcc
  else
    match decodeFields f with
    | .error e => .error e
    | .ok i => if !i.wf || (onDcc && dccIllFormed i) then .error .illFormed else .ok i

/-- The word at twelve bytes in ascending address order (R18). -/
def wordOfBytes (bs : List Byte) : BitVec 96 := BitVec.ofNat 96 (bs.foldr (fun b acc => b.toNat + 256 * acc) 0)

/-- The twelve bytes of a word in ascending address order (R18). -/
def bytesOfWord (w : BitVec 96) : List Byte := (List.range 12).map fun i => w.extractLsb' (8 * i) 8

/-- The decoder over bytes: the first twelve and what is left of the list. -/
def decodeBytes (onDcc : Bool) (bs : List Byte) : Except DecodeErr (Instr × List Byte) :=
  match decode onDcc (wordOfBytes (bs.take 12)) with
  | .ok i => .ok (i, bs.drop 12)
  | .error e => .error e

/-- An OP that only a domain control core executes (R38). -/
def dccOnlyOp (op : Nat) : Bool := decide (0xE0 ≤ op)

/-- The instruction read from bits numbered as the opcode table numbers them; a word of OP 0xE0-0xE7 is read as a
domain control core reads it, any other as a general core does. -/
def decodeTableWord (_nbits w : Nat) : Option Instr :=
  let v := BitVec.ofNat 96 w
  match decodeBytes (dccOnlyOp (v.extractLsb' 88 8).toNat) (bytesOfWord v) with
  | .ok (i, _) => some i
  | .error _ => none

/-! The encoder. -/

/-- The fields of an instruction; none for a step that no word encodes. -/
def encodeFields (i : Instr) : Option Fields :=
  match i with
  | .nop o => some (encCtl 0x0 0 o) | .ifi o => some (encCtl 0x1 0 o) | .elsei o => some (encCtl 0x2 0 o)
  | .endif o => some (encCtl 0x3 0 o) | .loop o => some (encCtl 0x4 0 o) | .endloop o => some (encCtl 0x5 0 o)
  | .breaki o => some (encCtl 0x6 0 o) | .cont o => some (encCtl 0x7 0 o)
  | .hloop k o => some (encCtl 0x8 (k.setWidth 4) o) | .hloopp k o => some (encCtl 0x9 (k.setWidth 4) o)
  | .hlexit k o => some (encCtl 0xA (k.setWidth 4) o) | .jmp o => some (encCtl 0xB 0 o)
  | .jmps o => some (encCtl 0xC 0 o) | .call o => some (encCtl 0xD 0 o) | .ret o => some (encCtl 0xE 0 o)
  | .iadd v o => some (encAlu 0x10 (codeOf tIntTy4 v) o) | .isub v o => some (encAlu 0x11 (codeOf tIntTy4 v) o)
  | .imul v o => some (encAlu 0x12 (codeOf tIntTy v) o) | .imulhi v o => some (encAlu 0x13 (codeOf tIntTy v) o)
  | .imad v o => some (encAlu 0x14 (codeOf tMadTy v) o) | .imin v o => some (encAlu 0x15 (codeOf tIntTy v) o)
  | .imax v o => some (encAlu 0x16 (codeOf tIntTy v) o) | .iadif v o => some (encAlu 0x17 (codeOf tIntTy v) o)
  | .shl v o => some (encAlu 0x18 (codeOf tShiftV v) o) | .shr v o => some (encAlu 0x19 (codeOf tShiftV v) o)
  | .sar v o => some (encAlu 0x1A (codeOf tShiftV v) o) | .rol v o => some (encAlu 0x1B (codeOf tOnly v) o)
  | .and v o => some (encAlu 0x1C (codeOf tOnly v) o) | .or v o => some (encAlu 0x1D (codeOf tOnly v) o)
  | .xor v o => some (encAlu 0x1E (codeOf tOnly v) o) | .andn v o => some (encAlu 0x1F (codeOf tOnly v) o)
  | .bfe v o => some (encAlu 0x20 (codeOf tExtV v) o) | .bfi v o => some (encAlu 0x21 (codeOf tOnly v) o)
  | .popc v o => some (encAlu 0x22 (codeOf tOnly v) o) | .clz v o => some (encAlu 0x23 (codeOf tOnly v) o)
  | .brev v o => some (encAlu 0x24 (codeOf tOnly v) o) | .icmp v o => some (encAlu 0x25 (codeOf tICond v) o)
  | .sel v o => some (encAlu 0x26 (bit v.neg ++ v.k) o) | .lea v o => some (encAlu 0x27 (bit v.sx ++ v.n) o)
  | .mov v o => some (encAlu 0x28 (codeOf tMovTy v) o) | .movls v o => some (encAlu 0x29 (codeOf tMovlsV v) o)
  | .movsr v o => some (encAlu 0x2A (codeOf tOnly v) o) | .movrs v o => some (encAlu 0x2B (codeOf tOnly v) o)
  | .prmt v o => some (encAlu 0x2C (codeOf tOnly v) o) | .dp4 v o => some (encAlu 0x2D (codeOf tDp4V v) o)
  | .fadd v o => some (encAlu 0x30 (codeOf tFTy v) o) | .fmul v o => some (encAlu 0x31 (codeOf tFTy v) o)
  | .ffma v o => some (encAlu 0x32 (codeOf tFTy v) o) | .fmin v o => some (encAlu 0x33 (codeOf tFTy v) o)
  | .fmax v o => some (encAlu 0x34 (codeOf tFTy v) o) | .fcmp v o => some (encAlu 0x35 (codeOf tFCond v) o)
  | .frnd v o => some (encAlu 0x36 (codeOf tFTy v) o) | .fldexp v o => some (encAlu 0x37 (codeOf tOnly v) o)
  | .fdiv v o => some (encAlu 0x38 (codeOf tOnly v) o) | .fsqrt v o => some (encAlu 0x39 (codeOf tOnly v) o)
  | .fdot2 v o => some (encAlu 0x3A (codeOf tDotTy v) o) | .rcp v o => some (encAlu 0x40 (codeOf tOnly v) o)
  | .rsq v o => some (encAlu 0x41 (codeOf tOnly v) o) | .exp2 v o => some (encAlu 0x42 (codeOf tOnly v) o)
  | .log2 v o => some (encAlu 0x43 (codeOf tOnly v) o) | .sinpi v o => some (encAlu 0x44 (codeOf tOnly v) o)
  | .cospi v o => some (encAlu 0x45 (codeOf tOnly v) o) | .tanh v o => some (encAlu 0x46 (codeOf tOnly v) o)
  | .cvt v o => some (encAlu 0x47 (codeOf tCvtV v) o) | .packq v o => some (encAlu 0x48 (codeOf tPackTy v) o)
  | .unpkq v o => some (encAlu 0x49 (codeOf tPackTy v) o) | .shfl v o => some (encAlu 0x50 (codeOf tShflV v) o)
  | .vote v o => some (encAlu 0x51 (codeOf tVoteV v) o) | .gred v o => some (encAlu 0x52 (codeOf tRedOp v) o)
  | .gscan v o => some (encAlu 0x53 (codeOf tScanV v) o) | .xshfl v o => some (encAlu 0x54 (codeOf tOnly v) o)
  | .rng v o => some (encAlu 0x55 (codeOf tRngTy v) o) | .plop v o => some (encAlu 0x60 v o)
  | .p2v v o => some (encAlu 0x61 (codeOf tP2vV v) o) | .v2p v o => some (encAlu 0x62 (codeOf tV2pV v) o)
  | .setexm v o => some (encAlu 0x63 (codeOf tExmOp v) o)
  | .ld v o => some (encGen encMemQ 0x70 (codeOf tLdSz v) o)
  | .st v o => some (encGen encMemQ 0x71 (codeOf tStSz v) o)
  | .lds v o => some (encGen encMemQ 0x72 (codeOf tLdSz v) o)
  | .sts v o => some (encGen encMemQ 0x73 (codeOf tStSz v) o)
  | .ldu v o => some (encGen encMemQ 0x74 (codeOf tLdSz v) o)
  | .stu v o => some (encGen encMemQ 0x75 (codeOf tStSz v) o)
  | .ldq v o => some (encGen encMemQ 0x76 (codeOf tOnly v) o)
  | .lddesc v o => some (encGen encMemQ 0x77 (codeOf tOnly v) o)
  | .stdesc v o => some (encGen encMemQ 0x78 (codeOf tOnly v) o)
  | .pref v o => some (encGen encMemQ 0x79 (codeOf tPrefV v) o)
  | .cctl v o => some (encGen encMemQ 0x7A (codeOf tCctlV v) o)
  | .atom v o => some (encGen encMemQ 0x80 (codeOf tAtomOp v) o)
  | .atomcas v o => some (encGen encMemQ 0x81 (codeOf tCasTy v) o)
  | .red v o => some (encGen encMemQ 0x82 (codeOf tAtomOp v) o)
  | .atoms v o => some (encGen encMemQ 0x83 (codeOf tAtomOp v) o)
  | .cass v o => some (encGen encMemQ 0x84 (codeOf tOnly v) o) | .cpyin o => some (encGen encCopyQ 0x90 0 o)
  | .cpyout o => some (encGen encCopyQ 0x91 0 o) | .cpygth o => some (encGen encCopyQ 0x92 0 o)
  | .cpyreg o => some (encGen encCopyQ 0x93 0 o) | .cpywait o => some (encGen encCopyQ 0x95 0 o)
  | .cpystat o => some (encGen encCopyQ 0x96 0 o) | .cpydsmTodsm o => some (encGen encCopyQ 0x94 0 o)
  | .cpydsmFromdsm o => some (encGen encCopyQ 0x94 1 o) | .mchain o => some (encGen encMatQ 0xA0 0 o)
  | .mcend o => some (encGen encMatQ 0xA1 0 o) | .mldb o => some (encGen encMatQ 0xA2 0 o)
  | .mzero o => some (encGen encMatQ 0xA5 0 o) | .mquire o => some (encGen encMatQ 0xA7 0 o)
  | .mwait o => some (encGen encMatQ 0xA8 0 o) | .mma v o => some (encGen encMatQ 0xA3 (codeOf tMatMode v) o)
  | .mmas v o => some (encGen encMatQ 0xA4 (SparseV.bits v) o) | .mrd o => some (encGen encMatQ 0xA6 0 o)
  | .mrdMem v o => some (encGen encMatQ 0xA6 (MrdV.bits v) o) | .maccAdd o => some (encGen encMatQ 0xA9 0 o)
  | .maccLd v o => some (encGen encMatQ 0xA9 (codeOf tMaccV v) o)
  | .bupd v o => some (encGen encBankQ 0xB0 (BupdV.bits v) o)
  | .bred v o => some (encGen encBankQ 0xB1 (codeOf tBredOp v) o) | .vtopk o => some (encGen encBankQ 0xB2 0 o)
  | .vsmax o => some (encGen encBankQ 0xB3 0 o) | .vsamp o => some (encGen encBankQ 0xB4 0 o)
  | .bwait o => some (encGen encBankQ 0xB5 0 o) | .bar n o => some (encGen encSyncQ 0xC0 n o)
  | .bararv n o => some (encGen encSyncQ 0xC1 n o) | .barwt n o => some (encGen encSyncQ 0xC2 n o)
  | .cbar n o => some (encGen encSyncQ 0xC3 (n.setWidth 4) o) | .fence o => some (encGen encSyncQ 0xC4 0 o)
  | .pfence o => some (encGen encSyncQ 0xC5 0 o) | .tadv o => some (encGen encSyncQ 0xC6 0 o)
  | .exit o => some (encCtl 0xD0 0 o) | .trap o => some (encCtl 0xD1 0 o) | .rte o => some (encCtl 0xD2 0 o)
  | .bkpt o => some (encCtl 0xD3 0 o) | .yieldi o => some (encCtl 0xD4 0 o) | .sleep o => some (encCtl 0xD5 0 o)
  | .divst o => some (encCtl 0xD6 0 o) | .inflt o => some (encCtl 0xD7 0 o) | .evpop o => some (encCtl 0xE1 0 o)
  | .evwait o => some (encCtl 0xE2 0 o) | .nrel o => some (encCtl 0xE3 0 o) | .folio o => some (encCtl 0xE4 0 o)
  | .ctxsus o => some (encCtl 0xE5 0 o) | .ctxres o => some (encCtl 0xE6 0 o) | .budget o => some (encCtl 0xE7 0 o)
  | .gsubGraph o => some (encCtl 0xE0 0 o) | .gsubNode o => some (encCtl 0xE0 1 o)
  | .xshflTimeout _ => none | .groupSlotFree _ => none | .teamResourcesFree _ => none | .sleepExpiry _ => none
  | .evwaitTimeout _ => none | .fixedResultLand _ => none | .variableResultLand _ _ _ => none
  | .instructionReplay _ => none | .trapEntry _ => none | .teamStart _ => none | .clusterPlacement _ => none
  | .nodeReady _ => none | .dccProgramStart _ => none | .nodeComplete _ => none | .colophonRetry _ => none
  | .defqWrite _ _ _ => none | .evpostWrite _ _ => none | .scTicketGrant => none | .pageWalk _ => none
  | .heldFaultRecordAppend _ => none | .replay _ _ => none | .tlbcmdRange _ _ _ => none | .tlbcmdAsid _ => none
  | .tlbcmdAll => none | .ctlbRange _ _ _ => none | .ctlbAsid _ => none | .tlbcmdDone _ => none
  | .l1cfg _ _ => none | .l1SizeChange _ => none | .dsmcfg _ _ => none | .dsmSizeChange _ => none
  | .logicalTimeTick _ => none | .domainWrap _ => none | .epochSweepDone _ => none | .l1Fill _ => none
  | .leaseGrant _ => none | .sliceWrite _ => none | .writeBackAck _ => none | .sliceFill _ => none
  | .readShared _ => none | .writePermission _ => none | .waferScopeRead _ => none | .invalidation _ => none
  | .forward _ => none | .recall _ => none | .invalidationAck _ => none | .ownerWriteBack _ => none
  | .nearBankAtomic _ => none | .bankOperation _ => none | .bankTicketComplete _ => none | .copyStart _ => none
  | .copyComplete _ => none | .copyPageResume _ => none | .matrixSubtileStart _ _ => none
  | .matrixOpComplete _ => none | .matrixFaultResume _ => none | .cmdSuspend _ _ _ => none
  | .cmdResume _ _ _ => none | .spineSuspend _ _ _ => none | .spineReasonEnd _ _ => none
  | .teamSaveComplete _ => none | .divertedArrival _ => none | .accImageSave _ => none | .dawn _ => none
  | .landingBufferArrival _ => none | .step _ _ => none | .dfactRetire _ _ _ => none | .dfactReturn _ _ _ => none
  | .dbgctl _ _ => none | .sampleWrite _ => none | .watchpointArm _ _ _ => none
  | .watchpointArmComplete _ _ => none | .watchpointDisarm _ _ _ => none | .watchpointReport _ => none
  | .binlo _ _ _ => none | .elo _ _ => none | .ehi _ _ => none | .meteringIntervalEnd => none
  | .energyWindowEnd => none | .sensorUpdate _ _ _ _ => none | .talRefill _ => none | .tal _ _ => none
  | .patUpdate _ => none | .ppat _ _ _ => none | .powctl _ _ => none | .refreshIntervalStart _ => none
  | .refreshWindow _ _ => none | .topologyRetire _ _ => none | .almpol _ => none | .almlock _ => none
  | .alarm _ => none | .bootImageCheck _ => none | .attestationQuote _ => none | .moduleReset => none
  | .hostInboundRead _ _ _ => none | .hostInboundWrite _ _ _ _ => none | .hostInboundAtomic _ _ _ => none
  | .peerInboundAccess _ _ _ => none | .outboundFlushCompletion _ => none | .linkDown _ => none
  | .linkCrcReplay _ _ _ => none | .registerWrite _ _ _ _ => none | .linkUp _ => none | .peerWriteAck _ => none
  | .yieldExpiry _ => none | .contextCreate _ _ => none | .contextDestroy _ => none | .debugUnlock _ _ => none
  | .markDegraded _ _ => none

/-- The word of an instruction (R19). -/
def encode (i : Instr) : Option (BitVec 96) := (encodeFields i).map Fields.toWord

/-- The core an instruction's word is read on: a domain control core for its own opcodes. -/
def Instr.onDcc (i : Instr) : Bool :=
  match encodeFields i with
  | some f => dccOnlyOp f.op.toNat
  | none => false

end Sys2Proof
end

