-- ==== Sys2Proof/Machine/Issue.lean ====
section
/-! DEFINITION. Fetch, and the choice of the next instruction: ports, occupancy, operand delivery, prefetch, reuse latches and the
rotation among groups (R40-R44, R79, R82-R84, R168, R180, R275, R367). -/

namespace Sys2Proof.Machine

/-! What the choice needs to know of an instruction (R40). -/

/-- An instruction word's header; whether its port is M; whether it acts on memory, an engine or the spine; its occupancy; the registers it
reads, position 3 for the data of a store. -/
structure IssueForm where
  hdr : Hdr
  m : Bool
  acts : Bool
  occ : Nat
  uses : List Use
  deriving DecidableEq, Repr

def aluForm (m : Bool) (occ : Nat) (acc : Acc) (o : Alu) : Option IssueForm :=
  some ⟨o.hdr, m, false, occ,
    aluUses o ⟨acc.wd, acc.wa, acc.wb, acc.wc⟩ (!acc.af.isEmpty && !acc.predA) (!acc.bf.isEmpty && !acc.predB) acc.single⟩

/-- The data registers of a store or exchange. -/
def dataUse (d : Dst) (n : Nat) : List Use := [⟨3, if d.file == .scal then .scal else .vec, d.reg.toNat, n, false, Perm.id⟩]

/-- Port, occupancy (R40) and sources of an instruction word; none for a step that no word encodes. -/
def issueForm (i : Instr) : Option IssueForm :=
  match i with
  | .nop o => some ⟨o.hdr, true, false, 1, []⟩
  | .ifi o => some ⟨o.hdr, true, false, 1, []⟩
  | .elsei o => some ⟨o.hdr, true, false, 1, []⟩
  | .endif o => some ⟨o.hdr, true, false, 1, []⟩
  | .loop o => some ⟨o.hdr, true, false, 1, []⟩
  | .endloop o => some ⟨o.hdr, true, false, 1, []⟩
  | .breaki o => some ⟨o.hdr, true, false, 1, []⟩
  | .cont o => some ⟨o.hdr, true, false, 1, []⟩
  | .hloop _ o => some ⟨o.hdr, true, false, 1, (bopUse o.b 1)⟩
  | .hloopp _ o => some ⟨o.hdr, true, false, 1, (bopUse o.b 1)⟩
  | .hlexit _ o => some ⟨o.hdr, true, false, 1, []⟩
  | .jmp o => some ⟨o.hdr, true, false, 1, []⟩
  | .jmps o => some ⟨o.hdr, true, false, 1, [srcUse o.a 0 1 Perm.id]⟩
  | .call o => some ⟨o.hdr, true, false, 1, []⟩
  | .ret o => some ⟨o.hdr, true, false, 1, [srcUse o.a 0 2 Perm.id]⟩
  | .iadd v o => aluForm false 1 (accInt4 v) o
  | .isub v o => aluForm false 1 (accInt4 v) o
  | .imul _ o => aluForm false 1 accInt o
  | .imulhi _ o => aluForm false 1 accInt o
  | .imad v o => aluForm false 1 (accMad v) o
  | .imin _ o => aluForm false 1 accInt o
  | .imax _ o => aluForm false 1 accInt o
  | .iadif _ o => aluForm false 1 accInt o
  | .shl _ o => aluForm false 1 accBits o
  | .shr _ o => aluForm false 1 accBits o
  | .sar _ o => aluForm false 1 accBits o
  | .rol _ o => aluForm false 1 accBits o
  | .and _ o => aluForm false 1 accBits o
  | .or _ o => aluForm false 1 accBits o
  | .xor _ o => aluForm false 1 accBits o
  | .andn _ o => aluForm false 1 accBits o
  | .bfe _ o => aluForm false 1 accBits o
  | .bfi _ o => aluForm false 1 accThree o
  | .popc _ o => aluForm false 1 accUnary o
  | .clz _ o => aluForm false 1 accUnary o
  | .brev _ o => aluForm false 1 accUnary o
  | .icmp _ o => aluForm false 1 accCmp o
  | .sel _ o => aluForm false 1 accBits o
  | .lea _ o => aluForm false 1 accLea o
  | .mov v o => aluForm false 1 (accMov v) o
  | .movls v o => aluForm true 2 (accMovls v) o
  | .movsr _ o => aluForm true 1 accMovsr o
  | .movrs _ o => aluForm true 1 accMovrs o
  | .prmt _ o => aluForm false 1 accThree o
  | .dp4 _ o => aluForm false 1 accThree o
  | .fadd _ o => aluForm false 1 accFloat o
  | .fmul _ o => aluForm false 1 accFloat o
  | .ffma _ o => aluForm false 1 accFfma o
  | .fmin _ o => aluForm false 1 accFminmax o
  | .fmax _ o => aluForm false 1 accFminmax o
  | .fcmp _ o => aluForm false 1 accCmp o
  | .frnd _ o => aluForm false 1 accFrnd o
  | .fldexp _ o => aluForm false 1 accFloat o
  | .fdiv _ o => aluForm true 16 accFloat o
  | .fsqrt _ o => aluForm true 16 accFsqrt o
  | .fdot2 _ o => aluForm false 1 accFdot o
  | .rcp _ o => aluForm true 4 accSpecial o
  | .rsq _ o => aluForm true 4 accSpecial o
  | .exp2 _ o => aluForm true 4 accSpecial o
  | .log2 _ o => aluForm true 4 accSpecial o
  | .sinpi _ o => aluForm true 4 accSpecial o
  | .cospi _ o => aluForm true 4 accSpecial o
  | .tanh _ o => aluForm true 4 accSpecial o
  | .cvt v o => aluForm true 2 (accCvt v) o
  | .packq _ o => aluForm true 2 accPackq o
  | .unpkq _ o => aluForm true 2 accUnpkq o
  | .shfl _ o => aluForm true 2 accShfl o
  | .vote v o => aluForm true 2 (accVote v) o
  | .gred v o => aluForm true 2 (accGred v) o
  | .gscan v o => aluForm true 2 (accGscan v) o
  | .xshfl _ o => aluForm true 1 accXshfl o
  | .rng _ o => aluForm false 2 accRng o
  | .plop _ o => aluForm true 1 accPlop o
  | .p2v v o => aluForm true 1 (accP2v v) o
  | .v2p _ o => aluForm true 1 accV2p o
  | .setexm _ o => aluForm true 1 accSetexm o
  | .ld _ o => some ⟨o.hdr, true, true, 1, (srcUse o.a 0 2 Perm.id :: bopUse o.b 1)⟩
  | .st v o => some ⟨o.hdr, true, true, 1, (srcUse o.a 0 2 Perm.id :: bopUse o.b 1 ++ dataUse o.d v.regs)⟩
  | .lds _ o => some ⟨o.hdr, true, true, 1, (srcUse o.a 0 1 Perm.id :: bopUse o.b 1)⟩
  | .sts v o => some ⟨o.hdr, true, true, 1, (srcUse o.a 0 1 Perm.id :: bopUse o.b 1 ++ dataUse o.d v.regs)⟩
  | .ldu _ o => some ⟨o.hdr, true, true, 1, (srcUse o.a 0 2 Perm.id :: bopUse o.b 1)⟩
  | .stu v o => some ⟨o.hdr, true, true, 1, (srcUse o.a 0 2 Perm.id :: bopUse o.b 1 ++ dataUse o.d v.regs)⟩
  | .ldq _ o => some ⟨o.hdr, true, true, 1, (srcUse o.a 0 2 Perm.id :: bopUse o.b 1)⟩
  | .lddesc _ o => some ⟨o.hdr, true, true, 1, (srcUse o.a 0 2 Perm.id :: bopUse o.b 1)⟩
  | .stdesc _ o => some ⟨o.hdr, true, true, 1, (srcUse o.a 0 2 Perm.id :: bopUse o.b 1)⟩
  | .pref _ o => some ⟨o.hdr, true, true, 1, (srcUse o.a 0 2 Perm.id :: bopUse o.b 1)⟩
  | .cctl v o => some ⟨o.hdr, true, true, 1, (match v with
      | .wb => srcUse o.a 0 2 Perm.id :: bopUse o.b 1
      | .inv => srcUse o.a 0 2 Perm.id :: bopUse o.b 1
      | _ => [])⟩
  | .atom v o => some ⟨o.hdr, true, true, 1, (srcUse o.a 0 2 Perm.id :: bopUse o.b v.regs)⟩
  | .atomcas v o => some ⟨o.hdr, true, true, 1, (srcUse o.a 0 2 Perm.id :: bopUse o.b v.regs ++ dataUse o.d v.regs)⟩
  | .red v o => some ⟨o.hdr, true, true, 1, (srcUse o.a 0 2 Perm.id :: bopUse o.b v.regs)⟩
  | .atoms _ o => some ⟨o.hdr, true, true, 1, (srcUse o.a 0 1 Perm.id :: bopUse o.b 1)⟩
  | .cass _ o => some ⟨o.hdr, true, true, 1, (srcUse o.a 0 1 Perm.id :: bopUse o.b 1 ++ dataUse o.d 1)⟩
  | .cpyin o => some ⟨o.hdr, true, true, 1, [srcUse o.a 0 8 Perm.id]⟩
  | .cpyout o => some ⟨o.hdr, true, true, 1, [srcUse o.a 0 8 Perm.id]⟩
  | .cpygth o => some ⟨o.hdr, true, true, 1, [srcUse o.a 0 8 Perm.id]⟩
  | .cpyreg o => some ⟨o.hdr, true, true, 1, [srcUse o.a 0 8 Perm.id]⟩
  | .cpydsmTodsm o => some ⟨o.hdr, true, true, 1, [srcUse o.a 0 8 Perm.id]⟩
  | .cpydsmFromdsm o => some ⟨o.hdr, true, true, 1, [srcUse o.a 0 8 Perm.id]⟩
  | .cpywait o => some ⟨o.hdr, true, true, 1, (bopUse o.b 1)⟩
  | .cpystat o => some ⟨o.hdr, true, true, 1, []⟩
  | .mchain o => some ⟨o.hdr, true, true, 1, []⟩
  | .mcend o => some ⟨o.hdr, true, true, 1, []⟩
  | .mldb o => some ⟨o.hdr, true, true, 1, [srcUse o.a 0 8 Perm.id]⟩
  | .mma _ o => some ⟨o.hdr, true, true, 1, [srcUse o.a 0 8 Perm.id]⟩
  | .mmas _ o => some ⟨o.hdr, true, true, 1, [srcUse o.a 0 8 Perm.id]⟩
  | .mzero o => some ⟨o.hdr, true, true, 1, (bopUse o.b 1)⟩
  | .mrd o => some ⟨o.hdr, true, true, 1, (bopUse o.b 1)⟩
  | .mrdMem _ o => some ⟨o.hdr, true, true, 1, [srcUse o.a 0 8 Perm.id]⟩
  | .mquire o => some ⟨o.hdr, true, true, 1, []⟩
  | .mwait o => some ⟨o.hdr, true, true, 1, (bopUse o.b 1)⟩
  | .maccAdd o => some ⟨o.hdr, true, true, 1, (bopUse o.b 1)⟩
  | .maccLd _ o => some ⟨o.hdr, true, true, 1, [srcUse o.a 0 8 Perm.id]⟩
  | .bupd _ o => some ⟨o.hdr, true, true, 1, [srcUse o.a 0 8 Perm.id]⟩
  | .bred _ o => some ⟨o.hdr, true, true, 1, [srcUse o.a 0 8 Perm.id]⟩
  | .vtopk o => some ⟨o.hdr, true, true, 1, [srcUse o.a 0 8 Perm.id]⟩
  | .vsmax o => some ⟨o.hdr, true, true, 1, [srcUse o.a 0 8 Perm.id]⟩
  | .vsamp o => some ⟨o.hdr, true, true, 1, [srcUse o.a 0 8 Perm.id]⟩
  | .bwait o => some ⟨o.hdr, true, true, 1, (bopUse o.b 1)⟩
  | .bar _ o => some ⟨o.hdr, true, true, 1, (bopUse o.b 1)⟩
  | .bararv _ o => some ⟨o.hdr, true, true, 1, (bopUse o.b 1)⟩
  | .barwt _ o => some ⟨o.hdr, true, true, 1, []⟩
  | .cbar _ o => some ⟨o.hdr, true, true, 1, (bopUse o.b 1)⟩
  | .fence o => some ⟨o.hdr, true, true, 1, []⟩
  | .pfence o => some ⟨o.hdr, true, true, 1, []⟩
  | .tadv o => some ⟨o.hdr, true, true, 1, (bopUse o.b 1)⟩
  | .exit o => some ⟨o.hdr, true, false, 1, []⟩
  | .trap o => some ⟨o.hdr, true, false, 1, (bopUse o.b 1)⟩
  | .rte o => some ⟨o.hdr, true, false, 1, []⟩
  | .bkpt o => some ⟨o.hdr, true, false, 1, []⟩
  | .yieldi o => some ⟨o.hdr, true, false, 1, []⟩
  | .sleep o => some ⟨o.hdr, true, false, 1, (bopUse o.b 1)⟩
  | .divst o => some ⟨o.hdr, true, false, 1, []⟩
  | .inflt o => some ⟨o.hdr, true, false, 1, (bopUse o.b 1)⟩
  | .gsubGraph o => some ⟨o.hdr, true, true, 1, [srcUse o.a 0 2 Perm.id]⟩
  | .gsubNode o => some ⟨o.hdr, true, true, 1, [srcUse o.a 0 2 Perm.id]⟩
  | .evpop o => some ⟨o.hdr, true, true, 1, [srcUse o.a 0 2 Perm.id]⟩
  | .evwait o => some ⟨o.hdr, true, true, 1, (srcUse o.a 0 2 Perm.id :: bopUse o.b 1)⟩
  | .nrel o => some ⟨o.hdr, true, true, 1, [srcUse o.a 0 1 Perm.id]⟩
  | .folio o => some ⟨o.hdr, true, true, 1, [srcUse o.a 0 4 Perm.id]⟩
  | .ctxsus o => some ⟨o.hdr, true, true, 1, [srcUse o.a 0 4 Perm.id]⟩
  | .ctxres o => some ⟨o.hdr, true, true, 1, [srcUse o.a 0 4 Perm.id]⟩
  | .budget o => some ⟨o.hdr, true, true, 1, [srcUse o.a 0 4 Perm.id]⟩
  | .xshflTimeout _ | .groupSlotFree _ | .teamResourcesFree _ | .sleepExpiry _ | .evwaitTimeout _ | .fixedResultLand _ | .variableResultLand _ _ _
  | .instructionReplay _ | .trapEntry _ | .teamStart _ | .clusterPlacement _ | .nodeReady _ | .dccProgramStart _ | .nodeComplete _ | .colophonRetry _
  | .defqWrite _ _ _ | .evpostWrite _ _ | .scTicketGrant | .pageWalk _ | .heldFaultRecordAppend _ | .replay _ _ | .tlbcmdRange _ _ _ | .tlbcmdAsid _
  | .tlbcmdAll | .ctlbRange _ _ _ | .ctlbAsid _ | .tlbcmdDone _ | .l1cfg _ _ | .l1SizeChange _ | .dsmcfg _ _ | .dsmSizeChange _ | .logicalTimeTick _
  | .domainWrap _ | .epochSweepDone _ | .l1Fill _ | .leaseGrant _ | .sliceWrite _ | .writeBackAck _ | .sliceFill _ | .readShared _
  | .writePermission _ | .waferScopeRead _ | .invalidation _ | .forward _ | .recall _ | .invalidationAck _ | .ownerWriteBack _ | .nearBankAtomic _
  | .bankOperation _ | .bankTicketComplete _ | .copyStart _ | .copyComplete _ | .copyPageResume _ | .matrixSubtileStart _ _ | .matrixOpComplete _
  | .matrixFaultResume _ | .cmdSuspend _ _ _ | .cmdResume _ _ _ | .spineSuspend _ _ _ | .spineReasonEnd _ _ | .teamSaveComplete _
  | .divertedArrival _ | .accImageSave _ | .dawn _ | .landingBufferArrival _ | .step _ _ | .dfactRetire _ _ _ | .dfactReturn _ _ _ | .dbgctl _ _
  | .sampleWrite _ | .watchpointArm _ _ _ | .watchpointArmComplete _ _ | .watchpointDisarm _ _ _ | .watchpointReport _ | .binlo _ _ _ | .elo _ _
  | .ehi _ _ | .meteringIntervalEnd | .energyWindowEnd | .sensorUpdate _ _ _ _ | .talRefill _ | .tal _ _ | .patUpdate _ | .ppat _ _ _ | .powctl _ _
  | .refreshIntervalStart _ | .refreshWindow _ _ | .topologyRetire _ _ | .almpol _ | .almlock _ | .alarm _ | .bootImageCheck _ | .attestationQuote _
  | .moduleReset | .hostInboundRead _ _ _ | .hostInboundWrite _ _ _ _ | .hostInboundAtomic _ _ _ | .peerInboundAccess _ _ _
  | .outboundFlushCompletion _ | .linkDown _ | .linkCrcReplay _ _ _ | .registerWrite _ _ _ _ | .linkUp _ | .peerWriteAck _ | .yieldExpiry _
  | .contextCreate _ _ | .contextDestroy _ | .debugUnlock _ _ | .markDegraded _ _ => none

/-! Fetch (R18, R44). -/

/-- What stands at a group's pc: the twelve bytes with the lines that are read into the instruction path for them, a page to be
translated, or a trap. -/
inductive Fetched where
  | code (bs : List Byte) (lines : List Nat) | page (p : Nat) | fault (code : Nat)
  deriving DecidableEq, Repr

/-- The physical addresses of the twelve bytes, or the page that is not known. -/
def State.codeAddrs (s : State) (gid : Nat) (g : Group) : Except Nat (List Nat) :=
  let cid := gidCid gid
  let asid := s.asidOf g
  let pc := g.pc.toNat
  let n := min 12 (4096 - pc % 4096)
  let last := (pc + 11) % 2 ^ 48
  match s.tlbHit cid asid (pageOf pc) .exec g.priv with
  | some (.ok a _ _ _) =>
    if n = 12 then .ok ((List.range 12).map fun i => a + pc % 4096 + i)
    else
      match s.tlbHit cid asid (pageOf last) .exec g.priv with
      | some (.ok b _ _ _) => .ok ((List.range 12).map fun i => if i < n then a + pc % 4096 + i else b + i - n)
      | _ => .error (pageOf last)
  | _ => .error (pageOf pc)

/-- A byte as the core's memory path holds it now: its dirty words over the newest copy elsewhere. -/
def State.codeNow (s : State) (cid pa : Nat) : Byte :=
  match targetOf pa with
  | .topo o => s.topoByte o
  | _ =>
    match s.l1 cid (pa / 64) with
    | some x => if x.dirty.getLsbD (pa % 64 / 4) then x.data.getD (pa % 64) 0 else s.newestByte pa
    | none => s.newestByte pa

/-- The instruction path's byte, if a line that the group may still use holds it (R44). -/
def State.codeCached (s : State) (cid : Nat) (g : Group) (pa : Nat) : Option Byte :=
  match tget (s.core cid).icache (pa / 64) with
  | some l => if g.sched.codeGen ≤ l.gen then some (l.data.getD (pa % 64) 0) else none
  | none => none

/-- Fetch at pc. A line of the path that no longer agrees with memory is used or read again as the implementation picks; a line that the
path does not hold is read as memory is now, poisoned or not (R44, log 9, log 69). -/
def State.fetched (s : State) (gid : Nat) (g : Group) : Fetched :=
  let cid := gidCid gid
  match s.codeAddrs gid g with
  | .error p => .page p
  | .ok pas =>
    match pas.findSome? fun a => s.targetCheck g cid (s.asidOf g) a 12 .exec false true with
    | some c => .fault c
    | none =>
      let now := fun (a : Nat) => match s.codeCached cid g a with
        | none => true
        | some b => b != s.codeNow cid a && Config.codePick gid g.sched.issued
      .code (pas.map fun a => if now a then s.codeNow cid a else (s.codeCached cid g a).getD 0) (uniqueNats ((pas.filter now).map (· / 64)))

/-- A line is asked of memory for the instruction path: it is counted, and one that no slice holds comes from DRAM to its home slice (R59, R267, R354). -/
def State.askLineOfCode (s : State) (cid asid line : Nat) : State :=
  let asked := fun (s : State) => s.charge cid asid (s.lineBytes (cidDom cid) line .team true)
  match targetOf (64 * line) with
  | .dram _ _ => if (s.owner line).isNone then (asked s).homeFetch line else asked s
  | .dsm _ _ => asked s
  | _ => s

/-- Read lines into the instruction path, whole at one clock (log 9). -/
def State.fillCode (s : State) (cid asid : Nat) (lines : List Nat) : State :=
  lines.foldl (fun s line =>
    let data := (List.range 64).map fun i => s.codeNow cid (64 * line + i)
    (s.askLineOfCode cid asid line).modCore cid fun c => { c with icache := tput c.icache line ⟨data, c.igen⟩ }) s

/-! Operand delivery (R79, R82-R84). -/

/-- The physical registers that a use reads. -/
def Use.names (g : Group) (u : Use) : List RegName := (List.range u.count).filterMap fun i => srcName g u.file (u.reg + i)

/-- The lanes of a register that the running lanes read: of an instruction that no lane runs, none, so that it waits for no bank (log 68). -/
def Use.lanes (u : Use) (run : LaneMask) (n : RegName) : List Nat :=
  match n with
  | .vec _ => if u.pos = 0 then uniqueNats ((lanesOf run).map (permLane u.perm)) else lanesOf run
  | _ => if run = 0 then [] else [0]

/-- The eight slots that share ports and latches (R168). -/
def partition (gid : Nat) : Nat := gidSlot gid / 8
def latchKey (gid pos : Nat) : Nat := 3 * partition gid + pos

/-- Whether a source needs the banks: not in the window, nor latched (R79, R83). -/
def State.bankSource (s : State) (gid : Nat) (g : Group) (run : LaneMask) (u : Use) : Bool :=
  (u.names g).any fun n =>
    !((u.lanes run n).all fun l => g.forwarded n l) && !(decide (u.pos < 3) && (match tget (s.core (gidCid gid)).latches (latchKey gid u.pos) with
      | some (k, ns) => k == gid && ns.contains n
      | none => false))

/-- The clock at which the sources of the group's next instruction are delivered (R82, R84). The delay is R84's whatever pass of a loop it is: R394's
printed clocks leave it out (log 90). A repeated issue has its sources (R152). -/
def State.sourcesAt (s : State) (gid : Nat) (g : Group) (f : IssueForm) : Nat :=
  let clk := s.cclk (gidCid gid)
  if g.acc.isSome then clk
  else match g.sched.prefetch.find? fun (n, a, _) => n == g.sched.issued && a == g.pc.toNat with
  | some (_, _, t) => max clk t
  | none => if f.uses.any (s.bankSource gid g (g.runMask f.hdr)) then clk + Config.bankDelay else clk

/-- The live loops, innermost first: the address of the last and of the first instruction of the body. -/
def Group.bodies (g : Group) : List (Addr × Addr) :=
  [3, 2, 1, 0].filterMap fun n =>
    ((g.loops.find? fun l => l.live && l.level == n).map fun l => (l.endAt, l.hi ++ l.start ++ (0 : BitVec 2)))

/-- The loops after the instruction at a: HLOOP and HLOOPP begin one (R95, R96). -/
def begun (a : Addr) (ls : List (Addr × Addr)) : Instr → List (Addr × Addr)
  | .hloop _ o => if never o.hdr then ls else (target a (ofsOf o.q), a + 12) :: ls
  | .hloopp _ o => if never o.hdr then ls else (target a (ofsOf o.q), a + 12) :: ls
  | _ => ls

/-- The address n instructions ahead on the predicted path: it falls through and follows the back edges of hardware loops, those begun on
the way included, whatever their counts (R82, log 73). -/
def State.ahead (s : State) (gid : Nat) (g : Group) : Nat → Addr → List (Addr × Addr) → Addr
  | 0, a, _ => a
  | n + 1, a, ls =>
    let ls := match s.fetched gid { g with pc := a } with
      | .code bs _ =>
        match decode (isDcc (gidCid gid)) (wordOfBytes bs) with
        | .ok i => begun a ls i
        | .error _ => ls
      | _ => ls
    s.ahead gid g n (match ls with
      | (e, b) :: _ => if a == e then b else a + 12
      | [] => a + 12) ls

/-- The prefetch that an issue sets off: at most four are pending (R82). -/
def State.prefetched (s : State) (gid : Nat) (g : Group) (sch : Sched) (clk : Nat) : List (Nat × Nat × Nat) :=
  let pf := g.sched.prefetch.filter fun (n, _, _) => n > g.sched.issued
  let n := sch.pf.toNat
  if n = 0 || pf.length ≥ 4 then pf else pf ++ [(g.sched.issued + n, (s.ahead gid g n g.pc g.bodies).toNat, clk + Config.bankDelay)]

def ruBit (sch : Sched) : Nat → Bool
  | 0 => sch.rua
  | 1 => sch.rub
  | 2 => sch.ruc
  | _ => false

/-- The latches that an issue takes (R83): the registers of the source in each hinted position, both of a pair. A latch stays, for every
later read of the group that names it, until it is taken over or cleared (log 74). -/
def latchesAfter (t : Tbl (Nat × List RegName)) (gid : Nat) (g : Group) (f : IssueForm) : Tbl (Nat × List RegName) :=
  f.uses.foldl (fun t u => if ruBit f.hdr.sch u.pos && !(u.names g).isEmpty then tput t (latchKey gid u.pos) (gid, u.names g) else t) t

/-! Whether a group may issue (R41, R43, R168). -/

/-- Whether the group may be looked at in this clock. -/
def State.mayIssue (s : State) (gid : Nat) (g : Group) : Bool :=
  g.park == .running && !g.retired && !g.halted && s.pulsed (gidCid gid) && decide (g.sched.notBefore ≤ s.cclk (gidCid gid)) && g.sched.yieldAt.isNone &&
    !s.watchHolds gid g

/-- An acquire of the group is outstanding: what follows it waits (R196, log 21). -/
def Group.acquiring (g : Group) : Bool := g.vres.any fun v => v.own && v.acq.isSome

/-- A table that the instruction needs is full (R200, R220, R254). -/
def State.tableFull (s : State) (gid : Nat) (g : Group) (i : Instr) : Bool :=
  let copy := fun (o : Cpy) => g.runMask o.hdr != 0 && s.copyFull gid g o.q.cc.toNat
  let mat := fun (o : Mat) => g.runMask o.hdr == 0xFFFFFFFF && decide (g.mq.length ≥ 8)
  let bank := fun (o : Bnk) => g.runMask o.hdr != 0 && decide (s.banksHeld (gidCid gid) ≥ 64)
  match i with
  | .cpyin o => copy o
  | .cpyout o => copy o
  | .cpygth o => copy o
  | .cpyreg o => copy o
  | .cpydsmTodsm o => copy o
  | .cpydsmFromdsm o => copy o
  | .mldb o => mat o
  | .mma _ o => mat o
  | .mmas _ o => mat o
  | .mzero o => mat o
  | .mrd o => mat o
  | .mrdMem _ o => mat o
  | .maccAdd o => mat o
  | .maccLd _ o => mat o
  | .bupd _ o => bank o
  | .bred _ o => bank o
  | .vtopk o => bank o
  | .vsmax o => bank o
  | .vsamp o => bank o
  | _ => false

/-- Whether the instruction goes to port M; a DCC has one port (R275). -/
def onM (gid : Nat) (f : IssueForm) : Bool := f.m || isDcc (gidCid gid)
/-- A port of a partition of a core, as State.turns lists it. -/
def portKey (gid : Nat) (m : Bool) : Nat := 16 * gidCid gid + 2 * partition gid + bool1 m
/-- Until when a port is occupied. -/
def Core.busyUntil (c : Core) (p : Nat) (m : Bool) : Nat := (if m then c.busyM else c.busyV).getD p 0

/-- What a group does at its turn: nothing, an act of its own before an issue, or an instruction to be issued. -/
inductive Turn where
  | wait
  | act (s : State)
  | go (i : Instr) (f : IssueForm) (lines : List Nat)

/-- The pending cause taken first (R180). -/
def firstPending (l : List Pending) : Option Pending :=
  l.foldl (fun (b : Option Pending) p =>
    match b with
    | some q => if p.code < q.code then some p else b
    | none => some p) none

/-- A trap before the repeat of a memory instruction: its entry in the in-flight table is freed, and RTE issues it for the lanes of sr.replay
alone (R152, R182, R370). -/
def State.replayLeft (s : State) (gid : Nat) (g : Group) : State :=
  match g.acc with
  | none => s.putGroup gid g
  | some a =>
    let s := if a.key != 0 && !(g.vres.any fun v => v.infl == a.key) then s.inflFree (gidCid gid) a.key else s
    s.putGroup gid { g with sched := { g.sched with replayPc := some g.pc.toNat } }

/-- Take a pending cause before the next instruction (R179, R180, R374). -/
def State.takePending (s : State) (gid : Nat) (g : Group) (p : Pending) : State :=
  (s.replayLeft gid { g with pend := g.pend.filter (· != p) }).takeTrap gid
    { code := p.code, arg := p.arg, impr := p.code == 0x0E || p.code == 0x11 || p.code == 0x22, defer := p.code == 0x10, resume := g.pc.toNat, faddr := p.faddr,
      skid := if p.code == 0x22 then some (g.sched.issued - p.since) else none }

/-- The step trap (R367): the group is disarmed. -/
def State.stepTrap (s : State) (gid : Nat) (g : Group) (t : Team) : State :=
  let (s, n) := s.stopOrdinal t g.pc.toNat
  (s.replayLeft gid { g with sched := { g.sched with armed := false } }).takeTrap gid { code := 0x23, arg := n, resume := g.pc.toNat }

/-- Fetch awaits a translation. -/
def State.askCode (s : State) (gid : Nat) (g : Group) (page : Nat) : State :=
  let cid := gidCid gid
  let (s, id) := s.askWalk ⟨cidDom cid, cid, s.asidOf g, page, .exec, .ls, g.priv, some gid, false, .none⟩
  s.putGroup gid { g with park := .fetch id }

/-- A decoded instruction: the step trap, what holds it, the delay of its sources. -/
def State.decodedTurn (s : State) (gid : Nat) (g : Group) (i : Instr) (f : IssueForm) (lines : List Nat) : Turn :=
  let cid := gidCid gid
  let clk := s.cclk cid
  match s.teamOf g with
  | none => .wait
  | some t =>
    if g.sched.armed && f.hdr.sch.stop && !g.sched.fromRte then .act (s.stepTrap gid g t)
    else if (f.acts && g.acc.isNone && g.acquiring) || s.tableFull gid g i || decide (clk < (s.core cid).busyUntil (partition gid) (onM gid f)) then .wait
    else
      match g.sched.srcAt with
      | some t => if t ≤ clk then .go i f lines else .wait
      | none =>
        let t := s.sourcesAt gid g f
        if t ≤ clk then .go i f lines else .act (s.putGroup gid { g with sched := { g.sched with srcAt := some t } })

/-- The trap of a word that does not decode (R38). -/
def State.decodeTrap (s : State) (gid : Nat) (g : Group) (e : DecodeErr) : State := s.trapHere gid g (if e == .outsideDcc then 0x02 else 0x01) 0

/-- The memory or bank instruction that is to be issued again for its unfinished lanes (R152). -/
def Group.replays (g : Group) : Option Instr := if g.acc.isSome && g.park == .running then g.held else none

/-- A group's turn. A line of code that it needs is a request: beyond the cap or budget it is held at the core (R355). -/
def State.turn (s : State) (gid : Nat) (g : Group) : Turn :=
  if !s.mayIssue gid g then .wait
  else if g.sched.bad then
    .act (s.doubleFault gid { g with sched := { g.sched with bad := false } } { code := 0x02, arg := 2, resume := g.pc.toNat })
  else
    match if g.level then none else firstPending g.pend with
    | some p => .act (s.takePending gid g p)
    | none =>
      match g.replays with
      | some i =>
        match issueForm i with
        | some f => s.decodedTurn gid g i f []
        | none => .wait
      | none =>
      match s.fetched gid g with
      | .page p => .act (s.askCode gid g p)
      | .fault c => .act ((s.putGroup gid g).takeTrap gid { code := c, arg := 0, resume := g.pc.toNat })
      | .code bs lines =>
        if !lines.isEmpty && s.heldBy (gidCid gid) (s.asidOf g) then .wait
        else
        match decode (isDcc (gidCid gid)) (wordOfBytes bs) with
        | .error e => .act (s.decodeTrap gid g e)
        | .ok i =>
          match issueForm i with
          | some f => s.decodedTurn gid g i f lines
          | none => .wait

/-- A group waits for a line of code whose request is held (R355, R362). -/
def State.codeHeld (s : State) (gid : Nat) (g : Group) : Bool :=
  s.heldBy (gidCid gid) (s.asidOf g) && s.mayIssue gid g && g.replays.isNone && match s.fetched gid g with
    | .code _ lines => !lines.isEmpty
    | _ => false

/-! The choice (R168). -/

/-- A group that could issue: its number, itself, its instruction, its form, the lines its fetch reads. -/
abbrev Candidate := Nat × Group × Instr × IssueForm × List Nat

def Candidate.m (c : Candidate) : Bool := onM c.1 c.2.2.2.1
def Candidate.key (c : Candidate) : Nat := portKey c.1 c.m
def Group.starve (g : Group) (m : Bool) : Nat := if m then g.sched.starveM else g.sched.starveV
def Group.setStarve (g : Group) (m : Bool) (n : Nat) : Group :=
  { g with sched := if m then { g.sched with starveM := n } else { g.sched with starveV := n } }
def Group.isYoung (g : Group) : Bool := g.sched.young || !g.sched.poll.isEmpty
def Core.pointer (c : Core) (p : Nat) (m : Bool) : Nat := (if m then c.ptrM else c.ptrV).getD p 0

/-- Keep those that p accepts, or all when it accepts none. -/
def preferred {α : Type} (p : α → Bool) (l : List α) : List α := if (l.filter p).isEmpty then l else l.filter p

/-- The group that a port chooses among the eligible ones. -/
def State.choose (s : State) (cs : List Candidate) : Option Candidate :=
  let seq := fun (c : Candidate) => ((s.teamOf c.2.1).map (·.seq)).getD 0
  let cs :=
    if cs.any fun c => decide (c.2.1.starve c.m ≥ 64) then cs.filter fun c => decide (c.2.1.starve c.m ≥ 64)
    else preferred (fun (c : Candidate) => !c.2.1.isYoung) cs
  let first := cs.foldl (fun (m : Option Nat) c => some (min (m.getD (seq c)) (seq c))) none
  let cs := cs.filter fun c => some (seq c) == first
  match cs with
  | [] => none
  | c :: _ =>
    let p := (s.core (gidCid c.1)).pointer (partition c.1) c.m
    (cs.find? fun x => decide (p ≤ gidSlot x.1)).orElse fun _ => some c

/-- Starvation counts after a choice. -/
def State.starved (s : State) (cs : List Candidate) (gid : Nat) : State :=
  cs.foldl (fun s c => s.modGroup c.1 fun g => g.setStarve c.m (if c.1 = gid then 0 else g.starve c.m + 1)) s

/-- The instruction's sources meet a register word with an uncorrectable error: it reads as zero, with PSN or the poison trap (R294, R376). -/
def Group.meets (g : Group) (f : IssueForm) : Bool :=
  g.acc.isNone && !g.bad.isEmpty && f.uses.any fun u => (u.names g).any fun n => (u.lanes (g.runMask f.hdr) n).any fun l => g.badAt n l && !g.forwarded n l

/-- The state in which a chosen instruction is executed: its port is taken, it is counted, its prefetch and latches are set (not again at a
repeat), a stop site is noted, and a first instruction that must acquire has done so (R40, R82-R84, R152, R168, R284, R368, R375). -/
def State.begin (s : State) (cs : List Candidate) (c : Candidate) : State :=
  let (gid, g, i, f, lines) := c
  let cid := gidCid gid
  let clk := s.cclk cid
  let p := partition gid
  let s := (((s.fillCode cid (s.asidOf g) lines).starved cs gid).countIssue gid g f.hdr).watchSkip gid
  let s := if g.sched.fresh then s.acquireBy gid .wafer 0 false else s
  let s := if g.meets f then s.poisonFor gid (s.asidOf g) 0 else s
  let core := s.core cid
  let core := if g.acc.isSome then core else { core with latches := latchesAfter core.latches gid g f }
  let core := if c.m then { core with ptrM := core.ptrM.set p (gidSlot gid + 1), busyM := core.busyM.set p (clk + f.occ) }
    else { core with ptrV := core.ptrV.set p (gidSlot gid + 1), busyV := core.busyV.set p (clk + f.occ) }
  let pf := if g.acc.isSome then g.sched.prefetch else s.prefetched gid g f.hdr.sch clk
  let s := s.modGroup gid fun g =>
    { g with held := some i, sched := { g.sched with
        srcAt := none, fromRte := false, fresh := false, young := false, prefetch := pf, drained := false,
        lastStop := if f.hdr.sch.stop then some g.pc.toNat else g.sched.lastStop } }
  { s.putCore cid core with cur := gid, turns := c.key :: s.turns }

/-- What the cores do next in this clock. -/
inductive Next where
  | none | act (s : State) | issue (i : Instr) (s : State)

/-- The groups' turns in order: the first act, and the candidates of ports that have not issued in this clock. -/
def State.looked (s : State) : List (Nat × Group) → Option State × List Candidate
  | [] => (none, [])
  | (gid, g) :: l =>
    match s.turn gid g with
    | .act s' => (some s', [])
    | .wait => s.looked l
    | .go i f lines =>
      let (a, cs) := s.looked l
      (a, if s.turns.contains (portKey gid (onM gid f)) then cs else (gid, g, i, f, lines) :: cs)

/-- The next act or issue. -/
def State.nextTurn (s : State) : Next :=
  match s.looked (s.groups.filter fun (gid, _) => gid < 2 ^ 32) with
  | (some s', _) => .act s'
  | (none, []) => .none
  | (none, c :: cs) =>
    let mine := (c :: cs).filter fun x => x.key == c.key
    match s.choose mine with
    | some x => .issue x.2.2.1 (s.begin mine x)
    | none => .none

end Sys2Proof.Machine
end

