-- ==== Sys2Proof/Machine/Schedule.lean ====
section
/-! DEFINITION. What the machine does next (log 4): landings that are due, the steps of the outside world, the machine's own steps whose
conditions hold, waits that end, issues, and the end of a clock with the periodic steps that fall due. -/

namespace Sys2Proof.Machine

/-- The first answer of a list of questions. -/
def firstOf {α : Type} : List (Unit → Option α) → Option α
  | [] => none
  | q :: qs => match q () with
    | some a => some a
    | none => firstOf qs

/-! Landings (R42, R78). -/

/-- A result with lanes to land. -/
def State.landing (s : State) (gid : Nat) (g : Group) (p : VRes → Bool) : Option Instr :=
  (g.vres.find? fun v => p v && s.varDue gid v && v.lanes &&& v.ready != 0).map fun v => .variableResultLand gid v.id (v.lanes &&& v.ready)

/-- A write from outside the group's stream, with which a result of the group's own that lands in the same clock stands (R78). -/
def VRes.foreign (v : VRes) : Bool := !v.own || v.kind == .xshfl

/-- The next landing: of a clock's landings those from outside come first, then the fixed ones, then the group's own variable ones. -/
def State.landEvent (s : State) : Option Instr :=
  firstOf [
    fun _ => s.groups.findSome? fun (gid, g) => s.landing gid g VRes.foreign,
    fun _ => s.groups.findSome? fun (gid, g) => if s.fixedDue gid g then some (.fixedResultLand gid) else none,
    fun _ => s.groups.findSome? fun (gid, g) => s.landing gid g fun v => !v.foreign]

/-! The machine's own steps. -/

/-- A step of one group. -/
def State.groupEvent (s : State) (gid : Nat) (g : Group) : Option Instr :=
  if s.yieldOver gid g then some (.yieldExpiry gid)
  else if s.sleepOver gid g && !g.halted then some (.sleepExpiry gid)
  else if (match g.park with
    | .xshfl last _ _ _ _ _ _ => decide (last < s.now) && !g.halted
    | _ => false) then some (.xshflTimeout gid)
  else if (s.evOver g).isSome then some (.evwaitTimeout gid)
  else if s.slotFreeable g then some (.groupSlotFree gid)
  else if s.entryReady gid g then some (.trapEntry gid)
  else if !g.halted && s.replayReady gid g then some (.instructionReplay gid)
  else
    match g.mq.find? (s.opDone gid) with
    | some m => some (.matrixOpComplete m.id)
    | none => (g.mq.find? (s.opReleased gid g)).map fun m => .matrixFaultResume m.id

/-- A step of one team. -/
def State.teamEvent (s : State) (tid : Nat) (t : Team) : Option Instr :=
  if s.teamFreeable tid t &&
      (t.slots.all (· == noSlot) || t.spBytes != 0 || ((tget s.clusters t.cluster).map fun c => c.teams.contains tid).getD false) then some (.teamResourcesFree tid)
  else if s.saveOver tid t then some (.teamSaveComplete tid)
  else if s.dawnCan t || s.dawnOver t then some (.dawn tid)
  else none

/-- A step of one core: its L1 size, its time, its watchpoints, its copy engine. -/
def State.coreEvent (s : State) (cid : Nat) (c : Core) : Option Instr :=
  let x := s.dom (cidDom cid)
  if s.l1Change cid then some (.l1SizeChange cid)
  else if !isDcc cid && !x.wrapping && !x.wrapAsked && decide (s.rawPts cid > 0xFFFF) then some (.logicalTimeTick cid)
  else
    match (List.range 4).find? fun n => (c.watch.getD n {}).installed s.now with
    | some n => some (.watchpointArmComplete cid n)
    | none => (s.copyNext cid).map fun _ => .copyStart cid

/-- A step of one domain: wrap and sweep, DSM size, held fault records, held colophons, a post of the host. -/
def State.domEvent (s : State) (d : Nat) (x : Dom) : Option Instr :=
  if s.wrapCan d then some (.domainWrap d)
  else if !x.wrapping && x.sweepEnd != 0 && decide (x.sweepEnd ≤ s.now) then some (.epochSweepDone d)
  else if s.dsmChange d then some (.dsmSizeChange d)
  else if (s.recordNext d).isSome then some (.heldFaultRecordAppend d)
  else if x.evBusy && !s.queueWaits d x.evAsid x.qhdr then some (.evpostWrite d 0)
  else if !x.held.isEmpty && (s.retryHeld d (s.firstHeld d)).2 then some (.colophonRetry d)
  else none

/-- The step that serves an item of work, once its time has come and its conditions hold. -/
def State.workEvent (s : State) (w : Work) : Option Instr :=
  let mem := fun (i : Instr) => if s.memReady w then some i else none
  if s.now < w.due || w.wait.isSome then none
  else
    match w.job with
    | .fill _ _ _ _ _ => mem (.leaseGrant w.id)
    | .l1fill _ _ _ _ _ _ _ => mem (.l1Fill w.id)
    | .read _ => mem (.waferScopeRead w.id)
    | .write _ => mem (.sliceWrite w.id)
    | .wack _ _ _ => mem (.writeBackAck w.id)
    | .atomic _ => mem (.nearBankAtomic w.id)
    | .readShared _ _ _ => mem (.readShared w.id)
    | .writePerm _ _ => mem (.writePermission w.id)
    | .permRead _ _ => mem (.writePermission w.id)
    | .sliceFill _ _ _ _ => mem (.sliceFill w.id)
    | .inval _ _ _ => mem (.invalidation w.id)
    | .invAck _ _ _ => mem (.invalidationAck w.id)
    | .forward _ _ _ _ _ => mem (.forward w.id)
    | .recall _ _ => mem (.recall w.id)
    | .ownerWb _ _ _ => mem (.ownerWriteBack w.id)
    | .bank _ => if s.bankReady w then some (.bankOperation w.id) else none
    | .bankDone _ _ _ _ => if s.bankPerformed w then some (.bankTicketComplete w.id) else none
    | .copy _ => if s.copyReady w then some (.copyComplete w.id) else none
    | .copyResume _ _ _ => some (.copyPageResume w.id)
    | .walk _ => if s.walkReady w then some (.pageWalk w.id) else none
    | .tlbInv _ => if s.invReady w then some (.tlbcmdDone w.id) else none
    | .flush port => some (if port < 4 then .outboundFlushCompletion port else .peerWriteAck (port - 4))
    | .watchReport _ _ _ _ _ _ _ => some (.watchpointReport w.id)
    | .arrival _ _ _ _ => if s.divertReady w then some (.divertedArrival w.id) else if s.bufferReady w then some (.landingBufferArrival w.id) else none
    | .accSave h _ => if s.accReady w then some (.accImageSave h) else none

/-- A step of the spine: placements, completions and its own suspensions (R283, R284, R329). -/
def State.nodeEvent (s : State) : Option Instr :=
  if s.nodes.isEmpty then none
  else firstOf [
    fun _ => s.nodes.findSome? fun (nid, n) => if s.canReady n then some (.nodeReady nid) else if s.nodeCan nid n then some (.nodeComplete nid) else none,
    fun _ => s.placeNext.map fun nid => match tget s.nodes nid with
      | some n => if n.kind = 1 then .dccProgramStart nid else .clusterPlacement nid
      | none => .clusterPlacement nid,
    fun _ => s.spineNext.map fun (y, d, nid) => .spineSuspend y d nid]

/-- Array and transfer unit of the hardware clusters with queued operations (R231). -/
def State.unitEvent (s : State) : Option Instr :=
  s.groups.findSome? fun (gid, g) =>
    let h := cidHcid (gidCid gid)
    if g.mq.isEmpty then none
    else if s.unitReady h false then some (.matrixSubtileStart h false)
    else if s.unitReady h true then some (.matrixSubtileStart h true)
    else none

/-- The machine's own next step in this clock. -/
def State.ownEvent (s : State) : Option Instr :=
  firstOf [
    fun _ => s.doms.findSome? fun (d, x) => s.domEvent d x,
    fun _ => s.cores.findSome? fun (c, x) => s.coreEvent c x,
    fun _ => s.groups.findSome? fun (gid, g) => s.groupEvent gid g,
    fun _ => s.teams.findSome? fun (tid, t) => s.teamEvent tid t,
    fun _ => s.ctxs.findSome? fun (a, c) => (c.spine.find? fun (d, nid) => s.spineOver a d nid).map fun (d, _) => .spineReasonEnd a d,
    fun _ => s.retireNext.map fun (d, p) => .topologyRetire d p,
    fun _ => s.ticketNext.map fun _ => .scTicketGrant,
    fun _ => s.work.findSome? s.workEvent,
    fun _ => s.unitEvent,
    fun _ => s.nodeEvent]

/-! Waits (R43). -/

/-- Whether a second look at a waiting group does something: to the group, or to the page faults of its domain. -/
def State.moved (s : State) (gid : Nat) (t : State) : Bool :=
  t.group gid != s.group gid || (t.dom (cidDom (gidCid gid))).faults != (s.dom (cidDom (gidCid gid))).faults

/-- The group waits to record an arrival at a barrier, its release done (R172). -/
def Group.arrives (g : Group) : Bool :=
  g.park == .wait 2 && g.rel.isNone &&
    match g.held with
    | some (.bar _ _) => true
    | some (.bararv _ _) => true
    | some (.cbar _ _) => true
    | _ => false

/-- The instruction of a group that waits and can go on. -/
def State.resumes (s : State) (gid : Nat) (g : Group) : Option Instr :=
  let waits := match g.park with
    | .wait _ => true
    | .xlat => true
    | .rte _ => true
    | _ => false
  match g.held with
  | some i =>
    if waits && !g.halted && s.pulsed (gidCid gid) then
      match exec i { s with cur := gid } with
      | .next t => if s.moved gid t then some i else none
      | _ => none
    else none
  | none => none

/-- The first waiting group that p accepts and that can go on, with its instruction. -/
def State.resumeNext (s : State) (p : Group → Bool) : Option (Nat × Instr) :=
  s.groups.findSome? fun (gid, g) => if p g then (s.resumes gid g).map fun i => (gid, i) else none

/-- What else ends a group's wait: results after SW, a released code page, an action of the debug agent (R43, R366). -/
def State.released (s : State) (gid : Nat) (g : Group) : Option State :=
  if g.halted then none
  else
  match g.park with
  | .sw => if g.outstanding then none else some (s.putGroup gid { g with
      park := .running, sched := { g.sched with notBefore := max g.sched.notBefore (s.cclk (gidCid gid) + 1) } })
  | .fetch 0 =>
    let pc := g.pc.toNat
    if [pc, (pc + 11) % 2 ^ 48].any fun a => s.faulting (cidDom (gidCid gid)) (s.asidOf g) (pageOf a) then none
    else some (s.putGroup gid { g with park := .running })
  | .dead =>
    if g.sched.dfact = 0 || s.dfactWaits gid g then none
    else
      let t := s.dfact g.sched.dfact gid
      if s.moved gid t then some t else none
  | _ => none

/-! The end of a clock. -/

/-- The sensor readings of the interval that ends (R358). -/
def sensorSteps (n : Nat) : List Instr :=
  (List.range 64).flatMap fun d => (List.range 12).map fun c =>
    .sensorUpdate d c (Config.sensor d c 0 n) ((List.range 4).map fun k => Config.sensor d c (k + 1) n)

/-- The refresh steps of a domain that begin now (R266). -/
def State.refreshSteps (s : State) (d : Nat) : List Instr :=
  let x := s.dom d
  if x.refStart + x.refLen ≤ s.now then [.refreshIntervalStart d, .refreshWindow d 0]
  else ((List.range 32).filter fun ch => x.refStart + ch * x.refLen / 32 == s.now).map fun ch => .refreshWindow d ch

/-- The steps that fall due at the clock now begun: every 1 µs, 10 µs and 100 µs, and by each domain's refresh (R266, R354, R356-R361). -/
def State.periodic (s : State) : List Instr :=
  let doms := List.range 64
  (if s.now % 1500 = 0 then .meteringIntervalEnd :: sensorSteps (s.now / 1500) else []) ++
    (if s.now % 15000 = 0 then doms.map .patUpdate else []) ++
    (if s.now % 150000 = 0 then .energyWindowEnd :: doms.map .talRefill else []) ++ doms.flatMap s.refreshSteps

/-- The cores whose contexts are sampled at the cluster clock that has just begun (R368). -/
def State.sampleSteps (before s : State) : List Instr :=
  if !s.ctxs.any fun (_, c) => c.dbgctl.getLsbD 1 then []
  else
    ((uniqueNats (s.groups.map fun (gid, _) => gidCid gid)).filter fun cid => before.cclk cid != s.cclk cid && !(s.toSample cid).isEmpty).map .sampleWrite

/-- The clock's notice of groups whose requests for lines of code the caps and budgets hold (R355, R362). -/
def State.noteCode (s : State) : State :=
  s.groups.foldl (fun s (gid, g) => if s.codeHeld gid g then s.deny (s.asidOf g) (cidDom (gidCid gid)) 2 else s) s

/-- The clock ends. In the new one the save engines write their rows (R338), and the codes of the stores find what errors there are (R267, R376). -/
def State.tick (s : State) : State :=
  let t := s.countSlots.noteHolds.noteCode.endClusterClocks
  let t := { t with turns := [], now := s.now + 1 }.saveRows.upsetAll
  { t with agenda := (t.periodic ++ s.sampleSteps t).map (fun i => (t.now, i)) ++ t.agenda }

/-! One step. -/

/-- The step of the outside world whose time has come, and the agenda without it. -/
def State.agendaNext (s : State) : Option (Instr × List (Nat × Instr)) :=
  match s.agenda with
  | (t, i) :: rest => if t ≤ s.now then some (i, rest) else none
  | [] => none

/-- A step from the agenda: an instruction word is none of these and is dropped. -/
def State.agendaStep (s : State) (i : Instr) : Out := if (issueForm i).isSome then .next s else exec i s

/-- Everything of this clock that comes before an issue. -/
def State.before (s : State) : Option Out :=
  match s.landEvent with
  | some i => some (exec i s)
  | none =>
    match s.agendaNext with
    | some (i, rest) => some ({ s with agenda := rest }.agendaStep i)
    | none =>
      match s.ownEvent with
      | some i => some (exec i s)
      | none =>
        match s.resumeNext fun g => !g.arrives with
        | some (gid, i) => some (exec i { s with cur := gid })
        | none => (s.groups.findSome? fun (gid, g) => s.released gid g).map .next

/-- A halted wafer takes only steps from outside (R378). -/
def State.haltedStep (s : State) : Out :=
  match s.agendaNext with
  | some (i, rest) => { s with agenda := rest }.agendaStep i
  | none => .next s.tick

/-- After the issues of a clock: the arrivals at barriers of this clock, in ascending slot order (R172), and then the clock ends. -/
def State.lastOfClock (s : State) : Out :=
  match s.resumeNext Group.arrives with
  | some (gid, i) => exec i { s with cur := gid }
  | none => .next s.tick

/-- One step of the machine. -/
def State.stepOnce (s : State) : Out :=
  if s.wafer.halted then s.haltedStep
  else
    match s.before with
    | some o => o
    | none =>
      match s.nextTurn with
      | .act t => .next t
      | .issue i t => exec i t
      | .none => s.lastOfClock

end Sys2Proof.Machine
end

