-- ==== Sys2Proof/Machine/Step.lean ====
section
/-! DEFINITION. The step function, and a state whose next step fetches a given word. -/

namespace Sys2Proof.Machine

/-- One step. What it does stands in Schedule and Issue. -/
def step (s : State) : Host.Outcome State Fault Refusal := s.stepOnce

/-- Where withFetchWord places its word: domain 0, virtual and physical address. -/
def fetchAt : Nat := 0x10000

/-- The team that withFetchWord launches: alone on its core, with 4 KiB of scratchpad. -/
def fetchTeam (cid slot : Nat) : Team :=
  { cid := cid, slots := [slot], spBase := 0, spGran := 4, spBytes := 4096, seq := 0, asid := 1, nid := 2 ^ 32, index := 0, cluster := 0, place := 0, launched := 1,
    entry := fetchAt, stopmap := 0, bars := List.replicate 16 {}, spad := [], spDesc := [], retiredN := 0, sus := {} }

/-- Its group, about to issue at fetchAt with its sources delivered: every register zero, the largest windows. -/
def fetchGroup (tid : Nat) (dcc : Bool) : Group :=
  { team := tid, idx := 0, vregs := [], sregs := [], pc := BitVec.ofNat 48 fetchAt, exm := if dcc then 1 else 0xFFFFFFFF, cnt := List.replicate 32 0,
    preds := List.replicate 7 0, gbase := 4, gsize := if dcc then 512 else 1024, ssize := 256, flags := 0, replay := 0, trapcause := 0, tsa := 0x20000, xtimeout := 0x10000,
    loops := List.replicate 4 {}, cc := [0, 0, 0, 0], nextQuire := 0, quires := [], chainOpen := false, chain := 0, mq := [], level := false, priv := false, pend := [],
    folios := [], results := [], vres := [], acc := none, rel := none, park := .running, sched := { srcAt := some 0 }, retired := false, acqWts := [0, 0, 0, 0],
    acqFar := [false, false, false, false], fenced := false, defCause := 0, defCount := 0, defAddr := 0, halted := false, held := none }

/-- The page of fetchAt as the core's TLB holds it. -/
def fetchPage : TlbEnt := ⟨1, fetchAt / 4096, 1, fetchAt, true, false, false⟩

/-- s with the word stored where step fetches next (log 15): a context's one group stands alone in the machine, at the word's address, its
page in the TLB of core 0, or of the DCC of domain 0 for an opcode that only a DCC has; nothing else is due. -/
def State.withFetchWord (s : State) (_nbits w : Nat) : State :=
  let dcc := dccOnlyOp (w / 2 ^ 88 % 256)
  let cid := if dcc then 144 else 0
  let slot := if dcc then 1 else 0
  { s with
    turns := [], agenda := [], work := [], mem := memWrite s.mem fetchAt (bytesOfWord (BitVec.ofNat 96 w)), groups := [(gidOf cid slot, fetchGroup 1 dcc)],
    teams := [(1, fetchTeam cid slot)], cores := [(cid, { freshCore with tlb := [fetchPage] })], doms := [], nodes := [], lines := [], dirs := [],
    ctxs := [(1, freshCtx)], wafer := { s.wafer with halted := false, retiring := [] } }

end Sys2Proof.Machine
end

