-- ==== Sys2Proof/Safety.lean ====
section
/-! DEFINITION. What counts as a safe state, step and run, and the words that claims about instructions use. -/

namespace Sys2Proof.Machine

/-! States. -/

/-- The register banks list no zero register, no two landed results of one register are live in one lane, and a result that has not landed
has been neither overwritten nor read with KILL. -/
def Group.Sane (g : Group) : Prop :=
  Canon zeroLanes g.vregs ∧ Canon 0 g.sregs ∧
    ((g.results.filter (·.landed)).Pairwise fun a b => a.dst = b.dst → a.liveMask &&& b.liveMask = 0) ∧
    ∀ r ∈ g.results, r.landed = false → r.beaten = 0 ∧ r.kill = 0

/-- The lists of a group have their fixed lengths, and LEVEL fits its two bits (R66, R72, R94). -/
def Group.Shaped (g : Group) : Prop := g.preds.length = 7 ∧ g.cnt.length = 32 ∧ g.loops.length = 4 ∧ ∀ l ∈ g.loops, l.level < 4

/-- The images of lines that a piece of work carries. -/
def Job.images : Job → List LineImg
  | .l1fill _ _ _ _ img _ _ => [img]
  | .sliceFill _ _ (some img) _ => [img]
  | .ownerWb _ _ img => [img]
  | _ => []

/-- The keys of a table rise strictly, so that each has one entry. -/
def Rising {α : Type} (t : Tbl α) : Prop := t.Pairwise fun x y => x.1 < y.1

/-- Every group, barrier, watchpoint and line has the parts that the spec gives it, and no table lists a key twice. -/
def State.Shaped (s : State) : Prop :=
  Rising s.groups ∧ (∀ p ∈ s.groups, p.2.Shaped) ∧ (∀ p ∈ s.teams, p.2.bars.length = 16) ∧ (∀ p ∈ s.clusters, p.2.bars.length = 4) ∧
    (∀ p ∈ s.cores, p.2.watch.length = 4 ∧ Rising p.2.l1 ∧ ∀ q ∈ p.2.l1, q.2.data.length = 64) ∧
    Rising s.lines ∧ (∀ p ∈ s.lines, p.2.data.length = 64) ∧ ∀ w ∈ s.work, ∀ img ∈ w.job.images, img.data.length = 64

/-- The state has its shape, and what is listed by contents is in canonical form, so that equal contents are equal data: memory and the
descriptors of its lines, every group's window, every team's scratchpad, every cluster's slots and B store. -/
def State.Sound (s : State) : Prop :=
  s.Shaped ∧ Memory.wf s.mem ∧ Canon Config.freshDesc s.desc ∧ (∀ p ∈ s.groups, p.2.Sane) ∧
    (∀ p ∈ s.teams, Canon 0 p.2.spad ∧ Canon Config.freshDesc p.2.spDesc) ∧
    ∀ p ∈ s.hcs, Canon 0 p.2.slots ∧ Canon 0 p.2.bstore ∧ Canon Config.freshDesc p.2.bdesc

/-- A step is safe when it answers a next state, and that state is sound. -/
def State.SafeStep (s : State) : Prop := ∃ t, step s = .next t ∧ t.Sound

/-- The states that n steps reach from s. -/
inductive Reaches : State → Nat → State → Prop where
  | here (s : State) : Reaches s 0 s
  | next {s t u : State} {n : Nat} : step s = .next t → Reaches t n u → Reaches s (n + 1) u

/-- A run is safe when every state that it reaches is sound and takes a safe step. -/
def State.SafeRun (s : State) : Prop := ∀ n t, Reaches s n t → t.Sound ∧ t.SafeStep

/-! An issuing group and what an instruction leaves of it. -/

/-- Group gid is at issue. -/
def State.Issues (s : State) (gid : Nat) (g : Group) : Prop := s.cur = gid ∧ s.group gid = some g

/-- Lane l of register n once every landed result stands in the banks (R80, R81). -/
def Group.stands (g : Group) (n : RegName) (l : Nat) : Word := lane (g.drain.bankLanes n) l

/-- Register n is a source with KILL (R80). -/
def Group.killed (g : Group) (us : List Use) (n : RegName) : Bool :=
  us.any fun u => u.kill && (List.range u.count).any fun i => srcName g u.file (u.reg + i) == some n

/-- No live loop ends at the group's instruction (R98). -/
def Group.NoLoopEnd (g : Group) : Prop :=
  ∀ k, (g.loop k).live = true → ¬((g.loop k).fin = pcWord g.pc ∧ (g.loop k).hi = g.pc.extractLsb' 34 14)

/-- An instruction of the group has completed: every register but those read with KILL stands as it was, and so does every other field
but the pc, the window, the words that its banks now hold anew, the state of the issue, and loops and counters at the end of a loop. -/
structure Group.Done (g g' : Group) (us : List Use) : Prop where
  rest : g' = { g with
    pc := g'.pc, cnt := g'.cnt, loops := g'.loops, vregs := g'.vregs, sregs := g'.sregs, results := g'.results, bad := g'.bad, replay := g'.replay,
    park := g'.park, acc := none, rel := none, held := none, sched := g'.sched }
  issued : g'.sched.issued = g.sched.issued + 1
  next : g.NoLoopEnd → g'.pc = g.pc + 12 ∧ g'.cnt = g.cnt ∧ g'.loops = g.loops
  regs : g.Sane → ∀ n l, l < 32 → g.killed us n = false → g'.stands n l = g.stands n l

/-- A result with these flags will land at a clock in the lanes of a mask of a register (R42). -/
def Group.Awaits (g : Group) (num due : Nat) (n : RegName) (mask : LaneMask) (v : Nat → Word) (fl : Flags) : Prop :=
  ∃ r ∈ g.results, r.num = num ∧ r.due = due ∧ r.landed = false ∧ r.dst = n ∧ r.mask = mask ∧ r.flags = fl ∧
    ∀ l, l < 32 → mask.getLsbD l = true → lane r.vals l = v l

/-! Lane instructions. -/

/-- A lane instruction runs in some lane, and every register it names can be named (R75, R99). -/
def Group.LaneReady (g : Group) (o : Alu) (sh : Shape) : Prop :=
  g.runMask o.hdr ≠ 0 ∧ g.nameFault ((aluUses o sh.w sh.readsA sh.readsB sh.single).map (·.name) ++ dstUse o.d (pairCount sh.w.d)) = none

/-- The first running lane. -/
def firstLane (run : LaneMask) : Nat := ((lanesOf run).head?).getD 0

/-- g' has the results of a lane instruction of g in flight (R39, R67, R106): each running lane's of a vector or predicate destination with
the OR of their flags, the first running lane's of a scalar one; `out` is what a lane computes. -/
def Group.LaneResult (g g' : Group) (due : Nat) (d : Dst) (wide : Bool) (run : LaneMask) (out : Nat → LaneOut) : Prop :=
  let num := g.sched.issued
  let r := d.reg.toNat
  let l0 := firstLane run
  if d.file = .scal then
    g'.Awaits num due (.scal r) 1 (fun _ => (out l0).w) (out l0).fl ∧ (wide = true → g'.Awaits num due (.scal (r + 1)) 1 (fun _ => (out l0).hi) 0)
  else
    g'.Awaits num due (dstName g d.file r) run (fun l => (out l).w) (orFlagsOf run fun l => (out l).fl) ∧
      (wide = true → g'.Awaits num due (dstName g d.file (r + 1)) run (fun l => (out l).hi) 0)

/-- The lane instruction o completes with the next state x: nothing but the group changes, of the group only what a completed instruction
changes, and its results land lat cluster clocks after the issue. -/
def State.LaneDone (s : State) (gid : Nat) (g : Group) (o : Alu) (sh : Shape) (lat : Nat) (out : Nat → LaneOut)
    (x : Host.Outcome State Fault Refusal) : Prop :=
  ∃ g', x = .next (s.putGroup gid g') ∧ g.Done g' (aluUses o sh.w sh.readsA sh.readsB sh.single) ∧
    g.LaneResult g' (s.cclk (gidCid gid) + lat) o.d sh.w.d (g.runMask o.hdr) out

end Sys2Proof.Machine
end

