-- ==== Sys2Proof/Certificates/Slice0/Obligations.lean ====
section
/-! DEFINITION. The statements for the provers, drawn from the numbered rules of the spec. -/

namespace Sys2Proof.Machine

/-! What a statement says of a lane, written from the rules. -/

/-- An exact integer result of R109 in 32 bits or a pair, clamped under R26. -/
def exactOut (wide sat signed : Bool) (v : Int) : LaneOut :=
  if wide then outOfWide (clampInt sat signed 64 v) else outOf (clampInt sat signed 32 v)

/-- A result word with no flag. -/
def wordOut (w : Word) : LaneOut := ⟨w, 0, 0⟩

/-- Operands of a lane instruction: words or pairs as exact integers. -/
def AluIn.intA (x : AluIn) (wide signed : Bool) (l : Nat) : Int := if wide then intOf64 signed (x.aw l) else intOf signed (lane x.a l)
def AluIn.intB (x : AluIn) (wide signed : Bool) (l : Nat) : Int := if wide then intOf64 signed (x.bw l) else intOf signed (lane x.b l)
def AluIn.intC (x : AluIn) (wide signed : Bool) (l : Nat) : Int := if wide then intOf64 signed (x.cw l) else intOf signed (lane x.c l)

/-- The operands of a plain 32-bit instruction, all of one type. -/
def State.in32 (s : State) (gid : Nat) (g : Group) (o : Alu) (t : OpTy) : AluIn := s.aluIn gid g o (Types.all t) {} false false
/-- The operands of a single-source instruction: the immediate stands in place of A (R29). -/
def State.in1 (s : State) (gid : Nat) (g : Group) (o : Alu) (t : OpTy) : AluIn := s.aluIn gid g o (Types.all t) {} true false

def sOrU (signed : Bool) : OpTy := if signed then .s32 else .u32

/-- The field of R112: whether there is one, its lowest bit and the bit above its highest. -/
def fieldAt (b : Word) : Bool × Nat × Nat :=
  let pos := b.toNat % 256
  let len := b.toNat / 256 % 256
  (len != 0 && decide (pos < 32), pos, min (pos + len) 32)

/-- Byte i of {B, A} (R120). -/
def prmtByte (a b : Word) (i : Nat) : Byte := if i < 4 then a.extractLsb' (8 * i) 8 else b.extractLsb' (8 * (i - 4)) 8

/-- A signed or unsigned byte. -/
def byteInt (signed : Bool) (b : Byte) : Int := if signed then b.toInt else b.toNat

/-- The condition of R114. -/
def condHolds (v : ICond) (a b : Word) : Bool :=
  match v with
  | .eq => decide (a = b)
  | .ne => decide (a ≠ b)
  | .ltS => decide (a.toInt < b.toInt)
  | .leS => decide (a.toInt ≤ b.toInt)
  | .gtS => decide (a.toInt > b.toInt)
  | .geS => decide (a.toInt ≥ b.toInt)
  | .ltU => decide (a.toNat < b.toNat)
  | .leU => decide (a.toNat ≤ b.toNat)
  | .gtU => decide (a.toNat > b.toNat)
  | .geU => decide (a.toNat ≥ b.toNat)

def truth (c : Bool) : Word := if c then 0xFFFFFFFF else 0

/-! What a statement says of a floating-point word, by its bits. -/

def f32Mag (w : Word) : Nat := w.toNat % 2 ^ 31
abbrev f32IsNan (w : Word) : Prop := 0x7F800000 < f32Mag w
abbrev f32IsInf (w : Word) : Prop := f32Mag w = 0x7F800000
abbrev f32IsZero (w : Word) : Prop := f32Mag w = 0
abbrev f32Finite (w : Word) : Prop := f32Mag w < 0x7F800000
/-- A word of a sign and a magnitude. -/
def f32Of (neg : Bool) (mag : Nat) : Word := BitVec.ofNat 32 ((if neg then 2 ^ 31 else 0) + mag)
/-- The order of the numbers, -0 and +0 alike. -/
def f32Key (w : Word) : Int := if w.msb then -(f32Mag w : Int) else f32Mag w
/-- The order of R123: -0 lies below +0. -/
def f32MinKey (w : Word) : Int := if w.msb then -(f32Mag w : Int) - 1 else f32Mag w
/-- The value of a finite pattern with ew exponent and fw fraction bits (R50). -/
def patVal (ew fw b : Nat) : ℚ :=
  let ex := b / 2 ^ fw % 2 ^ ew
  let fr := b % 2 ^ fw
  let bias : Int := 2 ^ (ew - 1) - 1
  (if b / 2 ^ (ew + fw) % 2 = 1 then -1 else 1) *
    (if ex = 0 then (fr : ℚ) * (2 : ℚ) ^ (1 - bias - fw) else ((2 ^ fw + fr : Nat) : ℚ) * (2 : ℚ) ^ ((ex : Int) - bias - fw))
def f32Val (w : Word) : ℚ := patVal 8 23 w.toNat
/-- The value a signed significand and an exponent stand for. -/
def ratOf (n : Bool) (m : Nat) (e : Int) : ℚ := (if n then -1 else 1) * (m : ℚ) * (2 : ℚ) ^ e
/-- A pattern and its flags are one rounding of x to the format (R60, R62). -/
def RoundsOnce (f : Fmt) (rm : Rm) (x : ℚ) (b : Nat) (fl : Flags) : Prop :=
  ∃ n m e, ratOf n m e = x ∧ b = (roundF f rm n false m e).1 ∧ fl = (roundF f rm n false m e).2
/-- The same of a magnitude that no binary fraction need reach: m units of 2^e are its whole part, and it is known whether anything follows. -/
def RoundsRoot (rm : Rm) (n : Bool) (below : ℚ → Prop) (w : Word) (fl : Flags) : Prop :=
  ∃ (m : Nat) (e : Int) (more : Bool), 2 ^ 25 ≤ m ∧ below (m * (2 : ℚ) ^ e) ∧ ¬below ((m + 1) * (2 : ℚ) ^ e) ∧
    (more = false ↔ ∀ y > m * (2 : ℚ) ^ e, ¬below y) ∧
    w.toNat = (roundF fmtF32 rm n more m e).1 ∧ fl = (roundF fmtF32 rm n more m e).2
/-- An integer is a value rounded in the mode (R60, R64). -/
def RoundsInt (rm : Rm) (x : ℚ) (n : Int) : Prop :=
  match rm with
  | .rne => |x - n| ≤ 1 / 2 ∧ (|x - n| = 1 / 2 → n % 2 = 0)
  | .rz => n = if 0 ≤ x then ⌊x⌋ else ⌈x⌉
  | .rd => n = ⌊x⌋
  | .ru => n = ⌈x⌉
/-- R26's table for a result in F32: its word and whether the clamp changed it. -/
def F32Clamp (c : Clamp) (w : Word) : Word × Flags :=
  let nan := decide (0x7F800000 < f32Mag w)
  match c with
  | .none => (w, 0)
  | .unit => if nan || decide (f32Key w < 0) then (0, flSat) else if f32Key w > 0x3F800000 then (0x3F800000, flSat) else (w, 0)
  | .sym => if nan then (0, flSat) else if f32Key w < -0x3F800000 then (0xBF800000, flSat)
    else if f32Key w > 0x3F800000 then (0x3F800000, flSat) else (w, 0)
  | .sat => if f32Mag w = 0x7F800000 then (f32Of w.msb 0x7F7FFFFF, flSat) else (w, 0)
def canon : Word := 0x7FC00000

end Sys2Proof.Machine

open Sys2Proof Sys2Proof.Machine

/-- R26, R109: without the clamp an exact result is taken modulo 2^w and sets no flag; with it the result is the value of the range nearest
to it, and SAT is set exactly when that is another value. -/
def Obligations.ClampInt : Prop :=
  ∀ (signed : Bool) (w : Nat) (v : Int), 0 < w →
    let lo : Int := if signed then -(2 ^ (w - 1)) else 0
    let hi : Int := if signed then 2 ^ (w - 1) - 1 else 2 ^ w - 1
    let val := fun (x : BitVec w) => if signed then x.toInt else (x.toNat : Int)
    (((clampInt false signed w v).1.toNat : Int) = v % 2 ^ w ∧ (clampInt false signed w v).2 = 0) ∧
      val (clampInt true signed w v).1 = max lo (min hi v) ∧
      ((clampInt true signed w v).2 = if lo ≤ v ∧ v ≤ hi then 0 else flSat)

/-- R27-R33: how a source becomes a lane's operand: the register's value in the lane that the permutation names, then SUB, ABS and NEG in the
operand's type; a scalar or an immediate gives every lane one value. A permutation stays in its segment. -/
def Obligations.OperandForms : Prop :=
  (∀ (s : State) (gid : Nat) (g : Group) (o : Alu) (t : Types) (w : Wide) (single signed : Bool) (l : Nat), l < 32 →
    let x := s.aluIn gid g o t w single signed
    let raw := fun (f : SFile) (r m : Nat) =>
      match f with
      | .vec => g.readLane gid (.vec (g.rename r)) m
      | .scal => g.readScal gid r
      | .spec => s.special gid g r m
    let formed := fun (ty : OpTy) (a : Src) (m : Nat) => modWord ty a.abs a.neg (subWord a.sub (raw a.file a.reg.toNat m))
    (∀ b p rm, o.x = .n b p rm → permLane p l < 32 → lane x.a l = formed t.a o.a (permLane p l) ∧ lane x.b l = formed t.b b l) ∧
      (∀ imm, o.x = .i imm → (single = false → lane x.a l = formed t.a o.a l ∧ lane x.b l = imm) ∧ (single = true → lane x.a l = imm)) ∧
      (∀ b c, o.x = .c b c → lane x.a l = formed t.a o.a l ∧ lane x.b l = formed t.b b l ∧
        lane x.c l = modWord t.c c.abs c.neg (subWord c.sub (raw (if c.scal then .scal else .vec) c.reg.toNat l)))) ∧
  (∀ v : Word, subWord .lo v = v &&& 0xFFFF ∧ subWord .hi v = v >>> 16 ∧ subWord .lob v = (v <<< 16) ||| (v &&& 0xFFFF) ∧ subWord .whole v = v) ∧
  (∀ v : Word, modWord .f32 true false v = v &&& 0x7FFFFFFF ∧ modWord .f32 false true v = v ^^^ 0x80000000 ∧ modWord .s32 false true v = 0 - v ∧
    (modWord .s32 true false v).toNat = v.toInt.natAbs ∧ modWord .u32 true false v = v ∧ modWord .u32 false true v = 0 - v) ∧
  (∀ (p : Perm) (l : Nat), l < 32 → p.seg.toNat ≤ 4 → p.dist.toNat < 2 ^ (p.seg.toNat + 1) →
    permLane p l < 32 ∧ permLane p l / 2 ^ (p.seg.toNat + 1) = l / 2 ^ (p.seg.toNat + 1))

/-- R109: IADD, ISUB, IMUL, IMULHI, IMAD, IMIN, IMAX and IADIF complete with their exact values wrapped or clamped. -/
def Obligations.IntegerArithmetic : Prop :=
  ∀ (s : State) (gid : Nat) (g : Group) (o : Alu), s.Issues gid g →
    (∀ v : IntTy4,
      let wide := v == .s64 || v == .u64
      let sg := v == .s32 || v == .s64
      let sh : Shape := { w := { d := wide, a := wide, b := wide }, signed := sg }
      let x := s.aluIn gid g o (Types.all (sOrU sg)) sh.w false sg
      g.LaneReady o sh →
        s.LaneDone gid g o sh 4 (fun l => exactOut wide (o.d.clmp == .sat) sg (x.intA wide sg l + x.intB wide sg l)) (exec (.iadd v o) s) ∧
          s.LaneDone gid g o sh 4 (fun l => exactOut wide (o.d.clmp == .sat) sg (x.intA wide sg l - x.intB wide sg l)) (exec (.isub v o) s)) ∧
    (∀ v : IntTy,
      let sg := v == .s32
      let x := s.in32 gid g o (sOrU sg)
      let a := x.intA false sg
      let b := x.intB false sg
      g.LaneReady o {} →
        s.LaneDone gid g o {} 4 (fun l => exactOut false (o.d.clmp == .sat) sg (a l * b l)) (exec (.imul v o) s) ∧
          s.LaneDone gid g o {} 4 (fun l => wordOut (BitVec.ofInt 32 (a l * b l / 2 ^ 32))) (exec (.imulhi v o) s) ∧
          s.LaneDone gid g o {} 4 (fun l => wordOut (BitVec.ofInt 32 (min (a l) (b l)))) (exec (.imin v o) s) ∧
          s.LaneDone gid g o {} 4 (fun l => wordOut (BitVec.ofInt 32 (max (a l) (b l)))) (exec (.imax v o) s) ∧
          s.LaneDone gid g o {} 4 (fun l => wordOut (BitVec.ofInt 32 |a l - b l|)) (exec (.iadif v o) s)) ∧
    (∀ v : MadTy,
      let wide := v == .wideS || v == .wideU
      let sg := v == .s32 || v == .wideS
      let sh : Shape := { w := { d := wide, c := wide } }
      let x := s.aluIn gid g o (Types.all (sOrU sg)) sh.w false false
      g.LaneReady o sh →
        s.LaneDone gid g o sh 4 (fun l => exactOut wide (o.d.clmp == .sat) sg (x.intA false sg l * x.intB false sg l + x.intC wide sg l)) (exec (.imad v o) s))

/-- R110-R113: shifts, rotates, bit logic, bit fields, counts and reversal, bit by bit, and the variants and forms that their words may have. -/
def Obligations.ShiftsAndBits : Prop :=
  (∀ (s : State) (gid : Nat) (g : Group) (o : Alu), s.Issues gid g →
    (let x := s.in32 gid g o .u32
     let a := lane x.a
     let b := lane x.b
     let c := lane x.c
     g.LaneReady o {} →
      (∀ v : ShiftV,
        let n := fun l => if v = .wrap then (b l).toNat % 32 else (b l).toNat
        s.LaneDone gid g o {} 4 (fun l => wordOut (BitVec.ofNat 32 ((a l).toNat * 2 ^ n l))) (exec (.shl v o) s) ∧
          s.LaneDone gid g o {} 4 (fun l => wordOut (BitVec.ofNat 32 ((a l).toNat / 2 ^ n l))) (exec (.shr v o) s) ∧
          s.LaneDone gid g o {} 4 (fun l => wordOut (BitVec.ofInt 32 ((a l).toInt / 2 ^ n l))) (exec (.sar v o) s)) ∧
      s.LaneDone gid g o {} 4 (fun l => wordOut (maskOf fun i => (a l).getLsbD ((i + 32 - (b l).toNat % 32) % 32))) (exec (.rol .only o) s) ∧
      s.LaneDone gid g o {} 4 (fun l => wordOut (maskOf fun i => (a l).getLsbD i && (b l).getLsbD i)) (exec (.and .only o) s) ∧
      s.LaneDone gid g o {} 4 (fun l => wordOut (maskOf fun i => (a l).getLsbD i || (b l).getLsbD i)) (exec (.or .only o) s) ∧
      s.LaneDone gid g o {} 4 (fun l => wordOut (maskOf fun i => (a l).getLsbD i != (b l).getLsbD i)) (exec (.xor .only o) s) ∧
      s.LaneDone gid g o {} 4 (fun l => wordOut (maskOf fun i => (a l).getLsbD i && !(b l).getLsbD i)) (exec (.andn .only o) s) ∧
      (∀ v : ExtV, s.LaneDone gid g o {} 4 (fun l =>
        let (is, pos, up) := fieldAt (b l)
        wordOut (maskOf fun i => is && (if pos + i < up then (a l).getLsbD (pos + i) else v == .s32 && (a l).getLsbD (up - 1)))) (exec (.bfe v o) s)) ∧
      s.LaneDone gid g o {} 4 (fun l =>
        let (is, pos, up) := fieldAt (b l)
        wordOut (maskOf fun i => if is && decide (pos ≤ i) && decide (i < up) then (a l).getLsbD (i - pos) else (c l).getLsbD i)) (exec (.bfi .only o) s)) ∧
    (let a := lane (s.in1 gid g o .u32).a
     let sh : Shape := { readsB := false, single := true }
     g.LaneReady o sh →
      s.LaneDone gid g o sh 4 (fun l => wordOut (BitVec.ofNat 32 ((List.range 32).filter fun i => (a l).getLsbD i).length)) (exec (.popc .only o) s) ∧
        s.LaneDone gid g o sh 4 (fun l => wordOut (BitVec.ofNat 32 ((List.range 32).takeWhile fun i => !(a l).getLsbD (31 - i)).length)) (exec (.clz .only o) s) ∧
        s.LaneDone gid g o sh 4 (fun l => wordOut (maskOf fun i => (a l).getLsbD (31 - i))) (exec (.brev .only o) s) ∧
      ∀ imm, o.x = .i imm → ∀ l, l < 32 → a l = imm)) ∧
  ∀ (dcc : Bool) (w : BitVec 96) (i : Instr), decode dcc w = .ok i →
    let op := w.extractLsb' 88 8
    let v := (w.extractLsb' 84 4).toNat
    (op = 0x18 → v ≤ 1 ∧ ∃ o, i = .shl (if v = 0 then .asGiven else .wrap) o) ∧ (op = 0x19 → v ≤ 1 ∧ ∃ o, i = .shr (if v = 0 then .asGiven else .wrap) o) ∧
      (op = 0x1A → v ≤ 1 ∧ ∃ o, i = .sar (if v = 0 then .asGiven else .wrap) o) ∧ (op = 0x1B → v = 0 ∧ ∃ o, i = .rol .only o) ∧
      (op = 0x1C → v = 0 ∧ ∃ o, i = .and .only o) ∧ (op = 0x1D → v = 0 ∧ ∃ o, i = .or .only o) ∧ (op = 0x1E → v = 0 ∧ ∃ o, i = .xor .only o) ∧
      (op = 0x1F → v = 0 ∧ ∃ o, i = .andn .only o) ∧ (op = 0x20 → v ≤ 1 ∧ ∃ o, i = .bfe (if v = 0 then .u32 else .s32) o) ∧
      (op = 0x21 → v = 0 ∧ ∃ o, i = .bfi .only o ∧ ∃ b c, o.x = .c b c) ∧
      ∀ o, i = .popc .only o ∨ i = .clz .only o ∨ i = .brev .only o → v = 0 ∧
        ((op = 0x22 ∧ i = .popc .only o) ∨ (op = 0x23 ∧ i = .clz .only o) ∨ (op = 0x24 ∧ i = .brev .only o)) ∧ ∀ imm, o.x = .i imm → o.a = Src.zero

/-- R114-R118, R120, R121: comparisons, selection, addresses, moves, byte permutation and byte dot products, and the variants and modifiers
that the words of SEL, LEA, PRMT and DP4 may have. -/
def Obligations.CompareSelectMove : Prop :=
  (∀ (s : State) (gid : Nat) (g : Group) (o : Alu), s.Issues gid g →
    (∀ v : ICond,
      let x := s.in32 gid g o (if v = .ltU ∨ v = .leU ∨ v = .gtU ∨ v = .geU then .u32 else .s32)
      g.LaneReady o {} → s.LaneDone gid g o {} 4 (fun l => wordOut (truth (condHolds v (lane x.a l) (lane x.b l)))) (exec (.icmp v o) s)) ∧
    (let x := s.in32 gid g o .u32
     g.LaneReady o {} →
      (∀ v : SelV, s.LaneDone gid g o {} 4 (fun l => wordOut (if (g.predMask v.k.toNat).getLsbD l != v.neg then lane x.a l else lane x.b l)) (exec (.sel v o) s)) ∧
      s.LaneDone gid g o {} 4 (fun l =>
        let pick := fun (i : Nat) =>
          let n := (lane x.c l).toNat / 16 ^ i % 16
          let b := prmtByte (lane x.a l) (lane x.b l) (n % 8)
          if n < 8 then b else if b.getLsbD 7 then 0xFF else 0
        wordOut (pick 3 ++ pick 2 ++ pick 1 ++ pick 0)) (exec (.prmt .only o) s) ∧
      (∀ v : Dp4V, s.LaneDone gid g o {} 5 (fun l =>
        let t := fun (i : Nat) => byteInt (v == .s8s8 || v == .s8u8) ((lane x.a l).extractLsb' (8 * i) 8) *
          byteInt (v == .s8s8 || v == .u8s8) ((lane x.b l).extractLsb' (8 * i) 8)
        wordOut (BitVec.ofInt 32 ((lane x.c l).toInt + (t 0 + t 1 + t 2 + t 3)))) (exec (.dp4 v o) s))) ∧
    (∀ v : LeaV,
      let sh : Shape := { w := { d := true, a := true } }
      let x := s.aluIn gid g o (Types.all .u32) sh.w false false
      g.LaneReady o sh → s.LaneDone gid g o sh 4 (fun l => outOfWide
        (BitVec.ofInt 64 ((x.aw l).toNat + intOf v.sx (lane x.b l) * 2 ^ v.n.toNat), 0)) (exec (.lea v o) s)) ∧
    (∀ v : MovTy,
      let wide := v == .b64
      let sh : Shape := { w := { d := wide, a := wide }, readsB := false, single := true }
      let x := s.aluIn gid g o (Types.all .u32) sh.w true false
      g.LaneReady o sh → s.LaneDone gid g o sh 4 (fun l => ⟨lane x.a l, lane x.aHi l, 0⟩) (exec (.mov v o) s)) ∧
    (let run := g.runMask o.hdr
     (let x := s.in32 gid g o .u32
      g.LaneReady o (movlsShape .get run) →
        s.LaneDone gid g o (movlsShape .get run) 8 (fun l => wordOut (lane x.a ((lane x.b l).toNat % 32))) (exec (.movls .get o) s)) ∧
      (let x := s.in32 gid g o .u32
       g.LaneReady o (movlsShape .first run) →
        s.LaneDone gid g o (movlsShape .first run) 8 (fun _ => wordOut (lane x.a (firstLane run))) (exec (.movls .first o) s)) ∧
      (let x := s.in1 gid g o .u32
       g.LaneReady o (movlsShape .put run) →
        s.LaneDone gid g o (movlsShape .put run) 8 (fun l => wordOut (lane x.a l)) (exec (.movls .put o) s))) ∧
    (let x := s.in32 gid g o .u32
     g.LaneReady o { readsB := false } → s.LaneDone gid g o { readsB := false } 4 (fun l => wordOut (lane x.a l)) (exec (.movsr .only o) s)) ∧
    ∀ l, l < 32 → (g.predMask 7).getLsbD l = true) ∧
  ∀ (dcc : Bool) (w : BitVec 96) (i : Instr), decode dcc w = .ok i →
    let op := w.extractLsb' 88 8
    let v := w.extractLsb' 84 4
    let uniform := fun (q : Src) => q.file = .scal ∨ q.file = .spec ∧ q.reg ≠ 0x01 ∧ q.reg ≠ 0x1F
    (op = 0x26 → ∃ o, i = .sel ⟨v.getLsbD 3, v.extractLsb' 0 3⟩ o ∧
      (o.d.file = .scal → v.extractLsb' 0 3 = 7 ∧ uniform o.a ∧ ∀ b p rm, o.x = .n b p rm → uniform b)) ∧
    (op = 0x27 → ∃ o, i = .lea ⟨v.getLsbD 3, v.extractLsb' 0 3⟩ o ∧ o.d.clmp = .none ∧ o.d.reg.toNat % 2 = 0 ∧ o.a.reg.toNat % 2 = 0 ∧
      o.a.neg = false ∧ o.a.abs = false ∧ o.a.sub = .whole ∧ ∀ b p rm, o.x = .n b p rm → b.neg = false ∧ b.abs = false) ∧
    (op = 0x2C → v = 0 ∧ ∃ o b c, i = .prmt .only o ∧ o.x = .c b c) ∧
    (op = 0x2D → v.toNat ≤ 3 ∧ ∃ o b c, i = .dp4 (match v.toNat with | 0 => .s8s8 | 1 => .u8u8 | 2 => .s8u8 | _ => .u8s8) o ∧ o.x = .c b c ∧
      o.d.clmp = .none ∧ o.d.scl = 0)

/-- R73, R74, R102, R119, R275: MOVRS and SETEXM, once for the group: the value that lands, in a DCC the mask's lane 0 alone (R275), and the traps of
an empty mask and of a loop that may not become live. -/
def Obligations.SpecialRegisterWrites : Prop :=
  ∀ (s : State) (gid : Nat) (g : Group) (o : Alu), s.Issues gid g → g.runMask o.hdr ≠ 0 → g.groupSourceBad o = false →
    let w := s.groupSource gid g o
    let us := aluUses o {} true false true
    let clk := s.cclk (gidCid gid)
    let stage := 0x30 ≤ o.d.reg.toNat ∧ o.d.reg.toNat ≤ 0x47 ∧ (o.d.reg.toNat - 0x30) % 6 = 5
    let k := (o.d.reg.toNat - 0x30) / 6
    (∀ v : ExmOp,
      let m : LaneMask := match v with
        | .set => w
        | .or => g.exm ||| w
        | .andn => g.exm &&& ~~~w
        | .and => g.exm &&& w
      let new := if isDcc (gidCid gid) then m &&& 1 else m
      (new ≠ 0 → ∃ g', exec (.setexm v o) s = .next (s.putGroup gid g') ∧ g.Done g' us ∧
        g'.Awaits g.sched.issued (clk + 2) (.spec 0) 1 (fun _ => new) 0) ∧
      (new = 0 → exec (.setexm v o) s = .next (s.trapHere gid g 0x08 0))) ∧
    (¬(stage ∧ g.liveFault k w = true) → ∃ g', exec (.movrs .only o) s = .next (s.putGroup gid g') ∧ g.Done g' us ∧
      g'.Awaits g.sched.issued (clk + 4) (.spec o.d.reg.toNat) 1 (fun _ => w) 0 ∧ (stage → clk + 4 ≤ g'.sched.notBefore)) ∧
    (stage ∧ g.liveFault k w = true → exec (.movrs .only o) s = .next (s.trapHere gid g 0x0A k))

/-- R122-R127: FADD, FMUL, FFMA, FMIN, FMAX, FCMP, FRND, FLDEXP, FDIV, FSQRT and FDOT2 complete with the lane results of Float.lean at the
latencies of R40. -/
def Obligations.FloatArithmetic : Prop :=
  ∀ (s : State) (gid : Nat) (g : Group) (o : Alu), s.Issues gid g →
    let rm := aluRm o
    (g.LaneReady o {} →
      (∀ v : FTy,
        let x := s.in32 gid g o (if v = .f32 then .f32 else .pack)
        let a := lane x.a
        let b := lane x.b
        s.LaneDone gid g o {} 4 (fun l => outOf (laneFadd v rm o.d (a l) (b l))) (exec (.fadd v o) s) ∧
          s.LaneDone gid g o {} 4 (fun l => outOf (laneFmul v rm o.d (a l) (b l))) (exec (.fmul v o) s) ∧
          s.LaneDone gid g o {} 4 (fun l => outOf (laneFfma v o.d (a l) (b l) (lane x.c l))) (exec (.ffma v o) s) ∧
          s.LaneDone gid g o {} 4 (fun l => outOf (laneFminmax v false o.d (a l) (b l))) (exec (.fmin v o) s) ∧
          s.LaneDone gid g o {} 4 (fun l => outOf (laneFminmax v true o.d (a l) (b l))) (exec (.fmax v o) s)) ∧
      (let x := s.in32 gid g o .f32
       (∀ v : FCond, s.LaneDone gid g o {} 4 (fun l => wordOut (truth (laneFcmp v (lane x.a l) (lane x.b l)))) (exec (.fcmp v o) s)) ∧
        s.LaneDone gid g o {} 30 (fun l => outOf (laneFdiv rm o.d (lane x.a l) (lane x.b l))) (exec (.fdiv .only o) s)) ∧
      (let x := s.aluIn gid g o ⟨.f32, .s32, .f32⟩ {} false false
       s.LaneDone gid g o {} 4 (fun l => outOf (laneFldexp rm o.d (lane x.a l) (lane x.b l))) (exec (.fldexp .only o) s)) ∧
      (let x := s.aluIn gid g o ⟨.pack, .pack, .f32⟩ {} false false
       ∀ v : DotTy, s.LaneDone gid g o {} 5 (fun l => outOf (laneFdot2 v o.d (lane x.a l) (lane x.b l) (lane x.c l))) (exec (.fdot2 v o) s))) ∧
    (let sh : Shape := { readsB := false, single := true }
     g.LaneReady o sh →
      (∀ v : FTy, s.LaneDone gid g o sh 4 (fun l => outOf (laneFrnd v rm o.d (lane (s.in1 gid g o (if v = .f32 then .f32 else .pack)).a l))) (exec (.frnd v o) s)) ∧
        s.LaneDone gid g o sh 30 (fun l => outOf (laneFsqrt rm o.d (lane (s.in1 gid g o .f32).a l))) (exec (.fsqrt .only o) s))

/-- R122-R127: the values of the F32 operations, given by the bits of the operands and by exact arithmetic. Every result of finite operands is
one rounding of the exact value times 2^SCL (two for FDOT2; a quotient or a root is known by its whole part); the NaN, infinity, zero and
division-by-zero cases and their flags are the rules' own, a zero sum is +0 but toward minus infinity; FMIN, FMAX and FCMP go by the order of the numbers; FRND gives
the integral value of the mode; a packed variant does the same by halves; and CLMP acts on the unclamped result by the table of R26, on a
NaN too (log 105). -/
def Obligations.FloatOperationsRoundOnce : Prop :=
  ∀ (rm : Rm) (d : Dst) (a b c : Word),
    let p := { d with clmp := Clamp.none }
    let k : ℚ := (2 : ℚ) ^ d.scl.toInt
    let opp := a.msb != b.msb
    (f32Finite a → f32Finite b →
      (let r := laneFadd .f32 rm p a b
       RoundsOnce fmtF32 rm ((f32Val a + f32Val b) * k) r.1.toNat r.2 ∧
        (f32Val a + f32Val b = 0 → r = (if f32IsZero a ∧ opp = false then a else f32Of (rm == .rd) 0, 0))) ∧
      (let r := laneFmul .f32 rm p a b
       RoundsOnce fmtF32 rm (f32Val a * f32Val b * k) r.1.toNat r.2 ∧ (f32IsZero a ∨ f32IsZero b → r = (f32Of opp 0, 0))) ∧
      (f32Finite c → RoundsOnce fmtF32 .rne ((f32Val a * f32Val b + f32Val c) * k) (laneFfma .f32 p a b c).1.toNat (laneFfma .f32 p a b c).2)) ∧
    (f32IsNan a ∨ f32IsNan b ∨ f32IsInf a ∧ f32IsInf b ∧ opp = true → laneFadd .f32 rm p a b = (canon, flInv)) ∧
    (f32IsInf a ∧ (f32Finite b ∨ b = a) → laneFadd .f32 rm p a b = (a, 0) ∧ laneFadd .f32 rm p b a = (a, 0)) ∧
    (let bad := f32IsNan a ∨ f32IsNan b ∨ f32IsZero a ∧ f32IsInf b ∨ f32IsInf a ∧ f32IsZero b
     (bad → laneFmul .f32 rm p a b = (canon, flInv)) ∧
      (¬bad ∧ (f32IsInf a ∨ f32IsInf b) → laneFmul .f32 rm p a b = (f32Of opp 0x7F800000, 0)) ∧
      (bad ∨ f32IsNan c ∨ (f32IsInf a ∨ f32IsInf b) ∧ f32IsInf c ∧ c.msb ≠ opp → laneFfma .f32 p a b c = (canon, flInv)) ∧
      (¬bad ∧ (f32IsInf a ∨ f32IsInf b) ∧ (f32Finite c ∨ f32IsInf c ∧ c.msb = opp) → laneFfma .f32 p a b c = (f32Of opp 0x7F800000, 0)) ∧
      (f32Finite a ∧ f32Finite b ∧ f32IsInf c → laneFfma .f32 p a b c = (c, 0))) ∧
    (¬f32IsNan a → d.scl = 0 → laneFmul .f32 rm p a 0x3F800000 = (a, 0)) ∧
    (laneFminmax .f32 false p a b = (if f32IsNan a then (if f32IsNan b then canon else b) else if f32IsNan b then a
        else if f32MinKey b < f32MinKey a then b else a, 0) ∧
      laneFminmax .f32 true p a b = (if f32IsNan a then (if f32IsNan b then canon else b) else if f32IsNan b then a
        else if f32MinKey a < f32MinKey b then b else a, 0)) ∧
    (let num := ¬f32IsNan a ∧ ¬f32IsNan b
     (laneFcmp .eq a b = true ↔ num ∧ f32Key a = f32Key b) ∧ (laneFcmp .ne a b = true ↔ ¬(num ∧ f32Key a = f32Key b)) ∧
      (laneFcmp .lt a b = true ↔ num ∧ f32Key a < f32Key b) ∧ (laneFcmp .le a b = true ↔ num ∧ f32Key a ≤ f32Key b) ∧
      (laneFcmp .gt a b = true ↔ num ∧ f32Key a > f32Key b) ∧ (laneFcmp .ge a b = true ↔ num ∧ f32Key a ≥ f32Key b) ∧
      (laneFcmp .num a b = true ↔ num) ∧ (laneFcmp .nan a b = true ↔ ¬num)) ∧
    (let r := laneFrnd .f32 rm p a
     (f32IsNan a → r = (canon, 0)) ∧ (f32IsInf a ∨ f32IsZero a → r = (a, 0)) ∧
      (f32Finite a → r.2 = 0 ∧ f32Finite r.1 ∧ ∃ n : Int, RoundsInt rm (f32Val a) n ∧ f32Val r.1 = n)) ∧
    (let r := laneFldexp rm p a b
     (f32IsNan a → r = (canon, 0)) ∧ (f32IsInf a ∨ f32IsZero a → r = (a, 0)) ∧
      (f32Finite a → RoundsOnce fmtF32 rm (f32Val a * (2 : ℚ) ^ (b.toInt + d.scl.toInt)) r.1.toNat r.2)) ∧
    (let r := laneFdiv rm p a b
     (f32IsNan a ∨ f32IsNan b → r = (canon, 0)) ∧ (f32IsZero a ∧ f32IsZero b ∨ f32IsInf a ∧ f32IsInf b → r = (canon, flInv)) ∧
      (f32Finite a ∧ ¬f32IsZero a ∧ f32IsZero b → r = (f32Of opp 0x7F800000, flDbz)) ∧
      (f32IsInf a ∧ f32Finite b → r = (f32Of opp 0x7F800000, 0)) ∧
      (f32Finite a ∧ f32IsInf b ∨ f32IsZero a ∧ f32Finite b ∧ ¬f32IsZero b → r = (f32Of opp 0, 0)) ∧
      (f32Finite a ∧ f32Finite b ∧ ¬f32IsZero a ∧ ¬f32IsZero b → RoundsRoot rm opp (fun y => y ≤ |f32Val a / f32Val b| * k) r.1 r.2)) ∧
    (let r := laneFsqrt rm p a
     (f32IsNan a → r = (canon, 0)) ∧ (f32IsZero a ∨ a = 0x7F800000 → r = (a, 0)) ∧
      (¬f32IsNan a ∧ f32Key a < 0 → r = (canon, flInv)) ∧
      (f32Finite a ∧ 0 < f32Key a → RoundsRoot rm false (fun y => y ^ 2 ≤ f32Val a * k ^ 2) r.1 r.2)) ∧
    (∀ t : DotTy,
      let fw := if t = .f16 then 10 else 7
      let h := fun (w : Word) (i : Nat) => w.toNat / 65536 ^ i % 65536
      let num := fun (w : Word) => ∀ i < 2, h w i / 2 ^ fw % 2 ^ (15 - fw) ≠ 2 ^ (15 - fw) - 1
      let v := fun (w : Word) (i : Nat) => patVal (15 - fw) fw (h w i)
      num a → num b → f32Finite c → ∃ (mid : Word) (fl fl' : Flags),
        RoundsOnce fmtF32 .rne (f32Val c + v a 0 * v b 0) mid.toNat fl ∧
          (f32Finite mid → RoundsOnce fmtF32 .rne (f32Val mid + v a 1 * v b 1) (laneFdot2 t p a b c).1.toNat fl' ∧
            (laneFdot2 t p a b c).2 = fl ||| fl')) ∧
    (∀ t : FTy, t ≠ .f32 →
      let fw := if t = .f16x2 then 10 else 7
      let h := fun (w : Word) (i : Nat) => w.toNat / 65536 ^ i % 65536
      let num := fun (w : Word) => ∀ i < 2, h w i / 2 ^ fw % 2 ^ (15 - fw) ≠ 2 ^ (15 - fw) - 1
      let v := fun (w : Word) (i : Nat) => patVal (15 - fw) fw (h w i)
      let halves := fun (m : Rm) (x : Nat → ℚ) (r : Word × Flags) => ∃ fl : Nat → Flags, r.2 = fl 0 ||| fl 1 ∧
        ∀ i < 2, RoundsOnce (fmtOf t) m (x i * k) (h r.1 i) (fl i)
      num a → num b → halves rm (fun i => v a i + v b i) (laneFadd t rm p a b) ∧ halves rm (fun i => v a i * v b i) (laneFmul t rm p a b) ∧
        (num c → halves .rne (fun i => v a i * v b i + v c i) (laneFfma t p a b c))) ∧
    (let clamped := fun (f : Dst → Word × Flags) =>
      f d = ((F32Clamp d.clmp (f p).1).1, (f p).2 ||| (F32Clamp d.clmp (f p).1).2)
     clamped (laneFadd .f32 rm · a b) ∧ clamped (laneFmul .f32 rm · a b) ∧ clamped (laneFfma .f32 · a b c) ∧
      clamped (laneFminmax .f32 false · a b) ∧ clamped (laneFminmax .f32 true · a b) ∧ clamped (laneFrnd .f32 rm · a) ∧
      clamped (laneFldexp rm · a b) ∧ clamped (laneFdiv rm · a b) ∧ clamped (laneFsqrt rm · a) ∧
      (∀ t : DotTy, clamped (laneFdot2 t · a b c)))

/-- R60, R62: rounding to nearest gives a finite value no farther from the exact one than any other finite value of the format, unless it
overflows, and the inexact flag says whether it is another value. -/
def Obligations.RoundsToNearest : Prop :=
  let val := fun (v : FVal) => match v with
    | .fin n m e => (if n then -1 else 1) * (m : ℚ) * (2 : ℚ) ^ e
    | _ => 0
  let finite := fun (v : FVal) => v.isNan = false ∧ v.isInf = false
  ∀ f ∈ [fmtF32, fmtF16, fmtBF16, fmtF8E4, fmtF8E5], ∀ (n : Bool) (m : Nat) (e : Int),
    let x := val (.fin n m e)
    let r := roundF f .rne n false m e
    r.2 &&& flOvf = 0 →
      finite (decodeF f r.1) ∧ (∀ w, w < 2 ^ f.width → finite (decodeF f w) → |val (decodeF f r.1) - x| ≤ |val (decodeF f w) - x|) ∧
        (r.2 &&& flInx = 0 ↔ val (decodeF f r.1) = x)

/-- R61, R128-R138, R142: every NaN that a lane operation gives in F32 is the canonical one (a GRED or GSCAN .fadd over at least two lanes: over one lane it
gives the lane's own value), and the tabulated cases of the special functions and of the conversions: NaN, infinities, zeros, powers of two, integers and
half-integers, the ends of an integer range, exact widenings, the codes of PACKQ with the example of R138, and the elements of UNPKQ. -/
def Obligations.NansAndSpecialValues : Prop :=
  (∀ (rm : Rm) (d : Dst) (a b c : Word),
    (∀ r ∈ [(laneFadd .f32 rm d a b).1, (laneFmul .f32 rm d a b).1, (laneFfma .f32 d a b c).1, (laneFminmax .f32 false d a b).1,
        (laneFminmax .f32 true d a b).1, (laneFrnd .f32 rm d a).1, (laneFldexp rm d a b).1, (laneFdiv rm d a b).1, (laneFsqrt rm d a).1,
        (laneFdot2 .f16 d a b c).1, (laneFdot2 .bf16 d a b c).1, (laneRcp d a).1, (laneRsq d a).1, (laneExp2 d a).1, (laneLog2 d a).1,
        (laneSinpi d a).1, (laneCospi d a).1, (laneTanh d a).1, (laneUnpkq .q4x d a b).1, (laneUnpkq .i4 d a b).1] ++
        [CvtV.f32s32, .f32u32, .f32f16, .f32bf16, .f32f8e4, .f32f8e5, .f32s8, .f32i4].map fun v => (laneCvt v rm d a b).1,
      f32IsNan r → r = canon) ∧
    (∀ (vals : Lanes) (l m : Nat) (ls : List Nat), f32IsNan (reduce .fadd rm vals (l :: m :: ls)).w → (reduce .fadd rm vals (l :: m :: ls)).w = canon) ∧
    (f32IsNan a → d.clmp = .none → ∀ r ∈ [laneRcp d a, laneRsq d a, laneExp2 d a, laneLog2 d a, laneSinpi d a, laneCospi d a, laneTanh d a], r = (canon, 0))) ∧
  (∀ a : Word,
    let d := Dst.zero
    let ex := f32Mag a / 2 ^ 23
    let pow2 := f32Mag a % 2 ^ 23 = 0 ∧ 1 ≤ ex ∧ ex ≤ 253
    let neg := ¬f32IsNan a ∧ f32Key a < 0
    let one := fun (n : Bool) => f32Of n 0x3F800000
    ((f32IsZero a → laneRcp d a = (f32Of a.msb 0x7F800000, flDbz)) ∧ (f32IsInf a → laneRcp d a = (f32Of a.msb 0, 0)) ∧
      (pow2 → laneRcp d a = (f32Of a.msb ((254 - ex) * 2 ^ 23), 0)) ∧
      (f32Finite a ∧ 1 ≤ ex ∧ ¬f32Mag a % 2 ^ 23 = 0 → (laneRcp d a).2 &&& flInx = flInx)) ∧
    ((neg → laneRsq d a = (canon, flInv)) ∧ (f32IsZero a → laneRsq d a = (f32Of a.msb 0x7F800000, flDbz)) ∧
      (a = 0x7F800000 → laneRsq d a = (0, 0)) ∧
      (pow2 ∧ a.msb = false ∧ ex % 2 = 1 → laneRsq d a = (f32Of false ((381 - ex) / 2 * 2 ^ 23), 0))) ∧
    ((a = 0x7F800000 → laneExp2 d a = (a, 0)) ∧ (a = 0xFF800000 → laneExp2 d a = (0, 0)) ∧
      (f32Finite a → ∀ k : Int, f32Val a = k →
        (-126 ≤ k ∧ k ≤ 127 → laneExp2 d a = (f32Of false ((127 + k).toNat * 2 ^ 23), 0)) ∧
        (-149 ≤ k ∧ k ≤ -127 → laneExp2 d a = (f32Of false (2 ^ (149 + k).toNat), 0))) ∧
      (f32Finite a ∧ 192 ≤ f32Val a → laneExp2 d a = (0x7F800000, flOvf ||| flInx)) ∧
      (f32Finite a ∧ f32Val a < -192 → laneExp2 d a = (0, flUnf ||| flInx))) ∧
    ((neg → laneLog2 d a = (canon, flInv)) ∧ (f32IsZero a → laneLog2 d a = (0xFF800000, flDbz)) ∧ (a = 0x7F800000 → laneLog2 d a = (a, 0)) ∧
      (pow2 ∧ a.msb = false → f32Val (laneLog2 d a).1 = (ex : ℚ) - 127 ∧ f32Finite (laneLog2 d a).1 ∧ (laneLog2 d a).2 = 0)) ∧
    ((f32IsInf a → laneSinpi d a = (canon, flInv) ∧ laneCospi d a = (canon, flInv)) ∧
      (f32Finite a → ∀ k : Int,
        (f32Val a = k → laneSinpi d a = (f32Of a.msb 0, 0) ∧ laneCospi d a = (one (k % 2 = 1), 0)) ∧
        (f32Val a = k + 1 / 2 → laneSinpi d a = (one (k % 2 = 1), 0) ∧ laneCospi d a = (0, 0)))) ∧
    ((f32IsZero a → laneTanh d a = (a, 0)) ∧ (f32IsInf a ∨ f32Finite a ∧ 10 ≤ |f32Val a| → laneTanh d a = (one a.msb, 0)) ∧
      (f32Finite a ∧ ¬f32IsZero a ∧ |f32Val a| < 10 → (laneTanh d a).2 &&& flInx = flInx))) ∧
  (∀ (rm : Rm) (a b : Word),
    let d := Dst.zero
    RoundsOnce fmtF32 rm a.toInt (laneCvt .f32s32 rm d a b).1.toNat (laneCvt .f32s32 rm d a b).2 ∧
    RoundsOnce fmtF32 rm a.toNat (laneCvt .f32u32 rm d a b).1.toNat (laneCvt .f32u32 rm d a b).2 ∧
    (∀ t ∈ [(CvtV.s32f32, (-(2 ^ 31) : Int), (2 ^ 31 - 1 : Int)), (.u32f32, 0, 2 ^ 32 - 1), (.s8f32, -128, 127), (.i4f32, -7, 7)],
      let code := fun (i : Int) => if t.1 = .i4f32 then BitVec.ofNat 32 ((if i < 0 then 8 else 0) + i.natAbs) else BitVec.ofInt 32 i
      let r := laneCvt t.1 rm d a b
      (f32IsNan a → r = (0, flInv)) ∧ (f32IsInf a → r = (code (if a.msb then t.2.1 else t.2.2), flInv ||| flSat)) ∧
      (f32Finite a → ∃ n : Int, RoundsInt rm (f32Val a) n ∧ r =
        if n < t.2.1 then (code t.2.1, flInv ||| flSat) else if t.2.2 < n then (code t.2.2, flInv ||| flSat)
        else (code n, if f32Val a = n then 0 else flInx))) ∧
    (let wide := fun (f : Fmt) (x : Nat) (r : Word × Flags) => r.2 = 0 ∧
      (let top := x / 2 ^ f.fw % 2 ^ f.ew = 2 ^ f.ew - 1
       let frac := x % 2 ^ f.fw
       let isNan := top ∧ (if f.e4 then frac = 2 ^ f.fw - 1 else frac ≠ 0)
       (isNan → r.1 = canon) ∧ (top ∧ f.e4 = false ∧ frac = 0 → r.1 = f32Of (x / 2 ^ (f.ew + f.fw) % 2 = 1) 0x7F800000) ∧
        (¬isNan ∧ ¬(top ∧ f.e4 = false) → f32Finite r.1 ∧ f32Val r.1 = patVal f.ew f.fw x))
     let at8 := a.toNat / 256 ^ (b.toNat % 4) % 256
     wide fmtF16 (a.toNat % 65536) (laneCvt .f32f16 rm d a b) ∧ wide fmtBF16 (a.toNat % 65536) (laneCvt .f32bf16 rm d a b) ∧
      wide fmtF8E4 at8 (laneCvt .f32f8e4 rm d a b) ∧ wide fmtF8E5 at8 (laneCvt .f32f8e5 rm d a b) ∧
      (let r := laneCvt .f32s8 rm d a b
       r.2 = 0 ∧ f32Finite r.1 ∧ f32Val r.1 = if at8 < 128 then (at8 : ℚ) else (at8 : ℚ) - 256) ∧
      (let c := a.toNat / 16 ^ (b.toNat % 8) % 16
       let r := laneCvt .f32i4 rm d a b
       r.2 = 0 ∧ f32Finite r.1 ∧ (f32Val r.1 = if c < 8 then (c : ℚ) else 8 - c) ∧ (c = 8 → r.1 = 0))) ∧
    (let narrow := fun (f : Fmt) (w : Word) (x : Nat × Flags) =>
      (f32IsNan w → x = (f.nan, 0)) ∧ (f32IsInf w → x = if f.e4 then (f.maxBits w.msb, flSat) else (f.infBits w.msb, 0)) ∧
        (f32Finite w → RoundsOnce f rm (f32Val w) x.1 x.2)
     ∀ t ∈ [(CvtV.f16x2, fmtF16), (.bf16x2, fmtBF16), (.f8e4x2, fmtF8E4), (.f8e5x2, fmtF8E5)],
      ∃ x y : Nat × Flags, narrow t.2 a x ∧ narrow t.2 b y ∧
        laneCvt t.1 rm d a b = (BitVec.ofNat 32 (x.1 + y.1 * 2 ^ t.2.width), x.2 ||| y.2))) ∧
  (∀ (v : PackTy) (rm : Rm) (a : Nat → Word),
    let beyond := fun (i : Nat) (n : Int) => f32IsInf (a i) ∨ f32Finite (a i) ∧ 7 < n.natAbs
    let plain := fun (i : Nat) (n : Int) (c : Nat) (fl : Flags) =>
      (f32IsNan (a i) → c = 0 ∧ fl = flInv) ∧ (f32IsInf (a i) → c = (if (a i).msb then 15 else 7) ∧ fl = flSat) ∧
      (f32Finite (a i) → c = (if n < 0 then 8 else 0) + min n.natAbs 7 ∧
        fl = (if 7 < n.natAbs then flSat else 0) ||| (if f32Val (a i) = n then 0 else flInx))
    ∃ (n : Nat → Int) (c : Nat → Nat) (fl : Nat → Flags),
      (∀ i < 8, c i < 16 ∧ (f32Finite (a i) → RoundsInt rm (f32Val (a i)) (n i))) ∧
      lanePackq v rm a = (BitVec.ofNat 32 (((List.range 8).map fun i => c i * 16 ^ i).sum), (List.range 8).foldl (fun x i => x ||| fl i) 0) ∧
      ∀ g < 2,
        let o := 4 * g
        let outlier := v = .q4x ∧ (f32IsNan (a o) ∨ beyond o (n o))
        plain (o + 3) (n (o + 3)) (c (o + 3)) (fl (o + 3)) ∧
        (¬outlier → ∀ i < 3, plain (o + i) (n (o + i)) (c (o + i)) (fl (o + i))) ∧
        (outlier → c o = 8 ∧
          (let x := c (o + 1) * 16 + c (o + 2)
           (f32IsNan (a o) → x = 0x7F ∧ fl o = 0) ∧ (f32IsInf (a o) → x = (if (a o).msb then 0xFE else 0x7E) ∧ fl o = flSat) ∧
            (f32Finite (a o) → RoundsOnce fmtF8E4 rm (f32Val (a o)) x (fl o))) ∧
          ∀ i ∈ [1, 2], fl (o + i) =
            if f32Finite (a (o + i)) ∧ n (o + i) = 0 then 0 else flSat)) ∧
  (let ex := fun (i : Nat) => [0x41A00000#32, 0x40000000#32, 0#32, 0x40500000#32, 0x40A00000#32, 0xBECCCCCD#32, 0xC1100000#32, 0x3F800000#32].getD i 0
   lanePackq .q4x .rne ex = (0x1F053A58, flInx ||| flSat)) ∧
  (∀ a b : Word,
    let code := fun (i : Nat) => a.toNat / 16 ^ i % 16
    let plain := fun (i : Nat) => if code i < 8 then (code i : ℚ) else 8 - code i
    let j := b.toNat % 8
    let g := j / 4 * 4
    let is := fun (r : Word × Flags) (x : ℚ) => r.2 = 0 ∧ f32Finite r.1 ∧ f32Val r.1 = x
    is (laneUnpkq .i4 Dst.zero a b) (plain j) ∧
    (code g ≠ 8 → is (laneUnpkq .q4x Dst.zero a b) (plain j)) ∧
    (code g = 8 →
      (let x := code (g + 1) * 16 + code (g + 2)
       j = g → if x % 128 = 127 then laneUnpkq .q4x Dst.zero a b = (canon, 0) else is (laneUnpkq .q4x Dst.zero a b) (patVal 4 3 x)) ∧
      (j = g + 1 ∨ j = g + 2 → laneUnpkq .q4x Dst.zero a b = (0, 0)) ∧
      (j = g + 3 → is (laneUnpkq .q4x Dst.zero a b) (plain j))))

/-- R128-R135: the special functions complete, one source, 12 cluster clocks after their issue. -/
def Obligations.SpecialFunctions : Prop :=
  ∀ (s : State) (gid : Nat) (g : Group) (o : Alu), s.Issues gid g →
    let sh : Shape := { readsB := false, single := true }
    let a := lane (s.in1 gid g o .f32).a
    g.LaneReady o sh →
      s.LaneDone gid g o sh 12 (fun l => outOf (laneRcp o.d (a l))) (exec (.rcp .only o) s) ∧
        s.LaneDone gid g o sh 12 (fun l => outOf (laneRsq o.d (a l))) (exec (.rsq .only o) s) ∧
        s.LaneDone gid g o sh 12 (fun l => outOf (laneExp2 o.d (a l))) (exec (.exp2 .only o) s) ∧
        s.LaneDone gid g o sh 12 (fun l => outOf (laneLog2 o.d (a l))) (exec (.log2 .only o) s) ∧
        s.LaneDone gid g o sh 12 (fun l => outOf (laneSinpi o.d (a l))) (exec (.sinpi .only o) s) ∧
        s.LaneDone gid g o sh 12 (fun l => outOf (laneCospi o.d (a l))) (exec (.cospi .only o) s) ∧
        s.LaneDone gid g o sh 12 (fun l => outOf (laneTanh o.d (a l))) (exec (.tanh .only o) s)

/-- R136-R138: CVT, PACKQ over aligned runs of eight lanes, and UNPKQ complete 6 cluster clocks after their issue. -/
def Obligations.Conversions : Prop :=
  ∀ (s : State) (gid : Nat) (g : Group) (o : Alu), s.Issues gid g →
    (∀ v : CvtV,
      let sh : Shape := { readsB := cvtReadsB v, single := !cvtReadsB v }
      let ty : OpTy := if v = .f32s32 then .s32 else if v = .f32u32 then .u32 else .f32
      let x := s.aluIn gid g o (Types.all ty) {} (!cvtReadsB v) false
      g.LaneReady o sh → s.LaneDone gid g o sh 6 (fun l => outOf (laneCvt v (aluRm o) o.d (lane x.a l) (lane x.b l))) (exec (.cvt v o) s)) ∧
    (∀ v : PackTy,
      (let sh : Shape := { readsB := false }
       let x := s.in32 gid g o .f32
       g.LaneReady o sh → s.LaneDone gid g o sh 6 (fun l => outOf (lanePackq v (aluRm o) fun i => lane x.a (l / 8 * 8 + i))) (exec (.packq v o) s)) ∧
      (let x := s.in32 gid g o .u32
       g.LaneReady o {} → s.LaneDone gid g o {} 6 (fun l => outOf (laneUnpkq v o.d (lane x.a l) (lane x.b l))) (exec (.unpkq v o) s)))

/-- R139-R144: SHFL, VOTE, GRED, GSCAN and RNG; the last four read their running lanes alone or each lane's own operands. -/
def Obligations.ExchangeWithinGroup : Prop :=
  ∀ (s : State) (gid : Nat) (g : Group) (o : Alu), s.Issues gid g →
    let run := g.runMask o.hdr
    let x := s.in32 gid g o .u32
    let a := lane x.a
    let noB : Shape := { readsB := false }
    (∀ v : ShflV, g.LaneReady o {} → s.LaneDone gid g o {} 8 (fun l =>
      let b := (lane x.b l).toNat
      wordOut (a (match v with
        | .idx => b % 32
        | .up => if b ≤ l then l - b else l
        | .down => if l + b ≤ 31 then l + b else l
        | .xor => l ^^^ (b % 32)))) (exec (.shfl v o) s)) ∧
    (g.LaneReady o noB →
      (∀ v : VoteV, s.LaneDone gid g o noB 8 (fun _ =>
        let yes := fun (l : Nat) => a l ≠ 0
        wordOut (match v with
          | .any => truth (decide (∃ l ∈ lanesOf run, yes l))
          | .all => truth (decide (∀ l ∈ lanesOf run, yes l))
          | .uni => truth (decide ((∀ l ∈ lanesOf run, yes l) ∨ ∀ l ∈ lanesOf run, ¬yes l))
          | .ballot => maskOf fun l => run.getLsbD l && decide (yes l))) (exec (.vote v o) s)) ∧
      (∀ v : RedOp, s.LaneDone gid g o noB 8 (fun _ => reduce v (aluRm o) x.a (lanesOf run)) (exec (.gred v o) s)) ∧
      (∀ v : ScanV,
        let ex := v == .iaddEx || v == .faddEx
        s.LaneDone gid g o noB 10 (fun l => reduce (scanOp v).1 (aluRm o) x.a ((lanesOf run).filter fun m => if ex then m < l else m ≤ l)) (exec (.gscan v o) s))) ∧
    (∀ v : RngTy,
      let sh : Shape := { w := { a := true, b := true } }
      let y := s.aluIn gid g o (Types.all .u32) sh.w false false
      g.LaneReady o sh → s.LaneDone gid g o sh 6 (fun l =>
        let r := rngBits (y.aw l) (y.bw l)
        wordOut (if v = .f32 then rngF32 r else r)) (exec (.rng v o) s))

/-- R145, R146: PLOP, P2V and V2P. -/
def Obligations.PredicateMoves : Prop :=
  ∀ (s : State) (gid : Nat) (g : Group) (o : Alu), s.Issues gid g →
    let none_ : Shape := { readsA := false, readsB := false }
    (g.LaneReady o none_ →
      (∀ (v : BitVec 4) (b : Src) (p : Perm) (rm : Rm), o.x = .n b p rm →
        let at' := fun (q : Src) (l : Nat) => (if q.file = .vec then (g.predMask q.reg.toNat).getLsbD l else g.stages.getLsbD q.reg.toNat) != q.neg
        s.LaneDone gid g o none_ 2 (fun l => wordOut (truth (v.getLsbD (2 * (at' o.a l).toNat + (at' b l).toNat)))) (exec (.plop v o) s)) ∧
      s.LaneDone gid g o none_ 2 (fun l => wordOut (BitVec.ofNat 32 (((List.range 8).map fun k => if (g.predMask k).getLsbD l then 2 ^ k else 0).sum))) (exec (.p2v .pack o) s) ∧
      s.LaneDone gid g o none_ 2 (fun l => wordOut (truth ((g.predSource o.a).getLsbD l))) (exec (.p2v .one o) s)) ∧
    (let x := s.in32 gid g o .u32
     let sh : Shape := { readsB := false }
     (g.LaneReady o sh → s.LaneDone gid g o sh 2 (fun l => wordOut (truth (decide (lane x.a l ≠ 0)))) (exec (.v2p .one o) s)) ∧
     (o.d.file = .pred → g.LaneReady o sh → ∃ g', exec (.v2p .unpack o) s = .next (s.putGroup gid g') ∧ g.Done g' (aluUses o {} true false false) ∧
       ∀ k, k < 7 → g'.Awaits g.sched.issued (s.cclk (gidCid gid) + 2) (.pred k) (g.runMask o.hdr) (fun l => truth ((lane x.a l).getLsbD k)) 0))

namespace Sys2Proof.Machine

/-- The operands of a lane instruction, opcodes 0x10-0x63. -/
def laneOperands (i : Instr) : Option Alu :=
  match i with
  | .iadd _ o => some o | .isub _ o => some o | .imul _ o => some o | .imulhi _ o => some o | .imad _ o => some o | .imin _ o => some o
  | .imax _ o => some o | .iadif _ o => some o | .shl _ o => some o | .shr _ o => some o | .sar _ o => some o | .rol _ o => some o
  | .and _ o => some o | .or _ o => some o | .xor _ o => some o | .andn _ o => some o | .bfe _ o => some o | .bfi _ o => some o
  | .popc _ o => some o | .clz _ o => some o | .brev _ o => some o | .icmp _ o => some o | .sel _ o => some o | .lea _ o => some o
  | .mov _ o => some o | .movls _ o => some o | .movsr _ o => some o | .movrs _ o => some o | .prmt _ o => some o | .dp4 _ o => some o
  | .fadd _ o => some o | .fmul _ o => some o | .ffma _ o => some o | .fmin _ o => some o | .fmax _ o => some o | .fcmp _ o => some o
  | .frnd _ o => some o | .fldexp _ o => some o | .fdiv _ o => some o | .fsqrt _ o => some o | .fdot2 _ o => some o | .rcp _ o => some o
  | .rsq _ o => some o | .exp2 _ o => some o | .log2 _ o => some o | .sinpi _ o => some o | .cospi _ o => some o | .tanh _ o => some o
  | .cvt _ o => some o | .packq _ o => some o | .unpkq _ o => some o | .shfl _ o => some o | .vote _ o => some o | .gred _ o => some o
  | .gscan _ o => some o | .xshfl _ o => some o | .rng _ o => some o | .plop _ o => some o | .p2v _ o => some o | .v2p _ o => some o
  | .setexm _ o => some o
  | _ => none

end Sys2Proof.Machine

/-- R21, R39, R75, R99, R106: a lane instruction that no lane runs only completes: nothing is entered, and no register changes. One that some lane
would run and that reads a register outside its window takes the out-of-window trap, and one that reads a pair in a rotating region the loop trap,
both at the instruction and with nothing entered. That a pair in a rotating region is found before another operand outside the window is the model's
reading (log 24). -/
def Obligations.IdleLanesAndRegisterNames : Prop :=
  (∀ (s : State) (gid : Nat) (g : Group) (i : Instr) (o : Alu), s.Issues gid g → laneOperands i = some o → g.runMask o.hdr = 0 →
    ∃ g', exec i s = .next (s.putGroup gid g') ∧ g.Done g' [] ∧ ∀ r ∈ g'.results, r ∈ g.results) ∧
  ∀ (s : State) (gid : Nat) (g : Group) (i : Instr) (o : Alu) (f : IssueForm), s.Issues gid g → laneOperands i = some o → issueForm i = some f →
    i.wf = true → g.runMask o.hdr ≠ 0 →
    (∀ u ∈ f.uses, (∀ v ∈ f.uses, g.pairFault v.file v.reg v.count = false) → g.pairFault .vec o.d.reg.toNat 2 = false →
        (u.file = .vec ∧ (∃ k, k < u.count ∧ g.gsize ≤ g.rename (u.reg + k)) ∨ u.file = .scal ∧ g.ssize < u.reg + u.count) →
      exec i s = .next (s.trapHere gid g 0x07 0)) ∧
    (∀ u ∈ f.uses, g.pairFault u.file u.reg u.count = true → exec i s = .next (s.trapHere gid g 0x0B ((g.innerPipe).getD 0)))

/-- R42, R79, R80: when the one due result of a group lands, the next instruction reads it in the lanes of its mask, its flags are merged, and
every other register stands as it was; a predicate takes it in those lanes; sr.exm and sr.flags take its value (sr.exm once no instruction
of the group is under way, R74, R102). -/
def Obligations.FixedLanding : Prop :=
  ∀ (s : State) (gid : Nat) (g : Group) (r : Result), s.group gid = some g → g.Sane → r ∈ g.results → r.landed = false →
    r.due ≤ s.cclk (gidCid gid) → (∀ x ∈ g.results, x.landed = false → x.due ≤ s.cclk (gidCid gid) → x = r) →
    ((∃ k, r.dst = .vec k) ∨ (∃ k, r.dst = .scal k) →
      ∃ g', exec (.fixedResultLand gid) s = .next (s.putGroup gid g') ∧ g'.flags = g.flags ||| r.flags ∧ g'.pc = g.pc ∧ g'.preds = g.preds ∧
        (g.vres = [] → ∀ l, l < 32 → r.mask.getLsbD l = true → ((∃ k, r.dst = .scal k) → l = 0) → g'.readLane gid r.dst l = lane r.vals l) ∧
        (∀ n l, l < 32 → n ≠ r.dst ∨ r.mask.getLsbD l = false → g'.stands n l = g.stands n l)) ∧
    (∀ k, k < 7 → r.dst = .pred k → g.preds.length = 7 →
      ∃ g', exec (.fixedResultLand gid) s = .next (s.putGroup gid g') ∧ g'.flags = g.flags ||| r.flags ∧
        (∀ j l, l < 32 → (g'.predMask j).getLsbD l =
          if j = k ∧ r.mask.getLsbD l = true then (lane r.vals l).getLsbD 0 else (g.predMask j).getLsbD l) ∧
        (∀ n l, l < 32 → g'.stands n l = g.stands n l)) ∧
    (r.dst = .spec 0x18 → ∃ g', exec (.fixedResultLand gid) s = .next (s.putGroup gid g') ∧
      g'.flags = (lane r.vals 0).extractLsb' 0 7 ||| r.flags ∧ (∀ n l, l < 32 → g'.stands n l = g.stands n l)) ∧
    (r.dst = .spec 0 → lane r.vals 0 ≠ 0 → g.underWay = false → ∃ g', exec (.fixedResultLand gid) s = .next (s.putGroup gid g') ∧ g'.exm = lane r.vals 0 ∧
      ∀ l, l < 32 → g'.cnt.getD l 0 = if (lane r.vals 0).getLsbD l = true ∧ g.exm.getLsbD l = false then 0 else g.cnt.getD l 0)

/-- R240-R243, R383: an XSHFL that meets its waiting partner exchanges as the table of R242 says; one whose partner slot is empty, or holds a
group that is not waiting at its own XSHFL for this one, or is of another context, halted or past its time, waits; a wait that has expired takes
the exchange trap; a malformed partner word takes the address-decode trap. Each side has its values at a time of its own: never before those
that set out earlier on the same way, and both at once where none are in flight. -/
def Obligations.ExchangeBetweenGroups : Prop :=
  (∀ (s : State) (gid : Nat) (g : Group) (o : Alu) (b : Src) (p : Perm) (rm : Rm), s.Issues gid g → o.x = .n b p rm →
    g.runMask o.hdr ≠ 0 → g.nameFault ((aluUses o {} true true false).map (·.name) ++ dstUse o.d 1) = none →
    let run := g.runMask o.hdr
    let w := (g.readScal gid b.reg.toNat).toNat
    let h := 64 * (145 * (w / 2 ^ 14 % 64) + w / 64 % 256) + w % 64
    let bad := w / 2 ^ 20 ≠ 0 ∨ w / 64 % 256 > 143 ∨ h = gid
    (bad → exec (.xshfl .only o) s = .next (s.trapHere gid g 0x05 0)) ∧
    (¬bad → (∀ x last run2 vals2 dst2 key2 hdr2, s.group h = some x → x.park = .xshfl last gid run2 vals2 dst2 key2 hdr2 → s.asidOf x = s.asidOf g →
        s.now ≤ last → x.halted = true) → ∃ t g' key, exec (.xshfl .only o) s = .next t ∧ t.group gid = some g' ∧ g'.pc = g.pc ∧
      g'.park = .xshfl (s.now + g.xtimeout.toNat) h run (g.readVec gid (g.rename o.a.reg.toNat)) (g.rename o.d.reg.toNat) key o.hdr) ∧
    (¬bad → ∀ (x : Group) (last : Nat) (run2 : LaneMask) (vals2 : Lanes) (dst2 key2 : Nat) (hdr2 : Hdr), s.group h = some x →
      x.park = .xshfl last gid run2 vals2 dst2 key2 hdr2 → s.asidOf x = s.asidOf g → s.now ≤ last → x.halted = false → run2 ≠ 0 →
      ∃ t g' x' v v', exec (.xshfl .only o) s = .next t ∧ t.group gid = some g' ∧ t.group h = some x' ∧
        g'.sched.issued = g.sched.issued + 1 ∧ x'.sched.issued = x.sched.issued + 1 ∧ (hdr2.sch.sw = false → x'.park = .running) ∧
        s.now + 8 ≤ v.due ∧ s.now + 8 ≤ v'.due ∧ ((∀ p ∈ s.groups, ∀ u ∈ p.2.vres, u.source = none) → v.due = v'.due) ∧
        v ∈ g'.vres ∧ v.dsts = [.vec (g.rename o.d.reg.toNat)] ∧ v.lanes = run ∧
        (∀ l, l < 32 → run.getLsbD l = true → lane (v.vals.getD 0 []) l =
          if run2.getLsbD l = true then lane vals2 l else g.readLane gid (.vec (g.rename o.a.reg.toNat)) l) ∧
        v' ∈ x'.vres ∧ v'.dsts = [.vec dst2] ∧ v'.lanes = run2 ∧
        (∀ l, l < 32 → run2.getLsbD l = true → lane (v'.vals.getD 0 []) l =
          if run.getLsbD l = true then g.readLane gid (.vec (g.rename o.a.reg.toNat)) l else lane vals2 l))) ∧
  (∀ (s : State) (gid : Nat) (g : Group) (last p dst key : Nat) (run : LaneMask) (vals : Lanes) (hdr : Hdr), s.group gid = some g →
    g.park = .xshfl last p run vals dst key hdr → last < s.now →
    exec (.xshflTimeout gid) s = .next ((s.inflFree (gidCid gid) key).trapHere gid { g with park := .running } 0x0D 0))

/-! Control flow. -/

namespace Sys2Proof.Machine

/-- As Group.Done, with the pc, the counters and the loops as the instruction leaves them. -/
structure Group.Moved (g g' : Group) (us : List Use) : Prop where
  rest : g' = { g with
    pc := g'.pc, cnt := g'.cnt, loops := g'.loops, vregs := g'.vregs, sregs := g'.sregs, results := g'.results, bad := g'.bad, replay := g'.replay,
    park := g'.park, acc := none, rel := none, held := none, sched := g'.sched }
  issued : g'.sched.issued = g.sched.issued + 1
  regs : g.Sane → ∀ n l, l < 32 → g.killed us n = false → g'.stands n l = g.stands n l

/-- x is a next state in which only the group has changed: it has completed, its counters are c and its loops ls, and it is at the target of
a taken transfer or, where no loop ends here, at the next word. -/
def State.Passes (s : State) (gid : Nat) (g : Group) (us : List Use) (c : Nat → Nat) (ls : List LoopReg) (jump : Option Addr)
    (x : Host.Outcome State Fault Refusal) : Prop :=
  ∃ g', x = .next (s.putGroup gid g') ∧ g.Moved g' us ∧
    (jump.isSome ∨ ({ g with loops := ls } : Group).NoLoopEnd →
      g'.pc = jump.getD (g.pc + 12) ∧ g'.loops = ls ∧ ∀ l, l < 32 → g'.cntOf l = c l)

/-- No copy of the team is held. -/
def State.NoCopies (s : State) (tid : Nat) : Prop := ∀ w ∈ s.work, ∀ c, w.job = .copy c → c.team ≠ tid

/-- A scratchpad access at its first issue (R148, R156): it runs in some lane, its registers can be named, each lane's offset is aligned and
inside, and a release finds the group's earlier reads and stores into registers done (R299, R301: log 76). -/
def State.ScratchReady (s : State) (gid : Nat) (g : Group) (m : Team) (o : Mem) (us : List Use) (d : List (SFile × Nat × Nat)) (size : Nat) (ea : Nat → Nat) :
    Prop :=
  s.team g.team = some m ∧ s.NoCopies g.team ∧ Canon 0 m.spad ∧ g.acc = none ∧
    (memReleases o.q = true → s.readsDone gid none = true ∧ s.storesLanded gid none = true) ∧ g.memRun o.hdr ≠ 0 ∧ g.useFault us d = none ∧
    ∀ l, l < 32 → (g.memRun o.hdr).getLsbD l = true → ea l % size = 0 ∧ ea l + size ≤ m.spBytes

/-- Some present lane, or each, has a counter that p accepts. -/
def Group.SomeLane (g : Group) (c : Nat → Nat) (p : Nat → Prop) : Prop := ∃ l, l < 32 ∧ g.exm.getLsbD l = true ∧ p (c l)
/-- The address n instructions on, modulo 2^48 (R34). -/
def onward (a : Addr) (n : Int) : Addr := BitVec.ofInt 48 (a.toNat + 12 * n)

end Sys2Proof.Machine

/-- R85, R87-R90, R101: the divergence instructions on the counters of the present lanes, their skips, and their faults. -/
def Obligations.Divergence : Prop :=
  ∀ (s : State) (gid : Nat) (g : Group) (o : Ctl), s.Issues gid g →
    let c := g.cntOf
    let here := fun (l : Nat) => g.exm.getLsbD l = true
    let yes := fun (l : Nat) => g.guardAt o.hdr.guard l = true
    let piped := (∃ k, g.innerLoop = some k ∧ (g.loop k).pipe = true) ∧ g.SomeLane c (· = 0)
    let ends := fun (n : Nat → Nat) (j : Option Addr) (x : Host.Outcome State Fault Refusal) => s.Passes gid g [] n g.loops j x
    let past := some (onward g.pc o.q.toInt)
    let neverRun := o.hdr.guard = ⟨true, false, 7⟩
    ends c none (exec (.nop o) s) ∧
    (neverRun → ∀ i ∈ [Instr.ifi o, .elsei o, .endif o, .loop o, .endloop o, .breaki o, .cont o], ends c none (exec i s)) ∧
    (¬neverRun →
      (let n := fun l => if here l then (if 0 < c l then c l + 1 else if yes l then 0 else 1) else c l
       (g.SomeLane c (· = 255) → exec (.ifi o) s = .next (s.trapHere gid g 0x09 0)) ∧
       (¬g.SomeLane c (· = 255) → (g.SomeLane n (· = 0) → ends n none (exec (.ifi o) s)) ∧ (¬g.SomeLane n (· = 0) → ends n past (exec (.ifi o) s)))) ∧
      (let n := fun l => if here l then (if c l = 0 then 1 else if c l = 1 then 0 else c l) else c l
       (g.SomeLane n (· = 0) → ends n none (exec (.elsei o) s)) ∧ (¬g.SomeLane n (· = 0) → ends n past (exec (.elsei o) s))) ∧
      ends (fun l => if here l then c l - 1 else c l) none (exec (.endif o) s) ∧
      (let n := fun l => if here l ∧ 0 < c l then c l + 2 else c l
       (piped → exec (.loop o) s = .next (s.trapHere gid g 0x0B 0xFFFF)) ∧
       (¬piped → g.SomeLane c (254 ≤ ·) → exec (.loop o) s = .next (s.trapHere gid g 0x09 0)) ∧
       (¬piped → ¬g.SomeLane c (254 ≤ ·) →
         (g.SomeLane n (· = 0) → ends n none (exec (.loop o) s)) ∧ (¬g.SomeLane n (· = 0) → ends n past (exec (.loop o) s)))) ∧
      (let n := fun l => if here l ∧ c l = 1 then 0 else c l
       (g.SomeLane n (· = 0) → ends n past (exec (.endloop o) s)) ∧
       (¬g.SomeLane n (· = 0) → ends (fun l => if here l then (if n l = 2 then 0 else if 2 < n l then n l - 2 else n l) else c l) none (exec (.endloop o) s))) ∧
      (piped → exec (.breaki o) s = .next (s.trapHere gid g 0x0B 0xFFFF) ∧ exec (.cont o) s = .next (s.trapHere gid g 0x0B 0xFFFF)) ∧
      (¬piped →
        (o.q.toNat ≤ 253 → ends (fun l => if here l ∧ c l = 0 ∧ yes l then o.q.toNat + 2 else c l) none (exec (.breaki o) s)) ∧
        (o.q.toNat ≤ 254 → ends (fun l => if here l ∧ c l = 0 ∧ yes l then o.q.toNat + 1 else c l) none (exec (.cont o) s))))

/-- R92: JMP, JMPS, CALL and RET: the target, the return address that the next instruction reads, and the faults. The clock at which the pair
lands is the model's choice (log 22). -/
def Obligations.Jumps : Prop :=
  ∀ (s : State) (gid : Nat) (g : Group) (o : Ctl), s.Issues gid g →
    let ends := fun (us : List Use) (j : Option Addr) (x : Host.Outcome State Fault Refusal) => s.Passes gid g us g.cntOf g.loops j x
    let apart := g.SomeLane g.cntOf (· ≠ 0)
    (g.runMask o.hdr = 0 → ∀ i ∈ [Instr.jmp o, .jmps o, .call o, .ret o], ends [] none (exec i s)) ∧
    (g.runMask o.hdr ≠ 0 →
      ends [] (some (onward g.pc o.q.toInt)) (exec (.jmp o) s) ∧
      (let us := [srcUse o.a 0 1 Perm.id]
       g.useFault us [] = none → ends us (some (onward g.pc (o.q.toInt + (g.readScal gid o.a.reg.toNat).toInt))) (exec (.jmps o) s)) ∧
      (g.useFault [] (dstUse o.d 2) = none →
        (apart → exec (.call o) s = .next (s.trapHere gid g 0x09 0)) ∧
        (¬apart → ∃ g', exec (.call o) s = .next (s.putGroup gid g') ∧ g.Moved g' [] ∧ g'.pc = onward g.pc o.q.toInt ∧ g'.loops = g.loops ∧ g'.cnt = g.cnt ∧
          g'.Awaits g.sched.issued (s.cclk (gidCid gid) + 1) (.scal o.d.reg.toNat) 1 (fun _ => (g.pc + 12).extractLsb' 0 32) 0 ∧
          g'.Awaits g.sched.issued (s.cclk (gidCid gid) + 1) (.scal (o.d.reg.toNat + 1)) 1 (fun _ => ((g.pc + 12).extractLsb' 32 16).zeroExtend 32) 0)) ∧
      (let us := [srcUse o.a 0 2 Perm.id]
       let p := (g.readPair gid o.a.reg.toNat).toNat
       g.useFault us [] = none →
        (apart → exec (.ret o) s = .next (s.trapHere gid g 0x09 0)) ∧
        (¬apart → (2 ^ 48 ≤ p ∨ p % 4 ≠ 0) → exec (.ret o) s = .next (s.trapHere gid g 0x03 0)) ∧
        (¬apart → p < 2 ^ 48 → p % 4 = 0 → ends us (some (BitVec.ofNat 48 p)) (exec (.ret o) s))))

/-- R94-R97, R100: HLOOP and HLOOPP make loop k live as their fields say, or raise the loop-nesting and the nesting fault, or skip a loop of no
trips; under the never guard they do nothing but go on; HLEXIT bounds the passes that remain. -/
def Obligations.HardwareLoops : Prop :=
  ∀ (s : State) (gid : Nat) (g : Group) (o : Ctl) (k : BitVec 2), s.Issues gid g → g.loops.length = 4 →
    (∀ (i : Instr) (S size : Nat) (base : BitVec 10) (pipe : Bool),
      (i = .hloop k o ∧ S = 1 ∧ size = 0 ∧ base = 0 ∧ pipe = false ∨
        i = .hloopp k o ∧ S = o.d.reg.toNat / 64 % 8 + 1 ∧ size = o.d.reg.toNat % 64 + 1 ∧ base = o.a.reg ∧ pipe = true) →
      (o.hdr.guard = ⟨true, false, 7⟩ → s.Passes gid g [] g.cntOf g.loops none (exec i s)) ∧
      (o.hdr.guard ≠ ⟨true, false, 7⟩ →
      let us := bopUse o.b 1
      (g.SomeLane g.cntOf (· = 0) → g.useFault us [] = none) →
      let n := (g.bopWord gid o.b).toNat
      let e := onward g.pc o.q.toInt
      let live := fun (j : Nat) => j < 4 ∧ (g.loop j).live = true
      let bad := live k.toNat ∨ (∀ j, j < 4 → live j) ∨ o.q.toInt ≤ 0 ∨ e.toNat / 2 ^ 34 ≠ g.pc.toNat / 2 ^ 34 ∨ 2 ^ 32 ≤ n + S - 1 ∨
        ∃ j, g.innerLoop = some j ∧ (g.loop j).hi.toNat * 2 ^ 34 + (g.loop j).fin.toNat * 4 < e.toNat
      (bad → exec i s = .next (s.trapHere gid g 0x0A k.toNat)) ∧
      (¬bad → n = 0 ∨ ¬g.SomeLane g.cntOf (· = 0) → s.Passes gid g us g.cntOf g.loops (some (e + 12)) (exec i s)) ∧
      (¬bad → n ≠ 0 → g.SomeLane g.cntOf (· = 0) →
        (g.SomeLane g.cntOf (254 ≤ ·) → exec i s = .next (s.trapHere gid g 0x09 0)) ∧
        (¬g.SomeLane g.cntOf (254 ≤ ·) →
          s.Passes gid g us (fun l => if g.exm.getLsbD l = true ∧ 0 < g.cntOf l then g.cntOf l + 2 else g.cntOf l)
            (g.loops.set k.toNat
              { start := BitVec.ofNat 32 ((g.pc + 12).toNat / 4), fin := BitVec.ofNat 32 (e.toNat / 4), count := BitVec.ofNat 32 (n + S - 1), index := 0,
                rrb := 0, base := base, size := BitVec.ofNat 7 size, live := true, pipe := pipe,
                level := ((List.range 4).filter fun j => (g.loop j).live).length, sm1 := BitVec.ofNat 3 (S - 1), stmask := 1,
                hi := BitVec.ofNat 14 (g.pc.toNat / 2 ^ 34) })
            none (exec i s))))) ∧
    (g.runMask o.hdr = 0 → s.Passes gid g [] g.cntOf g.loops none (exec (.hlexit k o) s)) ∧
    (g.runMask o.hdr ≠ 0 →
      ((g.loop k.toNat).live = false → exec (.hlexit k o) s = .next (s.trapHere gid g 0x0B k.toNat)) ∧
      ((g.loop k.toNat).live = true →
        s.Passes gid g [] g.cntOf
          (g.loops.set k.toNat { g.loop k.toNat with count := BitVec.ofNat 32 (min (g.loop k.toNat).count.toNat ((g.loop k.toNat).sm1.toNat + 1)) })
          none (exec (.hlexit k o) s)))

/-- R98: an instruction at the end of the innermost loop takes its back edge, or ends the loop and lets the next loop out that ends here take its
own: counters, COUNT, INDEX, the rotation base and the stage mask. Said of NOP, of a lane instruction (IADD) and of a memory instruction (LDS). That
a loop ends where HI and END both do is the model's reading (log 104). -/
def Obligations.BackEdge : Prop :=
  ∀ (s : State) (gid : Nat) (g : Group) (i : Instr) (k : Nat), s.Issues gid g → g.loops.length = 4 → g.innerLoop = some k →
    ((∃ o, i = .nop o) ∨ (∃ o, i = .iadd .u32 o ∧ g.LaneReady o {}) ∨
      ∃ v o m, i = .lds v o ∧ s.ScratchReady gid g m o (srcUse o.a 0 1 Perm.id :: bopUse o.b 1) (dstUse o.d v.regs) (ldBytes v)
        (fun l => g.ea32 gid o.a o.q (ldBytes v) (g.laneOffset gid o.b l) l)) →
    let L := g.loop k
    L.fin = BitVec.ofNat 32 (g.pc.toNat / 4) → L.hi = BitVec.ofNat 14 (g.pc.toNat / 2 ^ 34) →
    let goes := fun (more : Group → Prop) => ∃ t g', exec i s = .next t ∧ t.group gid = some g' ∧ more g' ∧
      ((∃ o, i = .nop o) → t = s.putGroup gid g' ∧ g.Moved g' [])
    let enter := fun (c : Nat → Nat) (l : Nat) => if g.exm.getLsbD l = true ∧ c l = 1 then 0 else c l
    let leave := fun (c : Nat → Nat) (l : Nat) => if g.exm.getLsbD l = true then (if c l = 2 then 0 else if 2 < c l then c l - 2 else c l) else c l
    let ended := fun (j : Nat) => { g.loop j with live := false, level := 0 }
    let again := fun (j : Nat) (c : Nat → Nat) => 1 < (g.loop j).count.toNat ∧ g.SomeLane c (· = 0)
    let takes := fun (j : Nat) (c : Nat → Nat) (g' : Group) =>
      let J := g.loop j
      let M := g'.loop j
      g'.pc.toNat = J.hi.toNat * 2 ^ 34 + J.start.toNat * 4 ∧ (∀ l, l < 32 → g'.cntOf l = c l) ∧ M.count.toNat = J.count.toNat - 1 ∧ M.index = J.index + 1 ∧
        M = { J with count := M.count, index := M.index, rrb := M.rrb, stmask := M.stmask } ∧
        (J.pipe = false → M.rrb = J.rrb ∧ M.stmask = J.stmask) ∧
        (J.pipe = true → 0 < J.size.toNat → J.size.toNat ≤ 64 →
          (M.rrb.toNat : Int) = ((J.rrb.toNat : Int) - 1) % J.size.toNat ∧
          M.stmask.toNat = (2 * J.stmask.toNat + if J.sm1.toNat < M.count.toNat then 1 else 0) % 2 ^ (J.sm1.toNat + 1))
    let falls := fun (c : Nat → Nat) (g' : Group) => g'.pc = g.pc + 12 ∧ ∀ l, l < 32 → g'.cntOf l = leave c l
    let here := fun (j : Nat) => (g.loop j).live = true ∧ (g.loop j).fin = L.fin ∧ (g.loop j).hi = L.hi
    let c := enter g.cntOf
    (again k c → goes fun g' => takes k c g' ∧ ∀ j, j ≠ k → g'.loop j = g.loop j) ∧
    (¬again k c → (∀ j, j ≠ k → ¬here j) → goes fun g' => falls c g' ∧ g'.loop k = ended k ∧ ∀ j, j ≠ k → g'.loop j = g.loop j) ∧
    ∀ j, ¬again k c → ({ g with loops := g.loops.set k (ended k) } : Group).innerLoop = some j → here j →
      let c2 := enter (leave c)
      (again j c2 → goes fun g' => takes j c2 g' ∧ g'.loop k = ended k ∧ ∀ n, n ≠ k → n ≠ j → g'.loop n = g.loop n) ∧
      (¬again j c2 → (∀ n, n ≠ k → n ≠ j → ¬here n) →
        goes fun g' => falls c2 g' ∧ g'.loop k = ended k ∧ g'.loop j = ended j ∧ ∀ n, n ≠ k → n ≠ j → g'.loop n = g.loop n)

/-! Traps and the system instructions. -/

/-- R174, R178, R179, R181: TRAP and BKPT complete and then trap at the next instruction; skipped, they only complete. What entry saves stands
at the offsets of R178, CAUSE as R179 lays it out, each loop register whole, live or not (the model's reading, log 71). -/
def Obligations.TrapInstructions : Prop :=
  (∀ (s : State) (gid : Nat) (g : Group) (o : Ctl), s.Issues gid g →
    (g.runMask o.hdr = 0 → ∀ i ∈ [Instr.trap o, .bkpt o], ∃ g', exec i s = .next (s.putGroup gid g') ∧ g.Done g' []) ∧
    (g.runMask o.hdr ≠ 0 →
      (g.useFault (bopUse o.b 1) [] = none → ∃ g', g.Done g' (bopUse o.b 1) ∧
        exec (.trap o) s = .next ((s.putGroup gid g').takeTrap gid { code := 0x20, arg := (g.bopWord gid o.b).toNat % 2 ^ 16, resume := g'.pc.toNat, sw := o.hdr.sch.sw })) ∧
      ∃ g', g.Done g' [] ∧ exec (.bkpt o) s = .next ((s.putGroup gid g').takeTrap gid { code := 0x21, arg := 0, resume := g'.pc.toNat, sw := o.hdr.sch.sw }))) ∧
  ∀ (g : Group) (t : TrapReq),
    let at' := fun (o n : Nat) => leVal (slice (saveArea g t) (o - 8) n)
    at' 0x08 8 = t.resume % 2 ^ 64 ∧
      (t.code < 256 → at' 0x10 4 = (if t.defer then 2 ^ 31 else 0) + (if t.impr then 2 ^ 30 else 0) + t.arg % 2 ^ 16 * 2 ^ 8 + t.code) ∧
      at' 0x14 4 = g.exm.toNat ∧ at' 0x18 4 = g.replay.toNat ∧ at' 0x1C 4 = g.flags.toNat ∧ at' 0x20 8 = t.faddr % 2 ^ 64 ∧
      at' 0x28 4 = t.flanes.toNat ∧ at' 0x2C 4 = 0 ∧ (∀ k, k < 7 → at' (0x30 + 4 * k) 4 = (g.predMask k).toNat) ∧ at' 0x4C 4 = g.xtimeout.toNat ∧
      (∀ k f, k < 4 → f < 6 → at' (0x50 + 24 * k + 4 * f) 4 = ((g.loop k).raw f).toNat) ∧
      (∀ l, l < 32 → at' (0xB0 + l) 1 = g.cntOf l) ∧
      ∀ k, k < 4 → leVal (slice (loopHi g) (2 * k) 2) = (g.loop k).hi.toNat

/-- R81, R104, R177, R183: entry to a handler from level 0 when the save area can be written: results land, the control state goes to the save area,
and the handler starts at level 1; at level 1, or with no handler, the group double-faults and the save area of level 0 stands. What sr.trapcause and
the double-fault record hold where the handler's entry is 0, at level 0 and at level 1, is the model's reading (log 32), and the entry's low 48 bits
as they stand are its choice (log 66). -/
def Obligations.TrapEntry : Prop :=
  ∀ (s : State) (gid : Nat) (g : Group) (t : TrapReq), s.group gid = some g →
    let cid := gidCid gid
    let q := g.landAndDrain
    (g.level = true → s.takeTrap gid t = s.doubleFault gid q t) ∧
    (∃ c, s.doubleFault gid q t = (s.putGroup gid { q with park := .dead, level := true, acc := none, rel := none, held := none }).emit (cidDom cid) c ∧
      c.kind = 4 ∧ c.gid = some gid ∧ leVal (slice c.body 24 4) = (causeWord t).toNat) ∧
    (g.level = false → s.faulting (cidDom cid) (s.asidOf g) (pageOf g.tsa.toNat) = false →
      ∀ (s1 s2 : State) (pa : Nat) (w nx pr : Bool) (hb : List Byte),
      s.translate cid (s.asidOf g) (pageOf g.tsa.toNat) .write g.priv = (s1, .ok pa w nx pr) →
      let base := pa + g.tsa.toNat % 4096
      s1.areaCheck { q with trapcause := causeWord t } cid (s.asidOf g) base .write = none → s1.saveBusy cid base = false → s1.coreRead gid base 8 = (s2, hb) →
      let debug := ((s.ctx (s.asidOf g)).map fun c => c.dbgctl.getLsbD 0).getD false = true ∧ (t.code = 0x21 ∨ t.code = 0x22 ∨ t.code = 0x23)
      let entry := if debug then ((s2.ctx (s.asidOf g)).map (·.dbgentry)).getD 0 else leVal hb
      let q := { q with trapcause := causeWord t }
      let saved := (s2.putGroup gid q).coreStore gid (s.asidOf g) (base + 8) (saveArea q t)
      let saved := if t.skid.isSome then saved.coreStore gid (s.asidOf g) (base + 0xD0) (leBytes 4 (min 255 (t.skid.getD 0))) else saved
      let saved := saved.coreStore gid (s.asidOf g) (base + 0xD4) (leBytes 4 0 ++ loopHi q)
      (entry = 0 → s.takeTrap gid t = saved.doubleFault gid q t) ∧
      (entry ≠ 0 → ∃ g', s.takeTrap gid t = saved.putGroup gid g' ∧
        g'.level = true ∧ g'.pc = BitVec.ofNat 48 entry ∧ (∀ l, g'.cntOf l = 0) ∧ (∀ k, (g'.loop k).live = false) ∧ g'.trapcause = causeWord t ∧
        g'.exm = q.exm ∧ g'.preds = q.preds ∧ g'.flags = q.flags ∧ g'.vregs = q.vregs ∧ g'.sregs = q.sregs ∧ g'.vres = q.vres ∧ g'.results = [] ∧
        g'.park = (if t.sw && g.outstanding then .sw else .running) ∧ g'.sched.notBefore = saved.cclk cid + 48))

/-- R104, R182: RTE at level 1 restores every field of the save area, and leaves registers as they are; at level 0 it traps; what it reads back
of a save area that entry wrote is what was saved. The handler's fixed results in flight go on to registers alone (the model's choice,
log 72); a DCC group keeps its one lane (R275). -/
def Obligations.ReturnFromTrap : Prop :=
  (∀ (s : State) (gid : Nat) (g : Group) (o : Ctl), s.Issues gid g →
    let cid := gidCid gid
    (g.runMask o.hdr = 0 → ∃ g', exec (.rte o) s = .next (s.putGroup gid g') ∧ g.Done g' []) ∧
    (g.runMask o.hdr ≠ 0 → g.level = false → exec (.rte o) s = .next (s.trapHere gid g 0x02 1)) ∧
    (g.runMask o.hdr ≠ 0 → g.level = true → s.faulting (cidDom cid) (s.asidOf g) (pageOf g.tsa.toNat) = false →
      ∀ (s1 s2 s3 : State) (pa : Nat) (w nx pr : Bool) (b hi : List Byte),
      s.translate cid (s.asidOf g) (pageOf g.tsa.toNat) .read g.priv = (s1, .ok pa w nx pr) →
      let base := pa + g.tsa.toNat % 4096
      s1.areaCheck g cid (s.asidOf g) base .read = none → s1.saveBusy cid base = false →
      s1.coreRead gid (base + 8) 0xC8 = (s2, b) → s2.coreRead gid (base + 0xD8) 8 = (s3, hi) →
      let at' := fun (o n : Nat) => leVal (slice b (o - 8) n)
      at' 0x14 4 ≠ 0 → at' 0x08 8 % 4 = 0 → at' 0x08 8 < 2 ^ 48 →
      ∃ g', exec (.rte o) s = .next (s3.putGroup gid g') ∧ g'.level = false ∧ g'.pc.toNat = at' 0x08 8 ∧
        (isDcc cid = false → g'.exm.toNat = at' 0x14 4 % 2 ^ 32) ∧ (isDcc cid = true → g'.exm = 1) ∧
        g'.replay.toNat = at' 0x18 4 % 2 ^ 32 ∧ g'.flags.toNat = at' 0x1C 4 % 2 ^ 7 ∧ (∀ k, k < 7 → (g'.predMask k).toNat = at' (0x30 + 4 * k) 4 % 2 ^ 32) ∧
        g'.xtimeout.toNat = at' 0x4C 4 % 2 ^ 32 ∧ (∀ l, l < 32 → g'.cntOf l = at' (0xB0 + l) 1 % 256) ∧
        (∀ k, k < 4 → (g'.loop k).start.toNat = at' (0x50 + 24 * k) 4 % 2 ^ 32 ∧ ((g'.loop k).live = true ↔ at' (0x64 + 24 * k) 4 % 2 ^ 32 / 2 ^ 31 = 1) ∧
          (g'.loop k).hi.toNat = leVal (slice hi (2 * k) 2) % 2 ^ 14) ∧
        (g.Sane → ∀ n l, l < 32 → g'.stands n l = g.stands n l) ∧ g'.vres = g.vres ∧
        (∀ r ∈ g'.results, r.landed = false → r.flags = 0 ∧ ((∃ n, r.dst = .vec n) ∨ ∃ n, r.dst = .scal n) ∧ ∃ r0 ∈ g.results, r = { r0 with flags := 0 }) ∧
        g'.trapcause = g.trapcause ∧ g'.sched.issued = g.sched.issued + 1 ∧
        g'.park = if o.hdr.sch.sw && g.outstanding then .sw else .running)) ∧
  ∀ (g q : Group) (t : TrapReq), g.preds.length = 7 → g.cnt.length = 32 → (∀ k, k < 4 → (g.loop k).level < 4) →
    let r := restoreFrom q (saveArea g t) (loopHi g)
    r.exm = g.exm ∧ r.replay = g.replay ∧ r.flags = g.flags ∧ r.preds = g.preds ∧ r.xtimeout = g.xtimeout ∧ r.cnt = g.cnt ∧
      ∀ k, k < 4 → r.loop k = g.loop k

/-- R72, R74, R175: EXIT clears the running lanes of sr.exm, in a SETEXM still pending as well, and drains the window; a group with no lane
left retires, and no barrier of its team is left that its retirement completes. -/
def Obligations.Exit : Prop :=
  ∀ (s : State) (gid : Nat) (g : Group) (o : Ctl), s.Issues gid g →
    let left := g.exm &&& ~~~g.runMask o.hdr
    (g.runMask o.hdr = 0 → ∃ g', exec (.exit o) s = .next (s.putGroup gid g') ∧ g.Done g' []) ∧
    (g.runMask o.hdr ≠ 0 → left ≠ 0 →
      ∃ g', exec (.exit o) s = .next (s.putGroup gid g') ∧ g'.exm = left ∧ g'.preds = g.preds ∧ g'.sched.issued = g.sched.issued + 1 ∧
        (g.NoLoopEnd → g'.pc = g.pc + 12 ∧ g'.cnt = g.cnt) ∧ (g.Sane → ∀ n l, l < 32 → g'.stands n l = g.stands n l) ∧
        ∀ r ∈ g'.results, r.landed = false ∧ (r.dst = .spec 0 → lane r.vals 0 &&& g.runMask o.hdr = 0)) ∧
    (g.runMask o.hdr ≠ 0 → left = 0 → ∀ m, s.team g.team = some m → m.bars.length = 16 →
      ∃ t g' m', exec (.exit o) s = .next t ∧ t.group gid = some g' ∧ g'.retired = true ∧ g'.exm = 0 ∧ g'.park = .dead ∧ t.mem = s.mem ∧
        t.team g.team = some m' ∧ m'.retiredN = m.retiredN + 1 ∧ m'.spad = m.spad ∧
        ∀ n, n < 16 → (m'.bars.getD n {}).isOpen = true →
          (m'.bars.getD n {}).cnt < if (m'.bars.getD n {}).live then m'.launched - m'.retiredN else (m'.bars.getD n {}).exp)

/-- R174, R176: YIELD and SLEEP, and what ends them: eight clocks and the mark of a young group, n clocks; SLEEP 0 does not park. -/
def Obligations.YieldAndSleep : Prop :=
  (∀ (s : State) (gid : Nat) (g : Group) (o : Ctl), s.Issues gid g → g.park = .running →
    (g.runMask o.hdr = 0 → ∀ i ∈ [Instr.yieldi o, .sleep o], ∃ g', exec i s = .next (s.putGroup gid g') ∧ g.Done g' []) ∧
    (g.runMask o.hdr ≠ 0 →
      (∃ g', exec (.yieldi o) s = .next (s.putGroup gid g') ∧ g.Done g' [] ∧ g'.sched.yieldAt = some (s.cclk (gidCid gid) + 9)) ∧
      (g.useFault (bopUse o.b 1) [] = none →
        ∃ g', exec (.sleep o) s = .next (s.putGroup gid g') ∧ g.Done g' (bopUse o.b 1) ∧
          (o.hdr.sch.sw = false →
            g'.park = if (g.bopWord gid o.b).toNat = 0 then .running else .sleep (s.cclk (gidCid gid)) (g.bopWord gid o.b).toNat)))) ∧
  (∀ (s : State) (gid : Nat) (g : Group) (t : Nat), s.group gid = some g → g.sched.yieldAt = some t → t ≤ s.cclk (gidCid gid) →
    exec (.yieldExpiry gid) s = .next (s.putGroup gid { g with sched := { g.sched with yieldAt := none, young := true } })) ∧
  (∀ (s : State) (gid : Nat) (g : Group) (since n : Nat), s.group gid = some g → g.park = .sleep since n → g.halted = false →
    since + n < s.cclk (gidCid gid) → exec (.sleepExpiry gid) s = .next (s.putGroup gid { g with park := .running }))

/-- R345, R370, R371: DIVST and INFLT give four words that arrive together at a variable latency: the team's diversion counts; the named entry
of the in-flight table when the context owns it, else zero; an entry above 63 is an address-decode fault. -/
def Obligations.Reports : Prop :=
  ∀ (s : State) (gid : Nat) (g : Group) (o : Ctl), s.Issues gid g →
    let gives := fun (us : List Use) (ws : List Word) (x : Host.Outcome State Fault Refusal) => ∃ g' v, x = .next { s.putGroup gid g' with uid := s.uid + 1 } ∧
      g'.vres = g.vres ++ [v] ∧ v.dsts = (List.range 4).map (fun i => RegName.scal (o.d.reg.toNat + i)) ∧ v.lanes = 1 ∧ v.ready = 1 ∧ v.vals = ws.map (fun w => [w]) ∧
      v.own = true ∧ s.now + 1 ≤ v.due ∧ g'.sched.issued = g.sched.issued + 1 ∧ (g.NoLoopEnd → g'.pc = g.pc + 12) ∧
      (g.Sane → ∀ n l, l < 32 → g.killed us n = false → g'.stands n l = g.stands n l)
    (g.runMask o.hdr = 0 → ∀ i ∈ [Instr.divst o, .inflt o], ∃ g', exec i s = .next (s.putGroup gid g') ∧ g.Done g' []) ∧
    (g.runMask o.hdr ≠ 0 →
      (g.useFault [] (dstUse o.d 4) = none → ∀ m, s.team g.team = some m →
        gives [] [BitVec.ofNat 32 m.sus.dawns, BitVec.ofNat 32 m.sus.shadowed, BitVec.ofNat 32 m.sus.landed,
          BitVec.ofNat 32 (m.sus.kinds * 2 ^ 16 + min 0xFFFF m.sus.deferred)] (exec (.divst o) s)) ∧
      (let us := bopUse o.b 1
       let n := (g.bopWord gid o.b).toNat
       let entry := (s.core (gidCid gid)).inflt.getD n none
       g.useFault us (dstUse o.d 4) = none →
        (64 ≤ n → exec (.inflt o) s = .next (s.trapHere gid g 0x05 0)) ∧
        (n < 64 → (∀ e, entry = some e → e.asid ≠ s.asidOf g) → gives us [0, 0, 0, 0] (exec (.inflt o) s)) ∧
        (n < 64 → ∀ e, entry = some e → e.asid = s.asidOf g →
          gives us [BitVec.ofNat 32 (e.va % 2 ^ 32), BitVec.ofNat 32 (min 0xFFFF e.lines * 2 ^ 16 + e.va / 2 ^ 32 % 2 ^ 16),
            BitVec.ofNat 32 (e.engine * 2 ^ 24 + e.slot * 2 ^ 16 + e.tag % 2 ^ 16), BitVec.ofNat 32 (min 0xFFFF e.remain * 2 ^ 16 + s.inflAt (gidCid gid) e * 2 ^ 4 + e.kind)]
            (exec (.inflt o) s)) ∧
        ∀ e, (∀ p ∈ s.teams, p.2.cid = gidCid gid → p.2.asid = e.asid → p.2.away = false) → s.inflAt (gidCid gid) e = e.state))

/-! Memory instructions. -/

namespace Sys2Proof.Machine

/-- It has gone past the instruction with no effect: no lane ran it. -/
def State.Skips (s : State) (gid : Nat) (g : Group) (x : Host.Outcome State Fault Refusal) : Prop := ∃ g', x = .next (s.putGroup gid g') ∧ g.Done g' []

/-- The instruction completes: its group has gone on, its flags apart, and `more` holds of the next state and the group. -/
def Group.Goes (g : Group) (gid : Nat) (us : List Use) (x : Host.Outcome State Fault Refusal) (more : State → Group → Prop) : Prop :=
  ∃ t g', x = .next t ∧ t.group gid = some g' ∧ g'.sched.issued = g.sched.issued + 1 ∧ g'.exm = g.exm ∧ g'.preds = g.preds ∧
    g'.level = g.level ∧ (g.NoLoopEnd → g'.pc = g.pc + 12 ∧ g'.cnt = g.cnt ∧ g'.loops = g.loops) ∧
    (g.Sane → ∀ n l, l < 32 → g.killed us n = false → g'.stands n l = g.stands n l) ∧ more t g'

/-- It completes, and its flags stand as they were. -/
def Group.Completes (g : Group) (gid : Nat) (us : List Use) (x : Host.Outcome State Fault Refusal) (more : State → Group → Prop) : Prop :=
  g.Goes gid us x fun t g' => g'.flags = g.flags ∧ more t g'

/-- A store completes as `more` says; where a watched byte changes, the report's trap is taken in the state so reached, before the group's next
instruction (R373). -/
def State.StoresWith (s : State) (gid : Nat) (g : Group) (h : Hdr) (us : List Use) (x : Host.Outcome State Fault Refusal) (hits : Prop)
    (more : State → Group → Prop) : Prop :=
  let watch := (s.core (gidCid gid)).watch
  ∃ (t : State) (g' : Group) (hit : Option (Nat × Nat)), g.Completes gid us (.next t) more ∧ t.group gid = some g' ∧
    x = .next (match hit with
      | none => t
      | some (n, fa) => t.takeTrap gid { code := 0x22, arg := n, resume := g'.pc.toNat, faddr := fa, sw := h.sch.sw }) ∧
    ((∀ w ∈ watch, w.armed = false) → hit = none) ∧ (hits → hit.isSome = true) ∧
    ∀ n fa, hit = some (n, fa) → ∃ line b, b < 64 ∧
      let w := watch.getD n {}
      w.armed = true ∧ w.asid = s.asidOf g ∧ w.line ≤ line ∧ line < w.line + watchLines w ∧ watchMask w b = true ∧ fa = watchVa w + 64 * (line - w.line) + b

/-- A global access at its first issue (R148, R151, R152): it runs in some lane, its registers can be named, each lane's address is aligned, in
range and held by the core TLB, and names a target that takes the access; pa is the physical address. -/
def State.AccessReady (s : State) (gid : Nat) (g : Group) (h : Hdr) (us : List Use) (d : List (SFile × Nat × Nat)) (p : MemPlan) (ea pa : Nat → Nat) : Prop :=
  g.acc = none ∧ g.memRun h ≠ 0 ∧ g.useFault us d = none ∧
    ∀ l, l < 32 → (g.memRun h).getLsbD l = true → ea l % p.size = 0 ∧ ea l < 2 ^ 48 ∧
      (∃ frame w nx pr, s.tlbHit (gidCid gid) (s.asidOf g) (pageOf (ea l)) p.kind g.priv = some (.ok frame w nx pr) ∧ pa l = frame + ea l % 4096) ∧
      s.targetCheck g (gidCid gid) (s.asidOf g) (pa l) p.size p.kind p.lineOp p.hostOk = none

/-- The physical address of a lane: that of the first lane for an instruction that acts once (R39). -/
def MemPlan.laneAt (p : MemPlan) (run : LaneMask) (pa : Nat → Nat) (l : Nat) : Nat := if p.uni then pa (firstLane run) else pa l

/-- Byte b of the data of lane l (R153). -/
def Group.dataByte (g : Group) (gid : Nat) (o : Mem) (regs l b : Nat) : Byte := ((g.laneData gid o.d regs l).getD (b / 4) 0).extractLsb' (8 * (b % 4)) 8

/-- The loads in the global space: qualifiers, plan, destination registers, addresses and forms. -/
def Group.loadOf (g : Group) (gid : Nat) (i : Instr) : Option (Mem × MemPlan × Nat × (Nat → Nat) × (Nat → LoadForm)) :=
  match i with
  | .ld v o => some (o, ⟨false, ldBytes v, .read, false, true, true, false, [], [], []⟩, v.regs, fun l => g.ea64 gid o.a o.q (ldBytes v) (g.laneOffset gid o.b l) false l, fun _ => .data v)
  | .ldu v o => some (o, ⟨true, ldBytes v, .read, false, true, true, false, [], [], []⟩, v.regs, fun l => g.ea64 gid o.a o.q (ldBytes v) (g.laneOffset gid o.b l) false l, fun _ => .data v)
  | .ldq _ o => some (o, ⟨false, 64, .read, true, true, true, false, [], [], []⟩, 1, fun l => g.ea64 gid o.a o.q 64 0 true l, fun l => .elem (g.laneIndex gid o.b l))
  | .lddesc _ o => some (o, ⟨false, 64, .read, true, true, true, false, [], [], []⟩, 1, fun l => g.ea64 gid o.a o.q 64 (g.laneOffset gid o.b l) true l, fun _ => .desc)
  | _ => none

/-- The stores in the global space: qualifiers, plan, data registers and addresses. -/
def Group.storeOf (g : Group) (gid : Nat) (i : Instr) : Option (Mem × MemPlan × Nat × (Nat → Nat)) :=
  match i with
  | .st v o => some (o, ⟨false, stBytes v, .write, false, true, false, false, [], [], []⟩, v.regs, fun l => g.ea64 gid o.a o.q (stBytes v) (g.laneOffset gid o.b l) false l)
  | .stu v o => some (o, ⟨true, stBytes v, .write, false, true, false, false, [], [], []⟩, v.regs, fun l => g.ea64 gid o.a o.q (stBytes v) (g.laneOffset gid o.b l) false l)
  | _ => none

/-- The atomics at the home bank: qualifiers, plan, kind, whether the old value is returned, registers of an operand. -/
def atomOf (i : Instr) : Option (Mem × MemPlan × AtomKind × Bool × Nat) :=
  match i with
  | .atom v o => some (o, ⟨false, 4 * v.regs, .atomic, false, hostAtom v, true, false, [], [], []⟩, .op v, true, v.regs)
  | .atomcas v o => some (o, ⟨false, 4 * v.regs, .atomic, false, true, true, false, [], [], []⟩, .cas v, true, v.regs)
  | .red v o => some (o, ⟨false, 4 * v.regs, .atomic, false, hostAtom v, false, false, [], [], []⟩, .op v, false, v.regs)
  | _ => none

end Sys2Proof.Machine

/-- R16, R153, R157, R158, R159: what a load lane delivers of a line: its bytes extended by the variant, zero with PSN where the line is poisoned,
the element scaled, the descriptor. -/
def Obligations.LoadedValue : Prop :=
  ∀ (img : LineImg) (o : Nat),
    let u := fun (n : Nat) => leVal (slice img.data o n)
    (loadLane img o .desc = ([img.desc.zeroExtend 32], 0)) ∧
    (poisoned img.desc = true → ∀ sz, (loadLane img o (.data sz)).2 = flPsn ∧ ∀ w ∈ (loadLane img o (.data sz)).1, w = 0) ∧
    (poisoned img.desc = false →
      loadLane img o (.data .u8) = ([BitVec.ofNat 32 (u 1)], 0) ∧ loadLane img o (.data .s8) = ([(BitVec.ofNat 8 (u 1)).signExtend 32], 0) ∧
      loadLane img o (.data .u16) = ([BitVec.ofNat 32 (u 2)], 0) ∧ loadLane img o (.data .s16) = ([(BitVec.ofNat 16 (u 2)).signExtend 32], 0) ∧
      loadLane img o (.data .b32) = ([BitVec.ofNat 32 (u 4)], 0) ∧
      loadLane img o (.data .b64) = ((List.range 2).map (fun k => BitVec.ofNat 32 (leVal (slice img.data (o + 4 * k) 4))), 0) ∧
      loadLane img o (.data .b128) = ((List.range 4).map (fun k => BitVec.ofNat 32 (leVal (slice img.data (o + 4 * k) 4))), 0) ∧
      ∀ i : Word,
        ((descFmt img.desc).count ≤ i.toNat → loadLane img o (.elem i) = ([0], flInv)) ∧
        (i.toNat < (descFmt img.desc).count →
          let r := encodeF fmtF32 .rne ((lineElem (descFmt img.desc) img.data i.toNat).scale (lineScale img.desc))
          loadLane img o (.elem i) = ([BitVec.ofNat 32 r.1], r.2)))

/-- R148, R151-R153, R155: LD, LDU, LDQ and LDDESC complete with one result in flight per running lane, changing no memory; a lane in the scratchpad
or in a line that L1 can serve has its value at once. -/
def Obligations.Loads : Prop :=
  ∀ (s : State) (gid : Nat) (g : Group) (i : Instr) (o : Mem) (p : MemPlan) (regs : Nat) (ea : Nat → Nat) (form : Nat → LoadForm) (pa : Nat → Nat),
    g.loadOf gid i = some (o, p, regs, ea, form) → s.Issues gid g →
    let us := srcUse o.a 0 2 Perm.id :: bopUse o.b 1
    s.AccessReady gid g o.hdr us (dstUse o.d regs) p ea pa →
    let at' := p.laneAt (g.memRun o.hdr) pa
    let lanes := p.lanes (g.memRun o.hdr)
    let gives := fun (v : VRes) (l : Nat) (ws : List Word) => v.ready.getLsbD l = true ∧ ∀ k, k < regs → lane (v.vals.getD k []) l = ws.getD k 0
    g.Completes gid us (exec i s) fun t g' => t.mem = s.mem ∧ t.desc = s.desc ∧ t.lines = s.lines ∧ t.teams = s.teams ∧ t.posted = s.posted ∧
      ∀ l ∈ lanes, ∃ v ∈ g'.vres, v.kind = .load ∧ v.own = true ∧ v.num = g.sched.issued ∧ v.dsts = g.dstRegs o.d regs ∧ v.lanes.getLsbD l = true ∧
        (∀ ofs m, targetOf (at' l) = .core ofs → ofs < 0x100000 → s.NoCopies g.team → s.team g.team = some m →
          gives v l (loadLane (m.spLine (ofs / 64)) (ofs % 64) (form l)).1) ∧
        (∀ ws fl, isMemory (at' l) = true → l1May (gidCid gid) (at' l / 64) o.q = true →
          (∀ m ∈ lanes, at' m / 64 = at' l / 64 → (s.l1Lane (gidCid gid) ⟨m, at' m, form m⟩).isSome) →
          s.l1Lane (gidCid gid) ⟨l, at' l, form l⟩ = some (ws, fl) → gives v l ws)

/-- R148, R152-R155, R189: ST and STU complete, changing nothing in memory or slices yet; each lane's bytes, where no higher lane stores the same
place, stand in the scratchpad, or in a dirty word of L1, or in a write on its way to the slice, or in a register write that is the machine's next step.
Bytes of the scratchpad that no lane stores stay. A store that changes a watched byte then takes the report's trap, R373. A register write is one
step of the machine, that is the next but for landings, by the model's choice (log 29, log 4). -/
def Obligations.Stores : Prop :=
  ∀ (s : State) (gid : Nat) (g : Group) (i : Instr) (o : Mem) (p : MemPlan) (regs : Nat) (ea : Nat → Nat) (pa : Nat → Nat),
    g.storeOf gid i = some (o, p, regs, ea) → s.Issues gid g → (∀ m, s.team g.team = some m → Canon 0 m.spad) →
    let us := srcUse o.a 0 2 Perm.id :: bopUse o.b 1
    s.AccessReady gid g o.hdr us (dstUse o.d regs) p ea pa →
    let cid := gidCid gid
    let at' := p.laneAt (g.memRun o.hdr) pa
    let lanes := p.lanes (g.memRun o.hdr)
    let byte := fun (l b : Nat) => g.dataByte gid o regs l b
    let weak := fun (l : Nat) => l1May cid (at' l / 64) o.q = true ∧ o.q.str = false
    let watched := ∃ w ∈ (s.core cid).watch, ∃ l ∈ lanes, ∃ b < p.size, isMemory (at' l) = true ∧ (∀ k ∈ lanes, at' k / 64 = at' l / 64 ∧ (l < k → at' k ≠ at' l)) ∧
      w.armed = true ∧ w.asid = s.asidOf g ∧ w.line ≤ at' l / 64 ∧ at' l / 64 < w.line + watchLines w ∧ watchMask w (at' l % 64 + b) = true ∧
      (s.seenLine cid (at' l / 64)).getD (at' l % 64 + b) 0 ≠ byte l b
    s.StoresWith gid g o.hdr us (exec i s) watched fun t _ => t.mem = s.mem ∧ t.desc = s.desc ∧ t.lines = s.lines ∧ t.posted = s.posted ∧
      (∀ m, s.team g.team = some m → ∃ m', t.team g.team = some m' ∧ m'.spDesc = m.spDesc ∧
        (∀ a, (∀ l ∈ lanes, ∀ ofs, targetOf (at' l) = .core ofs → ofs < 0x100000 → ¬(ofs ≤ a ∧ a < ofs + p.size)) → m'.spByte a = m.spByte a) ∧
        ∀ l ∈ lanes, (∀ k ∈ lanes, l < k → at' k ≠ at' l) → ∀ ofs, targetOf (at' l) = .core ofs → ofs < 0x100000 → ∀ b, b < p.size → m'.spByte (ofs + b) = byte l b) ∧
      ∀ l ∈ lanes, (∀ k ∈ lanes, l < k → at' k ≠ at' l) →
        (isMemory (at' l) = true → ¬weak l →
          ∃ w ∈ t.work, ∃ r, w.job = .write r ∧ r.core = cid ∧ r.gid = gid ∧ r.line = at' l / 64 ∧ ∀ b, b < p.size → r.bytes.getD (at' l % 64 + b) none = some (byte l b)) ∧
        (isMemory (at' l) = true → weak l → 4 ≤ p.size → (∀ k ∈ lanes, at' k / 64 = at' l / 64) → s.atomicPending cid (at' l / 64) = false →
          (∀ a n, s.ownWaits gid a n = false) → (∀ x, s.l1 cid (at' l / 64) = some x → x.data.length = 64) →
          ∃ x, t.l1 cid (at' l / 64) = some x ∧ ∀ b, b < p.size → x.data.getD (at' l % 64 + b) 0 = byte l b ∧
            x.valid.getLsbD ((at' l % 64 + b) / 4) = true ∧ x.dirty.getLsbD ((at' l % 64 + b) / 4) = true) ∧
        (∀ ofs, targetOf (at' l) = .mmio ofs →
          (s.now, Instr.registerWrite ⟨.core cid, g.priv, s.asidOf g⟩ ofs p.size (BitVec.ofNat 64 (leVal ((List.range p.size).map (byte l))))) ∈ t.agenda)

/-- R56, R148, R159: STDESC completes: the line's descriptor is that of its highest running lane, in the scratchpad at once, elsewhere by a write on
its way. The line's data stays. What it does at host memory is the model's choice (log 34), and so is that a line all of
whose bytes change its meaning counts as changed where it is watched (R373, log 75). -/
def Obligations.StoreDescriptor : Prop :=
  ∀ (s : State) (gid : Nat) (g : Group) (o : Mem) (pa : Nat → Nat), s.Issues gid g → (∀ m, s.team g.team = some m → Canon Config.freshDesc m.spDesc) →
    let us := srcUse o.a 0 2 Perm.id :: bopUse o.b 1
    s.AccessReady gid g o.hdr us [] ⟨false, 64, .write, true, true, false, false, [], [], []⟩ (fun l => g.ea64 gid o.a o.q 64 0 true l) pa →
    let run := g.memRun o.hdr
    let watched := ∃ w ∈ (s.core (gidCid gid)).watch, ∃ l < 32, run.getLsbD l = true ∧ (∀ k, k < 32 → run.getLsbD k = true → k ≤ l ∧ pa k / 64 = pa l / 64) ∧
      isMemory (pa l) = true ∧ lineIsFar (pa l / 64) = false ∧ w.armed = true ∧ w.asid = s.asidOf g ∧ w.line ≤ pa l / 64 ∧ pa l / 64 < w.line + watchLines w ∧
      (∃ b < 64, watchMask w b = true) ∧ s.seenDesc (gidCid gid) (pa l / 64) ≠ (g.laneIndex gid o.b l).extractLsb' 0 16
    s.StoresWith gid g o.hdr us (exec (.stdesc .only o) s) watched fun t _ => t.mem = s.mem ∧ t.desc = s.desc ∧ t.lines = s.lines ∧
      ∀ l, l < 32 → run.getLsbD l = true → (∀ k, k < 32 → run.getLsbD k = true → l < k → pa k / 64 ≠ pa l / 64) →
        let d := (g.laneIndex gid o.b l).extractLsb' 0 16
        (∀ ofs m, targetOf (pa l) = .core ofs → s.team g.team = some m → ∃ m', t.team g.team = some m' ∧ m'.spLineDesc (ofs / 64) = d ∧ m'.spad = m.spad) ∧
        ((∃ h ofs, targetOf (pa l) = .dram h ofs) ∨ (∃ h ofs, targetOf (pa l) = .dsm h ofs) →
          ∃ w ∈ t.work, ∃ r, w.job = .write r ∧ r.core = gidCid gid ∧ r.line = pa l / 64 ∧ r.desc = some d ∧ ∀ b, r.bytes.getD b none = none)

/-- R148, R163, R165: ATOM, ATOMCAS and RED complete with a request on its way to each line's home that holds each running lane's address and operands;
ATOM and ATOMCAS have a result in flight, RED none. Nothing in memory has changed yet. -/
def Obligations.Atomics : Prop :=
  ∀ (s : State) (gid : Nat) (g : Group) (i : Instr) (o : Mem) (p : MemPlan) (k : AtomKind) (ret : Bool) (regs : Nat) (pa : Nat → Nat),
    atomOf i = some (o, p, k, ret, regs) → s.Issues gid g →
    let us := srcUse o.a 0 2 Perm.id :: bopUse o.b regs
    s.AccessReady gid g o.hdr us (if ret then dstUse o.d regs else []) p (fun l => g.ea64 gid o.a o.q (4 * regs) 0 false l) pa →
    let run := g.memRun o.hdr
    let two := fun (ws : List Word) => (ws.getD 0 0).toNat + 2 ^ 32 * (ws.getD 1 0).toNat
    g.Completes gid us (exec i s) fun t g' => t.mem = s.mem ∧ t.desc = s.desc ∧ t.lines = s.lines ∧ t.teams = s.teams ∧ (ret = false → g'.vres = g.vres) ∧
      ∀ l, l < 32 → run.getLsbD l = true →
        (ret = true → ∃ v ∈ g'.vres, v.kind = .atomic ∧ v.own = true ∧ v.num = g.sched.issued ∧ v.dsts = g.dstRegs o.d regs ∧ v.lanes = run ∧ v.ready = 0) ∧
        ∃ w ∈ t.work, ∃ r, w.job = .atomic r ∧ r.gid = gid ∧ r.core = gidCid gid ∧ r.line = pa l / 64 ∧ r.kind = k ∧ r.ret = ret ∧ r.scope = o.q.scope ∧
          ∃ a ∈ r.lanes, a.lane = l ∧ a.pa = pa l ∧ a.b.toNat = two (g.laneOperand gid o.b regs l) ∧
            ((∃ c, k = .cas c) → a.d.toNat = two (g.laneData gid o.d regs l))

/-- R153, R156: LDS gives each running lane the bytes at its offset of the team's scratchpad; STS stores there, the highest lane's bytes
standing. A release that finds earlier reads or register stores of the group outstanding waits for them (the model's choice, log 76). -/
def Obligations.Scratchpad : Prop :=
  ∀ (s : State) (gid : Nat) (g : Group) (o : Mem) (m : Team), s.Issues gid g →
    let us := srcUse o.a 0 1 Perm.id :: bopUse o.b 1
    let run := g.memRun o.hdr
    (∀ v : LdSz,
      let ea := fun l => g.ea32 gid o.a o.q (ldBytes v) (g.laneOffset gid o.b l) l
      s.ScratchReady gid g m o us (dstUse o.d v.regs) (ldBytes v) ea →
      g.Completes gid us (exec (.lds v o) s) fun t g' => t.mem = s.mem ∧ t.teams = s.teams ∧
        ∃ r ∈ g'.vres, r.kind = .load ∧ r.own = true ∧ r.dsts = g.dstRegs o.d v.regs ∧ r.lanes = run ∧ r.ready = run ∧
          s.cclk (gidCid gid) + 22 ≤ r.due ∧
          ∀ l k, l < 32 → run.getLsbD l = true → k < v.regs → lane (r.vals.getD k []) l = (loadLane (m.spLine (ea l / 64)) (ea l % 64) (.data v)).1.getD k 0) ∧
    (∀ v : StSz, g.acc = none → g.memRun o.hdr ≠ 0 → g.useFault us (dstUse o.d v.regs) = none → memReleases o.q = true →
      let ea := fun l => g.ea32 gid o.a o.q (stBytes v) (g.laneOffset gid o.b l) l
      s.team g.team = some m → (∀ l, l < 32 → (g.memRun o.hdr).getLsbD l = true → ea l % stBytes v = 0 ∧ ea l + stBytes v ≤ m.spBytes) →
      ¬(s.readsDone gid none = true ∧ s.storesLanded gid none = true) →
      ∃ g', exec (.sts v o) s = .next (s.putGroup gid g') ∧ g'.park = .wait 1 ∧ g'.pc = g.pc ∧ g'.sched.issued = g.sched.issued) ∧
    (∀ v : StSz,
      let ea := fun l => g.ea32 gid o.a o.q (stBytes v) (g.laneOffset gid o.b l) l
      s.ScratchReady gid g m o us (dstUse o.d v.regs) (stBytes v) ea →
      g.Completes gid us (exec (.sts v o) s) fun t g' => t.mem = s.mem ∧ g'.vres = g.vres ∧ ∃ m', t.team g.team = some m' ∧ m'.spDesc = m.spDesc ∧
        (∀ a, (∀ l, l < 32 → run.getLsbD l = true → ¬(ea l ≤ a ∧ a < ea l + stBytes v)) → m'.spByte a = m.spByte a) ∧
        ∀ l, l < 32 → run.getLsbD l = true → (∀ k, k < 32 → run.getLsbD k = true → l < k → ea k ≠ ea l) →
          ∀ b, b < stBytes v → m'.spByte (ea l + b) = g.dataByte gid o v.regs l b)

/-- R156, R162, R163: ATOMS and CASS act on the scratchpad lane by lane in ascending order, each reading what the lanes before it left; each running
lane gets its old word. -/
def Obligations.ScratchpadAtomics : Prop :=
  ∀ (s : State) (gid : Nat) (g : Group) (o : Mem) (m : Team) (i : Instr) (k : AtomKind), s.Issues gid g →
    ((∃ v : AtomOp, v.regs = 1 ∧ i = .atoms v o ∧ k = .op v) ∨ i = .cass .only o ∧ k = .cas .b32) →
    let us := srcUse o.a 0 1 Perm.id :: bopUse o.b 1
    let run := g.memRun o.hdr
    let ea := fun l => g.ea32 gid o.a o.q 4 0 l
    s.ScratchReady gid g m o us (dstUse o.d 1) 4 ea →
    g.Completes gid us (exec i s) fun t g' => t.mem = s.mem ∧ ∃ m' r, t.team g.team = some m' ∧ m'.spDesc = m.spDesc ∧ r ∈ g'.vres ∧ r.kind = .atomic ∧ r.own = true ∧
      r.dsts = g.dstRegs o.d 1 ∧ r.lanes = run ∧ r.ready = run ∧
      ∃ st : Nat → Nat → Byte, (∀ a, st 0 a = m.spByte a) ∧ (∀ a, m'.spByte a = st 32 a) ∧ ∀ l, l < 32 →
        (run.getLsbD l = false → st (l + 1) = st l) ∧
        (run.getLsbD l = true →
          let old := if poisoned (m.spLineDesc (ea l / 64)) then 0 else leVal ((List.range 4).map fun b => st l (ea l + b))
          let new := (atomStep k (BitVec.ofNat 64 old) (((g.laneOperand gid o.b 1 l).getD 0 0).zeroExtend 64) (((g.laneData gid o.d 1 l).getD 0 0).zeroExtend 64)).1
          lane (r.vals.getD 0 []) l = BitVec.ofNat 32 old ∧
            ∀ a, st (l + 1) a = if ea l ≤ a ∧ a < ea l + 4 then new.extractLsb' (8 * (a - ea l)) 8 else st l a)

/-- R151, R160, R161: PREF and CCTL complete for the group and raise nothing at a prefetch that cannot be served, PREF once the pages of its lanes'
addresses are known: the core TLB's, or those that the walks it asked for and waited for have found. CCTL's invalidating forms leave no copy of the
lines in L1, and the form for the instruction path makes what it holds stale. That PREF waits for those walks is the model's reading (log 26). -/
def Obligations.PrefetchAndCacheControl : Prop :=
  ∀ (s : State) (gid : Nat) (g : Group) (o : Mem), s.Issues gid g →
    let cid := gidCid gid
    let us := srcUse o.a 0 2 Perm.id :: bopUse o.b 1
    (∀ v : PrefV,
      let ea := fun (l : Nat) => g.ea64 gid o.a o.q 64 (g.laneOffset gid o.b l) true l
      let known := ∀ l, l < 32 → (g.memRun o.hdr).getLsbD l = true → ea l < 2 ^ 48 → (s.tlbHit cid (s.asidOf g) (pageOf (ea l)) .read g.priv).isSome
      (g.acc = none → g.memRun o.hdr = 0 → s.Skips gid g (exec (.pref v o) s)) ∧
      (g.acc = none → g.memRun o.hdr ≠ 0 → g.useFault us [] = none →
        (known → g.Completes gid us (exec (.pref v o) s) fun t _ => t.mem = s.mem ∧ t.desc = s.desc ∧ t.teams = s.teams) ∧
        (¬known → ∃ t g' a, exec (.pref v o) s = .next t ∧ t.mem = s.mem ∧ t.group gid = some g' ∧ g'.pc = g.pc ∧ g'.park = .xlat ∧ g'.acc = some a ∧ a.walks ≠ [])) ∧
      ∀ a, g.acc = some a → a.walks = [] → (∀ l, l < 32 → a.todo.getLsbD l = true → (tget a.xl (pageOf (a.ea.getD l 0))).isSome) →
        g.Completes gid us (exec (.pref v o) s) fun t _ => t.mem = s.mem ∧ t.desc = s.desc ∧ t.teams = s.teams) ∧
    (g.runMask o.hdr ≠ 0 →
      g.Completes gid [] (exec (.cctl .wball o) s) (fun t _ => t.mem = s.mem ∧ ∀ line x, s.l1 cid line = some x → t.l1 cid line = some x) ∧
        g.Completes gid [] (exec (.cctl .invall o) s) (fun t _ => t.mem = s.mem ∧ (t.core cid).l1 = []) ∧
        g.Completes gid [] (exec (.cctl .ipath o) s) (fun t _ => t.mem = s.mem ∧ (t.core cid).igen = (s.core cid).igen + 1 ∧ (t.core cid).l1 = (s.core cid).l1)) ∧
    (∀ pa, s.AccessReady gid g o.hdr us [] ⟨false, 64, .read, true, true, false, false, [], [], []⟩ (fun l => g.ea64 gid o.a o.q 64 (g.laneOffset gid o.b l) true l) pa →
      g.Completes gid us (exec (.cctl .wb o) s) (fun t _ => t.mem = s.mem ∧ (t.core cid).l1 = (s.core cid).l1) ∧
        ((s.core cid).l1.Pairwise (fun x y => x.1 < y.1) →
          g.Completes gid us (exec (.cctl .inv o) s) fun t _ => t.mem = s.mem ∧ ∀ l, l < 32 → (g.memRun o.hdr).getLsbD l = true → t.l1 cid (pa l / 64) = none))

/-! Waiting, fences, engines and the spine: the instructions. -/

namespace Sys2Proof.Machine

/-- The group waits at a stage of its instruction, as it was but for registers read with KILL. -/
def Group.Waits (g : Group) (us : List Use) (k : Nat) (g' : Group) : Prop :=
  g'.park = .wait k ∧ g'.pc = g.pc ∧ g'.sched.issued = g.sched.issued ∧ g'.exm = g.exm ∧ g'.cnt = g.cnt ∧ g'.preds = g.preds ∧ g'.flags = g.flags ∧
    g'.loops = g.loops ∧ g'.level = g.level ∧ (g.Sane → ∀ n l, l < 32 → g.killed us n = false → g'.stands n l = g.stands n l)

/-- An acquire of wts, at a bank of another domain when far, has moved the core's time (R196), where it stays below the wrap and the core has
not acknowledged one (R197). -/
def State.Acquired (s t : State) (cid : Nat) (sc : Scope) (wts : Nat) (far : Bool) : Prop :=
  isDcc cid = false → sc ≠ .team → s.wrapAcked cid = false →
    let v := if far = true ∨ 2 ≤ scopeNum sc then max wts ((s.dom (cidDom cid)).wm + 1) else wts
    v ≤ 0xFFFF → t.pts cid = max (s.pts cid) v

/-- The group has a result of scalars in flight, arriving together. -/
def Group.Gets (g g' : Group) (d : Dst) (ws : List Word) : Prop :=
  ∃ v, g'.vres = g.vres ++ [v] ∧ v.kind = .info ∧ v.own = true ∧ v.num = g.sched.issued ∧
    v.dsts = (List.range ws.length).map (fun i => RegName.scal (d.reg.toNat + i)) ∧ v.lanes = 1 ∧ v.ready = 1 ∧ v.vals = ws.map fun w => [w]

/-- A fixed result in scalar d, four clocks on. -/
def State.InFour (s : State) (gid : Nat) (g g' : Group) (d : Dst) (w : Word) : Prop :=
  g'.Awaits g.sched.issued (s.cclk (gidCid gid) + 4) (.scal d.reg.toNat) 1 (fun _ => w) 0

/-- A barrier instruction: number, of the cluster, whether it arrives, whether it waits. -/
def barOfInstr (i : Instr) : Option (Syn × Nat × Bool × Bool × Bool) :=
  match i with
  | .bar n o => some (o, n.toNat, false, true, true)
  | .bararv n o => some (o, n.toNat, false, true, false)
  | .barwt n o => some (o, n.toNat, false, false, true)
  | .cbar n o => some (o, n.toNat, true, true, true)
  | _ => none

end Sys2Proof.Machine

/-- R171-R173: the barrier instructions: the count's test, the wait for the group's own earlier arrival, the release, the arrival in the barrier's
word with its completion, the mismatch trap, the wait for the phase that the group arrived in, which ends in the clock before the one from which
the group may issue (R43, R173), and the acquire at its end (log 35). -/
def Obligations.Barriers : Prop :=
  ∀ (s : State) (gid : Nat) (g : Group) (i : Instr) (o : Syn) (n : Nat) (cl arrives stays : Bool) (m : Team) (c : Cluster), s.Issues gid g →
    barOfInstr i = some (o, n, cl, arrives, stays) → s.team g.team = some m → m.bars.length = 16 → tget s.clusters m.cluster = some c → c.bars.length = 4 →
    let cid := gidCid gid
    let us := if arrives then bopUse o.b 1 else []
    let b := if cl then c.bars.getD n {} else m.bars.getD n {}
    let mine := if cl then c.arr.contains (n, gid) else b.arr.testBit g.idx
    let all := if cl then c.w * c.h * m.launched else m.launched
    let count := (g.bopWord gid o.b).toNat
    let phase := s.phaseOf gid g cl n
    let ends := g.Completes gid [] (exec i s) fun t g' => t.mem = s.mem ∧ s.Acquired t cid o.q.scope phase.2 false ∧ (o.q.scope ≠ .team → g'.acqWts = [0, 0, 0, 0])
    let word := fun (t : State) => if cl then (tget t.clusters m.cluster).bind (·.bars[n]?) else (t.team g.team).bind (·.bars[n]?)
    (g.waitStage = 0 → g.runMask o.hdr = 0 → s.Skips gid g (exec i s)) ∧
    (g.waitStage = 0 → g.runMask o.hdr ≠ 0 → g.useFault us [] = none →
      (arrives = true → all < count → exec i s = .next (s.trapHere gid g 0x0F 1)) ∧
      (arrives = true → count ≤ all → ∃ g', exec i s = .next (s.putGroup gid g') ∧ g.Waits us 1 g' ∧ g'.kept = count) ∧
      (arrives = false → mine = true → ∃ g', exec i s = .next (s.putGroup gid g') ∧ g.Waits [] 3 g') ∧
      (arrives = false → mine = false → ends)) ∧
    (g.park = .wait 1 → arrives = true →
      (mine = true → exec i s = .next s) ∧
      (mine = false → ∃ deps, exec i s = .next (s.putGroup gid { g with rel := some ⟨o.q.scope, 0, deps⟩, park := .wait 2 }))) ∧
    (g.park = .wait 2 → g.rel = none → arrives = true →
      let k := g.kept
      let agrees := b.isOpen = false ∨ ((k = 0 ↔ b.live = true) ∧ (k ≠ 0 → k = b.exp))
      (¬agrees → exec i s = .next (s.trapHere gid g 0x0F 0)) ∧
      (agrees →
        let got := if b.isOpen then b.cnt + 1 else 1
        let live := if b.isOpen then b.live else decide (k = 0)
        let exp := if b.isOpen then b.exp else k
        let alive := if cl then (c.teams.map fun x => ((s.team x).map fun y => y.launched - y.retiredN).getD 0).sum else m.launched - m.retiredN
        ∃ t b', exec i s = .next t ∧ t.mem = s.mem ∧ word t = some b' ∧
          ((if live then alive else exp) ≤ got → b'.phase = (!b.phase) ∧ b'.isOpen = false ∧ b'.cnt = 0 ∧ b'.openAt = s.now + if cl then 24 else 4) ∧
          (got < (if live then alive else exp) → b'.phase = b.phase ∧ b'.isOpen = true ∧ b'.cnt = got ∧ b'.live = live ∧ b'.exp = exp ∧
            (cl = false → b'.arr.testBit g.idx = true)) ∧
          (stays = true → ∃ ph, t.group gid = some { g with park := .wait 3, phases := ph } ∧
            (b'.isOpen = false → cl = true ∨ m.gid g.idx = gid → tget ph (phaseKey cl n) = some (b'.openAt, b'.last))) ∧
          (stays = false → g.Completes gid [] (exec i s) fun _ _ => True))) ∧
    (g.park = .wait 3 ∨ g.park = .wait 5 → stays = true →
      (mine = true ∨ s.now + 1 < phase.1 → exec i s = .next s) ∧ (mine = false → phase.1 ≤ s.now + 1 → ends)) ∧
    (tget g.phases (phaseKey cl n) = none → phase = (b.openAt, b.last)) ∧ ∀ x, tget g.phases (phaseKey cl n) = some x → phase = x

/-- R196, R198, R298, R305, R306: FENCE, PFENCE and TADV complete: exec answers a next state. TADV: at its issue, with the core's time moved on and the sum, or zero where the
domain wraps. FENCE: once it has waited at stage 1 until every load and atomic of the group has landed where it acquires, and at stage 2 until its
release is done where it releases; it acquires what the strong loads noted. PFENCE: once what its paths name is done, and its release where LS is among
them. Each waits, with nothing changed, where these conditions do not hold. That an acquire at team scope forgets no noted stamp is the model's
reading (log 77). -/
def Obligations.FencesAndTime : Prop :=
  ∀ (s : State) (gid : Nat) (g : Group) (o : Syn), s.Issues gid g →
    let cid := gidCid gid
    let landed := ∀ v ∈ g.vres, ¬(v.own = true ∧ (v.kind = .load ∨ v.kind = .atomic))
    let held := fun (x : Host.Outcome State Fault Refusal) => ∃ deps, x = .next (s.putGroup gid { g with rel := some ⟨o.q.scope, 0, deps⟩, park := .wait 2 })
    let forgets := fun (g' : Group) => g'.acqWts = if o.q.scope = .team then g.acqWts else [0, 0, 0, 0]
    (g.runMask o.hdr ≠ 0 → g.useFault (bopUse o.b 1) (dstUse o.d 1) = none →
      let v := s.pts cid + (g.bopWord gid o.b).toNat
      g.Completes gid (bopUse o.b 1) (exec (.tadv o) s) fun t g' => t.mem = s.mem ∧ s.InFour gid g g' o.d (if v ≤ 0xFFFF then BitVec.ofNat 32 v else 0) ∧
        (isDcc cid = false → (v ≤ 0xFFFF → s.wrapAcked cid = false → t.pts cid = v) ∧
          (0xFFFF < v → (t.dom (cidDom cid)).wrapAsked = true ∨ (s.dom (cidDom cid)).wrapping = true))) ∧
    (let acq := o.q.ord = .acq ∨ o.q.ord = .ar
     let rel := o.q.ord = .rel ∨ o.q.ord = .ar
     let at' := fun (k : Nat) => if scopeNum o.q.scope ≤ k then g.acqWts.getD k 0 else 0
     let far := (List.range 4).any fun k => decide (scopeNum o.q.scope ≤ k) && g.acqFar.getD k false
     let completes := g.Completes gid [] (exec (.fence o) s) fun t g' => t.mem = s.mem ∧
      (acq → s.Acquired t cid o.q.scope (max (max (at' 0) (at' 1)) (max (at' 2) (at' 3))) far ∧ forgets g') ∧
      g'.fenced = (g.fenced || decide (rel ∧ o.q.scope ≠ .team))
     (g.park = .wait 1 → ¬rel → (acq → landed) → completes) ∧
     (g.park = .wait 2 → g.rel = none → completes) ∧
     (g.park = .wait 1 → (acq → ¬landed → exec (.fence o) s = .next s) ∧ ((acq → landed) → rel → held (exec (.fence o) s)))) ∧
    (let from' := fun (k : Nat) => o.q.frm.getLsbD k = true
     let engines := from' 0 ∨ from' 1 ∨ from' 2
     let ready := (from' 2 → s.copiesDone gid = true) ∧ (from' 1 → g.mq = [] ∧ ∀ v ∈ g.vres, v.kind ≠ .mrd) ∧ (from' 0 → s.banksDone gid = true) ∧
      (engines → s.farDone gid cid o.q.scope = true) ∧ (from' 3 → landed)
     let completes := g.Completes gid [] (exec (.pfence o) s) fun t g' => t.mem = s.mem ∧ g'.fenced = (g.fenced || decide (from' 3 ∧ o.q.scope ≠ .team)) ∧
      (o.q.dest.getLsbD 3 = true → forgets g' ∧
        (engines → isDcc cid = false → o.q.scope ≠ .team → s.wrapAcked cid = false → (s.dom (cidDom cid)).wm + 1 ≤ 0xFFFF →
          (s.dom (cidDom cid)).wm + 1 ≤ t.pts cid))
     (g.park = .wait 1 → ¬from' 3 → ready → completes) ∧
     (g.park = .wait 2 → g.rel = none → completes) ∧
     (g.park = .wait 1 → (¬ready → exec (.pfence o) s = .next s) ∧ (ready → from' 3 → held (exec (.pfence o) s)))) ∧
    (g.park = .wait 2 → ∀ r, g.rel = some r → ∀ i ∈ [Instr.fence o, .pfence o],
      (s.relCan gid cid none r = false → exec i s = .next (s.putGroup gid g)) ∧
      (s.relCan gid cid none r = true → r.scope = .team ∨ r.stage ≠ 0 → exec i s = .next (s.putGroup gid { g with rel := none })) ∧
      (s.relCan gid cid none r = true → r.scope ≠ .team → r.stage = 0 →
        ∃ t ids, exec i s = .next t ∧ t.mem = s.mem ∧ t.group gid = some { g with rel := some ⟨r.scope, 1, ids⟩ })) ∧
    (g.waitStage = 0 → ∀ i ∈ [Instr.fence o, .pfence o],
      (g.runMask o.hdr = 0 → s.Skips gid g (exec i s)) ∧ (g.runMask o.hdr ≠ 0 → ∃ g', exec i s = .next (s.putGroup gid g') ∧ g.Waits [] 1 g')) ∧
    (g.runMask o.hdr = 0 → s.Skips gid g (exec (.tadv o) s))

/-- R200-R203, R207: a copy instruction waits for room, traps on a bad block, or completes with the copy its block describes held by the engine and its
counter one higher, or, of no bytes, with nothing more to do; CPYWAIT waits for its counter; CPYSTAT gives the four counters. -/
def Obligations.CopyInstructions : Prop :=
  ∀ (s : State) (gid : Nat) (g : Group) (o : Cpy), s.Issues gid g →
    (∀ (i : Instr) (kind : CopyKind),
      (i, kind) ∈ [(.cpyin o, CopyKind.cpyin), (.cpyout o, .cpyout), (.cpygth o, .gather), (.cpyreg o, .reg), (.cpydsmTodsm o, .todsm), (.cpydsmFromdsm o, .fromdsm)] →
      let us := [srcUse o.a 0 8 Perm.id]
      let w := fun (k : Nat) => (g.readScal gid (o.a.reg.toNat + k)).toNat
      let k := o.q.cc.toNat
      let room := s.copiesHeld (gidCid gid) < 32 ∧ g.cc.getD k 0 < 255
      let dsm := kind = .todsm ∨ kind = .fromdsm
      let c := copyOf gid g (s.asidOf g) kind o.q (g.scalarBlock gid o.a 8)
      (g.runMask o.hdr = 0 → s.Skips gid g (exec i s)) ∧
      (g.runMask o.hdr ≠ 0 → ¬room → exec i s = .next s) ∧
      (g.runMask o.hdr ≠ 0 → room → g.useFault us [] = none →
        (∀ code, s.copyFault gid g c (g.scalarBlock gid o.a 8) = some code → exec i s = .next (s.trapHere gid g code 0)) ∧
        (2 ^ 20 < w 4 % 2 ^ 21 → exec i s = .next (s.trapHere gid g 0x05 0)) ∧
        (s.copyFault gid g c (g.scalarBlock gid o.a 8) = none → c.rows = 0 ∨ c.rowb = 0 → g.Completes gid us (exec i s) fun t g' =>
          t.mem = s.mem ∧ t.teams = s.teams ∧ g'.vres = g.vres ∧ g'.cc = g.cc ∧ t.work = s.work) ∧
        (s.copyFault gid g c (g.scalarBlock gid o.a 8) = none → c.rows ≠ 0 → c.rowb ≠ 0 → g.Completes gid us (exec i s) fun t g' => t.mem = s.mem ∧ t.teams = s.teams ∧ g'.vres = g.vres ∧
          g'.cc = g.cc.set k (g.cc.getD k 0 + 1) ∧
          ∃ x ∈ t.work, x.job = .copy c ∧ c.gid = gid ∧ c.team = g.team ∧ c.core = gidCid gid ∧ c.kind = kind ∧ c.cc = k ∧ c.scope = o.q.scope ∧ c.started = false ∧
            c.g = w 0 + 2 ^ 32 * w 1 ∧ c.l = (if dsm then w 2 + 2 ^ 32 * w 3 else w 2) ∧ c.rowb = w 4 % 2 ^ 21 ∧ c.rows = w 5 % 2 ^ 16 ∧
            c.gpitch = (g.readScal gid (o.a.reg.toNat + 6)).toInt ∧ (kind ≠ .gather → c.pitch = w 7) ∧ (kind = .gather → c.index = w 7) ∧
            c.desc = if o.q.desc then some (BitVec.ofNat 16 (w 5 / 2 ^ 16)) else none))) ∧
    (g.waitStage = 0 → g.runMask o.hdr = 0 → s.Skips gid g (exec (.cpywait o) s)) ∧
    (g.waitStage = 0 → g.runMask o.hdr ≠ 0 → g.useFault (bopUse o.b 1) [] = none →
      ∃ g', exec (.cpywait o) s = .next (s.putGroup gid g') ∧ g.Waits (bopUse o.b 1) 1 g' ∧ g'.kept = (g.bopWord gid o.b).toNat) ∧
    (g.park = .wait 1 →
      (g.kept < g.cc.getD o.q.cc.toNat 0 → exec (.cpywait o) s = .next s) ∧
      (g.cc.getD o.q.cc.toNat 0 ≤ g.kept → ∃ g', exec (.cpywait o) s = .next (s.putGroup gid g') ∧ { g with park := .running }.Done g' [])) ∧
    (g.runMask o.hdr = 0 → s.Skips gid g (exec (.cpystat o) s)) ∧
    (g.runMask o.hdr ≠ 0 → g.useFault [] (dstUse o.d 1) = none →
      let n := fun (k : Nat) => g.cc.getD k 0
      ∃ g', exec (.cpystat o) s = .next (s.putGroup gid g') ∧ g.Done g' [] ∧
        s.InFour gid g g' o.d (BitVec.ofNat 32 (n 0 + 2 ^ 8 * n 1 + 2 ^ 16 * n 2 + 2 ^ 24 * n 3)))

/-- R217, R220-R222, R226-R230, R232-R234, R237: the matrix instructions need every lane and room in the queue, trap on what R237 names, and complete with
the operation at the end of the group's queue, changing neither memory nor the cluster's stores; MQUIRE and MWAIT. -/
def Obligations.MatrixInstructions : Prop :=
  ∀ (s : State) (gid : Nat) (g : Group) (o : Mat), s.Issues gid g →
    let run := g.runMask o.hdr
    let acc := o.q.acc.toNat
    let block := g.scalarBlock gid o.a 8
    let owns := fun (a n : Nat) => ∃ c, s.clusterOf g = some c ∧ c.owns a n = true
    let tile := tileOf block
    let queued := fun (i : Instr) (us : List Use) (d : List (SFile × Nat × Nat)) (k : MKind → Prop) (vs : List VRes → Prop) =>
      (run = 0xFFFFFFFF → 8 ≤ g.mq.length → exec i s = .next s) ∧
      (run = 0xFFFFFFFF → g.mq.length < 8 → g.useFault us d = none → g.Completes gid us (exec i s) fun t g' => t.mem = s.mem ∧ t.hcs = s.hcs ∧ t.teams = s.teams ∧ vs g'.vres ∧
        ∃ m, g'.mq = g.mq ++ [m] ∧ m.acc = acc ∧ m.quire = g.nextQuire ∧ m.chain = (if g.chainOpen then g.chain else 0) ∧ m.started = false ∧ m.endAt = none ∧ m.flags = 0 ∧ k m.kind)
    let traps := fun (i : Instr) (us : List Use) (d : List (SFile × Nat × Nat)) (code : Nat) =>
      run = 0xFFFFFFFF → g.mq.length < 8 → g.useFault us d = none → exec i s = .next (s.trapHere gid g code 0)
    let same := fun (v : List VRes) => v = g.vres
    let a8 := [srcUse o.a 0 8 Perm.id]
    let b1 := bopUse o.b 1
    let n := (g.bopWord gid o.b).toNat
    (g.waitStage = 0 → ∀ i, i ∈ [Instr.mchain o, .mcend o, .mldb o, .mzero o, .mrd o, .maccAdd o, .mquire o, .mwait o] ∨ (∃ v, i = .mma v o) ∨ (∃ v, i = .mmas v o) ∨
        (∃ v, i = .mrdMem v o) ∨ (∃ v, i = .maccLd v o) →
      (run = 0 → s.Skips gid g (exec i s)) ∧ (run ≠ 0 → run ≠ 0xFFFFFFFF → exec i s = .next (s.trapHere gid g 0x0C 0))) ∧
    (run = 0xFFFFFFFF →
      g.Completes gid [] (exec (.mchain o) s) (fun t g' => t.mem = s.mem ∧ g'.mq = g.mq ∧ g'.chainOpen = true ∧ g'.chain = g.chain + 1) ∧
      g.Completes gid [] (exec (.mcend o) s) (fun t g' => t.mem = s.mem ∧ g'.mq = g.mq ∧ g'.chainOpen = false ∧ g'.chain = g.chain)) ∧
    ((∀ code, s.loadFault g block = some code → traps (.mldb o) a8 [] code) ∧
      (let x := loadBlock block
       s.loadFault g block = none → queued (.mldb o) a8 [] (· = .mldb x.src x.bofs x.rowb x.rows x.pitch) same)) ∧
    (∀ (c : Cluster) (t : Team), s.clusterOf g = some c → s.team g.team = some t →
      let x := mmaBlock o.q.bsrc block
      let kind := fun (mode : MatMode) (sp : Option Nat) => MKind.mma mode sp x.aofs x.apitch x.base o.q.bsrc x.bpitch x.m x.n x.k x.mofs o.q.cmask.toNat
      (∀ v : MatMode, (∀ code, s.mmaFault c t o v none block = some code → traps (.mma v o) a8 [] code) ∧
        (s.mmaFault c t o v none block = none → queued (.mma v o) a8 [] (· = kind v none) same)) ∧
      ∀ v : SparseV,
        let sp := some (match v.s with
          | .s8 => 8
          | .s16 => 16
          | .s32 => 32
          | .s48 => 48)
        (∀ code, s.mmaFault c t o v.mode sp block = some code → traps (.mmas v o) a8 [] code) ∧
        (s.mmaFault c t o v.mode sp block = none → queued (.mmas v o) a8 [] (· = kind v.mode sp) same)) ∧
    ((¬owns acc n → traps (.mzero o) b1 [] 0x07) ∧ (owns acc n → queued (.mzero o) b1 [] (· = .mzero n) same)) ∧
    ((¬owns acc 1 → traps (.mrd o) b1 (dstUse o.d 1) 0x07) ∧
      (owns acc 1 → queued (.mrd o) b1 (dstUse o.d 1) (fun k => ∃ id, k = .mrdReg id (n % 256) (n / 256 % 8) run) fun vs =>
        ∃ v, vs = g.vres ++ [v] ∧ v.kind = .mrd ∧ v.dsts = [.vec (g.rename o.d.reg.toNat)] ∧ v.lanes = run ∧ v.ready = 0 ∧ v.quire = some g.nextQuire)) ∧
    (∀ v : MrdV,
      (∀ code, s.tileFault g acc block (mrdWidth v.fmt) true = some code → traps (.mrdMem v o) a8 [] code) ∧
      (s.tileFault g acc block (mrdWidth v.fmt) true = none →
        queued (.mrdMem v o) a8 [] (· = .mrdMem v.fmt v.desc tile.addr tile.pitch tile.rows tile.cols tile.row0 tile.col0 tile.spad tile.scale) same)) ∧
    ((¬(owns acc 1 ∧ owns (n % 16) 1) → traps (.maccAdd o) b1 [] 0x07) ∧ (owns acc 1 → owns (n % 16) 1 → 16 ≤ n → traps (.maccAdd o) b1 [] 0x05) ∧
      (owns acc 1 → owns (n % 16) 1 → n < 16 → queued (.maccAdd o) b1 [] (· = .maccAdd n) same)) ∧
    (∀ v : MaccV,
      (∀ code, s.tileFault g acc block 4 false = some code → traps (.maccLd v o) a8 [] code) ∧
      (s.tileFault g acc block 4 false = none →
        queued (.maccLd v o) a8 [] (· = .maccLd (v == .ldadd) tile.addr tile.pitch tile.rows tile.cols tile.row0 tile.col0 tile.spad) same)) ∧
    (run = 0xFFFFFFFF → g.useFault [] (dstUse o.d 1) = none →
      g.Goes gid [] (exec (.mquire o) s) fun _ g' => g'.nextQuire = (g.nextQuire + 1) % 65536 ∧ g'.mq = g.mq ∧ s.InFour gid g g' o.d (BitVec.ofNat 32 g.nextQuire)) ∧
    (run = 0xFFFFFFFF → g.waitStage = 0 → g.useFault b1 [] = none → ∃ g', exec (.mwait o) s = .next (s.putGroup gid g') ∧ g.Waits b1 1 g' ∧ g'.kept = n % 65536) ∧
    (g.park = .wait 1 →
      let q := g.kept
      let early := fun (x : Nat) => (q + 65536 - x) % 65536 < 32768
      let busy := if (g.nextQuire + 131071 - q) % 65536 < 32768 then (∃ m ∈ g.mq, early m.quire) ∨ ∃ v ∈ g.vres, ∃ x, v.quire = some x ∧ early x
        else g.mq ≠ [] ∨ ∃ v ∈ g.vres, v.quire.isSome = true
      (busy → exec (.mwait o) s = .next s) ∧ (¬busy → g.Goes gid [] (exec (.mwait o) s) fun _ g' => g'.mq = g.mq))

namespace Sys2Proof.Machine

/-- The bank instructions but BWAIT. -/
def bankOf (i : Instr) : Option (Bnk × BankKind) :=
  match i with
  | .bupd v o => some (o, .bupd v)
  | .bred v o => some (o, .bred v)
  | .vtopk o => some (o, .vtopk)
  | .vsmax o => some (o, .vsmax)
  | .vsamp o => some (o, .vsamp)
  | _ => none

/-- A range lies in one ascending run at physical address a, in one domain's DSM, or in its DRAM where that is allowed (R256). -/
def State.RunsAt (s : State) (r : BankRange) (frame : Nat → Nat) (a : Nat) : Prop :=
  a = frame (r.va / 4096) + r.va % 4096 ∧ (∀ p ∈ r.pages, frame p = frame (r.va / 4096) + 4096 * (p - r.va / 4096)) ∧
    ((∃ d o o', targetOf a = .dsm d o ∧ targetOf (a + max r.bytes 4 - 1) = .dsm d o' ∧ o' < s.dsmBytes d) ∨
      (r.dsm = false ∧ ∃ d o o', targetOf a = .dram d o ∧ targetOf (a + max r.bytes 4 - 1) = .dram d o'))

/-- What GSUB has read at va, every page of it known: the state then, COLQ, and the nodes, none when malformed (R280, R290). -/
def State.Described (s : State) (gid : Nat) (g : Group) (graph : Bool) (va : Nat) (t : State) (colq : Nat) (xs : Option (List NodeSpec)) : Prop :=
  let d := cidDom (gidCid gid)
  let e := s.groupEngine gid g
  let here := fun (s : State) (n m : Nat) (t : State) (b : List Byte) => ∃ s' p fl, s.placesFor gid e g.learnt .read va n = (s', p) ∧ p.bad = none ∧ p.ok = true ∧
    s'.placedRead d p (va + m) (n - m) = (t, b, fl)
  if graph then
    ∃ s1 h, here s 64 0 s1 h ∧
      (graphOf h = none ∧ t = s1 ∧ colq = 0 ∧ xs = none ∨
        ∃ n b, graphOf h = some (n, colq) ∧ here s1 (64 + 256 * n) 64 t b ∧ xs = (List.range n).mapM fun i => nodeOf (slice b (256 * i) 256) [])
  else ∃ b, here s 256 0 t b ∧ colq = 0 ∧ xs = (nodeOf b g.folios).map fun x => [x]

/-- A request for suspension or resumption at issue: context, DCC as well, domains. -/
def Group.asks (g : Group) (gid : Nat) (o : Ctl) : Nat × Bool × List Nat :=
  let w := fun (k : Nat) => (g.readScal gid (o.a.reg.toNat + k)).toNat
  let m := w 1 + 2 ^ 32 * w 2
  (w 0 % 2 ^ 16, (w 0).testBit 16, if m = 0 then List.range 64 else (List.range 64).filter fun d => m.testBit d)

end Sys2Proof.Machine

/-- R253-R256, R262, R263: a bank instruction waits for room, traps on its block as R256 orders the tests, or completes with its ticket and the operation
on its way to the banks of X's domain; BWAIT waits for its ticket and acquires. -/
def Obligations.BankInstructions : Prop :=
  ∀ (s : State) (gid : Nat) (g : Group), s.Issues gid g →
    let cid := gidCid gid
    (∀ (i : Instr) (o : Bnk) (k : BankKind), bankOf i = some (o, k) → g.acc = none →
      let us := [srcUse o.a 0 8 Perm.id]
      let ws := g.scalarBlock gid o.a 8
      let b := bankBlock ws
      let rx := (bankRanges k b).1
      let ry := (bankRanges k b).2.1
      let ra := (bankRanges k b).2.2
      let rs := rx :: (ry.toList ++ ra.toList)
      (g.runMask o.hdr = 0 → s.Skips gid g (exec i s)) ∧
      (g.runMask o.hdr ≠ 0 → 64 ≤ s.banksHeld cid → exec i s = .next s) ∧
      (g.runMask o.hdr ≠ 0 → s.banksHeld cid < 64 → g.useFault us (dstUse o.d 1) = none →
        (bankZeros k ws = false → exec i s = .next (s.trapHere gid g 0x05 0)) ∧
        (bankZeros k ws = true → bankAligned k b = false → exec i s = .next (s.trapHere gid g 0x04 0)) ∧
        (bankZeros k ws = true → bankAligned k b = true → (∃ r ∈ rs, 2 ^ 48 < r.va + r.bytes) → exec i s = .next (s.trapHere gid g 0x05 0)) ∧
        (bankZeros k ws = true → bankAligned k b = true → (∀ r ∈ rs, r.va + r.bytes ≤ 2 ^ 48) →
          ∀ (frame : Nat → Nat) (x y aux : Nat),
            (∀ p ∈ rangePages rs, ∃ w nx pr, s.tlbHit cid (s.asidOf g) p.1 (if p.2 then .write else .read) g.priv = some (.ok (frame p.1) w nx pr)) →
            s.RunsAt rx frame x → (∀ r, ry = some r → s.RunsAt r frame y ∧ lineHome (y / 64) = lineHome (x / 64)) →
            (∀ r, ra = some r → s.RunsAt r frame (if k = .vsmax then aux else y)) → (ry = none → ra = none → y = 0) → (k = .vsmax → ra = none → aux = 0) →
            (k ≠ .vsmax → aux = 0) → (k = .vsmax → ry = none → y = aux) →
            (k = .vsmax → ry.isSome → x = y ∨ x + 4 * b.n ≤ y ∨ y + 4 * b.n ≤ x) →
            let seq := (s.core cid).bankSeq
            g.Completes gid us (exec i s) fun t g' => t.mem = s.mem ∧ t.lines = s.lines ∧ (t.core cid).bankSeq = (seq + 1) % 65536 ∧
              s.InFour gid g g' o.d (BitVec.ofNat 32 (cidSite cid * 2 ^ 24 + seq)) ∧
              ∃ e ∈ t.work, ∃ q, e.job = .bank q ∧ q.gid = gid ∧ q.core = cid ∧ q.dom = lineHome (x / 64) ∧ q.seq = seq ∧ q.kind = k ∧ q.scope = o.q.scope ∧ q.x = x ∧
                q.y = y ∧ q.aux = aux ∧ q.n = b.n ∧ q.p1 = b.p1 ∧ q.p2 = b.p2 ∧ q.p3 = b.p3 ∧ (q.rel.isSome = true ↔ o.q.ord = .rel ∨ o.q.ord = .ar)))) ∧
    (∀ o : Bnk,
      let us := bopUse o.b 1
      let v := (g.bopWord gid o.b).toNat
      (g.waitStage = 0 → g.runMask o.hdr = 0 → s.Skips gid g (exec (.bwait o) s)) ∧
      (g.waitStage = 0 → g.runMask o.hdr ≠ 0 → g.useFault us [] = none →
        (v / 2 ^ 24 ≠ cidSite cid ∨ v / 2 ^ 16 % 2 ^ 8 ≠ 0 → exec (.bwait o) s = .next (s.trapHere gid g 0x05 0)) ∧
        (v / 2 ^ 24 = cidSite cid → v / 2 ^ 16 % 2 ^ 8 = 0 →
          ∃ g', exec (.bwait o) s = .next (s.putGroup gid g') ∧ g.Waits us 1 g' ∧ g'.kept = v % 65536)) ∧
      (g.park = .wait 1 →
        let busy := ∃ w ∈ s.work, (∃ b, w.job = .bank b ∧ b.core = cid ∧ b.seq = g.kept) ∨ ∃ b fl far wts, w.job = .bankDone b fl far wts ∧ b.core = cid ∧ b.seq = g.kept
        (busy → exec (.bwait o) s = .next s) ∧
        (¬busy → g.Completes gid [] (exec (.bwait o) s) fun t _ => t.mem = s.mem ∧
          (o.q.ord = .acq → s.Acquired t cid o.q.scope (tgetD (s.core cid).tickets g.kept (0, false)).1 (tgetD (s.core cid).tickets g.kept (0, false)).2))))

/-- R280-R282, R289-R291, R293: GSUB waits for the group's accesses and its release, then reads its descriptor and answers the handle of the graph it enters, or
why it does not, in the group's own context or, where firmware submits what a host post named, in that post's (the model's reading, log 91); NREL
releases a manual node, of those that the model still remembers (log 64); FOLIO adds an entry to the group's list. An entry, a node or a graph with
a ROWS of 0 is malformed by the model's choice (log 48). -/
def Obligations.GraphInstructions : Prop :=
  ∀ (s : State) (gid : Nat) (g : Group) (o : Ctl), s.Issues gid g →
    let d := cidDom (gidCid gid)
    let asid := s.asidOf g
    (∀ (graph : Bool) (i : Instr), (graph = true ∧ i = .gsubGraph o) ∨ (graph = false ∧ i = .gsubNode o) →
      let us := [srcUse o.a 0 2 Perm.id]
      (g.park = .running → g.runMask o.hdr = 0 → s.Skips gid g (exec i s)) ∧
      (g.park = .running → g.runMask o.hdr ≠ 0 → g.useFault us (dstUse o.d 1) = none →
        let va := (g.readPair gid o.a.reg.toNat).toNat
        ∃ g', exec i s = .next (s.putGroup gid g') ∧ g.Waits us 1 g' ∧ g'.kept = va ∧ (s.groupEngine gid g').asid = (g.postAt va).getD asid) ∧
      (g.park = .wait 1 →
        (g.landed = true → s.banksDone gid = true → s.farDone gid (gidCid gid) .wafer = true → ∃ deps, exec i s = .next (s.putGroup gid { g with rel := some ⟨.wafer, 0, deps⟩, park := .wait 2 })) ∧
        (g.landed = false ∨ s.banksDone gid = false ∨ s.farDone gid (gidCid gid) .wafer = false → exec i s = .next s)) ∧
      (g.park = .wait 2 ∧ g.rel = none ∨ g.park = .xlat ∧ g.pagesWait = false → ∀ (t : State) (colq : Nat) (specs : Option (List NodeSpec)), s.Described gid g graph g.kept t colq specs →
        let asid := (s.groupEngine gid g).asid
        let gives := fun (w : Word) (more : State → Prop) => g.Completes gid [] (exec i s) fun u g' => g'.folios = [] ∧ g.Gets g' o.d [w] ∧ more u
        let held := fun (p : Node → Bool) => (t.nodes.filter fun (_, n) => n.held && p n).length
        (specs = none → gives 0x80000000 fun u => u.nodes = t.nodes) ∧
        (∀ xs c, specs = some xs → t.ctx asid = some c →
          let dccBad := ∃ x ∈ xs, x.kind = 1 ∧ 63 < x.dom
          let full := Config.spineNodes < held (fun _ => true) + xs.length ∨ Config.contextNodes < held (fun n => n.asid == asid) + xs.length
          (dccBad → gives 0xC0000000 fun u => u.nodes = t.nodes) ∧
          (¬dccBad → full → gives 0x40000000 fun u => u.nodes = t.nodes) ∧
          (¬dccBad → ¬full → ∃ h, h < 65536 ∧ gives (BitVec.ofNat 32 h) fun u => ∀ (k : Nat) (x : NodeSpec), k < 2 ^ 16 → xs[k]? = some x →
            ∃ n, tget u.nodes (2 ^ 32 * asid + 2 ^ 16 * h + k) = some n ∧ n.asid = asid ∧ n.graph = h ∧ n.index = k ∧ n.kind = x.kind ∧ n.stream = x.stream ∧
              n.folios = x.folios ∧ n.colq = colq ∧ n.origin = d ∧ n.launchVa = x.launch ∧ n.args = x.args ∧ n.st = .waiting ∧
              (n.manual = true ↔ x.flags.testBit 0 = true) ∧ (n.quiet = true ↔ x.flags.testBit 1 = true))))) ∧
    (g.runMask o.hdr = 0 → s.Skips gid g (exec (.nrel o) s) ∧ s.Skips gid g (exec (.folio o) s)) ∧
    (g.runMask o.hdr ≠ 0 → g.useFault [srcUse o.a 0 1 Perm.id] (dstUse o.d 1) = none →
      let nid := 2 ^ 32 * asid + (g.readScal gid o.a.reg.toNat).toNat
      let gives := fun (w : Word) (more : State → Prop) => g.Completes gid [srcUse o.a 0 1 Perm.id] (exec (.nrel o) s) fun u g' => g.Gets g' o.d [w] ∧ u.mem = s.mem ∧ more u
      (tget s.nodes nid = none → gives 3 fun u => u.nodes = s.nodes) ∧
      (∀ n, tget s.nodes nid = some n →
        (n.manual = false ∨ n.nrel = true ∨ n.st = .done true → gives 2 fun u => u.nodes = s.nodes) ∧
        (n.manual = true → n.nrel = false → n.st = .done false → gives 0 fun u =>
          (∃ n', tget u.nodes nid = some n' ∧ n'.st = .done true ∧ n'.nrel = true) ∧ ∀ p ∈ u.nodes, nid ∉ p.2.deps) ∧
        (n.manual = true → n.nrel = false → (∀ b, n.st ≠ .done b) → gives 1 fun u => tget u.nodes nid = some { n with nrel := true }))) ∧
    (g.runMask o.hdr ≠ 0 → g.useFault [srcUse o.a 0 4 Perm.id] (dstUse o.d 1) = none →
      let e := folioOf ((g.scalarBlock gid o.a 4).flatMap fun w => leBytes 4 w.toNat)
      (e = none ∨ 8 ≤ g.folios.length → exec (.folio o) s = .next (s.trapHere gid g 0x05 0)) ∧
      (∀ f, e = some f → g.folios.length < 8 → g.Completes gid [srcUse o.a 0 4 Perm.id] (exec (.folio o) s) fun t g' => t.mem = s.mem ∧ g'.folios = g.folios ++ [f] ∧
        s.InFour gid g g' o.d (BitVec.ofNat 32 (g.folios.length + 1))))

/-- R285, R292: the record at HEAD is given and HEAD moves on when its SEQ is HEAD + 1, else the empty result, each with PSN where a line of the queue is poisoned; EVWAIT tries, first at its
issue, until there is one or its time has passed. -/
def Obligations.EventQueues : Prop :=
  (∀ (s s1 s2 s3 s4 : State) (gid : Nat) (g : Group) (va : Nat) (p q : Places) (h b : List Byte) (fl1 fl2 : Flags),
    let d := cidDom (gidCid gid)
    let e := s.groupEngine gid g
    s.queuePlaces gid e g.learnt .atomic va 32 = (s1, p) → p.bad = none → p.ok = true → s1.placedRead d p va 32 = (s2, h, fl1) →
    let head := leVal (slice h 0x18 4)
    let at' := leVal (slice h 0 8) + 32 * (head &&& leVal (slice h 8 4))
    s2.queuePlaces gid e g.learnt .read at' 32 = (s3, q) → q.bad = none → q.ok = true → s3.placedRead d q at' 32 = (s4, b, fl2) →
    (leVal (slice b 0x1C 4) = (head + 1) % 2 ^ 32 →
      ∃ lat, s.popQueue gid g va = (s4.engineWriteBytes (bankDom d (p.pa (va + 0x18) / 64)) (p.pa (va + 0x18)) (leBytes 4 (head + 1)), .got (wordsOf b) lat (fl1 ||| fl2))) ∧
    (leVal (slice b 0x1C 4) ≠ (head + 1) % 2 ^ 32 → ∃ lat, s.popQueue gid g va = (s4, .empty lat (fl1 ||| fl2)))) ∧
  (∀ (s : State) (gid : Nat) (g : Group) (o : Ctl), s.Issues gid g →
    let run := g.runMask o.hdr
    let zeros := List.replicate 8 (0 : Word)
    let arrives := fun (ws : List Word) (g' : Group) => g.Sane → ∀ k, k < 8 → g'.stands (.scal (o.d.reg.toNat + k)) 0 = ws.getD k 0
    let us := srcUse o.a 0 2 Perm.id :: bopUse o.b 1
    let va := (g.readPair gid o.a.reg.toNat).toNat
    (g.pagesWait = false → run = 0 → s.Skips gid g (exec (.evpop o) s)) ∧
    (g.pagesWait = true → exec (.evpop o) s = .next s ∧ ∀ a, g.acc = some a → exec (.evwait o) s = .next s) ∧
    (g.pagesWait = false → run ≠ 0 → g.useFault [srcUse o.a 0 2 Perm.id] (dstUse o.d 8) = none →
      let ends := fun (ws : List Word) (fl : Flags) (sc : Option Scope) => g.Completes gid [srcUse o.a 0 2 Perm.id] (exec (.evpop o) s) fun _ g' => g.Gets g' o.d ws ∧
        ∀ v, g'.vres = g.vres ++ [v] → v.acq = sc ∧ v.lflags = [fl]
      let at' := if g.acc.isSome then g.kept else va
      (∀ t ws lat fl, s.popQueue gid g at' = (t, .got ws lat fl) → ends ws fl (some .wafer)) ∧
      (∀ t lat fl, s.popQueue gid g at' = (t, .empty lat fl) → ends zeros fl none)) ∧
    (g.acc = none → run = 0 → s.Skips gid g (exec (.evwait o) s)) ∧
    (g.acc = none → run ≠ 0 → g.useFault us (dstUse o.d 8) = none →
      (∀ t lat fl, s.popQueue gid g va = (t, .empty lat fl) → fl &&& flPsn = 0 → ∃ g', exec (.evwait o) s = .next (t.putGroup gid g') ∧ g.Waits us 1 g' ∧
        (g'.acc.map (·.ea)) = some [va, s.now, (g.bopWord gid o.b).toNat]) ∧
      (∀ t ws lat fl, s.popQueue gid g va = (t, .got ws lat fl) → fl &&& flPsn = 0 → ws.length = 8 → ∃ u g', exec (.evwait o) s = .next u ∧ u.group gid = some g' ∧
        u.mem = t.mem ∧ arrives ws g' ∧ g'.sched.issued = g.sched.issued + 1 ∧ g'.exm = g.exm ∧ g'.flags = g.flags ∧ g'.preds = g.preds ∧
        (g.NoLoopEnd → g'.pc = g.pc + 12) ∧
        (g.Sane → ∀ n l, l < 32 → g.killed us n = false → (∀ k, k < 8 → n ≠ .scal (o.d.reg.toNat + k)) → g'.stands n l = g.stands n l))) ∧
    (∀ a, g.acc = some a → g.pagesWait = false → ∀ t,
      (∀ ws lat fl, s.popQueue gid g g.kept = (t, .got ws lat fl) → fl &&& flPsn = 0 → ws.length = 8 → ∃ u g', exec (.evwait o) s = .next u ∧ u.group gid = some g' ∧
        u.mem = t.mem ∧ arrives ws g' ∧ g'.sched.issued = g.sched.issued + 1 ∧ g'.exm = g.exm ∧ g'.flags = g.flags ∧ g'.preds = g.preds ∧ (g.NoLoopEnd → g'.pc = g.pc + 12)) ∧
      (∀ lat fl, s.popQueue gid g g.kept = (t, .empty lat fl) → fl &&& flPsn = 0 → exec (.evwait o) s = .next (t.putGroup gid { g with park := .wait 1 })))) ∧
  (∀ (s : State) (gid : Nat) (g : Group) (o : Ctl) (a : Access), s.group gid = some g → g.park = .wait 1 → g.held = some (.evwait o) → g.acc = some a →
    g.halted = false → a.ea.getD 2 0 ≠ 0xFFFFFFFF → a.ea.getD 1 0 + a.ea.getD 2 0 ≤ s.now →
    ∃ u g', exec (.evwaitTimeout gid) s = .next u ∧ u.group gid = some g' ∧ u.mem = s.mem ∧ (o.hdr.sch.sw = false → g'.park = .running) ∧ g'.sched.issued = g.sched.issued + 1 ∧ g'.exm = g.exm ∧
      g'.preds = g.preds ∧ (g.NoLoopEnd → g'.pc = g.pc + 12) ∧
      (g.Sane → ∀ k, k < 8 → g'.stands (.scal (o.d.reg.toNat + k)) 0 = 0) ∧
      (g.Sane → ∀ n l, l < 32 → (∀ k, k < 8 → n ≠ .scal (o.d.reg.toNat + k)) → g'.stands n l = g.stands n l))

/-- R330-R333: CTXSUS and CTXRES refuse what they may not name, answer at once where nothing changes, and else set or clear the request reason
of the domains, their result to come; BUDGET sets the budgets of a context. -/
def Obligations.SuspendAndBudget : Prop :=
  ∀ (s : State) (gid : Nat) (g : Group) (o : Ctl), s.Issues gid g →
    let us := [srcUse o.a 0 4 Perm.id]
    let w := fun (k : Nat) => (g.readScal gid (o.a.reg.toNat + k)).toNat
    let q := g.asks gid o
    let asid := q.1
    let dcc := q.2.1
    let doms := q.2.2
    (g.runMask o.hdr = 0 → ∀ i ∈ [Instr.ctxsus o, .ctxres o, .budget o], s.Skips gid g (exec i s)) ∧
    (g.runMask o.hdr ≠ 0 → g.useFault us (dstUse o.d 1) = none →
      let gives := fun (i : Instr) (word : Word) => g.Completes gid us (exec i s) fun t g' => t.mem = s.mem ∧ t.ctxs = s.ctxs ∧ t.teams = s.teams ∧ g.Gets g' o.d [word]
      let answered := fun (i : Instr) (more : State → Prop) => g.Completes gid us (exec i s) fun t g' => t.mem = s.mem ∧ t.teams = s.teams ∧ more t ∧
        ∃ v ∈ g'.vres, v.kind = .info ∧ v.own = true ∧ v.dsts = [.scal o.d.reg.toNat] ∧ v.lanes = 1 ∧ v.ready = 1 ∧ lane (v.vals.getD 0 []) 0 = 0
      (∀ i ∈ [Instr.ctxsus o, .ctxres o],
        (2 ^ 17 ≤ w 0 ∨ w 3 ≠ 0 → exec i s = .next (s.trapHere gid g 0x05 0)) ∧
        (w 0 < 2 ^ 17 → w 3 = 0 → gidSlot gid ≠ 0 → asid ≠ s.asidOf g ∨ dcc = true → gives i 2)) ∧
      (w 0 < 2 ^ 17 → w 3 = 0 → gidSlot gid = 0 ∨ (asid = s.asidOf g ∧ dcc = false) →
        (s.ctx asid = none → gives (.ctxsus o) 3 ∧ gives (.ctxres o) 3) ∧
        (∀ c, s.ctx asid = some c →
          let fresh := doms.filter fun d => !c.req.contains d
          (fresh = [] → gives (.ctxsus o) 3) ∧
          (fresh ≠ [] → s.planImages asid (((fresh.filter fun d => !s.inDawn asid d).flatMap fun d => s.duskTeams asid d dcc) ++
              ((fresh.filter fun d => s.inDawn asid d).flatMap fun d => s.duskTeams asid d dcc)) = none → gives (.ctxsus o) 1) ∧
          (fresh ≠ [] → (∀ d ∈ fresh, s.teamsIn asid d = []) → answered (.ctxsus o) fun t => ∃ c', t.ctx asid = some c' ∧ c'.req = c.req ++ fresh) ∧
          ((∀ d ∈ doms, d ∉ c.req) → gives (.ctxres o) 3) ∧
          ((∃ d ∈ doms, d ∈ c.req) → (∀ d ∈ doms, s.teamsIn asid d = []) →
            answered (.ctxres o) fun t => ∃ c', t.ctx asid = some c' ∧ c'.req = c.req.filter fun d => !doms.contains d))) ∧
      (2 ^ 19 ≤ w 0 → exec (.budget o) s = .next (s.trapHere gid g 0x05 0)) ∧
      (w 0 < 2 ^ 19 →
        let wprio := (w 0).testBit 18
        let may := gidSlot gid = 0 ∨ (asid = s.asidOf g ∧ wprio = false ∧ ∃ c, s.ctx asid = some c ∧ c.expert.testBit 3 = true)
        let answers := fun (r : Word) (more : State → Prop) => g.Completes gid us (exec (.budget o) s) fun t g' => t.mem = s.mem ∧ s.InFour gid g g' o.d r ∧ more t
        (¬may → answers 1 fun t => t.ctxs = s.ctxs) ∧
        (may → s.ctx asid = none → answers 2 fun t => t.ctxs = s.ctxs) ∧
        (may → ∀ c, s.ctx asid = some c → answers 0 fun t =>
          t.ctx asid = some { c with bslots := w 1, bbytes := w 2, benergy := w 3, prio := if wprio then w 0 / 2 ^ 16 % 4 else c.prio })))

/-! The machine's own steps. -/

/-- R42, R68, R77, R78, R152, R175, R176: a variable result lands in its ready lanes with their flags, a part of a register's bytes alone, and the
group's own wakes its sleep; a parked instruction whose pages are released may issue again; a trap entry whose save area can be written goes on; a
retired group's slot and a finished team's storage are freed. -/
def Obligations.GroupSteps : Prop :=
  (∀ (s : State) (gid op : Nat) (lanes : LaneMask) (g : Group) (v : VRes) (m : Team), s.group gid = some g → g.vres.find? (·.id == op) = some v →
    s.team g.team = some m → m.sus.st = .present → m.gid g.idx = gid → v.quire = none → v.infl = 0 → v.acq = none → v.dsts.Nodup →
    (∀ d ∈ v.dsts, (∃ k, d = .vec k) ∨ ∃ k, d = .scal k) → v.due ≤ (if v.cl then s.cclk (gidCid gid) else s.now) →
    let at' := lanes &&& v.lanes &&& v.ready
    let fl := v.flagsAt at'
    at' ≠ 0 → fl &&& flPsn = 0 →
    ∃ t g', exec (.variableResultLand gid op lanes) s = .next t ∧ t.group gid = some g' ∧ t.mem = s.mem ∧ g'.pc = g.pc ∧ g'.exm = g.exm ∧ g'.preds = g.preds ∧ g'.cnt = g.cnt ∧
      g'.flags = g.flags ||| fl ∧ (v.own = true → g.halted = false → (∃ a b, g.park = .sleep a b) → g'.park = .running ∧ s.cclk (gidCid gid) + 1 ≤ g'.sched.notBefore) ∧
      (v.own = false ∨ g.halted = true ∨ (∀ a b, g.park ≠ .sleep a b) → g'.park = g.park) ∧
      (v.lanes &&& ~~~at' = 0 → ∀ x ∈ g'.vres, x.id ≠ op) ∧ (v.lanes &&& ~~~at' ≠ 0 → ∃ x ∈ g'.vres, x.id = op ∧ x.lanes = v.lanes &&& ~~~at') ∧
      (g.Sane →
        (∀ (i : Nat) d l, v.dsts[i]? = some d → l < 32 → at'.getLsbD l = true → ((∃ k, d = .scal k) → l = 0) →
          g'.stands d l = match v.part with
            | none => lane (v.vals.getD i []) l
            | some (o, n) => patchWord (g.heldLane d l) o (slice (leBytes 4 (lane (v.vals.getD i []) l).toNat) o n)) ∧
        ∀ n l, l < 32 → n ∉ v.dsts ∨ at'.getLsbD l = false → g'.stands n l = g.stands n l)) ∧
  (∀ (s : State) (gid : Nat) (g : Group) (a : Access), s.group gid = some g → g.acc = some a → a.parked = true → g.halted = false →
    let pages := a.pages ++ (lanesOf a.todo).map fun l => pageOf (a.ea.getD l 0)
    let asid := a.ctx.getD (s.asidOf g)
    ((∀ p ∈ pages, s.faulting (gidCid gid / 145) asid p = false) →
      exec (.instructionReplay gid) s = .next (s.putGroup gid { g with park := .running, acc := some { a with parked := false, xl := [], walks := [] } })) ∧
    ((∃ p ∈ pages, s.faulting (gidCid gid / 145) asid p = true) → exec (.instructionReplay gid) s = .next s)) ∧
  (∀ (s : State) (gid : Nat) (g : Group) (r : TrapReq) (k : Nat), s.group gid = some g → g.park = .entry r k →
    (s.entryReady gid g = true → exec (.trapEntry gid) s = .next (s.takeTrap gid r)) ∧ (s.entryReady gid g = false → exec (.trapEntry gid) s = .next s)) ∧
  (∀ (s : State) (gid : Nat) (g : Group) (m : Team), s.group gid = some g → s.team g.team = some m → g.retired = true → g.vres = [] → g.mq = [] → g.halted = false →
    (∀ w ∈ s.work, ∀ c, w.job = .copy c → c.team ≠ g.team ∨ c.kind ≠ .reg) →
    ∃ t, exec (.groupSlotFree gid) s = .next t ∧ t.groups = tdel s.groups gid ∧ t.team g.team = some { m with slots := m.slots.set g.idx noSlot } ∧ t.mem = s.mem) ∧
  (∀ (s : State) (tid : Nat) (m : Team), s.team tid = some m → s.teamFreeable tid m = true →
    ((∃ x ∈ m.slots, x ≠ noSlot) →
      exec (.teamResourcesFree tid) s =
        .next ((s.leaveCluster tid m.cluster).putTeam tid { m with spGran := 0, spBytes := 0, spad := [], spDesc := [], bad := [], bars := List.replicate 16 {} })) ∧
    (∀ c, tget s.clusters m.cluster = some c → c.teams = [tid] → (s.hc c.hcid).holder = some m.cluster →
      ∃ t, exec (.teamResourcesFree tid) s = .next t ∧ t.clusters = tdel s.clusters m.cluster ∧ (t.hc c.hcid).holder = none ∧ (t.hc c.hcid).slots = [] ∧
        (t.hc c.hcid).bstore = []) ∧
    ((∀ x ∈ m.slots, x = noSlot) → ∃ t, exec (.teamResourcesFree tid) s = .next t ∧ t.teams = tdel s.teams tid ∧ t.groups = s.groups ∧
      ∀ c, tget s.clusters m.cluster = some c → c.teams = [tid] →
        t.clusters = tdel s.clusters m.cluster ∧ ((s.hc c.hcid).holder = some m.cluster → (t.hc c.hcid).holder = none ∧ (t.hc c.hcid).slots = [] ∧ (t.hc c.hcid).bstore = [])))

/-- R166, R167, R275, R278, R279, R283-R288, R293, R327: what becomes of a node from readiness over its placement and its teams' start to its
completion, and the records that wait for their queue. By the model's reading or choice, TEAMS that is 0 or no multiple of CW x CH gives STATUS 1 (log
48), a queue that cannot be read or written keeps its record (log 28), NODE_COMPLETE releases core by core (log 64), and the fields of a launched
group that R167 does not name are 0 (log 2). -/
def Obligations.NodeSteps : Prop :=
  (∀ (s : State) (nid : Nat) (n : Node), tget s.nodes nid = some n → n.st = .waiting → n.deps = [] →
    let empty := fun (s t : State) (k : Nat) => t = s.modNode nid fun n => { n with st := .running, teams := 0, status := k, started := s.now }
    (n.kind = 2 → ∃ t, exec (.nodeReady nid) s = .next t ∧ empty s t 0) ∧
    (n.kind ≠ 2 → (∀ p ∈ rangeOf n.launchVa 64, s.faulting n.origin n.asid p = false) → ∀ s1 p, s.placesOf (State.launchEngine n) .read n.launchVa 64 = (s1, p) →
      (p.bad ≠ none → ∃ t, exec (.nodeReady nid) s = .next t ∧ empty s1 t 1) ∧
      (p.bad = none → p.absent ≠ [] → exec (.nodeReady nid) s = .next s1) ∧
      (p.bad = none → p.absent = [] → ∀ s2 b fl, s1.placedRead n.origin p n.launchVa 64 = (s2, b, fl) →
        let l := launchOf b
        let whole := launchOk (n.kind == 1) b = true ∧ (n.kind = 0 → n.teams % (l.cw * l.ch) = 0)
        (¬whole → ∃ t, exec (.nodeReady nid) s = .next t ∧ empty s2 t 1) ∧
        (whole → n.kind = 0 → s2.everFits l = false → ∃ t, exec (.nodeReady nid) s = .next t ∧ empty s2 t 2) ∧
        (whole → (n.kind = 0 → s2.everFits l = true) →
          exec (.nodeReady nid) s = .next (s2.modNode nid fun n => { n with st := .ready s2.now, launch := some l }))))) ∧
  (∀ (s : State) (nid : Nat) (n : Node) (l : Launch) (d c : Nat) (sites : List Nat) (since k : Nat), tget s.nodes nid = some n → n.kind = 0 → n.launch = some l →
    (n.st = .ready since ∧ k = 0 ∨ n.st = .placing since k) → s.placeChoice n = some (d, c, sites) →
    let h := 12 * d + c
    let wh := l.cw * l.ch
    (l.accn ≠ 0 → (∃ x, (s.hc h).holder = some x) → (s.hc h).wantSlot = false →
      ∃ t, exec (.clusterPlacement nid) s = .next t ∧ (t.hc h).wantSlot = true ∧ t.nodes = s.nodes ∧ t.teams = s.teams ∧ ∃ w ∈ t.work, w.job = .accSave h false) ∧
    (l.accn = 0 ∨ (s.hc h).holder = none →
      ∃ t cl, exec (.clusterPlacement nid) s = .next t ∧ t.mem = s.mem ∧ t.groups = s.groups ∧ cl = s.uid ∧
        (∃ C, tget t.clusters cl = some C ∧ C.nid = nid ∧ C.asid = n.asid ∧ C.hcid = h ∧ C.w = l.cw ∧ C.h = l.ch ∧ C.accFirst = l.accf ∧ C.accCount = l.accn ∧ C.index = k ∧
          C.teams = (List.range wh).map (cl + 1 + ·) ∧ ∀ b ∈ C.bars, b = {}) ∧
        (∀ (q x : Nat), sites[q]? = some x → ∃ T, t.team (cl + 1 + q) = some T ∧ T.cid = 145 * d + x ∧ T.nid = nid ∧ T.asid = n.asid ∧ T.index = k * wh + q ∧ T.place = q ∧
          T.cluster = cl ∧ T.entry = l.entry ∧ T.launched = 0 ∧ T.spad = [] ∧ T.bars = List.replicate 16 {}) ∧
        (∀ q, q < wh → (s.now, Instr.teamStart (cl + 1 + q)) ∈ t.agenda) ∧
        (∃ n', tget t.nodes nid = some n' ∧ (n'.st = if (k + 1) * wh < n.teams then .placing since (k + 1) else .running) ∧ n'.teams = n.teams ∧ n'.launch = some l) ∧
        (l.accn ≠ 0 → (t.hc h).holder = some cl ∧ (t.hc h).slots = [] ∧ (t.hc h).bstore = [] ∧ (t.hc h).bdesc = []))) ∧
  (∀ (s t : State) (tid nid cid : Nat) (i : Instr) (n : Node) (l : Launch) (slots : List Nat),
    ((∃ m a, i = .teamStart tid ∧ s.team tid = some m ∧ m.nid = nid ∧ m.cid = cid ∧ m.launched = 0 ∧ m.spad = [] ∧ s.allot cid l = some a ∧ slots = a.slots) ∨
      ∃ k, i = .dccProgramStart nid ∧ n.kind = 1 ∧ (s.poolKey n).isSome = true ∧ s.bufferRoom n.asid n.dcc = true ∧ s.dccSlot n.dcc = some k ∧ cid = 145 * n.dcc + 144 ∧ slots = [k] ∧ tid = s.uid) →
    tget s.nodes nid = some n → n.launch = some l → exec i s = .next t →
    ∃ m, t.team tid = some m ∧ m.cid = cid ∧ m.slots = slots ∧ m.launched = l.groups ∧ m.spBytes = l.scratch ∧ m.spad = [] ∧
      t.mem = s.mem ∧ ∀ (j slot : Nat), slots[j]? = some slot → ∃ g, t.group (64 * cid + slot) = some g ∧ g.team = tid ∧ g.idx = j ∧ g.pc = BitVec.ofNat 48 l.entry ∧
        g.exm = (if isDcc cid then 1 else 0xFFFFFFFF) ∧ (∀ x, x < 32 → g.cntOf x = 0) ∧ (∀ x, x < 7 → g.predMask x = 0) ∧ g.flags = 0 ∧ g.replay = 0 ∧ g.level = false ∧
        g.xtimeout = 0x10000 ∧ g.gsize = l.regs ∧ (∀ x, (g.loop x).live = false) ∧ (∀ r, g.bankLanes (.vec r) = zeroLanes) ∧ g.results = [] ∧ g.vres = [] ∧ g.cc = [0, 0, 0, 0] ∧
        g.tsa = BitVec.ofNat 64 (l.tsa + 1024 * (32 * m.index + j)) ∧
        (0 < l.sregs → g.bankLanes (.scal 0) = [BitVec.ofNat 32 n.args] ∧ g.bankLanes (.scal 1) = [BitVec.ofNat 32 (n.args / 2 ^ 32)]) ∧
        (∀ r, 2 ≤ r → g.bankLanes (.scal r) = [0])) ∧
  (∀ (s : State) (tid nid : Nat) (m : Team) (n : Node) (l : Launch), s.team tid = some m → m.nid = nid → tget s.nodes nid = some n → n.launch = some l →
    (m.launched = 0 → (s.allot m.cid l).isSome = true → ∃ t, exec (.teamStart tid) s = .next t ∧ ∃ m', t.team tid = some m' ∧ m'.launched = l.groups) ∧
    (n.kind = 1 → (s.poolKey n).isSome = true → s.bufferRoom n.asid n.dcc = true → (s.dccSlot n.dcc).isSome = true →
      ∃ t n', exec (.dccProgramStart nid) s = .next t ∧ tget t.nodes nid = some n' ∧ n'.st = .running ∧ n'.place = n.dcc)) ∧
  (∀ (s : State) (nid : Nat) (n : Node), tget s.nodes nid = some n →
    (n.st = .running → s.nodeOver nid n = true →
      exec (.nodeComplete nid) s = .next (s.modNode nid fun n => { n with st := .releasing 0 (n.cores.flatMap s.coreDeps) })) ∧
    (∀ deps, n.st = .releasing 0 deps → s.allDone deps = true → ∃ t deps', exec (.nodeComplete nid) s = .next t ∧ tget t.nodes nid = some { n with st := .releasing 1 deps' } ∧ t.mem = s.mem) ∧
    (∀ deps, n.st = .releasing 1 deps → s.allDone deps = true → (∀ c ∈ n.cores, s.acksDone (c / 145) = true) → (∀ d ∈ n.banks, s.acksDone d = true) →
      let free := n.manual = false ∨ n.nrel = true
      ∃ t n', exec (.nodeComplete nid) s = .next t ∧ tget t.nodes nid = some n' ∧ n'.st = .done (!(n.manual && !n.nrel)) ∧
        (free → ∀ p ∈ t.nodes, nid ∉ p.2.deps) ∧ (n.quiet = true → t.mem = s.mem ∧ ∀ d, (t.dom d).held = (s.dom d).held))) ∧
  (∀ (s : State) (d : Nat),
    (∀ c cs t, s.firstHeld d = c :: cs → s.appendRecord d c.asid (s.queueOf c) c.body = (t, true) →
      exec (.colophonRetry d) s = .next (t.modDom d fun x => { x with held := x.held.erase c })) ∧
    (s.firstHeld d = [] → exec (.colophonRetry d) s = .next s) ∧
    (∀ (asid : Nat) (va : BitVec 64) (c : Ctx), s.ctx asid = some c → d < 64 → va ≠ 0 →
      ∃ t c', exec (.defqWrite asid d va) s = .next t ∧ t.ctx asid = some c' ∧ tgetD c'.defq d 0 = va.toNat ∧ (∀ e, e ≠ d → tgetD c'.defq e 0 = tgetD c.defq e 0) ∧
        c' = { c with defq := c'.defq } ∧ t = s.putCtx asid c') ∧
    (∀ (w : Word), (s.dom d).evBusy = false →
      let rec' := patch (s.dom d).evRec 28 (leBytes 4 w.toNat)
      ∀ t ok, (s.modDom d fun x => { x with evRec := rec' }).appendRecord d (s.dom d).evAsid (s.dom d).qhdr (slice rec' 0 28) = (t, ok) →
        (ok = true → exec (.evpostWrite d w) s = .next (t.modDom d fun x => { x with evFull := false })) ∧
        (ok = false → t.queueWaits d (s.dom d).evAsid (s.dom d).qhdr = false → exec (.evpostWrite d w) s = .next (t.modDom d fun x => { x with evFull := true })))) ∧
  (∀ (s s1 s2 : State) (d asid hdr : Nat) (body h : List Byte) (ok : Bool), hdr ≠ 0 → s.hwRead d asid hdr 32 = (s1, some h) →
    let ring := leVal (slice h 0 8)
    let mask := leVal (slice h 8 4)
    let tail := leVal (slice h 16 4)
    let head := leVal (slice h 24 4)
    (mask < (tail + 2 ^ 32 - head) % 2 ^ 32 → s.appendRecord d asid hdr body = (s1, false)) ∧
    ((tail + 2 ^ 32 - head) % 2 ^ 32 ≤ mask → s1.hwWrite d asid (ring + 32 * (tail &&& mask)) (body ++ leBytes 4 (tail + 1)) = (s2, ok) →
      s.appendRecord d asid hdr body = if ok then s2.hwWrite d asid (hdr + 16) (leBytes 4 (tail + 1)) else (s2, false)))

/-- R270-R273, R316: a walk's outcome reaches the instruction that asked, or raises one fault for its page; REPLAY ends the fault its token names; a
held record is appended when the ring has room; an invalidation leaves no translation of its range, and DONE is set when the accesses before it are
performed. That GO reads 0 from its write on, with DONE clear until every invalidation begun is done, is the model's reading (log 42). -/
def Obligations.TranslationSteps : Prop :=
  (∀ (s s1 : State) (id due : Nat) (w : WalkReq) (x : Xlat), s.findWork id = some ⟨id, due, .walk w, none⟩ → w.place ≠ .waiting → due ≤ s.now →
    (if w.place == .held then (s.delWork id).nextWalk w.dom else s.delWork id).lookPage w = (s1, x) →
    (x ≠ .absent → ∀ gid g a, w.gid = some gid → s1.group gid = some g → (∀ k, g.park ≠ .fetch k) → g.acc = some a → id ∈ a.walks →
      exec (.pageWalk id) s = .next (s1.putGroup gid { g with acc := some { a with walks := a.walks.filter (· != id), xl := tput a.xl w.page x } })) ∧
    (x = .absent → w.gid = none → w.quiet = false → ∃ t, exec (.pageWalk id) s = .next t ∧ t.faulting w.dom w.asid w.page = true) ∧
    (∀ pa wr nx pr gid g, x = .ok pa wr nx pr → w.gid = some gid → s1.group gid = some g → g.park = .fetch id →
      exec (.pageWalk id) s = .next (s1.putGroup gid { g with park := .running }))) ∧
  (∀ (s : State) (d : Nat) (token : BitVec 64),
    ((∀ f ∈ (s.dom d).faults, f.token ≠ token.toNat) → exec (.replay d token) s = .next s) ∧
    (∀ f, (s.dom d).faults.find? (fun f => f.token == token.toNat) = some f →
      (f.appended = true → ∃ t, exec (.replay d token) s = .next t ∧ (t.dom d).faults = (s.dom d).faults.filter (fun y => y.token != f.token) ∧ t.mem = s.mem ∧ t.groups = s.groups) ∧
      (f.appended = false → ∃ t, exec (.replay d token) s = .next t ∧ t.groups = s.groups ∧
        (t.dom d).faults = (s.dom d).faults.map fun y => if y.token = f.token then { y with released := true } else y))) ∧
  (∀ (s t : State) (d : Nat) (f : PageFault) (ok : Bool), s.recordNext d = some f → s.appendFault d f.asid f.record = (t, ok) →
    ∃ u, exec (.heldFaultRecordAppend d) s = .next u ∧
      (ok = true → f.released = false → (u.dom d).faults = (t.dom d).faults.map fun y => if y.token = f.token then { y with appended := true } else y) ∧
      (ok = true → f.released = true → (u.dom d).faults = (t.dom d).faults.filter fun y => y.token != f.token)) ∧
  (∀ (s : State) (i : Instr) (inv : TlbInv),
    (∃ a p n, i = .tlbcmdRange a p n ∧ inv = ⟨some a, p, some n, none⟩ ∨ i = .tlbcmdAsid a ∧ inv = ⟨some a, 0, none, none⟩ ∨ i = .tlbcmdAll ∧ inv = ⟨none, 0, none, none⟩ ∨
      i = .ctlbRange a p n ∧ inv = ⟨some a, p, some n, some a⟩ ∨ i = .ctlbAsid a ∧ inv = ⟨some a, 0, none, some a⟩) →
    ∃ t, exec i s = .next t ∧ t.mem = s.mem ∧ (∃ w ∈ t.work, w.job = .tlbInv inv) ∧
      (inv.ctlb = none → t.wafer.tlbcmd.getLsbD 0 = false ∧ t.wafer.tlbcmd.getLsbD 1 = false ∧ t.wafer = { s.wafer with tlbcmd := t.wafer.tlbcmd }) ∧
      (∀ a c, inv.ctlb = some a → s.ctx a = some c → ∃ c', t.ctx a = some c' ∧ c'.ctlb.getLsbD 0 = false ∧ c'.ctlb.getLsbD 1 = false ∧ c' = { c with ctlb := c'.ctlb }) ∧
      (∀ cid e p, e ∈ (t.core cid).tlb → e.vpn ≤ p → p < e.vpn + e.pages → inv.covers e.asid p = false) ∧
      (∀ d e p, e ∈ (t.dom d).tlb2 → e.vpn ≤ p → p < e.vpn + e.pages → inv.covers e.asid p = false)) ∧
  (∀ (s : State) (id due : Nat) (inv : TlbInv), s.findWork id = some ⟨id, due, .tlbInv inv, none⟩ → due ≤ s.now → s.jobBefore id inv.waits = false →
    (∀ p ∈ s.posted, inv.mine p.asid = true → id ≤ p.id) →
    ∃ t, exec (.tlbcmdDone id) s = .next t ∧
      ((∀ w ∈ s.work, w.id ≠ id → ∀ u, w.job = .tlbInv u → u.ctlb ≠ inv.ctlb) →
        (inv.ctlb = none → t.wafer.tlbcmd.getLsbD 1 = true) ∧ (∀ a, inv.ctlb = some a → (s.ctx a).isSome = true → ∃ c, t.ctx a = some c ∧ c.ctlb.getLsbD 1 = true)))

/-- R186, R192, R197, R249: L1CFG and DSMCFG set the size asked for, which is taken when no team is resident and no page maps the DSM; a core's time
reads on over a tick; the two phases of a wrap, and its sweep. That the wrap begins when every access the slice has served has landed, with its sweep
from 64 clocks after the acknowledgements on, is the model's choice (log 56), and that firmware's tables are walked to see whether a page maps the DSM
its reading (log 53). -/
def Obligations.SizesAndTime : Prop :=
  ∀ (s : State),
    (∀ (cid : Nat) (v : Word),
      let n := v.toNat % 32
      (10 ≤ n → n ≤ 24 → isDcc cid = false → exec (.l1cfg cid v) s = .next (s.putCore cid { s.core cid with l1cfg := n })) ∧
      (n < 10 ∨ 24 < n ∨ isDcc cid = true → exec (.l1cfg cid v) s = .next s)) ∧
    (∀ cid : Nat, ((s.core cid).l1cfg ≠ (s.core cid).l1size → (∀ p ∈ s.teams, p.2.cid = cid → p.2.sus.st = .absent) → (s.core cid).l1.Pairwise (fun x y => x.1 < y.1) →
        ∃ t, exec (.l1SizeChange cid) s = .next t ∧ t.mem = s.mem ∧ (t.core cid).l1size = (s.core cid).l1cfg ∧ (t.core cid).l1 = [] ∧
          ((∀ w ∈ s.work, ∀ r, w.job = .write r → r.core = cid → r.kind = .writeBack) → ∀ line x, s.l1 cid line = some x → x.dirty ≠ 0 → ∃ w ∈ t.work, ∃ r, w.job = .write r ∧ r.kind = .writeBack ∧ r.core = cid ∧ r.line = line ∧
            ∀ k, k < 64 → x.dirty.getLsbD (k / 4) = true → r.bytes.getD k none = some (x.data.getD k 0))) ∧
      ((s.core cid).l1cfg = (s.core cid).l1size ∨ (∃ p ∈ s.teams, p.2.cid = cid ∧ p.2.sus.st ≠ .absent) → exec (.l1SizeChange cid) s = .next s)) ∧
    (∀ (d : Nat) (v : Word),
      let n := v.toNat % 32
      (n ≤ 16 → exec (.dsmcfg d v) s = .next (s.putDom d { s.dom d with dsmcfg := n })) ∧ (16 < n → exec (.dsmcfg d v) s = .next s)) ∧
    (∀ d : Nat,
      ((s.dom d).dsmcfg ≠ (s.dom d).dsmsize → s.dsmMapped d = false → ∃ t, exec (.dsmSizeChange d) s = .next t ∧ (t.dom d).dsmsize = (s.dom d).dsmcfg ∧
        ∀ line, line < 2 ^ 42 → lineIsDsm line = true → lineHome line = d → t.sline d line = some (freshDsm (t.dom d).epoch)) ∧
      ((s.dom d).dsmcfg = (s.dom d).dsmsize ∨ s.dsmMapped d = true → exec (.dsmSizeChange d) s = .next s)) ∧
    (∀ cid : Nat, isDcc cid = false → (s.dom (cidDom cid)).wrapping = false →
      ∃ t, exec (.logicalTimeTick cid) s = .next t ∧ t.pts cid = s.pts cid ∧ t.mem = s.mem ∧ (0xFFFF < s.rawPts cid → (t.dom (cidDom cid)).wrapAsked = true)) ∧
    (∀ d : Nat,
      let x := s.dom d
      (x.wrapping = false → x.wrapAsked = true → x.sweepEnd = 0 → s.servedLanded d = true → ∃ t, exec (.domainWrap d) s = .next t ∧ (t.dom d).wrapping = true ∧
        (t.dom d).wrapAsked = false ∧ (t.dom d).sweepEnd = s.now + 64 ∧ t.mem = s.mem ∧ t.lines = s.lines ∧
        ∀ cid, (tget s.cores cid).isSome = true → cidDom cid = d → isDcc cid = false → t.wrapAcked cid = false ∧
          ((s.core cid).l1.Pairwise (fun x y => x.1 < y.1) → (t.core cid).l1 = [])) ∧
      (x.wrapping = false → s.servedLanded d = false → exec (.domainWrap d) s = .next s) ∧
      (∀ cid, cidDom cid = d → s.wrapAcked cid = true → s.pts cid = 0) ∧
      (x.wrapping = true → x.sweepEnd ≤ s.now → s.backsDone d = true → ∃ t, exec (.domainWrap d) s = .next t ∧ (t.dom d).wrapping = false ∧ (t.dom d).epoch = (!x.epoch) ∧ (t.dom d).wm = 0 ∧
        (t.dom d).tickBase = s.now ∧ (t.dom d).sweepEnd = s.now + 24576 ∧ t.lines = s.lines ∧
        ∀ cid, (tget s.cores cid).isSome = true → cidDom cid = d → isDcc cid = false → t.pts cid = 0) ∧
      (x.wrapping = false → x.sweepEnd ≠ 0 → x.sweepEnd ≤ s.now → ∃ t, exec (.epochSweepDone d) s = .next t ∧ (t.dom d).sweepEnd = 0 ∧ t.mem = s.mem ∧
        (∀ p ∈ t.lines, p.1 / 2 ^ 42 = d → p.2.epoch = x.epoch) ∧
        ∀ e line y, tget s.lines (lineKey e line) = some y → line < 2 ^ 42 → ∃ z, tget t.lines (lineKey e line) = some z ∧ z.data = y.data ∧ z.desc = y.desc ∧ z.st = y.st ∧
          (e ≠ d ∨ y.epoch = x.epoch → z = y) ∧ (e = d → y.epoch ≠ x.epoch → z.wts = 0 ∧ z.rts = 0)))

/-! The memory path, one step at a time. -/

namespace Sys2Proof.Machine

/-- Item id of the work in flight is this job; its time has come, and the test of its step is met. -/
def State.ServedBy (ready : State → Work → Bool) (s : State) (id : Nat) (j : Job) : Prop :=
  ∃ due, s.findWork id = some ⟨id, due, j, none⟩ ∧ due ≤ s.now ∧ ready s ⟨id, due, j, none⟩ = true

def State.Serves (s : State) (id : Nat) (j : Job) : Prop := State.ServedBy State.memReady s id j

/-- An item of this number is in flight with this job. -/
def State.Holds (s : State) (id : Nat) (j : Job) : Prop := ∃ w ∈ s.work, w.id = id ∧ w.job = j

/-- A write of the line sets no dirty bit (R274): the line is DSM, or its page's bit is set already, in another line. -/
def State.DirtyBefore (s : State) (line : Nat) : Prop :=
  lineIsDsm line = true ∨
    ∃ d o, targetOf (64 * line) = .dram d o ∧ line < 2 ^ 42 ∧
      let p := dirtyBit (s.dom d).dbmbase line
      p.1 / 64 < 2 ^ 42 ∧ p.1 / 64 ≠ line ∧ (s.newestByte p.1).getLsbD p.2 = true

/-- What DRAM gives of a line now: its bytes, with its descriptor poisoned where the code finds an uncorrectable error (R267). -/
def State.dramImg (s : State) (line : Nat) : LineImg :=
  let d := tgetD s.desc line Config.freshDesc
  ⟨memRead s.mem (64 * line) 64, if Config.memError s.freeUsed = 2 then poisonDesc d else d⟩

/-- The lanes of these requests have their values in result op of the group, as the image gives them. -/
def Group.Delivered (g : Group) (op : Nat) (dsts : Nat) (outs : List (Nat × List Word × Flags)) : Prop :=
  ∃ v ∈ g.vres, v.id = op ∧ v.waits = [] ∧
    ∀ l ws fl, (l, ws, fl) ∈ outs → l < 32 → (∀ x ∈ outs, x.1 = l → x = (l, ws, fl)) → v.ready.getLsbD l = true ∧ v.lflags.getD l 0 = fl ∧
      ∀ i, i < dsts → lane (v.vals.getD i []) l = ws.getD i 0

end Sys2Proof.Machine

/-- R154, R155, R163, R189-R195, R308, R311, R316: a lease and its fill, a read that L1 does not serve, a write at a slice with its stamp and its answer, an
atomic at its home, and the tickets of SC atomics. That a strong store's words reach the writer's L1 copy when the slice performs it, and not with the
acknowledgement, is the model's choice (log 109), as are one request for each line of an atomic and each lane of an SC one (log 51) and what errors
DRAM's codes find (log 17, log 60). -/
def Obligations.CoreRequestSteps : Prop :=
  ∀ (s : State) (id : Nat),
    (∀ cid line asid ro cls x, s.Serves id (.fill cid line asid ro cls) → s.sline (sliceOf cid line) line = some x →
      let d := sliceOf cid line
      let g := min 0xFFFF (max (s.stamps d x).2 (s.pts cid + s.leaseOf asid))
      ∃ t y, exec (.leaseGrant id) s = .next t ∧ t.mem = s.mem ∧ t.groups = s.groups ∧ t.Holds id (.l1fill cid line asid cls x.img (s.stamps d x).1 g) ∧
        t.sline d line = some y ∧ y.data = x.data ∧ y.desc = x.desc ∧ y.st = x.st ∧ y.wts = (s.stamps d x).1 ∧ y.rts = g) ∧
    (∀ cid line asid cls img wts rts, s.Serves id (.l1fill cid line asid cls img wts rts) → img.data.length = 64 → (∀ m ∈ (s.core cid).small, m.fill ≠ id) →
      ∃ t y, exec (.l1Fill id) s = .next t ∧ t.findWork id = none ∧ t.l1 cid line = some y ∧ y.valid = 0xFFFF ∧ y.desc = img.desc ∧ y.wts = wts ∧ y.rts = rts ∧ (s.l1 cid line = none → y.cls = cls) ∧
        (∀ k, k < 64 → y.data.getD k 0 = match s.l1 cid line with
          | some x => if x.dirty.getLsbD (k / 4) then x.data.getD k 0 else img.data.getD k 0
          | none => img.data.getD k 0) ∧
        (isDcc cid = false → (s.dom (cidDom cid)).wrapping = false → wts ≤ 0xFFFF → t.pts cid = max (s.pts cid) wts) ∧
        ∀ gid g v, s.groups.Pairwise (fun a b => a.1 < b.1) → s.group gid = some g → gidCid gid = cid → g.vres.filter (·.id == v.id) = [v] → v.fill = id → v.waits ≠ [] →
          ∃ g', t.group gid = some g' ∧ g'.Delivered v.id v.vals.length (loadLanes ⟨y.data, y.desc⟩ v.waits)) ∧
    (∀ r img g v, s.Serves id (.read r) → lineIsFar r.line = false → s.l1 r.core r.line = none → s.group r.gid = some g → g.vres.filter (·.id == r.op) = [v] →
      (let wide := r.bypass = true ∨ 2 ≤ scopeNum r.scope
       let copies := r.ro = true ∧ r.str = true ∧ lineHome r.line ≠ cidDom r.core
       let h := lineHome r.line
       (lineIsDsm r.line = true ∧ ∃ x, s.sline h r.line = some x ∧ img = x.img) ∨
        (lineIsDsm r.line = false ∧ ∃ x, s.sline (cidDom r.core) r.line = some x ∧ (¬wide ∨ x.st ≠ .s) ∧ img = x.img) ∨
        (lineIsDsm r.line = false ∧ wide ∧ s.owner r.line = none ∧ s.homeBusy r.line = false ∧ (∀ x, s.sline (cidDom r.core) r.line = some x → x.st = .s) ∧
          (copies → (s.sline (cidDom r.core) r.line).isSome = true) ∧
          ((∃ x, s.sline h r.line = some x ∧ img = x.img) ∨ (s.sline h r.line = none ∧ img = s.dramImg r.line)))) →
      ∃ t g', exec (.waferScopeRead id) s = .next t ∧ t.findWork id = none ∧ t.mem = s.mem ∧
        (∀ e l, (t.sline e l).map (fun x => { x with used := 0 }) = (s.sline e l).map (fun x => { x with used := 0 })) ∧ t.group r.gid = some g' ∧
        g'.Delivered r.op v.vals.length (loadLanes img r.lanes)) ∧
    (∀ r x, s.Serves id (.write r) → r.rel = none → lineIsFar r.line = false → s.canWrite r.dom r.line = true → s.DirtyBefore r.line →
      s.sline r.dom r.line = some x → s.stampPast r.dom r.line (if hasTime r.core r.dom then some r.core else none) = false →
      let rts := (s.stamps r.dom x).2
      let w := max (s.pts r.core) (rts + 1)
      let whole := fun (j : Nat) => ∀ i, i < 4 → (r.bytes.getD (4 * j + i) none).isSome = true ∧ r.newest.getD (4 * j + i) false = true
      ∃ t y, exec (.sliceWrite id) s = .next t ∧ t.mem = s.mem ∧ t.groups = s.groups ∧ t.sline r.dom r.line = some y ∧ y.st = .m ∧ y.data = patchMask x.data r.bytes ∧ y.desc = r.desc.getD x.desc ∧
        (hasTime r.core r.dom = true → r.kind ≠ .writeBack → ∀ x0, s.l1 r.core r.line = some x0 → x0.data.length = 64 →
          ∃ z, t.l1 r.core r.line = some z ∧ z.wts = w ∧ z.rts = min 0xFFFF (w + s.leaseOf r.asid) ∧ z.desc = r.desc.getD x0.desc ∧
            (∀ j, j < 16 → (z.valid.getLsbD j = true ↔ x0.valid.getLsbD j = true ∨ whole j) ∧ (z.dirty.getLsbD j = true ↔ x0.dirty.getLsbD j = true ∧ ¬whole j)) ∧
            ∀ k v, k < 64 → (r.bytes.getD k none = some v → r.newest.getD k false = true → x0.valid.getLsbD (k / 4) = true ∨ whole (k / 4) → z.data.getD k 0 = v) ∧
              (r.bytes.getD k none = none ∨ r.newest.getD k false = false ∨ ¬(x0.valid.getLsbD (k / 4) = true ∨ whole (k / 4)) → z.data.getD k 0 = x0.data.getD k 0)) ∧
        (hasTime r.core r.dom = true → y.wts = w ∧ y.rts = min 0xFFFF (w + s.leaseOf r.asid) ∧ t.Holds id (.wack r w (min 0xFFFF (w + s.leaseOf r.asid)))) ∧
        (hasTime r.core r.dom = false → y.wts = rts + 1 ∧ y.rts = rts ∧ rts + 1 ≤ (t.dom r.dom).wm ∧ t.Holds id (.wack r 0 0))) ∧
    (∀ r stamp rts, s.Serves id (.wack r stamp rts) → stamp ≤ 0xFFFF →
      ∃ t, exec (.writeBackAck id) s = .next t ∧ t.findWork id = none ∧ t.mem = s.mem ∧ t.groups = s.groups ∧ (isDcc r.core = false → (s.dom (cidDom r.core)).wrapping = false → t.pts r.core = max (s.pts r.core) stamp) ∧
        (r.kind ≠ .writeBack → t.l1 r.core r.line = s.l1 r.core r.line) ∧
        ∀ x, r.kind = .writeBack → s.l1 r.core r.line = some x → ∃ y, t.l1 r.core r.line = some y ∧ y.dirty = x.dirty &&& ~~~r.cleanWords ∧ (stamp ≠ 0 → y.wts = stamp ∧ y.rts = rts) ∧
          y.data = x.data ∧ y.valid = x.valid ∧ y.desc = x.desc) ∧
    (∀ a x g v, s.Serves id (.atomic a) → a.rel = none → lineIsFar a.line = false → s.l1 a.core a.line = none → s.atomicPlace a.line = true → s.DirtyBefore a.line →
      s.sline (lineHome a.line) a.line = some x → s.stampPast (lineHome a.line) a.line none = false → s.group a.gid = some g → g.vres.filter (·.id == a.op) = [v] →
      let r := atomApply a.kind (poisoned x.desc) x.data a.lanes
      ∃ t y g' q, exec (.nearBankAtomic id) s = .next t ∧ t.mem = s.mem ∧ t.sline (lineHome a.line) a.line = some y ∧ y.st = .m ∧ y.desc = x.desc ∧
        y.data = patchMask x.data (atomMask a.kind a.lanes r.1) ∧ y.wts = (s.stamps (lineHome a.line) x).2 + 1 ∧
        t.Holds id (.wack q y.wts 0) ∧ q.core = a.core ∧ q.line = a.line ∧ q.gid = a.gid ∧ t.group a.gid = some g' ∧ g'.Delivered a.op v.vals.length r.2) ∧
    ((s.wafer.ticketOut ≠ none → exec .scTicketGrant s = .next s) ∧
      ∀ i due wt a, s.ticketNext = some ⟨i, due, .atomic a, wt⟩ →
        a.sc = true ∧ a.ticket = none ∧ (∀ w ∈ s.work.takeWhile (fun w => w.id != i), ∀ b, w.job = .atomic b → b.sc = true → b.gid = a.gid → b.ticket ≠ none) ∧
        ∃ t, exec .scTicketGrant s = .next t ∧ t.mem = s.mem ∧ t.groups = s.groups ∧ t.wafer.ticketOut = some s.wafer.nextTicket ∧ t.wafer.nextTicket = s.wafer.nextTicket + 1 ∧
          t.Holds i (.atomic { a with ticket := some s.wafer.nextTicket }) ∧ ∀ w ∈ s.work, w.id ≠ i → w ∈ t.work)

/-- R193, R246-R248, R311-R314, R316: the directory's answers to a read and to a request for permission, which reads DRAM first where the home slice holds
nothing, the fill of a slice, the removal and hand-over of copies, and data that comes home. An invalidation takes S and E copies; a line that the
slice holds M, whose owner it has become since, and an R copy, which no directory entry names, stay (the model's choice for M, log 110). -/
def Obligations.DirectorySteps : Prop :=
  ∀ (s : State) (id : Nat), id < s.uid → (∀ p ∈ s.dirs, p.1 < 2 ^ 42) →
    (∀ d line ro, s.Serves id (.readShared d line ro) →
      (∀ o, s.owner line = some o → o ≠ d → ∃ t, exec (.readShared id) s = .next t ∧ t.Holds id (.forward line o d true ro) ∧ t.lines = s.lines ∧ t.dirs = s.dirs ∧ t.mem = s.mem) ∧
      (∀ x, s.owner line = none → d ≠ lineHome line → s.sline (lineHome line) line = some x →
        ∃ t, exec (.readShared id) s = .next t ∧ t.Holds id (.sliceFill d line (some x.img) (if ro then .r else .s)) ∧ t.owner line = none ∧
          (ro = false → line < 2 ^ 42 → s.dir line ≠ none ∨ (s.dirSetOf line).length < 16 → d ∈ t.sharers line ∧ (∀ e ∈ s.sharers line, e ∈ t.sharers line) ∧ ∃ y, t.sline (lineHome line) line = some y ∧ (lineIsDsm line = false → y.st = .s)))) ∧
    (∀ d line, s.Serves id (.writePerm d line) →
      (∀ o, s.owner line = some o → o ≠ d → ∃ t, exec (.writePermission id) s = .next t ∧ t.Holds id (.forward line o d false false) ∧ t.lines = s.lines ∧ t.dirs = s.dirs ∧ t.mem = s.mem) ∧
      (s.owner line = none → s.sline (lineHome line) line = none →
        ∃ t, exec (.writePermission id) s = .next t ∧ t.Holds id (.permRead d line) ∧ t.lines = s.lines ∧ t.dirs = s.dirs ∧ t.mem = s.mem)) ∧
    (∀ d line img, (s.Serves id (.writePerm d line) ∧ ∃ x, s.sline (lineHome line) line = some x ∧ img = x.img) ∨
        (s.Serves id (.permRead d line) ∧ s.sline (lineHome line) line = none ∧ img = s.dramImg line) →
      s.owner line = none → s.dir line ≠ none ∨ (s.dirSetOf line).length < 16 →
        ∃ t, exec (.writePermission id) s = .next t ∧ t.Holds id (.sliceFill d line (some img) .m) ∧ t.owner line = some d ∧ t.sharers line = [] ∧
          ∀ e ∈ s.sharers line, e ≠ d → ∃ w ∈ t.work, w.job = .inval line e d) ∧
    (∀ d line img st, s.Serves id (.sliceFill d line img st) → s.sline d line = none →
      let wm := ((s.roomFor d line).dom d).wm
      wm + 1 ≤ 0xFFFF ∨ (s.dom d).wrapping = true →
      (∀ im, img = some im → (st = .m ∧ s.owner line = some d) ∨ st = .r ∨ (st = .s ∧ d ∈ s.sharers line) →
        ∃ t y, exec (.sliceFill id) s = .next t ∧ t.findWork id = none ∧ t.sline d line = some y ∧ y.data = im.data ∧ y.desc = im.desc ∧ y.st = st ∧
          y.wts = min 0xFFFF (wm + 1) ∧ y.rts = min 0xFFFF (wm + 1)) ∧
      (img = none → lineHome line = d → s.owner line = none →
        ∃ t y, exec (.sliceFill id) s = .next t ∧ t.findWork id = none ∧ t.sline d line = some y ∧ y.img = s.dramImg line ∧ y.st = if s.dir line = none then .e else .s)) ∧
    (∀ line e w x, s.Serves id (.inval line e w) → s.lines.Pairwise (fun a b => a.1 < b.1) → lineIsDsm line = false → s.sline e line = some x →
      ∃ t, exec (.invalidation id) s = .next t ∧ t.Holds id (.invAck line e w) ∧ t.mem = s.mem ∧
        (x.st = .s ∨ x.st = .e → t.sline e line = none ∧ min 0xFFFF ((s.stamps e x).2 + 1) ≤ (t.dom e).wm) ∧ (x.st = .m ∨ x.st = .r → t.lines = s.lines)) ∧
    (∀ line e w, s.Serves id (.invAck line e w) → exec (.invalidationAck id) s = .next { s with work := s.work.filter fun x => x.id != id }) ∧
    (∀ line o q keep ro x, s.Serves id (.forward line o q keep ro) → s.owner line = some o → s.sline o line = some x →
      (keep = false → ∃ t, exec (.forward id) s = .next t ∧ t.Holds id (.sliceFill q line (some x.img) .m) ∧ t.owner line = some q ∧ t.sharers line = []) ∧
      (keep = true → q ≠ lineHome line → ∃ t, exec (.forward id) s = .next t ∧ t.Holds id (.sliceFill q line (some x.img) (if ro then .r else .s)) ∧ t.owner line = none ∧
        t.sharers line = (if ro then [o] else [o, q]) ∧ ∃ w ∈ t.work, w.job = .ownerWb line o x.img) ∧
      (keep = true → q = lineHome line → ∃ t, exec (.forward id) s = .next t ∧ t.Holds id (.ownerWb line o x.img) ∧ t.owner line = none ∧ t.sharers line = [o])) ∧
    (∀ line o x, s.Serves id (.recall line o) → s.lines.Pairwise (fun a b => a.1 < b.1) → lineIsDsm line = false → s.owner line = some o → s.sline o line = some x →
      ∃ t, exec (.recall id) s = .next t ∧ t.Holds id (.ownerWb line o x.img) ∧ t.sline o line = none ∧ t.mem = s.mem ∧ t.dirs = s.dirs) ∧
    (∀ line o img, s.Serves id (.ownerWb line o img) → s.owner line = some o → s.roomFor (lineHome line) line = s → s.DirtyBefore line →
      (s.dom (lineHome line)).wm + 1 ≤ 0xFFFF ∨ (s.dom (lineHome line)).wrapping = true →
      ∃ t y, exec (.ownerWriteBack id) s = .next t ∧ t.findWork id = none ∧ t.dirs = tdel s.dirs line ∧ t.sline (lineHome line) line = some y ∧ y.data = img.data ∧ y.desc = img.desc ∧ y.st = .m)

/-! Engines. -/

namespace Sys2Proof.Machine

/-- Nothing on its way to a slice is of this line. -/
def State.NothingLands (s : State) (line : Nat) : Prop :=
  ∀ w ∈ s.work, (∀ d im st, w.job ≠ .sliceFill d line im st) ∧ ∀ o im, w.job ≠ .ownerWb line o im

/-- No bandwidth cap and no budget holds requests of the core for the context (R355). -/
def State.Unmetered (s : State) (cid asid : Nat) : Prop :=
  isDcc cid = true ∨ ((s.hc (cidHcid cid)).clbw.toNat = 0 ∧ ∀ c, s.ctx asid = some c → c.bbytes = 0xFFFFFFFF)

/-- What a CPYOUT has taken in: each word of its pieces, with a clock of its writing that at' accepts and the place it is for. -/
def State.TookOut (s : State) (c : CopyReq) (m : Team) (f : Nat → Nat) (at' : Nat → Nat → Prop) (ps : List (Nat × Nat × Nat)) : Prop :=
  ∀ a b n, (a, b, n) ∈ ps → (a < 0x100000 → poisoned (m.spLineDesc (a / 64)) = false) →
    ∃ k, at' b k ∧ ∀ i, i < n / 4 → (k, a + 4 * i, f b + 4 * i, wordOf (leVal (slice (s.apertureRead m a n) (4 * i) 4))) ∈ c.moved

/-- The pages a CPYOUT's pieces go to are in the core TLB: global address b is at f b. -/
def State.OutPlaces (s : State) (c : CopyReq) (f : Nat → Nat) (ps : List (Nat × Nat × Nat)) : Prop :=
  ∀ p ∈ ps, ∃ ro, s.placeOf c.engine p.2.1 .write false false = (s, .at (f p.2.1) ro)

/-- The unit of a hardware cluster takes this operation next. -/
def State.Takes (s : State) (h : Nat) (transfer : Bool) (gid : Nat) (g : Group) (op : MOp) : Prop :=
  s.unitReady h transfer = true ∧ s.nextServed h transfer (if transfer then (s.hc h).xferAt.1 else (s.hc h).arrayAt.1) = some (gid, g) ∧ s.group gid = some g ∧
    s.unitOps gid g h transfer = [op]

/-- The operation's completion is to be recorded at a clock of its hardware cluster. -/
def State.EndsAt (t : State) (gid : Nat) (op : MOp) (clk : Nat) : Prop :=
  ∃ g', t.group gid = some g' ∧ ∃ o ∈ g'.mq, o.id = op.id ∧ o.acc = op.acc ∧ o.kind = op.kind ∧ o.started = true ∧ o.endAt = some clk

end Sys2Proof.Machine

/-- R200-R208, R252-R263, R353: the copy engine takes one flit of a copy in at a clock of its cluster, writes its words a line at a time as they arrive and counts the
copy down four clocks after the last of them, and goes on with a released page; a bank operation writes what R257-R261 compute, and its ticket completes with its flags.
That a bank operation is done whole at one clock, that pieces looked up again go before the next flit, and one flit a clock, are the model's choices
(log 52). VTOPK with k = 0 sets no flag by its choice (log 92). -/
def Obligations.CopyAndBankSteps : Prop :=
  (∀ (s : State) (id : Nat) (b : BankReq) (l : Nat) (x : SLine), State.ServedBy State.bankReady s id (.bank b) → b.rel = none → (b.kind = .vsmax → s.bankSnap b = b.snap ∧ b.raced = false) → b.later = [] →
    let out := s.bankCompute b
    lineIsDsm l = true → out.1 ≠ [] → (∀ p ∈ out.1, p.1 / 64 = l ∧ p.1 % 4 = 0) → (out.1.map (·.1)).Nodup → s.stampPast (lineHome l) l none = false →
    s.sline (lineHome l) l = some x → x.data.length = 64 →
    ∃ t y q far w, exec (.bankOperation id) s = .next t ∧ t.mem = s.mem ∧ (∀ n, n ≠ b.gid → t.group n = s.group n) ∧
      (∀ g, s.group b.gid = some g → t.group b.gid = some { g with bankAt := b.noted g.bankAt }) ∧ t.sline (lineHome l) l = some y ∧ y.st = .m ∧
      (∀ p ∈ out.1, slice y.data (p.1 % 64) 4 = leBytes 4 p.2.toNat) ∧
      (∀ k, k < 64 → (∀ p ∈ out.1, k < p.1 % 64 ∨ p.1 % 64 + 4 ≤ k) → y.data.getD k 0 = x.data.getD k 0) ∧
      t.Holds id (.bankDone q out.2 far w) ∧ q.gid = b.gid ∧ q.core = b.core ∧ q.seq = b.seq) ∧
  (∀ (s : State) (b : BankReq),
    let x := fun (i : Nat) => (s.bankWords b.x b.n).1.getD i 0
    (∀ v, b.kind = .bupd v → v.vec = false → (s.bankCompute b).1 = (List.range b.n).map fun i => (b.x + 4 * i, (bupdElem v.op (x i) b.p1 b.p2).1)) ∧
    (∀ op, b.kind = .bred op → (s.bankCompute b).1.map (·.1) = [b.y] ∧
      (b.n = 0 → (s.bankCompute b).1 = [(b.y, bredEmpty op)]) ∧ (b.n = 1 → (s.bankCompute b).1 = [(b.y, x 0)])) ∧
    (b.kind = .vtopk → b.n = 0 → ∀ j, j < b.p1.toNat → (b.y + 8 * j, (0x7FC00000 : Word)) ∈ (s.bankCompute b).1 ∧ (b.y + 8 * j + 4, (0xFFFFFFFF : Word)) ∈ (s.bankCompute b).1) ∧
    (b.kind = .vsamp → (f32 b.p1).isNan = true → (s.bankCompute b).1 = [(b.y, 0xFFFFFFFF), (b.y + 4, 0xFFFFFFFF)] ∧ (s.bankCompute b).2 &&& flInv = flInv)) ∧
  (∀ (s : State) (id : Nat) (b : BankReq) (fl : Flags) (far : Bool) (w : Nat), State.ServedBy State.bankPerformed s id (.bankDone b fl far w) →
    (b.kind = .vsmax → s.bankSnap b = b.snap) →
    ∃ t, exec (.bankTicketComplete id) s = .next t ∧ tget (t.core b.core).tickets b.seq = some (w, far) ∧
      ∀ g m, s.group b.gid = some g → g.team = b.team → s.team g.team = some m → m.inImage = false → fl &&& flPsn = 0 →
        t.findWork id = none ∧ t.mem = s.mem ∧ ∃ g', t.group b.gid = some g' ∧ g'.flags = g.flags ||| fl ∧ (g.halted = false → (∃ u v, g.park = .sleep u v) → g'.park = .running)) ∧
  (∀ (s : State) (cid id : Nat) (c : CopyReq) (m : Team) (f : Nat → Nat), s.copyNext cid = some (id, c) → c.kind = .cpyout → c.early = [] → s.Unmetered cid c.asid →
    s.team c.team = some m →
    let row : Int := if c.next % c.perRow = 0 then (c.next / c.perRow : Nat) else c.idx
    let ps := if c.again = [] then c.flit row c.next else c.again.take 2
    s.OutPlaces c f ps →
    ∃ t c', exec (.copyStart cid) s = .next t ∧ t.mem = s.mem ∧ t.groups = s.groups ∧ t.teams = s.teams ∧ t.Holds id (.copy c') ∧ c'.aside = c.aside ∧
      (t.core cid).copyAt = s.cclk cid + 1 ∧ (∀ x ∈ c.moved, x ∈ c'.moved) ∧
      (c.again = [] → c'.started = true ∧ c'.next = c.next + 1 ∧ (c.started = true → c'.lat = c.lat) ∧
        (c.started = false → c'.lat = (s.startLatency c ps).map (· + Config.extraDelay s.uid)) ∧
        s.TookOut c' m f (fun b k => s.now + c'.lat.getD (s.copyLatency c (f b / 64)) ≤ k ∧
          ∀ L, c'.lat = some L → (∀ x ∈ c.moved, x.1 ≤ s.now + L) → k = s.now + L) ps) ∧
      (c.again ≠ [] → c'.again = c.again.drop 2 ∧ c'.next = c.next ∧ s.TookOut c' m f (fun b k => s.now + s.copyLatency c (f b / 64) ≤ k) ps)) ∧
  (∀ (s : State) (id parent asid page due dp : Nat) (wt wp : Option Nat) (c : CopyReq), s.findWork id = some ⟨id, due, .copyResume parent asid page, wt⟩ → due ≤ s.now →
    parent ≠ id → s.findWork parent = some ⟨parent, dp, .copy c, wp⟩ → c.isDsm = false → c.asid = asid →
    s.faulting (cidDom c.core) c.asid page = false → s.engineWalks c.engine page = false →
    let page' := fun (p : Nat × Nat × Nat) => pageOf (if c.fromLocal then p.2.1 else p.1)
    ∃ t c', exec (.copyPageResume id) s = .next t ∧ t.mem = s.mem ∧ t.groups = s.groups ∧ t.findWork id = none ∧ t.Holds parent (.copy c') ∧ (∀ p ∈ c.again, p ∈ c'.again) ∧
      ∀ p ∈ c.aside, (page' p = page → p ∈ c'.again ∧ p ∉ c'.aside) ∧ (p ∈ c'.again ∨ p ∈ c'.aside) ∧ (s.faulting (cidDom c.core) c.asid (page' p) = true → p ∈ c'.aside)) ∧
  (∀ (s : State) (id : Nat) (c : CopyReq) (m : Team), State.ServedBy State.copyReady s id (.copy c) → s.team c.team = some m → m.sus.st = .present →
    (∀ l mask, c.written = none → s.copyDue c = some (l, mask) → c.kind = .cpyin ∨ c.kind = .gather → Canon 0 m.spad →
      let due := c.moved.filter fun (k, _, a, _) => decide (k ≤ s.now) && a / 64 == l
      (∀ p ∈ due, p.2.2.1 % 4 = 0) → (due.map (·.2.2.1)).Nodup →
      ∃ t m', exec (.copyComplete id) s = .next t ∧ t.mem = s.mem ∧ t.Holds id (.copy { c with moved := c.moved.filter fun (k, _, a, _) => !(decide (k ≤ s.now) && a / 64 == l) }) ∧
        t.team c.team = some m' ∧ (∀ p ∈ due, p.2.2.1 ∉ c.skip → m'.spBytesAt p.2.2.1 4 = leBytes 4 p.2.2.2.toNat) ∧
        ∀ o, (∀ p ∈ due, p.2.2.1 ∉ c.skip → o < p.2.2.1 ∨ p.2.2.1 + 4 ≤ o) → m'.spByte o = m.spByte o) ∧
    (c.written = none → s.copyDue c = none → c.drained = true ∧ s.copyPerformed id c = true ∧
      ∃ t, exec (.copyComplete id) s = .next t ∧ t.mem = s.mem ∧ t.groups = s.groups ∧ t.Holds id (.copy { c with written := some (s.cclk c.core + 4) })) ∧
    (∀ k, c.written = some k → k ≤ s.cclk c.core ∧ ∀ g, s.group c.gid = some g → g.team = c.team → m.gid g.idx = c.gid → c.psn = none → c.fault = none ∨ g.halted = false →
      ∃ t g', exec (.copyComplete id) s = .next t ∧ t.findWork id = none ∧ t.mem = s.mem ∧ t.group c.gid = some g' ∧ g'.cc = g.cc.set c.cc (g.cc.getD c.cc 0 - 1) ∧
        (c.fault = none → g'.pend = g.pend) ∧
        (∀ code va, c.fault = some (code, va) → (∀ p ∈ g.pend, p.code ≠ 0x11) → g'.pend = g.pend ++ [⟨0x11, code, va, g.sched.issued⟩])))

/-- R222, R223, R226-R229, R231, R233, R238: the array takes a sub-tile of an MMA, a clearing or a sum of accumulators, the transfer unit a line for
the B store; an operation completes and leaves its quire; one that waited for a page goes on. A sub-tile done whole at its start is the model's choice
(log 52), and the parking of an operation whose page is being walked its reading (log 83). -/
def Obligations.MatrixSteps : Prop :=
  (∀ (s : State) (h gid : Nat) (g : Group) (op : MOp) (n : Nat), s.Takes h false gid g op → op.kind = .mzero n → Canon 0 (s.hc h).slots →
    ∃ t, exec (.matrixSubtileStart h false) s = .next t ∧ t.mem = s.mem ∧ t.EndsAt gid op (s.hclk h + 32 * n + 3) ∧ (t.hc h).arrayBusy = s.hclk h + 32 * n ∧
      ∀ k i j, i < 256 → j < 256 → (t.hc h).acc k i j = if op.acc ≤ k ∧ k < op.acc + n then 0 else (s.hc h).acc k i j) ∧
  (∀ (s : State) (h gid : Nat) (g : Group) (op : MOp) (src : Nat), s.Takes h false gid g op → op.kind = .maccAdd src → Canon 0 (s.hc h).slots →
    ∃ t, exec (.matrixSubtileStart h false) s = .next t ∧ t.mem = s.mem ∧ t.EndsAt gid op (s.hclk h + 64 + 3) ∧ (t.hc h).arrayBusy = s.hclk h + 64 ∧
      ∀ k i j, i < 256 → j < 256 →
        (t.hc h).acc k i j = if k = op.acc then (laneFadd .f32 .rne Dst.zero ((s.hc h).acc op.acc i j) ((s.hc h).acc src i j)).1 else (s.hc h).acc k i j) ∧
  (∀ (s : State) (h gid : Nat) (g : Group) (op : MOp) (mode : MatMode) (aofs apitch m n k mofs : Nat) (base bp : Int) (tm : Team) (c : Cluster),
    s.Takes h false gid g op → op.kind = .mma mode none aofs apitch base false bp m n k mofs 0 → op.sub = 0 → op.step = 0 → op.early = [] →
    0 < m → m ≤ 256 → 0 < n → n ≤ 256 → 0 < k → s.team g.team = some tm → s.clusterOf g = some c → s.teamAt c tm.place = some (g.team, tm) → s.NoCopies g.team →
    Canon 0 (s.hc h).slots →
    let a := fun (i x : Nat) => let p := elemPlace (aofs + i * 64 * apitch) (modeWidths mode).1 x; matElem (acceptsA mode) (tm.spLine p.1) p.2
    let b := fun (x j : Nat) => let p := elemPlace (base + x * bp).toNat (modeWidths mode).2 j; matElem (acceptsB mode) ((s.hc h).bLine p.1) p.2
    let steps := match mode with
      | .f32 => 4 * k
      | .f16 => 2 * k
      | .f8 => k
      | .q4f8 => (k + 1) / 2
    let time := (if op.started then 0 else 260) + steps
    ∃ t, exec (.matrixSubtileStart h false) s = .next t ∧ t.mem = s.mem ∧ t.teams = s.teams ∧ t.EndsAt gid op (s.hclk h + time + 3) ∧ (t.hc h).arrayBusy = s.hclk h + time ∧
      ∀ z i j, i < 256 → j < 256 → (t.hc h).acc z i j =
        if z = op.acc ∧ i < m ∧ j < n then (sumElem ((s.hc h).acc z i j) ((List.range k).map fun x => (x, (a i x).1, (b x j).1, (a i x).2 ||| (b x j).2))).1
        else (s.hc h).acc z i j) ∧
  (∀ (s : State) (h gid : Nat) (g : Group) (op : MOp) (mode : MatMode) (sp : Option Nat) (aofs apitch m n k mofs cmask : Nat) (base bp : Int) (stream : Bool),
    s.Takes h false gid g op → op.kind = .mma mode sp aofs apitch base stream bp m n k mofs cmask → m = 0 ∨ n = 0 ∨ k = 0 →
    ∃ t, exec (.matrixSubtileStart h false) s = .next t ∧ t.mem = s.mem ∧ t.teams = s.teams ∧ t.EndsAt gid op (s.hclk h) ∧ (t.hc h).slots = (s.hc h).slots) ∧
  (∀ (s : State) (h gid : Nat) (g : Group) (op : MOp) (src bofs pa : Nat) (ro : Bool) (pitch : Int) (x : SLine), s.Takes h true gid g op → op.kind = .mldb src bofs 64 1 pitch → src < 2 ^ 48 →
    s.placeOf ⟨gidCid gid, s.asidOf g, g.priv, .mx⟩ src .read false false = (s, .at pa ro) → lineIsFar (pa / 64) = false → s.NothingLands (pa / 64) →
    s.sline (sliceOf (gidCid gid) (pa / 64)) (pa / 64) = some x → x.data.length = 64 → poisoned x.desc = false → Canon 0 (s.hc h).bstore → Canon Config.freshDesc (s.hc h).bdesc →
    ∃ t clk, exec (.matrixSubtileStart h true) s = .next t ∧ t.mem = s.mem ∧ t.EndsAt gid op clk ∧ (t.hc h).bLine (bofs / 64) = x.img ∧
      ∀ l, l ≠ bofs / 64 → (t.hc h).bLine l = (s.hc h).bLine l) ∧
  (∀ (s : State) (h : Nat) (transfer : Bool), s.unitReady h transfer = false → exec (.matrixSubtileStart h transfer) s = .next s) ∧
  (∀ (s : State) (id gid : Nat) (g : Group) (m : MOp) (tm : Team), s.findOp id = some (gid, g, m) → s.group gid = some g → s.opDone gid m = true →
    s.team g.team = some tm → tm.inImage = false → g.halted = false →
    ∃ t g', exec (.matrixOpComplete id) s = .next t ∧ t.mem = s.mem ∧ t.group gid = some g' ∧ g'.mq = g.mq.filter (·.id != id) ∧
      g'.sched.mxAt = s.hclk (cidHcid (gidCid gid)) + 1 ∧
      ((∃ u v, g.park = .sleep u v) → (∀ x ∈ g.mq, x.id ≠ id → x.quire ≠ m.quire) → (∀ v ∈ g.vres, v.quire ≠ some m.quire) → g.quireIssued m.quire = true →
        g'.park = .running) ∧
      (∀ code va, m.fault = some (code, va) → (∀ p ∈ g.pend, p.code ≠ 0x11) → ⟨0x11, code, va, g.sched.issued⟩ ∈ g'.pend) ∧
      ∀ fl, m.fault = none → g.quires = [⟨m.quire, true, fl⟩] → (fl ||| m.flags) &&& flPsn = 0 →
        (∀ x ∈ g.mq, x.id ≠ id → x.quire ≠ m.quire) → (∀ v ∈ g.vres, v.quire ≠ some m.quire) → g'.flags = g.flags ||| (fl ||| m.flags) ∧ g'.quires = []) ∧
  (∀ (s : State) (id gid : Nat) (g : Group) (m : MOp), s.findOp id = some (gid, g, m) → s.group gid = some g →
    (∀ p, m.parked = some p → s.faulting (cidDom (gidCid gid)) (s.asidOf g) p = false → s.engineWalks ⟨gidCid gid, s.asidOf g, g.priv, .mx⟩ p = false →
      ∃ t g', exec (.matrixFaultResume id) s = .next t ∧ t.mem = s.mem ∧ t.group gid = some g' ∧ g'.mq = g.mq.map fun x => if x.id == id then { m with looked := some p, parked := none } else x) ∧
    (s.opReleased gid g m = false → exec (.matrixFaultResume id) s = .next s))

/-! Suspension, the debug block, clocks and parts, security and links. -/

namespace Sys2Proof.Machine

/-- No team of the context is in these domains, and nothing else of it awaits an answer. -/
def State.Empty (s : State) (asid : Nat) (c : Ctx) (doms : List Nat) : Prop := c.asks = [] ∧ ∀ d ∈ doms, s.teamsIn asid d = []

/-- The team is halted and being saved at an address. -/
def State.Saving (t : State) (s : State) (tid shadow : Nat) (m : Team) : Prop :=
  (∃ m' n, t.team tid = some m' ∧ m'.sus.st = .saving n ∧ m'.sus.shadow = shadow ∧ m'.sus.start = s.now + 1) ∧
    ∀ i g, i < m.slots.length → s.group (m.gid i) = some g → ∃ g', t.group (m.gid i) = some g' ∧ g'.halted = true

end Sys2Proof.Machine

/-- R209-R211, R321, R322, R329-R332, R337-R343: CMD's suspension and resumption, the spine's own suspension and its end, a team's save, its arrivals
meanwhile, the image of its accumulators, and its dawn. By the model's reading or choice, a save waits for a group in trap entry (log 88), a
suspension starts in the clock after its request and an image is laid as log 19 says, a request in CMD is taken in the step of its write (log 49), and
an arrival goes to the image until the restore begins (log 59). -/
def Obligations.SuspensionSteps : Prop :=
  (∀ (s : State) (acc : MmioAcc) (asid : Nat) (dcc : Bool) (c : Ctx), s.ctx asid = some c →
    let doms := maskDoms c.cmdmask
    let fresh := doms.filter fun d => !c.req.contains d
    let stands := fun (st : Word) => s.putCtx asid { c with cmdDcc := dcc, cmdstat := st }
    (acc.priv = false → acc.asid ≠ asid ∨ dcc = true → exec (.cmdSuspend acc asid dcc) s = .next s ∧ exec (.cmdResume acc asid dcc) s = .next s) ∧
    (acc.priv = true ∨ (acc.asid = asid ∧ dcc = false) →
      (fresh = [] → ∃ t, exec (.cmdSuspend acc asid dcc) s = .next t ∧ t.ctx asid = (stands 3).ctx asid ∧ t.teams = s.teams) ∧
      (fresh ≠ [] → s.Empty asid c fresh → ∃ t, exec (.cmdSuspend acc asid dcc) s = .next t ∧ t.teams = s.teams ∧
        t.ctx asid = some { c with cmdDcc := dcc, cmdstat := 0, req := c.req ++ fresh }) ∧
      ((∀ d ∈ doms, d ∉ c.req) → ∃ t, exec (.cmdResume acc asid dcc) s = .next t ∧ t.ctx asid = (stands 3).ctx asid ∧ t.teams = s.teams) ∧
      ((∃ d ∈ doms, d ∈ c.req) → s.Empty asid c doms → ∃ t, exec (.cmdResume acc asid dcc) s = .next t ∧ t.teams = s.teams ∧
        t.ctx asid = some { c with cmdDcc := dcc, cmdstat := 0, req := c.req.filter fun d => !doms.contains d }))) ∧
  (∀ (s : State) (asid d nid : Nat),
    ((tget s.nodes nid).bind s.spineChoice ≠ some (asid, d) → exec (.spineSuspend asid d nid) s = .next s) ∧
    (∀ c plan, (tget s.nodes nid).bind s.spineChoice = some (asid, d) → s.ctx asid = some c → s.planImages asid (s.duskTeams asid d false) = some plan → (plan.map (·.1)).Nodup →
      ∃ t c', exec (.spineSuspend asid d nid) s = .next t ∧ t.mem = s.mem ∧ t.ctx asid = some c' ∧ c'.spine = c.spine ++ [(d, nid)] ∧
        ∀ p ∈ plan, ∀ m, s.team p.1 = some m → t.Saving s p.1 p.2 m)) ∧
  (∀ (s : State) (asid d : Nat) (c : Ctx) (e : Nat × Nat), s.ctx asid = some c → (c.spine.find? fun x => x.1 == d && s.spineOver asid d x.2) = some e →
    ∃ t c', exec (.spineReasonEnd asid d) s = .next t ∧ t.mem = s.mem ∧ t.ctx asid = some c' ∧ c'.spine = c.spine.filter (· != e) ∧ c'.req = c.req ∧
      (d ∉ c.req → (∀ x ∈ c.spine, x.1 = d → x = e) →
        ∀ tid m, s.team tid = some m → m.asid = asid → cidDom m.cid = d → isDcc m.cid = false → m.sus.st = .absent → ∃ m', t.team tid = some m' ∧ m'.sus.dawnAsked = true)) ∧
  (∀ (s : State) (tid : Nat) (m : Team), s.team tid = some m →
    (s.saveOver tid m = false → exec (.teamSaveComplete tid) s = .next s) ∧
    (m.sus.entry = none → s.inFlight tid m ≠ 0 → exec (.teamSaveComplete tid) s = .next s) ∧
    ((∃ i g a b, (i, g) ∈ s.teamGroups m ∧ g.park = .entry a b) → exec (.teamSaveComplete tid) s = .next s) ∧
    (s.saveOver tid m = true → m.sus.key = 0 → (∀ i, i < m.slots.length → m.gid i < 2 ^ 32) →
      ∃ t m', exec (.teamSaveComplete tid) s = .next t ∧ t.team tid = some m' ∧ m'.sus.st = .absent ∧ m'.sus.key = 2 ^ 32 * (tid + 1) ∧
        ∀ i, i < m.slots.length → t.group (m.gid i) = none ∧ ((s.group (m.gid i)).isSome = true → (t.group (2 ^ 32 * (tid + 1) + m.gid i)).isSome = true))) ∧
  (∀ (s : State) (id op tid kind : Nat) (a : Arrival) (m : Team), State.ServedBy State.divertReady s id (.arrival op tid kind a) → s.team tid = some m →
    (∀ o bs, a = .spad o bs → m.sus.st = .absent → exec (.divertedArrival id) s = .next
      (((s.delWork id).engineWriteBytes (cidDom m.cid) (m.sus.shadow + o) bs).putTeam tid
        { m with sus := { m.sus with shadowed := m.sus.shadowed + 1, kinds := m.sus.kinds ||| kindBit kind } })) ∧
    (∀ o bs, a = .spad o bs → m.isSaving = true → s.rowSaved m a = false → ∃ t m', exec (.divertedArrival id) s = .next t ∧ t.mem = s.mem ∧ t.team tid = some m' ∧ m'.sus = m.sus ∧
      (Canon 0 m.spad → ∀ k, k < bs.length → m'.spByte (o + k) = bs.getD k 0))) ∧
  (∀ (s : State) (id op tid kind : Nat) (a : Arrival) (m : Team), State.ServedBy State.bufferReady s id (.arrival op tid kind a) → s.team tid = some m →
    exec (.landingBufferArrival id) s = .next ((s.delWork id).putTeam tid { m with sus := { m.sus with buffer := m.sus.buffer ++ [a], kinds := m.sus.kinds ||| kindBit kind } })) ∧
  (∀ (s : State) (h : Nat) (w : Work) (cl : Nat) (started : Bool),
    (s.work.find? fun w => (match w.job with
      | .accSave x _ => x == h
      | _ => false) && s.accReady w && decide (w.due ≤ s.now)) = some w → (s.hc h).holder = some cl → w.job = .accSave h started →
    (s.clusterAway cl = false → ∃ t, exec (.accImageSave h) s = .next t ∧ t.findWork w.id = none ∧ (t.hc h).wantSlot = false ∧ (t.hc h).holder = some cl) ∧
    (s.clusterAway cl = true → started = false → exec (.accImageSave h) s = .next (s.setWork w.id 65536 (.accSave h true))) ∧
    (s.clusterAway cl = true → started = true → ∀ c, tget s.clusters cl = some c →
      ∃ t, exec (.accImageSave h) s = .next t ∧ (t.hc h).holder = none ∧ (t.hc h).wantSlot = false ∧
        ∀ tid ∈ c.teams, ∀ m, s.team tid = some m → ∃ m', t.team tid = some m' ∧ m'.sus.accSaved = true)) ∧
  (∀ (s : State) (tid : Nat) (m : Team), s.team tid = some m →
    (s.dawnCan m = true → ∃ t m' u, exec (.dawn tid) s = .next t ∧ t.team tid = some m' ∧ m'.sus.st = .restoring u ∧ s.now ≤ u ∧ m'.sus.key = 0 ∧
      ∀ i, i < m.slots.length → (s.group (m.gid i)).isSome = true → (t.group (m.gid i - m.sus.key)).isSome = true) ∧
    (s.dawnOver m = true → s.reasonHolds m.asid (cidDom m.cid) = false →
      ∃ t m', exec (.dawn tid) s = .next t ∧ t.team tid = some m' ∧ m'.sus.st = .present ∧ m'.sus.entry = none ∧ m'.sus.buffer = [] ∧ m'.sus.dawnAsked = false ∧
        ∀ i g, i < m'.slots.length → t.group (m'.gid i) = some g → g.halted = false) ∧
    (s.dawnCan m = false → s.dawnOver m = false → exec (.dawn tid) s = .next s))

/-- R288, R363-R375: writes of STEP, DBGCTL and DFACT, a sample, the life of a watchpoint and of its report, and a lane-cycle bin's clearing. That
STEP and DFACT name a site and a slot in any domain is the model's reading (log 37), and the bytes of a sample record its choice (log 38). -/
def Obligations.DebugSteps : Prop :=
  (∀ (s : State) (asid : Nat) (v : BitVec 64), s.debugOn asid = false → exec (.step asid v) s = .next s) ∧
  (∀ (s : State) (asid : Nat) (v : BitVec 64) (c : Ctx), s.ctx asid = some c → s.debugOn asid = true → s.groups.Pairwise (fun a b => a.1 < b.1) →
    ∃ t, exec (.step asid v) s = .next t ∧ t.ctx asid = some { c with stepReg := v &&& 0xFFFF } ∧ t.mem = s.mem ∧
      ∀ gid g, s.group gid = some g →
        let named := v.getLsbD 15 = true ∧ s.asidOf g = asid ∧ g.retired = false ∧
          (v.getLsbD 14 = true ∨ (gid < 2 ^ 32 ∧ cidSite (gidCid gid) = v.toNat % 2 ^ 8 ∧ gidSlot gid = v.toNat / 2 ^ 8 % 2 ^ 6))
        (named → t.group gid = some { g with sched := { g.sched with armed := true } }) ∧ (¬named → t.group gid = some g)) ∧
  (∀ (s : State) (asid : Nat) (v : Word) (c : Ctx), s.ctx asid = some c → s.groups.Pairwise (fun a b => a.1 < b.1) →
    ∃ t, exec (.dbgctl asid v) s = .next t ∧ t.ctx asid = some { c with dbgctl := v &&& 7 } ∧ t.mem = s.mem ∧
      ∀ gid g, s.group gid = some g →
        let ends := v.getLsbD 0 = false ∧ s.asidOf g = asid ∧ g.retired = false
        (ends → t.group gid = some { g with sched := { g.sched with armed := false } }) ∧ (¬ends → t.group gid = some g)) ∧
  (∀ (s : State) (asid site slot gid : Nat) (g : Group), s.namedGroups asid site slot = [(gid, g)] → s.group gid = some g → g.retired = false →
    (g.park ≠ .dead → exec (.dfactRetire asid site slot) s = .next s ∧ exec (.dfactReturn asid site slot) s = .next s) ∧
    (g.park = .dead → g.halted = true ∨ s.recordHeld gid = true →
      exec (.dfactRetire asid site slot) s = .next (s.putGroup gid { g with sched := { g.sched with dfact := 1 } }) ∧
      exec (.dfactReturn asid site slot) s = .next (s.putGroup gid { g with sched := { g.sched with dfact := 2 } })) ∧
    (g.park = .dead → g.halted = false → s.recordHeld gid = false →
      (∀ m, s.team g.team = some m → ∃ t g' m', exec (.dfactRetire asid site slot) s = .next t ∧ t.mem = s.mem ∧ t.group gid = some g' ∧ g'.retired = true ∧ g'.exm = 0 ∧
        t.team g.team = some m' ∧ m'.retiredN = m.retiredN + 1) ∧
      ∀ (s1 s2 s3 : State) (pa : Nat) (w nx pr : Bool) (b hi : List Byte), s.translate (gidCid gid) (s.asidOf g) (pageOf g.tsa.toNat) .read g.priv = (s1, .ok pa w nx pr) →
        let base := pa + g.tsa.toNat % 4096
        s1.areaCheck g (gidCid gid) (s.asidOf g) base .read = none → s1.saveBusy (gidCid gid) base = false →
        s1.coreRead gid (base + 8) 0xC8 = (s2, b) → s2.coreRead gid (base + 0xD8) 8 = (s3, hi) →
        let at' := fun (o n : Nat) => leVal (slice b (o - 8) n)
        at' 0x14 4 ≠ 0 → at' 0x08 8 % 4 = 0 → at' 0x08 8 < 2 ^ 48 →
        ∃ g', exec (.dfactReturn asid site slot) s = .next (s3.putGroup gid g') ∧ g'.level = false ∧ g'.park = .running ∧ g'.pc.toNat = at' 0x08 8 ∧
          (isDcc (gidCid gid) = false → g'.exm.toNat = at' 0x14 4 % 2 ^ 32) ∧ (isDcc (gidCid gid) = true → g'.exm = 1) ∧ g'.sched.dfact = 0 ∧
          (g.Sane → ∀ n l, l < 32 → g'.stands n l = g.stands n l))) ∧
  (∀ (s : State) (cid : Nat), (s.toSample cid = [] → exec (.sampleWrite cid) s = .next s) ∧
    ∀ gid g m c, s.toSample cid = [(gid, g)] → s.team g.team = some m → s.ctx m.asid = some c → g.sched.lastStop = none →
      exec (.sampleWrite cid) s = .next ((s.engineWriteBytes (cidDom m.cid) (c.sring + 16 * (c.shead % 2048))
        (leBytes 2 m.asid ++ leBytes 1 (cidSite m.cid) ++ leBytes 1 (gidSlot gid) ++ leBytes 4 (m.nid % 2 ^ 32) ++ leBytes 2 0xFFFF ++ leBytes 2 0 ++ leBytes 4 s.now)).putCtx m.asid
        { c with shead := (c.shead + 1) % 2 ^ 32 })) ∧
  (∀ (s : State) (cid n : Nat) (v : BitVec 128), isDcc cid = false → n < 4 → (s.core cid).watch.length = 4 →
    let off : Watch := { raw := watchRaw v false, live := watchRaw v false }
    let va := 64 * (v.toNat / 2 ^ 6 % 2 ^ 42)
    let lines := v.toNat / 2 ^ 51 % 2 ^ 6 + 1
    let slot := v.toNat / 2 ^ 57 % 2 ^ 6
    let disarms := fun (i : Instr) => ∃ t, exec i s = .next t ∧ t.mem = s.mem ∧ t.groups = s.groups ∧ (t.core cid).watch = (s.core cid).watch.set n off ∧
      ∀ w ∈ t.work, ∀ f e k b at', w.job ≠ .watchReport cid n f e k b at'
    disarms (.watchpointDisarm cid n v) ∧
    (s.group (gidOf cid slot) = none → disarms (.watchpointArm cid n v)) ∧
    (∀ g, s.group (gidOf cid slot) = some g → 64 < va % 4096 / 64 + lines → disarms (.watchpointArm cid n v)) ∧
    (∀ g pa w nx pr, s.group (gidOf cid slot) = some g → va % 4096 / 64 + lines ≤ 64 → s.tlbHit cid (s.asidOf g) (pageOf va) .read true = some (.ok pa w nx pr) →
      ∃ t x u, exec (.watchpointArm cid n v) s = .next t ∧ t.mem = s.mem ∧ t.groups = s.groups ∧ (t.core cid).watch = (s.core cid).watch.set n x ∧ x.armed = false ∧
        x.installing = some u ∧ s.now < u ∧ u ≤ s.now + 256 ∧ x.asid = s.asidOf g ∧ x.owner = gidOf cid slot ∧ x.line = (pa + va % 4096) / 64) ∧
    (let w := (s.core cid).watch.getD n {}
     (∀ u, w.installing = some u → u ≤ s.now →
       exec (.watchpointArmComplete cid n) s = .next (s.putCore cid { s.core cid with watch := (s.core cid).watch.set n { w with armed := true, installing := none } })) ∧
     ((∀ u, w.installing = some u → s.now < u) → exec (.watchpointArmComplete cid n) s = .next s)) ∧
    (∀ id due f e k b at' wt, s.findWork id = some ⟨id, due, .watchReport cid n f e k b at', wt⟩ →
      let w := (s.core cid).watch.getD n {}
      (w.armed = false ∨ s.watchOwner w = none → exec (.watchpointReport id) s = .next (s.delWork id)) ∧
      (w.armed = true → ∀ owner g, s.watchOwner w = some owner → s.group owner = some g → (∀ p ∈ g.pend, p.code ≠ 0x22) →
        (∀ m, s.team g.team = some m → m.inImage = false) →
        exec (.watchpointReport id) s = .next ((s.delWork id).putGroup owner { g with pend := g.pend ++ [⟨0x22, e * 256 + n, f, k⟩] })))) ∧
  (∀ (s : State) (cid i : Nat) (v : BitVec 64), exec (.binlo cid i v) s =
    .next (s.putCore cid { s.core cid with bins := (s.core cid).bins.set i { (s.core cid).bins.getD i {} with lo := v.toNat, counts := [0, 0, 0, 0] } }))

/-- R266, R324, R325, R352-R362, R376: the energy counters, the ends of an interval and of a window, sensors, allowances and pulse patterns, refresh,
and parts that retire or are marked. That the bandwidth cap returns to none with the release of POWCTL is the model's reading (log 80). -/
def Obligations.PowerSteps : Prop :=
  (∀ (s : State) (acc : MmioAcc) (asid : Nat), asid < 2 ^ 16 →
    let e := ((s.ctx asid).map (·.energy)).getD 0
    let key := match acc.req with
      | .core c => c
      | .port n => 2 ^ 32 + n
    (acc.priv = false → acc.asid ≠ asid → exec (.elo acc asid) s = .next s ∧ exec (.ehi acc asid) s = .next s) ∧
    (acc.priv = true ∨ acc.asid = asid →
      (∃ t, exec (.elo acc asid) s = .next t ∧ tget t.wafer.elo key = some (BitVec.ofNat 32 (e / 2 ^ 32)) ∧ t.ctxs = s.ctxs ∧
        (∀ n, acc.req = .port n → t.wafer.replies = s.wafer.replies ++ [(n, leBytes 4 (e % 2 ^ 32), true)])) ∧
      ∃ t, exec (.ehi acc asid) s = .next t ∧ t.wafer.elo = s.wafer.elo ∧ t.ctxs = s.ctxs ∧
        (∀ n, acc.req = .port n → t.wafer.replies = s.wafer.replies ++ [(n, leBytes 4 (tgetD s.wafer.elo key 0).toNat, true)]))) ∧
  (∀ s : State,
    (let waits := s.work.filter (·.wait.isSome)
     let paid := ∀ w ∈ s.work, ∀ b fl far wts, w.job = .bankDone b fl far wts → b.owe = 0
      ∃ t, exec .meteringIntervalEnd s = .next t ∧ t.mem = s.mem ∧ t.groups = s.groups ∧ (∀ h, (t.hc h).slotClk = []) ∧
        (∀ a c, s.ctx a = some c → ∃ c', t.ctx a = some c' ∧ c'.ubytes = c.bytes / 1024 ∧ c'.denied = [] ∧ (c.energy < 2 ^ 64 → c.energy ≤ c'.energy ∧ c'.energy < 2 ^ 64) ∧
          (waits = [] → paid → c'.bytes = 0)) ∧
        (waits = [] → paid → t.work = s.work ∧ (∀ h, (t.hc h).bytes = 0) ∧ ∀ d, (t.dom d).counts = []) ∧
        ∀ w dt c a, waits = [w] → paid → w.wait = some dt → w.job.requester = some (c, a) → (∀ x, s.ctx a = some x → x.bbytes ≠ 0) →
          ∃ w' ∈ t.work, w'.id = w.id ∧ w'.job = w.job ∧ w'.wait = none ∧ s.now + dt ≤ w'.due) ∧
    ((∀ p ∈ s.ctxs, p.2.throttle = []) → ∃ t, exec .energyWindowEnd s = .next t ∧ t.mem = s.mem ∧ t.doms = s.doms ∧
      ∀ a c, s.ctx a = some c → t.ctx a = some { c with uenergy := min 0xFFFFFFFF c.window, window := 0, throttle := [] })) ∧
  (∀ (s : State) (d c : Nat) (die : BitVec 8) (dram : List (BitVec 8)),
    (d < 64 → c < 12 → exec (.sensorUpdate d c die dram) s =
      .next (s.putHc (12 * d + c) { s.hc (12 * d + c) with die := die, dram := [dram.getD 0 0, dram.getD 1 0, dram.getD 2 0, dram.getD 3 0] })) ∧
    (64 ≤ d ∨ 12 ≤ c → exec (.sensorUpdate d c die dram) s = .next s)) ∧
  (∀ (s : State) (d : Nat), let x := s.dom d
    (x.powctl = true → exec (.talRefill d) s = .next s) ∧
    (x.powctl = false → ∃ t, exec (.talRefill d) s = .next t ∧ t = s.putDom d { x with tal := (t.dom d).tal, talAt := some s.now } ∧ (t.dom d).tal.length = 12 ∧
      ∀ c, c < 12 → ∃ hot : Int, (∀ b ∈ (s.hc (12 * d + c)).dram, b.toInt ≤ hot) ∧ (hot = -128 ∨ ∃ b ∈ (s.hc (12 * d + c)).dram, b.toInt = hot) ∧
        (t.dom d).tal.getD c 0 = min 255 (8 * (min (105 - (s.hc (12 * d + c)).die.toInt) (85 - hot)).toNat)) ∧
    (∀ v : BitVec 128, ∃ t, exec (.tal d v) s = .next t ∧ t = s.putDom d { x with tal := (t.dom d).tal, talAt := some s.now } ∧
      ∀ c, c < 12 → (t.dom d).tal.getD c 0 = v.toNat / 256 ^ c % 256) ∧
    (∀ v : Word, (x.powctl = false ∨ v.getLsbD 0 = true → exec (.powctl d v) s = .next (s.putDom d { x with powctl := v.getLsbD 0 })) ∧
      (x.powctl = true → v.getLsbD 0 = false → ∃ t, exec (.powctl d v) s = .next t ∧ t.mem = s.mem ∧ (t.dom d).powctl = false ∧
        ∀ h, (h / 12 = d → t.hc h = { s.hc h with clbw := 0 }) ∧ (h / 12 ≠ d → t.hc h = s.hc h))) ∧
    (∀ c (v : Word), c < 12 → (v.toNat % 2 ^ 16 = 0 → exec (.ppat d c v) s = .next s) ∧
      (v.toNat % 2 ^ 16 ≠ 0 → exec (.ppat d c v) s = .next (s.putHc (12 * d + c) { s.hc (12 * d + c) with ppatNew := some (v.toNat % 2 ^ 16) }))) ∧
    (∃ t, exec (.patUpdate d) s = .next t ∧ t.mem = s.mem ∧ ∀ c, c < 12 →
      let h := s.hc (12 * d + c)
      let new := fun (p : Nat) => t.hc (12 * d + c) = { h with ppatNew := some p }
      (112 ≤ h.die.toInt → new 0x0101) ∧ (h.die.toInt < 112 → x.powctl = true → t.hc (12 * d + c) = h) ∧ (h.die.toInt < 100 → x.powctl = false → new 0xFFFF) ∧
      (100 ≤ h.die.toInt → h.die.toInt < 112 → x.powctl = false → ∃ p, new p ∧ p < 2 ^ 16 ∧ ((List.range 16).filter p.testBit).length = 16 - min 8 (h.die.toInt - 99).toNat))) ∧
  (∀ (s : State) (d ch : Nat), let x := s.dom d
    (s.now < x.refStart + x.refLen → exec (.refreshIntervalStart d) s = .next s) ∧
    (x.refStart + x.refLen ≤ s.now →
      let ts := (List.range 12).flatMap fun c => (s.hc (12 * d + c)).dram
      ((∃ b ∈ ts, 85 < b.toInt) → exec (.refreshIntervalStart d) s = .next (s.putDom d { x with refStart := s.now, refLen := 2925 })) ∧
      ((∀ b ∈ ts, b.toInt ≤ 83) → exec (.refreshIntervalStart d) s = .next (s.putDom d { x with refStart := s.now, refLen := 5850 })) ∧
      ((∀ b ∈ ts, b.toInt ≤ 85) → (∃ b ∈ ts, 83 < b.toInt) → exec (.refreshIntervalStart d) s = .next (s.putDom d { x with refStart := s.now }))) ∧
    ∃ t, exec (.refreshWindow d ch) s = .next t ∧ t = s.putDom d { x with refreshing := (t.dom d).refreshing } ∧ (ch, s.now + 525) ∈ (t.dom d).refreshing ∧
      ∀ p ∈ x.refreshing, p.1 ≠ ch → s.now < p.2 → p ∈ (t.dom d).refreshing) ∧
  (∀ (s : State) (d : Nat) (p : Part), let w := s.wafer
    (64 ≤ d ∨ s.partGood d p = false → exec (.topologyRetire d p) s = .next s) ∧
    (d < 64 → s.partGood d p = true → (d, p) ∉ w.retiring →
      exec (.topologyRetire d p) s = .next (s.putWafer { w with gen := (if w.gen % 2 = 0 then w.gen + 1 else w.gen), retiring := w.retiring ++ [(d, p)] })) ∧
    (d < 64 → s.partGood d p = true → (d, p) ∈ w.retiring → s.partBusy d p = true → exec (.topologyRetire d p) s = .next s) ∧
    (d < 64 → s.partGood d p = true → (d, p) ∈ w.retiring → s.partBusy d p = false →
      ∃ t, exec (.topologyRetire d p) s = .next t ∧ t.partGood d p = false ∧ t.mem = s.mem ∧ t.wafer.retiring = w.retiring.filter (· != (d, p)) ∧
        t.wafer.gen = if t.wafer.retiring = [] then w.gen + 1 else w.gen)) ∧
  (∀ (s : State) (d : Nat), let w := s.wafer
    (64 ≤ d → ∀ l2, exec (.markDegraded d l2) s = .next s) ∧
    (d < 64 → exec (.markDegraded d true) s = .next (s.putWafer { w with l2st := tput w.l2st d 1, gen := w.gen + 2 }) ∧
      (tgetD w.dramst d 0 = 2 → exec (.markDegraded d false) s = .next s) ∧
      (tgetD w.dramst d 0 ≠ 2 → exec (.markDegraded d false) s = .next (s.putWafer { w with dramst := tput w.dramst d 1, gen := w.gen + 2 }))))

/-- R13, R58, R322, R377, R378, R385-R390: boot, quotes, unlocking, alarms and module reset; a context's creation and end; inbound accesses of a port,
outbound completions, and ports that go down and come up; a write of a register. By the model's reading or choice: the quote's bytes (log 14), what
module reset keeps (log 40), firmware's start (log 89), what CONTEXT_DESTROY takes out (log 13), the order of MMIO's faults (log 43), host memory
behind the ports (log 54), the fate of an inbound access that reaches nothing (log 63), and BAR0's accesses (log 81). -/
def Obligations.SecurityAndLinks : Prop :=
  (∀ (s : State) (v : Word), let w := s.wafer
    let a := v.toNat % 4
    (a = 3 ∨ (w.almlock = true ∧ a ≤ w.almpol) → exec (.almpol v) s = .next s) ∧
    (a ≠ 3 → w.almlock = false ∨ w.almpol < a → exec (.almpol v) s = .next (s.putWafer { w with almpol := a })) ∧
    (v.getLsbD 0 = true → exec (.almlock v) s = .next (s.putWafer { w with almlock := true })) ∧ (v.getLsbD 0 = false → exec (.almlock v) s = .next s) ∧
    (∀ src, let log := w.almlog ||| (match src with
        | .tamper => 1
        | .glitch => 2
        | .forged => 4
        | .misuse => 8)
      (w.almpol = 0 → exec (.alarm src) s = .next (s.putWafer { w with almlog := log })) ∧
      (w.almpol = 1 → exec (.alarm src) s = .next (s.putWafer { w with almlog := log, halted := true })) ∧
      (w.almpol = 2 → exec (.alarm src) s = .next (s.putWafer { w with almlog := log, halted := true, keysErased := true })))) ∧
  (∀ (s : State), let w := s.wafer
    (∀ img : BootImage,
      let ok := Config.rsaVerify img.key (sha256 img.body) img.sig = true ∧ sha256 img.key = Config.fusedKeyDigest ∧ Config.fusedRollback ≤ img.version
      (ok → ∃ t, exec (.bootImageCheck img) s = .next t ∧ t.mem = s.mem ∧
        t.wafer = { w with measure := sha256 (digestBytes w.measure ++ digestBytes (sha256 img.body)), booted := some img.version } ∧
        ∀ d, d < 64 → let gid := gidOf (cidOf d 144) 0
          (∀ g, s.group gid = some g → t.group gid = some g) ∧
          (s.group gid = none → ∃ g m, t.group gid = some g ∧ g.priv = true ∧ g.exm = 1 ∧ g.level = false ∧ g.park = .running ∧ g.retired = false ∧
            t.team g.team = some m ∧ m.asid = 0 ∧ m.cid = cidOf d 144)) ∧
      (¬ok → exec (.bootImageCheck img) s = exec (.alarm .forged) s)) ∧
    (∀ nonce : List Byte,
      (w.keysErased = true ∨ nonce.length ≠ 32 → exec (.attestationQuote nonce) s = .next s) ∧
      (w.keysErased = false → nonce.length = 32 →
        let body := digestBytes w.measure ++ nonce ++ Config.deviceIdentity
        exec (.attestationQuote nonce) s = .next (s.putWafer { w with quotes := w.quotes ++ [body ++ Config.rsaSign body] }))) ∧
    (∀ sig body,
      let ok := Config.rsaVerify Config.unlockKey (sha256 body) sig
      let failed := s.putWafer { w with unlockFails := w.unlockFails + 1 }
      (ok = true → exec (.debugUnlock sig body) s = .next (s.putWafer { w with unlocked := true })) ∧
      (ok = false → w.unlockFails ≠ 2 → exec (.debugUnlock sig body) s = .next failed) ∧
      (ok = false → w.unlockFails = 2 → exec (.debugUnlock sig body) s = exec (.alarm .misuse) failed)) ∧
    ∃ t, exec .moduleReset s = .next t ∧ t.now = 0 ∧ t.groups = [] ∧ t.teams = [] ∧ t.work = [] ∧ t.cores = [] ∧ t.lines = [] ∧ t.nodes = [] ∧ t.mem = s.mem ∧
      t.wafer.almpol = 0 ∧ t.wafer.almlog = 0 ∧ t.wafer.almlock = false ∧ t.wafer.halted = false ∧ t.wafer.keysErased = w.keysErased ∧ t.wafer.unlockFails = 0) ∧
  (∀ (s : State) (asid : Nat) (init : CtxInit),
    (∀ c, s.ctx asid = some c → exec (.contextCreate asid init) s = .next s) ∧
    (s.ctx asid = none → asid < 2 ^ 16 → ∃ t c, exec (.contextCreate asid init) s = .next t ∧ t.ctx asid = some c ∧ (∀ a, a ≠ asid → t.ctx a = s.ctx a) ∧ t.groups = s.groups ∧
      c.ptroot = init.ptroot.toNat / 4096 * 4096 ∧ c.fqbase = init.fqbase.toNat / 64 * 64 ∧ c.fqmask = init.fqmask.toNat ∧ c.fqtail = 0 ∧ c.fqhead = 0 ∧ c.savesz = init.savesz.toNat ∧
      c.lease = 10 ∧ c.prio = 1 ∧ c.preempt = false ∧ c.req = [] ∧ c.cmdmask = 0 ∧ c.expert = 0 ∧ c.bslots = 0xFFFFFFFF ∧ c.bbytes = 0xFFFFFFFF ∧ c.benergy = 0xFFFFFFFF) ∧
    (asid = 0 ∨ s.ctx asid = none → exec (.contextDestroy asid) s = .next s) ∧
    (asid ≠ 0 → (s.ctx asid).isSome = true → ∃ t, exec (.contextDestroy asid) s = .next t ∧ t.ctx asid = none ∧ (∀ a, a ≠ asid → (t.ctx a).isSome = (s.ctx a).isSome) ∧
      t.mem = s.mem ∧ (∀ p ∈ t.teams, p.2.asid ≠ asid) ∧ (∀ p ∈ t.nodes, p.2.asid ≠ asid) ∧
      (∀ gid g, s.group gid = some g → s.asidOf g = asid → t.group gid = none) ∧
      (∀ d e p, e ∈ (t.dom d).tlb2 → e.vpn ≤ p → p < e.vpn + e.pages → e.asid ≠ asid))) ∧
  (∀ (s : State) (p : Port) (read : Nat → Instr) (write : List Byte → Instr) (atomic : HostAtom → Instr) (ofs : Nat),
    (∃ k o, p = .host k ∧ ofs = BitVec.toNat o ∧ (read, atomic) = ((.hostInboundRead k (.bar2 o) ·), (.hostInboundAtomic k (.bar2 o) ·)) ∧
        ∃ relaxed, write = (.hostInboundWrite k (.bar2 o) · relaxed)) ∨
      (∃ k o, p = .link k ∧ ofs = BitVec.toNat o ∧ (read, write, atomic) =
        (fun n => Instr.peerInboundAccess k o (.read n), fun bs => .peerInboundAccess k o (.write bs), fun op => .peerInboundAccess k o (.atomic op))) →
    let pa := s.inboundBase p + ofs
    let answers := fun (x : Host.Outcome State Fault Refusal) (bs : List Byte) (ok : Bool) (more : State → Prop) =>
      ∃ t, x = .next t ∧ t.groups = s.groups ∧ t.wafer = { s.wafer with replies := s.wafer.replies ++ [((match p with
        | .host k => k
        | .link k => 4 + k), bs, ok)] } ∧ more t
    (s.isUp p = false → ∀ n bs op, exec (read n) s = .next s ∧ exec (write bs) s = .next s ∧ exec (atomic op) s = .next s) ∧
    (s.isUp p = true →
      (∀ n, s.inboundOk p pa n false = false → answers (exec (read n) s) [] false fun t => t.mem = s.mem) ∧
      (∀ bs, s.inboundOk p pa bs.length true = false → exec (write bs) s = .next s) ∧
      (∀ op, pa % hostAtomBytes op ≠ 0 ∨ s.inboundOk p pa (hostAtomBytes op) true = false → answers (exec (atomic op) s) [] false fun t => t.mem = s.mem) ∧
      ∀ l x, pa / 64 = l → lineIsDsm l = true → s.NothingLands l → s.dir l = none → s.sline (lineHome l) l = some x → x.data.length = 64 → poisoned x.desc = false →
        (∀ w ∈ s.wafer.scOpen, w.2 ≠ l) →
        (∀ n, s.inboundOk p pa n false = true → pa % 64 + n ≤ 64 → answers (exec (read n) s) (slice x.data (pa % 64) n) true fun t => t.mem = s.mem) ∧
        (∀ bs, s.inboundOk p pa bs.length true = true → pa % 64 + bs.length ≤ 64 → ∃ t y, exec (write bs) s = .next t ∧ t.mem = s.mem ∧ t.groups = s.groups ∧
          t.sline (lineHome l) l = some y ∧ y.st = .m ∧ y.data = patch x.data (pa % 64) bs) ∧
        (∀ op, s.inboundOk p pa (hostAtomBytes op) true = true → pa % hostAtomBytes op = 0 →
          let m := leVal (slice x.data (pa % 64) (hostAtomBytes op))
          answers (exec (atomic op) s) (leBytes (hostAtomBytes op) m) true fun t => t.mem = s.mem ∧ ∃ y, t.sline (lineHome l) l = some y ∧ y.st = .m ∧
            y.data = patch x.data (pa % 64) (leBytes (hostAtomBytes op) (match op with
              | .add32 v => (m + v.toNat) % 2 ^ 32
              | .add64 v => (m + v.toNat) % 2 ^ 64
              | .swap32 v => v.toNat
              | .swap64 v => v.toNat
              | .cas32 c v => if m = c.toNat then v.toNat else m
              | .cas64 c v => if m = c.toNat then v.toNat else m))))) ∧
  (∀ (s : State) (k n : Nat) (o : BitVec 29), let r := o.toNat
    (∀ op, s.isUp (.host k) = true → exec (.hostInboundAtomic k (.bar0 o) op) s = .next (s.putWafer { s.wafer with replies := s.wafer.replies ++ [(k, [], false)] })) ∧
    (∀ bs relaxed, bs ≠ [] →
      (s.isUp (.host k) = false ∨ (mmioCheck 0 r bs.length true).isSome = true ∨ r % bs.length ≠ 0 → exec (.hostInboundWrite k (.bar0 o) bs relaxed) s = .next s) ∧
      (s.isUp (.host k) = true → mmioCheck 0 r bs.length true = none → r % bs.length = 0 → ∃ t, exec (.hostInboundWrite k (.bar0 o) bs relaxed) s = .next t ∧
        t = { s with agenda := t.agenda } ∧ t.agenda = (s.now, .registerWrite ⟨.port k, true, 0⟩ r bs.length (BitVec.ofNat 64 (leVal bs))) :: s.agenda)) ∧
    (s.isUp (.host k) = false → exec (.hostInboundRead k (.bar0 o) n) s = .next s) ∧
    (s.isUp (.host k) = true →
      (n ≠ 0 → mmioCheck 0 r n true = none → r % n = 0 → ∃ t, exec (.hostInboundRead k (.bar0 o) n) s = .next t ∧ t.mem = s.mem ∧
        t.wafer.replies = s.wafer.replies ++ [(k, leBytes n (s.mmioRead (.port k) r n).2, true)]) ∧
      ((mmioCheck 0 r n true).isSome = true ∨ r % n ≠ 0 → exec (.hostInboundRead k (.bar0 o) n) s =
        .next (s.putWafer { s.wafer with replies := s.wafer.replies ++ [(k, [], false)] })))) ∧
  (∀ (s : State) (port : Nat) (i : Instr), (port < 4 ∧ i = .outboundFlushCompletion port) ∨ (4 ≤ port ∧ i = .peerWriteAck (port - 4)) →
    (s.flushNext port = none → exec i s = .next s) ∧
    (∀ w, s.flushNext port = some w → ∃ t, exec i s = .next t ∧ t.findWork w.id = none ∧ t.groups = s.groups ∧
      (∀ p, p ∈ t.posted ↔ p ∈ s.posted ∧ ¬(p.port = port ∧ p.id < w.id)) ∧
      (∀ q, s.posted.filter (fun p => p.port == port && decide (p.id < w.id)) = [q] → Memory.wf s.mem →
        ∀ a, memGet t.mem a = if s.farAddr q.pa ≤ a ∧ a < s.farAddr q.pa + q.bytes.length then q.bytes.getD (a - s.farAddr q.pa) 0 else memGet s.mem a))) ∧
  (∀ (s : State) (p : Port), let n := match p with
      | .host k => k
      | .link k => 4 + k
    (s.isUp p = false → exec (.linkDown p) s = .next s) ∧
    (s.isUp p = true → exec (.linkUp p) s = .next s ∧ ∃ t, exec (.linkDown p) s = .next t ∧ t.isUp p = false ∧ ∀ x ∈ t.posted, x.port ≠ n) ∧
    (s.isUp p = false → (match p with
        | .host k => k < 4
        | .link k => k < 32) → ∃ t, exec (.linkUp p) s = .next t ∧ t.isUp p = true ∧ t.mem = s.mem ∧ t.work = s.work ∧ t.groups = s.groups)) ∧
  (∀ (s : State) (k flits : Nat), let w := s.wafer
    (s.isUp (.link k) = false → ∀ r, exec (.linkCrcReplay k flits r) s = .next s) ∧
    (s.isUp (.link k) = true → exec (.linkCrcReplay k flits true) s =
        .next (s.putWafer { w with lreplay := w.lreplay.set k (min (2 ^ 64 - 1) (w.lreplay.getD k 0 + flits)) }) ∧
      (w.lfail.length = 32 → ∃ t, exec (.linkCrcReplay k flits false) s = .next t ∧ t.isUp (.link k) = false ∧ t.wafer.lfail.getD k 0 = min 0xFFFFFFFF (w.lfail.getD k 0 + 1)))) ∧
  (∀ (s : State) (acc : MmioAcc) (ofs size : Nat) (v : BitVec 64),
    ((mmioCheck acc.asid ofs size acc.priv).isSome = true ∨ ofs % size ≠ 0 → exec (.registerWrite acc ofs size v) s = .next s) ∧
    (acc.priv = true → exec (.registerWrite acc 0x100 4 v) s = exec (.almpol (v.setWidth 32)) s) ∧
    (∀ a c, a < 2 ^ 16 → s.ctx a = some c → c.bslots < 2 ^ 32 → acc.priv = true ∨ (acc.asid = a ∧ c.expert.testBit 3 = true) →
      exec (.registerWrite acc (0x10000000 + 4096 * a + 0x48) 4 v) s = .next (s.putCtx a { c with bslots := v.toNat % 2 ^ 32 })) ∧
    (∀ a c, a < 2 ^ 16 → s.ctx a = some c → acc.priv = false → acc.asid = a → c.expert.testBit 3 = false →
      exec (.registerWrite acc (0x10000000 + 4096 * a + 0x48) 4 v) s = .next s))

/-! The whole machine: reset, the invariant, the encoding, and a step at an issue. -/

/-- What the spec gives of reset, and the model's own choice of the rest (log 1, log 2): every core's pts is 0 (R192), ALMPOL is 00 (R378), nothing
has been launched and nothing is in flight. The state is sound. The pulse patterns, full as firmware writes them below 100 degrees, are the model's
choice (log 2): the spec gives no value for them. -/
def Obligations.ResetState : Prop :=
  (∀ cid, State.reset.rawPts cid = 0 ∧ State.reset.pts cid = 0) ∧ State.reset.wafer.almpol = 0 ∧ (∀ h, (State.reset.hc h).ppat = 0xFFFF) ∧
  State.reset.groups = [] ∧ State.reset.teams = [] ∧ State.reset.nodes = [] ∧ State.reset.work = [] ∧ (∀ pa, memGet State.reset.mem pa = Config.powerOnByte) ∧
  State.reset.Sound

/-- Every step keeps the state sound: each table one entry a key, the fixed lengths of a group, a barrier block and a line, memory, windows,
scratchpads, slots and B store in canonical form, and no two landed results of one register live in one lane (R79, R80). -/
def Obligations.StepKeepsSound : Prop := ∀ s t : State, s.Sound → step s = .next t → t.Sound

/-- R19-R38: the word of a well-formed instruction decodes to that instruction, and a word that decodes is the word of the instruction that it
decodes to, so that no bit of it is dropped. -/
def Obligations.DecodeEncode : Prop :=
  (∀ (i : Instr) (w : BitVec 96), i.wf = true → encode i = some w → decode i.onDcc w = .ok i) ∧
  ∀ (dcc : Bool) (w : BitVec 96) (i : Instr), decode dcc w = .ok i → i.wf = true ∧ encode i = some w

namespace Sys2Proof.Machine

/-- Guard always, no scheduling bit (R21, R22). -/
def plainHdr : Hdr := ⟨⟨false, false, 7⟩, ⟨false, false, false, false, false, 0⟩⟩
def regDst (f : DFile) (r : BitVec 10) : Dst := ⟨f, r, .none, 0⟩
def regSrc (f : SFile) (r : BitVec 10) : Src := ⟨f, r, false, false, .whole, false⟩
def noB : BOp := .src (regSrc .vec 0)

end Sys2Proof.Machine

/-- Words that the spec writes out decode to the instructions that it says they are, one of most families, and the encodings of R38's table
that fail are refused at the step that it names. -/
def Obligations.SpecWordsDecode : Prop :=
  -- ICMP.lt.s p2,v3,100 and (st1) FFMA.f32 v16,-v13,v15,s12
  decodeTableWord 96 0x252380401000030300000064 = some (.icmp .ltS ⟨plainHdr, regDst .pred 2, regSrc .vec 3, .i 100⟩) ∧
  decodeTableWord 96 0x320480008000_0D8003C08180 =
    some (.ffma .f32 ⟨{ plainHdr with guard := ⟨false, true, 1⟩ }, regDst .vec 16, { regSrc .vec 13 with neg := true },
      .c (regSrc .vec 15) ⟨true, 12, false, false, .whole, false⟩⟩) ∧
  -- HLOOPP L1,s15,3 with .rot 24,12 and OFS 30; (p1) IF OFS 2; SETEXM.set sr.exm,0xF
  decodeTableWord 96 0x091380045800180103C0001E =
    some (.hloopp 1 ⟨plainHdr, regDst .vec 139, regSrc .vec 24, .src (regSrc .scal 15), 30⟩) ∧
  decodeTableWord 96 0x010080000000000000000002 =
    some (.ifi ⟨{ plainHdr with guard := ⟨false, false, 1⟩ }, regDst .vec 0, regSrc .vec 0, noB, 2⟩) ∧
  decodeTableWord 96 0x63038060000000030000000F = some (.setexm .set ⟨plainHdr, regDst .spec 0, regSrc .vec 0, .i 15⟩) ∧
  -- CPYIN cc1,s16; MMA.f8.cm3.bmem acc4,s16; VSMAX.dom.rel s3,s16
  decodeTableWord 96 0x900380000004100000004000 =
    some (.cpyin ⟨plainHdr, regDst .vec 0, regSrc .scal 16, noB, ⟨1, .team, false, .normal⟩⟩) ∧
  decodeTableWord 96 0xA32380000004100000004380 = some (.mma .f8 ⟨plainHdr, regDst .vec 0, regSrc .scal 16, noB, ⟨4, 3, true⟩⟩) ∧
  decodeTableWord 96 0xB30380201804100000006000 = some (.vsmax ⟨plainHdr, regDst .scal 3, regSrc .scal 16, noB, ⟨.dom, .rel⟩⟩) ∧
  -- PFENCE.wafer cp,ls+bk; BAR b1,8; DIVST s24; GSUB.graph s16,s4:s5; CTXSUS s20,s8
  decodeTableWord 96 0xC5038000000000000000B490 = some (.pfence ⟨plainHdr, regDst .vec 0, regSrc .vec 0, noB, ⟨.wafer, .ar, 4, 9⟩⟩) ∧
  decodeTableWord 96 0xC01380000000000300083000 = some (.bar 1 ⟨plainHdr, regDst .vec 0, regSrc .vec 0, .imm 8, ⟨.team, .ar, 0, 0⟩⟩) ∧
  decodeTableWord 96 0xD6038020C000000000000000 = some (.divst ⟨plainHdr, regDst .scal 24, regSrc .vec 0, noB, 0⟩) ∧
  decodeTableWord 96 0xE00380208004040000000000 = some (.gsubGraph ⟨plainHdr, regDst .scal 16, regSrc .scal 4, noB, 0⟩) ∧
  decodeTableWord 96 0xE5038020A004080000000000 = some (.ctxsus ⟨plainHdr, regDst .scal 20, regSrc .scal 8, noB, 0⟩) ∧
  -- R38, steps 1 to 3
  (∀ (dcc : Bool) (w : BitVec 96), assigned (w.extractLsb' 88 8).toNat = false → decode dcc w = .error .unassignedOpcode) ∧
  (∀ w : BitVec 96, 0xE0 ≤ (w.extractLsb' 88 8).toNat → (w.extractLsb' 88 8).toNat ≤ 0xE7 → decode false w = .error .outsideDcc) ∧
  (∀ w : BitVec 96, notOnDccOp (w.extractLsb' 88 8).toNat = true → decode true w = .error .notOnDcc)

/-- The step at an issue (log 4). When nothing earlier is due at this clock and a group is chosen to issue, the step is exec of the instruction
that the twelve bytes fetched at the group's pc decode to (R18, R38), in the state in which the issue has been counted and the port taken
(R40, R82-R84, R168). The only group able to issue is chosen, and where its word does not decode the trap of R38 is taken. -/
def Obligations.StepRunsInstruction : Prop :=
  (∀ (s t : State) (i : Instr), s.wafer.halted = false → s.before = none → s.nextTurn = .issue i t →
    step s = exec i t ∧
    ∃ gid g lines f mine, (gid, g) ∈ s.groups ∧ s.mayIssue gid g = true ∧ issueForm i = some f ∧ t = s.begin mine (gid, g, i, f, lines) ∧ t.cur = gid ∧
      ((g.replays = none ∧ i.wf = true ∧ (lines = [] ∨ s.heldBy (gidCid gid) (s.asidOf g) = false) ∧
          ∃ bs, s.fetched gid g = .code bs lines ∧ decode (isDcc (gidCid gid)) (wordOfBytes bs) = .ok i) ∨
        (g.replays = some i ∧ lines = []))) ∧
  (∀ (s : State) (gid : Nat) (g : Group) (bs : List Byte) (lines : List Nat), s.wafer.halted = false → s.before = none →
    s.groups.filter (fun p => decide (p.1 < 2 ^ 32)) = [(gid, g)] → s.mayIssue gid g = true → g.sched.bad = false →
    (g.level = true ∨ g.pend = []) → g.replays = none → s.fetched gid g = .code bs lines → lines = [] ∨ s.heldBy (gidCid gid) (s.asidOf g) = false →
    (∀ i f, decode (isDcc (gidCid gid)) (wordOfBytes bs) = .ok i → issueForm i = some f → s.decodedTurn gid g i f lines = .go i f lines →
      s.turns.contains (portKey gid (onM gid f)) = false → step s = exec i (s.begin [(gid, g, i, f, lines)] (gid, g, i, f, lines))) ∧
    (∀ e, decode (isDcc (gidCid gid)) (wordOfBytes bs) = .error e → step s = .next (s.decodeTrap gid g e))) ∧
  ∀ (s : State) (gid : Nat) (g : Group) (i : Instr) (f : IssueForm) (lines : List Nat), s.group gid = some g → g.sched.fresh = false → g.meets f = false →
    let t := s.begin [(gid, g, i, f, lines)] (gid, g, i, f, lines)
    (lines = [] ∨ (∀ l ∈ lines, (s.sline (lineHome l) l).isSome = true ∨ (s.owner l).isSome = true) → t.mem = s.mem ∧ t.lines = s.lines) ∧
      t.teams = s.teams ∧ t.wafer = s.wafer ∧ (∀ a, a ≠ gid → t.group a = s.group a) ∧
      ∃ sched, t.Issues gid { g with held := some i, sched := sched }
end

