-- ==== Sys2Proof/Laws/State.lean ====
section
/-! SUPPORT. What each update of the state leaves in each field. -/

namespace Sys2Proof.Machine

@[simp] theorem State.putGroup_now (s : State) (gid : Nat) (g : Group) : (s.putGroup gid g).now = s.now := rfl
@[simp] theorem State.putGroup_turns (s : State) (gid : Nat) (g : Group) : (s.putGroup gid g).turns = s.turns := rfl
@[simp] theorem State.putGroup_cur (s : State) (gid : Nat) (g : Group) : (s.putGroup gid g).cur = s.cur := rfl
@[simp] theorem State.putGroup_uid (s : State) (gid : Nat) (g : Group) : (s.putGroup gid g).uid = s.uid := rfl
@[simp] theorem State.putGroup_freeUsed (s : State) (gid : Nat) (g : Group) : (s.putGroup gid g).freeUsed = s.freeUsed := rfl
@[simp] theorem State.putGroup_agenda (s : State) (gid : Nat) (g : Group) : (s.putGroup gid g).agenda = s.agenda := rfl
@[simp] theorem State.putGroup_work (s : State) (gid : Nat) (g : Group) : (s.putGroup gid g).work = s.work := rfl
@[simp] theorem State.putGroup_mem (s : State) (gid : Nat) (g : Group) : (s.putGroup gid g).mem = s.mem := rfl
@[simp] theorem State.putGroup_desc (s : State) (gid : Nat) (g : Group) : (s.putGroup gid g).desc = s.desc := rfl
@[simp] theorem State.putGroup_groups (s : State) (gid : Nat) (g : Group) : (s.putGroup gid g).groups = tput s.groups gid g := rfl
@[simp] theorem State.putGroup_teams (s : State) (gid : Nat) (g : Group) : (s.putGroup gid g).teams = s.teams := rfl
@[simp] theorem State.putGroup_clusters (s : State) (gid : Nat) (g : Group) : (s.putGroup gid g).clusters = s.clusters := rfl
@[simp] theorem State.putGroup_cores (s : State) (gid : Nat) (g : Group) : (s.putGroup gid g).cores = s.cores := rfl
@[simp] theorem State.putGroup_hcs (s : State) (gid : Nat) (g : Group) : (s.putGroup gid g).hcs = s.hcs := rfl
@[simp] theorem State.putGroup_doms (s : State) (gid : Nat) (g : Group) : (s.putGroup gid g).doms = s.doms := rfl
@[simp] theorem State.putGroup_ctxs (s : State) (gid : Nat) (g : Group) : (s.putGroup gid g).ctxs = s.ctxs := rfl
@[simp] theorem State.putGroup_lines (s : State) (gid : Nat) (g : Group) : (s.putGroup gid g).lines = s.lines := rfl
@[simp] theorem State.putGroup_dirs (s : State) (gid : Nat) (g : Group) : (s.putGroup gid g).dirs = s.dirs := rfl
@[simp] theorem State.putGroup_nodes (s : State) (gid : Nat) (g : Group) : (s.putGroup gid g).nodes = s.nodes := rfl
@[simp] theorem State.putGroup_posted (s : State) (gid : Nat) (g : Group) : (s.putGroup gid g).posted = s.posted := rfl
@[simp] theorem State.putGroup_wafer (s : State) (gid : Nat) (g : Group) : (s.putGroup gid g).wafer = s.wafer := rfl

@[simp] theorem State.putCore_now (s : State) (cid : Nat) (c : Core) : (s.putCore cid c).now = s.now := rfl
@[simp] theorem State.putCore_turns (s : State) (cid : Nat) (c : Core) : (s.putCore cid c).turns = s.turns := rfl
@[simp] theorem State.putCore_cur (s : State) (cid : Nat) (c : Core) : (s.putCore cid c).cur = s.cur := rfl
@[simp] theorem State.putCore_uid (s : State) (cid : Nat) (c : Core) : (s.putCore cid c).uid = s.uid := rfl
@[simp] theorem State.putCore_freeUsed (s : State) (cid : Nat) (c : Core) : (s.putCore cid c).freeUsed = s.freeUsed := rfl
@[simp] theorem State.putCore_agenda (s : State) (cid : Nat) (c : Core) : (s.putCore cid c).agenda = s.agenda := rfl
@[simp] theorem State.putCore_work (s : State) (cid : Nat) (c : Core) : (s.putCore cid c).work = s.work := rfl
@[simp] theorem State.putCore_mem (s : State) (cid : Nat) (c : Core) : (s.putCore cid c).mem = s.mem := rfl
@[simp] theorem State.putCore_desc (s : State) (cid : Nat) (c : Core) : (s.putCore cid c).desc = s.desc := rfl
@[simp] theorem State.putCore_groups (s : State) (cid : Nat) (c : Core) : (s.putCore cid c).groups = s.groups := rfl
@[simp] theorem State.putCore_teams (s : State) (cid : Nat) (c : Core) : (s.putCore cid c).teams = s.teams := rfl
@[simp] theorem State.putCore_clusters (s : State) (cid : Nat) (c : Core) : (s.putCore cid c).clusters = s.clusters := rfl
@[simp] theorem State.putCore_cores (s : State) (cid : Nat) (c : Core) : (s.putCore cid c).cores = tput s.cores cid c := rfl
@[simp] theorem State.putCore_hcs (s : State) (cid : Nat) (c : Core) : (s.putCore cid c).hcs = s.hcs := rfl
@[simp] theorem State.putCore_doms (s : State) (cid : Nat) (c : Core) : (s.putCore cid c).doms = s.doms := rfl
@[simp] theorem State.putCore_ctxs (s : State) (cid : Nat) (c : Core) : (s.putCore cid c).ctxs = s.ctxs := rfl
@[simp] theorem State.putCore_lines (s : State) (cid : Nat) (c : Core) : (s.putCore cid c).lines = s.lines := rfl
@[simp] theorem State.putCore_dirs (s : State) (cid : Nat) (c : Core) : (s.putCore cid c).dirs = s.dirs := rfl
@[simp] theorem State.putCore_nodes (s : State) (cid : Nat) (c : Core) : (s.putCore cid c).nodes = s.nodes := rfl
@[simp] theorem State.putCore_posted (s : State) (cid : Nat) (c : Core) : (s.putCore cid c).posted = s.posted := rfl
@[simp] theorem State.putCore_wafer (s : State) (cid : Nat) (c : Core) : (s.putCore cid c).wafer = s.wafer := rfl

@[simp] theorem State.putHc_now (s : State) (h : Nat) (x : Hc) : (s.putHc h x).now = s.now := rfl
@[simp] theorem State.putHc_turns (s : State) (h : Nat) (x : Hc) : (s.putHc h x).turns = s.turns := rfl
@[simp] theorem State.putHc_cur (s : State) (h : Nat) (x : Hc) : (s.putHc h x).cur = s.cur := rfl
@[simp] theorem State.putHc_uid (s : State) (h : Nat) (x : Hc) : (s.putHc h x).uid = s.uid := rfl
@[simp] theorem State.putHc_freeUsed (s : State) (h : Nat) (x : Hc) : (s.putHc h x).freeUsed = s.freeUsed := rfl
@[simp] theorem State.putHc_agenda (s : State) (h : Nat) (x : Hc) : (s.putHc h x).agenda = s.agenda := rfl
@[simp] theorem State.putHc_work (s : State) (h : Nat) (x : Hc) : (s.putHc h x).work = s.work := rfl
@[simp] theorem State.putHc_mem (s : State) (h : Nat) (x : Hc) : (s.putHc h x).mem = s.mem := rfl
@[simp] theorem State.putHc_desc (s : State) (h : Nat) (x : Hc) : (s.putHc h x).desc = s.desc := rfl
@[simp] theorem State.putHc_groups (s : State) (h : Nat) (x : Hc) : (s.putHc h x).groups = s.groups := rfl
@[simp] theorem State.putHc_teams (s : State) (h : Nat) (x : Hc) : (s.putHc h x).teams = s.teams := rfl
@[simp] theorem State.putHc_clusters (s : State) (h : Nat) (x : Hc) : (s.putHc h x).clusters = s.clusters := rfl
@[simp] theorem State.putHc_cores (s : State) (h : Nat) (x : Hc) : (s.putHc h x).cores = s.cores := rfl
@[simp] theorem State.putHc_hcs (s : State) (h : Nat) (x : Hc) : (s.putHc h x).hcs = tput s.hcs h x := rfl
@[simp] theorem State.putHc_doms (s : State) (h : Nat) (x : Hc) : (s.putHc h x).doms = s.doms := rfl
@[simp] theorem State.putHc_ctxs (s : State) (h : Nat) (x : Hc) : (s.putHc h x).ctxs = s.ctxs := rfl
@[simp] theorem State.putHc_lines (s : State) (h : Nat) (x : Hc) : (s.putHc h x).lines = s.lines := rfl
@[simp] theorem State.putHc_dirs (s : State) (h : Nat) (x : Hc) : (s.putHc h x).dirs = s.dirs := rfl
@[simp] theorem State.putHc_nodes (s : State) (h : Nat) (x : Hc) : (s.putHc h x).nodes = s.nodes := rfl
@[simp] theorem State.putHc_posted (s : State) (h : Nat) (x : Hc) : (s.putHc h x).posted = s.posted := rfl
@[simp] theorem State.putHc_wafer (s : State) (h : Nat) (x : Hc) : (s.putHc h x).wafer = s.wafer := rfl

@[simp] theorem State.putDom_now (s : State) (d : Nat) (x : Dom) : (s.putDom d x).now = s.now := rfl
@[simp] theorem State.putDom_turns (s : State) (d : Nat) (x : Dom) : (s.putDom d x).turns = s.turns := rfl
@[simp] theorem State.putDom_cur (s : State) (d : Nat) (x : Dom) : (s.putDom d x).cur = s.cur := rfl
@[simp] theorem State.putDom_uid (s : State) (d : Nat) (x : Dom) : (s.putDom d x).uid = s.uid := rfl
@[simp] theorem State.putDom_freeUsed (s : State) (d : Nat) (x : Dom) : (s.putDom d x).freeUsed = s.freeUsed := rfl
@[simp] theorem State.putDom_agenda (s : State) (d : Nat) (x : Dom) : (s.putDom d x).agenda = s.agenda := rfl
@[simp] theorem State.putDom_work (s : State) (d : Nat) (x : Dom) : (s.putDom d x).work = s.work := rfl
@[simp] theorem State.putDom_mem (s : State) (d : Nat) (x : Dom) : (s.putDom d x).mem = s.mem := rfl
@[simp] theorem State.putDom_desc (s : State) (d : Nat) (x : Dom) : (s.putDom d x).desc = s.desc := rfl
@[simp] theorem State.putDom_groups (s : State) (d : Nat) (x : Dom) : (s.putDom d x).groups = s.groups := rfl
@[simp] theorem State.putDom_teams (s : State) (d : Nat) (x : Dom) : (s.putDom d x).teams = s.teams := rfl
@[simp] theorem State.putDom_clusters (s : State) (d : Nat) (x : Dom) : (s.putDom d x).clusters = s.clusters := rfl
@[simp] theorem State.putDom_cores (s : State) (d : Nat) (x : Dom) : (s.putDom d x).cores = s.cores := rfl
@[simp] theorem State.putDom_hcs (s : State) (d : Nat) (x : Dom) : (s.putDom d x).hcs = s.hcs := rfl
@[simp] theorem State.putDom_doms (s : State) (d : Nat) (x : Dom) : (s.putDom d x).doms = tput s.doms d x := rfl
@[simp] theorem State.putDom_ctxs (s : State) (d : Nat) (x : Dom) : (s.putDom d x).ctxs = s.ctxs := rfl
@[simp] theorem State.putDom_lines (s : State) (d : Nat) (x : Dom) : (s.putDom d x).lines = s.lines := rfl
@[simp] theorem State.putDom_dirs (s : State) (d : Nat) (x : Dom) : (s.putDom d x).dirs = s.dirs := rfl
@[simp] theorem State.putDom_nodes (s : State) (d : Nat) (x : Dom) : (s.putDom d x).nodes = s.nodes := rfl
@[simp] theorem State.putDom_posted (s : State) (d : Nat) (x : Dom) : (s.putDom d x).posted = s.posted := rfl
@[simp] theorem State.putDom_wafer (s : State) (d : Nat) (x : Dom) : (s.putDom d x).wafer = s.wafer := rfl

@[simp] theorem State.putCtx_now (s : State) (a : Nat) (x : Ctx) : (s.putCtx a x).now = s.now := rfl
@[simp] theorem State.putCtx_turns (s : State) (a : Nat) (x : Ctx) : (s.putCtx a x).turns = s.turns := rfl
@[simp] theorem State.putCtx_cur (s : State) (a : Nat) (x : Ctx) : (s.putCtx a x).cur = s.cur := rfl
@[simp] theorem State.putCtx_uid (s : State) (a : Nat) (x : Ctx) : (s.putCtx a x).uid = s.uid := rfl
@[simp] theorem State.putCtx_freeUsed (s : State) (a : Nat) (x : Ctx) : (s.putCtx a x).freeUsed = s.freeUsed := rfl
@[simp] theorem State.putCtx_agenda (s : State) (a : Nat) (x : Ctx) : (s.putCtx a x).agenda = s.agenda := rfl
@[simp] theorem State.putCtx_work (s : State) (a : Nat) (x : Ctx) : (s.putCtx a x).work = s.work := rfl
@[simp] theorem State.putCtx_mem (s : State) (a : Nat) (x : Ctx) : (s.putCtx a x).mem = s.mem := rfl
@[simp] theorem State.putCtx_desc (s : State) (a : Nat) (x : Ctx) : (s.putCtx a x).desc = s.desc := rfl
@[simp] theorem State.putCtx_groups (s : State) (a : Nat) (x : Ctx) : (s.putCtx a x).groups = s.groups := rfl
@[simp] theorem State.putCtx_teams (s : State) (a : Nat) (x : Ctx) : (s.putCtx a x).teams = s.teams := rfl
@[simp] theorem State.putCtx_clusters (s : State) (a : Nat) (x : Ctx) : (s.putCtx a x).clusters = s.clusters := rfl
@[simp] theorem State.putCtx_cores (s : State) (a : Nat) (x : Ctx) : (s.putCtx a x).cores = s.cores := rfl
@[simp] theorem State.putCtx_hcs (s : State) (a : Nat) (x : Ctx) : (s.putCtx a x).hcs = s.hcs := rfl
@[simp] theorem State.putCtx_doms (s : State) (a : Nat) (x : Ctx) : (s.putCtx a x).doms = s.doms := rfl
@[simp] theorem State.putCtx_ctxs (s : State) (a : Nat) (x : Ctx) : (s.putCtx a x).ctxs = tput s.ctxs a x := rfl
@[simp] theorem State.putCtx_lines (s : State) (a : Nat) (x : Ctx) : (s.putCtx a x).lines = s.lines := rfl
@[simp] theorem State.putCtx_dirs (s : State) (a : Nat) (x : Ctx) : (s.putCtx a x).dirs = s.dirs := rfl
@[simp] theorem State.putCtx_nodes (s : State) (a : Nat) (x : Ctx) : (s.putCtx a x).nodes = s.nodes := rfl
@[simp] theorem State.putCtx_posted (s : State) (a : Nat) (x : Ctx) : (s.putCtx a x).posted = s.posted := rfl
@[simp] theorem State.putCtx_wafer (s : State) (a : Nat) (x : Ctx) : (s.putCtx a x).wafer = s.wafer := rfl

@[simp] theorem State.putTeam_now (s : State) (tid : Nat) (t : Team) : (s.putTeam tid t).now = s.now := rfl
@[simp] theorem State.putTeam_turns (s : State) (tid : Nat) (t : Team) : (s.putTeam tid t).turns = s.turns := rfl
@[simp] theorem State.putTeam_cur (s : State) (tid : Nat) (t : Team) : (s.putTeam tid t).cur = s.cur := rfl
@[simp] theorem State.putTeam_uid (s : State) (tid : Nat) (t : Team) : (s.putTeam tid t).uid = s.uid := rfl
@[simp] theorem State.putTeam_freeUsed (s : State) (tid : Nat) (t : Team) : (s.putTeam tid t).freeUsed = s.freeUsed := rfl
@[simp] theorem State.putTeam_agenda (s : State) (tid : Nat) (t : Team) : (s.putTeam tid t).agenda = s.agenda := rfl
@[simp] theorem State.putTeam_work (s : State) (tid : Nat) (t : Team) : (s.putTeam tid t).work = s.work := rfl
@[simp] theorem State.putTeam_mem (s : State) (tid : Nat) (t : Team) : (s.putTeam tid t).mem = s.mem := rfl
@[simp] theorem State.putTeam_desc (s : State) (tid : Nat) (t : Team) : (s.putTeam tid t).desc = s.desc := rfl
@[simp] theorem State.putTeam_groups (s : State) (tid : Nat) (t : Team) : (s.putTeam tid t).groups = s.groups := rfl
@[simp] theorem State.putTeam_teams (s : State) (tid : Nat) (t : Team) : (s.putTeam tid t).teams = tput s.teams tid t := rfl
@[simp] theorem State.putTeam_clusters (s : State) (tid : Nat) (t : Team) : (s.putTeam tid t).clusters = s.clusters := rfl
@[simp] theorem State.putTeam_cores (s : State) (tid : Nat) (t : Team) : (s.putTeam tid t).cores = s.cores := rfl
@[simp] theorem State.putTeam_hcs (s : State) (tid : Nat) (t : Team) : (s.putTeam tid t).hcs = s.hcs := rfl
@[simp] theorem State.putTeam_doms (s : State) (tid : Nat) (t : Team) : (s.putTeam tid t).doms = s.doms := rfl
@[simp] theorem State.putTeam_ctxs (s : State) (tid : Nat) (t : Team) : (s.putTeam tid t).ctxs = s.ctxs := rfl
@[simp] theorem State.putTeam_lines (s : State) (tid : Nat) (t : Team) : (s.putTeam tid t).lines = s.lines := rfl
@[simp] theorem State.putTeam_dirs (s : State) (tid : Nat) (t : Team) : (s.putTeam tid t).dirs = s.dirs := rfl
@[simp] theorem State.putTeam_nodes (s : State) (tid : Nat) (t : Team) : (s.putTeam tid t).nodes = s.nodes := rfl
@[simp] theorem State.putTeam_posted (s : State) (tid : Nat) (t : Team) : (s.putTeam tid t).posted = s.posted := rfl
@[simp] theorem State.putTeam_wafer (s : State) (tid : Nat) (t : Team) : (s.putTeam tid t).wafer = s.wafer := rfl

@[simp] theorem State.putMem_now (s : State) (m : List Host.Cell) : (s.putMem m).now = s.now := rfl
@[simp] theorem State.putMem_turns (s : State) (m : List Host.Cell) : (s.putMem m).turns = s.turns := rfl
@[simp] theorem State.putMem_cur (s : State) (m : List Host.Cell) : (s.putMem m).cur = s.cur := rfl
@[simp] theorem State.putMem_uid (s : State) (m : List Host.Cell) : (s.putMem m).uid = s.uid := rfl
@[simp] theorem State.putMem_freeUsed (s : State) (m : List Host.Cell) : (s.putMem m).freeUsed = s.freeUsed := rfl
@[simp] theorem State.putMem_agenda (s : State) (m : List Host.Cell) : (s.putMem m).agenda = s.agenda := rfl
@[simp] theorem State.putMem_work (s : State) (m : List Host.Cell) : (s.putMem m).work = s.work := rfl
@[simp] theorem State.putMem_mem (s : State) (m : List Host.Cell) : (s.putMem m).mem = m := rfl
@[simp] theorem State.putMem_desc (s : State) (m : List Host.Cell) : (s.putMem m).desc = s.desc := rfl
@[simp] theorem State.putMem_groups (s : State) (m : List Host.Cell) : (s.putMem m).groups = s.groups := rfl
@[simp] theorem State.putMem_teams (s : State) (m : List Host.Cell) : (s.putMem m).teams = s.teams := rfl
@[simp] theorem State.putMem_clusters (s : State) (m : List Host.Cell) : (s.putMem m).clusters = s.clusters := rfl
@[simp] theorem State.putMem_cores (s : State) (m : List Host.Cell) : (s.putMem m).cores = s.cores := rfl
@[simp] theorem State.putMem_hcs (s : State) (m : List Host.Cell) : (s.putMem m).hcs = s.hcs := rfl
@[simp] theorem State.putMem_doms (s : State) (m : List Host.Cell) : (s.putMem m).doms = s.doms := rfl
@[simp] theorem State.putMem_ctxs (s : State) (m : List Host.Cell) : (s.putMem m).ctxs = s.ctxs := rfl
@[simp] theorem State.putMem_lines (s : State) (m : List Host.Cell) : (s.putMem m).lines = s.lines := rfl
@[simp] theorem State.putMem_dirs (s : State) (m : List Host.Cell) : (s.putMem m).dirs = s.dirs := rfl
@[simp] theorem State.putMem_nodes (s : State) (m : List Host.Cell) : (s.putMem m).nodes = s.nodes := rfl
@[simp] theorem State.putMem_posted (s : State) (m : List Host.Cell) : (s.putMem m).posted = s.posted := rfl
@[simp] theorem State.putMem_wafer (s : State) (m : List Host.Cell) : (s.putMem m).wafer = s.wafer := rfl

@[simp] theorem State.putWafer_now (s : State) (w : Wafer) : (s.putWafer w).now = s.now := rfl
@[simp] theorem State.putWafer_turns (s : State) (w : Wafer) : (s.putWafer w).turns = s.turns := rfl
@[simp] theorem State.putWafer_cur (s : State) (w : Wafer) : (s.putWafer w).cur = s.cur := rfl
@[simp] theorem State.putWafer_uid (s : State) (w : Wafer) : (s.putWafer w).uid = s.uid := rfl
@[simp] theorem State.putWafer_freeUsed (s : State) (w : Wafer) : (s.putWafer w).freeUsed = s.freeUsed := rfl
@[simp] theorem State.putWafer_agenda (s : State) (w : Wafer) : (s.putWafer w).agenda = s.agenda := rfl
@[simp] theorem State.putWafer_work (s : State) (w : Wafer) : (s.putWafer w).work = s.work := rfl
@[simp] theorem State.putWafer_mem (s : State) (w : Wafer) : (s.putWafer w).mem = s.mem := rfl
@[simp] theorem State.putWafer_desc (s : State) (w : Wafer) : (s.putWafer w).desc = s.desc := rfl
@[simp] theorem State.putWafer_groups (s : State) (w : Wafer) : (s.putWafer w).groups = s.groups := rfl
@[simp] theorem State.putWafer_teams (s : State) (w : Wafer) : (s.putWafer w).teams = s.teams := rfl
@[simp] theorem State.putWafer_clusters (s : State) (w : Wafer) : (s.putWafer w).clusters = s.clusters := rfl
@[simp] theorem State.putWafer_cores (s : State) (w : Wafer) : (s.putWafer w).cores = s.cores := rfl
@[simp] theorem State.putWafer_hcs (s : State) (w : Wafer) : (s.putWafer w).hcs = s.hcs := rfl
@[simp] theorem State.putWafer_doms (s : State) (w : Wafer) : (s.putWafer w).doms = s.doms := rfl
@[simp] theorem State.putWafer_ctxs (s : State) (w : Wafer) : (s.putWafer w).ctxs = s.ctxs := rfl
@[simp] theorem State.putWafer_lines (s : State) (w : Wafer) : (s.putWafer w).lines = s.lines := rfl
@[simp] theorem State.putWafer_dirs (s : State) (w : Wafer) : (s.putWafer w).dirs = s.dirs := rfl
@[simp] theorem State.putWafer_nodes (s : State) (w : Wafer) : (s.putWafer w).nodes = s.nodes := rfl
@[simp] theorem State.putWafer_posted (s : State) (w : Wafer) : (s.putWafer w).posted = s.posted := rfl
@[simp] theorem State.putWafer_wafer (s : State) (w : Wafer) : (s.putWafer w).wafer = w := rfl

@[simp] theorem State.nextFree_now (s : State) : (s.nextFree).now = s.now := rfl
@[simp] theorem State.nextFree_turns (s : State) : (s.nextFree).turns = s.turns := rfl
@[simp] theorem State.nextFree_cur (s : State) : (s.nextFree).cur = s.cur := rfl
@[simp] theorem State.nextFree_uid (s : State) : (s.nextFree).uid = s.uid := rfl
@[simp] theorem State.nextFree_freeUsed (s : State) : (s.nextFree).freeUsed = s.freeUsed + 1 := rfl
@[simp] theorem State.nextFree_agenda (s : State) : (s.nextFree).agenda = s.agenda := rfl
@[simp] theorem State.nextFree_work (s : State) : (s.nextFree).work = s.work := rfl
@[simp] theorem State.nextFree_mem (s : State) : (s.nextFree).mem = s.mem := rfl
@[simp] theorem State.nextFree_desc (s : State) : (s.nextFree).desc = s.desc := rfl
@[simp] theorem State.nextFree_groups (s : State) : (s.nextFree).groups = s.groups := rfl
@[simp] theorem State.nextFree_teams (s : State) : (s.nextFree).teams = s.teams := rfl
@[simp] theorem State.nextFree_clusters (s : State) : (s.nextFree).clusters = s.clusters := rfl
@[simp] theorem State.nextFree_cores (s : State) : (s.nextFree).cores = s.cores := rfl
@[simp] theorem State.nextFree_hcs (s : State) : (s.nextFree).hcs = s.hcs := rfl
@[simp] theorem State.nextFree_doms (s : State) : (s.nextFree).doms = s.doms := rfl
@[simp] theorem State.nextFree_ctxs (s : State) : (s.nextFree).ctxs = s.ctxs := rfl
@[simp] theorem State.nextFree_lines (s : State) : (s.nextFree).lines = s.lines := rfl
@[simp] theorem State.nextFree_dirs (s : State) : (s.nextFree).dirs = s.dirs := rfl
@[simp] theorem State.nextFree_nodes (s : State) : (s.nextFree).nodes = s.nodes := rfl
@[simp] theorem State.nextFree_posted (s : State) : (s.nextFree).posted = s.posted := rfl
@[simp] theorem State.nextFree_wafer (s : State) : (s.nextFree).wafer = s.wafer := rfl

@[simp] theorem State.addWork_now (s : State) (dt : Nat) (j : Job) : (s.addWork dt j).now = s.now := rfl
@[simp] theorem State.addWork_turns (s : State) (dt : Nat) (j : Job) : (s.addWork dt j).turns = s.turns := rfl
@[simp] theorem State.addWork_cur (s : State) (dt : Nat) (j : Job) : (s.addWork dt j).cur = s.cur := rfl
@[simp] theorem State.addWork_uid (s : State) (dt : Nat) (j : Job) : (s.addWork dt j).uid = s.uid + 1 := rfl
@[simp] theorem State.addWork_freeUsed (s : State) (dt : Nat) (j : Job) : (s.addWork dt j).freeUsed = s.freeUsed := rfl
@[simp] theorem State.addWork_agenda (s : State) (dt : Nat) (j : Job) : (s.addWork dt j).agenda = s.agenda := rfl
@[simp] theorem State.addWork_work (s : State) (dt : Nat) (j : Job) : (s.addWork dt j).work = s.work ++ [⟨s.uid, s.arrivesAt s.uid j (s.now + dt + Config.extraDelay s.uid), j, none⟩] := rfl
@[simp] theorem State.addWork_mem (s : State) (dt : Nat) (j : Job) : (s.addWork dt j).mem = s.mem := rfl
@[simp] theorem State.addWork_desc (s : State) (dt : Nat) (j : Job) : (s.addWork dt j).desc = s.desc := rfl
@[simp] theorem State.addWork_groups (s : State) (dt : Nat) (j : Job) : (s.addWork dt j).groups = s.groups := rfl
@[simp] theorem State.addWork_teams (s : State) (dt : Nat) (j : Job) : (s.addWork dt j).teams = s.teams := rfl
@[simp] theorem State.addWork_clusters (s : State) (dt : Nat) (j : Job) : (s.addWork dt j).clusters = s.clusters := rfl
@[simp] theorem State.addWork_cores (s : State) (dt : Nat) (j : Job) : (s.addWork dt j).cores = s.cores := rfl
@[simp] theorem State.addWork_hcs (s : State) (dt : Nat) (j : Job) : (s.addWork dt j).hcs = s.hcs := rfl
@[simp] theorem State.addWork_doms (s : State) (dt : Nat) (j : Job) : (s.addWork dt j).doms = s.doms := rfl
@[simp] theorem State.addWork_ctxs (s : State) (dt : Nat) (j : Job) : (s.addWork dt j).ctxs = s.ctxs := rfl
@[simp] theorem State.addWork_lines (s : State) (dt : Nat) (j : Job) : (s.addWork dt j).lines = s.lines := rfl
@[simp] theorem State.addWork_dirs (s : State) (dt : Nat) (j : Job) : (s.addWork dt j).dirs = s.dirs := rfl
@[simp] theorem State.addWork_nodes (s : State) (dt : Nat) (j : Job) : (s.addWork dt j).nodes = s.nodes := rfl
@[simp] theorem State.addWork_posted (s : State) (dt : Nat) (j : Job) : (s.addWork dt j).posted = s.posted := rfl
@[simp] theorem State.addWork_wafer (s : State) (dt : Nat) (j : Job) : (s.addWork dt j).wafer = s.wafer := rfl

@[simp] theorem State.delWork_now (s : State) (id : Nat) : (s.delWork id).now = s.now := rfl
@[simp] theorem State.delWork_turns (s : State) (id : Nat) : (s.delWork id).turns = s.turns := rfl
@[simp] theorem State.delWork_cur (s : State) (id : Nat) : (s.delWork id).cur = s.cur := rfl
@[simp] theorem State.delWork_uid (s : State) (id : Nat) : (s.delWork id).uid = s.uid := rfl
@[simp] theorem State.delWork_freeUsed (s : State) (id : Nat) : (s.delWork id).freeUsed = s.freeUsed := rfl
@[simp] theorem State.delWork_agenda (s : State) (id : Nat) : (s.delWork id).agenda = s.agenda := rfl
@[simp] theorem State.delWork_work (s : State) (id : Nat) : (s.delWork id).work = s.work.filter fun w => w.id != id := rfl
@[simp] theorem State.delWork_mem (s : State) (id : Nat) : (s.delWork id).mem = s.mem := rfl
@[simp] theorem State.delWork_desc (s : State) (id : Nat) : (s.delWork id).desc = s.desc := rfl
@[simp] theorem State.delWork_groups (s : State) (id : Nat) : (s.delWork id).groups = s.groups := rfl
@[simp] theorem State.delWork_teams (s : State) (id : Nat) : (s.delWork id).teams = s.teams := rfl
@[simp] theorem State.delWork_clusters (s : State) (id : Nat) : (s.delWork id).clusters = s.clusters := rfl
@[simp] theorem State.delWork_cores (s : State) (id : Nat) : (s.delWork id).cores = s.cores := rfl
@[simp] theorem State.delWork_hcs (s : State) (id : Nat) : (s.delWork id).hcs = s.hcs := rfl
@[simp] theorem State.delWork_doms (s : State) (id : Nat) : (s.delWork id).doms = s.doms := rfl
@[simp] theorem State.delWork_ctxs (s : State) (id : Nat) : (s.delWork id).ctxs = s.ctxs := rfl
@[simp] theorem State.delWork_lines (s : State) (id : Nat) : (s.delWork id).lines = s.lines := rfl
@[simp] theorem State.delWork_dirs (s : State) (id : Nat) : (s.delWork id).dirs = s.dirs := rfl
@[simp] theorem State.delWork_nodes (s : State) (id : Nat) : (s.delWork id).nodes = s.nodes := rfl
@[simp] theorem State.delWork_posted (s : State) (id : Nat) : (s.delWork id).posted = s.posted := rfl
@[simp] theorem State.delWork_wafer (s : State) (id : Nat) : (s.delWork id).wafer = s.wafer := rfl

@[simp] theorem State.setWork_now (s : State) (id dt : Nat) (j : Job) : (s.setWork id dt j).now = s.now := rfl
@[simp] theorem State.setWork_turns (s : State) (id dt : Nat) (j : Job) : (s.setWork id dt j).turns = s.turns := rfl
@[simp] theorem State.setWork_cur (s : State) (id dt : Nat) (j : Job) : (s.setWork id dt j).cur = s.cur := rfl
@[simp] theorem State.setWork_uid (s : State) (id dt : Nat) (j : Job) : (s.setWork id dt j).uid = s.uid := rfl
@[simp] theorem State.setWork_freeUsed (s : State) (id dt : Nat) (j : Job) : (s.setWork id dt j).freeUsed = s.freeUsed := rfl
@[simp] theorem State.setWork_agenda (s : State) (id dt : Nat) (j : Job) : (s.setWork id dt j).agenda = s.agenda := rfl
@[simp] theorem State.setWork_work (s : State) (id dt : Nat) (j : Job) : (s.setWork id dt j).work = s.work.map fun w => if w.id == id then ⟨id, s.arrivesAt id j (s.now + dt), j, none⟩ else w := rfl
@[simp] theorem State.setWork_mem (s : State) (id dt : Nat) (j : Job) : (s.setWork id dt j).mem = s.mem := rfl
@[simp] theorem State.setWork_desc (s : State) (id dt : Nat) (j : Job) : (s.setWork id dt j).desc = s.desc := rfl
@[simp] theorem State.setWork_groups (s : State) (id dt : Nat) (j : Job) : (s.setWork id dt j).groups = s.groups := rfl
@[simp] theorem State.setWork_teams (s : State) (id dt : Nat) (j : Job) : (s.setWork id dt j).teams = s.teams := rfl
@[simp] theorem State.setWork_clusters (s : State) (id dt : Nat) (j : Job) : (s.setWork id dt j).clusters = s.clusters := rfl
@[simp] theorem State.setWork_cores (s : State) (id dt : Nat) (j : Job) : (s.setWork id dt j).cores = s.cores := rfl
@[simp] theorem State.setWork_hcs (s : State) (id dt : Nat) (j : Job) : (s.setWork id dt j).hcs = s.hcs := rfl
@[simp] theorem State.setWork_doms (s : State) (id dt : Nat) (j : Job) : (s.setWork id dt j).doms = s.doms := rfl
@[simp] theorem State.setWork_ctxs (s : State) (id dt : Nat) (j : Job) : (s.setWork id dt j).ctxs = s.ctxs := rfl
@[simp] theorem State.setWork_lines (s : State) (id dt : Nat) (j : Job) : (s.setWork id dt j).lines = s.lines := rfl
@[simp] theorem State.setWork_dirs (s : State) (id dt : Nat) (j : Job) : (s.setWork id dt j).dirs = s.dirs := rfl
@[simp] theorem State.setWork_nodes (s : State) (id dt : Nat) (j : Job) : (s.setWork id dt j).nodes = s.nodes := rfl
@[simp] theorem State.setWork_posted (s : State) (id dt : Nat) (j : Job) : (s.setWork id dt j).posted = s.posted := rfl
@[simp] theorem State.setWork_wafer (s : State) (id dt : Nat) (j : Job) : (s.setWork id dt j).wafer = s.wafer := rfl

@[simp] theorem State.modCore_now (s : State) (cid : Nat) (f : Core → Core) : (s.modCore cid f).now = s.now := rfl
@[simp] theorem State.modCore_turns (s : State) (cid : Nat) (f : Core → Core) : (s.modCore cid f).turns = s.turns := rfl
@[simp] theorem State.modCore_cur (s : State) (cid : Nat) (f : Core → Core) : (s.modCore cid f).cur = s.cur := rfl
@[simp] theorem State.modCore_uid (s : State) (cid : Nat) (f : Core → Core) : (s.modCore cid f).uid = s.uid := rfl
@[simp] theorem State.modCore_freeUsed (s : State) (cid : Nat) (f : Core → Core) : (s.modCore cid f).freeUsed = s.freeUsed := rfl
@[simp] theorem State.modCore_agenda (s : State) (cid : Nat) (f : Core → Core) : (s.modCore cid f).agenda = s.agenda := rfl
@[simp] theorem State.modCore_work (s : State) (cid : Nat) (f : Core → Core) : (s.modCore cid f).work = s.work := rfl
@[simp] theorem State.modCore_mem (s : State) (cid : Nat) (f : Core → Core) : (s.modCore cid f).mem = s.mem := rfl
@[simp] theorem State.modCore_desc (s : State) (cid : Nat) (f : Core → Core) : (s.modCore cid f).desc = s.desc := rfl
@[simp] theorem State.modCore_groups (s : State) (cid : Nat) (f : Core → Core) : (s.modCore cid f).groups = s.groups := rfl
@[simp] theorem State.modCore_teams (s : State) (cid : Nat) (f : Core → Core) : (s.modCore cid f).teams = s.teams := rfl
@[simp] theorem State.modCore_clusters (s : State) (cid : Nat) (f : Core → Core) : (s.modCore cid f).clusters = s.clusters := rfl
@[simp] theorem State.modCore_cores (s : State) (cid : Nat) (f : Core → Core) : (s.modCore cid f).cores = tput s.cores cid (f (s.core cid)) := rfl
@[simp] theorem State.modCore_hcs (s : State) (cid : Nat) (f : Core → Core) : (s.modCore cid f).hcs = s.hcs := rfl
@[simp] theorem State.modCore_doms (s : State) (cid : Nat) (f : Core → Core) : (s.modCore cid f).doms = s.doms := rfl
@[simp] theorem State.modCore_ctxs (s : State) (cid : Nat) (f : Core → Core) : (s.modCore cid f).ctxs = s.ctxs := rfl
@[simp] theorem State.modCore_lines (s : State) (cid : Nat) (f : Core → Core) : (s.modCore cid f).lines = s.lines := rfl
@[simp] theorem State.modCore_dirs (s : State) (cid : Nat) (f : Core → Core) : (s.modCore cid f).dirs = s.dirs := rfl
@[simp] theorem State.modCore_nodes (s : State) (cid : Nat) (f : Core → Core) : (s.modCore cid f).nodes = s.nodes := rfl
@[simp] theorem State.modCore_posted (s : State) (cid : Nat) (f : Core → Core) : (s.modCore cid f).posted = s.posted := rfl
@[simp] theorem State.modCore_wafer (s : State) (cid : Nat) (f : Core → Core) : (s.modCore cid f).wafer = s.wafer := rfl

@[simp] theorem State.modDom_now (s : State) (d : Nat) (f : Dom → Dom) : (s.modDom d f).now = s.now := rfl
@[simp] theorem State.modDom_turns (s : State) (d : Nat) (f : Dom → Dom) : (s.modDom d f).turns = s.turns := rfl
@[simp] theorem State.modDom_cur (s : State) (d : Nat) (f : Dom → Dom) : (s.modDom d f).cur = s.cur := rfl
@[simp] theorem State.modDom_uid (s : State) (d : Nat) (f : Dom → Dom) : (s.modDom d f).uid = s.uid := rfl
@[simp] theorem State.modDom_freeUsed (s : State) (d : Nat) (f : Dom → Dom) : (s.modDom d f).freeUsed = s.freeUsed := rfl
@[simp] theorem State.modDom_agenda (s : State) (d : Nat) (f : Dom → Dom) : (s.modDom d f).agenda = s.agenda := rfl
@[simp] theorem State.modDom_work (s : State) (d : Nat) (f : Dom → Dom) : (s.modDom d f).work = s.work := rfl
@[simp] theorem State.modDom_mem (s : State) (d : Nat) (f : Dom → Dom) : (s.modDom d f).mem = s.mem := rfl
@[simp] theorem State.modDom_desc (s : State) (d : Nat) (f : Dom → Dom) : (s.modDom d f).desc = s.desc := rfl
@[simp] theorem State.modDom_groups (s : State) (d : Nat) (f : Dom → Dom) : (s.modDom d f).groups = s.groups := rfl
@[simp] theorem State.modDom_teams (s : State) (d : Nat) (f : Dom → Dom) : (s.modDom d f).teams = s.teams := rfl
@[simp] theorem State.modDom_clusters (s : State) (d : Nat) (f : Dom → Dom) : (s.modDom d f).clusters = s.clusters := rfl
@[simp] theorem State.modDom_cores (s : State) (d : Nat) (f : Dom → Dom) : (s.modDom d f).cores = s.cores := rfl
@[simp] theorem State.modDom_hcs (s : State) (d : Nat) (f : Dom → Dom) : (s.modDom d f).hcs = s.hcs := rfl
@[simp] theorem State.modDom_doms (s : State) (d : Nat) (f : Dom → Dom) : (s.modDom d f).doms = tput s.doms d (f (s.dom d)) := rfl
@[simp] theorem State.modDom_ctxs (s : State) (d : Nat) (f : Dom → Dom) : (s.modDom d f).ctxs = s.ctxs := rfl
@[simp] theorem State.modDom_lines (s : State) (d : Nat) (f : Dom → Dom) : (s.modDom d f).lines = s.lines := rfl
@[simp] theorem State.modDom_dirs (s : State) (d : Nat) (f : Dom → Dom) : (s.modDom d f).dirs = s.dirs := rfl
@[simp] theorem State.modDom_nodes (s : State) (d : Nat) (f : Dom → Dom) : (s.modDom d f).nodes = s.nodes := rfl
@[simp] theorem State.modDom_posted (s : State) (d : Nat) (f : Dom → Dom) : (s.modDom d f).posted = s.posted := rfl
@[simp] theorem State.modDom_wafer (s : State) (d : Nat) (f : Dom → Dom) : (s.modDom d f).wafer = s.wafer := rfl

@[simp] theorem State.modHc_now (s : State) (h : Nat) (f : Hc → Hc) : (s.modHc h f).now = s.now := rfl
@[simp] theorem State.modHc_turns (s : State) (h : Nat) (f : Hc → Hc) : (s.modHc h f).turns = s.turns := rfl
@[simp] theorem State.modHc_cur (s : State) (h : Nat) (f : Hc → Hc) : (s.modHc h f).cur = s.cur := rfl
@[simp] theorem State.modHc_uid (s : State) (h : Nat) (f : Hc → Hc) : (s.modHc h f).uid = s.uid := rfl
@[simp] theorem State.modHc_freeUsed (s : State) (h : Nat) (f : Hc → Hc) : (s.modHc h f).freeUsed = s.freeUsed := rfl
@[simp] theorem State.modHc_agenda (s : State) (h : Nat) (f : Hc → Hc) : (s.modHc h f).agenda = s.agenda := rfl
@[simp] theorem State.modHc_work (s : State) (h : Nat) (f : Hc → Hc) : (s.modHc h f).work = s.work := rfl
@[simp] theorem State.modHc_mem (s : State) (h : Nat) (f : Hc → Hc) : (s.modHc h f).mem = s.mem := rfl
@[simp] theorem State.modHc_desc (s : State) (h : Nat) (f : Hc → Hc) : (s.modHc h f).desc = s.desc := rfl
@[simp] theorem State.modHc_groups (s : State) (h : Nat) (f : Hc → Hc) : (s.modHc h f).groups = s.groups := rfl
@[simp] theorem State.modHc_teams (s : State) (h : Nat) (f : Hc → Hc) : (s.modHc h f).teams = s.teams := rfl
@[simp] theorem State.modHc_clusters (s : State) (h : Nat) (f : Hc → Hc) : (s.modHc h f).clusters = s.clusters := rfl
@[simp] theorem State.modHc_cores (s : State) (h : Nat) (f : Hc → Hc) : (s.modHc h f).cores = s.cores := rfl
@[simp] theorem State.modHc_hcs (s : State) (h : Nat) (f : Hc → Hc) : (s.modHc h f).hcs = tput s.hcs h (f (s.hc h)) := rfl
@[simp] theorem State.modHc_doms (s : State) (h : Nat) (f : Hc → Hc) : (s.modHc h f).doms = s.doms := rfl
@[simp] theorem State.modHc_ctxs (s : State) (h : Nat) (f : Hc → Hc) : (s.modHc h f).ctxs = s.ctxs := rfl
@[simp] theorem State.modHc_lines (s : State) (h : Nat) (f : Hc → Hc) : (s.modHc h f).lines = s.lines := rfl
@[simp] theorem State.modHc_dirs (s : State) (h : Nat) (f : Hc → Hc) : (s.modHc h f).dirs = s.dirs := rfl
@[simp] theorem State.modHc_nodes (s : State) (h : Nat) (f : Hc → Hc) : (s.modHc h f).nodes = s.nodes := rfl
@[simp] theorem State.modHc_posted (s : State) (h : Nat) (f : Hc → Hc) : (s.modHc h f).posted = s.posted := rfl
@[simp] theorem State.modHc_wafer (s : State) (h : Nat) (f : Hc → Hc) : (s.modHc h f).wafer = s.wafer := rfl

@[simp] theorem State.setPts_now (s : State) (cid v : Nat) : (s.setPts cid v).now = s.now := rfl
@[simp] theorem State.setPts_turns (s : State) (cid v : Nat) : (s.setPts cid v).turns = s.turns := rfl
@[simp] theorem State.setPts_cur (s : State) (cid v : Nat) : (s.setPts cid v).cur = s.cur := rfl
@[simp] theorem State.setPts_uid (s : State) (cid v : Nat) : (s.setPts cid v).uid = s.uid := rfl
@[simp] theorem State.setPts_freeUsed (s : State) (cid v : Nat) : (s.setPts cid v).freeUsed = s.freeUsed := rfl
@[simp] theorem State.setPts_agenda (s : State) (cid v : Nat) : (s.setPts cid v).agenda = s.agenda := rfl
@[simp] theorem State.setPts_work (s : State) (cid v : Nat) : (s.setPts cid v).work = s.work := rfl
@[simp] theorem State.setPts_mem (s : State) (cid v : Nat) : (s.setPts cid v).mem = s.mem := rfl
@[simp] theorem State.setPts_desc (s : State) (cid v : Nat) : (s.setPts cid v).desc = s.desc := rfl
@[simp] theorem State.setPts_groups (s : State) (cid v : Nat) : (s.setPts cid v).groups = s.groups := rfl
@[simp] theorem State.setPts_teams (s : State) (cid v : Nat) : (s.setPts cid v).teams = s.teams := rfl
@[simp] theorem State.setPts_clusters (s : State) (cid v : Nat) : (s.setPts cid v).clusters = s.clusters := rfl
@[simp] theorem State.setPts_hcs (s : State) (cid v : Nat) : (s.setPts cid v).hcs = s.hcs := rfl
@[simp] theorem State.setPts_doms (s : State) (cid v : Nat) : (s.setPts cid v).doms = s.doms := rfl
@[simp] theorem State.setPts_ctxs (s : State) (cid v : Nat) : (s.setPts cid v).ctxs = s.ctxs := rfl
@[simp] theorem State.setPts_lines (s : State) (cid v : Nat) : (s.setPts cid v).lines = s.lines := rfl
@[simp] theorem State.setPts_dirs (s : State) (cid v : Nat) : (s.setPts cid v).dirs = s.dirs := rfl
@[simp] theorem State.setPts_nodes (s : State) (cid v : Nat) : (s.setPts cid v).nodes = s.nodes := rfl
@[simp] theorem State.setPts_posted (s : State) (cid v : Nat) : (s.setPts cid v).posted = s.posted := rfl
@[simp] theorem State.setPts_wafer (s : State) (cid v : Nat) : (s.setPts cid v).wafer = s.wafer := rfl

@[simp] theorem State.modGroup_now (s : State) (gid : Nat) (f : Group → Group) : (s.modGroup gid f).now = s.now := by
  unfold State.modGroup; split <;> rfl
@[simp] theorem State.modGroup_turns (s : State) (gid : Nat) (f : Group → Group) : (s.modGroup gid f).turns = s.turns := by
  unfold State.modGroup; split <;> rfl
@[simp] theorem State.modGroup_cur (s : State) (gid : Nat) (f : Group → Group) : (s.modGroup gid f).cur = s.cur := by
  unfold State.modGroup; split <;> rfl
@[simp] theorem State.modGroup_uid (s : State) (gid : Nat) (f : Group → Group) : (s.modGroup gid f).uid = s.uid := by
  unfold State.modGroup; split <;> rfl
@[simp] theorem State.modGroup_freeUsed (s : State) (gid : Nat) (f : Group → Group) : (s.modGroup gid f).freeUsed = s.freeUsed := by
  unfold State.modGroup; split <;> rfl
@[simp] theorem State.modGroup_agenda (s : State) (gid : Nat) (f : Group → Group) : (s.modGroup gid f).agenda = s.agenda := by
  unfold State.modGroup; split <;> rfl
@[simp] theorem State.modGroup_work (s : State) (gid : Nat) (f : Group → Group) : (s.modGroup gid f).work = s.work := by
  unfold State.modGroup; split <;> rfl
@[simp] theorem State.modGroup_mem (s : State) (gid : Nat) (f : Group → Group) : (s.modGroup gid f).mem = s.mem := by
  unfold State.modGroup; split <;> rfl
@[simp] theorem State.modGroup_desc (s : State) (gid : Nat) (f : Group → Group) : (s.modGroup gid f).desc = s.desc := by
  unfold State.modGroup; split <;> rfl
@[simp] theorem State.modGroup_teams (s : State) (gid : Nat) (f : Group → Group) : (s.modGroup gid f).teams = s.teams := by
  unfold State.modGroup; split <;> rfl
@[simp] theorem State.modGroup_clusters (s : State) (gid : Nat) (f : Group → Group) : (s.modGroup gid f).clusters = s.clusters := by
  unfold State.modGroup; split <;> rfl
@[simp] theorem State.modGroup_cores (s : State) (gid : Nat) (f : Group → Group) : (s.modGroup gid f).cores = s.cores := by
  unfold State.modGroup; split <;> rfl
@[simp] theorem State.modGroup_hcs (s : State) (gid : Nat) (f : Group → Group) : (s.modGroup gid f).hcs = s.hcs := by
  unfold State.modGroup; split <;> rfl
@[simp] theorem State.modGroup_doms (s : State) (gid : Nat) (f : Group → Group) : (s.modGroup gid f).doms = s.doms := by
  unfold State.modGroup; split <;> rfl
@[simp] theorem State.modGroup_ctxs (s : State) (gid : Nat) (f : Group → Group) : (s.modGroup gid f).ctxs = s.ctxs := by
  unfold State.modGroup; split <;> rfl
@[simp] theorem State.modGroup_lines (s : State) (gid : Nat) (f : Group → Group) : (s.modGroup gid f).lines = s.lines := by
  unfold State.modGroup; split <;> rfl
@[simp] theorem State.modGroup_dirs (s : State) (gid : Nat) (f : Group → Group) : (s.modGroup gid f).dirs = s.dirs := by
  unfold State.modGroup; split <;> rfl
@[simp] theorem State.modGroup_nodes (s : State) (gid : Nat) (f : Group → Group) : (s.modGroup gid f).nodes = s.nodes := by
  unfold State.modGroup; split <;> rfl
@[simp] theorem State.modGroup_posted (s : State) (gid : Nat) (f : Group → Group) : (s.modGroup gid f).posted = s.posted := by
  unfold State.modGroup; split <;> rfl
@[simp] theorem State.modGroup_wafer (s : State) (gid : Nat) (f : Group → Group) : (s.modGroup gid f).wafer = s.wafer := by
  unfold State.modGroup; split <;> rfl

@[simp] theorem State.modTeam_now (s : State) (tid : Nat) (f : Team → Team) : (s.modTeam tid f).now = s.now := by
  unfold State.modTeam; split <;> rfl
@[simp] theorem State.modTeam_turns (s : State) (tid : Nat) (f : Team → Team) : (s.modTeam tid f).turns = s.turns := by
  unfold State.modTeam; split <;> rfl
@[simp] theorem State.modTeam_cur (s : State) (tid : Nat) (f : Team → Team) : (s.modTeam tid f).cur = s.cur := by
  unfold State.modTeam; split <;> rfl
@[simp] theorem State.modTeam_uid (s : State) (tid : Nat) (f : Team → Team) : (s.modTeam tid f).uid = s.uid := by
  unfold State.modTeam; split <;> rfl
@[simp] theorem State.modTeam_freeUsed (s : State) (tid : Nat) (f : Team → Team) : (s.modTeam tid f).freeUsed = s.freeUsed := by
  unfold State.modTeam; split <;> rfl
@[simp] theorem State.modTeam_agenda (s : State) (tid : Nat) (f : Team → Team) : (s.modTeam tid f).agenda = s.agenda := by
  unfold State.modTeam; split <;> rfl
@[simp] theorem State.modTeam_work (s : State) (tid : Nat) (f : Team → Team) : (s.modTeam tid f).work = s.work := by
  unfold State.modTeam; split <;> rfl
@[simp] theorem State.modTeam_mem (s : State) (tid : Nat) (f : Team → Team) : (s.modTeam tid f).mem = s.mem := by
  unfold State.modTeam; split <;> rfl
@[simp] theorem State.modTeam_desc (s : State) (tid : Nat) (f : Team → Team) : (s.modTeam tid f).desc = s.desc := by
  unfold State.modTeam; split <;> rfl
@[simp] theorem State.modTeam_groups (s : State) (tid : Nat) (f : Team → Team) : (s.modTeam tid f).groups = s.groups := by
  unfold State.modTeam; split <;> rfl
@[simp] theorem State.modTeam_clusters (s : State) (tid : Nat) (f : Team → Team) : (s.modTeam tid f).clusters = s.clusters := by
  unfold State.modTeam; split <;> rfl
@[simp] theorem State.modTeam_cores (s : State) (tid : Nat) (f : Team → Team) : (s.modTeam tid f).cores = s.cores := by
  unfold State.modTeam; split <;> rfl
@[simp] theorem State.modTeam_hcs (s : State) (tid : Nat) (f : Team → Team) : (s.modTeam tid f).hcs = s.hcs := by
  unfold State.modTeam; split <;> rfl
@[simp] theorem State.modTeam_doms (s : State) (tid : Nat) (f : Team → Team) : (s.modTeam tid f).doms = s.doms := by
  unfold State.modTeam; split <;> rfl
@[simp] theorem State.modTeam_ctxs (s : State) (tid : Nat) (f : Team → Team) : (s.modTeam tid f).ctxs = s.ctxs := by
  unfold State.modTeam; split <;> rfl
@[simp] theorem State.modTeam_lines (s : State) (tid : Nat) (f : Team → Team) : (s.modTeam tid f).lines = s.lines := by
  unfold State.modTeam; split <;> rfl
@[simp] theorem State.modTeam_dirs (s : State) (tid : Nat) (f : Team → Team) : (s.modTeam tid f).dirs = s.dirs := by
  unfold State.modTeam; split <;> rfl
@[simp] theorem State.modTeam_nodes (s : State) (tid : Nat) (f : Team → Team) : (s.modTeam tid f).nodes = s.nodes := by
  unfold State.modTeam; split <;> rfl
@[simp] theorem State.modTeam_posted (s : State) (tid : Nat) (f : Team → Team) : (s.modTeam tid f).posted = s.posted := by
  unfold State.modTeam; split <;> rfl
@[simp] theorem State.modTeam_wafer (s : State) (tid : Nat) (f : Team → Team) : (s.modTeam tid f).wafer = s.wafer := by
  unfold State.modTeam; split <;> rfl

@[simp] theorem State.modCtx_now (s : State) (a : Nat) (f : Ctx → Ctx) : (s.modCtx a f).now = s.now := by
  unfold State.modCtx; split <;> rfl
@[simp] theorem State.modCtx_turns (s : State) (a : Nat) (f : Ctx → Ctx) : (s.modCtx a f).turns = s.turns := by
  unfold State.modCtx; split <;> rfl
@[simp] theorem State.modCtx_cur (s : State) (a : Nat) (f : Ctx → Ctx) : (s.modCtx a f).cur = s.cur := by
  unfold State.modCtx; split <;> rfl
@[simp] theorem State.modCtx_uid (s : State) (a : Nat) (f : Ctx → Ctx) : (s.modCtx a f).uid = s.uid := by
  unfold State.modCtx; split <;> rfl
@[simp] theorem State.modCtx_freeUsed (s : State) (a : Nat) (f : Ctx → Ctx) : (s.modCtx a f).freeUsed = s.freeUsed := by
  unfold State.modCtx; split <;> rfl
@[simp] theorem State.modCtx_agenda (s : State) (a : Nat) (f : Ctx → Ctx) : (s.modCtx a f).agenda = s.agenda := by
  unfold State.modCtx; split <;> rfl
@[simp] theorem State.modCtx_work (s : State) (a : Nat) (f : Ctx → Ctx) : (s.modCtx a f).work = s.work := by
  unfold State.modCtx; split <;> rfl
@[simp] theorem State.modCtx_mem (s : State) (a : Nat) (f : Ctx → Ctx) : (s.modCtx a f).mem = s.mem := by
  unfold State.modCtx; split <;> rfl
@[simp] theorem State.modCtx_desc (s : State) (a : Nat) (f : Ctx → Ctx) : (s.modCtx a f).desc = s.desc := by
  unfold State.modCtx; split <;> rfl
@[simp] theorem State.modCtx_groups (s : State) (a : Nat) (f : Ctx → Ctx) : (s.modCtx a f).groups = s.groups := by
  unfold State.modCtx; split <;> rfl
@[simp] theorem State.modCtx_teams (s : State) (a : Nat) (f : Ctx → Ctx) : (s.modCtx a f).teams = s.teams := by
  unfold State.modCtx; split <;> rfl
@[simp] theorem State.modCtx_clusters (s : State) (a : Nat) (f : Ctx → Ctx) : (s.modCtx a f).clusters = s.clusters := by
  unfold State.modCtx; split <;> rfl
@[simp] theorem State.modCtx_cores (s : State) (a : Nat) (f : Ctx → Ctx) : (s.modCtx a f).cores = s.cores := by
  unfold State.modCtx; split <;> rfl
@[simp] theorem State.modCtx_hcs (s : State) (a : Nat) (f : Ctx → Ctx) : (s.modCtx a f).hcs = s.hcs := by
  unfold State.modCtx; split <;> rfl
@[simp] theorem State.modCtx_doms (s : State) (a : Nat) (f : Ctx → Ctx) : (s.modCtx a f).doms = s.doms := by
  unfold State.modCtx; split <;> rfl
@[simp] theorem State.modCtx_lines (s : State) (a : Nat) (f : Ctx → Ctx) : (s.modCtx a f).lines = s.lines := by
  unfold State.modCtx; split <;> rfl
@[simp] theorem State.modCtx_dirs (s : State) (a : Nat) (f : Ctx → Ctx) : (s.modCtx a f).dirs = s.dirs := by
  unfold State.modCtx; split <;> rfl
@[simp] theorem State.modCtx_nodes (s : State) (a : Nat) (f : Ctx → Ctx) : (s.modCtx a f).nodes = s.nodes := by
  unfold State.modCtx; split <;> rfl
@[simp] theorem State.modCtx_posted (s : State) (a : Nat) (f : Ctx → Ctx) : (s.modCtx a f).posted = s.posted := by
  unfold State.modCtx; split <;> rfl
@[simp] theorem State.modCtx_wafer (s : State) (a : Nat) (f : Ctx → Ctx) : (s.modCtx a f).wafer = s.wafer := by
  unfold State.modCtx; split <;> rfl

@[simp] theorem State.modNode_now (s : State) (nid : Nat) (f : Node → Node) : (s.modNode nid f).now = s.now := by
  unfold State.modNode; split <;> rfl
@[simp] theorem State.modNode_turns (s : State) (nid : Nat) (f : Node → Node) : (s.modNode nid f).turns = s.turns := by
  unfold State.modNode; split <;> rfl
@[simp] theorem State.modNode_cur (s : State) (nid : Nat) (f : Node → Node) : (s.modNode nid f).cur = s.cur := by
  unfold State.modNode; split <;> rfl
@[simp] theorem State.modNode_uid (s : State) (nid : Nat) (f : Node → Node) : (s.modNode nid f).uid = s.uid := by
  unfold State.modNode; split <;> rfl
@[simp] theorem State.modNode_freeUsed (s : State) (nid : Nat) (f : Node → Node) : (s.modNode nid f).freeUsed = s.freeUsed := by
  unfold State.modNode; split <;> rfl
@[simp] theorem State.modNode_agenda (s : State) (nid : Nat) (f : Node → Node) : (s.modNode nid f).agenda = s.agenda := by
  unfold State.modNode; split <;> rfl
@[simp] theorem State.modNode_work (s : State) (nid : Nat) (f : Node → Node) : (s.modNode nid f).work = s.work := by
  unfold State.modNode; split <;> rfl
@[simp] theorem State.modNode_mem (s : State) (nid : Nat) (f : Node → Node) : (s.modNode nid f).mem = s.mem := by
  unfold State.modNode; split <;> rfl
@[simp] theorem State.modNode_desc (s : State) (nid : Nat) (f : Node → Node) : (s.modNode nid f).desc = s.desc := by
  unfold State.modNode; split <;> rfl
@[simp] theorem State.modNode_groups (s : State) (nid : Nat) (f : Node → Node) : (s.modNode nid f).groups = s.groups := by
  unfold State.modNode; split <;> rfl
@[simp] theorem State.modNode_teams (s : State) (nid : Nat) (f : Node → Node) : (s.modNode nid f).teams = s.teams := by
  unfold State.modNode; split <;> rfl
@[simp] theorem State.modNode_clusters (s : State) (nid : Nat) (f : Node → Node) : (s.modNode nid f).clusters = s.clusters := by
  unfold State.modNode; split <;> rfl
@[simp] theorem State.modNode_cores (s : State) (nid : Nat) (f : Node → Node) : (s.modNode nid f).cores = s.cores := by
  unfold State.modNode; split <;> rfl
@[simp] theorem State.modNode_hcs (s : State) (nid : Nat) (f : Node → Node) : (s.modNode nid f).hcs = s.hcs := by
  unfold State.modNode; split <;> rfl
@[simp] theorem State.modNode_doms (s : State) (nid : Nat) (f : Node → Node) : (s.modNode nid f).doms = s.doms := by
  unfold State.modNode; split <;> rfl
@[simp] theorem State.modNode_ctxs (s : State) (nid : Nat) (f : Node → Node) : (s.modNode nid f).ctxs = s.ctxs := by
  unfold State.modNode; split <;> rfl
@[simp] theorem State.modNode_lines (s : State) (nid : Nat) (f : Node → Node) : (s.modNode nid f).lines = s.lines := by
  unfold State.modNode; split <;> rfl
@[simp] theorem State.modNode_dirs (s : State) (nid : Nat) (f : Node → Node) : (s.modNode nid f).dirs = s.dirs := by
  unfold State.modNode; split <;> rfl
@[simp] theorem State.modNode_posted (s : State) (nid : Nat) (f : Node → Node) : (s.modNode nid f).posted = s.posted := by
  unfold State.modNode; split <;> rfl
@[simp] theorem State.modNode_wafer (s : State) (nid : Nat) (f : Node → Node) : (s.modNode nid f).wafer = s.wafer := by
  unfold State.modNode; split <;> rfl

/-! Messages. -/

/-- A message never arrives before its own clocks have passed. -/
theorem State.le_arrivesAt (s : State) (id : Nat) (j : Job) (t : Nat) : t ≤ s.arrivesAt id j t := by
  unfold State.arrivesAt
  split
  · exact Nat.le_refl t
  · have key : ∀ (l : List Work) (p : Work → Bool) (d : Nat) (a : Nat),
        a ≤ l.foldl (fun t w => if p w then max t (w.due + d) else t) a := by
      intro l p d
      induction l with
      | nil => exact fun a => Nat.le_refl a
      | cons w l ih =>
        intro a
        refine Nat.le_trans (m := if p w then max a (w.due + d) else a) ?_ (ih _)
        split
        · exact Nat.le_max_left _ _
        · exact Nat.le_refl _
    exact Nat.le_trans (key _ _ 0 _) (key _ _ 1 _)

/-- One that travels between no ports arrives when its clocks have passed. -/
theorem State.arrivesAt_none (s : State) (id : Nat) (j : Job) (t : Nat) (h : j.channel = none) : s.arrivesAt id j t = t := by
  simp only [State.arrivesAt, h]

end Sys2Proof.Machine
end

