-- ==== Sys2Proof/Laws/Table.lean ====
section
/-! SUPPORT. Tables: reading after writing, canonical form. -/

namespace Sys2Proof.Machine

variable {α : Type}

theorem tget_tput_same (t : Tbl α) (x : Nat) (a : α) : tget (tput t x a) x = some a := by
  induction t with
  | nil => simp [tput, tget]
  | cons e t ih =>
    obtain ⟨k, b⟩ := e
    simp only [tput]
    split
    · simp [tget]
    · split
      · simp [tget]
      · rename_i h1 h2
        have : k ≠ x := fun h => h2 h.symm
        simp [tget, this, ih]

theorem tget_tput_other (t : Tbl α) (x y : Nat) (a : α) (h : y ≠ x) : tget (tput t x a) y = tget t y := by
  induction t with
  | nil => simp [tput, tget, Ne.symm h]
  | cons e t ih =>
    obtain ⟨k, b⟩ := e
    simp only [tput]
    split
    · simp [tget, Ne.symm h]
    · split
      · rename_i h1 h2
        subst h2
        simp [tget, Ne.symm h]
      · simp only [tget, ih]

theorem tget_tput (t : Tbl α) (x y : Nat) (a : α) : tget (tput t x a) y = if y = x then some a else tget t y := by
  split
  · rename_i h; subst h; exact tget_tput_same t y a
  · rename_i h; exact tget_tput_other t x y a h

theorem tget_tdel_other (t : Tbl α) (x y : Nat) (h : y ≠ x) : tget (tdel t x) y = tget t y := by
  induction t with
  | nil => rfl
  | cons e t ih =>
    obtain ⟨k, b⟩ := e
    simp only [tdel]
    split
    · rename_i hk; subst hk; simp [tget, Ne.symm h]
    · simp only [tget, ih]

/-- Keys of a table. -/
theorem tget_none_of_lt (t : Tbl α) (x : Nat) (h : ∀ c ∈ t, x < c.1) : tget t x = none := by
  induction t with
  | nil => rfl
  | cons e t ih =>
    obtain ⟨k, b⟩ := e
    have hk := h (k, b) (by simp)
    have : k ≠ x := by simp at hk; omega
    simp [tget, this, ih fun c hc => h c (by simp [hc])]

theorem tget_tdel_same (t : Tbl α) (x : Nat) (h : t.Pairwise fun a b => a.1 < b.1) : tget (tdel t x) x = none := by
  induction t with
  | nil => rfl
  | cons e t ih =>
    obtain ⟨k, b⟩ := e
    rw [List.pairwise_cons] at h
    simp only [tdel]
    split
    · rename_i hk; subst hk
      exact tget_none_of_lt t k fun c hc => h.1 c hc
    · rename_i hk
      simp [tget, hk, ih h.2]

theorem mem_tput (t : Tbl α) (x : Nat) (a : α) (c : Nat × α) (h : c ∈ tput t x a) : c = (x, a) ∨ c ∈ t := by
  induction t with
  | nil => simp [tput] at h; exact .inl h
  | cons e t ih =>
    obtain ⟨k, b⟩ := e
    simp only [tput] at h
    split at h
    · simpa using h
    · split at h
      · simp at h; rcases h with h | h
        · exact .inl h
        · exact .inr (by simp [h])
      · simp at h; rcases h with h | h
        · exact .inr (by simp [h])
        · rcases ih h with h | h
          · exact .inl h
          · exact .inr (by simp [h])

theorem mem_tdel (t : Tbl α) (x : Nat) (c : Nat × α) (h : c ∈ tdel t x) : c ∈ t := by
  induction t with
  | nil => simp [tdel] at h
  | cons e t ih =>
    obtain ⟨k, b⟩ := e
    simp only [tdel] at h
    split at h
    · simp [h]
    · simp at h; rcases h with h | h
      · simp [h]
      · simp [ih h]

theorem tput_rises (t : Tbl α) (x : Nat) (a : α) (h : t.Pairwise fun a b => a.1 < b.1) : (tput t x a).Pairwise fun a b => a.1 < b.1 := by
  induction t with
  | nil => simp [tput]
  | cons e t ih =>
    obtain ⟨k, b⟩ := e
    rw [List.pairwise_cons] at h
    simp only [tput]
    split
    · rename_i hk
      rw [List.pairwise_cons]
      refine ⟨fun c hc => ?_, List.pairwise_cons.mpr h⟩
      simp at hc
      rcases hc with hc | hc
      · simp [hc, hk]
      · exact Nat.lt_trans hk (h.1 c hc)
    · split
      · rename_i hk; subst hk
        exact List.pairwise_cons.mpr ⟨fun c hc => h.1 c hc, h.2⟩
      · rw [List.pairwise_cons]
        refine ⟨fun c hc => ?_, ih h.2⟩
        rcases mem_tput t x a c hc with hc | hc
        · simp [hc]; omega
        · exact h.1 c hc

theorem tdel_rises (t : Tbl α) (x : Nat) (h : t.Pairwise fun a b => a.1 < b.1) : (tdel t x).Pairwise fun a b => a.1 < b.1 := by
  induction t with
  | nil => simp [tdel]
  | cons e t ih =>
    obtain ⟨k, b⟩ := e
    rw [List.pairwise_cons] at h
    simp only [tdel]
    split
    · exact h.2
    · exact List.pairwise_cons.mpr ⟨fun c hc => h.1 c (mem_tdel t x c hc), ih h.2⟩

theorem tputD_canon [DecidableEq α] (t : Tbl α) (x : Nat) (d a : α) (h : Canon d t) : Canon d (tputD t x d a) := by
  unfold tputD
  split
  · exact ⟨tdel_rises t x h.1, fun c hc => h.2 c (mem_tdel t x c hc)⟩
  · rename_i ha
    refine ⟨tput_rises t x a h.1, fun c hc => ?_⟩
    rcases mem_tput t x a c hc with hc | hc
    · simpa [hc] using ha
    · exact h.2 c hc

theorem tgetD_tputD_other [DecidableEq α] (t : Tbl α) (x y : Nat) (d e a : α) (h : y ≠ x) : tgetD (tputD t x d a) y e = tgetD t y e := by
  unfold tgetD tputD
  split
  · rw [tget_tdel_other t x y h]
  · rw [tget_tput_other t x y a h]

theorem tgetD_tputD_same [DecidableEq α] (t : Tbl α) (x : Nat) (d a : α) (h : t.Pairwise fun a b => a.1 < b.1) :
    tgetD (tputD t x d a) x d = a := by
  unfold tgetD tputD
  split
  · rename_i ha; rw [tget_tdel_same t x h, ha]; rfl
  · rw [tget_tput_same]; rfl

/-! Memory (R6). -/

theorem memPut_wf (m : List Host.Cell) (a : Nat) (b : Byte) (h : Memory.wf m) : Memory.wf (memPut m a b) := tputD_canon m a _ b h

theorem memWrite_wf (m : List Host.Cell) (a : Nat) (bs : List Byte) (h : Memory.wf m) : Memory.wf (memWrite m a bs) := by
  induction bs generalizing m a with
  | nil => exact h
  | cons b bs ih => exact ih _ _ (memPut_wf m a b h)

theorem memGet_memPut_same (m : List Host.Cell) (a : Nat) (b : Byte) (h : Memory.wf m) : memGet (memPut m a b) a = b :=
  tgetD_tputD_same m a _ b h.1

theorem memGet_memPut_other (m : List Host.Cell) (a x : Nat) (b : Byte) (h : x ≠ a) : memGet (memPut m a b) x = memGet m x :=
  tgetD_tputD_other m a x _ _ b h

theorem memGet_memWrite_before (m : List Host.Cell) (a x : Nat) (bs : List Byte) (h : x < a) : memGet (memWrite m a bs) x = memGet m x := by
  induction bs generalizing m a with
  | nil => rfl
  | cons b bs ih => rw [memWrite, ih _ _ (by omega), memGet_memPut_other _ _ _ _ (by omega)]

theorem memGet_memWrite_outside (m : List Host.Cell) (a x : Nat) (bs : List Byte) (h : x < a ∨ a + bs.length ≤ x) :
    memGet (memWrite m a bs) x = memGet m x := by
  rcases h with h | h
  · exact memGet_memWrite_before m a x bs h
  · induction bs generalizing m a with
    | nil => rfl
    | cons b bs ih =>
      simp only [List.length_cons] at h
      rw [memWrite, ih _ _ (by omega), memGet_memPut_other _ _ _ _ (by omega)]

theorem memGet_memWrite_inside (m : List Host.Cell) (a i : Nat) (bs : List Byte) (hw : Memory.wf m) (h : i < bs.length) :
    memGet (memWrite m a bs) (a + i) = bs[i] := by
  induction bs generalizing m a i with
  | nil => simp at h
  | cons b bs ih =>
    rw [memWrite]
    cases i with
    | zero => rw [memGet_memWrite_before _ _ _ _ (by omega)]; simpa using memGet_memPut_same m a b hw
    | succ i =>
      have := ih (memPut m a b) (a + 1) i (memPut_wf m a b hw) (by simpa using h)
      rw [show a + (i + 1) = a + 1 + i by omega, this]; rfl

theorem reset_memory_wf : Memory.wf State.reset.mem := by decide

/-! Accessors of the state after updates. -/

@[simp] theorem State.group_putGroup (s : State) (gid : Nat) (g : Group) : (s.putGroup gid g).group gid = some g := tget_tput_same _ _ _
theorem State.group_putGroup_other (s : State) (gid x : Nat) (g : Group) (h : x ≠ gid) : (s.putGroup gid g).group x = s.group x :=
  tget_tput_other _ _ _ _ h
@[simp] theorem State.team_putTeam (s : State) (tid : Nat) (t : Team) : (s.putTeam tid t).team tid = some t := tget_tput_same _ _ _
@[simp] theorem State.ctx_putCtx (s : State) (a : Nat) (c : Ctx) : (s.putCtx a c).ctx a = some c := tget_tput_same _ _ _
@[simp] theorem State.core_putCore (s : State) (cid : Nat) (c : Core) : (s.putCore cid c).core cid = c := by
  simp [State.core, State.putCore, tgetD, tget_tput_same]
@[simp] theorem State.dom_putDom (s : State) (d : Nat) (x : Dom) : (s.putDom d x).dom d = x := by
  simp [State.dom, State.putDom, tgetD, tget_tput_same]
@[simp] theorem State.hc_putHc (s : State) (h : Nat) (x : Hc) : (s.putHc h x).hc h = x := by
  simp [State.hc, State.putHc, tgetD, tget_tput_same]
theorem State.core_putCore_other (s : State) (cid x : Nat) (c : Core) (h : x ≠ cid) : (s.putCore cid c).core x = s.core x := by
  simp [State.core, State.putCore, tgetD, tget_tput_other _ _ _ _ h]
theorem State.dom_putDom_other (s : State) (d y : Nat) (x : Dom) (h : y ≠ d) : (s.putDom d x).dom y = s.dom y := by
  simp [State.dom, State.putDom, tgetD, tget_tput_other _ _ _ _ h]

end Sys2Proof.Machine
end

