-- ==== Sys2Proof/Laws/Window.lean ====
section
/-! SUPPORT. The forwarding window: what landing results, leaving results and completing an instruction do to the registers. -/

namespace Sys2Proof.Machine

/-! Register banks. -/

theorem lane_map_range (f : Nat → Word) (l : Nat) (h : l < 32) : lane ((List.range 32).map f) l = f l := by
  simp [lane, List.getD, h]

theorem lane_singleton (w : Word) (l : Nat) : lane [w] l = if l = 0 then w else 0 := by
  cases l <;> simp [lane]

/-- Whether a bank holds lane l of a register of this kind. -/
def RegName.hasLane (n : RegName) (l : Nat) : Bool :=
  match n with
  | .vec _ => true
  | .scal _ => l == 0
  | _ => false

theorem bankLanes_bankPut (g : Group) (n m : RegName) (k : LaneMask) (v : Lanes) (l : Nat) (h : l < 32)
    (hv : Canon zeroLanes g.vregs) (hs : Canon 0 g.sregs) :
    lane ((g.bankPut n k v).bankLanes m) l = if m = n ∧ n.hasLane l = true ∧ k.getLsbD l = true then lane v l else lane (g.bankLanes m) l := by
  cases n with
  | vec r =>
    cases m with
    | vec r' =>
      by_cases hr : r' = r
      · subst hr
        simp only [Group.bankPut, Group.bankLanes]
        rw [tgetD_tputD_same _ _ _ _ hv.1, lane_map_range _ _ h]
        simp [RegName.hasLane]
      · simp only [Group.bankPut, Group.bankLanes, tgetD_tputD_other _ _ _ _ _ _ hr]
        simp [hr]
    | _ => simp [Group.bankPut, Group.bankLanes]
  | scal r =>
    cases m with
    | scal r' =>
      by_cases hk : k.getLsbD 0 = true
      · simp only [Group.bankPut, hk, if_true]
        by_cases hr : r' = r
        · subst hr
          simp only [Group.bankLanes]
          rw [tgetD_tputD_same _ _ _ _ hs.1]
          by_cases hl : l = 0
          · subst hl; simp [hk, lane, RegName.hasLane]
          · simp [hl, lane_singleton, RegName.hasLane]
        · simp only [Group.bankLanes, tgetD_tputD_other _ _ _ _ _ _ hr]
          simp [hr]
      · simp only [Group.bankPut, if_neg hk]
        by_cases hl : l = 0
        · subst hl; rw [if_neg fun c => hk c.2.2]
        · simp [hl, RegName.hasLane]
    | _ => simp only [Group.bankPut]; split <;> simp [Group.bankLanes]
  | pred i => simp [Group.bankPut, RegName.hasLane]
  | spec i => simp [Group.bankPut, RegName.hasLane]

theorem bankPut_canon (g : Group) (n : RegName) (k : LaneMask) (v : Lanes) (hv : Canon zeroLanes g.vregs) (hs : Canon 0 g.sregs) :
    Canon zeroLanes (g.bankPut n k v).vregs ∧ Canon 0 (g.bankPut n k v).sregs := by
  cases n with
  | vec r => exact ⟨tputD_canon _ _ _ _ hv, hs⟩
  | scal r =>
    simp only [Group.bankPut]
    split
    · exact ⟨hv, tputD_canon _ _ _ _ hs⟩
    · exact ⟨hv, hs⟩
  | pred i => exact ⟨hv, hs⟩
  | spec i => exact ⟨hv, hs⟩

@[simp] theorem mend_vregs (g : Group) (n : RegName) (k : LaneMask) : (g.mend n k).vregs = g.vregs := rfl
@[simp] theorem mend_sregs (g : Group) (n : RegName) (k : LaneMask) : (g.mend n k).sregs = g.sregs := rfl
@[simp] theorem mend_results (g : Group) (n : RegName) (k : LaneMask) : (g.mend n k).results = g.results := rfl
@[simp] theorem mend_bankLanes (g : Group) (n m : RegName) (k : LaneMask) : (g.mend n k).bankLanes m = g.bankLanes m := by cases m <;> rfl

theorem bankLanes_writeBank (g : Group) (n m : RegName) (k : LaneMask) (v : Lanes) (l : Nat) (h : l < 32)
    (hv : Canon zeroLanes g.vregs) (hs : Canon 0 g.sregs) :
    lane ((g.writeBank n k v).bankLanes m) l = if m = n ∧ n.hasLane l = true ∧ k.getLsbD l = true then lane v l else lane (g.bankLanes m) l := by
  rw [Group.writeBank, mend_bankLanes]; exact bankLanes_bankPut g n m k v l h hv hs

theorem writeBank_canon (g : Group) (n : RegName) (k : LaneMask) (v : Lanes) (hv : Canon zeroLanes g.vregs) (hs : Canon 0 g.sregs) :
    Canon zeroLanes (g.writeBank n k v).vregs ∧ Canon 0 (g.writeBank n k v).sregs := bankPut_canon g n k v hv hs

/-- Writing results to the banks in order. -/
def Group.writeAll (g : Group) (rs : List Result) : Group := rs.foldl (fun g r => g.writeBank r.dst r.liveMask r.vals) g

/-- Whether a result writes lane l of register n when it leaves. -/
def Result.livesAt (r : Result) (n : RegName) (l : Nat) : Bool := r.dst == n && n.hasLane l && r.liveMask.getLsbD l

theorem writeAll_canon (g : Group) (rs : List Result) (hv : Canon zeroLanes g.vregs) (hs : Canon 0 g.sregs) :
    Canon zeroLanes (g.writeAll rs).vregs ∧ Canon 0 (g.writeAll rs).sregs := by
  induction rs generalizing g with
  | nil => exact ⟨hv, hs⟩
  | cons r rs ih =>
    have := writeBank_canon g r.dst r.liveMask r.vals hv hs
    exact ih _ this.1 this.2

theorem bankLanes_writeAll (g : Group) (rs : List Result) (n : RegName) (l : Nat) (h : l < 32) (hv : Canon zeroLanes g.vregs)
    (hs : Canon 0 g.sregs) :
    lane ((g.writeAll rs).bankLanes n) l = rs.foldl (fun w r => if r.livesAt n l = true then lane r.vals l else w) (lane (g.bankLanes n) l) := by
  induction rs generalizing g with
  | nil => rfl
  | cons r rs ih =>
    have hc := writeBank_canon g r.dst r.liveMask r.vals hv hs
    have hb := bankLanes_writeBank g r.dst n r.liveMask r.vals l h hv hs
    have : (n = r.dst ∧ r.dst.hasLane l = true ∧ r.liveMask.getLsbD l = true) ↔ r.livesAt n l = true := by
      simp only [Result.livesAt, Bool.and_eq_true, beq_iff_eq]
      constructor
      · rintro ⟨rfl, a, b⟩; exact ⟨⟨rfl, a⟩, b⟩
      · rintro ⟨⟨rfl, a⟩, b⟩; exact ⟨rfl, a, b⟩
    show lane (((g.writeBank r.dst r.liveMask r.vals).writeAll rs).bankLanes n) l = _
    rw [ih _ hc.1 hc.2, hb]
    simp only [List.foldl_cons, this]

/-! Folding live values: at most one result is live in a lane. -/

theorem foldl_live_none (rs : List Result) (p : Result → Bool) (v : Result → Word) (w : Word) (h : ∀ r ∈ rs, p r = false) :
    rs.foldl (fun w r => if p r = true then v r else w) w = w := by
  induction rs generalizing w with
  | nil => rfl
  | cons r rs ih =>
    simp only [List.foldl_cons, h r (by simp)]
    exact ih _ fun x hx => h x (by simp [hx])

theorem foldl_live_some (rs : List Result) (p : Result → Bool) (v : Result → Word) (w : Word) (r : Result)
    (hp : rs.Pairwise fun a b => ¬(p a = true ∧ p b = true)) (hr : r ∈ rs) (hl : p r = true) :
    rs.foldl (fun w r => if p r = true then v r else w) w = v r := by
  induction rs generalizing w with
  | nil => simp at hr
  | cons x rs ih =>
    rw [List.pairwise_cons] at hp
    rcases List.mem_cons.mp hr with h | h
    · subst h
      simp only [List.foldl_cons, hl, if_true]
      exact foldl_live_none rs p v _ fun y hy => by
        have := hp.1 y hy
        simp [hl] at this
        exact this
    · simp only [List.foldl_cons]
      exact ih _ hp.2 h

/-- Folding a part first and the rest after it gives what folding all in order gives. -/
theorem foldl_live_split (rs : List Result) (p q : Result → Bool) (v : Result → Word) (w : Word)
    (hp : rs.Pairwise fun a b => ¬(p a = true ∧ p b = true)) :
    (rs.filter fun r => !q r).foldl (fun w r => if p r = true then v r else w)
        ((rs.filter q).foldl (fun w r => if p r = true then v r else w) w) =
      rs.foldl (fun w r => if p r = true then v r else w) w := by
  induction rs generalizing w with
  | nil => rfl
  | cons x xs ih =>
    rw [List.pairwise_cons] at hp
    by_cases hx : p x = true
    · have hn : ∀ y ∈ xs, p y = false := fun y hy => by
        have := hp.1 y hy
        simpa [hx] using this
      have hnq : ∀ y ∈ xs.filter q, p y = false := fun y hy => hn y (List.mem_filter.mp hy).1
      have hnn : ∀ y ∈ xs.filter (fun r => !q r), p y = false := fun y hy => hn y (List.mem_filter.mp hy).1
      by_cases hq : q x = true
      · simp [hq, hx, foldl_live_none _ _ _ _ hnq, foldl_live_none _ _ _ _ hnn, foldl_live_none _ _ _ _ hn]
      · simp [hq, hx, foldl_live_none _ _ _ _ hnq, foldl_live_none _ _ _ _ hnn, foldl_live_none _ _ _ _ hn]
    · have := ih w hp.2
      by_cases hq : q x = true
      · simpa [hq, hx] using this
      · simpa [hq, hx] using this

theorem writeBank_results (g : Group) (n : RegName) (k : LaneMask) (v : Lanes) : (g.writeBank n k v).results = g.results := by
  cases n with
  | scal r => simp only [Group.writeBank, mend_results, Group.bankPut]; split <;> rfl
  | _ => rfl

theorem writeAll_results (g : Group) (rs : List Result) : (g.writeAll rs).results = g.results := by
  induction rs generalizing g with
  | nil => rfl
  | cons r rs ih => exact (ih _).trans (writeBank_results _ _ _ _)

/-! How registers stand (R80, R81). -/

theorem bankLanes_congr (g g' : Group) (hv : g'.vregs = g.vregs) (hs : g'.sregs = g.sregs) (n : RegName) : g'.bankLanes n = g.bankLanes n := by
  cases n <;> simp only [Group.bankLanes, hv, hs]

/-- The landed results, oldest first. -/
def Group.landedResults (g : Group) : List Result := g.results.filter (·.landed)

/-- A register's lane is the value of the one live landed result, or the bank's. -/
theorem stands_eq (g : Group) (n : RegName) (l : Nat) (h : l < 32) (hv : Canon zeroLanes g.vregs) (hs : Canon 0 g.sregs) :
    g.stands n l =
      g.landedResults.foldl (fun w r => if r.livesAt n l = true then lane r.vals l else w) (lane (g.bankLanes n) l) := by
  have := bankLanes_writeAll { g with results := g.results.filter fun r => !r.landed } g.landedResults n l h hv hs
  rw [bankLanes_congr g { g with results := g.results.filter fun r => !r.landed } rfl rfl] at this
  exact this

theorem liveMask_bit (r : Result) (l : Nat) (h : l < 32) :
    r.liveMask.getLsbD l = (r.mask.getLsbD l && !r.beaten.getLsbD l && !r.kill.getLsbD l) := by
  simp [Result.liveMask, h]

/-- Two results whose live lanes differ are not both live in one lane. -/
theorem not_both_live (a b : Result) (n : RegName) (l : Nat) (h : a.dst = b.dst → a.liveMask &&& b.liveMask = 0) :
    ¬(a.livesAt n l = true ∧ b.livesAt n l = true) := by
  rintro ⟨ha, hb⟩
  simp only [Result.livesAt, Bool.and_eq_true, beq_iff_eq] at ha hb
  have h0 := h (ha.1.1.trans hb.1.1.symm)
  have : (a.liveMask &&& b.liveMask).getLsbD l = true := by rw [BitVec.getLsbD_and, ha.2, hb.2]; rfl
  rw [h0] at this
  simp at this

theorem sane_live (g : Group) (h : g.Sane) (n : RegName) (l : Nat) :
    g.landedResults.Pairwise fun a b => ¬(a.livesAt n l = true ∧ b.livesAt n l = true) :=
  h.2.2.1.imp fun {a b} hab => not_both_live a b n l hab

/-- Results that leave the window keep every register as it stands. -/
theorem stands_expire (g : Group) (h : g.Sane) (n : RegName) (l : Nat) (hl : l < 32) : g.expire.stands n l = g.stands n l := by
  let q : Result → Bool := fun r => decide (r.num + Config.windowDepth < g.sched.issued)
  let rest := g.results.filter fun r => !(r.landed && decide (r.num + Config.windowDepth < g.sched.issued))
  let g1 : Group := { g with results := rest }
  have he : g.expire = g1.writeAll (g.results.filter fun r => r.landed && decide (r.num + Config.windowDepth < g.sched.issued)) := rfl
  have hc := writeAll_canon g1 (g.results.filter fun r => r.landed && decide (r.num + Config.windowDepth < g.sched.issued)) h.1 h.2.1
  rw [he, stands_eq _ n l hl hc.1 hc.2, stands_eq g n l hl h.1 h.2.1]
  rw [bankLanes_writeAll g1 _ n l hl h.1 h.2.1, bankLanes_congr g g1 rfl rfl]
  have e1 : (g.results.filter fun r => r.landed && decide (r.num + Config.windowDepth < g.sched.issued)) = g.landedResults.filter q := by
    simp only [Group.landedResults, List.filter_filter]
    exact List.filter_congr fun x _ => Bool.and_comm _ _
  have e2 : (g1.writeAll (g.results.filter fun r => r.landed && decide (r.num + Config.windowDepth < g.sched.issued))).landedResults =
      g.landedResults.filter fun r => !q r := by
    simp only [Group.landedResults, writeAll_results, List.filter_filter, g1, rest]
    refine List.filter_congr fun x _ => ?_
    cases x.landed <;> simp [q]
  rw [e1] at *
  rw [e2]
  exact foldl_live_split _ _ _ _ _ (sane_live g h n l)

theorem sane_expire (g : Group) (h : g.Sane) : g.expire.Sane := by
  let g1 : Group := { g with results := g.results.filter fun r => !(r.landed && decide (r.num + Config.windowDepth < g.sched.issued)) }
  have hc := writeAll_canon g1 (g.results.filter fun r => r.landed && decide (r.num + Config.windowDepth < g.sched.issued)) h.1 h.2.1
  refine ⟨hc.1, hc.2, ?_, ?_⟩
  · show ((g1.writeAll _).results.filter _).Pairwise _
    rw [writeAll_results]
    refine h.2.2.1.sublist ?_
    exact (List.filter_sublist).filter _
  · show ∀ r ∈ (g1.writeAll _).results, _
    rw [writeAll_results]
    exact fun r hr hl => h.2.2.2 r (List.mem_filter.mp hr).1 hl

end Sys2Proof.Machine
end

