-- ==== Sys2Proof/Laws/Finish.lean ====
section
/-! SUPPORT. What completing an instruction does (R41, R79-R81, R98): one law for State.finish, and what the sources with KILL and the
results entered before it leave alone. -/

namespace Sys2Proof.Machine

/-! Draining the window. -/

theorem stands_drain (g : Group) (h : g.Sane) (n : RegName) (l : Nat) (hl : l < 32) : g.drain.stands n l = g.stands n l := by
  let g1 : Group := { g with results := g.results.filter fun r => !r.landed }
  have hc := writeAll_canon g1 g.landedResults h.1 h.2.1
  have he : g.drain = g1.writeAll g.landedResults := rfl
  rw [stands_eq g.drain n l hl (he ▸ hc.1) (he ▸ hc.2)]
  have : g.drain.landedResults = [] := by
    rw [he]
    simp only [Group.landedResults, writeAll_results, g1, List.filter_filter]
    exact List.filter_eq_nil_iff.mpr fun x _ => by cases x.landed <;> simp
  rw [this]
  rfl

theorem sane_drain (g : Group) (h : g.Sane) : g.drain.Sane := by
  let g1 : Group := { g with results := g.results.filter fun r => !r.landed }
  have hc := writeAll_canon g1 g.landedResults h.1 h.2.1
  have he : g.drain = g1.writeAll g.landedResults := rfl
  refine ⟨he ▸ hc.1, he ▸ hc.2, ?_, ?_⟩
  · rw [he, writeAll_results]
    exact h.2.2.1.sublist (List.filter_sublist.filter _)
  · rw [he, writeAll_results]
    exact fun r hr hl => h.2.2.2 r (List.mem_filter.mp hr).1 hl

/-! The frame of the banks: only vregs, sregs, results and the words with errors move. -/

def Group.BankMove (g g' : Group) : Prop := ∃ v s r b, g' = { g with vregs := v, sregs := s, results := r, bad := b }

theorem Group.BankMove.trans {a b c : Group} (h : a.BankMove b) (k : b.BankMove c) : a.BankMove c := by
  obtain ⟨_, _, _, _, rfl⟩ := h
  obtain ⟨v, s, r, m, rfl⟩ := k
  exact ⟨v, s, r, m, rfl⟩

theorem bankMove_results (g : Group) (rs : List Result) : g.BankMove { g with results := rs } := ⟨g.vregs, g.sregs, rs, g.bad, rfl⟩
theorem bankMove_mend (g : Group) (n : RegName) (k : LaneMask) : g.BankMove (g.mend n k) := ⟨g.vregs, g.sregs, g.results, _, rfl⟩

theorem bankMove_bankPut (g : Group) (n : RegName) (k : LaneMask) (v : Lanes) : g.BankMove (g.bankPut n k v) := by
  cases n with
  | vec r => exact ⟨_, g.sregs, g.results, g.bad, rfl⟩
  | scal r =>
    simp only [Group.bankPut]
    split
    · exact ⟨g.vregs, _, g.results, g.bad, rfl⟩
    · exact bankMove_results g g.results
  | _ => exact bankMove_results g g.results

theorem bankMove_writeBank (g : Group) (n : RegName) (k : LaneMask) (v : Lanes) : g.BankMove (g.writeBank n k v) :=
  (bankMove_bankPut g n k v).trans (bankMove_mend _ n k)

theorem bankMove_writeAll (g : Group) (rs : List Result) : g.BankMove (g.writeAll rs) := by
  induction rs generalizing g with
  | nil => exact bankMove_results g g.results
  | cons r rs ih => exact (bankMove_writeBank _ _ _ _).trans (ih _)

theorem bankMove_expire (g : Group) : g.BankMove g.expire := (bankMove_results g _).trans (bankMove_writeAll _ _)
theorem bankMove_drain (g : Group) : g.BankMove g.drain := (bankMove_results g _).trans (bankMove_writeAll _ _)

theorem mem_expire_results (g : Group) (r : Result) (h : r ∈ g.results) (hl : r.landed = false) : r ∈ g.expire.results := by
  show r ∈ (Group.writeAll _ _).results
  rw [writeAll_results]
  exact List.mem_filter.mpr ⟨h, by simp [hl]⟩

theorem mem_drain_results (g : Group) (r : Result) (h : r ∈ g.results) (hl : r.landed = false) : r ∈ g.drain.results := by
  show r ∈ (Group.writeAll _ _).results
  rw [writeAll_results]
  exact List.mem_filter.mpr ⟨h, by simp [hl]⟩

/-! Results entered, and sources with KILL. -/

/-- What an instruction may do to a group before it completes: enter results that have not landed, and mark registers read with KILL. -/
structure Group.Prepared (g g' : Group) (us : List Use) : Prop where
  move : g' = { g with results := g'.results }
  sane : g.Sane → g'.Sane
  regs : g.Sane → ∀ n l, l < 32 → g.killed us n = false → g'.stands n l = g.stands n l
  keeps : ∀ r ∈ g.results, r.landed = false → r ∈ g'.results

theorem prepared_refl (g : Group) (us : List Use) : g.Prepared g us := ⟨rfl, id, fun _ _ _ _ _ => rfl, fun _ h _ => h⟩

theorem landed_append (g : Group) (r : Result) (h : r.landed = false) :
    ({ g with results := g.results ++ [r] } : Group).landedResults = g.landedResults := by
  simp [Group.landedResults, List.filter_append, h]

/-- A group that differs in its results alone, and not in the landed ones, stands alike. -/
theorem stands_results (g g' : Group) (n : RegName) (l : Nat) (hl : l < 32) (h : g.Sane) (hm : g' = { g with results := g'.results })
    (hr : g'.landedResults = g.landedResults) : g'.stands n l = g.stands n l := by
  have hv : g'.vregs = g.vregs := by rw [hm]
  have hs : g'.sregs = g.sregs := by rw [hm]
  rw [stands_eq g' n l hl (hv ▸ h.1) (hs ▸ h.2.1), stands_eq g n l hl h.1 h.2.1, hr, bankLanes_congr g g' hv hs]

theorem sane_results (g g' : Group) (h : g.Sane) (hm : g' = { g with results := g'.results }) (hr : g'.landedResults = g.landedResults)
    (hf : ∀ r ∈ g'.results, r.landed = false → r.beaten = 0 ∧ r.kill = 0) : g'.Sane := by
  have hv : g'.vregs = g.vregs := by rw [hm]
  have hs : g'.sregs = g.sregs := by rw [hm]
  exact ⟨hv ▸ h.1, hs ▸ h.2.1, (hr ▸ h.2.2.1 : g'.landedResults.Pairwise _), hf⟩

theorem addResult_move (g : Group) (due : Nat) (dst : RegName) (mask : LaneMask) (vals : Lanes) (fl : Flags) :
    g.addResult due dst mask vals fl = { g with results := (g.addResult due dst mask vals fl).results } := by
  unfold Group.addResult
  split <;> rfl

theorem addResult_landed (g : Group) (due : Nat) (dst : RegName) (mask : LaneMask) (vals : Lanes) (fl : Flags) :
    (g.addResult due dst mask vals fl).landedResults = g.landedResults := by
  unfold Group.addResult
  split
  · rfl
  · exact landed_append g _ rfl

theorem Group.Prepared.addResult {g g' : Group} {us : List Use} (p : g.Prepared g' us) (due : Nat) (dst : RegName) (mask : LaneMask) (vals : Lanes)
    (fl : Flags) : g.Prepared (g'.addResult due dst mask vals fl) us where
  move := by rw [addResult_move, p.move]
  sane h := sane_results g' _ (p.sane h) (addResult_move _ _ _ _ _ _) (addResult_landed _ _ _ _ _ _) fun r hr hl => by
    unfold Group.addResult at hr
    split at hr
    · exact (p.sane h).2.2.2 r hr hl
    · rcases List.mem_append.mp hr with h1 | h1
      · exact (p.sane h).2.2.2 r h1 hl
      · rw [List.mem_singleton.mp h1]
        exact ⟨rfl, rfl⟩
  regs h n l hl hk := by
    rw [stands_results g' _ n l hl (p.sane h) (addResult_move _ _ _ _ _ _) (addResult_landed _ _ _ _ _ _), p.regs h n l hl hk]
  keeps r hr hl := by
    have := p.keeps r hr hl
    unfold Group.addResult
    split
    · exact this
    · exact List.mem_append_left _ this

theorem mem_addResult (g : Group) (due : Nat) (dst : RegName) (mask : LaneMask) (vals : Lanes) (fl : Flags) (h : ¬(mask = 0 ∧ fl = 0)) :
    { num := g.sched.issued, due := due, landed := false, dst := dst, mask := mask, vals := vals, flags := fl, beaten := 0, kill := 0 } ∈
      (g.addResult due dst mask vals fl).results := by
  unfold Group.addResult
  rw [if_neg h]
  exact List.mem_append_right _ (List.mem_singleton.mpr rfl)

/-! KILL. -/

/-- What killLanes does to one result. -/
def Result.killed (r : Result) (issued : Nat) (n : RegName) (m : LaneMask) : Result :=
  if r.dst == n then { r with kill := r.kill ||| maskOf fun l => m.getLsbD l && r.serves issued n l } else r

theorem killed_fields (r : Result) (i : Nat) (n : RegName) (m : LaneMask) :
    (r.killed i n m).dst = r.dst ∧ (r.killed i n m).landed = r.landed ∧ (r.killed i n m).vals = r.vals ∧ (r.killed i n m).mask = r.mask ∧
      (r.killed i n m).beaten = r.beaten := by
  unfold Result.killed
  split <;> exact ⟨rfl, rfl, rfl, rfl, rfl⟩

theorem killed_other (r : Result) (i : Nat) (n : RegName) (m : LaneMask) (h : r.dst ≠ n) : r.killed i n m = r := by
  unfold Result.killed
  rw [if_neg (by simpa using h)]

theorem maskOf_false : maskOf (fun _ => false) = 0 := by decide

theorem killed_unlanded (r : Result) (i : Nat) (n : RegName) (m : LaneMask) (h : r.landed = false) : r.killed i n m = r := by
  unfold Result.killed
  split
  · have : (fun l => m.getLsbD l && r.serves i n l) = fun _ => false := by
      funext l
      simp [Result.serves, h]
    rw [this, maskOf_false]
    simp
  · rfl

theorem killed_live (r : Result) (i : Nat) (n : RegName) (m : LaneMask) (l : Nat) (hl : l < 32)
    (h : (r.killed i n m).liveMask.getLsbD l = true) : r.liveMask.getLsbD l = true := by
  rw [liveMask_bit _ l hl] at h ⊢
  obtain ⟨-, -, -, hm, hb⟩ := killed_fields r i n m
  rw [hm, hb] at h
  simp only [Bool.and_eq_true, Bool.not_eq_true'] at h ⊢
  refine ⟨h.1, ?_⟩
  have hk := h.2
  unfold Result.killed at hk
  split at hk
  · simp only [BitVec.getLsbD_or, Bool.or_eq_false_iff] at hk
    exact hk.1
  · exact hk

theorem and_zero_of_bits (a b : LaneMask) (h : ∀ l, l < 32 → ¬(a.getLsbD l = true ∧ b.getLsbD l = true)) : a &&& b = 0 := by
  ext l hl
  have := h l hl
  rw [BitVec.getLsbD_eq_getElem hl, BitVec.getLsbD_eq_getElem hl] at this
  simp only [BitVec.getElem_and, BitVec.ofNat_eq_ofNat, BitVec.getElem_zero]
  by_contra hc
  exact this (by simpa using hc)

theorem killLanes_landed (g : Group) (n : RegName) (m : LaneMask) :
    (g.killLanes n m).landedResults = g.landedResults.map fun r => r.killed g.sched.issued n m := by
  show ((g.results.map fun r => r.killed g.sched.issued n m).filter _) = _
  rw [List.filter_map]
  congr 1
  exact List.filter_congr fun r _ => (killed_fields r _ n m).2.1

theorem Group.Prepared.killLanes {g g' : Group} {us : List Use} (p : g.Prepared g' us) (n : RegName) (m : LaneMask) (hn : g.killed us n = true) :
    g.Prepared (g'.killLanes n m) us where
  move := by
    have : g'.killLanes n m = { g' with results := (g'.killLanes n m).results } := rfl
    rw [this, p.move]
  sane h := by
    have hs := p.sane h
    refine ⟨hs.1, hs.2.1, (?_ : (g'.killLanes n m).landedResults.Pairwise _), ?_⟩
    on_goal 2 =>
      intro r hr hl
      obtain ⟨x, hx, rfl⟩ := List.mem_map.mp (show r ∈ g'.results.map fun r => r.killed g'.sched.issued n m from hr)
      have hxl : x.landed = false := (killed_fields x g'.sched.issued n m).2.1 ▸ hl
      rw [killed_unlanded x _ n m hxl]
      exact hs.2.2.2 x hx hxl
    rw [killLanes_landed]
    refine (List.Pairwise.map _ ?_ hs.2.2.1)
    intro a b hab hd
    rw [(killed_fields a _ n m).1, (killed_fields b _ n m).1] at hd
    refine and_zero_of_bits _ _ fun l hl hc => ?_
    have h0 := hab hd
    have : (a.liveMask &&& b.liveMask).getLsbD l = true := by
      rw [BitVec.getLsbD_and, killed_live a _ n m l hl hc.1, killed_live b _ n m l hl hc.2]
      rfl
    rw [h0] at this
    simp at this
  regs h n' l hl hk := by
    have hne : n' ≠ n := by
      rintro rfl
      rw [hn] at hk
      exact absurd hk (by simp)
    rw [← p.regs h n' l hl hk]
    have hs := p.sane h
    rw [stands_eq (g'.killLanes n m) n' l hl hs.1 hs.2.1, stands_eq g' n' l hl hs.1 hs.2.1, killLanes_landed,
      bankLanes_congr g' (g'.killLanes n m) rfl rfl, List.foldl_map]
    congr 1
    funext w r
    by_cases hd : r.dst = n
    · have h1 : (r.killed g'.sched.issued n m).livesAt n' l = false := by
        simp [Result.livesAt, (killed_fields r g'.sched.issued n m).1, hd, hne.symm]
      have h2 : r.livesAt n' l = false := by simp [Result.livesAt, hd, hne.symm]
      simp [h1, h2]
    · rw [killed_other r _ n m hd]
  keeps r hr hl := by
    have := p.keeps r hr hl
    show r ∈ g'.results.map fun r => r.killed g'.sched.issued n m
    exact List.mem_map.mpr ⟨r, this, killed_unlanded r _ n m hl⟩

/-- The names of sources read the loops alone. -/
theorem srcName_congr (g g' : Group) (h : g'.loops = g.loops) (f : SFile) (r : Nat) : srcName g' f r = srcName g f r := by
  have hp : g'.innerPipe = g.innerPipe := by simp only [Group.innerPipe, Group.innermost, Group.loop, h]; rfl
  cases f
  · simp only [srcName, Group.rename, hp, Group.loop, h]; rfl
  · rfl
  · rfl

/-- The names of one source marked with KILL. -/
theorem prepared_killUse {g g' : Group} {us : List Use} (run aMask : LaneMask) (p : g.Prepared g' us) (u : Use) (hu : u ∈ us) (hk : u.kill = true) (is : List Nat)
    (hi : ∀ i ∈ is, i < u.count) :
    g.Prepared (is.foldl (fun g i =>
        match srcName g u.file (u.reg + i) with
        | some (.vec r) => g.killLanes (.vec r) (if u.pos = 0 then aMask else run)
        | some n => g.killLanes n 1
        | none => g) g') us := by
  induction is generalizing g' with
  | nil => exact p
  | cons i is ih =>
    refine ih ?_ fun j hj => hi j (List.mem_cons_of_mem _ hj)
    have hl : g'.loops = g.loops := by rw [p.move]
    have hkn : ∀ n, srcName g u.file (u.reg + i) = some n → g.killed us n = true := fun n hn => by
      simp only [Group.killed, List.any_eq_true, Bool.and_eq_true, List.mem_range, beq_iff_eq]
      exact ⟨u, hu, hk, i, hi i (List.mem_cons_self ..), hn⟩
    beta_reduce
    rw [srcName_congr g g' hl]
    split
    · rename_i r hr
      exact p.killLanes _ _ (hkn _ hr)
    · rename_i n _ hr
      exact p.killLanes _ _ (hkn _ hr)
    · exact p

/-- Sources with KILL leave every other register as it stands. -/
theorem prepared_killUses (g : Group) (run aMask : LaneMask) (us : List Use) : g.Prepared (g.killUses run aMask us) us := by
  suffices h : ∀ (vs : List Use) (g' : Group), (∀ u ∈ vs, u ∈ us) → g.Prepared g' us → g.Prepared (g'.killUses run aMask vs) us from
    h us g (fun _ h => h) (prepared_refl g us)
  intro vs
  induction vs with
  | nil => exact fun _ _ p => p
  | cons u vs ih =>
    intro g' hv p
    refine ih _ (fun x hx => hv x (List.mem_cons_of_mem _ hx)) ?_
    beta_reduce
    split
    · rename_i hk
      exact prepared_killUse run aMask p u (hv u (List.mem_cons_self ..)) hk _ fun i hi => List.mem_range.mp hi
    · exact p

/-! The back edge (R98). -/

theorem backEdge_move (g : Group) (fuel : Nat) :
    ∃ c ls, (g.backEdge fuel).1 = { g with cnt := c, loops := ls } := by
  induction fuel generalizing g with
  | zero => exact ⟨g.cnt, g.loops, rfl⟩
  | succ n ih =>
    unfold Group.backEdge
    split
    · exact ⟨g.cnt, g.loops, rfl⟩
    · dsimp only
      split
      · split
        · exact ⟨_, _, rfl⟩
        · obtain ⟨c, ls, h⟩ := ih _
          exact ⟨c, ls, h.trans rfl⟩
      · exact ⟨g.cnt, g.loops, rfl⟩

/-- The innermost of the accepted loops is live and accepted. -/
theorem innermost_live (g : Group) (p : LoopReg → Bool) (k : Nat) (h : g.innermost p = some k) : (g.loop k).live = true ∧ p (g.loop k) = true := by
  suffices ∀ (ks : List Nat) (best : Option Nat), (∀ b, best = some b → (g.loop b).live = true ∧ p (g.loop b) = true) →
      ∀ k, ks.foldl (fun best k =>
        let l := g.loop k
        if l.live && p l then
          match best with
          | some b => if (g.loop b).level < l.level then some k else best
          | none => some k
        else best) best = some k → (g.loop k).live = true ∧ p (g.loop k) = true from
    this (List.range 4) none (by simp) k h
  intro ks
  induction ks with
  | nil => exact fun best hb k hk => hb k hk
  | cons x xs ih =>
    intro best hb k hk
    refine ih _ ?_ k hk
    intro b hbx
    dsimp only at hbx
    split at hbx
    · rename_i hx
      have hx : (g.loop x).live = true ∧ p (g.loop x) = true := by simpa using hx
      split at hbx
      · split at hbx
        · simp only [Option.some.injEq] at hbx
          exact hbx ▸ hx
        · exact hb b hbx
      · simp only [Option.some.injEq] at hbx
        exact hbx ▸ hx
    · exact hb b hbx

theorem backEdge_none (g : Group) (fuel : Nat) (h : g.NoLoopEnd) : g.backEdge fuel = (g, none) := by
  cases fuel with
  | zero => rfl
  | succ n =>
    unfold Group.backEdge
    split
    · rfl
    · rename_i k hk
      dsimp only
      rw [if_neg (h k (innermost_live g _ k hk).1)]

/-! Completing an instruction. -/

theorem noLoopEnd_congr (g g' : Group) (hl : g'.loops = g.loops) (hp : g'.pc = g.pc) (h : g.NoLoopEnd) : g'.NoLoopEnd := by
  intro k hk
  have e : g'.loop k = g.loop k := by simp only [Group.loop, hl]
  rw [e, hp]
  exact h k (e ▸ hk)

/-- The group after completing, before the window moves on. -/
theorem stands_congr (g g' : Group) (n : RegName) (l : Nat) (hv : g'.vregs = g.vregs) (hs : g'.sregs = g.sregs) (hr : g'.results = g.results)
    (hl : l < 32) (h : g.Sane) : g'.stands n l = g.stands n l := by
  rw [stands_eq g' n l hl (hv ▸ h.1) (hs ▸ h.2.1), stands_eq g n l hl h.1 h.2.1, bankLanes_congr g g' hv hs]
  simp only [Group.landedResults, hr]

theorem sane_congr (g g' : Group) (hv : g'.vregs = g.vregs) (hs : g'.sregs = g.sregs) (hr : g'.results = g.results) (h : g.Sane) : g'.Sane :=
  ⟨hv ▸ h.1, hs ▸ h.2.1, hr ▸ h.2.2⟩

/-- Moving the window on keeps what has not landed and how every register stands. -/
theorem movedOn_eq (g : Group) (sw drains : Bool) :
    ∃ v sr rs b pk, g.movedOn sw drains = { g with vregs := v, sregs := sr, results := rs, bad := b, park := pk } := by
  have key : ∃ v sr rs b, (if drains = true then g.expire.drain else g.expire) = { g with vregs := v, sregs := sr, results := rs, bad := b } := by
    split
    · exact (bankMove_expire g).trans (bankMove_drain g.expire)
    · exact bankMove_expire g
  obtain ⟨v, sr, rs, b, h⟩ := key
  unfold Group.movedOn
  dsimp only
  rw [h]
  split
  · exact ⟨v, sr, rs, b, _, rfl⟩
  · exact ⟨v, sr, rs, b, g.park, rfl⟩

theorem movedOn_banks (g : Group) (sw drains : Bool) :
    ∃ x, (x = g.expire ∨ x = g.expire.drain) ∧ (g.movedOn sw drains).vregs = x.vregs ∧ (g.movedOn sw drains).sregs = x.sregs ∧
      (g.movedOn sw drains).results = x.results := by
  cases drains
  · refine ⟨g.expire, .inl rfl, ?_⟩
    simp only [Group.movedOn, Bool.false_eq_true, if_false]
    split <;> exact ⟨rfl, rfl, rfl⟩
  · refine ⟨g.expire.drain, .inr rfl, ?_⟩
    simp only [Group.movedOn, if_true]
    split <;> exact ⟨rfl, rfl, rfl⟩

theorem sane_movedOn (g : Group) (sw drains : Bool) (h : g.Sane) : (g.movedOn sw drains).Sane := by
  obtain ⟨x, hx, hv, hs, hr⟩ := movedOn_banks g sw drains
  refine sane_congr x _ hv hs hr ?_
  rcases hx with rfl | rfl
  · exact sane_expire g h
  · exact sane_drain _ (sane_expire g h)

theorem stands_movedOn (g : Group) (sw drains : Bool) (h : g.Sane) (n : RegName) (l : Nat) (hl : l < 32) :
    (g.movedOn sw drains).stands n l = g.stands n l := by
  obtain ⟨x, hx, hv, hs, hr⟩ := movedOn_banks g sw drains
  rcases hx with rfl | rfl
  · rw [stands_congr _ _ n l hv hs hr hl (sane_expire g h), stands_expire g h n l hl]
  · rw [stands_congr _ _ n l hv hs hr hl (sane_drain _ (sane_expire g h)), stands_drain _ (sane_expire g h) n l hl, stands_expire g h n l hl]

theorem mem_movedOn (g : Group) (sw drains : Bool) (r : Result) (h : r ∈ g.results) (hl : r.landed = false) : r ∈ (g.movedOn sw drains).results := by
  obtain ⟨x, hx, -, -, hr⟩ := movedOn_banks g sw drains
  rw [hr]
  rcases hx with rfl | rfl
  · exact mem_expire_results g r h hl
  · exact mem_drain_results _ r (mem_expire_results g r h hl) hl

/-- Past an instruction the banks and results are as they were. -/
theorem past_banks (g : Group) (clk gen : Nat) (jump : Option Addr) :
    (g.past clk gen jump).vregs = g.vregs ∧ (g.past clk gen jump).sregs = g.sregs ∧ (g.past clk gen jump).results = g.results := by
  cases jump with
  | some a => exact ⟨rfl, rfl, rfl⟩
  | none =>
    obtain ⟨c, ls, hb⟩ := backEdge_move g 4
    simp only [Group.past, hb, and_self]

theorem past_eq (g : Group) (clk gen : Nat) :
    ∃ pc c ls rp sc, g.past clk gen none =
        { g with pc := pc, cnt := c, loops := ls, replay := rp, acc := none, rel := none, held := none, sched := sc } ∧
      sc.issued = g.sched.issued + 1 ∧ (g.NoLoopEnd → pc = g.pc + 12 ∧ c = g.cnt ∧ ls = g.loops) := by
  obtain ⟨c, ls, hb⟩ := backEdge_move g 4
  refine ⟨(g.past clk gen none).pc, (g.past clk gen none).cnt, (g.past clk gen none).loops, (g.past clk gen none).replay,
    (g.past clk gen none).sched, ?_, rfl, ?_⟩
  · simp only [Group.past, hb]
  · intro hn
    have := backEdge_none g 4 hn
    simp only [Group.past, this, Option.getD, and_self]

/-- State.finish puts a group that has completed its instruction, with every result that has yet to land. -/
theorem finish_done (s : State) (gid : Nat) (g g1 : Group) (h : Hdr) (us : List Use) (p : g.Prepared g1 us) :
    ∃ g', s.finish gid g1 h none = s.putGroup gid g' ∧ g.Done g' us ∧ (g.Sane → g'.Sane) ∧ ∀ r ∈ g1.results, r.landed = false → r ∈ g'.results := by
  obtain ⟨hv, hs, hr⟩ := past_banks g1 (s.cclk (gidCid gid)) (s.core (gidCid gid)).igen none
  obtain ⟨pc, c, ls, rp, sc, hp, hi, hn⟩ := past_eq g1 (s.cclk (gidCid gid)) (s.core (gidCid gid)).igen
  obtain ⟨v, sr, rs, b, pk, hm⟩ := movedOn_eq (g1.past (s.cclk (gidCid gid)) (s.core (gidCid gid)).igen none) h.sch.sw (h.sch.sw && !g1.sched.drained)
  have hg := p.move
  refine ⟨_, rfl, ⟨?_, ?_, ?_, ?_⟩, ?_, ?_⟩
  · rw [hm, hp, hg]
  · rw [hm, hp]
    exact hi.trans (by rw [hg])
  · intro hl
    have := hn (noLoopEnd_congr g g1 (by rw [hg]) (by rw [hg]) hl)
    rw [hm, hp]
    exact ⟨this.1.trans (by rw [hg]), this.2.1.trans (by rw [hg]), this.2.2.trans (by rw [hg])⟩
  · intro hsn n l hl hk
    have h1 := sane_congr g1 _ hv hs hr (p.sane hsn)
    rw [stands_movedOn _ _ _ h1 n l hl, stands_congr _ _ n l hv hs hr hl (p.sane hsn), p.regs hsn n l hl hk]
  · exact fun hsn => sane_movedOn _ _ _ (sane_congr g1 _ hv hs hr (p.sane hsn))
  · exact fun r hmem hl => mem_movedOn _ _ _ r (hr ▸ hmem) hl

end Sys2Proof.Machine
end

