-- ==== Sys2Proof/Laws/Alu.lean ====
section
/-! SUPPORT. One law for every lane instruction: what State.alu does where a lane runs and every register can be named (R39, R106). -/

namespace Sys2Proof.Machine

theorem prepared_writeAlu {g g1 : Group} {us : List Use} (p : g.Prepared g1 us) (d : Dst) (wide : Bool) (run : LaneMask) (due : Nat)
    (f : Nat → LaneOut) : g.Prepared (g1.writeAlu d wide run due f) us := by
  unfold Group.writeAlu
  dsimp only
  split
  · split
    · exact (p.addResult _ _ _ _ _).addResult _ _ _ _ _
    · exact p.addResult _ _ _ _ _
  · split
    · exact (p.addResult _ _ _ _ _).addResult _ _ _ _ _
    · exact p.addResult _ _ _ _ _

theorem getD_map_range {α : Type} (f : Nat → α) (l : Nat) (d : α) (h : l < 32) : ((List.range 32).map f).getD l d = f l := by
  simp [List.getD, h]

theorem addResult_keeps (g : Group) (due : Nat) (dst : RegName) (mask : LaneMask) (vals : Lanes) (fl : Flags) (r : Result) (h : r ∈ g.results) :
    r ∈ (g.addResult due dst mask vals fl).results := by
  unfold Group.addResult
  split
  · exact h
  · exact List.mem_append_left _ h

theorem addResult_issued (g : Group) (due : Nat) (dst : RegName) (mask : LaneMask) (vals : Lanes) (fl : Flags) :
    (g.addResult due dst mask vals fl).sched = g.sched := by
  unfold Group.addResult
  split <;> rfl

theorem lanesOf_mem (m : LaneMask) (l : Nat) : l ∈ lanesOf m ↔ l < 32 ∧ m.getLsbD l = true := by
  simp [lanesOf]

/-- A mask with some lane has a first lane, which it has. -/
theorem firstLane_mem (m : LaneMask) (h : m ≠ 0) : firstLane m < 32 ∧ m.getLsbD (firstLane m) = true := by
  unfold firstLane
  cases hl : lanesOf m with
  | nil =>
    exfalso
    apply h
    ext l hl'
    have : l ∉ lanesOf m := by rw [hl]; simp
    rw [lanesOf_mem] at this
    rw [BitVec.getLsbD_eq_getElem hl'] at this
    simpa [hl'] using this
  | cons x xs =>
    have : x ∈ lanesOf m := by rw [hl]; simp
    exact (lanesOf_mem m x).mp this

theorem orFlagsOf_congr (m : LaneMask) (f g : Nat → Flags) (h : ∀ l, l < 32 → m.getLsbD l = true → f l = g l) : orFlagsOf m f = orFlagsOf m g := by
  unfold orFlagsOf
  suffices ∀ (ls : List Nat) (a : Flags), (∀ l ∈ ls, l < 32 ∧ m.getLsbD l = true) → ls.foldl (fun a l => a ||| f l) a = ls.foldl (fun a l => a ||| g l) a from
    this _ _ fun l hl => (lanesOf_mem m l).mp hl
  intro ls
  induction ls with
  | nil => exact fun _ _ => rfl
  | cons x xs ih =>
    intro a hx
    simp only [List.foldl_cons]
    rw [h x (hx x (by simp)).1 (hx x (by simp)).2]
    exact ih _ fun l hl => hx l (by simp [hl])

theorem awaits_addResult (g : Group) (num due : Nat) (dst : RegName) (mask : LaneMask) (vals : Lanes) (fl : Flags) (v : Nat → Word)
    (hn : g.sched.issued = num) (h : ¬(mask = 0 ∧ fl = 0)) (hv : ∀ l, l < 32 → mask.getLsbD l = true → lane vals l = v l) :
    (g.addResult due dst mask vals fl).Awaits num due dst mask v fl :=
  ⟨_, mem_addResult g due dst mask vals fl h, hn, rfl, rfl, rfl, rfl, rfl, hv⟩

theorem awaits_mono (g g' : Group) (num due : Nat) (dst : RegName) (mask : LaneMask) (fl : Flags) (v : Nat → Word)
    (h : ∀ r ∈ g.results, r.landed = false → r ∈ g'.results) (a : g.Awaits num due dst mask v fl) : g'.Awaits num due dst mask v fl := by
  obtain ⟨r, hr, h1, h2, h3, h4⟩ := a
  exact ⟨r, h r hr h3, h1, h2, h3, h4⟩

theorem lane_one (w : Word) (v : Nat → Word) (hv : w = v 0) (l : Nat) (_ : l < 32) (hb : (1 : LaneMask).getLsbD l = true) : lane [w] l = v l := by
  have : l = 0 := by
    rcases Nat.eq_zero_or_pos l with h | h
    · exact h
    · simp [BitVec.getLsbD_one] at hb
      omega
  subst this
  exact hv

/-- The results that writeAlu enters. -/
theorem writeAlu_results (g g1 : Group) (us : List Use) (p : g.Prepared g1 us) (d : Dst) (wide : Bool) (run : LaneMask) (due : Nat) (f : Nat → LaneOut)
    (hr : run ≠ 0) : g.LaneResult (g1.writeAlu d wide run due f) due d wide run f := by
  have hn : ∀ file r, dstName g1 file r = dstName g file r := fun file r => by
    have hl : g1.loops = g.loops := by rw [p.move]
    cases file with
    | vec => exact Option.some.inj (by have := srcName_congr g g1 hl .vec r; simpa [srcName, dstName] using this)
    | _ => rfl
  have hi : g1.sched.issued = g.sched.issued := by rw [p.move]
  obtain ⟨h0, h1⟩ := firstLane_mem run hr
  have hf0 : (((List.range 32).map fun l => if run.getLsbD l = true then f l else (⟨0, 0, 0⟩ : LaneOut)).getD (((lanesOf run).head?).getD 0) ⟨0, 0, 0⟩) =
      f (firstLane run) :=
    (getD_map_range _ _ _ h0).trans (if_pos h1)
  have hw : ∀ (w : LaneOut → Word) l, l < 32 → run.getLsbD l = true →
      lane ((((List.range 32).map fun l => if run.getLsbD l = true then f l else (⟨0, 0, 0⟩ : LaneOut))).map w) l = w (f l) := fun w l hl hb => by
    rw [List.map_map, lane_map_range _ _ hl]
    simp only [Function.comp, if_pos hb]
  have hfl : orFlagsOf run (fun l => (((List.range 32).map fun l => if run.getLsbD l = true then f l else (⟨0, 0, 0⟩ : LaneOut)).getD l ⟨0, 0, 0⟩).fl) =
      orFlagsOf run fun l => (f l).fl :=
    orFlagsOf_congr run _ _ fun l hl hb => by rw [getD_map_range _ _ _ hl, if_pos hb]
  unfold Group.LaneResult
  dsimp only
  have hs : ∀ a b c e f', (g1.addResult a b c e f').sched.issued = g.sched.issued := fun a b c e f' => by rw [addResult_issued]; exact hi
  have hm : ¬(run = 0 ∧ (orFlagsOf run fun l => (f l).fl) = 0) := fun c => hr c.1
  split
  · rename_i hd
    unfold Group.writeAlu
    simp only [hd, hf0]
    cases wide <;> simp only [if_true, Bool.false_eq_true, if_false]
    · exact ⟨awaits_addResult _ _ _ _ _ _ _ _ hi (by simp) (lane_one _ _ rfl), fun h => h.elim⟩
    · exact ⟨awaits_mono _ _ _ _ _ _ _ _ (fun r h _ => addResult_keeps _ _ _ _ _ _ r h) (awaits_addResult _ _ _ _ _ _ _ _ hi (by simp) (lane_one _ _ rfl)),
        fun (_ : True) => awaits_addResult _ _ _ _ _ _ _ _ (hs _ _ _ _ _) (by simp) (lane_one _ _ rfl)⟩
  · rename_i hd
    have hw1 : g1.writeAlu d wide run due f =
        let a := g1.addResult due (dstName g d.file d.reg.toNat) run
          (((List.range 32).map fun l => if run.getLsbD l = true then f l else (⟨0, 0, 0⟩ : LaneOut)).map (·.w)) (orFlagsOf run fun l => (f l).fl)
        if wide = true then a.addResult due (dstName g d.file (d.reg.toNat + 1)) run
          (((List.range 32).map fun l => if run.getLsbD l = true then f l else (⟨0, 0, 0⟩ : LaneOut)).map (·.hi)) 0 else a := by
      unfold Group.writeAlu
      dsimp only
      rw [hfl]
      have hn2 : ∀ (a : Group) file r, a.loops = g1.loops → dstName a file r = dstName g file r := fun a file r h => by
        rw [← hn file r]
        cases file with
        | vec => exact Option.some.inj (by have := srcName_congr g1 a h .vec r; simpa [srcName, dstName] using this)
        | _ => rfl
      split
      · exact absurd ‹_› hd
      · simp only [hn]
        rw [hn2 (Group.addResult _ _ _ _ _ _) _ _ (by rw [addResult_move])]
    rw [hw1]
    cases wide <;> simp only [if_true, Bool.false_eq_true, if_false]
    · exact ⟨awaits_addResult _ _ _ _ _ _ _ _ hi hm (hw _), fun h => h.elim⟩
    · exact ⟨awaits_mono _ _ _ _ _ _ _ _ (fun r h _ => addResult_keeps _ _ _ _ _ _ r h) (awaits_addResult _ _ _ _ _ _ _ _ hi hm (hw _)),
        fun (_ : True) => awaits_addResult _ _ _ _ _ _ _ _ (hs _ _ _ _ _) (fun c => hr c.1) (hw _)⟩

/-- Every lane instruction whose lanes run and whose registers can be named completes with its result in flight. -/
theorem alu_done (s : State) (gid : Nat) (g : Group) (o : Alu) (sh : Shape) (t : Types) (lat : Nat) (f : AluIn → Nat → LaneOut)
    (hi : s.Issues gid g) (hr : g.LaneReady o sh) :
    s.LaneDone gid g o sh lat (f (s.aluIn gid g o t sh.w sh.single sh.signed)) (s.alu o sh t lat f) := by
  obtain ⟨hc, hg⟩ := hi
  subst hc
  obtain ⟨hrun, hname⟩ := hr
  have hp := prepared_writeAlu (prepared_killUses g (g.runMask o.hdr)
      (sh.aMask o (s.aluIn s.cur g o t sh.w sh.single sh.signed) (g.runMask o.hdr)) (aluUses o sh.w sh.readsA sh.readsB sh.single))
    o.d sh.w.d (g.runMask o.hdr) (s.cclk (gidCid s.cur) + lat) (f (s.aluIn s.cur g o t sh.w sh.single sh.signed))
  obtain ⟨g', hf, hd, -, hk⟩ := finish_done s s.cur g _ o.hdr _ hp
  refine ⟨g', ?_, hd, ?_⟩
  · simp only [State.alu, State.withGroup, hg, if_neg hrun, State.aluRun, hname, hf]
  · have hw := writeAlu_results g _ _ (prepared_killUses g (g.runMask o.hdr)
        (sh.aMask o (s.aluIn s.cur g o t sh.w sh.single sh.signed) (g.runMask o.hdr)) (aluUses o sh.w sh.readsA sh.readsB sh.single))
      o.d sh.w.d (g.runMask o.hdr) (s.cclk (gidCid s.cur) + lat) (f (s.aluIn s.cur g o t sh.w sh.single sh.signed)) hrun
    unfold Group.LaneResult at hw ⊢
    dsimp only at hw ⊢
    split
    · rename_i hfile
      rw [if_pos hfile] at hw
      exact ⟨awaits_mono _ _ _ _ _ _ _ _ hk hw.1, fun h => awaits_mono _ _ _ _ _ _ _ _ hk (hw.2 h)⟩
    · rename_i hfile
      rw [if_neg hfile] at hw
      exact ⟨awaits_mono _ _ _ _ _ _ _ _ hk hw.1, fun h => awaits_mono _ _ _ _ _ _ _ _ hk (hw.2 h)⟩

end Sys2Proof.Machine
end

