-- ==== Sys2Proof/Laws/Encoding.lean ====
section
/-! SUPPORT. Each field of an instruction word is read back from where the encoder puts it (R19-R36). -/

namespace Sys2Proof

theorem Fields.ofWord_toWord (f : Fields) : Fields.ofWord f.toWord = f := by
  obtain ⟨op, var, grd, sch, d, a, b, x⟩ := f
  simp only [Fields.ofWord, Fields.toWord, Fields.mk.injEq]
  refine ⟨?_, ?_, ?_, ?_, ?_, ?_, ?_, ?_⟩ <;>
  · ext i hi
    rw [BitVec.getElem_extractLsb', ← BitVec.getLsbD_eq_getElem]
    change BitVec.getLsbD (w := 8+4+5+8+19+18+18+16) (op ++ var ++ grd ++ sch ++ d ++ a ++ b ++ x) _ = _
    simp only [BitVec.getLsbD_append]
    repeat' split
    all_goals first | (exfalso; omega) | (congr 1; omega)

theorem Fields.toWord_ofWord (w : BitVec 96) : (Fields.ofWord w).toWord = w := by
  ext i hi
  simp only [Fields.ofWord, Fields.toWord]
  rw [← BitVec.getLsbD_eq_getElem, ← BitVec.getLsbD_eq_getElem]
  simp only [BitVec.getLsbD_append, BitVec.getLsbD_extractLsb']
  repeat' split
  all_goals (rw [decide_eq_true (by omega), Bool.true_and]; congr 1; omega)

/-! Field codes. -/

@[simp] theorem DFile.ofBits_bits (f : DFile) : DFile.ofBits f.bits = f := by cases f <;> rfl
@[simp] theorem Clamp.ofBits_bits (c : Clamp) : Clamp.ofBits c.bits = c := by cases c <;> rfl
@[simp] theorem Sub.ofBits_bits (s : Sub) : Sub.ofBits s.bits = s := by cases s <;> rfl
@[simp] theorem PermCls.ofBits_bits (c : PermCls) : PermCls.ofBits c.bits = c := by cases c <;> rfl
@[simp] theorem Rm.ofBits_bits (r : Rm) : Rm.ofBits r.bits = r := by cases r <;> rfl
@[simp] theorem Scope.ofBits_bits (s : Scope) : Scope.ofBits s.bits = s := by cases s <;> rfl
@[simp] theorem Ord.ofBits_bits (o : Ord) : Ord.ofBits o.bits = o := by cases o <;> rfl
@[simp] theorem Cpol.ofBits_bits (c : Cpol) : Cpol.ofBits c.bits = c := by cases c <;> rfl

theorem decGuard_encGuard (g : Guard) : decGuard (encGuard g) = g := by
  obtain ⟨n, s, i⟩ := g
  cases n <;> cases s <;> revert i <;> decide

theorem decSched_encSched (s : Sched) : decSched (encSched s) = s := by
  obtain ⟨a, b, c, d, e, p⟩ := s
  cases a <;> cases b <;> cases c <;> cases d <;> cases e <;> revert p <;> decide

/-! The pieces of each layout. -/

theorem encDst_parts (d : Dst) :
    (encDst d).extractLsb' 17 2 = d.file.bits ∧ (encDst d).extractLsb' 7 10 = d.reg ∧ (encDst d).extractLsb' 5 2 = d.clmp.bits ∧ (encDst d).extractLsb' 2 3 = d.scl ∧ (encDst d).extractLsb' 0 2 = (0 : BitVec 2) := by
  simp only [encDst]
  refine ⟨?_, ?_, ?_, ?_, ?_⟩ <;>
  · ext i hi
    rw [BitVec.getElem_extractLsb', ← BitVec.getLsbD_eq_getElem]
    change BitVec.getLsbD (w := 2 + 10 + 2 + 3 + 2) (d.file.bits ++ d.reg ++ d.clmp.bits ++ d.scl ++ (0 : BitVec 2)) _ = _
    simp only [BitVec.getLsbD_append]
    repeat' split
    all_goals first | (exfalso; omega) | (congr 1; omega)

theorem encSrc_parts (s : Src) :
    (encSrc s).extractLsb' 16 2 = s.file.bits ∧ (encSrc s).extractLsb' 6 10 = s.reg ∧ (encSrc s).extractLsb' 5 1 = bit s.neg ∧ (encSrc s).extractLsb' 4 1 = bit s.abs ∧ (encSrc s).extractLsb' 2 2 = s.sub.bits ∧ (encSrc s).extractLsb' 1 1 = bit s.kill ∧ (encSrc s).extractLsb' 0 1 = (0 : BitVec 1) := by
  simp only [encSrc]
  refine ⟨?_, ?_, ?_, ?_, ?_, ?_, ?_⟩ <;>
  · ext i hi
    rw [BitVec.getElem_extractLsb', ← BitVec.getLsbD_eq_getElem]
    change BitVec.getLsbD (w := 2 + 10 + 1 + 1 + 2 + 1 + 1) (s.file.bits ++ s.reg ++ bit s.neg ++ bit s.abs ++ s.sub.bits ++ bit s.kill ++ (0 : BitVec 1)) _ = _
    simp only [BitVec.getLsbD_append]
    repeat' split
    all_goals first | (exfalso; omega) | (congr 1; omega)

theorem encCSrc_parts (c : CSrc) :
    (encCSrc c).extractLsb' 15 1 = bit c.scal ∧ (encCSrc c).extractLsb' 5 10 = c.reg ∧ (encCSrc c).extractLsb' 4 1 = bit c.neg ∧ (encCSrc c).extractLsb' 3 1 = bit c.abs ∧ (encCSrc c).extractLsb' 1 2 = c.sub.bits ∧ (encCSrc c).extractLsb' 0 1 = bit c.kill := by
  simp only [encCSrc]
  refine ⟨?_, ?_, ?_, ?_, ?_, ?_⟩ <;>
  · ext i hi
    rw [BitVec.getElem_extractLsb', ← BitVec.getLsbD_eq_getElem]
    change BitVec.getLsbD (w := 1 + 10 + 1 + 1 + 2 + 1) (bit c.scal ++ c.reg ++ bit c.neg ++ bit c.abs ++ c.sub.bits ++ bit c.kill) _ = _
    simp only [BitVec.getLsbD_append]
    repeat' split
    all_goals first | (exfalso; omega) | (congr 1; omega)

theorem encXx_n_parts (b : Src) (p : Perm) (rm : Rm) :
    (encXx (.n b p rm)).extractLsb' 14 2 = p.cls.bits ∧ (encXx (.n b p rm)).extractLsb' 11 3 = p.seg ∧ (encXx (.n b p rm)).extractLsb' 6 5 = p.dist ∧ (encXx (.n b p rm)).extractLsb' 2 4 = (0 : BitVec 4) ∧ (encXx (.n b p rm)).extractLsb' 0 2 = rm.bits := by
  simp only [encXx]
  refine ⟨?_, ?_, ?_, ?_, ?_⟩ <;>
  · ext i hi
    rw [BitVec.getElem_extractLsb', ← BitVec.getLsbD_eq_getElem]
    change BitVec.getLsbD (w := 2 + 3 + 5 + 4 + 2) (p.cls.bits ++ p.seg ++ p.dist ++ (0 : BitVec 4) ++ rm.bits) _ = _
    simp only [BitVec.getLsbD_append]
    repeat' split
    all_goals first | (exfalso; omega) | (congr 1; omega)

theorem encMemQ_parts (q : MemQ) :
    (encMemQ q).extractLsb' 14 2 = q.scope.bits ∧ (encMemQ q).extractLsb' 12 2 = q.ord.bits ∧ (encMemQ q).extractLsb' 11 1 = bit q.str ∧ (encMemQ q).extractLsb' 10 1 = bit q.sc ∧ (encMemQ q).extractLsb' 9 1 = bit q.poll ∧ (encMemQ q).extractLsb' 7 2 = q.cpol.bits ∧ (encMemQ q).extractLsb' 0 7 = q.disp := by
  simp only [encMemQ]
  refine ⟨?_, ?_, ?_, ?_, ?_, ?_, ?_⟩ <;>
  · ext i hi
    rw [BitVec.getElem_extractLsb', ← BitVec.getLsbD_eq_getElem]
    change BitVec.getLsbD (w := 2 + 2 + 1 + 1 + 1 + 2 + 7) (q.scope.bits ++ q.ord.bits ++ bit q.str ++ bit q.sc ++ bit q.poll ++ q.cpol.bits ++ q.disp) _ = _
    simp only [BitVec.getLsbD_append]
    repeat' split
    all_goals first | (exfalso; omega) | (congr 1; omega)

theorem encCopyQ_parts (q : CopyQ) :
    (encCopyQ q).extractLsb' 14 2 = q.cc ∧ (encCopyQ q).extractLsb' 12 2 = q.scope.bits ∧ (encCopyQ q).extractLsb' 11 1 = bit q.desc ∧ (encCopyQ q).extractLsb' 9 2 = q.cpol.bits ∧ (encCopyQ q).extractLsb' 0 9 = (0 : BitVec 9) := by
  simp only [encCopyQ]
  refine ⟨?_, ?_, ?_, ?_, ?_⟩ <;>
  · ext i hi
    rw [BitVec.getElem_extractLsb', ← BitVec.getLsbD_eq_getElem]
    change BitVec.getLsbD (w := 2 + 2 + 1 + 2 + 9) (q.cc ++ q.scope.bits ++ bit q.desc ++ q.cpol.bits ++ (0 : BitVec 9)) _ = _
    simp only [BitVec.getLsbD_append]
    repeat' split
    all_goals first | (exfalso; omega) | (congr 1; omega)

theorem encMatQ_parts (q : MatQ) :
    (encMatQ q).extractLsb' 12 4 = q.acc ∧ (encMatQ q).extractLsb' 8 4 = q.cmask ∧ (encMatQ q).extractLsb' 7 1 = bit q.bsrc ∧ (encMatQ q).extractLsb' 0 7 = (0 : BitVec 7) := by
  simp only [encMatQ]
  refine ⟨?_, ?_, ?_, ?_⟩ <;>
  · ext i hi
    rw [BitVec.getElem_extractLsb', ← BitVec.getLsbD_eq_getElem]
    change BitVec.getLsbD (w := 4 + 4 + 1 + 7) (q.acc ++ q.cmask ++ bit q.bsrc ++ (0 : BitVec 7)) _ = _
    simp only [BitVec.getLsbD_append]
    repeat' split
    all_goals first | (exfalso; omega) | (congr 1; omega)

theorem encBankQ_parts (q : BankQ) :
    (encBankQ q).extractLsb' 14 2 = q.scope.bits ∧ (encBankQ q).extractLsb' 12 2 = q.ord.bits ∧ (encBankQ q).extractLsb' 0 12 = (0 : BitVec 12) := by
  simp only [encBankQ]
  refine ⟨?_, ?_, ?_⟩ <;>
  · ext i hi
    rw [BitVec.getElem_extractLsb', ← BitVec.getLsbD_eq_getElem]
    change BitVec.getLsbD (w := 2 + 2 + 12) (q.scope.bits ++ q.ord.bits ++ (0 : BitVec 12)) _ = _
    simp only [BitVec.getLsbD_append]
    repeat' split
    all_goals first | (exfalso; omega) | (congr 1; omega)

theorem encSyncQ_parts (q : SyncQ) :
    (encSyncQ q).extractLsb' 14 2 = q.scope.bits ∧ (encSyncQ q).extractLsb' 12 2 = q.ord.bits ∧ (encSyncQ q).extractLsb' 8 4 = q.frm ∧ (encSyncQ q).extractLsb' 4 4 = q.dest ∧ (encSyncQ q).extractLsb' 0 4 = (0 : BitVec 4) := by
  simp only [encSyncQ]
  refine ⟨?_, ?_, ?_, ?_, ?_⟩ <;>
  · ext i hi
    rw [BitVec.getElem_extractLsb', ← BitVec.getLsbD_eq_getElem]
    change BitVec.getLsbD (w := 2 + 2 + 4 + 4 + 4) (q.scope.bits ++ q.ord.bits ++ q.frm ++ q.dest ++ (0 : BitVec 4)) _ = _
    simp only [BitVec.getLsbD_append]
    repeat' split
    all_goals first | (exfalso; omega) | (congr 1; omega)

theorem encImm_parts (v : BitVec 16) :
    (encB (.imm v)).extractLsb' 16 2 = (3 : BitVec 2) ∧ (encB (.imm v)).extractLsb' 0 16 = v := by
  simp only [encB]
  refine ⟨?_, ?_⟩ <;>
  · ext i hi
    rw [BitVec.getElem_extractLsb', ← BitVec.getLsbD_eq_getElem]
    change BitVec.getLsbD (w := 2 + 16) ((3 : BitVec 2) ++ v) _ = _
    simp only [BitVec.getLsbD_append]
    repeat' split
    all_goals first | (exfalso; omega) | (congr 1; omega)


/-- A single bit of a field as a piece of it. -/
theorem getLsbD_of_piece {n : Nat} (a : BitVec n) (k : Nat) (b : Bool) (h : a.extractLsb' k 1 = bit b) : a.getLsbD k = b := by
  have : (a.extractLsb' k 1).getLsbD 0 = (bit b).getLsbD 0 := by rw [h]
  simpa [bit] using this

theorem decDst_encDst (d : Dst) : decDst (encDst d) = .ok d := by
  obtain ⟨h1, h2, h3, h4, h5⟩ := encDst_parts d
  simp [decDst, h1, h2, h3, h4, h5]

theorem decSrc_encSrc (s : Src) : decSrc (encSrc s) = .ok s := by
  obtain ⟨h1, h2, h3, h4, h5, h6, h7⟩ := encSrc_parts s
  have h3 := getLsbD_of_piece _ _ _ h3
  have h4 := getLsbD_of_piece _ _ _ h4
  have h6 := getLsbD_of_piece _ _ _ h6
  have h7 := getLsbD_of_piece _ _ false h7
  obtain ⟨f, r, n, a, u, k⟩ := s
  cases f <;> simp_all [decSrc, SFile.bits]

theorem bImm_encSrc (s : Src) : bImm (encSrc s) = false := by
  obtain ⟨h1, -⟩ := encSrc_parts s
  have a : ((encSrc s).extractLsb' 16 2).getLsbD 0 = s.file.bits.getLsbD 0 := by rw [h1]
  have b : ((encSrc s).extractLsb' 16 2).getLsbD 1 = s.file.bits.getLsbD 1 := by rw [h1]
  simp at a b
  cases hf : s.file <;> simp_all [bImm, SFile.bits]

theorem decCSrc_encCSrc (c : CSrc) : decCSrc (encCSrc c) = c := by
  obtain ⟨h1, h2, h3, h4, h5, h6⟩ := encCSrc_parts c
  have h1 := getLsbD_of_piece _ _ _ h1
  have h3 := getLsbD_of_piece _ _ _ h3
  have h4 := getLsbD_of_piece _ _ _ h4
  have h6 := getLsbD_of_piece _ _ _ h6
  simp only [decCSrc, h1, h2, h3, h4, h5, h6, Sub.ofBits_bits]

theorem decB_encB (b : BOp) : decB (encB b) = .ok b := by
  cases b with
  | src s => simp [decB, encB, bImm_encSrc, decSrc_encSrc]
  | imm v =>
    obtain ⟨h1, h2⟩ := encImm_parts v
    have a : ((encB (.imm v)).extractLsb' 16 2).getLsbD 0 = (3 : BitVec 2).getLsbD 0 := by rw [h1]
    have b : ((encB (.imm v)).extractLsb' 16 2).getLsbD 1 = (3 : BitVec 2).getLsbD 1 := by rw [h1]
    simp at a b
    simp [decB, bImm, a, b, h2]

/-! Operand B and field X of 0x10-0x63 (R29-R33). -/

theorem encXb_i_parts (imm : Word) :
    (encXb (.i imm)).extractLsb' 16 2 = (3 : BitVec 2) ∧ (encXb (.i imm)).extractLsb' 0 16 = imm.extractLsb' 16 16 := by
  simp only [encXb]
  refine ⟨?_, ?_⟩ <;>
  · ext i hi
    rw [BitVec.getElem_extractLsb', ← BitVec.getLsbD_eq_getElem]
    change BitVec.getLsbD (w := 2 + 16) ((3 : BitVec 2) ++ imm.extractLsb' 16 16) _ = _
    simp only [BitVec.getLsbD_append]
    repeat' split
    all_goals first | (exfalso; omega) | (congr 1; omega)

theorem halves_append (w : Word) : (w.extractLsb' 16 16 ++ w.extractLsb' 0 16 : BitVec 32) = w := by
  ext i hi
  rw [← BitVec.getLsbD_eq_getElem, ← BitVec.getLsbD_eq_getElem, BitVec.getLsbD_append]
  simp only [BitVec.getLsbD_extractLsb']
  split
  all_goals (rw [decide_eq_true (by omega), Bool.true_and]; congr 1; omega)

/-- Whether X has the form of the opcode: form C for three sources, form N or I for fewer (R29). -/
def AluX.fits (x : AluX) (three : Bool) : Bool :=
  match x with
  | .n _ _ _ => !three
  | .i _ => !three
  | .c _ _ => three

theorem decX_encX (three : Bool) (x : AluX) (h : x.fits three = true) : decX three (encXb x) (encXx x) = .ok x := by
  cases x with
  | n b p rm =>
    obtain ⟨h1, h2, h3, h4, h5⟩ := encXx_n_parts b p rm
    have hp : decPerm (encXx (.n b p rm)) = p := by simp only [decPerm, h1, h2, h3, PermCls.ofBits_bits]
    have ht : three = false := by simpa [AluX.fits] using h
    have hb : encXb (.n b p rm) = encSrc b := rfl
    simp only [decX, hb, bImm_encSrc, decSrc_encSrc, ht, h4, h5, hp, Rm.ofBits_bits]
    rfl
  | i imm =>
    obtain ⟨h1, h2⟩ := encXb_i_parts imm
    have ht : three = false := by simpa [AluX.fits] using h
    have a : ((encXb (.i imm)).extractLsb' 16 2).getLsbD 0 = (3 : BitVec 2).getLsbD 0 := by rw [h1]
    have b : ((encXb (.i imm)).extractLsb' 16 2).getLsbD 1 = (3 : BitVec 2).getLsbD 1 := by rw [h1]
    simp only [BitVec.getLsbD_extractLsb'] at a b
    have a : (encXb (.i imm)).getLsbD 16 = true := by simpa using a
    have b : (encXb (.i imm)).getLsbD 17 = true := by simpa using b
    simp only [decX, bImm, a, b, ht, h2, encXx, Bool.and_self, if_true, halves_append]
    rfl
  | c b c =>
    have ht : three = true := by simpa [AluX.fits] using h
    have hb : encXb (.c b c) = encSrc b := rfl
    have hx : encXx (.c b c) = encCSrc c := rfl
    simp only [decX, hb, hx, bImm_encSrc, decSrc_encSrc, decCSrc_encCSrc, ht]
    rfl

theorem decAlu_encAlu (three : Bool) (op : BitVec 8) (var : BitVec 4) (o : Alu) (h : o.x.fits three = true) :
    decAlu three (encAlu op var o) = .ok o := by
  simp only [decAlu, encAlu, decDst_encDst, decSrc_encSrc, decX_encX three o.x h, decHdr, decGuard_encGuard, decSched_encSched]

/-- An opcode's acceptance fixes the form. -/
theorem fits_of_aluOk (acc : Acc) (o : Alu) (h : aluOk acc o = true) : o.x.fits acc.three = true := by
  simp only [aluOk, Bool.and_eq_true] at h
  obtain ⟨⟨-, hf⟩, -⟩ := h
  obtain ⟨hdr, d, a, x⟩ := o
  cases x <;> simp_all [formOk, AluX.fits]

/-! Qualifiers (R34). -/

theorem decMemQ_encMemQ (q : MemQ) : decMemQ (encMemQ q) = .ok q := by
  obtain ⟨h1, h2, h3, h4, h5, h6, h7⟩ := encMemQ_parts q
  have h3 := getLsbD_of_piece _ _ _ h3
  have h4 := getLsbD_of_piece _ _ _ h4
  have h5 := getLsbD_of_piece _ _ _ h5
  simp only [decMemQ, h1, h2, h3, h4, h5, h6, h7, Scope.ofBits_bits, Ord.ofBits_bits, Cpol.ofBits_bits]

theorem decCopyQ_encCopyQ (q : CopyQ) : decCopyQ (encCopyQ q) = .ok q := by
  obtain ⟨h1, h2, h3, h4, h5⟩ := encCopyQ_parts q
  have h3 := getLsbD_of_piece _ _ _ h3
  simp only [decCopyQ, h1, h2, h3, h4, h5, Scope.ofBits_bits, Cpol.ofBits_bits, if_true]

theorem decMatQ_encMatQ (q : MatQ) : decMatQ (encMatQ q) = .ok q := by
  obtain ⟨h1, h2, h3, h4⟩ := encMatQ_parts q
  have h3 := getLsbD_of_piece _ _ _ h3
  simp only [decMatQ, h1, h2, h3, h4, if_true]

theorem decBankQ_encBankQ (q : BankQ) : decBankQ (encBankQ q) = .ok q := by
  obtain ⟨h1, h2, h3⟩ := encBankQ_parts q
  simp only [decBankQ, h1, h2, h3, Scope.ofBits_bits, Ord.ofBits_bits, if_true]

theorem decSyncQ_encSyncQ (q : SyncQ) : decSyncQ (encSyncQ q) = .ok q := by
  obtain ⟨h1, h2, h3, h4, h5⟩ := encSyncQ_parts q
  simp only [decSyncQ, h1, h2, h3, h4, h5, Scope.ofBits_bits, Ord.ofBits_bits, if_true]

theorem decGen_encGen {Q : Type} (dec : BitVec 16 → Except DecodeErr Q) (enc : Q → BitVec 16) (op : BitVec 8) (var : BitVec 4) (o : Gen Q)
    (h : dec (enc o.q) = .ok o.q) : decGen dec (encGen enc op var o) = .ok o := by
  simp only [decGen, encGen, decDst_encDst, decSrc_encSrc, decB_encB, h, decHdr, decGuard_encGuard, decSched_encSched]

/-! Variants. -/

@[simp] theorem ofCode_tOnly (v : Only) : ofCode tOnly (codeOf tOnly v).toNat = .ok v := by cases v; rfl
@[simp] theorem ofCode_tIntTy4 (v : IntTy4) : ofCode tIntTy4 (codeOf tIntTy4 v).toNat = .ok v := by cases v <;> rfl
@[simp] theorem ofCode_tIntTy (v : IntTy) : ofCode tIntTy (codeOf tIntTy v).toNat = .ok v := by cases v <;> rfl
@[simp] theorem ofCode_tMadTy (v : MadTy) : ofCode tMadTy (codeOf tMadTy v).toNat = .ok v := by cases v <;> rfl
@[simp] theorem ofCode_tShiftV (v : ShiftV) : ofCode tShiftV (codeOf tShiftV v).toNat = .ok v := by cases v <;> rfl
@[simp] theorem ofCode_tExtV (v : ExtV) : ofCode tExtV (codeOf tExtV v).toNat = .ok v := by cases v <;> rfl
@[simp] theorem ofCode_tICond (v : ICond) : ofCode tICond (codeOf tICond v).toNat = .ok v := by cases v <;> rfl
@[simp] theorem ofCode_tMovTy (v : MovTy) : ofCode tMovTy (codeOf tMovTy v).toNat = .ok v := by cases v <;> rfl
@[simp] theorem ofCode_tMovlsV (v : MovlsV) : ofCode tMovlsV (codeOf tMovlsV v).toNat = .ok v := by cases v <;> rfl
@[simp] theorem ofCode_tDp4V (v : Dp4V) : ofCode tDp4V (codeOf tDp4V v).toNat = .ok v := by cases v <;> rfl
@[simp] theorem ofCode_tFTy (v : FTy) : ofCode tFTy (codeOf tFTy v).toNat = .ok v := by cases v <;> rfl
@[simp] theorem ofCode_tFCond (v : FCond) : ofCode tFCond (codeOf tFCond v).toNat = .ok v := by cases v <;> rfl
@[simp] theorem ofCode_tDotTy (v : DotTy) : ofCode tDotTy (codeOf tDotTy v).toNat = .ok v := by cases v <;> rfl
@[simp] theorem ofCode_tCvtV (v : CvtV) : ofCode tCvtV (codeOf tCvtV v).toNat = .ok v := by cases v <;> rfl
@[simp] theorem ofCode_tPackTy (v : PackTy) : ofCode tPackTy (codeOf tPackTy v).toNat = .ok v := by cases v <;> rfl
@[simp] theorem ofCode_tShflV (v : ShflV) : ofCode tShflV (codeOf tShflV v).toNat = .ok v := by cases v <;> rfl
@[simp] theorem ofCode_tVoteV (v : VoteV) : ofCode tVoteV (codeOf tVoteV v).toNat = .ok v := by cases v <;> rfl
@[simp] theorem ofCode_tRedOp (v : RedOp) : ofCode tRedOp (codeOf tRedOp v).toNat = .ok v := by cases v <;> rfl
@[simp] theorem ofCode_tScanV (v : ScanV) : ofCode tScanV (codeOf tScanV v).toNat = .ok v := by cases v <;> rfl
@[simp] theorem ofCode_tRngTy (v : RngTy) : ofCode tRngTy (codeOf tRngTy v).toNat = .ok v := by cases v <;> rfl
@[simp] theorem ofCode_tP2vV (v : P2vV) : ofCode tP2vV (codeOf tP2vV v).toNat = .ok v := by cases v <;> rfl
@[simp] theorem ofCode_tV2pV (v : V2pV) : ofCode tV2pV (codeOf tV2pV v).toNat = .ok v := by cases v <;> rfl
@[simp] theorem ofCode_tExmOp (v : ExmOp) : ofCode tExmOp (codeOf tExmOp v).toNat = .ok v := by cases v <;> rfl
@[simp] theorem ofCode_tLdSz (v : LdSz) : ofCode tLdSz (codeOf tLdSz v).toNat = .ok v := by cases v <;> rfl
@[simp] theorem ofCode_tStSz (v : StSz) : ofCode tStSz (codeOf tStSz v).toNat = .ok v := by cases v <;> rfl
@[simp] theorem ofCode_tPrefV (v : PrefV) : ofCode tPrefV (codeOf tPrefV v).toNat = .ok v := by cases v <;> rfl
@[simp] theorem ofCode_tCctlV (v : CctlV) : ofCode tCctlV (codeOf tCctlV v).toNat = .ok v := by cases v <;> rfl
@[simp] theorem ofCode_tAtomOp (v : AtomOp) : ofCode tAtomOp (codeOf tAtomOp v).toNat = .ok v := by cases v <;> rfl
@[simp] theorem ofCode_tCasTy (v : CasTy) : ofCode tCasTy (codeOf tCasTy v).toNat = .ok v := by cases v <;> rfl
@[simp] theorem ofCode_tMatMode (v : MatMode) : ofCode tMatMode (codeOf tMatMode v).toNat = .ok v := by cases v <;> rfl
@[simp] theorem ofCode_tSparseS (v : SparseS) : ofCode tSparseS (codeOf tSparseS v).toNat = .ok v := by cases v <;> rfl
@[simp] theorem ofCode_tMrdFmt (v : MrdFmt) : ofCode tMrdFmt (codeOf tMrdFmt v).toNat = .ok v := by cases v <;> rfl
@[simp] theorem ofCode_tMaccV (v : MaccV) : ofCode tMaccV (codeOf tMaccV v).toNat = .ok v := by cases v <;> rfl
@[simp] theorem ofCode_tBupdOp (v : BupdOp) : ofCode tBupdOp (codeOf tBupdOp v).toNat = .ok v := by cases v <;> rfl
@[simp] theorem ofCode_tBredOp (v : BredOp) : ofCode tBredOp (codeOf tBredOp v).toNat = .ok v := by cases v <;> rfl

/-! The combinators of the decoder. -/

theorem decVAlu_enc {V : Type} (t : List (Nat × V)) (mk : V → Alu → Instr) (three : Bool) (op : BitVec 8) (var : BitVec 4) (v : V) (o : Alu)
    (hv : ofCode t var.toNat = .ok v) (h : o.x.fits three = true) : decVAlu t mk three (encAlu op var o) = .ok (mk v o) := by
  simp only [decVAlu, decAlu_encAlu three op var o h]
  simp only [encAlu, hv]

theorem decVGen_enc {V Q : Type} (t : List (Nat × V)) (dec : BitVec 16 → Except DecodeErr Q) (enc : Q → BitVec 16) (mk : V → Gen Q → Instr)
    (op : BitVec 8) (var : BitVec 4) (v : V) (o : Gen Q) (hv : ofCode t var.toNat = .ok v) (h : dec (enc o.q) = .ok o.q) :
    decVGen t dec mk (encGen enc op var o) = .ok (mk v o) := by
  simp only [decVGen, decGen_encGen dec enc op var o h]
  simp only [encGen, hv]

theorem decGen0_enc {Q : Type} (dec : BitVec 16 → Except DecodeErr Q) (enc : Q → BitVec 16) (mk : Gen Q → Instr) (op : BitVec 8) (o : Gen Q)
    (h : dec (enc o.q) = .ok o.q) : decGen0 dec mk (encGen enc op 0 o) = .ok (mk o) := by
  simp only [decGen0, decGen_encGen dec enc op 0 o h]
  rfl

theorem decAny_enc {Q : Type} (dec : BitVec 16 → Except DecodeErr Q) (enc : Q → BitVec 16) (mk : Gen Q → Except DecodeErr Instr) (op : BitVec 8)
    (var : BitVec 4) (o : Gen Q) (h : dec (enc o.q) = .ok o.q) : decAny dec mk (encGen enc op var o) = mk o := by
  simp only [decAny, decGen_encGen dec enc op var o h]

theorem decAnyAlu_enc (mk : Alu → Instr) (op : BitVec 8) (var : BitVec 4) (o : Alu) (h : o.x.fits false = true) :
    decAnyAlu mk (encAlu op var o) = .ok (mk o) := by
  simp only [decAnyAlu, decAlu_encAlu false op var o h]

theorem decCtl_enc (mk : Ctl → Instr) (op : BitVec 8) (o : Ctl) : decCtl mk (encCtl op 0 o) = .ok (mk o) :=
  decGen0_enc decCtlQ (fun x => x) mk op o rfl

theorem decLoop_enc (mk : BitVec 2 → Ctl → Instr) (op : BitVec 8) (k : BitVec 2) (o : Ctl) :
    decLoop mk (encCtl op (k.setWidth 4) o) = .ok (mk k o) := by
  have h1 : (k.setWidth 4).extractLsb' 2 2 = 0 := by revert k; decide
  have h2 : (k.setWidth 4).extractLsb' 0 2 = k := by revert k; decide
  have h := decGen_encGen decCtlQ (fun x => x) op (k.setWidth 4) o rfl
  simp only [decLoop, encCtl, h]
  simp only [encGen, h1, h2, if_true]

/-- The arm of the decoder that an OP picks. -/
theorem decodeFields_at (f : Fields) (op : BitVec 8) (hi lo : Nat) (h : f.op = op) (h1 : (op.extractLsb' 4 4).toNat = hi)
    (h2 : (op.extractLsb' 0 4).toNat = lo) :
    decodeFields f = match (generalizing := false) hi with
      | 0 => decOp0 lo f
      | 1 => decOp1 lo f
      | 2 => decOp2 lo f
      | 3 => decOp3 lo f
      | 4 => decOp4 lo f
      | 5 => decOp5 lo f
      | 6 => decOp6 lo f
      | 7 => decOp7 lo f
      | 8 => decOp8 lo f
      | 9 => decOp9 lo f
      | 10 => decOpA lo f
      | 11 => decOpB lo f
      | 12 => decOpC lo f
      | 13 => decOpD lo f
      | 14 => decOpE lo f
      | _ => .error .unassignedOpcode := by
  subst h h1 h2
  rfl

end Sys2Proof
end

