-- ==== Sys2Proof/Laws/PerInstr.lean ====
section
/-! SUPPORT. Families of statements made for each instruction. -/

namespace Sys2Proof.Laws

/-! FieldsKept: the decoder reads from the fields that the encoder writes the instruction they came from. -/

def FieldsKept.Statement (i : Instr) : Prop := i.wf = true → ∀ f, encodeFields i = some f → decodeFields f = .ok i

theorem FieldsKept.nop (o : Ctl) : Statement (.nop o) := by
  rintro h f ⟨⟩
  refine (decodeFields_at _ 0x0 0 0 rfl rfl rfl).trans ?_
  exact decCtl_enc .nop 0x0 o
theorem FieldsKept.ifi (o : Ctl) : Statement (.ifi o) := by
  rintro h f ⟨⟩
  refine (decodeFields_at _ 0x1 0 1 rfl rfl rfl).trans ?_
  exact decCtl_enc .ifi 0x1 o
theorem FieldsKept.elsei (o : Ctl) : Statement (.elsei o) := by
  rintro h f ⟨⟩
  refine (decodeFields_at _ 0x2 0 2 rfl rfl rfl).trans ?_
  exact decCtl_enc .elsei 0x2 o
theorem FieldsKept.endif (o : Ctl) : Statement (.endif o) := by
  rintro h f ⟨⟩
  refine (decodeFields_at _ 0x3 0 3 rfl rfl rfl).trans ?_
  exact decCtl_enc .endif 0x3 o
theorem FieldsKept.loop (o : Ctl) : Statement (.loop o) := by
  rintro h f ⟨⟩
  refine (decodeFields_at _ 0x4 0 4 rfl rfl rfl).trans ?_
  exact decCtl_enc .loop 0x4 o
theorem FieldsKept.endloop (o : Ctl) : Statement (.endloop o) := by
  rintro h f ⟨⟩
  refine (decodeFields_at _ 0x5 0 5 rfl rfl rfl).trans ?_
  exact decCtl_enc .endloop 0x5 o
theorem FieldsKept.breaki (o : Ctl) : Statement (.breaki o) := by
  rintro h f ⟨⟩
  refine (decodeFields_at _ 0x6 0 6 rfl rfl rfl).trans ?_
  exact decCtl_enc .breaki 0x6 o
theorem FieldsKept.cont (o : Ctl) : Statement (.cont o) := by
  rintro h f ⟨⟩
  refine (decodeFields_at _ 0x7 0 7 rfl rfl rfl).trans ?_
  exact decCtl_enc .cont 0x7 o
theorem FieldsKept.hloop (k : BitVec 2) (o : Ctl) : Statement (.hloop k o) := by
  rintro h f ⟨⟩
  refine (decodeFields_at _ 0x8 0 8 rfl rfl rfl).trans ?_
  exact decLoop_enc .hloop 0x8 k o
theorem FieldsKept.hloopp (k : BitVec 2) (o : Ctl) : Statement (.hloopp k o) := by
  rintro h f ⟨⟩
  refine (decodeFields_at _ 0x9 0 9 rfl rfl rfl).trans ?_
  exact decLoop_enc .hloopp 0x9 k o
theorem FieldsKept.hlexit (k : BitVec 2) (o : Ctl) : Statement (.hlexit k o) := by
  rintro h f ⟨⟩
  refine (decodeFields_at _ 0xA 0 10 rfl rfl rfl).trans ?_
  exact decLoop_enc .hlexit 0xA k o
theorem FieldsKept.jmp (o : Ctl) : Statement (.jmp o) := by
  rintro h f ⟨⟩
  refine (decodeFields_at _ 0xB 0 11 rfl rfl rfl).trans ?_
  exact decCtl_enc .jmp 0xB o
theorem FieldsKept.jmps (o : Ctl) : Statement (.jmps o) := by
  rintro h f ⟨⟩
  refine (decodeFields_at _ 0xC 0 12 rfl rfl rfl).trans ?_
  exact decCtl_enc .jmps 0xC o
theorem FieldsKept.call (o : Ctl) : Statement (.call o) := by
  rintro h f ⟨⟩
  refine (decodeFields_at _ 0xD 0 13 rfl rfl rfl).trans ?_
  exact decCtl_enc .call 0xD o
theorem FieldsKept.ret (o : Ctl) : Statement (.ret o) := by
  rintro h f ⟨⟩
  refine (decodeFields_at _ 0xE 0 14 rfl rfl rfl).trans ?_
  exact decCtl_enc .ret 0xE o
theorem FieldsKept.iadd (v : IntTy4) (o : Alu) : Statement (.iadd v o) := by
  rintro h f ⟨⟩
  refine (decodeFields_at _ 0x10 1 0 rfl rfl rfl).trans ?_
  have hf : o.x.fits false = true := by cases v <;> exact fits_of_aluOk _ o h
  exact decVAlu_enc tIntTy4 .iadd false 0x10 _ v o (ofCode_tIntTy4 v) hf
theorem FieldsKept.isub (v : IntTy4) (o : Alu) : Statement (.isub v o) := by
  rintro h f ⟨⟩
  refine (decodeFields_at _ 0x11 1 1 rfl rfl rfl).trans ?_
  have hf : o.x.fits false = true := by cases v <;> exact fits_of_aluOk _ o h
  exact decVAlu_enc tIntTy4 .isub false 0x11 _ v o (ofCode_tIntTy4 v) hf
theorem FieldsKept.imul (v : IntTy) (o : Alu) : Statement (.imul v o) := by
  rintro h f ⟨⟩
  refine (decodeFields_at _ 0x12 1 2 rfl rfl rfl).trans ?_
  have hf : o.x.fits false = true := fits_of_aluOk _ o h
  exact decVAlu_enc tIntTy .imul false 0x12 _ v o (ofCode_tIntTy v) hf
theorem FieldsKept.imulhi (v : IntTy) (o : Alu) : Statement (.imulhi v o) := by
  rintro h f ⟨⟩
  refine (decodeFields_at _ 0x13 1 3 rfl rfl rfl).trans ?_
  have hf : o.x.fits false = true := fits_of_aluOk accInt o h
  exact decVAlu_enc tIntTy .imulhi false 0x13 _ v o (ofCode_tIntTy v) hf
theorem FieldsKept.imad (v : MadTy) (o : Alu) : Statement (.imad v o) := by
  rintro h f ⟨⟩
  refine (decodeFields_at _ 0x14 1 4 rfl rfl rfl).trans ?_
  have hf : o.x.fits true = true := fits_of_aluOk (accMad v) o h
  exact decVAlu_enc tMadTy .imad true 0x14 _ v o (ofCode_tMadTy v) hf
theorem FieldsKept.imin (v : IntTy) (o : Alu) : Statement (.imin v o) := by
  rintro h f ⟨⟩
  refine (decodeFields_at _ 0x15 1 5 rfl rfl rfl).trans ?_
  have hf : o.x.fits false = true := fits_of_aluOk accInt o h
  exact decVAlu_enc tIntTy .imin false 0x15 _ v o (ofCode_tIntTy v) hf
theorem FieldsKept.imax (v : IntTy) (o : Alu) : Statement (.imax v o) := by
  rintro h f ⟨⟩
  refine (decodeFields_at _ 0x16 1 6 rfl rfl rfl).trans ?_
  have hf : o.x.fits false = true := fits_of_aluOk accInt o h
  exact decVAlu_enc tIntTy .imax false 0x16 _ v o (ofCode_tIntTy v) hf
theorem FieldsKept.iadif (v : IntTy) (o : Alu) : Statement (.iadif v o) := by
  rintro h f ⟨⟩
  refine (decodeFields_at _ 0x17 1 7 rfl rfl rfl).trans ?_
  have hf : o.x.fits false = true := fits_of_aluOk accInt o h
  exact decVAlu_enc tIntTy .iadif false 0x17 _ v o (ofCode_tIntTy v) hf
theorem FieldsKept.shl (v : ShiftV) (o : Alu) : Statement (.shl v o) := by
  rintro h f ⟨⟩
  refine (decodeFields_at _ 0x18 1 8 rfl rfl rfl).trans ?_
  have hf : o.x.fits false = true := fits_of_aluOk accBits o h
  exact decVAlu_enc tShiftV .shl false 0x18 _ v o (ofCode_tShiftV v) hf
theorem FieldsKept.shr (v : ShiftV) (o : Alu) : Statement (.shr v o) := by
  rintro h f ⟨⟩
  refine (decodeFields_at _ 0x19 1 9 rfl rfl rfl).trans ?_
  have hf : o.x.fits false = true := fits_of_aluOk accBits o h
  exact decVAlu_enc tShiftV .shr false 0x19 _ v o (ofCode_tShiftV v) hf
theorem FieldsKept.sar (v : ShiftV) (o : Alu) : Statement (.sar v o) := by
  rintro h f ⟨⟩
  refine (decodeFields_at _ 0x1A 1 10 rfl rfl rfl).trans ?_
  have hf : o.x.fits false = true := fits_of_aluOk accBits o h
  exact decVAlu_enc tShiftV .sar false 0x1A _ v o (ofCode_tShiftV v) hf
theorem FieldsKept.rol (v : Only) (o : Alu) : Statement (.rol v o) := by
  rintro h f ⟨⟩
  refine (decodeFields_at _ 0x1B 1 11 rfl rfl rfl).trans ?_
  have hf : o.x.fits false = true := fits_of_aluOk accBits o h
  exact decVAlu_enc tOnly .rol false 0x1B _ v o (ofCode_tOnly v) hf
theorem FieldsKept.and (v : Only) (o : Alu) : Statement (.and v o) := by
  rintro h f ⟨⟩
  refine (decodeFields_at _ 0x1C 1 12 rfl rfl rfl).trans ?_
  have hf : o.x.fits false = true := fits_of_aluOk accBits o h
  exact decVAlu_enc tOnly .and false 0x1C _ v o (ofCode_tOnly v) hf
theorem FieldsKept.or (v : Only) (o : Alu) : Statement (.or v o) := by
  rintro h f ⟨⟩
  refine (decodeFields_at _ 0x1D 1 13 rfl rfl rfl).trans ?_
  have hf : o.x.fits false = true := fits_of_aluOk accBits o h
  exact decVAlu_enc tOnly .or false 0x1D _ v o (ofCode_tOnly v) hf
theorem FieldsKept.xor (v : Only) (o : Alu) : Statement (.xor v o) := by
  rintro h f ⟨⟩
  refine (decodeFields_at _ 0x1E 1 14 rfl rfl rfl).trans ?_
  have hf : o.x.fits false = true := fits_of_aluOk accBits o h
  exact decVAlu_enc tOnly .xor false 0x1E _ v o (ofCode_tOnly v) hf
theorem FieldsKept.andn (v : Only) (o : Alu) : Statement (.andn v o) := by
  rintro h f ⟨⟩
  refine (decodeFields_at _ 0x1F 1 15 rfl rfl rfl).trans ?_
  have hf : o.x.fits false = true := fits_of_aluOk accBits o h
  exact decVAlu_enc tOnly .andn false 0x1F _ v o (ofCode_tOnly v) hf
theorem FieldsKept.bfe (v : ExtV) (o : Alu) : Statement (.bfe v o) := by
  rintro h f ⟨⟩
  refine (decodeFields_at _ 0x20 2 0 rfl rfl rfl).trans ?_
  have hf : o.x.fits false = true := fits_of_aluOk accBits o h
  exact decVAlu_enc tExtV .bfe false 0x20 _ v o (ofCode_tExtV v) hf
theorem FieldsKept.bfi (v : Only) (o : Alu) : Statement (.bfi v o) := by
  rintro h f ⟨⟩
  refine (decodeFields_at _ 0x21 2 1 rfl rfl rfl).trans ?_
  have hf : o.x.fits true = true := fits_of_aluOk accThree o h
  exact decVAlu_enc tOnly .bfi true 0x21 _ v o (ofCode_tOnly v) hf
theorem FieldsKept.popc (v : Only) (o : Alu) : Statement (.popc v o) := by
  rintro h f ⟨⟩
  refine (decodeFields_at _ 0x22 2 2 rfl rfl rfl).trans ?_
  have hf : o.x.fits false = true := fits_of_aluOk accUnary o h
  exact decVAlu_enc tOnly .popc false 0x22 _ v o (ofCode_tOnly v) hf
theorem FieldsKept.clz (v : Only) (o : Alu) : Statement (.clz v o) := by
  rintro h f ⟨⟩
  refine (decodeFields_at _ 0x23 2 3 rfl rfl rfl).trans ?_
  have hf : o.x.fits false = true := fits_of_aluOk accUnary o h
  exact decVAlu_enc tOnly .clz false 0x23 _ v o (ofCode_tOnly v) hf
theorem FieldsKept.brev (v : Only) (o : Alu) : Statement (.brev v o) := by
  rintro h f ⟨⟩
  refine (decodeFields_at _ 0x24 2 4 rfl rfl rfl).trans ?_
  have hf : o.x.fits false = true := fits_of_aluOk accUnary o h
  exact decVAlu_enc tOnly .brev false 0x24 _ v o (ofCode_tOnly v) hf
theorem FieldsKept.icmp (v : ICond) (o : Alu) : Statement (.icmp v o) := by
  rintro h f ⟨⟩
  refine (decodeFields_at _ 0x25 2 5 rfl rfl rfl).trans ?_
  have hf : o.x.fits false = true := fits_of_aluOk accCmp o h
  exact decVAlu_enc tICond .icmp false 0x25 _ v o (ofCode_tICond v) hf
theorem FieldsKept.sel (v : SelV) (o : Alu) : Statement (.sel v o) := by
  rintro h f ⟨⟩
  refine (decodeFields_at _ 0x26 2 6 rfl rfl rfl).trans ?_
  have hf : o.x.fits false = true := fits_of_aluOk accBits o (Bool.and_eq_true_iff.mp h).1
  exact (by
    have hk : ∀ (n : Bool) (k : BitVec 3), (bit n ++ k : BitVec 4).getLsbD 3 = n ∧ (bit n ++ k : BitVec 4).extractLsb' 0 3 = k := by decide
    have e : (⟨(bit v.neg ++ v.k : BitVec 4).getLsbD 3, (bit v.neg ++ v.k : BitVec 4).extractLsb' 0 3⟩ : SelV) = v := by
      rw [(hk v.neg v.k).1, (hk v.neg v.k).2]
    exact (decAnyAlu_enc (.sel _) 0x26 _ o hf).trans (congrArg (fun x => Except.ok (Instr.sel x o)) e))
theorem FieldsKept.lea (v : LeaV) (o : Alu) : Statement (.lea v o) := by
  rintro h f ⟨⟩
  refine (decodeFields_at _ 0x27 2 7 rfl rfl rfl).trans ?_
  have hf : o.x.fits false = true := fits_of_aluOk accLea o h
  exact (by
    have hk : ∀ (n : Bool) (k : BitVec 3), (bit n ++ k : BitVec 4).getLsbD 3 = n ∧ (bit n ++ k : BitVec 4).extractLsb' 0 3 = k := by decide
    have e : (⟨(bit v.sx ++ v.n : BitVec 4).getLsbD 3, (bit v.sx ++ v.n : BitVec 4).extractLsb' 0 3⟩ : LeaV) = v := by
      rw [(hk v.sx v.n).1, (hk v.sx v.n).2]
    exact (decAnyAlu_enc (.lea _) 0x27 _ o hf).trans (congrArg (fun x => Except.ok (Instr.lea x o)) e))
theorem FieldsKept.mov (v : MovTy) (o : Alu) : Statement (.mov v o) := by
  rintro h f ⟨⟩
  refine (decodeFields_at _ 0x28 2 8 rfl rfl rfl).trans ?_
  have hf : o.x.fits false = true := by cases v <;> exact fits_of_aluOk _ o h
  exact decVAlu_enc tMovTy .mov false 0x28 _ v o (ofCode_tMovTy v) hf
theorem FieldsKept.movls (v : MovlsV) (o : Alu) : Statement (.movls v o) := by
  rintro h f ⟨⟩
  refine (decodeFields_at _ 0x29 2 9 rfl rfl rfl).trans ?_
  have hf : o.x.fits false = true := by cases v <;> exact fits_of_aluOk _ o h
  exact decVAlu_enc tMovlsV .movls false 0x29 _ v o (ofCode_tMovlsV v) hf
theorem FieldsKept.movsr (v : Only) (o : Alu) : Statement (.movsr v o) := by
  rintro h f ⟨⟩
  refine (decodeFields_at _ 0x2A 2 10 rfl rfl rfl).trans ?_
  have hf : o.x.fits false = true := fits_of_aluOk accMovsr o h
  exact decVAlu_enc tOnly .movsr false 0x2A _ v o (ofCode_tOnly v) hf
theorem FieldsKept.movrs (v : Only) (o : Alu) : Statement (.movrs v o) := by
  rintro h f ⟨⟩
  refine (decodeFields_at _ 0x2B 2 11 rfl rfl rfl).trans ?_
  have hf : o.x.fits false = true := fits_of_aluOk accMovrs o (Bool.and_eq_true_iff.mp h).1
  exact decVAlu_enc tOnly .movrs false 0x2B _ v o (ofCode_tOnly v) hf
theorem FieldsKept.prmt (v : Only) (o : Alu) : Statement (.prmt v o) := by
  rintro h f ⟨⟩
  refine (decodeFields_at _ 0x2C 2 12 rfl rfl rfl).trans ?_
  have hf : o.x.fits true = true := fits_of_aluOk accThree o h
  exact decVAlu_enc tOnly .prmt true 0x2C _ v o (ofCode_tOnly v) hf
theorem FieldsKept.dp4 (v : Dp4V) (o : Alu) : Statement (.dp4 v o) := by
  rintro h f ⟨⟩
  refine (decodeFields_at _ 0x2D 2 13 rfl rfl rfl).trans ?_
  have hf : o.x.fits true = true := fits_of_aluOk accThree o h
  exact decVAlu_enc tDp4V .dp4 true 0x2D _ v o (ofCode_tDp4V v) hf
theorem FieldsKept.fadd (v : FTy) (o : Alu) : Statement (.fadd v o) := by
  rintro h f ⟨⟩
  refine (decodeFields_at _ 0x30 3 0 rfl rfl rfl).trans ?_
  have hf : o.x.fits false = true := fits_of_aluOk accFloat o h
  exact decVAlu_enc tFTy .fadd false 0x30 _ v o (ofCode_tFTy v) hf
theorem FieldsKept.fmul (v : FTy) (o : Alu) : Statement (.fmul v o) := by
  rintro h f ⟨⟩
  refine (decodeFields_at _ 0x31 3 1 rfl rfl rfl).trans ?_
  have hf : o.x.fits false = true := fits_of_aluOk accFloat o h
  exact decVAlu_enc tFTy .fmul false 0x31 _ v o (ofCode_tFTy v) hf
theorem FieldsKept.ffma (v : FTy) (o : Alu) : Statement (.ffma v o) := by
  rintro h f ⟨⟩
  refine (decodeFields_at _ 0x32 3 2 rfl rfl rfl).trans ?_
  have hf : o.x.fits true = true := fits_of_aluOk accFfma o h
  exact decVAlu_enc tFTy .ffma true 0x32 _ v o (ofCode_tFTy v) hf
theorem FieldsKept.fmin (v : FTy) (o : Alu) : Statement (.fmin v o) := by
  rintro h f ⟨⟩
  refine (decodeFields_at _ 0x33 3 3 rfl rfl rfl).trans ?_
  have hf : o.x.fits false = true := fits_of_aluOk accFminmax o h
  exact decVAlu_enc tFTy .fmin false 0x33 _ v o (ofCode_tFTy v) hf
theorem FieldsKept.fmax (v : FTy) (o : Alu) : Statement (.fmax v o) := by
  rintro h f ⟨⟩
  refine (decodeFields_at _ 0x34 3 4 rfl rfl rfl).trans ?_
  have hf : o.x.fits false = true := fits_of_aluOk accFminmax o h
  exact decVAlu_enc tFTy .fmax false 0x34 _ v o (ofCode_tFTy v) hf
theorem FieldsKept.fcmp (v : FCond) (o : Alu) : Statement (.fcmp v o) := by
  rintro h f ⟨⟩
  refine (decodeFields_at _ 0x35 3 5 rfl rfl rfl).trans ?_
  have hf : o.x.fits false = true := fits_of_aluOk accCmp o h
  exact decVAlu_enc tFCond .fcmp false 0x35 _ v o (ofCode_tFCond v) hf
theorem FieldsKept.frnd (v : FTy) (o : Alu) : Statement (.frnd v o) := by
  rintro h f ⟨⟩
  refine (decodeFields_at _ 0x36 3 6 rfl rfl rfl).trans ?_
  have hf : o.x.fits false = true := fits_of_aluOk accFrnd o h
  exact decVAlu_enc tFTy .frnd false 0x36 _ v o (ofCode_tFTy v) hf
theorem FieldsKept.fldexp (v : Only) (o : Alu) : Statement (.fldexp v o) := by
  rintro h f ⟨⟩
  refine (decodeFields_at _ 0x37 3 7 rfl rfl rfl).trans ?_
  have hf : o.x.fits false = true := fits_of_aluOk accFloat o h
  exact decVAlu_enc tOnly .fldexp false 0x37 _ v o (ofCode_tOnly v) hf
theorem FieldsKept.fdiv (v : Only) (o : Alu) : Statement (.fdiv v o) := by
  rintro h f ⟨⟩
  refine (decodeFields_at _ 0x38 3 8 rfl rfl rfl).trans ?_
  have hf : o.x.fits false = true := fits_of_aluOk accFloat o h
  exact decVAlu_enc tOnly .fdiv false 0x38 _ v o (ofCode_tOnly v) hf
theorem FieldsKept.fsqrt (v : Only) (o : Alu) : Statement (.fsqrt v o) := by
  rintro h f ⟨⟩
  refine (decodeFields_at _ 0x39 3 9 rfl rfl rfl).trans ?_
  have hf : o.x.fits false = true := fits_of_aluOk accFsqrt o h
  exact decVAlu_enc tOnly .fsqrt false 0x39 _ v o (ofCode_tOnly v) hf
theorem FieldsKept.fdot2 (v : DotTy) (o : Alu) : Statement (.fdot2 v o) := by
  rintro h f ⟨⟩
  refine (decodeFields_at _ 0x3A 3 10 rfl rfl rfl).trans ?_
  have hf : o.x.fits true = true := fits_of_aluOk accFdot o h
  exact decVAlu_enc tDotTy .fdot2 true 0x3A _ v o (ofCode_tDotTy v) hf
theorem FieldsKept.rcp (v : Only) (o : Alu) : Statement (.rcp v o) := by
  rintro h f ⟨⟩
  refine (decodeFields_at _ 0x40 4 0 rfl rfl rfl).trans ?_
  have hf : o.x.fits false = true := fits_of_aluOk accSpecial o h
  exact decVAlu_enc tOnly .rcp false 0x40 _ v o (ofCode_tOnly v) hf
theorem FieldsKept.rsq (v : Only) (o : Alu) : Statement (.rsq v o) := by
  rintro h f ⟨⟩
  refine (decodeFields_at _ 0x41 4 1 rfl rfl rfl).trans ?_
  have hf : o.x.fits false = true := fits_of_aluOk accSpecial o h
  exact decVAlu_enc tOnly .rsq false 0x41 _ v o (ofCode_tOnly v) hf
theorem FieldsKept.exp2 (v : Only) (o : Alu) : Statement (.exp2 v o) := by
  rintro h f ⟨⟩
  refine (decodeFields_at _ 0x42 4 2 rfl rfl rfl).trans ?_
  have hf : o.x.fits false = true := fits_of_aluOk accSpecial o h
  exact decVAlu_enc tOnly .exp2 false 0x42 _ v o (ofCode_tOnly v) hf
theorem FieldsKept.log2 (v : Only) (o : Alu) : Statement (.log2 v o) := by
  rintro h f ⟨⟩
  refine (decodeFields_at _ 0x43 4 3 rfl rfl rfl).trans ?_
  have hf : o.x.fits false = true := fits_of_aluOk accSpecial o h
  exact decVAlu_enc tOnly .log2 false 0x43 _ v o (ofCode_tOnly v) hf
theorem FieldsKept.sinpi (v : Only) (o : Alu) : Statement (.sinpi v o) := by
  rintro h f ⟨⟩
  refine (decodeFields_at _ 0x44 4 4 rfl rfl rfl).trans ?_
  have hf : o.x.fits false = true := fits_of_aluOk accSpecial o h
  exact decVAlu_enc tOnly .sinpi false 0x44 _ v o (ofCode_tOnly v) hf
theorem FieldsKept.cospi (v : Only) (o : Alu) : Statement (.cospi v o) := by
  rintro h f ⟨⟩
  refine (decodeFields_at _ 0x45 4 5 rfl rfl rfl).trans ?_
  have hf : o.x.fits false = true := fits_of_aluOk accSpecial o h
  exact decVAlu_enc tOnly .cospi false 0x45 _ v o (ofCode_tOnly v) hf
theorem FieldsKept.tanh (v : Only) (o : Alu) : Statement (.tanh v o) := by
  rintro h f ⟨⟩
  refine (decodeFields_at _ 0x46 4 6 rfl rfl rfl).trans ?_
  have hf : o.x.fits false = true := fits_of_aluOk accSpecial o h
  exact decVAlu_enc tOnly .tanh false 0x46 _ v o (ofCode_tOnly v) hf
theorem FieldsKept.cvt (v : CvtV) (o : Alu) : Statement (.cvt v o) := by
  rintro h f ⟨⟩
  refine (decodeFields_at _ 0x47 4 7 rfl rfl rfl).trans ?_
  have hf : o.x.fits false = true := fits_of_aluOk (accCvt v) o h
  exact decVAlu_enc tCvtV .cvt false 0x47 _ v o (ofCode_tCvtV v) hf
theorem FieldsKept.packq (v : PackTy) (o : Alu) : Statement (.packq v o) := by
  rintro h f ⟨⟩
  refine (decodeFields_at _ 0x48 4 8 rfl rfl rfl).trans ?_
  have hf : o.x.fits false = true := fits_of_aluOk accPackq o h
  exact decVAlu_enc tPackTy .packq false 0x48 _ v o (ofCode_tPackTy v) hf
theorem FieldsKept.unpkq (v : PackTy) (o : Alu) : Statement (.unpkq v o) := by
  rintro h f ⟨⟩
  refine (decodeFields_at _ 0x49 4 9 rfl rfl rfl).trans ?_
  have hf : o.x.fits false = true := fits_of_aluOk accUnpkq o h
  exact decVAlu_enc tPackTy .unpkq false 0x49 _ v o (ofCode_tPackTy v) hf
theorem FieldsKept.shfl (v : ShflV) (o : Alu) : Statement (.shfl v o) := by
  rintro h f ⟨⟩
  refine (decodeFields_at _ 0x50 5 0 rfl rfl rfl).trans ?_
  have hf : o.x.fits false = true := fits_of_aluOk accShfl o h
  exact decVAlu_enc tShflV .shfl false 0x50 _ v o (ofCode_tShflV v) hf
theorem FieldsKept.vote (v : VoteV) (o : Alu) : Statement (.vote v o) := by
  rintro h f ⟨⟩
  refine (decodeFields_at _ 0x51 5 1 rfl rfl rfl).trans ?_
  have hf : o.x.fits false = true := fits_of_aluOk (accVote v) o h
  exact decVAlu_enc tVoteV .vote false 0x51 _ v o (ofCode_tVoteV v) hf
theorem FieldsKept.gred (v : RedOp) (o : Alu) : Statement (.gred v o) := by
  rintro h f ⟨⟩
  refine (decodeFields_at _ 0x52 5 2 rfl rfl rfl).trans ?_
  have hf : o.x.fits false = true := fits_of_aluOk (accGred v) o h
  exact decVAlu_enc tRedOp .gred false 0x52 _ v o (ofCode_tRedOp v) hf
theorem FieldsKept.gscan (v : ScanV) (o : Alu) : Statement (.gscan v o) := by
  rintro h f ⟨⟩
  refine (decodeFields_at _ 0x53 5 3 rfl rfl rfl).trans ?_
  have hf : o.x.fits false = true := fits_of_aluOk (accGscan v) o h
  exact decVAlu_enc tScanV .gscan false 0x53 _ v o (ofCode_tScanV v) hf
theorem FieldsKept.xshfl (v : Only) (o : Alu) : Statement (.xshfl v o) := by
  rintro h f ⟨⟩
  refine (decodeFields_at _ 0x54 5 4 rfl rfl rfl).trans ?_
  have hf : o.x.fits false = true := fits_of_aluOk accXshfl o h
  exact decVAlu_enc tOnly .xshfl false 0x54 _ v o (ofCode_tOnly v) hf
theorem FieldsKept.xshflTimeout (gid : Nat) : Statement (.xshflTimeout gid) := by rintro - f ⟨⟩
theorem FieldsKept.rng (v : RngTy) (o : Alu) : Statement (.rng v o) := by
  rintro h f ⟨⟩
  refine (decodeFields_at _ 0x55 5 5 rfl rfl rfl).trans ?_
  have hf : o.x.fits false = true := fits_of_aluOk accRng o h
  exact decVAlu_enc tRngTy .rng false 0x55 _ v o (ofCode_tRngTy v) hf
theorem FieldsKept.plop (v : BitVec 4) (o : Alu) : Statement (.plop v o) := by
  rintro h f ⟨⟩
  refine (decodeFields_at _ 0x60 6 0 rfl rfl rfl).trans ?_
  have hf : o.x.fits false = true := fits_of_aluOk accPlop o h
  exact decAnyAlu_enc (.plop v) 0x60 _ o hf
theorem FieldsKept.p2v (v : P2vV) (o : Alu) : Statement (.p2v v o) := by
  rintro h f ⟨⟩
  refine (decodeFields_at _ 0x61 6 1 rfl rfl rfl).trans ?_
  have hf : o.x.fits false = true := fits_of_aluOk (accP2v v) o h
  exact decVAlu_enc tP2vV .p2v false 0x61 _ v o (ofCode_tP2vV v) hf
theorem FieldsKept.v2p (v : V2pV) (o : Alu) : Statement (.v2p v o) := by
  rintro h f ⟨⟩
  refine (decodeFields_at _ 0x62 6 2 rfl rfl rfl).trans ?_
  have hf : o.x.fits false = true := fits_of_aluOk accV2p o (Bool.and_eq_true_iff.mp h).1
  exact decVAlu_enc tV2pV .v2p false 0x62 _ v o (ofCode_tV2pV v) hf
theorem FieldsKept.setexm (v : ExmOp) (o : Alu) : Statement (.setexm v o) := by
  rintro h f ⟨⟩
  refine (decodeFields_at _ 0x63 6 3 rfl rfl rfl).trans ?_
  have hf : o.x.fits false = true := fits_of_aluOk accSetexm o (Bool.and_eq_true_iff.mp h).1
  exact decVAlu_enc tExmOp .setexm false 0x63 _ v o (ofCode_tExmOp v) hf
theorem FieldsKept.ld (v : LdSz) (o : Mem) : Statement (.ld v o) := by
  rintro h f ⟨⟩
  refine (decodeFields_at _ 0x70 7 0 rfl rfl rfl).trans ?_
  exact decVGen_enc tLdSz decMemQ encMemQ .ld 0x70 _ v o (ofCode_tLdSz v) (decMemQ_encMemQ o.q)
theorem FieldsKept.st (v : StSz) (o : Mem) : Statement (.st v o) := by
  rintro h f ⟨⟩
  refine (decodeFields_at _ 0x71 7 1 rfl rfl rfl).trans ?_
  exact decVGen_enc tStSz decMemQ encMemQ .st 0x71 _ v o (ofCode_tStSz v) (decMemQ_encMemQ o.q)
theorem FieldsKept.lds (v : LdSz) (o : Mem) : Statement (.lds v o) := by
  rintro h f ⟨⟩
  refine (decodeFields_at _ 0x72 7 2 rfl rfl rfl).trans ?_
  exact decVGen_enc tLdSz decMemQ encMemQ .lds 0x72 _ v o (ofCode_tLdSz v) (decMemQ_encMemQ o.q)
theorem FieldsKept.sts (v : StSz) (o : Mem) : Statement (.sts v o) := by
  rintro h f ⟨⟩
  refine (decodeFields_at _ 0x73 7 3 rfl rfl rfl).trans ?_
  exact decVGen_enc tStSz decMemQ encMemQ .sts 0x73 _ v o (ofCode_tStSz v) (decMemQ_encMemQ o.q)
theorem FieldsKept.ldu (v : LdSz) (o : Mem) : Statement (.ldu v o) := by
  rintro h f ⟨⟩
  refine (decodeFields_at _ 0x74 7 4 rfl rfl rfl).trans ?_
  exact decVGen_enc tLdSz decMemQ encMemQ .ldu 0x74 _ v o (ofCode_tLdSz v) (decMemQ_encMemQ o.q)
theorem FieldsKept.stu (v : StSz) (o : Mem) : Statement (.stu v o) := by
  rintro h f ⟨⟩
  refine (decodeFields_at _ 0x75 7 5 rfl rfl rfl).trans ?_
  exact decVGen_enc tStSz decMemQ encMemQ .stu 0x75 _ v o (ofCode_tStSz v) (decMemQ_encMemQ o.q)
theorem FieldsKept.ldq (v : Only) (o : Mem) : Statement (.ldq v o) := by
  rintro h f ⟨⟩
  refine (decodeFields_at _ 0x76 7 6 rfl rfl rfl).trans ?_
  exact decVGen_enc tOnly decMemQ encMemQ .ldq 0x76 _ v o (ofCode_tOnly v) (decMemQ_encMemQ o.q)
theorem FieldsKept.lddesc (v : Only) (o : Mem) : Statement (.lddesc v o) := by
  rintro h f ⟨⟩
  refine (decodeFields_at _ 0x77 7 7 rfl rfl rfl).trans ?_
  exact decVGen_enc tOnly decMemQ encMemQ .lddesc 0x77 _ v o (ofCode_tOnly v) (decMemQ_encMemQ o.q)
theorem FieldsKept.stdesc (v : Only) (o : Mem) : Statement (.stdesc v o) := by
  rintro h f ⟨⟩
  refine (decodeFields_at _ 0x78 7 8 rfl rfl rfl).trans ?_
  exact decVGen_enc tOnly decMemQ encMemQ .stdesc 0x78 _ v o (ofCode_tOnly v) (decMemQ_encMemQ o.q)
theorem FieldsKept.pref (v : PrefV) (o : Mem) : Statement (.pref v o) := by
  rintro h f ⟨⟩
  refine (decodeFields_at _ 0x79 7 9 rfl rfl rfl).trans ?_
  exact decVGen_enc tPrefV decMemQ encMemQ .pref 0x79 _ v o (ofCode_tPrefV v) (decMemQ_encMemQ o.q)
theorem FieldsKept.cctl (v : CctlV) (o : Mem) : Statement (.cctl v o) := by
  rintro h f ⟨⟩
  refine (decodeFields_at _ 0x7A 7 10 rfl rfl rfl).trans ?_
  exact decVGen_enc tCctlV decMemQ encMemQ .cctl 0x7A _ v o (ofCode_tCctlV v) (decMemQ_encMemQ o.q)
theorem FieldsKept.atom (v : AtomOp) (o : Mem) : Statement (.atom v o) := by
  rintro h f ⟨⟩
  refine (decodeFields_at _ 0x80 8 0 rfl rfl rfl).trans ?_
  exact decVGen_enc tAtomOp decMemQ encMemQ .atom 0x80 _ v o (ofCode_tAtomOp v) (decMemQ_encMemQ o.q)
theorem FieldsKept.atomcas (v : CasTy) (o : Mem) : Statement (.atomcas v o) := by
  rintro h f ⟨⟩
  refine (decodeFields_at _ 0x81 8 1 rfl rfl rfl).trans ?_
  exact decVGen_enc tCasTy decMemQ encMemQ .atomcas 0x81 _ v o (ofCode_tCasTy v) (decMemQ_encMemQ o.q)
theorem FieldsKept.red (v : AtomOp) (o : Mem) : Statement (.red v o) := by
  rintro h f ⟨⟩
  refine (decodeFields_at _ 0x82 8 2 rfl rfl rfl).trans ?_
  exact decVGen_enc tAtomOp decMemQ encMemQ .red 0x82 _ v o (ofCode_tAtomOp v) (decMemQ_encMemQ o.q)
theorem FieldsKept.atoms (v : AtomOp) (o : Mem) : Statement (.atoms v o) := by
  rintro h f ⟨⟩
  refine (decodeFields_at _ 0x83 8 3 rfl rfl rfl).trans ?_
  exact decVGen_enc tAtomOp decMemQ encMemQ .atoms 0x83 _ v o (ofCode_tAtomOp v) (decMemQ_encMemQ o.q)
theorem FieldsKept.cass (v : Only) (o : Mem) : Statement (.cass v o) := by
  rintro h f ⟨⟩
  refine (decodeFields_at _ 0x84 8 4 rfl rfl rfl).trans ?_
  exact decVGen_enc tOnly decMemQ encMemQ .cass 0x84 _ v o (ofCode_tOnly v) (decMemQ_encMemQ o.q)
theorem FieldsKept.cpyin (o : Cpy) : Statement (.cpyin o) := by
  rintro h f ⟨⟩
  refine (decodeFields_at _ 0x90 9 0 rfl rfl rfl).trans ?_
  exact decGen0_enc decCopyQ encCopyQ .cpyin 0x90 o (decCopyQ_encCopyQ o.q)
theorem FieldsKept.cpyout (o : Cpy) : Statement (.cpyout o) := by
  rintro h f ⟨⟩
  refine (decodeFields_at _ 0x91 9 1 rfl rfl rfl).trans ?_
  exact decGen0_enc decCopyQ encCopyQ .cpyout 0x91 o (decCopyQ_encCopyQ o.q)
theorem FieldsKept.cpygth (o : Cpy) : Statement (.cpygth o) := by
  rintro h f ⟨⟩
  refine (decodeFields_at _ 0x92 9 2 rfl rfl rfl).trans ?_
  exact decGen0_enc decCopyQ encCopyQ .cpygth 0x92 o (decCopyQ_encCopyQ o.q)
theorem FieldsKept.cpyreg (o : Cpy) : Statement (.cpyreg o) := by
  rintro h f ⟨⟩
  refine (decodeFields_at _ 0x93 9 3 rfl rfl rfl).trans ?_
  exact decGen0_enc decCopyQ encCopyQ .cpyreg 0x93 o (decCopyQ_encCopyQ o.q)
theorem FieldsKept.cpydsmTodsm (o : Cpy) : Statement (.cpydsmTodsm o) := by
  rintro h f ⟨⟩
  refine (decodeFields_at _ 0x94 9 4 rfl rfl rfl).trans ?_
  refine (decAny_enc decCopyQ encCopyQ _ 0x94 _ o (decCopyQ_encCopyQ o.q)).trans ?_
  rfl
theorem FieldsKept.cpydsmFromdsm (o : Cpy) : Statement (.cpydsmFromdsm o) := by
  rintro h f ⟨⟩
  refine (decodeFields_at _ 0x94 9 4 rfl rfl rfl).trans ?_
  refine (decAny_enc decCopyQ encCopyQ _ 0x94 _ o (decCopyQ_encCopyQ o.q)).trans ?_
  rfl
theorem FieldsKept.cpywait (o : Cpy) : Statement (.cpywait o) := by
  rintro h f ⟨⟩
  refine (decodeFields_at _ 0x95 9 5 rfl rfl rfl).trans ?_
  exact decGen0_enc decCopyQ encCopyQ .cpywait 0x95 o (decCopyQ_encCopyQ o.q)
theorem FieldsKept.cpystat (o : Cpy) : Statement (.cpystat o) := by
  rintro h f ⟨⟩
  refine (decodeFields_at _ 0x96 9 6 rfl rfl rfl).trans ?_
  exact decGen0_enc decCopyQ encCopyQ .cpystat 0x96 o (decCopyQ_encCopyQ o.q)
theorem FieldsKept.mchain (o : Mat) : Statement (.mchain o) := by
  rintro h f ⟨⟩
  refine (decodeFields_at _ 0xA0 10 0 rfl rfl rfl).trans ?_
  exact decGen0_enc decMatQ encMatQ .mchain 0xA0 o (decMatQ_encMatQ o.q)
theorem FieldsKept.mcend (o : Mat) : Statement (.mcend o) := by
  rintro h f ⟨⟩
  refine (decodeFields_at _ 0xA1 10 1 rfl rfl rfl).trans ?_
  exact decGen0_enc decMatQ encMatQ .mcend 0xA1 o (decMatQ_encMatQ o.q)
theorem FieldsKept.mldb (o : Mat) : Statement (.mldb o) := by
  rintro h f ⟨⟩
  refine (decodeFields_at _ 0xA2 10 2 rfl rfl rfl).trans ?_
  exact decGen0_enc decMatQ encMatQ .mldb 0xA2 o (decMatQ_encMatQ o.q)
theorem FieldsKept.mma (v : MatMode) (o : Mat) : Statement (.mma v o) := by
  rintro h f ⟨⟩
  refine (decodeFields_at _ 0xA3 10 3 rfl rfl rfl).trans ?_
  exact decVGen_enc tMatMode decMatQ encMatQ .mma 0xA3 _ v o (ofCode_tMatMode v) (decMatQ_encMatQ o.q)
theorem FieldsKept.mmas (v : SparseV) (o : Mat) : Statement (.mmas v o) := by
  rintro h f ⟨⟩
  refine (decodeFields_at _ 0xA4 10 4 rfl rfl rfl).trans ?_
  refine (decAny_enc decMatQ encMatQ _ 0xA4 _ o (decMatQ_encMatQ o.q)).trans ?_
  obtain ⟨m, s⟩ := v
  simp only [encGen]
  cases m <;> cases s <;> rfl
theorem FieldsKept.mzero (o : Mat) : Statement (.mzero o) := by
  rintro h f ⟨⟩
  refine (decodeFields_at _ 0xA5 10 5 rfl rfl rfl).trans ?_
  exact decGen0_enc decMatQ encMatQ .mzero 0xA5 o (decMatQ_encMatQ o.q)
theorem FieldsKept.mrd (o : Mat) : Statement (.mrd o) := by
  rintro h f ⟨⟩
  refine (decodeFields_at _ 0xA6 10 6 rfl rfl rfl).trans ?_
  refine (decAny_enc decMatQ encMatQ _ 0xA6 _ o (decMatQ_encMatQ o.q)).trans ?_
  have hb : o.q.bsrc = false := by
    simp only [Instr.wf, mrdOk, matAcc, Bool.and_eq_true, Bool.not_eq_true'] at h
    exact h.2.2
  simp only [hb]
  rfl
theorem FieldsKept.mrdMem (v : MrdV) (o : Mat) : Statement (.mrdMem v o) := by
  rintro h f ⟨⟩
  refine (decodeFields_at _ 0xA6 10 6 rfl rfl rfl).trans ?_
  refine (decAny_enc decMatQ encMatQ _ 0xA6 _ o (decMatQ_encMatQ o.q)).trans ?_
  have hb : o.q.bsrc = true := by
    simp only [Instr.wf, mrdMemOk, Bool.and_eq_true] at h
    exact h.2
  simp only [hb, if_true]
  obtain ⟨m, b⟩ := v
  simp only [encGen]
  cases m <;> cases b <;> rfl
theorem FieldsKept.mquire (o : Mat) : Statement (.mquire o) := by
  rintro h f ⟨⟩
  refine (decodeFields_at _ 0xA7 10 7 rfl rfl rfl).trans ?_
  exact decGen0_enc decMatQ encMatQ .mquire 0xA7 o (decMatQ_encMatQ o.q)
theorem FieldsKept.mwait (o : Mat) : Statement (.mwait o) := by
  rintro h f ⟨⟩
  refine (decodeFields_at _ 0xA8 10 8 rfl rfl rfl).trans ?_
  exact decGen0_enc decMatQ encMatQ .mwait 0xA8 o (decMatQ_encMatQ o.q)
theorem FieldsKept.maccAdd (o : Mat) : Statement (.maccAdd o) := by
  rintro h f ⟨⟩
  refine (decodeFields_at _ 0xA9 10 9 rfl rfl rfl).trans ?_
  refine (decAny_enc decMatQ encMatQ _ 0xA9 _ o (decMatQ_encMatQ o.q)).trans ?_
  rfl
theorem FieldsKept.maccLd (v : MaccV) (o : Mat) : Statement (.maccLd v o) := by
  rintro h f ⟨⟩
  refine (decodeFields_at _ 0xA9 10 9 rfl rfl rfl).trans ?_
  refine (decAny_enc decMatQ encMatQ _ 0xA9 _ o (decMatQ_encMatQ o.q)).trans ?_
  cases v <;> rfl
theorem FieldsKept.bupd (v : BupdV) (o : Bnk) : Statement (.bupd v o) := by
  rintro h f ⟨⟩
  refine (decodeFields_at _ 0xB0 11 0 rfl rfl rfl).trans ?_
  refine (decAny_enc decBankQ encBankQ _ 0xB0 _ o (decBankQ_encBankQ o.q)).trans ?_
  obtain ⟨m, b⟩ := v
  simp only [encGen]
  cases m <;> cases b <;> rfl
theorem FieldsKept.bred (v : BredOp) (o : Bnk) : Statement (.bred v o) := by
  rintro h f ⟨⟩
  refine (decodeFields_at _ 0xB1 11 1 rfl rfl rfl).trans ?_
  exact decVGen_enc tBredOp decBankQ encBankQ .bred 0xB1 _ v o (ofCode_tBredOp v) (decBankQ_encBankQ o.q)
theorem FieldsKept.vtopk (o : Bnk) : Statement (.vtopk o) := by
  rintro h f ⟨⟩
  refine (decodeFields_at _ 0xB2 11 2 rfl rfl rfl).trans ?_
  exact decGen0_enc decBankQ encBankQ .vtopk 0xB2 o (decBankQ_encBankQ o.q)
theorem FieldsKept.vsmax (o : Bnk) : Statement (.vsmax o) := by
  rintro h f ⟨⟩
  refine (decodeFields_at _ 0xB3 11 3 rfl rfl rfl).trans ?_
  exact decGen0_enc decBankQ encBankQ .vsmax 0xB3 o (decBankQ_encBankQ o.q)
theorem FieldsKept.vsamp (o : Bnk) : Statement (.vsamp o) := by
  rintro h f ⟨⟩
  refine (decodeFields_at _ 0xB4 11 4 rfl rfl rfl).trans ?_
  exact decGen0_enc decBankQ encBankQ .vsamp 0xB4 o (decBankQ_encBankQ o.q)
theorem FieldsKept.bwait (o : Bnk) : Statement (.bwait o) := by
  rintro h f ⟨⟩
  refine (decodeFields_at _ 0xB5 11 5 rfl rfl rfl).trans ?_
  exact decGen0_enc decBankQ encBankQ .bwait 0xB5 o (decBankQ_encBankQ o.q)
theorem FieldsKept.bar (n : BitVec 4) (o : Syn) : Statement (.bar n o) := by
  rintro h f ⟨⟩
  refine (decodeFields_at _ 0xC0 12 0 rfl rfl rfl).trans ?_
  refine (decAny_enc decSyncQ encSyncQ _ 0xC0 _ o (decSyncQ_encSyncQ o.q)).trans ?_
  rfl
theorem FieldsKept.bararv (n : BitVec 4) (o : Syn) : Statement (.bararv n o) := by
  rintro h f ⟨⟩
  refine (decodeFields_at _ 0xC1 12 1 rfl rfl rfl).trans ?_
  refine (decAny_enc decSyncQ encSyncQ _ 0xC1 _ o (decSyncQ_encSyncQ o.q)).trans ?_
  rfl
theorem FieldsKept.barwt (n : BitVec 4) (o : Syn) : Statement (.barwt n o) := by
  rintro h f ⟨⟩
  refine (decodeFields_at _ 0xC2 12 2 rfl rfl rfl).trans ?_
  refine (decAny_enc decSyncQ encSyncQ _ 0xC2 _ o (decSyncQ_encSyncQ o.q)).trans ?_
  rfl
theorem FieldsKept.cbar (n : BitVec 2) (o : Syn) : Statement (.cbar n o) := by
  rintro h f ⟨⟩
  refine (decodeFields_at _ 0xC3 12 3 rfl rfl rfl).trans ?_
  refine (decAny_enc decSyncQ encSyncQ _ 0xC3 _ o (decSyncQ_encSyncQ o.q)).trans ?_
  have h1 : (n.setWidth 4).extractLsb' 2 2 = 0 := by clear h; revert n; decide
  have h2 : (n.setWidth 4).extractLsb' 0 2 = n := by clear h1 h; revert n; decide
  simp only [encGen, h1, h2, if_true]
theorem FieldsKept.fence (o : Syn) : Statement (.fence o) := by
  rintro h f ⟨⟩
  refine (decodeFields_at _ 0xC4 12 4 rfl rfl rfl).trans ?_
  exact decGen0_enc decSyncQ encSyncQ .fence 0xC4 o (decSyncQ_encSyncQ o.q)
theorem FieldsKept.pfence (o : Syn) : Statement (.pfence o) := by
  rintro h f ⟨⟩
  refine (decodeFields_at _ 0xC5 12 5 rfl rfl rfl).trans ?_
  exact decGen0_enc decSyncQ encSyncQ .pfence 0xC5 o (decSyncQ_encSyncQ o.q)
theorem FieldsKept.tadv (o : Syn) : Statement (.tadv o) := by
  rintro h f ⟨⟩
  refine (decodeFields_at _ 0xC6 12 6 rfl rfl rfl).trans ?_
  exact decGen0_enc decSyncQ encSyncQ .tadv 0xC6 o (decSyncQ_encSyncQ o.q)
theorem FieldsKept.exit (o : Ctl) : Statement (.exit o) := by
  rintro h f ⟨⟩
  refine (decodeFields_at _ 0xD0 13 0 rfl rfl rfl).trans ?_
  exact decCtl_enc .exit 0xD0 o
theorem FieldsKept.groupSlotFree (gid : Nat) : Statement (.groupSlotFree gid) := by rintro - f ⟨⟩
theorem FieldsKept.teamResourcesFree (tid : Nat) : Statement (.teamResourcesFree tid) := by rintro - f ⟨⟩
theorem FieldsKept.trap (o : Ctl) : Statement (.trap o) := by
  rintro h f ⟨⟩
  refine (decodeFields_at _ 0xD1 13 1 rfl rfl rfl).trans ?_
  exact decCtl_enc .trap 0xD1 o
theorem FieldsKept.rte (o : Ctl) : Statement (.rte o) := by
  rintro h f ⟨⟩
  refine (decodeFields_at _ 0xD2 13 2 rfl rfl rfl).trans ?_
  exact decCtl_enc .rte 0xD2 o
theorem FieldsKept.bkpt (o : Ctl) : Statement (.bkpt o) := by
  rintro h f ⟨⟩
  refine (decodeFields_at _ 0xD3 13 3 rfl rfl rfl).trans ?_
  exact decCtl_enc .bkpt 0xD3 o
theorem FieldsKept.yieldi (o : Ctl) : Statement (.yieldi o) := by
  rintro h f ⟨⟩
  refine (decodeFields_at _ 0xD4 13 4 rfl rfl rfl).trans ?_
  exact decCtl_enc .yieldi 0xD4 o
theorem FieldsKept.sleep (o : Ctl) : Statement (.sleep o) := by
  rintro h f ⟨⟩
  refine (decodeFields_at _ 0xD5 13 5 rfl rfl rfl).trans ?_
  exact decCtl_enc .sleep 0xD5 o
theorem FieldsKept.sleepExpiry (gid : Nat) : Statement (.sleepExpiry gid) := by rintro - f ⟨⟩
theorem FieldsKept.divst (o : Ctl) : Statement (.divst o) := by
  rintro h f ⟨⟩
  refine (decodeFields_at _ 0xD6 13 6 rfl rfl rfl).trans ?_
  exact decCtl_enc .divst 0xD6 o
theorem FieldsKept.inflt (o : Ctl) : Statement (.inflt o) := by
  rintro h f ⟨⟩
  refine (decodeFields_at _ 0xD7 13 7 rfl rfl rfl).trans ?_
  exact decCtl_enc .inflt 0xD7 o
theorem FieldsKept.gsubGraph (o : Ctl) : Statement (.gsubGraph o) := by
  rintro h f ⟨⟩
  refine (decodeFields_at _ 0xE0 14 0 rfl rfl rfl).trans ?_
  exact decAny_enc decCtlQ (fun x => x) _ 0xE0 _ o rfl
theorem FieldsKept.gsubNode (o : Ctl) : Statement (.gsubNode o) := by
  rintro h f ⟨⟩
  refine (decodeFields_at _ 0xE0 14 0 rfl rfl rfl).trans ?_
  exact decAny_enc decCtlQ (fun x => x) _ 0xE0 _ o rfl
theorem FieldsKept.evpop (o : Ctl) : Statement (.evpop o) := by
  rintro h f ⟨⟩
  refine (decodeFields_at _ 0xE1 14 1 rfl rfl rfl).trans ?_
  exact decCtl_enc .evpop 0xE1 o
theorem FieldsKept.evwait (o : Ctl) : Statement (.evwait o) := by
  rintro h f ⟨⟩
  refine (decodeFields_at _ 0xE2 14 2 rfl rfl rfl).trans ?_
  exact decCtl_enc .evwait 0xE2 o
theorem FieldsKept.evwaitTimeout (gid : Nat) : Statement (.evwaitTimeout gid) := by rintro - f ⟨⟩
theorem FieldsKept.nrel (o : Ctl) : Statement (.nrel o) := by
  rintro h f ⟨⟩
  refine (decodeFields_at _ 0xE3 14 3 rfl rfl rfl).trans ?_
  exact decCtl_enc .nrel 0xE3 o
theorem FieldsKept.folio (o : Ctl) : Statement (.folio o) := by
  rintro h f ⟨⟩
  refine (decodeFields_at _ 0xE4 14 4 rfl rfl rfl).trans ?_
  exact decCtl_enc .folio 0xE4 o
theorem FieldsKept.ctxsus (o : Ctl) : Statement (.ctxsus o) := by
  rintro h f ⟨⟩
  refine (decodeFields_at _ 0xE5 14 5 rfl rfl rfl).trans ?_
  exact decCtl_enc .ctxsus 0xE5 o
theorem FieldsKept.ctxres (o : Ctl) : Statement (.ctxres o) := by
  rintro h f ⟨⟩
  refine (decodeFields_at _ 0xE6 14 6 rfl rfl rfl).trans ?_
  exact decCtl_enc .ctxres 0xE6 o
theorem FieldsKept.budget (o : Ctl) : Statement (.budget o) := by
  rintro h f ⟨⟩
  refine (decodeFields_at _ 0xE7 14 7 rfl rfl rfl).trans ?_
  exact decCtl_enc .budget 0xE7 o
theorem FieldsKept.fixedResultLand (gid : Nat) : Statement (.fixedResultLand gid) := by rintro - f ⟨⟩
theorem FieldsKept.variableResultLand (gid op : Nat) (lanes : LaneMask) : Statement (.variableResultLand gid op lanes) := by rintro - f ⟨⟩
theorem FieldsKept.instructionReplay (gid : Nat) : Statement (.instructionReplay gid) := by rintro - f ⟨⟩
theorem FieldsKept.trapEntry (gid : Nat) : Statement (.trapEntry gid) := by rintro - f ⟨⟩
theorem FieldsKept.teamStart (tid : Nat) : Statement (.teamStart tid) := by rintro - f ⟨⟩
theorem FieldsKept.clusterPlacement (nid : Nat) : Statement (.clusterPlacement nid) := by rintro - f ⟨⟩
theorem FieldsKept.nodeReady (nid : Nat) : Statement (.nodeReady nid) := by rintro - f ⟨⟩
theorem FieldsKept.dccProgramStart (nid : Nat) : Statement (.dccProgramStart nid) := by rintro - f ⟨⟩
theorem FieldsKept.nodeComplete (nid : Nat) : Statement (.nodeComplete nid) := by rintro - f ⟨⟩
theorem FieldsKept.colophonRetry (d : Nat) : Statement (.colophonRetry d) := by rintro - f ⟨⟩
theorem FieldsKept.defqWrite (asid d : Nat) (va : BitVec 64) : Statement (.defqWrite asid d va) := by rintro - f ⟨⟩
theorem FieldsKept.evpostWrite (d : Nat) (w : Word) : Statement (.evpostWrite d w) := by rintro - f ⟨⟩
theorem FieldsKept.pageWalk (id : Nat) : Statement (.pageWalk id) := by rintro - f ⟨⟩
theorem FieldsKept.heldFaultRecordAppend (d : Nat) : Statement (.heldFaultRecordAppend d) := by rintro - f ⟨⟩
theorem FieldsKept.replay (d : Nat) (token : BitVec 64) : Statement (.replay d token) := by rintro - f ⟨⟩
theorem FieldsKept.tlbcmdRange (asid page pages : Nat) : Statement (.tlbcmdRange asid page pages) := by rintro - f ⟨⟩
theorem FieldsKept.tlbcmdAsid (asid : Nat) : Statement (.tlbcmdAsid asid) := by rintro - f ⟨⟩
theorem FieldsKept.ctlbRange (asid page pages : Nat) : Statement (.ctlbRange asid page pages) := by rintro - f ⟨⟩
theorem FieldsKept.ctlbAsid (asid : Nat) : Statement (.ctlbAsid asid) := by rintro - f ⟨⟩
theorem FieldsKept.tlbcmdDone (id : Nat) : Statement (.tlbcmdDone id) := by rintro - f ⟨⟩
theorem FieldsKept.l1cfg (cid : Nat) (v : Word) : Statement (.l1cfg cid v) := by rintro - f ⟨⟩
theorem FieldsKept.l1SizeChange (cid : Nat) : Statement (.l1SizeChange cid) := by rintro - f ⟨⟩
theorem FieldsKept.dsmcfg (d : Nat) (v : Word) : Statement (.dsmcfg d v) := by rintro - f ⟨⟩
theorem FieldsKept.dsmSizeChange (d : Nat) : Statement (.dsmSizeChange d) := by rintro - f ⟨⟩
theorem FieldsKept.logicalTimeTick (cid : Nat) : Statement (.logicalTimeTick cid) := by rintro - f ⟨⟩
theorem FieldsKept.domainWrap (d : Nat) : Statement (.domainWrap d) := by rintro - f ⟨⟩
theorem FieldsKept.epochSweepDone (d : Nat) : Statement (.epochSweepDone d) := by rintro - f ⟨⟩
theorem FieldsKept.l1Fill (id : Nat) : Statement (.l1Fill id) := by rintro - f ⟨⟩
theorem FieldsKept.leaseGrant (id : Nat) : Statement (.leaseGrant id) := by rintro - f ⟨⟩
theorem FieldsKept.sliceWrite (id : Nat) : Statement (.sliceWrite id) := by rintro - f ⟨⟩
theorem FieldsKept.writeBackAck (id : Nat) : Statement (.writeBackAck id) := by rintro - f ⟨⟩
theorem FieldsKept.sliceFill (id : Nat) : Statement (.sliceFill id) := by rintro - f ⟨⟩
theorem FieldsKept.readShared (id : Nat) : Statement (.readShared id) := by rintro - f ⟨⟩
theorem FieldsKept.writePermission (id : Nat) : Statement (.writePermission id) := by rintro - f ⟨⟩
theorem FieldsKept.waferScopeRead (id : Nat) : Statement (.waferScopeRead id) := by rintro - f ⟨⟩
theorem FieldsKept.invalidation (id : Nat) : Statement (.invalidation id) := by rintro - f ⟨⟩
theorem FieldsKept.forward (id : Nat) : Statement (.forward id) := by rintro - f ⟨⟩
theorem FieldsKept.recall (id : Nat) : Statement (.recall id) := by rintro - f ⟨⟩
theorem FieldsKept.invalidationAck (id : Nat) : Statement (.invalidationAck id) := by rintro - f ⟨⟩
theorem FieldsKept.ownerWriteBack (id : Nat) : Statement (.ownerWriteBack id) := by rintro - f ⟨⟩
theorem FieldsKept.nearBankAtomic (id : Nat) : Statement (.nearBankAtomic id) := by rintro - f ⟨⟩
theorem FieldsKept.bankOperation (id : Nat) : Statement (.bankOperation id) := by rintro - f ⟨⟩
theorem FieldsKept.bankTicketComplete (id : Nat) : Statement (.bankTicketComplete id) := by rintro - f ⟨⟩
theorem FieldsKept.copyStart (cid : Nat) : Statement (.copyStart cid) := by rintro - f ⟨⟩
theorem FieldsKept.copyComplete (id : Nat) : Statement (.copyComplete id) := by rintro - f ⟨⟩
theorem FieldsKept.copyPageResume (id : Nat) : Statement (.copyPageResume id) := by rintro - f ⟨⟩
theorem FieldsKept.matrixSubtileStart (hcid : Nat) (transfer : Bool) : Statement (.matrixSubtileStart hcid transfer) := by rintro - f ⟨⟩
theorem FieldsKept.matrixOpComplete (id : Nat) : Statement (.matrixOpComplete id) := by rintro - f ⟨⟩
theorem FieldsKept.matrixFaultResume (id : Nat) : Statement (.matrixFaultResume id) := by rintro - f ⟨⟩
theorem FieldsKept.cmdSuspend (acc : MmioAcc) (asid : Nat) (dcc : Bool) : Statement (.cmdSuspend acc asid dcc) := by rintro - f ⟨⟩
theorem FieldsKept.cmdResume (acc : MmioAcc) (asid : Nat) (dcc : Bool) : Statement (.cmdResume acc asid dcc) := by rintro - f ⟨⟩
theorem FieldsKept.spineSuspend (asid d nid : Nat) : Statement (.spineSuspend asid d nid) := by rintro - f ⟨⟩
theorem FieldsKept.spineReasonEnd (asid d : Nat) : Statement (.spineReasonEnd asid d) := by rintro - f ⟨⟩
theorem FieldsKept.teamSaveComplete (tid : Nat) : Statement (.teamSaveComplete tid) := by rintro - f ⟨⟩
theorem FieldsKept.divertedArrival (id : Nat) : Statement (.divertedArrival id) := by rintro - f ⟨⟩
theorem FieldsKept.accImageSave (hcid : Nat) : Statement (.accImageSave hcid) := by rintro - f ⟨⟩
theorem FieldsKept.dawn (tid : Nat) : Statement (.dawn tid) := by rintro - f ⟨⟩
theorem FieldsKept.landingBufferArrival (id : Nat) : Statement (.landingBufferArrival id) := by rintro - f ⟨⟩
theorem FieldsKept.step (asid : Nat) (v : BitVec 64) : Statement (.step asid v) := by rintro - f ⟨⟩
theorem FieldsKept.dfactRetire (asid site slot : Nat) : Statement (.dfactRetire asid site slot) := by rintro - f ⟨⟩
theorem FieldsKept.dfactReturn (asid site slot : Nat) : Statement (.dfactReturn asid site slot) := by rintro - f ⟨⟩
theorem FieldsKept.dbgctl (asid : Nat) (v : Word) : Statement (.dbgctl asid v) := by rintro - f ⟨⟩
theorem FieldsKept.sampleWrite (cid : Nat) : Statement (.sampleWrite cid) := by rintro - f ⟨⟩
theorem FieldsKept.watchpointArm (cid n : Nat) (v : BitVec 128) : Statement (.watchpointArm cid n v) := by rintro - f ⟨⟩
theorem FieldsKept.watchpointArmComplete (cid n : Nat) : Statement (.watchpointArmComplete cid n) := by rintro - f ⟨⟩
theorem FieldsKept.watchpointDisarm (cid n : Nat) (v : BitVec 128) : Statement (.watchpointDisarm cid n v) := by rintro - f ⟨⟩
theorem FieldsKept.watchpointReport (id : Nat) : Statement (.watchpointReport id) := by rintro - f ⟨⟩
theorem FieldsKept.binlo (cid n : Nat) (v : BitVec 64) : Statement (.binlo cid n v) := by rintro - f ⟨⟩
theorem FieldsKept.elo (acc : MmioAcc) (asid : Nat) : Statement (.elo acc asid) := by rintro - f ⟨⟩
theorem FieldsKept.ehi (acc : MmioAcc) (asid : Nat) : Statement (.ehi acc asid) := by rintro - f ⟨⟩
theorem FieldsKept.sensorUpdate (d c : Nat) (die : BitVec 8) (dram : List (BitVec 8)) : Statement (.sensorUpdate d c die dram) := by rintro - f ⟨⟩
theorem FieldsKept.talRefill (d : Nat) : Statement (.talRefill d) := by rintro - f ⟨⟩
theorem FieldsKept.tal (d : Nat) (v : BitVec 128) : Statement (.tal d v) := by rintro - f ⟨⟩
theorem FieldsKept.patUpdate (d : Nat) : Statement (.patUpdate d) := by rintro - f ⟨⟩
theorem FieldsKept.ppat (d c : Nat) (v : Word) : Statement (.ppat d c v) := by rintro - f ⟨⟩
theorem FieldsKept.powctl (d : Nat) (v : Word) : Statement (.powctl d v) := by rintro - f ⟨⟩
theorem FieldsKept.refreshIntervalStart (d : Nat) : Statement (.refreshIntervalStart d) := by rintro - f ⟨⟩
theorem FieldsKept.refreshWindow (d ch : Nat) : Statement (.refreshWindow d ch) := by rintro - f ⟨⟩
theorem FieldsKept.topologyRetire (d : Nat) (p : Part) : Statement (.topologyRetire d p) := by rintro - f ⟨⟩
theorem FieldsKept.almpol (v : Word) : Statement (.almpol v) := by rintro - f ⟨⟩
theorem FieldsKept.almlock (v : Word) : Statement (.almlock v) := by rintro - f ⟨⟩
theorem FieldsKept.alarm (src : AlarmSrc) : Statement (.alarm src) := by rintro - f ⟨⟩
theorem FieldsKept.bootImageCheck (img : BootImage) : Statement (.bootImageCheck img) := by rintro - f ⟨⟩
theorem FieldsKept.attestationQuote (nonce : List Byte) : Statement (.attestationQuote nonce) := by rintro - f ⟨⟩
theorem FieldsKept.hostInboundRead (port : Nat) (ofs : HostBar) (n : Nat) : Statement (.hostInboundRead port ofs n) := by rintro - f ⟨⟩
theorem FieldsKept.hostInboundWrite (port : Nat) (ofs : HostBar) (data : List Byte) (relaxed : Bool) : Statement (.hostInboundWrite port ofs data relaxed) := by rintro - f ⟨⟩
theorem FieldsKept.hostInboundAtomic (port : Nat) (ofs : HostBar) (op : HostAtom) : Statement (.hostInboundAtomic port ofs op) := by rintro - f ⟨⟩
theorem FieldsKept.peerInboundAccess (link : Nat) (ofs : BitVec 38) (acc : PeerAcc) : Statement (.peerInboundAccess link ofs acc) := by rintro - f ⟨⟩
theorem FieldsKept.outboundFlushCompletion (port : Nat) : Statement (.outboundFlushCompletion port) := by rintro - f ⟨⟩
theorem FieldsKept.linkDown (p : Port) : Statement (.linkDown p) := by rintro - f ⟨⟩
theorem FieldsKept.linkCrcReplay (link flits : Nat) (recovered : Bool) : Statement (.linkCrcReplay link flits recovered) := by rintro - f ⟨⟩
theorem FieldsKept.registerWrite (acc : MmioAcc) (ofs : Nat) (size : Nat) (v : BitVec 64) : Statement (.registerWrite acc ofs size v) := by rintro - f ⟨⟩
theorem FieldsKept.linkUp (p : Port) : Statement (.linkUp p) := by rintro - f ⟨⟩
theorem FieldsKept.peerWriteAck (link : Nat) : Statement (.peerWriteAck link) := by rintro - f ⟨⟩
theorem FieldsKept.yieldExpiry (gid : Nat) : Statement (.yieldExpiry gid) := by rintro - f ⟨⟩
theorem FieldsKept.contextCreate (asid : Nat) (init : CtxInit) : Statement (.contextCreate asid init) := by rintro - f ⟨⟩
theorem FieldsKept.contextDestroy (asid : Nat) : Statement (.contextDestroy asid) := by rintro - f ⟨⟩
theorem FieldsKept.debugUnlock (sig : Nat) (body : List Byte) : Statement (.debugUnlock sig body) := by rintro - f ⟨⟩
theorem FieldsKept.scTicketGrant : Statement .scTicketGrant := by rintro - f ⟨⟩
theorem FieldsKept.tlbcmdAll : Statement .tlbcmdAll := by rintro - f ⟨⟩
theorem FieldsKept.meteringIntervalEnd : Statement .meteringIntervalEnd := by rintro - f ⟨⟩
theorem FieldsKept.energyWindowEnd : Statement .energyWindowEnd := by rintro - f ⟨⟩
theorem FieldsKept.moduleReset : Statement .moduleReset := by rintro - f ⟨⟩
theorem FieldsKept.markDegraded (d : Nat) (l2 : Bool) : Statement (.markDegraded d l2) := by rintro - f ⟨⟩

end Sys2Proof.Laws
end

