-- ==== Sys2Proof/Tests/Slice0.lean ====
section
/-! SUPPORT. Tests of the model and witnesses of the statements. The words are written out from the field tables of R18-R36 and the
opcode map R37; expected results come from the worked examples of the spec, or from its rules by hand. -/

namespace Sys2Proof.Tests

open Sys2Proof Sys2Proof.Machine

/-! Well-formedness: one ill-formed term or more for each check, which Instr.wf refuses. -/

def v (r : BitVec 10) : Src := regSrc .vec r
def sc (r : BitVec 10) : Src := regSrc .scal r
def vd : Dst := regDst .vec 9
def sd : Dst := regDst .scal 9
/-- An instruction of 0x10-0x63 with A v5 and B v6. -/
def alu : Alu := ⟨plainHdr, vd, v 5, .n (v 6) Perm.id .rne⟩
def ctl : Ctl := ⟨plainHdr, Dst.zero, Src.zero, noB, 0⟩
def memq : MemQ := ⟨.team, .plain, false, false, false, .normal, 0⟩
def mem : Mem := ⟨plainHdr, vd, v 4, noB, memq⟩
def cpy : Cpy := ⟨plainHdr, Dst.zero, sc 16, noB, ⟨0, .team, false, .normal⟩⟩
def mat : Mat := ⟨plainHdr, Dst.zero, sc 16, noB, ⟨0, 0, false⟩⟩
def bnk : Bnk := ⟨plainHdr, sd, sc 16, noB, ⟨.team, .plain⟩⟩
def syn (o : Ord) : Syn := ⟨plainHdr, Dst.zero, Src.zero, noB, ⟨.dom, o, 0, 0⟩⟩
def never (l : List Instr) : Bool := l.all fun i => !i.wf
def always (l : List Instr) : Bool := l.all fun i => i.wf

/-- The terms that the tests below spoil are well-formed themselves. -/
theorem test_wf_accepts : always
    [.iadd .s32 alu, .fadd .f32 alu, .nop ctl, .jmp ctl, .ld .b32 mem, .cpyin cpy, .mldb mat, .vtopk bnk, .fence (syn .acq), .exit ctl] = true := by decide

/-- R24-R26, R107: registers of D, the even pair, CLMP and SCL. -/
theorem test_wf_destination : never
    [.iadd .s32 { alu with d := regDst .scal 256 }, .icmp .eq { alu with d := regDst .pred 8 }, .movrs .only { alu with d := regDst .spec 0x09, a := sc 5, x := .n Src.zero Perm.id .rne },
     .iadd .s64 { alu with d := vd, a := v 4 }, .iadd .s32 { alu with d := { vd with clmp := .unit } }, .and .only { alu with d := { vd with clmp := .sat } },
     .iadd .s32 { alu with d := { vd with scl := 1 } }, .iadd .s32 { alu with d := regDst .pred 1 }, .movrs .only { alu with d := regDst .spec 0x10, a := sc 5, x := .n Src.zero Perm.id .rne }] = true := by decide

/-- R27-R33: registers and modifiers of the sources, forms, permutations, rounding. -/
theorem test_wf_sources : never
    [.iadd .s32 { alu with a := sc 256 }, .iadd .s32 { alu with a := regSrc .spec 0x0F }, .iadd .s32 { alu with a := { regSrc .spec 0x10 with neg := true } },
     .and .only { alu with a := { v 5 with neg := true } }, .xshfl .only { alu with a := { v 5 with sub := .lo }, x := .n (sc 6) Perm.id .rne },
     .iadd .s64 { alu with d := regDst .vec 8, a := v 5 }, .iadd .s64 { alu with d := regDst .vec 8, a := { v 4 with abs := true } },
     .popc .only alu, .imad .s32 alu, .iadd .s32 { alu with x := .c (v 6) ⟨false, 7, false, false, .whole, false⟩ }, .imad .s32 { alu with x := .i 1 },
     .popc .only { alu with x := .i 1 }, .bfi .only { alu with x := .c (v 6) ⟨true, 256, false, false, .whole, false⟩ },
     .imad .wideS { alu with d := regDst .vec 8, x := .c (v 6) ⟨false, 7, false, false, .whole, false⟩ },
     .iadd .s32 { alu with x := .n (v 6) ⟨.rot, 5, 0⟩ .rne }, .iadd .s32 { alu with x := .n (v 6) ⟨.rot, 1, 4⟩ .rne }, .iadd .s32 { alu with x := .n (v 6) ⟨.none, 1, 0⟩ .rne },
     .iadd .s32 { alu with a := sc 5, x := .n (v 6) ⟨.bfly, 0, 1⟩ .rne }, .lea ⟨false, 0⟩ { alu with d := regDst .vec 8, a := v 4, x := .n (v 6) ⟨.bfly, 0, 1⟩ .rne },
     .iadd .s32 { alu with x := .n (v 6) Perm.id .rz }] = true := by decide

/-- R39 and the rules of single opcodes: a scalar from per-lane sources, SEL, MOVLS, predicates, V2P, SETEXM. -/
theorem test_wf_opcodes : never
    [.iadd .s32 { alu with d := sd }, .iadd .s32 { alu with d := sd, a := regSrc .spec 0x01, x := .i 1 }, .imad .s32 { alu with d := sd, a := sc 5, x := .c (sc 6) ⟨false, 7, false, false, .whole, false⟩ },
     .sel ⟨false, 2⟩ { alu with d := sd, a := sc 5, x := .n (sc 6) Perm.id .rne }, .movls .get { alu with x := .i 0 }, .gscan .iadd { alu with d := sd, x := .n Src.zero Perm.id .rne },
     .plop 8 { alu with d := regDst .pred 3, a := v 8 }, .plop 8 { alu with d := regDst .pred 3, a := { v 1 with kill := true } }, .plop 8 { alu with d := regDst .pred 3, a := regSrc .spec 1 },
     .v2p .unpack { alu with d := regDst .pred 1, x := .n Src.zero Perm.id .rne }, .setexm .set { alu with d := regDst .spec 0x18, a := sc 5, x := .n Src.zero Perm.id .rne }] = true := by decide

/-- R86-R92, R97, R174, R289, R331, R345, R371: control, system and domain-control operands. -/
theorem test_wf_control : never
    [.nop { ctl with q := 1 }, .nop { ctl with d := vd }, .ifi ctl, .elsei { ctl with q := 2, hdr := ⟨⟨false, false, 1⟩, plainHdr.sch⟩ }, .endif { ctl with hdr := ⟨⟨false, true, 7⟩, plainHdr.sch⟩ },
     .endloop { ctl with q := 1 }, .breaki { ctl with q := 254 }, .cont { ctl with q := 255 }, .hloop 0 { ctl with b := .src (v 6) }, .hloopp 0 { ctl with d := regDst .vec 512, b := .imm 4 },
     .hloopp 0 { ctl with a := v 4, b := .imm 4 }, .hloopp 0 { ctl with d := regDst .vec 8, a := v 1016, b := .imm 4 }, .hlexit 0 { ctl with q := 1 }, .jmp { ctl with a := sc 5 }, .jmps ctl,
     .call { ctl with d := regDst .scal 31 }, .ret { ctl with a := sc 31 }, .trap { ctl with b := .src (v 6) }, .exit { ctl with q := 1 }, .sleep { ctl with d := sd }, .divst { ctl with d := regDst .scal 6 },
     .inflt { ctl with d := regDst .scal 6 }, .gsubGraph { ctl with d := sd, a := sc 5 }, .evpop { ctl with d := regDst .scal 4, a := sc 4 }, .evwait { ctl with d := regDst .scal 8, a := sc 4, b := .src (v 1) },
     .nrel { ctl with d := sd, a := v 5 }, .folio { ctl with d := sd, a := sc 6 }, .budget { ctl with d := sd, a := sc 254 }] = true := by decide

/-- R35, R147, R150, R153, R162: qualifiers, address pairs, data registers and operands of memory instructions and atomics. -/
theorem test_wf_memory : never
    [.ld .b32 { mem with q := { memq with scope := .dom } }, .ld .b32 { mem with q := { memq with ord := .acq } }, .ld .b32 { mem with q := { memq with str := true, ord := .rel } },
     .ld .b32 { mem with q := { memq with str := true, sc := true } }, .st .b32 { mem with q := { memq with str := true, ord := .acq } }, .st .b32 { mem with q := { memq with str := true, poll := true } },
     .ld .b32 { mem with q := { memq with poll := true } }, .ld .b32 { mem with a := v 5 }, .ld .b32 { mem with a := { v 4 with neg := true } }, .ld .b64 mem, .st .b128 { mem with d := regDst .vec 6 },
     .st .b32 { mem with d := regDst .scal 8, a := sc 4, b := .imm 0 }, .lds .b32 { mem with q := { memq with cpol := .keep } }, .sts .b32 { mem with d := regDst .scal 8, a := sc 4, b := .imm 0 },
     .ldu .b32 { mem with d := sd }, .stu .b32 { mem with d := sd, a := sc 4, b := .src (v 6) }, .ldq .only { mem with d := sd }, .stdesc .only mem, .pref .l1 mem,
     .pref .l1 { mem with d := Dst.zero, q := { memq with str := true } }, .cctl .wball { mem with d := Dst.zero }, .cctl .wb mem,
     .atom .addU32 mem, .atom .addU64 { mem with b := .src (v 6), q := { memq with str := true } }, .atomcas .b64 { mem with d := regDst .vec 8, b := .src (v 5), q := { memq with str := true } },
     .red .exch { mem with d := Dst.zero, b := .src (v 6), q := { memq with str := true } }, .red .addU32 { mem with d := Dst.zero, b := .src (v 6), q := { memq with str := true, ord := .acq } },
     .atoms .addU64 { mem with d := regDst .vec 8, b := .src (v 6), q := { memq with str := true } }, .atoms .addU32 { mem with b := .src (v 6), q := { memq with str := true, scope := .dom } },
     .cass .only { mem with b := .src (v 6), q := { memq with str := true, sc := true } }] = true := by decide

/-- R170, R201, R207, R219, R253, R304: blocks, counters, accumulators, orders and paths. -/
theorem test_wf_engines : never
    [.cpyin { cpy with a := sc 12 }, .cpyin { cpy with q := { cpy.q with desc := true } }, .cpywait { cpy with b := .imm 1 }, .cpystat { cpy with a := Src.zero, d := sd, q := { cpy.q with cc := 1 } },
     .mchain mat, .mldb { mat with q := { mat.q with acc := 1 } }, .mma .f32 { mat with a := sc 4 }, .mzero { mat with a := Src.zero, b := .imm 1, q := { mat.q with cmask := 1 } }, .mrd { mat with a := Src.zero, d := sd },
     .mrdMem ⟨.f32, false⟩ mat, .mquire { mat with a := Src.zero }, .mwait { mat with b := .imm 1 }, .maccAdd { mat with b := .imm 1 }, .maccLd .ld { mat with q := { mat.q with bsrc := true } },
     .bred .iadd { bnk with q := { bnk.q with ord := .acq } }, .vtopk { bnk with d := vd }, .bwait { bnk with d := Dst.zero, a := Src.zero, b := .imm 3 }, .bar 0 (syn .rel), .bararv 0 (syn .ar), .barwt 0 (syn .ar),
     .cbar 0 { syn .ar with q := ⟨.team, .ar, 0, 0⟩ }, .fence (syn .plain), .pfence (syn .ar), .pfence { syn .ar with q := ⟨.dom, .ar, 1, 0⟩ }, .tadv { syn .plain with d := sd }] = true := by decide

/-- Steps that no word encodes: parts that the machine does not have (R3, R8, R10, R11, R321, R372, R375, R385). -/
theorem test_wf_steps : never
    [.colophonRetry 64, .l1cfg (64 * 145) 0, .tlbcmdAsid 65536, .tlbcmdRange 0 (2 ^ 36) 1, .tlbcmdRange 0 0 (2 ^ 30), .watchpointDisarm 0 4 0, .binlo 0 8 0, .sensorUpdate 0 12 0 [0, 0, 0, 0], .sensorUpdate 0 0 0 [0],
     .ppat 0 12 1, .refreshWindow 0 32, .topologyRetire 0 (.core 144), .topologyRetire 0 (.array 12), .attestationQuote [], .hostInboundRead 4 (.bar2 0) 1, .hostInboundRead 0 (.bar2 0) 4097,
     .peerInboundAccess 32 0 (.read 1), .linkDown (.host 4), .linkUp (.link 32), .matrixSubtileStart 768 false, .spineSuspend 0 64 0, .linkCrcReplay 32 0 true, .outboundFlushCompletion 4] = true := by decide

/-- R38: what decoding refuses, each by its name: reserved opcode and variant, a context that may not issue it, must-be-zero bits, files. -/
theorem test_decode_refuses :
    decode false 0x0F0380000000000000000000 = .error .unassignedOpcode ∧ decode false 0xE00380208004040000000000 = .error .outsideDcc ∧
    decode true 0x900380000004100000004000 = .error .notOnDcc ∧ decode false 0x007380000000000000000000 = .error .reservedVariant ∧
    decode false 0x000380000010000000000000 = .error .mustBeZero ∧
    decode false 0x10038000000C000000000000 = .error .badFile ∧ decode false 0x000380001000000000000000 = .error .illFormed := by decide
/-! Decoding (R18-R38): one word or more for every instruction that has one, bits as the opcode table numbers them. -/

/-- Whether each word decodes to the instruction beside it. -/
def decodesTo (t : List (Nat × Instr)) : Bool := t.all fun p => decide (decodeTableWord 96 p.1 = some p.2)

theorem test_decode_integer : decodesTo
  [(0x100380004800050001800000, .iadd .s32 ⟨plainHdr, regDst .vec 9, regSrc .vec 5, .n (regSrc .vec 6) ⟨.none, 0, 0⟩ .rne⟩),
   (0x113380004000040001800000, .isub .u64 ⟨plainHdr, regDst .vec 8, regSrc .vec 4, .n (regSrc .vec 6) ⟨.none, 0, 0⟩ .rne⟩),
   (0x121380004800050001800000, .imul .u32 ⟨plainHdr, regDst .vec 9, regSrc .vec 5, .n (regSrc .vec 6) ⟨.none, 0, 0⟩ .rne⟩),
   (0x130380004800050001800000, .imulhi .s32 ⟨plainHdr, regDst .vec 9, regSrc .vec 5, .n (regSrc .vec 6) ⟨.none, 0, 0⟩ .rne⟩),
   (0x1413800048000500018000E0, .imad .u32 ⟨plainHdr, regDst .vec 9, regSrc .vec 5, .c (regSrc .vec 6) ⟨false, 7, false, false, .whole, false⟩⟩),
   (0x150380004800050001800000, .imin .s32 ⟨plainHdr, regDst .vec 9, regSrc .vec 5, .n (regSrc .vec 6) ⟨.none, 0, 0⟩ .rne⟩),
   (0x161380004800050380001234, .imax .u32 ⟨plainHdr, regDst .vec 9, regSrc .vec 5, .i 0x80001234⟩),
   (0x170380004800050001800000, .iadif .s32 ⟨plainHdr, regDst .vec 9, regSrc .vec 5, .n (regSrc .vec 6) ⟨.none, 0, 0⟩ .rne⟩)] = true := by decide

theorem test_decode_bits_1 : decodesTo
  [(0x180380004800050300000005, .shl .asGiven ⟨plainHdr, regDst .vec 9, regSrc .vec 5, .i 0x5⟩),
   (0x191380004800050001800000, .shr .wrap ⟨plainHdr, regDst .vec 9, regSrc .vec 5, .n (regSrc .vec 6) ⟨.none, 0, 0⟩ .rne⟩),
   (0x1A0380004800050001800000, .sar .asGiven ⟨plainHdr, regDst .vec 9, regSrc .vec 5, .n (regSrc .vec 6) ⟨.none, 0, 0⟩ .rne⟩),
   (0x1B0380004800050001800000, .rol .only ⟨plainHdr, regDst .vec 9, regSrc .vec 5, .n (regSrc .vec 6) ⟨.none, 0, 0⟩ .rne⟩),
   (0x1C03800048000503FFFF0000, .and .only ⟨plainHdr, regDst .vec 9, regSrc .vec 5, .i 0xFFFF0000⟩),
   (0x1D0380004800050001800000, .or .only ⟨plainHdr, regDst .vec 9, regSrc .vec 5, .n (regSrc .vec 6) ⟨.none, 0, 0⟩ .rne⟩),
   (0x1E0380004800050001800000, .xor .only ⟨plainHdr, regDst .vec 9, regSrc .vec 5, .n (regSrc .vec 6) ⟨.none, 0, 0⟩ .rne⟩),
   (0x1F0380004800050001800000, .andn .only ⟨plainHdr, regDst .vec 9, regSrc .vec 5, .n (regSrc .vec 6) ⟨.none, 0, 0⟩ .rne⟩)] = true := by decide

theorem test_decode_bits_2 : decodesTo
  [(0x201380004800050001800000, .bfe .s32 ⟨plainHdr, regDst .vec 9, regSrc .vec 5, .n (regSrc .vec 6) ⟨.none, 0, 0⟩ .rne⟩),
   (0x2103800048000500018000E0, .bfi .only ⟨plainHdr, regDst .vec 9, regSrc .vec 5, .c (regSrc .vec 6) ⟨false, 7, false, false, .whole, false⟩⟩),
   (0x220380004800050000000000, .popc .only ⟨plainHdr, regDst .vec 9, regSrc .vec 5, .n (regSrc .vec 0) ⟨.none, 0, 0⟩ .rne⟩),
   (0x230380004800050000000000, .clz .only ⟨plainHdr, regDst .vec 9, regSrc .vec 5, .n (regSrc .vec 0) ⟨.none, 0, 0⟩ .rne⟩),
   (0x240380004800000300000001, .brev .only ⟨plainHdr, regDst .vec 9, regSrc .vec 0, .i 0x1⟩)] = true := by decide

theorem test_decode_moves_1 : decodesTo
  [(0x259380401800050001800000, .icmp .geU ⟨plainHdr, regDst .pred 3, regSrc .vec 5, .n (regSrc .vec 6) ⟨.none, 0, 0⟩ .rne⟩),
   (0x26A380004800050001800000, .sel ⟨true, 2⟩ ⟨plainHdr, regDst .vec 9, regSrc .vec 5, .n (regSrc .vec 6) ⟨.none, 0, 0⟩ .rne⟩),
   (0x27B380004000040001800000, .lea ⟨true, 3⟩ ⟨plainHdr, regDst .vec 8, regSrc .vec 4, .n (regSrc .vec 6) ⟨.none, 0, 0⟩ .rne⟩),
   (0x281380004000040000000000, .mov .b64 ⟨plainHdr, regDst .vec 8, regSrc .vec 4, .n (regSrc .vec 0) ⟨.none, 0, 0⟩ .rne⟩),
   (0x29038020480005030000001F, .movls .get ⟨plainHdr, regDst .scal 9, regSrc .vec 5, .i 0x1F⟩),
   (0x291380204800050000000000, .movls .first ⟨plainHdr, regDst .scal 9, regSrc .vec 5, .n (regSrc .vec 0) ⟨.none, 0, 0⟩ .rne⟩),
   (0x292380004804050000000000, .movls .put ⟨plainHdr, regDst .vec 9, regSrc .scal 5, .n (regSrc .vec 0) ⟨.none, 0, 0⟩ .rne⟩),
   (0x2A0380204808100000000000, .movsr .only ⟨plainHdr, regDst .scal 9, regSrc .spec 16, .n (regSrc .vec 0) ⟨.none, 0, 0⟩ .rne⟩)] = true := by decide

theorem test_decode_moves_2 : decodesTo
  [(0x2B0380610004050000000000, .movrs .only ⟨plainHdr, regDst .spec 32, regSrc .scal 5, .n (regSrc .vec 0) ⟨.none, 0, 0⟩ .rne⟩),
   (0x2C03800048000500018000E0, .prmt .only ⟨plainHdr, regDst .vec 9, regSrc .vec 5, .c (regSrc .vec 6) ⟨false, 7, false, false, .whole, false⟩⟩),
   (0x2D23800048000500018000E0, .dp4 .s8u8 ⟨plainHdr, regDst .vec 9, regSrc .vec 5, .c (regSrc .vec 6) ⟨false, 7, false, false, .whole, false⟩⟩)] = true := by decide

theorem test_decode_float_1 : decodesTo
  [(0x301380004800050001800000, .fadd .f16x2 ⟨plainHdr, regDst .vec 9, regSrc .vec 5, .n (regSrc .vec 6) ⟨.none, 0, 0⟩ .rne⟩),
   (0x312380004800050001800000, .fmul .bf16x2 ⟨plainHdr, regDst .vec 9, regSrc .vec 5, .n (regSrc .vec 6) ⟨.none, 0, 0⟩ .rne⟩),
   (0x3203800048000500018000E0, .ffma .f32 ⟨plainHdr, regDst .vec 9, regSrc .vec 5, .c (regSrc .vec 6) ⟨false, 7, false, false, .whole, false⟩⟩),
   (0x330380004800050001800000, .fmin .f32 ⟨plainHdr, regDst .vec 9, regSrc .vec 5, .n (regSrc .vec 6) ⟨.none, 0, 0⟩ .rne⟩),
   (0x34038000480005033F800000, .fmax .f32 ⟨plainHdr, regDst .vec 9, regSrc .vec 5, .i 0x3F800000⟩),
   (0x357380401800050001800000, .fcmp .nan ⟨plainHdr, regDst .pred 3, regSrc .vec 5, .n (regSrc .vec 6) ⟨.none, 0, 0⟩ .rne⟩),
   (0x360380004800050000000000, .frnd .f32 ⟨plainHdr, regDst .vec 9, regSrc .vec 5, .n (regSrc .vec 0) ⟨.none, 0, 0⟩ .rne⟩),
   (0x370380004800050001800000, .fldexp .only ⟨plainHdr, regDst .vec 9, regSrc .vec 5, .n (regSrc .vec 6) ⟨.none, 0, 0⟩ .rne⟩)] = true := by decide

theorem test_decode_float_2 : decodesTo
  [(0x380380004800050001800000, .fdiv .only ⟨plainHdr, regDst .vec 9, regSrc .vec 5, .n (regSrc .vec 6) ⟨.none, 0, 0⟩ .rne⟩),
   (0x390380004800050000000000, .fsqrt .only ⟨plainHdr, regDst .vec 9, regSrc .vec 5, .n (regSrc .vec 0) ⟨.none, 0, 0⟩ .rne⟩),
   (0x3A13800048000500018000E0, .fdot2 .bf16 ⟨plainHdr, regDst .vec 9, regSrc .vec 5, .c (regSrc .vec 6) ⟨false, 7, false, false, .whole, false⟩⟩)] = true := by decide

theorem test_decode_special_1 : decodesTo
  [(0x400380004800050000000000, .rcp .only ⟨plainHdr, regDst .vec 9, regSrc .vec 5, .n (regSrc .vec 0) ⟨.none, 0, 0⟩ .rne⟩),
   (0x410380004800050000000000, .rsq .only ⟨plainHdr, regDst .vec 9, regSrc .vec 5, .n (regSrc .vec 0) ⟨.none, 0, 0⟩ .rne⟩),
   (0x420380004800050000000000, .exp2 .only ⟨plainHdr, regDst .vec 9, regSrc .vec 5, .n (regSrc .vec 0) ⟨.none, 0, 0⟩ .rne⟩),
   (0x430380004800050000000000, .log2 .only ⟨plainHdr, regDst .vec 9, regSrc .vec 5, .n (regSrc .vec 0) ⟨.none, 0, 0⟩ .rne⟩),
   (0x440380004800050000000000, .sinpi .only ⟨plainHdr, regDst .vec 9, regSrc .vec 5, .n (regSrc .vec 0) ⟨.none, 0, 0⟩ .rne⟩),
   (0x450380004800050000000000, .cospi .only ⟨plainHdr, regDst .vec 9, regSrc .vec 5, .n (regSrc .vec 0) ⟨.none, 0, 0⟩ .rne⟩),
   (0x460380004800050000000000, .tanh .only ⟨plainHdr, regDst .vec 9, regSrc .vec 5, .n (regSrc .vec 0) ⟨.none, 0, 0⟩ .rne⟩),
   (0x47F380004800050300000003, .cvt .f32i4 ⟨plainHdr, regDst .vec 9, regSrc .vec 5, .i 0x3⟩)] = true := by decide

theorem test_decode_special_2 : decodesTo
  [(0x472380004800050000000000, .cvt .s32f32 ⟨plainHdr, regDst .vec 9, regSrc .vec 5, .n (regSrc .vec 0) ⟨.none, 0, 0⟩ .rne⟩),
   (0x480380004800050000000000, .packq .q4x ⟨plainHdr, regDst .vec 9, regSrc .vec 5, .n (regSrc .vec 0) ⟨.none, 0, 0⟩ .rne⟩),
   (0x491380004800050300000002, .unpkq .i4 ⟨plainHdr, regDst .vec 9, regSrc .vec 5, .i 0x2⟩)] = true := by decide

theorem test_decode_lanes_1 : decodesTo
  [(0x503380004800050300000010, .shfl .xor ⟨plainHdr, regDst .vec 9, regSrc .vec 5, .i 0x10⟩),
   (0x513380204800050000000000, .vote .ballot ⟨plainHdr, regDst .scal 9, regSrc .vec 5, .n (regSrc .vec 0) ⟨.none, 0, 0⟩ .rne⟩),
   (0x52A380004800050000000000, .gred .fmax ⟨plainHdr, regDst .vec 9, regSrc .vec 5, .n (regSrc .vec 0) ⟨.none, 0, 0⟩ .rne⟩),
   (0x53C380004800050000000000, .gscan .fmin ⟨plainHdr, regDst .vec 9, regSrc .vec 5, .n (regSrc .vec 0) ⟨.none, 0, 0⟩ .rne⟩),
   (0x540380004800050101800000, .xshfl .only ⟨plainHdr, regDst .vec 9, regSrc .vec 5, .n (regSrc .scal 6) ⟨.none, 0, 0⟩ .rne⟩),
   (0x551380004800040101800000, .rng .f32 ⟨plainHdr, regDst .vec 9, regSrc .vec 4, .n (regSrc .scal 6) ⟨.none, 0, 0⟩ .rne⟩),
   (0x608380401800010000800000, .plop 8 ⟨plainHdr, regDst .pred 3, regSrc .vec 1, .n (regSrc .vec 2) ⟨.none, 0, 0⟩ .rne⟩),
   (0x610380004800000000000000, .p2v .pack ⟨plainHdr, regDst .vec 9, regSrc .vec 0, .n (regSrc .vec 0) ⟨.none, 0, 0⟩ .rne⟩)] = true := by decide

theorem test_decode_lanes_2 : decodesTo
  [(0x611380004804010000000000, .p2v .one ⟨plainHdr, regDst .vec 9, regSrc .scal 1, .n (regSrc .vec 0) ⟨.none, 0, 0⟩ .rne⟩),
   (0x620380400000050000000000, .v2p .unpack ⟨plainHdr, regDst .pred 0, regSrc .vec 5, .n (regSrc .vec 0) ⟨.none, 0, 0⟩ .rne⟩),
   (0x621380402000050000000000, .v2p .one ⟨plainHdr, regDst .pred 4, regSrc .vec 5, .n (regSrc .vec 0) ⟨.none, 0, 0⟩ .rne⟩),
   (0x632380600004050000000000, .setexm .andn ⟨plainHdr, regDst .spec 0, regSrc .scal 5, .n (regSrc .vec 0) ⟨.none, 0, 0⟩ .rne⟩)] = true := by decide

theorem test_decode_control_1 : decodesTo
  [(0x000380000000000000000000, .nop ⟨plainHdr, regDst .vec 0, regSrc .vec 0, noB, 0⟩),
   (0x010380000000000000000002, .ifi ⟨plainHdr, regDst .vec 0, regSrc .vec 0, noB, 2⟩),
   (0x020380000000000000000003, .elsei ⟨plainHdr, regDst .vec 0, regSrc .vec 0, noB, 3⟩),
   (0x030380000000000000000000, .endif ⟨plainHdr, regDst .vec 0, regSrc .vec 0, noB, 0⟩),
   (0x040380000000000000000009, .loop ⟨plainHdr, regDst .vec 0, regSrc .vec 0, noB, 9⟩),
   (0x05038000000000000000FFF8, .endloop ⟨plainHdr, regDst .vec 0, regSrc .vec 0, noB, 0xFFF8⟩),
   (0x060380000000000000000001, .breaki ⟨plainHdr, regDst .vec 0, regSrc .vec 0, noB, 1⟩),
   (0x070380000000000000000002, .cont ⟨plainHdr, regDst .vec 0, regSrc .vec 0, noB, 2⟩)] = true := by decide

theorem test_decode_control_2 : decodesTo
  [(0x082380000000000103C00004, .hloop 2 ⟨plainHdr, regDst .vec 0, regSrc .vec 0, .src (regSrc .scal 15), 4⟩),
   (0x091380045800180103C0001E, .hloopp 1 ⟨plainHdr, regDst .vec 139, regSrc .vec 24, .src (regSrc .scal 15), 30⟩),
   (0x0A3380000000000000000000, .hlexit 3 ⟨plainHdr, regDst .vec 0, regSrc .vec 0, noB, 0⟩),
   (0x0B038000000000000000FFFE, .jmp ⟨plainHdr, regDst .vec 0, regSrc .vec 0, noB, 0xFFFE⟩),
   (0x0C0380000004050000000001, .jmps ⟨plainHdr, regDst .vec 0, regSrc .scal 5, noB, 1⟩),
   (0x0D038020F000000000000007, .call ⟨plainHdr, regDst .scal 30, regSrc .vec 0, noB, 7⟩),
   (0x0E03800000041E0000000000, .ret ⟨plainHdr, regDst .vec 0, regSrc .scal 30, noB, 0⟩)] = true := by decide

theorem test_decode_memory_1 : decodesTo
  [(0x706380004000040300100041, .ld .b128 ⟨plainHdr, regDst .vec 8, regSrc .vec 4, .imm 16, ⟨.team, .plain, false, false, false, .normal, 65⟩⟩),
   (0x712380004804040001800080, .st .b16 ⟨plainHdr, regDst .vec 9, regSrc .scal 4, .src (regSrc .vec 6), ⟨.team, .plain, false, false, false, .evict, 0⟩⟩),
   (0x720380004800050000000000, .lds .u8 ⟨plainHdr, regDst .vec 9, regSrc .vec 5, noB, ⟨.team, .plain, false, false, false, .normal, 0⟩⟩),
   (0x735380004000050000000000, .sts .b64 ⟨plainHdr, regDst .vec 8, regSrc .vec 5, noB, ⟨.team, .plain, false, false, false, .normal, 0⟩⟩),
   (0x744380204804040300035A00, .ldu .b32 ⟨plainHdr, regDst .scal 9, regSrc .scal 4, .imm 3, ⟨.dom, .acq, true, false, true, .normal, 0⟩⟩),
   (0x75038020480404010180E800, .stu .b8 ⟨plainHdr, regDst .scal 9, regSrc .scal 4, .src (regSrc .scal 6), ⟨.sys, .rel, true, false, false, .normal, 0⟩⟩),
   (0x760380004800040001800000, .ldq .only ⟨plainHdr, regDst .vec 9, regSrc .vec 4, .src (regSrc .vec 6), ⟨.team, .plain, false, false, false, .normal, 0⟩⟩),
   (0x770380004800040000000000, .lddesc .only ⟨plainHdr, regDst .vec 9, regSrc .vec 4, noB, ⟨.team, .plain, false, false, false, .normal, 0⟩⟩)] = true := by decide

theorem test_decode_memory_2 : decodesTo
  [(0x780380000000040001800000, .stdesc .only ⟨plainHdr, regDst .vec 0, regSrc .vec 4, .src (regSrc .vec 6), ⟨.team, .plain, false, false, false, .normal, 0⟩⟩),
   (0x791380000000040000000000, .pref .l2 ⟨plainHdr, regDst .vec 0, regSrc .vec 4, noB, ⟨.team, .plain, false, false, false, .normal, 0⟩⟩),
   (0x7A1380000000040000000000, .cctl .inv ⟨plainHdr, regDst .vec 0, regSrc .vec 4, noB, ⟨.team, .plain, false, false, false, .normal, 0⟩⟩),
   (0x7A4380000000000000000000, .cctl .ipath ⟨plainHdr, regDst .vec 0, regSrc .vec 0, noB, ⟨.team, .plain, false, false, false, .normal, 0⟩⟩)] = true := by decide

theorem test_decode_atomics : decodesTo
  [(0x80C38000400004000180BC00, .atom .addU64 ⟨plainHdr, regDst .vec 8, regSrc .vec 4, .src (regSrc .vec 6), ⟨.wafer, .ar, true, true, false, .normal, 0⟩⟩),
   (0x810380004800040001804800, .atomcas .b32 ⟨plainHdr, regDst .vec 9, regSrc .vec 4, .src (regSrc .vec 6), ⟨.dom, .plain, true, false, false, .normal, 0⟩⟩),
   (0x827380000000040001800803, .red .xor ⟨plainHdr, regDst .vec 0, regSrc .vec 4, .src (regSrc .vec 6), ⟨.team, .plain, true, false, false, .normal, 3⟩⟩),
   (0x839380004800050001800800, .atoms .fadd ⟨plainHdr, regDst .vec 9, regSrc .vec 5, .src (regSrc .vec 6), ⟨.team, .plain, true, false, false, .normal, 0⟩⟩),
   (0x840380004800050001800800, .cass .only ⟨plainHdr, regDst .vec 9, regSrc .vec 5, .src (regSrc .vec 6), ⟨.team, .plain, true, false, false, .normal, 0⟩⟩)] = true := by decide

theorem test_decode_copies : decodesTo
  [(0x900380000004100000004000, .cpyin ⟨plainHdr, regDst .vec 0, regSrc .scal 16, noB, ⟨1, .team, false, .normal⟩⟩),
   (0x91038000000410000000AA00, .cpyout ⟨plainHdr, regDst .vec 0, regSrc .scal 16, noB, ⟨2, .wafer, true, .evict⟩⟩),
   (0x92038000000410000000C000, .cpygth ⟨plainHdr, regDst .vec 0, regSrc .scal 16, noB, ⟨3, .team, false, .normal⟩⟩),
   (0x930380000004100000000000, .cpyreg ⟨plainHdr, regDst .vec 0, regSrc .scal 16, noB, ⟨0, .team, false, .normal⟩⟩),
   (0x940380000004100000001000, .cpydsmTodsm ⟨plainHdr, regDst .vec 0, regSrc .scal 16, noB, ⟨0, .dom, false, .normal⟩⟩),
   (0x941380000004100000007000, .cpydsmFromdsm ⟨plainHdr, regDst .vec 0, regSrc .scal 16, noB, ⟨1, .sys, false, .normal⟩⟩),
   (0x950380000000000300038000, .cpywait ⟨plainHdr, regDst .vec 0, regSrc .vec 0, .imm 3, ⟨2, .team, false, .normal⟩⟩),
   (0x960380204800000000000000, .cpystat ⟨plainHdr, regDst .scal 9, regSrc .vec 0, noB, ⟨0, .team, false, .normal⟩⟩)] = true := by decide

theorem test_decode_matrix_1 : decodesTo
  [(0xA00380000000000000000000, .mchain ⟨plainHdr, regDst .vec 0, regSrc .vec 0, noB, ⟨0, 0, false⟩⟩),
   (0xA10380000000000000000000, .mcend ⟨plainHdr, regDst .vec 0, regSrc .vec 0, noB, ⟨0, 0, false⟩⟩),
   (0xA20380000004100000000000, .mldb ⟨plainHdr, regDst .vec 0, regSrc .scal 16, noB, ⟨0, 0, false⟩⟩),
   (0xA33380000004100000005000, .mma .q4f8 ⟨plainHdr, regDst .vec 0, regSrc .scal 16, noB, ⟨5, 0, false⟩⟩),
   (0xA4D380000004100000001280, .mmas ⟨.f16, .s48⟩ ⟨plainHdr, regDst .vec 0, regSrc .scal 16, noB, ⟨1, 2, true⟩⟩),
   (0xA50380000000000300023000, .mzero ⟨plainHdr, regDst .vec 0, regSrc .vec 0, .imm 2, ⟨3, 0, false⟩⟩),
   (0xA60380004800000101804000, .mrd ⟨plainHdr, regDst .vec 9, regSrc .vec 0, .src (regSrc .scal 6), ⟨4, 0, false⟩⟩),
   (0xA6A380000004100000004080, .mrdMem ⟨.f16, true⟩ ⟨plainHdr, regDst .vec 0, regSrc .scal 16, noB, ⟨4, 0, true⟩⟩)] = true := by decide

theorem test_decode_matrix_2 : decodesTo
  [(0xA70380204800000000000000, .mquire ⟨plainHdr, regDst .scal 9, regSrc .vec 0, noB, ⟨0, 0, false⟩⟩),
   (0xA80380000000000101800000, .mwait ⟨plainHdr, regDst .vec 0, regSrc .vec 0, .src (regSrc .scal 6), ⟨0, 0, false⟩⟩),
   (0xA90380000000000300072000, .maccAdd ⟨plainHdr, regDst .vec 0, regSrc .vec 0, .imm 7, ⟨2, 0, false⟩⟩),
   (0xA92380000004100000002000, .maccLd .ldadd ⟨plainHdr, regDst .vec 0, regSrc .scal 16, noB, ⟨2, 0, false⟩⟩)] = true := by decide

theorem test_decode_banks : decodesTo
  [(0xB0C380201804100000000000, .bupd ⟨.ffma, true⟩ ⟨plainHdr, regDst .scal 3, regSrc .scal 16, noB, ⟨.team, .plain⟩⟩),
   (0xB1538020180410000000A000, .bred .iminS ⟨plainHdr, regDst .scal 3, regSrc .scal 16, noB, ⟨.wafer, .rel⟩⟩),
   (0xB20380201804100000000000, .vtopk ⟨plainHdr, regDst .scal 3, regSrc .scal 16, noB, ⟨.team, .plain⟩⟩),
   (0xB30380201804100000004000, .vsmax ⟨plainHdr, regDst .scal 3, regSrc .scal 16, noB, ⟨.dom, .plain⟩⟩),
   (0xB4038020180410000000C000, .vsamp ⟨plainHdr, regDst .scal 3, regSrc .scal 16, noB, ⟨.sys, .plain⟩⟩),
   (0xB50380000000000100C05000, .bwait ⟨plainHdr, regDst .vec 0, regSrc .vec 0, .src (regSrc .scal 3), ⟨.dom, .acq⟩⟩)] = true := by decide

theorem test_decode_synchronisation : decodesTo
  [(0xC0F380000000000300003000, .bar 15 ⟨plainHdr, regDst .vec 0, regSrc .vec 0, .imm 0, ⟨.team, .ar, 0, 0⟩⟩),
   (0xC12380000000000101802000, .bararv 2 ⟨plainHdr, regDst .vec 0, regSrc .vec 0, .src (regSrc .scal 6), ⟨.team, .rel, 0, 0⟩⟩),
   (0xC22380000000000000001000, .barwt 2 ⟨plainHdr, regDst .vec 0, regSrc .vec 0, noB, ⟨.team, .acq, 0, 0⟩⟩),
   (0xC33380000000000300047000, .cbar 3 ⟨plainHdr, regDst .vec 0, regSrc .vec 0, .imm 4, ⟨.dom, .ar, 0, 0⟩⟩),
   (0xC40380000000000000009000, .fence ⟨plainHdr, regDst .vec 0, regSrc .vec 0, noB, ⟨.wafer, .acq, 0, 0⟩⟩),
   (0xC50380000000000000007810, .pfence ⟨plainHdr, regDst .vec 0, regSrc .vec 0, noB, ⟨.dom, .ar, 8, 1⟩⟩),
   (0xC60380201800000300100000, .tadv ⟨plainHdr, regDst .scal 3, regSrc .vec 0, .imm 16, ⟨.team, .plain, 0, 0⟩⟩)] = true := by decide

theorem test_decode_system : decodesTo
  [(0xD00080000000000000000000, .exit ⟨⟨⟨false, false, 1⟩, plainHdr.sch⟩, regDst .vec 0, regSrc .vec 0, noB, 0⟩),
   (0xD103800000000003007B0000, .trap ⟨plainHdr, regDst .vec 0, regSrc .vec 0, .imm 123, 0⟩),
   (0xD20380000000000000000000, .rte ⟨plainHdr, regDst .vec 0, regSrc .vec 0, noB, 0⟩),
   (0xD30380000000000000000000, .bkpt ⟨plainHdr, regDst .vec 0, regSrc .vec 0, noB, 0⟩),
   (0xD40380000000000000000000, .yieldi ⟨plainHdr, regDst .vec 0, regSrc .vec 0, noB, 0⟩),
   (0xD50380000000000101800000, .sleep ⟨plainHdr, regDst .vec 0, regSrc .vec 0, .src (regSrc .scal 6), 0⟩),
   (0xD6038020C000000000000000, .divst ⟨plainHdr, regDst .scal 24, regSrc .vec 0, noB, 0⟩),
   (0xD70380204000000300050000, .inflt ⟨plainHdr, regDst .scal 8, regSrc .vec 0, .imm 5, 0⟩)] = true := by decide

theorem test_decode_domain_control_1 : decodesTo
  [(0xE00380208004040000000000, .gsubGraph ⟨plainHdr, regDst .scal 16, regSrc .scal 4, noB, 0⟩),
   (0xE01380208004040000000000, .gsubNode ⟨plainHdr, regDst .scal 16, regSrc .scal 4, noB, 0⟩),
   (0xE10380204004040000000000, .evpop ⟨plainHdr, regDst .scal 8, regSrc .scal 4, noB, 0⟩),
   (0xE20380204004040300640000, .evwait ⟨plainHdr, regDst .scal 8, regSrc .scal 4, .imm 100, 0⟩),
   (0xE30380204804050000000000, .nrel ⟨plainHdr, regDst .scal 9, regSrc .scal 5, noB, 0⟩),
   (0xE40380204804100000000000, .folio ⟨plainHdr, regDst .scal 9, regSrc .scal 16, noB, 0⟩),
   (0xE5038020A004080000000000, .ctxsus ⟨plainHdr, regDst .scal 20, regSrc .scal 8, noB, 0⟩),
   (0xE6038020A004080000000000, .ctxres ⟨plainHdr, regDst .scal 20, regSrc .scal 8, noB, 0⟩)] = true := by decide

theorem test_decode_domain_control_2 : decodesTo
  [(0xE7038020A004080000000000, .budget ⟨plainHdr, regDst .scal 20, regSrc .scal 8, noB, 0⟩)] = true := by decide

/-! Witnesses: for each statement with hypotheses, a state and operands that meet them all, clause by clause. -/

/-- The state that withFetchWord makes of a word of zeros, its group, and another group in its place; the same on a DCC. -/
def s0 : State := State.reset.withFetchWord 96 0
def g0 : Group := fetchGroup 1 false
def withG (g : Group) : State := { s0 with groups := [(0, g)] }
def dccState : State := { State.reset.withFetchWord 96 0xE00000000000000000000000 with cur := 9217 }
theorem issues (g : Group) : (withG g).Issues 0 g := ⟨rfl, rfl⟩

/-- A guard that holds in no lane; operands in even pairs. -/
def off : Hdr := { plainHdr with guard := ⟨true, false, 7⟩ }
def alu8 : Alu := ⟨plainHdr, regDst .vec 8, v 4, .n (v 6) Perm.id .rne⟩
def one : Shape := { readsB := false, single := true }
theorem ready8 : g0.LaneReady alu8 {} := ⟨by decide, by decide⟩
theorem ready1 : g0.LaneReady alu8 one := ⟨by decide, by decide⟩
theorem readyA : g0.LaneReady alu8 { readsB := false } := ⟨by decide, by decide⟩

theorem witness_ClampInt : 0 < 1 ∧ 0 < 64 := by decide

theorem witness_OperandForms :
    let p : Perm := ⟨.bfly, 4, 31⟩
    31 < 32 ∧ permLane p 31 < 32 ∧ p.seg.toNat ≤ 4 ∧ p.dist.toNat < 2 ^ (p.seg.toNat + 1) := by decide

theorem witness_IntegerArithmetic :
    (withG g0).Issues 0 g0 ∧ g0.LaneReady alu8 {} ∧ g0.LaneReady alu8 { w := { d := true, a := true, b := true }, signed := true } ∧
      g0.LaneReady alu8 { w := { d := true, c := true } } :=
  ⟨issues _, ready8, ⟨by decide, by decide⟩, ⟨by decide, by decide⟩⟩

theorem witness_ShiftsAndBits :
    (withG g0).Issues 0 g0 ∧ g0.LaneReady alu8 {} ∧ g0.LaneReady { alu8 with x := .i 5 } one ∧
      ∀ w ∈ [0x180380004800050300000005, 0x220380004800050000000000], (decodeTableWord 96 w).isSome = true :=
  ⟨issues _, ready8, ⟨by decide, by decide⟩, by decide⟩

theorem witness_CompareSelectMove :
    (withG g0).Issues 0 g0 ∧ g0.LaneReady alu8 {} ∧ g0.LaneReady alu8 { w := { d := true, a := true } } ∧ g0.LaneReady alu8 one ∧
      g0.LaneReady alu8 (movlsShape .get (g0.runMask plainHdr)) ∧ g0.LaneReady alu8 { readsB := false } ∧
      ∀ w ∈ [0x26A380004800050001800000, 0x27B380004000040001800000, 0x2C03800048000500018000E0, 0x2D23800048000500018000E0],
        (decodeTableWord 96 w).isSome = true :=
  ⟨issues _, ready8, ⟨by decide, by decide⟩, ready1, ⟨by decide, by decide⟩, readyA, by decide⟩

/-- SETEXM of 15 and of 0, MOVRS to L0's stage register with LIVE, where END is below START. -/
theorem witness_SpecialRegisterWrites :
    let o : Alu := ⟨plainHdr, regDst .spec 0, Src.zero, .i 15⟩
    let none_ : Alu := { o with x := .i 0 }
    let stage : Alu := ⟨plainHdr, regDst .spec 0x35, Src.zero, .i 0x80000000⟩
    let g : Group := { g0 with loops := [{ start := 1 }, {}, {}, {}] }
    (withG g0).Issues 0 g0 ∧ g0.runMask o.hdr ≠ 0 ∧ g0.groupSourceBad o = false ∧ (withG g0).groupSource 0 g0 o ≠ 0 ∧ (withG g0).groupSource 0 g0 none_ = 0 ∧
      (withG g).Issues 0 g ∧ g.liveFault 0 ((withG g).groupSource 0 g stage) = true ∧ g0.liveFault 0 ((withG g0).groupSource 0 g0 stage) = false :=
  ⟨issues _, by decide, by decide, by decide, by decide, issues _, by decide, by decide⟩

theorem witness_FloatArithmetic : (withG g0).Issues 0 g0 ∧ g0.LaneReady alu8 {} ∧ g0.LaneReady alu8 one := ⟨issues _, ready8, ready1⟩

/-- Finite values, sums that are zero, infinities, NaN, packed halves, a quotient and a root. -/
theorem witness_FloatOperationsRoundOnce :
    f32Finite 0x3F800000 ∧ f32Finite 0x80000001 ∧ f32IsZero 0x80000000 ∧ f32Val 0x3F800000#32 + f32Val 0xBF800000#32 = 0 ∧ f32IsNan 0x7F800001 ∧
      f32IsInf 0xFF800000 ∧ (0x7F800000#32).msb ≠ (0xFF800000#32).msb ∧ f32Finite 0x3F800000 ∧ ¬f32IsZero 0x3F800000 ∧ 0 < f32Key 1 ∧ f32Key 0xFF800000 < 0 ∧
      (∀ i < 2, (0x7BFF8000#32).toNat / 65536 ^ i % 65536 / 2 ^ 10 % 2 ^ 5 ≠ 2 ^ 5 - 1) := by
  refine ⟨by decide, by decide, by decide, ?_, by decide, by decide, by decide, by decide, by decide, by decide, by decide, by decide⟩
  norm_num [f32Val, patVal]

/-- The least subnormal; 3/2 of it, which lies between two. -/
theorem witness_RoundsToNearest :
    (roundF fmtF32 .rne false false 1 (-149)).2 &&& flOvf = 0 ∧ (roundF fmtF32 .rne true false 3 (-150)).2 &&& flOvf = 0 ∧
      (roundF fmtF8E4 .rne false false 7 3).2 &&& flOvf = 0 ∧ (decodeF fmtF32 0x3F800000).isNan = false ∧ (decodeF fmtF32 0x3F800000).isInf = false :=
  ⟨by decide, by decide, by decide, by decide, by decide⟩

/-- A NaN, both infinities, both zeros, a power of two, another number, an integer, a half-integer, the ends of the ranges. -/
theorem witness_NansAndSpecialValues :
    f32IsNan (laneFadd .f32 .rne Dst.zero 0x7F800000 0xFF800000).1 ∧ f32IsNan 0xFFC00001 ∧ f32IsNan (reduce .fadd .rne [0x7F800000, 0xFF800000] [0, 1]).w ∧
      f32IsInf 0x7F800000 ∧ f32IsInf 0xFF800000 ∧ f32IsZero 0x80000000 ∧ f32Finite 0x7F7FFFFF ∧ f32Mag 0x7E800000 % 2 ^ 23 = 0 ∧ f32Mag 0x7E800000 / 2 ^ 23 = 253 ∧
      f32Key 0x80000001 < 0 ∧ f32Key 0x80000000 = 0 ∧ f32Val 0xC3150000#32 = -149 ∧ f32Val 0x43400000#32 = 192 ∧ f32Val 0xC3400001#32 < -192 ∧ f32Val 0xC0200000#32 = -3 + 1 / 2 ∧
      f32Val 0x41200000#32 = 10 := by
  refine ⟨by decide, by decide, by decide, by decide, by decide, by decide, by decide, by decide, by decide, by decide, by decide, ?_, ?_, ?_, ?_, ?_⟩ <;>
    norm_num [f32Val, patVal]

theorem witness_SpecialFunctions : (withG g0).Issues 0 g0 ∧ g0.LaneReady alu8 one := ⟨issues _, ready1⟩

theorem witness_Conversions : (withG g0).Issues 0 g0 ∧ g0.LaneReady alu8 {} ∧ g0.LaneReady alu8 one ∧ g0.LaneReady alu8 { readsB := false } :=
  ⟨issues _, ready8, ready1, readyA⟩

theorem witness_ExchangeWithinGroup :
    (withG g0).Issues 0 g0 ∧ g0.LaneReady alu8 {} ∧ g0.LaneReady alu8 { readsB := false } ∧ g0.LaneReady alu8 { w := { a := true, b := true } } :=
  ⟨issues _, ready8, readyA, ⟨by decide, by decide⟩⟩

theorem witness_PredicateMoves :
    (withG g0).Issues 0 g0 ∧ g0.LaneReady { alu8 with d := regDst .pred 2, a := v 1, x := .n (v 2) Perm.id .rne } { readsA := false, readsB := false } ∧
      g0.LaneReady { alu8 with d := regDst .pred 0 } { readsB := false } :=
  ⟨issues _, ⟨by decide, by decide⟩, ⟨by decide, by decide⟩⟩

/-- No lane runs; v1023, the last of the window, and v1024 outside it; a pair in the rotating region of a pipelined loop. -/
theorem witness_IdleLanesAndRegisterNames :
    let idle : Alu := { alu8 with hdr := off }
    let small : Group := { g0 with gsize := 6 }
    let pipe : Group := { g0 with loops := [{ live := true, pipe := true, base := 4, size := 8 }, {}, {}, {}] }
    (withG g0).Issues 0 g0 ∧ laneOperands (.iadd .s32 idle) = some idle ∧ g0.runMask idle.hdr = 0 ∧
      (withG small).Issues 0 small ∧ (Instr.iadd .s32 alu8).wf = true ∧ (issueForm (.iadd .s32 alu8)).isSome = true ∧ small.runMask alu8.hdr ≠ 0 ∧
      small.pairFault .vec 4 1 = false ∧ small.gsize ≤ small.rename 6 ∧
      (withG pipe).Issues 0 pipe ∧ (Instr.iadd .s64 alu8).wf = true ∧ pipe.pairFault .vec 4 2 = true :=
  ⟨issues _, by decide, by decide, issues _, by decide, by decide, by decide, by decide, by decide, issues _, by decide, by decide⟩

/-- A fixed result due now, of a vector register, a predicate, sr.flags and sr.exm. -/
def due (d : RegName) (m : LaneMask) : Result := ⟨3, 0, false, d, m, List.replicate 32 5, 2, 0, 0⟩
def landing (d : RegName) (m : LaneMask) : Group := { g0 with results := [due d m] }
theorem witness_FixedLanding :
    ∀ d ∈ [(RegName.vec 4, 0x80000001#32), (.scal 0, 1), (.pred 6, 0x80000001), (.spec 0x18, 1), (.spec 0, 1)],
      let g := landing d.1 d.2
      (withG g).group 0 = some g ∧ g.Sane ∧ due d.1 d.2 ∈ g.results ∧ (due d.1 d.2).landed = false ∧ (due d.1 d.2).due ≤ (withG g).cclk (gidCid 0) ∧
        (∀ x ∈ g.results, x.landed = false → x.due ≤ (withG g).cclk (gidCid 0) → x = due d.1 d.2) ∧ g.vres = [] ∧ g.preds.length = 7 ∧ g.underWay = false ∧
        lane (due d.1 d.2).vals 0 ≠ 0 := by
  unfold Group.Sane; decide

/-- XSHFL of slot 0 with slot 1 of its core: a malformed word, no partner, a partner that waits, a wait that has expired. -/
def xalu : Alu := ⟨plainHdr, regDst .vec 8, v 4, .n (sc 6) Perm.id .rne⟩
def partner (w : Word) : Group := { g0 with sregs := [(6, w)] }
def waiting (p : Nat) : Group := { g0 with park := .xshfl 65536 p 0x80000000 zeroLanes 8 0 plainHdr }
def xpair : State := { s0 with groups := [(0, partner 1), (1, waiting 0)] }
theorem witness_ExchangeBetweenGroups :
    let h := fun (w : Nat) => 64 * (145 * (w / 2 ^ 14 % 64) + w / 64 % 256) + w % 64
    xpair.Issues 0 (partner 1) ∧ xalu.x = .n (sc 6) Perm.id .rne ∧ (partner 1).runMask xalu.hdr ≠ 0 ∧
      (partner 1).nameFault ((aluUses xalu {} true true false).map (·.name) ++ dstUse xalu.d 1) = none ∧
      ((partner 1).readScal 0 6).toNat = 1 ∧ h 1 = 1 ∧ xpair.group 1 = some (waiting 0) ∧ xpair.asidOf (waiting 0) = xpair.asidOf (partner 1) ∧
      xpair.now ≤ 65536 ∧ (waiting 0).halted = false ∧ (0x80000000 : LaneMask) ≠ 0 ∧ plainHdr.sch.sw = false ∧
      h 0 = 0 ∧ ((partner 0x100000).readScal 0 6).toNat / 2 ^ 20 ≠ 0 ∧ ((partner 0x2400).readScal 0 6).toNat / 64 % 256 > 143 ∧ (withG (partner 1)).group 1 = none ∧
      (∃ x, ({ s0 with groups := [(0, partner 1), (1, waiting 2)] } : State).group 1 = some x ∧ ∀ last run2 vals2 dst2 key2 hdr2, x.park ≠ .xshfl last 0 run2 vals2 dst2 key2 hdr2) ∧
      ({ withG (waiting 1) with now := 65537 }).group 0 = some (waiting 1) ∧ (waiting 1).park = .xshfl 65536 1 0x80000000 zeroLanes 8 0 plainHdr :=
  ⟨⟨rfl, rfl⟩, rfl, by decide, by decide, by decide, by decide, rfl, by decide, by decide, rfl, by decide, rfl, by decide, by decide, by decide, by decide,
    ⟨_, rfl, by simp [waiting]⟩, rfl, rfl⟩
/-! Control flow, traps and the system instructions. -/

/-- Counters 0, 1 and 255 in lanes 0, 1 and 2, and in every lane. -/
def counted (c : Byte) : Group := { g0 with cnt := c :: 1 :: 255 :: List.replicate 29 0 }
def flat (c : Byte) : Group := { g0 with cnt := List.replicate 32 c }
def piped : Group := { g0 with loops := [{ live := true, pipe := true, size := 8, fin := 9 }, {}, {}, {}] }
theorem witness_Divergence :
    let o : Ctl := { ctl with q := 253 }
    (withG g0).Issues 0 g0 ∧ (withG (counted 0)).Issues 0 (counted 0) ∧ (counted 0).SomeLane (counted 0).cntOf (· = 255) ∧ ¬g0.SomeLane g0.cntOf (· = 255) ∧
      ({ ctl with hdr := off } : Ctl).hdr.guard = ⟨true, false, 7⟩ ∧ o.hdr.guard ≠ ⟨true, false, 7⟩ ∧ o.q.toNat ≤ 253 ∧ (254 : BitVec 16).toNat ≤ 254 ∧
      g0.SomeLane g0.cntOf (· = 0) ∧ ¬(flat 3).SomeLane (flat 3).cntOf (· = 0) ∧ (flat 254).SomeLane (flat 254).cntOf (254 ≤ ·) ∧
      (withG piped).Issues 0 piped ∧ piped.innerLoop = some 0 ∧ (piped.loop 0).pipe = true ∧ piped.SomeLane piped.cntOf (· = 0) := by
  refine ⟨issues _, issues _, ⟨2, by decide⟩, ?_, rfl, by decide, by decide, by decide, ⟨0, by decide⟩, ?_, ⟨0, by decide⟩, issues _, by decide, by decide, ⟨0, by decide⟩⟩ <;>
    · unfold Group.SomeLane; decide +revert

/-- s4:s5 a word address of 48 bits, one above 2^48, one not a multiple of 4. -/
def linked (lo hi : Word) : Group := { g0 with sregs := [(4, lo), (5, hi)] }
theorem witness_Jumps :
    let o : Ctl := { ctl with d := regDst .scal 30, a := sc 4 }
    (withG g0).Issues 0 g0 ∧ g0.runMask off = 0 ∧ g0.runMask o.hdr ≠ 0 ∧ g0.useFault [srcUse o.a 0 1 Perm.id] [] = none ∧ g0.useFault [] (dstUse o.d 2) = none ∧
      g0.useFault [srcUse o.a 0 2 Perm.id] [] = none ∧ (counted 0).SomeLane (counted 0).cntOf (· ≠ 0) ∧ ¬g0.SomeLane g0.cntOf (· ≠ 0) ∧
      ((linked 0xFFFFFFFC 0xFFFF).readPair 0 4).toNat < 2 ^ 48 ∧ ((linked 0xFFFFFFFC 0xFFFF).readPair 0 4).toNat % 4 = 0 ∧
      2 ^ 48 ≤ ((linked 0 0x10000).readPair 0 4).toNat ∧ ((linked 2 0).readPair 0 4).toNat % 4 ≠ 0 := by
  refine ⟨issues _, by decide, by decide, by decide, by decide, by decide, ⟨1, by decide⟩, ?_, by decide, by decide, by decide, by decide⟩
  unfold Group.SomeLane; decide

/-- HLOOP L0 with a depth of 4 and its end two words on: fresh, already live, of no trips, at counters of 254; HLEXIT of a live loop. -/
def trips (n : Word) : Group := { g0 with sregs := [(4, n)] }
theorem witness_HardwareLoops :
    let o : Ctl := { ctl with b := .src (sc 4), q := 2 }
    let oo : Ctl := { o with d := regDst .vec 139, a := v 24 }
    (withG (trips 4)).Issues 0 (trips 4) ∧ (trips 4).loops.length = 4 ∧ (Instr.hloop 0 o).wf = true ∧ (Instr.hloopp 0 oo).wf = true ∧ o.hdr.guard ≠ ⟨true, false, 7⟩ ∧ ({ o with hdr := off } : Ctl).hdr.guard = ⟨true, false, 7⟩ ∧
      (trips 4).useFault (bopUse o.b 1) [] = none ∧ ((trips 4).bopWord 0 o.b).toNat = 4 ∧ (∀ j, j < 4 → ((trips 4).loop j).live = false) ∧ 0 < o.q.toInt ∧
      (onward (trips 4).pc o.q.toInt).toNat / 2 ^ 34 = (trips 4).pc.toNat / 2 ^ 34 ∧ (trips 4).innerLoop = none ∧ ((trips 0).bopWord 0 o.b).toNat = 0 ∧
      (trips 4).SomeLane (trips 4).cntOf (· = 0) ∧ (counted 0).SomeLane (counted 0).cntOf (254 ≤ ·) ∧ (piped.loop 0).live = true ∧ piped.loops.length = 4 ∧
      g0.runMask off = 0 ∧ g0.runMask o.hdr ≠ 0 ∧ (g0.loop 0).live = false :=
  ⟨issues _, rfl, by decide, by decide, by decide, rfl, by decide, by decide, by decide, by decide, by decide, by decide, by decide, ⟨0, by decide⟩, ⟨2, by decide⟩, by decide,
    by decide, by decide, by decide, by decide⟩

/-- L0 live with its end at the pc, 0x10000: two passes left, and one. -/
def ending (n : Word) : Group := { g0 with loops := [{ live := true, fin := 0x4000, count := n, size := 1 }, {}, {}, {}] }
theorem witness_BackEdge :
    (ending 2).loops.length = 4 ∧ (ending 2).innerLoop = some 0 ∧ ((ending 2).loop 0).fin = BitVec.ofNat 32 ((ending 2).pc.toNat / 4) ∧
      ((ending 2).loop 0).hi = BitVec.ofNat 14 ((ending 2).pc.toNat / 2 ^ 34) ∧ (ending 1).innerLoop = some 0 ∧
      ((ending 1).loop 0).fin = BitVec.ofNat 32 ((ending 1).pc.toNat / 4) ∧ ∀ j, j < 4 → j ≠ 0 → ((ending 1).loop j).live = false :=
  ⟨by decide, by decide, by decide, by decide, by decide, by decide, by decide⟩

theorem witness_BackEdge_issues :
    (withG (ending 2)).Issues 0 (ending 2) ∧ 1 < ((ending 2).loop 0).count.toNat ∧ (ending 2).SomeLane (fun l => if (ending 2).exm.getLsbD l = true ∧ (ending 2).cntOf l = 1 then 0 else (ending 2).cntOf l) (· = 0) ∧
      ¬1 < ((ending 1).loop 0).count.toNat ∧ (withG (ending 1)).Issues 0 (ending 1) :=
  ⟨issues _, by decide, ⟨0, by decide⟩, by decide, issues _⟩

/-- The lane instruction and the memory instruction there. -/
theorem witness_BackEdge_lanes : (ending 2).LaneReady alu8 {} := ⟨by decide, by decide⟩

/-- L0 inside L1, both ending at the pc: L0 in its last pass, L1 with n passes left. -/
def endingTwo (n : Word) : Group :=
  { g0 with loops := [{ live := true, fin := 0x4000, count := 1, size := 1, level := 1 }, { live := true, fin := 0x4000, count := n, size := 1 }, {}, {}] }
theorem witness_BackEdge_two :
    (withG (endingTwo 2)).Issues 0 (endingTwo 2) ∧ (endingTwo 2).innerLoop = some 0 ∧ ((endingTwo 2).loop 0).count.toNat = 1 ∧
      ({ endingTwo 2 with loops := (endingTwo 2).loops.set 0 { (endingTwo 2).loop 0 with live := false, level := 0 } } : Group).innerLoop = some 1 ∧
      ((endingTwo 2).loop 1).fin = ((endingTwo 2).loop 0).fin ∧ ((endingTwo 2).loop 1).hi = ((endingTwo 2).loop 0).hi ∧ 1 < ((endingTwo 2).loop 1).count.toNat ∧
      ¬1 < ((endingTwo 1).loop 1).count.toNat ∧ ∀ n, n < 4 → n ≠ 0 → n ≠ 1 → ((endingTwo 2).loop n).live = false :=
  ⟨issues _, by decide, by decide, by decide, by decide, by decide, by decide, by decide, by decide⟩

theorem witness_TrapInstructions :
    (withG g0).Issues 0 g0 ∧ g0.runMask off = 0 ∧ g0.runMask ctl.hdr ≠ 0 ∧ g0.useFault (bopUse (.imm 5) 1) [] = none ∧ 0xFF < 256 :=
  ⟨issues _, by decide, by decide, by decide, by decide⟩

/-- A save area in the team's scratchpad, mapped at sr.tsa: the handler at 0x30000, and a record with lane 0 present that resumes at 0. -/
def saveState (level : Bool) : State :=
  let page : TlbEnt := ⟨1, 0x20, 1, 2 ^ 47 + 2 ^ 44, true, false, false⟩
  { withG { g0 with level := level } with
    cores := [(0, { freshCore with tlb := [fetchPage, page] })], teams := [(1, { fetchTeam 0 0 with spad := [(2, 3), (0x14, 1)] })] }
theorem witness_TrapEntry :
    let s := saveState false
    let g : Group := { g0 with level := false }
    s.group 0 = some g ∧ (saveState true).group 0 = some { g0 with level := true } ∧ s.faulting 0 (s.asidOf g) (pageOf g.tsa.toNat) = false ∧
      s.translate 0 (s.asidOf g) (pageOf g.tsa.toNat) .write g.priv = (s, .ok (2 ^ 47 + 2 ^ 44) true false false) ∧
      s.areaCheck g 0 (s.asidOf g) (2 ^ 47 + 2 ^ 44) .write = none ∧ s.saveBusy 0 (2 ^ 47 + 2 ^ 44) = false ∧
      s.coreRead 0 (2 ^ 47 + 2 ^ 44) 8 = (s, leBytes 8 0x30000) ∧ leVal (leBytes 8 0x30000) ≠ 0 :=
  ⟨rfl, rfl, by decide, rfl, by decide, by decide, by rfl, by decide⟩

theorem witness_ReturnFromTrap :
    let s := saveState true
    let g : Group := { g0 with level := true }
    let at' := fun (o n : Nat) => leVal (slice (s.coreRead 0 (2 ^ 47 + 2 ^ 44 + 8) 0xC8).2 (o - 8) n)
    s.Issues 0 g ∧ g.runMask ctl.hdr ≠ 0 ∧ g.runMask off = 0 ∧ s.faulting 0 (s.asidOf g) (pageOf g.tsa.toNat) = false ∧
      s.translate 0 (s.asidOf g) (pageOf g.tsa.toNat) .read g.priv = (s, .ok (2 ^ 47 + 2 ^ 44) true false false) ∧
      s.areaCheck g 0 (s.asidOf g) (2 ^ 47 + 2 ^ 44) .read = none ∧ s.saveBusy 0 (2 ^ 47 + 2 ^ 44) = false ∧
      at' 0x14 4 ≠ 0 ∧ at' 0x08 8 % 4 = 0 ∧ at' 0x08 8 < 2 ^ 48 ∧ g0.level = false ∧ (withG g0).Issues 0 g0 ∧
      g.preds.length = 7 ∧ g.cnt.length = 32 ∧ (∀ k, k < 4 → (g.loop k).level < 4) ∧ (piped.loop 0).live = true :=
  ⟨⟨rfl, rfl⟩, by decide, by decide, by decide, rfl, by decide, by decide, by decide, by decide, by decide, rfl, issues _, rfl, rfl, by decide, rfl⟩

/-- Lane 0 and lane 31: the guard p0 takes one of them, or both. -/
def leaving (p : LaneMask) : Group := { g0 with exm := 0x80000001, preds := p :: List.replicate 6 0 }
theorem witness_Exit :
    let o : Ctl := { ctl with hdr := { plainHdr with guard := ⟨false, false, 0⟩ } }
    (withG (leaving 1)).Issues 0 (leaving 1) ∧ (leaving 0).runMask o.hdr = 0 ∧ (leaving 1).runMask o.hdr ≠ 0 ∧ (leaving 1).exm &&& ~~~(leaving 1).runMask o.hdr ≠ 0 ∧
      (leaving 0x80000001).runMask o.hdr ≠ 0 ∧ (leaving 0x80000001).exm &&& ~~~(leaving 0x80000001).runMask o.hdr = 0 ∧
      (withG (leaving 0x80000001)).team 1 = some (fetchTeam 0 0) ∧ (fetchTeam 0 0).bars.length = 16 :=
  ⟨issues _, by decide, by decide, by decide, by decide, by decide, rfl, rfl⟩

theorem witness_YieldAndSleep :
    let y : Group := { g0 with sched := { g0.sched with yieldAt := some 9 } }
    let z : Group := { g0 with park := .sleep 0 1 }
    (withG g0).Issues 0 g0 ∧ g0.park = .running ∧ g0.runMask off = 0 ∧ g0.runMask ctl.hdr ≠ 0 ∧ g0.useFault (bopUse (.imm 0) 1) [] = none ∧ ctl.hdr.sch.sw = false ∧
      { withG y with now := 9 }.group 0 = some y ∧ y.sched.yieldAt = some 9 ∧ 9 ≤ { withG y with now := 9 }.cclk (gidCid 0) ∧
      { withG z with now := 2 }.group 0 = some z ∧ z.park = .sleep 0 1 ∧ z.halted = false ∧ 0 + 1 < { withG z with now := 2 }.cclk (gidCid 0) :=
  ⟨issues _, rfl, by decide, by decide, by decide, rfl, rfl, rfl, by decide, rfl, rfl, rfl, by decide⟩

/-- INFLT of entry 63, held by the context and by another, empty, and of entry 64; DIVST. -/
theorem witness_Reports :
    let o : Ctl := { ctl with d := regDst .scal 24, b := .imm 63 }
    let held := fun (a : Nat) => ({ withG g0 with cores := [(0, { freshCore with inflt := List.replicate 63 none ++ [some (Infl.mk 1 a 4 0 0 0 0 1 1 1)] })] } : State)
    (withG g0).Issues 0 g0 ∧ g0.runMask o.hdr ≠ 0 ∧ g0.runMask off = 0 ∧ g0.useFault [] (dstUse o.d 4) = none ∧ ((withG g0).team g0.team).isSome = true ∧
      g0.useFault (bopUse o.b 1) (dstUse o.d 4) = none ∧ (g0.bopWord 0 o.b).toNat < 64 ∧ 64 ≤ (g0.bopWord 0 (.imm 64)).toNat ∧
      (((held 1).core 0).inflt.getD 63 none).map (·.asid) = some ((held 1).asidOf g0) ∧ (((held 2).core 0).inflt.getD 63 none).map (·.asid) ≠ some ((held 2).asidOf g0) ∧
      ((withG g0).core 0).inflt.getD 63 none = none :=
  ⟨issues _, by decide, by decide, by decide, by decide, by decide, by decide, by decide, by decide, by decide, by decide⟩
/-! Memory instructions. -/

/-- Pages of context 1: 0x10 DRAM, 0x11 the DSM of domain 0, 0x12 the context's own register block, 0x20 the scratchpad. Lines 1024 and 1025, at 0x10000, stand in L1. -/
def pages : List TlbEnt :=
  [fetchPage, ⟨1, 0x11, 1, 2 ^ 47, true, false, false⟩, ⟨1, 0x12, 1, 2 ^ 47 + 2 * 2 ^ 44 + 0x10001000, true, false, false⟩, ⟨1, 0x20, 1, 2 ^ 47 + 2 ^ 44, true, false, false⟩]
def l1line : L1Line := ⟨zeroLine, 0xFFFF, 0, Config.freshDesc, true, 0, 10, .normal, 1, 0⟩
/-- v6 is 4 times the lane number, v7 the same, s4:s5 an address. -/
def quads : Lanes := (List.range 32).map fun l => wordOf (4 * l)
def memG (va : Word) : Group := { g0 with sregs := [(4, va)], vregs := [(6, quads), (8, quads)] }
def memS (va : Word) : State := { withG (memG va) with cores := [(0, { freshCore with tlb := pages, l1 := [(1024, l1line), (1025, l1line)] })], doms := [(0, { freshDom 0 with dsmsize := 1, dsmcfg := 1 })] }
theorem memIssues (va : Word) : (memS va).Issues 0 (memG va) := ⟨rfl, rfl⟩
/-- A at s4, offsets in v6. -/
def memo : Mem := { mem with d := regDst .vec 8, a := sc 4, b := .src (v 6) }

theorem access_ready {s : State} {g : Group} {h : Hdr} {us : List Use} {d : List (SFile × Nat × Nat)} {p : MemPlan} {ea pa : Nat → Nat} (frame : Nat) (w nx pr : Bool)
    (h1 : g.acc = none) (h2 : g.memRun h ≠ 0) (h3 : g.useFault us d = none)
    (h4 : ∀ l, l < 32 → ea l % p.size = 0 ∧ ea l < 2 ^ 48 ∧ s.tlbHit 0 (s.asidOf g) (pageOf (ea l)) p.kind g.priv = some (.ok frame w nx pr) ∧
      pa l = frame + ea l % 4096 ∧ s.targetCheck g 0 (s.asidOf g) (pa l) p.size p.kind p.lineOp p.hostOk = none) :
    s.AccessReady 0 g h us d p ea pa :=
  ⟨h1, h2, h3, fun l hl _ => ⟨(h4 l hl).1, (h4 l hl).2.1, ⟨frame, w, nx, pr, (h4 l hl).2.2.1, (h4 l hl).2.2.2.1⟩, (h4 l hl).2.2.2.2⟩⟩

theorem witness_LoadedValue :
    poisoned (0xFF00 : LineDesc) = true ∧ poisoned (0x7F00 : LineDesc) = false ∧ (descFmt 0x7F00).count ≤ (64 : Word).toNat ∧ (0 : Word).toNat < (descFmt 0x7F00).count := by decide

/-- LD of 32 words at 0x10000, which L1 serves; of 32 words of the scratchpad, at 0x20000. -/
theorem witness_Loads :
    let p : MemPlan := ⟨false, 4, .read, false, true, true, false, [], [], []⟩
    let us := srcUse memo.a 0 2 Perm.id :: bopUse memo.b 1
    let ea := fun (va : Word) (l : Nat) => (memG va).ea64 0 memo.a memo.q 4 ((memG va).laneOffset 0 memo.b l) false l
    (memG 0x10000).loadOf 0 (.ld .b32 memo) = some (memo, p, 1, ea 0x10000, fun _ => .data .b32) ∧ (memS 0x10000).Issues 0 (memG 0x10000) ∧
      (memS 0x10000).AccessReady 0 (memG 0x10000) memo.hdr us (dstUse memo.d 1) p (ea 0x10000) (fun l => 0x10000 + 4 * l) ∧
      isMemory 0x1007C = true ∧ l1May 0 (0x1007C / 64) memo.q = true ∧
      (∀ l, l < 32 → ((memS 0x10000).l1Lane 0 ⟨l, 0x10000 + 4 * l, .data .b32⟩).isSome = true) ∧
      (memS 0x20000).Issues 0 (memG 0x20000) ∧
      (memS 0x20000).AccessReady 0 (memG 0x20000) memo.hdr us (dstUse memo.d 1) p (ea 0x20000) (fun l => 2 ^ 47 + 2 ^ 44 + 4 * l) ∧
      targetOf (2 ^ 47 + 2 ^ 44 + 124) = .core 124 ∧ (memS 0x20000).NoCopies 1 ∧ (memS 0x20000).team 1 = some (fetchTeam 0 0) :=
  ⟨rfl, memIssues _, access_ready 0x10000 true false false rfl (by decide) (by decide) (by decide), by decide, by decide, by decide, memIssues _,
    access_ready (2 ^ 47 + 2 ^ 44) true false false rfl (by decide) (by decide) (by decide), by decide, (fun w h => absurd h (List.not_mem_nil)), rfl⟩

/-- ST of 32 words at 0x10000, weak and strong, of one word of a register block at 0x12000, and of 32 words of the scratchpad. -/
theorem witness_Stores :
    let p : MemPlan := ⟨false, 4, .write, false, true, false, false, [], [], []⟩
    let us := srcUse memo.a 0 2 Perm.id :: bopUse memo.b 1
    let ea := fun (va : Word) (l : Nat) => (memG va).ea64 0 memo.a memo.q 4 ((memG va).laneOffset 0 memo.b l) false l
    (memG 0x10000).storeOf 0 (.st .b32 memo) = some (memo, p, 1, ea 0x10000) ∧ (memS 0x10000).Issues 0 (memG 0x10000) ∧
      Canon 0 (fetchTeam 0 0).spad ∧ (memS 0x10000).team 1 = some (fetchTeam 0 0) ∧
      (memS 0x10000).AccessReady 0 (memG 0x10000) memo.hdr us (dstUse memo.d 1) p (ea 0x10000) (fun l => 0x10000 + 4 * l) ∧
      (l1May 0 1025 memo.q = true ∧ memo.q.str = false) ∧ ({ memo.q with str := true } : MemQ).str = true ∧ (memS 0x10000).atomicPending 0 1025 = false ∧
      ((memS 0x10000).l1 0 1025).map (·.data.length) = some 64 ∧
      (memS 0x20000).AccessReady 0 (memG 0x20000) memo.hdr us (dstUse memo.d 1) p (ea 0x20000) (fun l => 2 ^ 47 + 2 ^ 44 + 4 * l) ∧
      (memS 0x12048).AccessReady 0 (memG 0x12048) memo.hdr us (dstUse memo.d 1) p (ea 0x12048) (fun l => 2 ^ 47 + 2 * 2 ^ 44 + 0x10001048 + 4 * l) ∧
      targetOf (2 ^ 47 + 2 * 2 ^ 44 + 0x10001048) = .mmio 0x10001048 :=
  ⟨rfl, memIssues _, by decide, rfl, access_ready 0x10000 true false false rfl (by decide) (by decide) (by decide), by decide, rfl, by decide, by decide,
    access_ready (2 ^ 47 + 2 ^ 44) true false false rfl (by decide) (by decide) (by decide),
    access_ready (2 ^ 47 + 2 * 2 ^ 44 + 0x10001000) true false false rfl (by decide) (by decide) (by decide), by decide⟩

/-- STDESC of one line in every lane: of DSM at 0x11000 and of the scratchpad. -/
theorem witness_StoreDescriptor :
    let p : MemPlan := ⟨false, 64, .write, true, true, false, false, [], [], []⟩
    let us := srcUse memo.a 0 2 Perm.id :: bopUse memo.b 1
    let ea := fun (va : Word) (l : Nat) => (memG va).ea64 0 memo.a memo.q 64 0 true l
    (memS 0x11000).Issues 0 (memG 0x11000) ∧ Canon Config.freshDesc (fetchTeam 0 0).spDesc ∧
      (memS 0x11000).AccessReady 0 (memG 0x11000) memo.hdr us [] p (ea 0x11000) (fun _ => 2 ^ 47) ∧ targetOf (2 ^ 47) = .dsm 0 0 ∧
      (memS 0x20FC0).AccessReady 0 (memG 0x20FC0) memo.hdr us [] p (ea 0x20FC0) (fun _ => 2 ^ 47 + 2 ^ 44 + 0xFC0) ∧ targetOf (2 ^ 47 + 2 ^ 44 + 0xFC0) = .core 0xFC0 :=
  ⟨memIssues _, by decide, access_ready (2 ^ 47) true false false rfl (by decide) (by decide) (by decide), by decide,
    access_ready (2 ^ 47 + 2 ^ 44) true false false rfl (by decide) (by decide) (by decide), by decide⟩

/-- A watchpoint on the first byte of line 1024: STU of one byte there changes it, and STDESC of that line its descriptor. -/
theorem witness_Stores_watched :
    let w : Watch := { armed := true, asid := 1, line := 1024, live := BitVec.ofNat 128 (2 ^ 64 + 0x10000) }
    let s : State := { memS 0x10000 with cores := [(0, { freshCore with tlb := pages, l1 := [(1024, l1line)], watch := w :: List.replicate 3 {} })] }
    let g : Group := memG 0x10000
    s.Issues 0 g ∧ w ∈ (s.core 0).watch ∧ w.asid = s.asidOf g ∧ 1024 < w.line + watchLines w ∧ watchMask w 0 = true ∧
      (s.seenLine 0 1024).getD 0 0 ≠ ({ g with vregs := [(8, [5])] } : Group).dataByte 0 memo 1 0 0 ∧ s.seenDesc 0 1024 = Config.freshDesc ∧ lineIsFar 1024 = false :=
  ⟨⟨rfl, rfl⟩, by decide, by decide, by decide, by decide, by decide, by decide, by decide⟩

theorem witness_Atomics :
    let p : MemPlan := ⟨false, 4, .atomic, false, hostAtom .addU32, true, false, [], [], []⟩
    let us := srcUse memo.a 0 2 Perm.id :: bopUse memo.b 1
    let ea := fun (va : Word) (l : Nat) => (memG va).ea64 0 memo.a memo.q (4 * 1) 0 false l
    atomOf (.atom .addU32 memo) = some (memo, p, .op .addU32, true, 1) ∧ (memS 0x11000).Issues 0 (memG 0x11000) ∧
      (memS 0x11000).AccessReady 0 (memG 0x11000) memo.hdr us (dstUse memo.d 1) p (ea 0x11000) (fun _ => 2 ^ 47) :=
  ⟨rfl, memIssues _, access_ready (2 ^ 47) true false false rfl (by decide) (by decide) (by decide)⟩

/-- The scratchpad's last 32 words. -/
theorem scratch_ready (us : List Use) (d : List (SFile × Nat × Nat)) (h : (memG 3968).useFault us d = none) :
    (memS 3968).ScratchReady 0 (memG 3968) (fetchTeam 0 0) memo us d 4 (fun l => (memG 3968).ea32 0 memo.a memo.q 4 ((memG 3968).laneOffset 0 memo.b l) l) :=
  ⟨rfl, fun _ hw => absurd hw List.not_mem_nil, by decide, rfl, fun hr => absurd hr (by decide), by decide, h,
    fun l hl _ => (by decide : ∀ l, l < 32 → (memG 3968).ea32 0 memo.a memo.q 4 ((memG 3968).laneOffset 0 memo.b l) l % 4 = 0 ∧
      (memG 3968).ea32 0 memo.a memo.q 4 ((memG 3968).laneOffset 0 memo.b l) l + 4 ≤ 4096) l hl⟩

theorem witness_Scratchpad :
    let us := srcUse memo.a 0 1 Perm.id :: bopUse memo.b 1
    (memS 3968).Issues 0 (memG 3968) ∧
      (memS 3968).ScratchReady 0 (memG 3968) (fetchTeam 0 0) memo us (dstUse memo.d 1) 4 (fun l => (memG 3968).ea32 0 memo.a memo.q 4 ((memG 3968).laneOffset 0 memo.b l) l) :=
  ⟨memIssues _, scratch_ready _ _ (by decide)⟩

/-- A release in a group one of whose loads is outstanding. -/
theorem witness_Scratchpad_waits :
    let o : Mem := { memo with q := { memq with str := true, ord := .rel } }
    let g : Group := { memG 3968 with vres := [loadRes 1 0 0 9 true ⟨[.vec 8], fun _ => .data .b32, 4, memq, 0, 1⟩ 1 0] }
    let s : State := { memS 3968 with groups := [(0, g)] }
    s.Issues 0 g ∧ g.acc = none ∧ g.memRun o.hdr ≠ 0 ∧ g.useFault (srcUse o.a 0 1 Perm.id :: bopUse o.b 1) (dstUse o.d 1) = none ∧ memReleases o.q = true ∧
      s.team 1 = some (fetchTeam 0 0) ∧ (∀ l, l < 32 → g.ea32 0 o.a o.q 4 (g.laneOffset 0 o.b l) l % 4 = 0 ∧ g.ea32 0 o.a o.q 4 (g.laneOffset 0 o.b l) l + 4 ≤ 4096) ∧
      s.readsDone 0 none = false :=
  ⟨⟨rfl, rfl⟩, rfl, by decide, by decide, by decide, rfl, by decide, by decide⟩

/-- LDS at the end of a live loop. -/
theorem witness_BackEdge_memory :
    let g : Group := { memG 3968 with loops := (ending 2).loops }
    let s : State := { memS 3968 with groups := [(0, g)] }
    s.Issues 0 g ∧ g.innerLoop = some 0 ∧ LdSz.b32.regs = 1 ∧ ldBytes .b32 = 4 ∧
      s.ScratchReady 0 g (fetchTeam 0 0) memo (srcUse memo.a 0 1 Perm.id :: bopUse memo.b 1) (dstUse memo.d 1) 4
        (fun l => g.ea32 0 memo.a memo.q 4 (g.laneOffset 0 memo.b l) l) :=
  ⟨⟨rfl, rfl⟩, by decide, rfl, rfl, rfl, fun _ hw => absurd hw List.not_mem_nil, by decide, rfl, fun hr => absurd hr (by decide), by decide, by decide,
    fun l hl _ => (by decide : ∀ l, l < 32 → ({ memG 3968 with loops := (ending 2).loops } : Group).ea32 0 memo.a memo.q 4
      (({ memG 3968 with loops := (ending 2).loops } : Group).laneOffset 0 memo.b l) l % 4 = 0 ∧
      ({ memG 3968 with loops := (ending 2).loops } : Group).ea32 0 memo.a memo.q 4 (({ memG 3968 with loops := (ending 2).loops } : Group).laneOffset 0 memo.b l) l + 4 ≤ 4096) l hl⟩

/-- All lanes on the last word of the scratchpad. -/
theorem witness_ScratchpadAtomics :
    let us := srcUse memo.a 0 1 Perm.id :: bopUse memo.b 1
    AtomOp.addU32.regs = 1 ∧ (memS 4092).Issues 0 (memG 4092) ∧
      (memS 4092).ScratchReady 0 (memG 4092) (fetchTeam 0 0) memo us (dstUse memo.d 1) 4 (fun l => (memG 4092).ea32 0 memo.a memo.q 4 0 l) :=
  ⟨rfl, memIssues _, rfl, fun _ hw => absurd hw List.not_mem_nil, by decide, rfl, fun hr => absurd hr (by decide), by decide, by decide,
    fun l hl _ => (by decide : ∀ l, l < 32 → (memG 4092).ea32 0 memo.a memo.q 4 0 l % 4 = 0 ∧ (memG 4092).ea32 0 memo.a memo.q 4 0 l + 4 ≤ 4096) l hl⟩

theorem witness_PrefetchAndCacheControl :
    let p : MemPlan := ⟨false, 64, .read, true, true, false, false, [], [], []⟩
    let us := srcUse memo.a 0 2 Perm.id :: bopUse memo.b 1
    (memS 0x10000).Issues 0 (memG 0x10000) ∧ (memG 0x10000).runMask memo.hdr ≠ 0 ∧ (memG 0x10000).useFault us [] = none ∧
      (memS 0x10000).AccessReady 0 (memG 0x10000) memo.hdr us [] p (fun l => (memG 0x10000).ea64 0 memo.a memo.q 64 ((memG 0x10000).laneOffset 0 memo.b l) true l)
        (fun l => 0x10000 + l / 16 * 64) ∧
      ((memS 0x10000).core 0).l1.Pairwise fun x y => x.1 < y.1 :=
  ⟨memIssues _, by decide, by decide, access_ready 0x10000 true false false rfl (by decide) (by decide) (by decide), by decide⟩

/-- PREF of pages that the core TLB holds, of one that it does not hold, and one whose walks have ended. -/
theorem witness_PrefetchAndCacheControl_pages :
    let ea := fun (va : Word) (l : Nat) => (memG va).ea64 0 memo.a memo.q 64 ((memG va).laneOffset 0 memo.b l) true l
    let g : Group := { memG 0x30000 with acc := some ⟨1, [0x30000], [], [(0x30, .absent)], [], false, 0, [], none, none, []⟩ }
    (memG 0x10000).acc = none ∧ (memG 0x10000).memRun memo.hdr ≠ 0 ∧ (memG 0x10000).memRun off = 0 ∧
      (∀ l, l < 32 → ((memS 0x10000).tlbHit 0 ((memS 0x10000).asidOf (memG 0x10000)) (pageOf (ea 0x10000 l)) .read false).isSome) ∧
      (ea 0x30000 0 < 2 ^ 48 ∧ (memS 0x30000).tlbHit 0 ((memS 0x30000).asidOf (memG 0x30000)) (pageOf (ea 0x30000 0)) .read false = none) ∧
      ({ memS 0x30000 with groups := [(0, g)] }).Issues 0 g ∧
      ∀ a, g.acc = some a → a.walks = [] ∧ ∀ l, l < 32 → a.todo.getLsbD l = true → (tget a.xl (pageOf (a.ea.getD l 0))).isSome :=
  ⟨rfl, by decide, by decide, by decide, by decide, ⟨rfl, rfl⟩, fun a h => by cases h; exact ⟨rfl, by decide⟩⟩

/-! Waiting, fences, engines and the spine. -/

/-- Two groups' team alone in a cluster of one, which owns slots 0 to 3. -/
def twoTeam (b : Barrier) : Team := { fetchTeam 0 0 with launched := 2, slots := [0, 1], bars := b :: List.replicate 15 {}, cluster := 9 }
def aCluster : Cluster := ⟨2 ^ 32, 1, 0, 0, 1, 1, 0, 4, [1], List.replicate 4 {}, [], false, 0⟩
def barS (g : Group) (b : Barrier) : State := { withG g with teams := [(1, twoTeam b)], clusters := [(9, aCluster)] }
def atStage (k : Nat) : Group := { g0 with park := .wait k }
theorem witness_Barriers :
    let o : Syn := { syn .ar with b := .imm 2 }
    let arrived : Barrier := { arr := 1, isOpen := true, cnt := 1, exp := 2 }
    (barS g0 {}).Issues 0 g0 ∧ barOfInstr (.bar 0 o) = some (o, 0, false, true, true) ∧ barOfInstr (.cbar 3 o) = some (o, 3, true, true, true) ∧
      barOfInstr (.barwt 15 o) = some (o, 15, false, false, true) ∧ (barS g0 {}).team 1 = some (twoTeam {}) ∧ (twoTeam {}).bars.length = 16 ∧
      tget (barS g0 {}).clusters 9 = some aCluster ∧ aCluster.bars.length = 4 ∧
      g0.waitStage = 0 ∧ g0.runMask off = 0 ∧ g0.runMask o.hdr ≠ 0 ∧ g0.useFault (bopUse o.b 1) [] = none ∧ (g0.bopWord 0 o.b).toNat ≤ 2 ∧ 2 < (g0.bopWord 0 (.imm 3)).toNat ∧
      (barS (atStage 1) arrived).Issues 0 (atStage 1) ∧ arrived.arr.testBit g0.idx = true ∧ (({} : Barrier).arr.testBit g0.idx = false) ∧
      (barS (atStage 2) {}).Issues 0 (atStage 2) ∧ (atStage 2).rel = none ∧ ¬((0 = 0 ↔ arrived.live = true) ∧ True) ∧
      (barS (atStage 3) {}).Issues 0 (atStage 3) ∧ ((barS (atStage 3) {}).phaseOf 0 (atStage 3) false 0).1 ≤ (barS (atStage 3) {}).now ∧ (atStage 5).park = .wait 5 ∧
      (twoTeam {}).gid g0.idx = 0 ∧ tget g0.phases (phaseKey false 0) = none ∧ tget ({ g0 with phases := [(phaseKey false 0, (7, 3))] } : Group).phases (phaseKey false 0) = some (7, 3) :=
  ⟨⟨rfl, rfl⟩, rfl, rfl, rfl, rfl, rfl, rfl, rfl, rfl, by decide, by decide, by decide, by decide, by decide, ⟨rfl, rfl⟩, by decide, by decide, ⟨rfl, rfl⟩, rfl, by decide, ⟨rfl, rfl⟩, by decide,
    rfl, by decide, rfl, rfl⟩

/-- TADV completes: below the wrap and beyond it. -/
def loading (k : Nat) : Group := { atStage k with vres := [loadRes 1 0 0 9 true ⟨[.vec 8], fun _ => .data .b32, 4, memq, 0, 1⟩ 1 0] }
theorem witness_FencesAndTime :
    let o : Syn := { syn .plain with b := .imm 0xFFFF, d := sd }
    (withG g0).Issues 0 g0 ∧ g0.runMask o.hdr ≠ 0 ∧ g0.runMask off = 0 ∧ g0.useFault (bopUse o.b 1) (dstUse o.d 1) = none ∧ isDcc (gidCid 0) = false ∧
      (withG g0).pts 0 + (g0.bopWord 0 o.b).toNat = 0xFFFF ∧ 0xFFFF < 1 + (g0.bopWord 0 o.b).toNat ∧ (withG g0).wrapAcked 0 = false :=
  ⟨issues _, by decide, by decide, by decide, rfl, by decide, by decide, by decide⟩

/-- FENCE completes: at stage 1 where it acquires and every load has landed, at stage 2 where it releases and its release is done; where it waits. -/
theorem witness_FencesAndTime_fence :
    (withG (atStage 1)).Issues 0 (atStage 1) ∧ (syn .acq).q.ord = .acq ∧ (∀ v ∈ (atStage 1).vres, ¬(v.own = true ∧ (v.kind = .load ∨ v.kind = .atomic))) ∧
      (withG (atStage 2)).Issues 0 (atStage 2) ∧ (syn .ar).q.ord = .ar ∧ (atStage 2).rel = none ∧
      (withG (loading 1)).Issues 0 (loading 1) ∧ (∃ v ∈ (loading 1).vres, v.own = true ∧ (v.kind = .load ∨ v.kind = .atomic)) ∧ g0.waitStage = 0 ∧ g0.runMask off = 0 ∧
      (withG (atStage 1)).wrapAcked 0 = false ∧ isDcc 0 = false ∧ (syn .acq).q.scope ≠ .team :=
  ⟨issues _, rfl, fun v h => absurd h List.not_mem_nil, issues _, rfl, rfl, issues _, ⟨_, List.mem_singleton.2 rfl, rfl, .inl rfl⟩, rfl, by decide, by decide, rfl, by decide⟩

/-- PFENCE completes: of the engines at stage 1, with LS among its paths at stage 2; its release at stage 0 and 1, and one that must wait. -/
theorem witness_FencesAndTime_pfence :
    let o : Syn := { syn .ar with q := ⟨.wafer, .ar, 7, 8⟩ }
    let all : Syn := { syn .ar with q := ⟨.wafer, .ar, 0xF, 8⟩ }
    let releasing := fun (r : Rel) => ({ atStage 2 with rel := some r } : Group)
    (withG (atStage 1)).Issues 0 (atStage 1) ∧ o.q.frm.getLsbD 3 = false ∧ o.q.frm.getLsbD 0 = true ∧ (withG (atStage 1)).copiesDone 0 = true ∧ (atStage 1).mq = [] ∧ (atStage 1).vres = [] ∧
      (withG (atStage 1)).banksDone 0 = true ∧ (withG (atStage 1)).farDone 0 0 .wafer = true ∧ o.q.dest.getLsbD 3 = true ∧ ((withG (atStage 1)).dom 0).wm + 1 ≤ 0xFFFF ∧
      all.q.frm.getLsbD 3 = true ∧ (withG (atStage 2)).Issues 0 (atStage 2) ∧ (atStage 2).rel = none ∧
      (withG (releasing ⟨.wafer, 0, []⟩)).relCan 0 0 none ⟨.wafer, 0, []⟩ = true ∧ (withG (releasing ⟨.team, 0, []⟩)).relCan 0 0 none ⟨.team, 0, []⟩ = true ∧
      (withG { loading 2 with rel := some ⟨.wafer, 0, []⟩ }).relCan 0 0 none ⟨.wafer, 0, []⟩ = false :=
  ⟨issues _, by decide, by decide, by decide, rfl, rfl, by decide, by decide, by decide, by decide, by decide, issues _, rfl, by decide, by decide, by decide⟩

/-- CPYIN of one row of 64 bytes from 0x10000 to scratchpad offset 4032; a row length above 2^20; a scratchpad row that ends outside; an engine that is full. -/
def copyG (rowb l : Word) : Group := { g0 with sregs := [(16, 0x10000), (18, l), (20, rowb), (21, 1)] }
/-- What its block describes. -/
def copyC (rowb l : Word) : CopyReq := copyOf 0 (copyG rowb l) 1 .cpyin cpy.q ((copyG rowb l).scalarBlock 0 cpy.a 8)
def heldCopy : CopyReq := copyOf 0 g0 1 .cpyin cpy.q []
theorem witness_CopyInstructions :
    let us := [srcUse cpy.a 0 8 Perm.id]
    let c := copyC 64 4032
    let full : State := { withG g0 with work := List.replicate 32 ⟨1, 0, .copy heldCopy, none⟩ }
    (withG (copyG 64 4032)).Issues 0 (copyG 64 4032) ∧ (copyG 64 4032).runMask cpy.hdr ≠ 0 ∧ (withG (copyG 64 4032)).copiesHeld 0 < 32 ∧ (copyG 64 4032).cc.getD 0 0 < 255 ∧
      (copyG 64 4032).useFault us [] = none ∧ (withG (copyG 64 4032)).copyFault 0 (copyG 64 4032) c ((copyG 64 4032).scalarBlock 0 cpy.a 8) = none ∧
      c.rows ≠ 0 ∧ c.rowb ≠ 0 ∧ (copyC 0 4032).rowb = 0 ∧ (withG (copyG 0 4032)).copyFault 0 (copyG 0 4032) (copyC 0 4032) ((copyG 0 4032).scalarBlock 0 cpy.a 8) = none ∧
      2 ^ 20 < ((copyG 0x100004 0).readScal 0 20).toNat % 2 ^ 21 ∧
      (withG (copyG 64 4096)).copyFault 0 (copyG 64 4096) (copyC 64 4096) ((copyG 64 4096).scalarBlock 0 cpy.a 8) = some 0x05 ∧
      full.Issues 0 g0 ∧ ¬full.copiesHeld 0 < 32 ∧ g0.runMask off = 0 ∧ g0.waitStage = 0 ∧ g0.useFault (bopUse (.imm 3) 1) [] = none ∧
      (atStage 1).park = .wait 1 ∧ (atStage 1).cc.getD 0 0 ≤ (atStage 1).kept ∧ ({ atStage 1 with cc := [1, 0, 0, 0] } : Group).kept < 1 ∧ g0.useFault [] (dstUse sd 1) = none :=
  ⟨issues _, by decide, by decide, by decide, by decide, by decide, by decide, by decide, by decide, by decide, by decide, by decide, ⟨rfl, rfl⟩, by decide, by decide, rfl, by decide,
    rfl, by decide, by decide, by decide⟩

/-- MMA.f8 of one row, one column and one step in slot 0 and in slot 4, which the cluster does not own; MLDB of one line; a tile of one element. -/
def matG (k : Nat → Word) : Group := { g0 with sregs := (List.range 8).map fun i => (16 + i, k i) }
def mmaG : Group := matG fun i => if i = 5 then 0x10001 else if i = 6 then 1 else if i = 1 ∨ i = 4 then 64 else 0
def ldbG : Group := matG fun i => if i = 0 then 0x10000 else if i = 3 then 64 else if i = 4 then 1 else 0
def tileG : Group := matG fun i => if i = 0 then 0x10000 else if i = 3 then 0x10000 else if i = 4 then 1 else 0
theorem witness_MatrixInstructions :
    let block := fun (g : Group) => g.scalarBlock 0 mat.a 8
    (barS mmaG {}).Issues 0 mmaG ∧ mmaG.runMask mat.hdr = 0xFFFFFFFF ∧ mmaG.mq.length < 8 ∧ mmaG.useFault [srcUse mat.a 0 8 Perm.id] [] = none ∧
      (barS mmaG {}).clusterOf mmaG = some aCluster ∧ (barS mmaG {}).team 1 = some (twoTeam {}) ∧ (barS mmaG {}).mmaFault aCluster (twoTeam {}) mat .f8 none (block mmaG) = none ∧
      (barS mmaG {}).mmaFault aCluster (twoTeam {}) { mat with q := { mat.q with acc := 4 } } .f8 none (block mmaG) = some 0x07 ∧
      (barS ldbG {}).loadFault ldbG (block ldbG) = none ∧ (withG ldbG).loadFault ldbG (block ldbG) = some 0x05 ∧
      (barS tileG {}).tileFault tileG 0 (block tileG) 4 true = none ∧ (barS tileG {}).tileFault tileG 4 (block tileG) 4 true = some 0x07 ∧
      aCluster.owns 3 1 = true ∧ aCluster.owns 4 1 = false ∧ aCluster.owns 0 4 = true ∧ g0.waitStage = 0 ∧ g0.runMask off = 0 ∧ (leaving 1).runMask mat.hdr ≠ 0xFFFFFFFF ∧
      (leaving 1).runMask mat.hdr ≠ 0 ∧ (barS (atStage 1) {}).Issues 0 (atStage 1) ∧ (atStage 1).park = .wait 1 :=
  ⟨⟨rfl, rfl⟩, by decide, by decide, by decide, rfl, rfl, by decide, by decide, by decide, by decide, by decide, by decide, by decide, by decide, by decide, rfl, by decide, by decide, by decide,
    ⟨rfl, rfl⟩, rfl⟩

/-- BRED.iadd of one word at 0x11000 into the next; N above 2^22; an odd address; a range that ends above 2^48; BWAIT of a ticket of another core. -/
def bankG (n x hi : Word) : Group := { g0 with sregs := [(16, x), (17, hi), (18, 0x11004), (20, n)] }
theorem witness_BankInstructions :
    let ws := fun (g : Group) => g.scalarBlock 0 bnk.a 8
    let g := bankG 1 0x11000 0
    let s : State := { memS 0 with groups := [(0, g)] }
    let k : BankKind := .bred .iadd
    let rs := [(bankRanges k (bankBlock (ws g))).1, ⟨0x11004, 4, true, false⟩]
    s.Issues 0 g ∧ bankOf (.bred .iadd bnk) = some (bnk, k) ∧ g.acc = none ∧ g.runMask bnk.hdr ≠ 0 ∧ s.banksHeld 0 < 64 ∧ g.useFault [srcUse bnk.a 0 8 Perm.id] (dstUse bnk.d 1) = none ∧
      bankZeros k (ws g) = true ∧ bankAligned k (bankBlock (ws g)) = true ∧ (∀ r ∈ rs, r.va + r.bytes ≤ 2 ^ 48) ∧ (bankRanges k (bankBlock (ws g))).2 = (none, some ⟨0x11004, 4, true, false⟩) ∧
      rangePages rs = [(0x11, true)] ∧ s.tlbHit 0 (s.asidOf g) 0x11 .write g.priv = some (.ok (2 ^ 47) true false false) ∧
      s.RunsAt ⟨0x11000, 4, false, true⟩ (fun _ => 2 ^ 47) (2 ^ 47) ∧ s.RunsAt ⟨0x11004, 4, true, false⟩ (fun _ => 2 ^ 47) (2 ^ 47 + 4) ∧
      bankZeros k (ws (bankG 0x800000 0x11000 0)) = false ∧ bankAligned k (bankBlock (ws (bankG 1 0x11001 0))) = false ∧
      (∃ r ∈ [(bankRanges k (bankBlock (ws (bankG 2 0xFFFFFFFC 0xFFFF)))).1], 2 ^ 48 < r.va + r.bytes) ∧
      g0.waitStage = 0 ∧ (g0.bopWord 0 (.imm 5)).toNat / 2 ^ 24 = cidSite 0 ∧ ((bankG 0 0x01000000 0).readScal 0 16).toNat / 2 ^ 24 ≠ cidSite 0 ∧ (atStage 1).park = .wait 1 :=
  ⟨⟨rfl, rfl⟩, rfl, rfl, by decide, by decide, by decide, by decide, by decide, by decide, by decide, by decide, by decide,
    ⟨by decide, by decide, .inl ⟨0, 0, 3, by decide, by decide, by decide⟩⟩, ⟨by decide, by decide, .inl ⟨0, 4, 7, by decide, by decide, by decide⟩⟩, by decide, by decide,
    ⟨_, List.mem_singleton.2 rfl, by decide⟩, rfl, by decide, by decide, rfl⟩
/-! The spine's instructions, on the DCC of domain 0. -/

/-- A line of the domain's DSM with some bytes set, and the DCC with page 0x11 on it. -/
def sline (at' : List (Nat × Byte)) : SLine := ⟨at'.foldl (fun l (i, b) => l.set i b) zeroLine, Config.freshDesc, .m, 0, 0, false, 0, none⟩
def dcc0 : Group := fetchGroup 1 true
def dccS (g : Group) (ls : List (Nat × SLine)) : State :=
  { dccState with groups := [(9217, g)], cores := [(144, { freshCore with tlb := pages })], doms := [(0, { freshDom 0 with dsmsize := 1, dsmcfg := 1 })], lines := ls.map fun p => (2 ^ 41 + p.1, p.2) }
/-- GSUB at its last stage. -/
def subG : Group := { dcc0 with park := .wait 2, acc := some ⟨0, [0x11000], [], [], [], false, 0, [], none, none, []⟩ }
def aNode : Node :=
  { asid := 1, graph := 0, index := 0, kind := 0, stream := 0, folios := [], manual := true, quiet := false, fence := false, dcc := 0, launchVa := 0x11000, launch := none, args := 0, teams := 1,
    colq := 0, deps := [], st := .done false, retired := 0, nrel := false, started := 0, status := 0, origin := 0, place := 0, depended := false, cores := [] }

def at11 : Places := ⟨[(0x11, 2 ^ 47)], [], [], none⟩
def nodeS : State := dccS subG [(0, sline [(0x18, 1)])]
theorem described_node : nodeS.Described 9217 subG false 0x11000 (nodeS.placedRead 0 at11 0x11000 256).1 0 (some [⟨0, 0, 0, 0, 0, 0, 1, []⟩]) :=
  have h : nodeS.placesFor 9217 (nodeS.groupEngine 9217 subG) subG.learnt .read 0x11000 256 = (nodeS, at11) := rfl
  have hx : some [(⟨0, 0, 0, 0, 0, 0, 1, []⟩ : NodeSpec)] = (nodeOf (nodeS.placedRead 0 at11 0x11000 256).2.1 subG.folios).map fun x => [x] := by decide +kernel
  ⟨(nodeS.placedRead 0 at11 0x11000 256).2.1, ⟨nodeS, at11, (nodeS.placedRead 0 at11 0x11000 256).2.2, h, rfl, rfl, rfl⟩, rfl, hx⟩

def badS : State := dccS subG []
theorem described_bad : badS.Described 9217 subG true 0x11000 (badS.placedRead 0 at11 0x11000 64).1 0 none :=
  have h : badS.placesFor 9217 (badS.groupEngine 9217 subG) subG.learnt .read 0x11000 64 = (badS, at11) := rfl
  have hx : graphOf (badS.placedRead 0 at11 0x11000 64).2.1 = none := by decide
  ⟨(badS.placedRead 0 at11 0x11000 64).1, (badS.placedRead 0 at11 0x11000 64).2.1, ⟨badS, at11, (badS.placedRead 0 at11 0x11000 64).2.2, h, rfl, rfl, rfl⟩, .inl ⟨hx, rfl, rfl, rfl⟩⟩

/-- So many nodes of the context stand that one more is too many. -/
theorem nodes_full : Config.contextNodes < ((List.replicate Config.contextNodes (0, aNode)).filter fun (_, n) => n.held && n.asid == 1).length + 1 := by
  have h : (aNode.held && aNode.asid == 1) = true := by decide
  generalize Config.contextNodes = k
  simp [h]

theorem witness_GraphInstructions :
    let o : Ctl := { ctl with d := sd, a := sc 4 }
    (dccS dcc0 []).Issues 9217 dcc0 ∧ dcc0.park = .running ∧ dcc0.runMask off = 0 ∧ dcc0.runMask o.hdr ≠ 0 ∧ dcc0.useFault [srcUse o.a 0 2 Perm.id] (dstUse o.d 1) = none ∧
      { dcc0 with park := .wait 1 }.landed = true ∧ (dccS dcc0 []).banksDone 9217 = true ∧ (dccS dcc0 []).farDone 9217 144 .wafer = true ∧ (loading 1).landed = false ∧
      ({ subG with park := .xlat }).pagesWait = false ∧
      (dccS subG []).Issues 9217 subG ∧ subG.park = .wait 2 ∧ subG.rel = none ∧ subG.kept = 0x11000 ∧ ((dccS subG []).ctx 1).isSome = true ∧
      (∃ x ∈ [(⟨1, 0, 0, 64, 0, 0, 0, []⟩ : NodeSpec)], x.kind = 1 ∧ 63 < x.dom) ∧
      dcc0.useFault [srcUse o.a 0 1 Perm.id] (dstUse o.d 1) = none ∧ aNode.manual = true ∧ aNode.nrel = false ∧ aNode.st = .done false ∧ ({ aNode with st := .running }).st ≠ .done false ∧
      dcc0.useFault [srcUse o.a 0 4 Perm.id] (dstUse o.d 1) = none ∧ folioOf (leBytes 16 0) = none ∧ (folioOf (leBytes 16 0x101)).isSome = true ∧ dcc0.folios.length < 8 :=
  ⟨⟨rfl, rfl⟩, rfl, by decide, by decide, by decide, by decide, by decide, by decide, by decide, rfl, ⟨rfl, rfl⟩, rfl, rfl, rfl, by decide, ⟨_, List.mem_singleton.2 rfl, rfl, by decide⟩, by decide, rfl, rfl, rfl,
    by decide, by decide, by decide, by decide, by decide⟩

/-- A group that has read a host's post of the graph at 0x11000 for context 2. -/
theorem witness_GraphInstructions_posted :
    ({ dcc0 with posts := [(0x11000, 2)] } : Group).postAt 0x11000 = some 2 ∧ dcc0.postAt 0x11000 = none := by decide

/-- A queue at 0x11000 with a ring of one record at 0x11040, posted and not. -/
def queueS (g : Group) (seq : Byte) : State := dccS g [(0, sline [(0, 0x40), (1, 0x10), (2, 1)]), (1, sline [(0x1C, seq)])]
def isGot : State × Popped → Bool
  | (_, .got ws _ fl) => ws.length == 8 && fl == 0
  | _ => false
def isEmptyPop : State × Popped → Bool
  | (_, .empty _ fl) => fl == 0
  | _ => false
def evG : Group := { dcc0 with park := .wait 1, acc := some ⟨0, [0x11000, 0, 5], [], [], [], false, 0, [], none, none, []⟩, held := some (.evwait { ctl with d := regDst .scal 8, a := sc 4, b := .imm 5 }) }
theorem witness_EventQueues :
    let o : Ctl := { ctl with d := regDst .scal 8, a := sc 4, b := .imm 5 }
    isGot ((queueS evG 1).popQueue 9217 evG 0x11000) = true ∧ isEmptyPop ((queueS evG 0).popQueue 9217 evG 0x11000) = true ∧
      (queueS dcc0 1).Issues 9217 dcc0 ∧ dcc0.useFault [srcUse o.a 0 2 Perm.id] (dstUse o.d 8) = none ∧ dcc0.useFault (srcUse o.a 0 2 Perm.id :: bopUse o.b 1) (dstUse o.d 8) = none ∧
      dcc0.acc = none ∧ dcc0.pagesWait = false ∧ evG.pagesWait = false ∧ ({ evG with acc := some ⟨0, [0x11000, 0, 5], [], [], [7], false, 0, [], none, none, []⟩ }).pagesWait = true ∧
      dcc0.runMask off = 0 ∧ dcc0.runMask o.hdr ≠ 0 ∧ (queueS evG 0).Issues 9217 evG ∧ evG.kept = 0x11000 ∧
      ({ queueS evG 0 with now := 5 }).group 9217 = some evG ∧ evG.park = .wait 1 ∧ evG.held = some (.evwait o) ∧ evG.halted = false ∧
      evG.acc.map (fun a => (a.ea.getD 1 0, a.ea.getD 2 0)) = some (0, 5) ∧ 0 + 5 ≤ ({ queueS evG 0 with now := 5 }).now :=
  ⟨by decide, by decide, ⟨rfl, rfl⟩, by decide, by decide, rfl, rfl, rfl, rfl, by decide, by decide, ⟨rfl, rfl⟩, rfl, rfl, rfl, rfl, rfl, rfl, by decide⟩

/-- EVWAIT at its first issue, with a record and with none. -/
theorem witness_EventQueues_first :
    let g : Group := { dcc0 with sregs := [(4, 0x11000)] }
    (queueS g 1).Issues 9217 g ∧ g.acc = none ∧ (g.readPair 9217 4).toNat = 0x11000 ∧ isGot ((queueS g 1).popQueue 9217 g 0x11000) = true ∧
      isEmptyPop ((queueS g 0).popQueue 9217 g 0x11000) = true :=
  ⟨⟨rfl, rfl⟩, rfl, by decide, by decide, by decide⟩

/-- The first of those queues read step by step, as the statement reads it. -/
theorem witness_EventQueues_read :
    let s := queueS evG 1
    let h := s.placedRead 0 at11 0x11000 32
    s.queuePlaces 9217 (s.groupEngine 9217 evG) evG.learnt .atomic 0x11000 32 = (s, at11) ∧ at11.ok = true ∧
      leVal (slice h.2.1 0 8) = 0x11040 ∧ leVal (slice h.2.1 0x18 4) = 0 ∧
      h.1.queuePlaces 9217 (s.groupEngine 9217 evG) evG.learnt .read 0x11040 32 = (h.1, at11) ∧
      leVal (slice (h.1.placedRead 0 at11 0x11040 32).2.1 0x1C 4) = 1 :=
  ⟨rfl, rfl, by decide, by decide, rfl, by decide⟩

/-- Requests in the scalars s16 to s19: context 1 in domain 63, a context that does not exist, a reserved bit, from slot 0 and from slot 1. -/
def askG (w0 w1 w2 w3 : Word) : Group := { dcc0 with sregs := [(16, w0), (17, w1), (18, w2), (19, w3)] }
def askS (g : Group) (c : Ctx) : State := { dccS g [] with ctxs := [(1, c)] }
theorem witness_SuspendAndBudget :
    let o : Ctl := { ctl with d := sd, a := sc 16 }
    let us := [srcUse o.a 0 4 Perm.id]
    let g := askG 1 0 0x80000000 0
    (askS g freshCtx).Issues 9217 g ∧ g.runMask off = 0 ∧ g.runMask o.hdr ≠ 0 ∧ g.useFault us (dstUse o.d 1) = none ∧ g.asks 9217 o = (1, false, [63]) ∧ (askS g freshCtx).asidOf g = 1 ∧
      gidSlot 9217 ≠ 0 ∧ gidSlot 9216 = 0 ∧ 2 ^ 17 ≤ ((askG 0x20000 0 0 0).readScal 9217 16).toNat ∧ (askG 2 0 0 0).asks 9217 o = (2, false, List.range 64) ∧
      (askG 0x10001 0 0 0).asks 9217 o = (1, true, List.range 64) ∧ (askS g freshCtx).ctx 2 = none ∧ (askS g freshCtx).ctx 1 = some freshCtx ∧
      ([63].filter fun d => !freshCtx.req.contains d) ≠ [] ∧ ([63].filter fun d => !({ freshCtx with req := [63] } : Ctx).req.contains d) = [] ∧
      (askS g freshCtx).teamsIn 1 63 = [] ∧ ((askS g freshCtx).teamsIn 1 0) ≠ [] ∧ (askS g freshCtx).planImages 1 ((askS g freshCtx).duskTeams 1 0 true) = none ∧
      2 ^ 19 ≤ ((askG 0x80000 0 0 0).readScal 9217 16).toNat ∧ ({ freshCtx with expert := 8 } : Ctx).expert.testBit 3 = true ∧ (1 : Word).toNat < 2 ^ 19 :=
  ⟨⟨rfl, rfl⟩, by decide, by decide, by decide, by decide, by decide, by decide, by decide, by decide, by decide, by decide, rfl, rfl, by decide, by decide, by decide, by decide, by decide,
    by decide, by decide, by decide⟩
/-! The machine's own steps: groups and nodes. -/

def aV : VRes := { loadRes 1 0 0 0 true ⟨[.vec 8], fun _ => .data .b32, 4, memq, 0, 1⟩ 0x80000001 0 with ready := 1 }
def landG (r : LaneMask) : Group := { g0 with vres := [{ aV with ready := r }], park := .sleep 0 9 }
def replayG : Group := { g0 with acc := some ⟨1, List.replicate 32 0x10000, [], [], [], true, 0, [], none, none, []⟩ }
def aFault (t : Nat) (page : Nat) : PageFault := ⟨1, page, t, false, true, leBytes 32 0, 0⟩
def faultS (g : Group) (fs : List PageFault) : State := { withG g with doms := [(0, { freshDom 0 with faults := fs })] }
def entryG : Group := { g0 with park := .entry ⟨0x20, 0, false, false, 0, 0, 0, none, false⟩ 0 }
theorem witness_GroupSteps :
    let gone : Group := { g0 with retired := true, exm := 0, park := .dead }
    let ended : Team := { fetchTeam 0 0 with retiredN := 1 }
    (withG (landG 1)).group 0 = some (landG 1) ∧ (landG 1).vres.find? (fun w => w.id == 1) = some aV ∧ (withG (landG 1)).team 1 = some (fetchTeam 0 0) ∧ (fetchTeam 0 0).gid 0 = 0 ∧
      aV.own = true ∧ aV.part = none ∧ ({ aV with part := some (1, 1) } : VRes).part = some (1, 1) ∧ aV.quire = none ∧ aV.infl = 0 ∧ aV.acq = none ∧ aV.dsts.Nodup ∧ aV.due ≤ (withG (landG 1)).cclk 0 ∧ (0xFFFFFFFF : LaneMask) &&& aV.lanes &&& aV.ready ≠ 0 ∧
      aV.flagsAt 1 &&& flPsn = 0 ∧ aV.lanes &&& ~~~1 ≠ 0 ∧ aV.lanes &&& ~~~0x80000001 = 0 ∧ (landG 1).Sane ∧
      (withG replayG).group 0 = some replayG ∧ (withG replayG).faulting 0 1 0x10 = false ∧ (faultS replayG [aFault 1 0x10]).faulting 0 1 0x10 = true ∧ (pageOf 0x10000 = 0x10) ∧
      ({ saveState false with groups := [(0, entryG)] }).entryReady 0 entryG = true ∧ (faultS entryG [aFault 1 0x20]).entryReady 0 entryG = false ∧
      (withG gone).group 0 = some gone ∧ gone.retired = true ∧ gone.vres = [] ∧ gone.mq = [] ∧ gone.halted = false ∧ (withG gone).work = [] ∧
      ({ s0 with groups := [], teams := [(1, ended)] }).teamFreeable 1 ended = true ∧ (∃ x ∈ ended.slots, x ≠ noSlot) ∧ (∀ x ∈ ({ ended with slots := [noSlot] } : Team).slots, x = noSlot) ∧
      ({ s0 with groups := [], teams := [(1, { ended with slots := [noSlot] })] }).teamFreeable 1 { ended with slots := [noSlot] } = true :=
  ⟨rfl, rfl, rfl, rfl, rfl, rfl, rfl, rfl, rfl, rfl, by decide, by decide, by decide, by decide, by decide, by decide, by unfold Group.Sane; decide, rfl, by decide, by decide, by decide, by decide, by decide,
    rfl, rfl, rfl, rfl, rfl, rfl, by decide, ⟨_, List.mem_singleton.2 rfl, by decide⟩, by decide, by decide⟩

/-- A parked instruction that reads pages of a context other than the group's: of that context alone they are asked. -/
theorem witness_GroupSteps_context :
    let a : Access := ⟨1, List.replicate 32 0x10000, [], [], [], true, 0, [0x10], none, some 2, []⟩
    a.parked = true ∧ a.ctx.getD ((withG g0).asidOf g0) = 2 ∧ (faultS g0 [aFault 1 0x10]).faulting 0 2 0x10 = false := by decide

/-- A launch of one group of eight registers in one core of domain 0, its descriptor at 0x11000, and nodes that stand where a step takes them up. -/
def aLaunch : Launch := ⟨0x40, 1, 1, 1, some 0, 256, 8, 8, 0, 0, 0x20000, 0, 0⟩
def launchLine : SLine := sline [(0, 0x40), (8, 1), (9, 1), (0xA, 1), (0xD, 1), (0x10, 8), (0x12, 8), (0x1A, 2)]
def nodeOf' (k : Nat) (st : NState) : Node := { aNode with kind := k, manual := false, st := st, launch := if st == .waiting then none else some aLaunch }
def nodesS (n : Node) (line : SLine) : State := { dccS dcc0 [(0, line)] with nodes := [(2 ^ 32, n)], groups := [], teams := [] }
theorem witness_NodeSteps_ready :
    let w := nodeOf' 0 .waiting
    let s := nodesS w launchLine
    tget s.nodes (2 ^ 32) = some w ∧ w.st = .waiting ∧ w.deps = [] ∧ w.kind = 0 ∧ (nodeOf' 2 .waiting).kind = 2 ∧ (∀ p ∈ rangeOf w.launchVa 64, s.faulting w.origin w.asid p = false) ∧
      s.placesOf (State.launchEngine w) .read w.launchVa 64 = (s, at11) ∧ at11.bad = none ∧ at11.absent = [] ∧
      launchOf (s.placedRead 0 at11 0x11000 64).2.1 = aLaunch ∧ launchOk false (s.placedRead 0 at11 0x11000 64).2.1 = true ∧ w.teams % (1 * 1) = 0 ∧
      launchOk false ((nodesS w (sline [])).placedRead 0 at11 0x11000 64).2.1 = false ∧ s.everFits aLaunch = true ∧ s.everFits { aLaunch with scratch := 3000 * 1024 } = false :=
  ⟨rfl, rfl, rfl, rfl, rfl, by decide, rfl, rfl, rfl, by decide, by decide, by decide, by decide, by decide, by decide +kernel⟩

theorem witness_NodeSteps_place :
    let n := nodeOf' 0 (.ready 0)
    let s := nodesS n launchLine
    let t : Team := { fetchTeam 0 0 with launched := 0, slots := [], spGran := 0 }
    let started : State := { s with teams := [(1, t)] }
    tget s.nodes (2 ^ 32) = some n ∧ n.kind = 0 ∧ n.launch = some aLaunch ∧ n.st = .ready 0 ∧ (s.placeChoice n).isSome = true ∧ (s.hc 0).holder = none ∧ aLaunch.accn = 0 ∧
      ({ s with hcs := [(0, { freshHc with holder := some 9 })] }.hc 0).holder = some 9 ∧
      started.team 1 = some t ∧ t.nid = 2 ^ 32 ∧ t.launched = 0 ∧ t.spad = [] ∧ (started.allot 0 aLaunch).isSome = true ∧
      (nodeOf' 1 (.ready 0)).kind = 1 ∧ (s.poolKey (nodeOf' 1 (.ready 0))).isSome = true ∧ (s.dccSlot 0).isSome = true ∧ s.bufferRoom 1 0 = true :=
  ⟨rfl, rfl, rfl, rfl, by decide, rfl, rfl, rfl, rfl, rfl, rfl, rfl, by decide, rfl, by decide, by decide, by decide⟩

/-- Ends of a node, and the records that wait for queues: the queue at 0x11000 with a header of one record, and full. -/
def record (q : Nat) : Colophon := ⟨1, q, 0, 0, leBytes 28 0, none, false⟩
def recordS (full : Byte) (held : List Colophon) : State :=
  { dccS dcc0 [(0, sline [(0, 0x40), (1, 0x10), (2, 1), (16, full)])] with doms := [(0, { freshDom 0 with dsmsize := 1, dsmcfg := 1, held := held, qhdr := 0x11000, evAsid := 1 })] }
theorem witness_NodeSteps_end :
    let r : Node := { nodeOf' 0 .running with retired := 1 }
    let s := nodesS r launchLine
    tget s.nodes (2 ^ 32) = some r ∧ r.st = .running ∧ s.nodeOver (2 ^ 32) r = true ∧ s.allDone [] = true ∧ (∀ c ∈ r.cores, s.acksDone (c / 145) = true) ∧
      (nodeOf' 0 (.releasing 0 [])).st = .releasing 0 [] ∧ (nodeOf' 0 (.releasing 1 [])).manual = false ∧
      (recordS 0 [record 0x11000]).firstHeld 0 = [record 0x11000] ∧ (recordS 0 []).firstHeld 0 = [] ∧ ((recordS 0 [record 0x11000]).appendRecord 0 1 0x11000 (leBytes 28 0)).2 = true ∧
      ((recordS 1 []).appendRecord 0 1 0x11000 (leBytes 28 0)).2 = false ∧ ((recordS 1 []).dom 0).evBusy = false ∧ (recordS 1 []).queueWaits 0 1 0x11000 = false ∧
      (recordS 1 []).ctx 1 = some freshCtx :=
  ⟨rfl, rfl, by decide, by decide, by decide, rfl, rfl, by decide, by decide, by decide, by decide, rfl, by decide, rfl⟩

/-- A walk whose page is absent and one whose page is in the TLB by now; faults whose record is in the ring and is not. -/
def walkOf (page : Nat) (gid : Option Nat) : WalkReq := ⟨0, 0, 1, page, .read, .ls, false, gid, false, .none⟩
def walkG : Group := { g0 with acc := some ⟨1, List.replicate 32 0x10000, [], [], [7], false, 0, [], none, none, []⟩, park := .xlat }
def walkS (g : Group) (w : WalkReq) : State := { withG g with work := [⟨7, 0, .walk w, none⟩] }
theorem witness_TranslationSteps :
    let held : PageFault := ⟨1, 0x30, 1, false, false, leBytes 32 0, 0⟩
    let inv : TlbInv := ⟨some 1, 0x10, some 1, none⟩
    let s := walkS walkG (walkOf 0x10 (some 0))
    s.findWork 7 = some ⟨7, 0, .walk (walkOf 0x10 (some 0)), none⟩ ∧ (walkOf 0x10 (some 0)).place ≠ .waiting ∧ ({ walkOf 0x10 (some 0) with place := .held } : WalkReq).place ≠ .waiting ∧
      (s.delWork 7).lookPage (walkOf 0x10 (some 0)) = (s.delWork 7, .ok 0x10000 true false false) ∧ (s.delWork 7).group 0 = some walkG ∧ walkG.acc.map (·.walks) = some [7] ∧
      (∀ k, walkG.park ≠ .fetch k) ∧ ({ g0 with park := .fetch 7 } : Group).park = .fetch 7 ∧
      (((faultS g0 [aFault 1 0x30]).lookPage (walkOf 0x30 none)).2 = .absent ∧ (walkOf 0x30 none).gid = none ∧ (walkOf 0x30 none).quiet = false) ∧
      (∀ f ∈ ((withG g0).dom 0).faults, f.token ≠ 1) ∧ ((faultS g0 [aFault 1 0x30]).dom 0).faults.find? (fun f => f.token == 1) = some (aFault 1 0x30) ∧ (aFault 1 0x30).appended = true ∧
      ((faultS g0 [held]).dom 0).faults.find? (fun f => f.token == 1) = some held ∧ held.appended = false ∧
      (faultS g0 [held]).recordNext 0 = some held ∧
      ({ s0 with work := [⟨7, 0, .tlbInv inv, none⟩] }).findWork 7 = some ⟨7, 0, .tlbInv inv, none⟩ ∧ ({ s0 with work := [⟨7, 0, .tlbInv inv, none⟩] }).jobBefore 7 inv.waits = false ∧ (∀ p ∈ s0.posted, inv.mine p.asid = true → 7 ≤ p.id) :=
  ⟨rfl, by decide, by decide, rfl, rfl, rfl, (by rintro k ⟨⟩), rfl, ⟨by decide, rfl, rfl⟩, by decide, rfl, rfl, rfl, rfl, by decide, rfl, by decide, fun _ h => absurd h List.not_mem_nil⟩

/-- Item 7 is in flight, and due; line 1024 of DRAM and the first DSM line stand in slice 0. -/
def readG : Group := { g0 with vres := [{ aV with ready := 0, lanes := 1 }] }
def wk (j : Job) : State :=
  { withG readG with
    work := [⟨7, 0, j, none⟩], uid := 9, cores := [(0, { freshCore with tlb := pages })], lines := [(1024, sline []), (2 ^ 41, sline [])], doms := [(0, { freshDom 0 with dsmsize := 1, dsmcfg := 1 })] }

theorem witness_SizesAndTime :
    let core := fun (c : Core) => ({ s0 with groups := [], teams := [], cores := [(0, c)] } : State)
    let dom := fun (x : Dom) => ({ s0 with doms := [(0, x)] } : State)
    (10 ≤ 10 ∧ 24 ≤ 24 ∧ isDcc 0 = false ∧ 9 < 10 ∧ isDcc 144 = true) ∧
      ((core { freshCore with l1cfg := 24 }).core 0).l1cfg ≠ ((core { freshCore with l1cfg := 24 }).core 0).l1size ∧ (∀ p ∈ ({ core freshCore with teams := [(1, { fetchTeam 0 0 with sus := { st := .absent } })] } : State).teams, p.2.cid = 0 → p.2.sus.st = .absent) ∧
      (∃ p ∈ ({ core freshCore with teams := [(1, fetchTeam 0 0)] } : State).teams, p.2.cid = 0 ∧ p.2.sus.st ≠ .absent) ∧
      ((core { freshCore with l1 := [(1024, { l1line with dirty := 1 })] }).l1 0 1024).map (·.dirty != 0) = some true ∧
      ((dom { freshDom 0 with dsmcfg := 16 }).dom 0).dsmcfg ≠ ((dom { freshDom 0 with dsmcfg := 16 }).dom 0).dsmsize ∧ ({ dom { freshDom 0 with dsmcfg := 16 } with ctxs := [] }).dsmMapped 0 = false ∧
      (s0.dom 0).wrapping = false ∧ 0xFFFF < (core { freshCore with pts := 0x10000 }).rawPts 0 ∧ (({ freshDom 0 with wrapAsked := true } : Dom).wrapAsked = true) ∧ (dom { freshDom 0 with wrapAsked := true }).servedLanded 0 = true ∧
      (wk (.l1fill 0 1024 1 .normal (sline []).img 0 10)).servedLanded 0 = false ∧ ({ core freshCore with doms := [(0, { freshDom 0 with wrapping := true })] }).wrapAcked 0 = true ∧
      (dom { freshDom 0 with wrapping := true }).backsDone 0 = true ∧ ((dom { freshDom 0 with wrapping := true }).dom 0).sweepEnd ≤ s0.now ∧
      ({ dom { freshDom 0 with sweepEnd := 5 } with now := 5 }.dom 0).sweepEnd ≠ 0 ∧ ({ dom { freshDom 0 with sweepEnd := 5 } with now := 5 }.dom 0).sweepEnd ≤ 5 :=
  ⟨by decide, by decide, by decide, ⟨_, List.mem_singleton.2 rfl, by decide⟩, by decide, by decide, by decide, rfl, by decide, rfl, by decide, by decide, by decide, by decide, by decide, by decide, by decide⟩
/-! The memory path, the directory and the engines, one step at a time. -/

def aRead (line : Nat) (sc : Scope) : ReadReq := ⟨0, 1, 0, line, 1, sc, false, false, false, false, [⟨0, 64 * line, .data .b32⟩]⟩
def aWrite (line : Nat) : WriteReq := ⟨0, 0, 0, line, 1, .writeBack, byteMask 0 [1], List.replicate 64 false, none, none, .team, false⟩
def anAtomic (line : Nat) : AtomReq := ⟨0, 1, 0, line, 1, .wafer, false, true, none, .op .addU32, [⟨0, 64 * line, 1, 0⟩], true, none⟩
theorem witness_CoreRequestSteps :
    (wk (.fill 0 1024 1 false .normal)).Serves 7 (.fill 0 1024 1 false .normal) ∧ (wk (.fill 0 1024 1 false .normal)).sline (sliceOf 0 1024) 1024 = some (sline []) ∧
      (wk (.l1fill 0 1024 1 .normal (sline []).img 0 10)).Serves 7 (.l1fill 0 1024 1 .normal (sline []).img 0 10) ∧ (sline []).img.data.length = 64 ∧
      (∀ m ∈ ((wk (.l1fill 0 1024 1 .normal (sline []).img 0 10)).core 0).small, m.fill ≠ 7) ∧
      (wk (.read (aRead (2 ^ 41) .wafer))).Serves 7 (.read (aRead (2 ^ 41) .wafer)) ∧ lineIsFar (2 ^ 41) = false ∧ (wk (.read (aRead (2 ^ 41) .wafer))).l1 0 (2 ^ 41) = none ∧
      readG.vres.filter (·.id == 1) = readG.vres ∧ lineIsDsm (2 ^ 41) = true ∧ (wk (.read (aRead 1024 .dom))).Serves 7 (.read (aRead 1024 .dom)) ∧
      (let far := { wk (.read (aRead 1024 .wafer)) with lines := [] }; far.Serves 7 (.read (aRead 1024 .wafer)) ∧ far.owner 1024 = none ∧ far.homeBusy 1024 = false ∧ far.sline 0 1024 = none) ∧
      (wk (.write (aWrite (2 ^ 41)))).Serves 7 (.write (aWrite (2 ^ 41))) ∧ (wk (.write (aWrite (2 ^ 41)))).canWrite 0 (2 ^ 41) = true ∧
      (wk (.write (aWrite (2 ^ 41)))).stampPast 0 (2 ^ 41) (some 0) = false ∧ (wk (.write (aWrite (2 ^ 41)))).DirtyBefore (2 ^ 41) ∧
      (wk (.wack (aWrite 1024) 0xFFFF 0xFFFF)).Serves 7 (.wack (aWrite 1024) 0xFFFF 0xFFFF) ∧ 0xFFFF ≤ 0xFFFF :=
  ⟨⟨0, rfl, by decide, by decide⟩, rfl, ⟨0, rfl, by decide, by decide⟩, by decide, by decide, ⟨0, rfl, by decide, by decide⟩, by decide, rfl, by decide, by decide,
    ⟨0, rfl, by decide, by decide⟩, ⟨⟨0, rfl, by decide, by decide⟩, rfl, by decide, rfl⟩, ⟨0, rfl, by decide, by decide⟩, by decide, by decide, .inl (by decide), ⟨0, rfl, by decide, by decide⟩, by decide⟩

/-- A strong store of a core whose L1 holds the line; a wide read that the own slice's M line serves, and one that its S line does not. -/
theorem witness_CoreRequestSteps_l1 :
    let w : WriteReq := { aWrite (2 ^ 41) with kind := .strong, newest := List.replicate 64 true }
    let s : State := { wk (.write w) with cores := [(0, { freshCore with tlb := pages, l1 := [(2 ^ 41, l1line)] })] }
    s.Serves 7 (.write w) ∧ w.rel = none ∧ s.canWrite 0 (2 ^ 41) = true ∧ s.stampPast 0 (2 ^ 41) (some 0) = false ∧ hasTime 0 0 = true ∧ w.kind ≠ .writeBack ∧
      s.l1 0 (2 ^ 41) = some l1line ∧ l1line.data.length = 64 ∧ (wk (.read (aRead 1024 .wafer))).sline (cidDom 0) 1024 = some (sline []) ∧ (sline []).st ≠ .s ∧
      ¬(({ aRead 1024 .wafer with ro := true, str := false } : ReadReq).str = true) :=
  ⟨⟨0, rfl, by decide, by decide⟩, rfl, by decide, by decide, rfl, by decide, rfl, by decide, rfl, by decide, by decide⟩

theorem witness_CoreRequestSteps_atomic :
    let a := { anAtomic (2 ^ 41) with ticket := some 0 }
    let s : State := { wk (.atomic a) with wafer := { freshWafer with ticketOut := some 0 } }
    s.Serves 7 (.atomic a) ∧ a.rel = none ∧ s.atomicPlace (2 ^ 41) = true ∧ s.stampPast (lineHome (2 ^ 41)) (2 ^ 41) none = false ∧ s.wafer.ticketOut ≠ none ∧
      (wk (.atomic (anAtomic (2 ^ 41)))).ticketNext = some ⟨7, 0, .atomic (anAtomic (2 ^ 41)), none⟩ :=
  ⟨⟨0, rfl, by decide, by decide⟩, rfl, by decide, by decide, by decide, by decide⟩

/-- The directory of line 1024: no entry, domain 1 its owner, domain 1 a sharer. -/
def dirS (j : Job) (e : List (Nat × DirEntry)) (ls : List (Nat × SLine)) : State := { wk j with dirs := e, lines := ls }
def owned : List (Nat × DirEntry) := [(1024, ⟨some 1, [], 0⟩)]
def shared : List (Nat × DirEntry) := [(1024, ⟨none, [1], 0⟩)]
def theirs : List (Nat × SLine) := [(2 ^ 42 + 1024, sline [])]
theorem witness_DirectorySteps :
    let here := [(1024, sline [])]
    (dirS (.readShared 2 1024 false) [] here).dir 1024 = none ∧ ((dirS (.readShared 2 1024 false) [] here).dirSetOf 1024).length < 16 ∧ ((dirS (.sliceFill 1 1024 none .s) shared []).dom 1).wm + 1 ≤ 0xFFFF ∧
      (dirS (.ownerWb 1024 1 (sline []).img) owned []).roomFor 0 1024 = dirS (.ownerWb 1024 1 (sline []).img) owned [] ∧
      7 < (dirS (.readShared 2 1024 false) owned []).uid ∧ (∀ p ∈ owned ++ shared, p.1 < 2 ^ 42) ∧
      (dirS (.readShared 2 1024 false) owned []).Serves 7 (.readShared 2 1024 false) ∧ (dirS (.readShared 2 1024 false) owned []).owner 1024 = some 1 ∧ lineHome 1024 = 0 ∧
      (dirS (.readShared 2 1024 false) [] here).Serves 7 (.readShared 2 1024 false) ∧ (dirS (.readShared 2 1024 false) [] here).owner 1024 = none ∧
      (dirS (.writePerm 2 1024) owned []).Serves 7 (.writePerm 2 1024) ∧ (dirS (.writePerm 2 1024) [] here).Serves 7 (.writePerm 2 1024) ∧
      (dirS (.sliceFill 1 1024 (some (sline []).img) .m) owned []).Serves 7 (.sliceFill 1 1024 (some (sline []).img) .m) ∧
      (dirS (.sliceFill 1 1024 (some (sline []).img) .s) shared []).Serves 7 (.sliceFill 1 1024 (some (sline []).img) .s) ∧ 1 ∈ (dirS (.sliceFill 1 1024 none .s) shared []).sharers 1024 ∧
      (dirS (.sliceFill 0 1024 none .e) [] []).Serves 7 (.sliceFill 0 1024 none .e) ∧ (dirS (.sliceFill 0 1024 none .e) [] []).sline 0 1024 = none ∧
      (dirS (.inval 1024 1 2) [] theirs).Serves 7 (.inval 1024 1 2) ∧ theirs.Pairwise (fun a b => a.1 < b.1) ∧ lineIsDsm 1024 = false ∧ (dirS (.inval 1024 1 2) [] theirs).sline 1 1024 = some (sline []) ∧
      (dirS (.invAck 1024 1 2) [] []).Serves 7 (.invAck 1024 1 2) ∧ (dirS (.forward 1024 1 2 true false) owned theirs).Serves 7 (.forward 1024 1 2 true false) ∧
      (dirS (.forward 1024 1 2 false false) owned theirs).Serves 7 (.forward 1024 1 2 false false) ∧ (dirS (.forward 1024 1 0 true false) owned theirs).Serves 7 (.forward 1024 1 0 true false) ∧
      (dirS (.recall 1024 1) owned theirs).Serves 7 (.recall 1024 1) ∧ (dirS (.ownerWb 1024 1 (sline []).img) owned []).Serves 7 (.ownerWb 1024 1 (sline []).img) :=
  ⟨rfl, by decide, by decide, by decide, by decide, by decide, ⟨0, rfl, by decide, by decide⟩, rfl, by decide, ⟨0, rfl, by decide, by decide⟩, rfl, ⟨0, rfl, by decide, by decide⟩, ⟨0, rfl, by decide, by decide⟩,
    ⟨0, rfl, by decide, by decide⟩, ⟨0, rfl, by decide, by decide⟩, by decide, ⟨0, rfl, by decide, by decide⟩, rfl, ⟨0, rfl, by decide, by decide⟩, by decide, by decide, rfl,
    ⟨0, rfl, by decide, by decide⟩, ⟨0, rfl, by decide, by decide⟩, ⟨0, rfl, by decide, by decide⟩, ⟨0, rfl, by decide, by decide⟩, ⟨0, rfl, by decide, by decide⟩, ⟨0, rfl, by decide, by decide⟩⟩

/-- Permission for a line that the home slice does not hold; invalidations of S, E, M and R lines; room for what the owner gives back. -/
theorem witness_DirectorySteps_permission :
    (dirS (.writePerm 2 1024) [] []).Serves 7 (.writePerm 2 1024) ∧ (dirS (.writePerm 2 1024) [] []).owner 1024 = none ∧ (dirS (.writePerm 2 1024) [] []).sline 0 1024 = none ∧
      (dirS (.permRead 2 1024) [] []).Serves 7 (.permRead 2 1024) ∧ ((dirS (.permRead 2 1024) [] []).dirSetOf 1024).length < 16 ∧
      (∀ st ∈ [SState.s, .e, .r], (dirS (.inval 1024 1 2) [] [(2 ^ 42 + 1024, { sline [] with st := st })]).sline 1 1024 = some { sline [] with st := st }) ∧
      ((dirS (.ownerWb 1024 1 (sline []).img) owned []).dom 0).wm + 1 ≤ 0xFFFF ∧ lineIsDsm (2 ^ 41) = true :=
  ⟨⟨0, rfl, by decide, by decide⟩, rfl, rfl, ⟨0, rfl, by decide, by decide⟩, by decide, by decide, by decide, by decide⟩

/-- BRED.iadd of the DSM's first word into its second, and a CPYOUT of one word of the scratchpad to 0x10000. -/
def aBank (k : BankKind) (n : Nat) : BankReq := ⟨0, 1, 2 ^ 32, 0, 1, 0, 0, k, .dom, 2 ^ 47, 2 ^ 47 + 4, 0, n, 0, 0, 0, none, [], 0, false, [], (0, false), 0⟩
def aCopy : CopyReq := { copyOf 0 g0 1 .cpyout cpy.q [0x10000, 0, 0, 0, 4, 1, 0, 0] with rowb := 4, rows := 1 }
def outPage : Nat → Nat := fun a => a
theorem witness_CopyAndBankSteps_bank :
    let s := wk (.bank (aBank (.bred .iadd) 1))
    State.ServedBy State.bankReady s 7 (.bank (aBank (.bred .iadd) 1)) ∧ (aBank (.bred .iadd) 1).rel = none ∧ (s.bankCompute (aBank (.bred .iadd) 1)).1 = [(2 ^ 47 + 4, 0)] ∧ (aBank (.bred .iadd) 1).later = [] ∧
      s.stampPast (lineHome (2 ^ 41)) (2 ^ 41) none = false ∧ s.bankSnap (aBank .vsmax 0) = (aBank .vsmax 0).snap ∧ s.sline (lineHome (2 ^ 41)) (2 ^ 41) = some (sline []) ∧ (sline []).data.length = 64 ∧ (aBank .vtopk 0).kind = .vtopk ∧ (aBank .vtopk 0).n = 0 ∧
      (f32 0x7FC00000).isNan = true ∧
      State.ServedBy State.bankPerformed (wk (.bankDone (aBank (.bred .iadd) 1) 2 false 5)) 7 (.bankDone (aBank (.bred .iadd) 1) 2 false 5) ∧ (2 : Flags) &&& flPsn = 0 ∧
      (wk (.bankDone (aBank (.bred .iadd) 1) 2 false 5)).group 0 = some readG ∧ readG.team = 1 ∧ (fetchTeam 0 0).inImage = false :=
  ⟨⟨0, rfl, by decide, by decide⟩, rfl, by decide, rfl, by decide, rfl, rfl, by decide, rfl, rfl, by decide,
    ⟨0, rfl, by decide, by decide⟩, by decide, rfl, rfl, rfl⟩

theorem witness_CopyAndBankSteps_copy :
    let s := wk (.copy aCopy)
    let late : CopyReq := { aCopy with started := true, next := 1, again := [(0, 0x10000, 4)] }
    let resumed : CopyReq := { aCopy with started := true, next := 1, aside := [(0, 0x10000, 4)] }
    let r : State := { s with work := [⟨6, 0, .copy resumed, none⟩, ⟨7, 0, .copyResume 6 1 0x10, none⟩] }
    let into : CopyReq := { aCopy with kind := .cpyin, started := true, next := 1, moved := [(0, 0x10000, 4092, 5)] }
    let drained : CopyReq := { aCopy with started := true, next := 1 }
    let done : CopyReq := { drained with written := some 0 }
    s.copyNext 0 = some (7, aCopy) ∧ aCopy.kind = .cpyout ∧ aCopy.early = [] ∧ s.Unmetered 0 1 ∧ s.team 1 = some (fetchTeam 0 0) ∧ aCopy.next = 0 ∧ aCopy.perRow = 1 ∧ aCopy.again = [] ∧
      aCopy.flit 0 0 = [(0, 0x10000, 4)] ∧ s.OutPlaces aCopy outPage [(0, 0x10000, 4)] ∧ (wk (.copy late)).copyNext 0 = some (7, late) ∧ late.again ≠ [] ∧
      r.findWork 7 = some ⟨7, 0, .copyResume 6 1 0x10, none⟩ ∧ r.findWork 6 = some ⟨6, 0, .copy resumed, none⟩ ∧ resumed.isDsm = false ∧ resumed.asid = 1 ∧ r.faulting 0 1 0x10 = false ∧
      r.engineWalks resumed.engine 0x10 = false ∧ resumed.fromLocal = true ∧ pageOf 0x10000 = 0x10 ∧
      State.ServedBy State.copyReady (wk (.copy into)) 7 (.copy into) ∧ into.written = none ∧ ((wk (.copy into)).copyDue into).map (·.1) = some 63 ∧ Canon 0 (fetchTeam 0 0).spad ∧
      (∀ p ∈ into.moved, p.2.2.1 % 4 = 0) ∧ (into.moved.map (·.2.2.1)).Nodup ∧ (fetchTeam 0 0).sus.st = .present ∧
      State.ServedBy State.copyReady (wk (.copy drained)) 7 (.copy drained) ∧ (wk (.copy drained)).copyDue drained = none ∧
      State.ServedBy State.copyReady (wk (.copy done)) 7 (.copy done) ∧ done.psn = none ∧ done.fault = none ∧ (fetchTeam 0 0).gid readG.idx = 0 ∧
      ({ done with fault := some (5, 0x10000) }).fault = some (5, 0x10000) ∧ readG.halted = false ∧ ∀ p ∈ readG.pend, p.code ≠ 0x11 :=
  ⟨by decide, rfl, rfl, .inr ⟨rfl, fun c h => by rw [← Option.some.inj (show some freshCtx = some c from h)]; rfl⟩, rfl, rfl, rfl, rfl, by decide, fun p hp => by rw [List.mem_singleton.1 hp]; exact ⟨_, rfl⟩, by decide, by decide,
    rfl, rfl, rfl, rfl, by decide, by decide, rfl, rfl, ⟨0, rfl, by decide, by decide⟩, rfl, by decide, by decide, by decide, by decide, rfl, ⟨0, rfl, by decide, by decide⟩, by decide,
    ⟨0, rfl, by decide, by decide⟩, rfl, rfl, rfl, rfl, rfl, by decide⟩

/-- One queued operation that its unit takes next, and one that is complete. -/
def opOf (k : MKind) : MOp := ⟨3, 0, k, 0, 0, 0, 0, false, none, none, [], [], 0, none, [], none⟩
def opG (m : MOp) : Group := { g0 with mq := [m] }
def opS (m : MOp) : State := { barS (opG m) {} with teams := [(1, fetchTeam 0 0)], clusters := [(0, aCluster)], cores := [(0, { freshCore with tlb := pages })], lines := [(1024, sline [])] }
theorem witness_MatrixSteps :
    let mma := opOf (.mma .f8 none 0 64 0 false 64 1 1 1 0 0)
    let ldb := opOf (.mldb 0x10000 0 64 1 64)
    let noK := opOf (.mma .f8 none 0 64 0 false 64 1 1 0 0 0)
    let done := { opOf (.mzero 1) with started := true, endAt := some 0 }
    let parked := { opOf (.mldb 0x30000 0 64 1 64) with parked := some 0x30 }
    (opS (opOf (.mzero 16))).Takes 0 false 0 (opG (opOf (.mzero 16))) (opOf (.mzero 16)) ∧ Canon 0 ((opS mma).hc 0).slots ∧
      (opS (opOf (.maccAdd 1))).Takes 0 false 0 (opG (opOf (.maccAdd 1))) (opOf (.maccAdd 1)) ∧
      (opS mma).Takes 0 false 0 (opG mma) mma ∧ mma.sub = 0 ∧ mma.step = 0 ∧ mma.early = [] ∧ (opS mma).clusterOf (opG mma) = some aCluster ∧ (opS mma).teamAt aCluster 0 = some (1, fetchTeam 0 0) ∧
      (opS mma).NoCopies 1 ∧ (opS noK).Takes 0 false 0 (opG noK) noK ∧
      (opS ldb).Takes 0 true 0 (opG ldb) ldb ∧ (opS ldb).placeOf ⟨0, 1, false, .mx⟩ 0x10000 .read false false = (opS ldb, .at 0x10000 false) ∧ lineIsFar 1024 = false ∧ (opS ldb).NothingLands 1024 ∧
      (opS ldb).sline (sliceOf 0 1024) 1024 = some (sline []) ∧ Canon 0 ((opS ldb).hc 0).bstore ∧ Canon Config.freshDesc ((opS ldb).hc 0).bdesc ∧ (withG g0).unitReady 0 false = false ∧
      (opS done).findOp 3 = some (0, opG done, done) ∧ (opS done).opDone 0 done = true ∧ ({ opG done with quires := [⟨0, true, 0⟩], park := .sleep 0 9, nextQuire := 1 }).quireIssued 0 = true ∧
      (opS parked).findOp 3 = some (0, opG parked, parked) ∧ parked.parked = some 0x30 ∧ (opS parked).faulting 0 1 0x30 = false ∧ (opS parked).engineWalks ⟨0, 1, false, .mx⟩ 0x30 = false ∧ (fetchTeam 0 0).inImage = false ∧ (opG done).halted = false ∧ (opS done).opReleased 0 (opG done) done = false :=
  ⟨⟨by decide, by decide, rfl, by decide⟩, by decide, ⟨by decide, by decide, rfl, by decide⟩, ⟨by decide, by decide, rfl, by decide⟩, rfl, rfl, rfl, rfl, by decide, fun _ h => absurd h List.not_mem_nil,
    ⟨by decide, by decide, rfl, by decide⟩, ⟨by decide, by decide, rfl, by decide⟩, rfl, by decide, fun _ h => absurd h List.not_mem_nil, rfl, by decide, by decide, by decide, rfl, by decide, by decide, rfl, rfl, by decide, by decide, rfl, rfl, by decide⟩
/-! Suspension, the debug block, clocks and parts, security and links; the whole machine. -/

/-- A context that asks in every domain; a team that is being saved, is saved, and is coming back. -/
def asks64 : Ctx := { freshCtx with req := List.range 64 }
def ctxS (c : Ctx) (ts : List (Nat × Team)) : State := { s0 with ctxs := [(1, c)], teams := ts, groups := [], now := 9999 }
def teamAt (u : Suspend) : Team := { fetchTeam 0 0 with sus := { u with shadow := 0x400000 } }
def savedKey : Suspend := { st := .absent, key := 2 ^ 33, dawnAsked := true }
def held0 : Tbl Hc := [(0, { freshHc with holder := some 5 })]
def accWork (started : Bool) : Work := ⟨7, 0, .accSave 0 started, none⟩
def accS (t : Team) (started : Bool) : State :=
  { ctxS freshCtx [(1, t)] with work := [accWork started], hcs := held0, clusters := [(5, ⟨2 ^ 32, 1, 0, 0, 1, 1, 0, 1, [1], List.replicate 4 {}, [], false, 0⟩)] }
def arrS (t : Team) (a : Arrival) : State := { ctxS freshCtx [(1, t)] with work := [⟨7, 0, .arrival 9 1 0 a, none⟩], uid := 9 }
theorem witness_SuspensionSteps :
    let user : MmioAcc := ⟨.core 0, false, 1⟩
    let spine := { freshCtx with spine := [(0, 99)] }
    let save := teamAt { st := .saving 3 }
    let young := teamAt { st := .saving 3, start := 9999 }
    let away := teamAt { st := .absent, key := 2 ^ 33, accImg := 0x800000 }
    let back := teamAt { st := .restoring 5 }
    (ctxS asks64 []).ctx 1 = some asks64 ∧ user.priv = false ∧ user.asid = 1 ∧ (maskDoms 0).filter (fun d => !asks64.req.contains d) = [] ∧
      (maskDoms 0).filter (fun d => !freshCtx.req.contains d) ≠ [] ∧ (ctxS freshCtx []).Empty 1 freshCtx (maskDoms 0) ∧ (∀ d ∈ maskDoms 0, d ∉ freshCtx.req) ∧
      (∃ d ∈ maskDoms 0, d ∈ asks64.req) ∧ (ctxS asks64 []).Empty 1 asks64 (maskDoms 0) ∧
      (tget (ctxS freshCtx []).nodes 99).bind (ctxS freshCtx []).spineChoice ≠ some (1, 0) ∧
      (spine.spine.find? fun x => x.1 == 0 && (ctxS spine [(1, teamAt savedKey)]).spineOver 1 0 x.2) = some (0, 99) ∧ (0 ∉ spine.req) ∧ (∀ x ∈ spine.spine, x.1 = 0 → x = (0, 99)) ∧
      (teamAt savedKey).sus.st = .absent ∧
      (ctxS freshCtx [(1, teamAt {})]).saveOver 1 (teamAt {}) = false ∧ (ctxS freshCtx [(1, save)]).saveOver 1 save = true ∧ save.sus.key = 0 ∧
      (∀ i, i < save.slots.length → save.gid i < 2 ^ 32) ∧
      State.ServedBy State.divertReady (arrS away (.spad 0 [1])) 7 (.arrival 9 1 0 (.spad 0 [1])) ∧ away.sus.st = .absent ∧ save.isSaving = true ∧ save.sus.entry = none ∧ (arrS young (.spad 0 [1])).rowSaved young (.spad 0 [1]) = false ∧ young.isSaving = true ∧ State.ServedBy State.divertReady (arrS young (.spad 0 [1])) 7 (.arrival 9 1 0 (.spad 0 [1])) ∧ (arrS save (.spad 0 [1])).inFlight 1 save ≠ 0 ∧
      (∃ i g a b, (i, g) ∈ ({ ctxS freshCtx [(1, save)] with groups := [(0, entryG)] } : State).teamGroups save ∧ g.park = .entry a b) ∧
      State.ServedBy State.divertReady (arrS save (.spad 0 [1])) 7 (.arrival 9 1 0 (.spad 0 [1])) ∧
      State.ServedBy State.bufferReady (arrS back (.spad 0 [1])) 7 (.arrival 9 1 0 (.spad 0 [1])) :=
  ⟨rfl, rfl, rfl, by decide, by decide, ⟨rfl, by decide⟩, by decide, ⟨0, by decide, by decide⟩, ⟨rfl, by decide⟩, by decide, by decide, by decide, by decide, rfl, by decide, by decide, rfl,
    by decide, ⟨0, rfl, by decide, by decide⟩, rfl, by decide, rfl, by decide, rfl, ⟨0, rfl, by decide, by decide⟩, by decide, ⟨0, entryG, _, _, List.mem_singleton.2 rfl, rfl⟩, ⟨0, rfl, by decide, by decide⟩, ⟨0, rfl, by decide, by decide⟩⟩

theorem witness_SuspensionSteps_acc :
    let away := teamAt { st := .absent, key := 2 ^ 33, accImg := 0x800000 }
    let finds := fun (s : State) (w : Work) => (s.work.find? fun w => (match w.job with
      | .accSave x _ => x == 0
      | _ => false) && s.accReady w && decide (w.due ≤ s.now)) = some w
    finds (accS away false) (accWork false) ∧ finds (accS away true) (accWork true) ∧ finds (accS (teamAt {}) false) (accWork false) ∧
      ((accS away true).hc 0).holder = some 5 ∧ (accS (teamAt {}) false).clusterAway 5 = false ∧ (accS away true).clusterAway 5 = true ∧
      (ctxS freshCtx [(1, teamAt savedKey)]).dawnCan (teamAt savedKey) = true ∧
      (ctxS freshCtx [(1, teamAt { st := .restoring 5 })]).dawnOver (teamAt { st := .restoring 5 }) = true ∧ (ctxS freshCtx []).reasonHolds 1 0 = false ∧
      (ctxS freshCtx [(1, teamAt {})]).dawnCan (teamAt {}) = false ∧ (ctxS freshCtx [(1, teamAt {})]).dawnOver (teamAt {}) = false :=
  ⟨by decide, by decide, by decide, rfl, by decide, by decide, by decide, by decide, by decide, by decide, by decide⟩
/-- Core 0 of domain 0 alone is good, and a team of context 2, whose priority is lower, has all its granules; a node of context 1 waits for it. -/
def spineS : State :=
  { s0 with
    wafer := { freshWafer with cores := (List.range 64).map fun d => (d, if d = 0 then (List.range 143).map (· + 1) else List.range 144) }
    nodes := [(2 ^ 32, { nodeOf' 0 (.ready 0) with teams := 1 })], ctxs := [(1, { freshCtx with prio := 1 }), (2, { freshCtx with prio := 0, preempt := true, save := 0x100000, savesz := 2000 })],
    teams := [(1, { fetchTeam 0 0 with asid := 2, spGran := 3072 })] }
theorem witness_SuspensionSteps_spine :
    (tget spineS.nodes (2 ^ 32)).bind spineS.spineChoice = some (2, 0) ∧ spineS.planImages 2 (spineS.duskTeams 2 0 false) = some [(1, 0x100000)] ∧
      (([(1, 0x100000)] : List (Nat × Nat)).map (·.1)).Nodup := ⟨by decide +kernel, by decide +kernel, by decide⟩
/-- Debugging enabled and sampling on; a double-faulted group, its record held or its team halted. -/
def dbgS (g : Group) (v : Word) : State := { withG g with ctxs := [(1, { freshCtx with dbgctl := v })] }
def deadG : Group := { g0 with park := .dead }
def deadAt : State := { saveState true with groups := [(0, { deadG with level := true })] }
def watchV (lines slot : Nat) : BitVec 128 := BitVec.ofNat 128 (slot * 2 ^ 57 + (lines - 1) * 2 ^ 51 + 0x10000)
def watchS (w : Watch) : State := { withG g0 with cores := [(0, { freshCore with tlb := pages, watch := w :: List.replicate 3 {} })], work := [⟨7, 0, .watchReport 0 0 64 1 0 none 0, none⟩] }
theorem witness_DebugSteps :
    let s := dbgS g0 3
    let all : BitVec 64 := 0xC000
    (dbgS g0 0).debugOn 1 = false ∧ s.ctx 1 = some { freshCtx with dbgctl := 3 } ∧ s.debugOn 1 = true ∧ s.groups.Pairwise (fun a b => a.1 < b.1) ∧ s.group 0 = some g0 ∧
      (all.getLsbD 15 = true ∧ s.asidOf g0 = 1 ∧ g0.retired = false ∧ all.getLsbD 14 = true) ∧ (0x8000#64).toNat % 2 ^ 8 = cidSite (gidCid 0) ∧ (0x4000#64).getLsbD 15 = false ∧
      s.namedGroups 1 0 0 = [(0, g0)] ∧ g0.park ≠ .dead ∧ (dbgS deadG 1).namedGroups 1 0 0 = [(0, deadG)] ∧ deadG.park = .dead ∧
      ({ dbgS deadG 1 with doms := [(0, { freshDom 0 with held := [{ record 0 with gid := some 0 }] })] }).recordHeld 0 = true ∧ ({ deadG with halted := true }).halted = true ∧
      deadG.halted = false ∧ (dbgS deadG 1).recordHeld 0 = false ∧ (dbgS deadG 1).team deadG.team = some (fetchTeam 0 0) ∧
      (dbgS g0 0).toSample 0 = [] ∧ s.toSample 0 = [(0, g0)] ∧ s.team g0.team = some (fetchTeam 0 0) ∧ g0.sched.lastStop = none ∧
      isDcc 0 = false ∧ ((watchS {}).core 0).watch.length = 4 ∧ (watchS {}).group (gidOf 0 1) = none ∧ (watchS {}).group (gidOf 0 0) = some g0 ∧
      64 * ((watchV 1 0).toNat / 2 ^ 6 % 2 ^ 42) % 4096 / 64 + ((watchV 1 0).toNat / 2 ^ 51 % 2 ^ 6 + 1) ≤ 64 ∧
      (watchS {}).tlbHit 0 ((watchS {}).asidOf g0) (pageOf (64 * ((watchV 1 0).toNat / 2 ^ 6 % 2 ^ 42))) .read true = some (.ok 0x10000 true false false) ∧
      (((watchS { installing := some 0 }).core 0).watch.getD 0 {}).installing = some 0 ∧ (((watchS { installing := some 9 }).core 0).watch.getD 0 {}).installing = some 9 ∧
      (watchS {}).findWork 7 = some ⟨7, 0, .watchReport 0 0 64 1 0 none 0, none⟩ ∧ (({} : Watch).armed = false ∧ ({ armed := true } : Watch).armed = true) ∧ (∀ p ∈ g0.pend, p.code ≠ 0x22) :=
  ⟨rfl, rfl, by decide, by decide, rfl, by decide, by decide, by decide, by decide, by decide, by decide, rfl, by decide, rfl, rfl, by decide, rfl, by decide, by decide, rfl, rfl, by decide, rfl, rfl, rfl,
    by decide, by decide, rfl, rfl, rfl, by decide, by decide⟩

/-- A range that ends past its page: 64 lines from 0x10040 on. -/
theorem witness_DebugSteps_range : let v : BitVec 128 := BitVec.ofNat 128 (63 * 2 ^ 51 + 0x10040)
    64 < 64 * (v.toNat / 2 ^ 6 % 2 ^ 42) % 4096 / 64 + (v.toNat / 2 ^ 51 % 2 ^ 6 + 1) := by decide

theorem witness_DebugSteps_return :
    let s := deadAt
    let g : Group := { deadG with level := true }
    let at' := fun (o n : Nat) => leVal (slice (s.coreRead 0 (2 ^ 47 + 2 ^ 44 + 8) 0xC8).2 (o - 8) n)
    s.namedGroups 1 0 0 = [(0, g)] ∧ s.group 0 = some g ∧ g.retired = false ∧ g.park = .dead ∧ g.halted = false ∧ s.recordHeld 0 = false ∧
      s.translate 0 (s.asidOf g) (pageOf g.tsa.toNat) .read g.priv = (s, .ok (2 ^ 47 + 2 ^ 44) true false false) ∧
      s.areaCheck g 0 (s.asidOf g) (2 ^ 47 + 2 ^ 44) .read = none ∧ s.saveBusy 0 (2 ^ 47 + 2 ^ 44) = false ∧
      at' 0x14 4 ≠ 0 ∧ at' 0x08 8 % 4 = 0 ∧ at' 0x08 8 < 2 ^ 48 :=
  ⟨by decide, rfl, rfl, rfl, rfl, by decide, rfl, by decide, by decide, by decide, by decide, by decide⟩
/-- Sensors of domain 0 at 20 degrees, and one of its DRAM at 90; parts that are retiring, with a team on core 0 and none on core 1. -/
def warm (x : BitVec 8) (die : BitVec 8) : State := { ctxS freshCtx [(1, fetchTeam 0 0)] with hcs := [(0, { freshHc with dram := [x, 20, 20, 20], die := die })] }
def coolHcs (x : BitVec 8) : Tbl Hc := (List.range 12).map fun c => (c, { freshHc with dram := [x, 20, 20, 20] })
def retireS (l : List (Nat × Part)) : State := let s := warm 20 20; { s with wafer := { s.wafer with retiring := l } }
/-- One request of core 0 held at the core, two clocks from its slice. -/
def heldS : State := { ctxS freshCtx [] with work := [⟨7, 0, .fill 0 1024 1 false .normal, some 2⟩] }
theorem witness_PowerSteps_held :
    let w : Work := ⟨7, 0, .fill 0 1024 1 false .normal, some 2⟩
    heldS.work.filter (·.wait.isSome) = [w] ∧ (∀ x ∈ heldS.work, ∀ b fl far wts, x.job = .bankDone b fl far wts → b.owe = 0) ∧ (warm 20 20).work.filter (·.wait.isSome) = [] ∧ w.wait = some 2 ∧ w.job.requester = some (0, 1) ∧ (∀ x, heldS.ctx 1 = some x → x.bbytes ≠ 0) ∧
      (1 : Word).getLsbD 0 = true ∧ (0 : Word).getLsbD 0 = false :=
  ⟨rfl, (fun x hx b fl far wts hj => by rw [List.mem_singleton.1 hx] at hj; cases hj), rfl, rfl, rfl, fun x h => by rw [← Option.some.inj (show some freshCtx = some x from h)]; decide, by decide, by decide⟩

theorem witness_PowerSteps :
    let user : MmioAcc := ⟨.port 0, false, 1⟩
    let slow := { warm 20 20 with doms := [(0, { freshDom 0 with powctl := true, refLen := 5850 })] }
    (1 < 2 ^ 16 ∧ user.priv = false ∧ user.asid ≠ 2 ∧ user.asid = 1 ∧ user.req = .port 0) ∧ (warm 20 20).ctx 1 = some freshCtx ∧ freshCtx.energy < 2 ^ 64 ∧
      (∀ p ∈ (warm 20 20).ctxs, p.2.throttle = []) ∧ (63 < 64 ∧ 11 < 12 ∧ 64 ≤ 64 ∧ 12 ≤ 12) ∧
      (slow.dom 0).powctl = true ∧ ((warm 20 20).dom 0).powctl = false ∧ (0xFFFF0000 : Word).toNat % 2 ^ 16 = 0 ∧ (1 : Word).toNat % 2 ^ 16 ≠ 0 ∧
      112 ≤ ((warm 20 112).hc (12 * 0 + 0)).die.toInt ∧ 100 ≤ ((warm 20 100).hc (12 * 0 + 0)).die.toInt ∧ ((warm 20 100).hc (12 * 0 + 0)).die.toInt < 112 ∧ ((warm 20 99).hc (12 * 0 + 0)).die.toInt < 100 ∧
      (warm 20 20).now < (slow.dom 0).refStart + 10000 ∧ ((warm 20 20).dom 0).refStart + ((warm 20 20).dom 0).refLen ≤ (warm 20 20).now ∧
      (∃ b ∈ (List.range 12).flatMap fun c => ((warm 86 20).hc (12 * 0 + c)).dram, 85 < b.toInt) ∧
      (∀ b ∈ (List.range 12).flatMap fun c => ((warm 83 20).hc (12 * 0 + c)).dram, b.toInt ≤ 83) ∧
      ((∀ b ∈ (List.range 12).flatMap fun c => ((warm 85 20).hc (12 * 0 + c)).dram, b.toInt ≤ 85) ∧ ∃ b ∈ (List.range 12).flatMap fun c => ((warm 85 20).hc (12 * 0 + c)).dram, 83 < b.toInt) ∧
      (∀ p ∈ [(3, 1000)], p.1 ≠ 4 ∧ 999 < p.2) ∧
      ((retireS []).partGood 0 (.core 1) = true ∧ (0, Part.core 1) ∉ (retireS []).wafer.retiring) ∧ (retireS []).partGood 0 (.core 144) = false ∧
      ((0, Part.core 0) ∈ (retireS [(0, .core 0)]).wafer.retiring ∧ (retireS [(0, .core 0)]).partBusy 0 (.core 0) = true) ∧
      ((0, Part.core 1) ∈ (retireS [(0, .core 1)]).wafer.retiring ∧ (retireS [(0, .core 1)]).partBusy 0 (.core 1) = false) ∧
      tgetD ({ freshWafer with dramst := [(0, 2)] }).dramst 0 0 = 2 ∧ tgetD freshWafer.dramst 0 0 ≠ 2 :=
  ⟨by decide, rfl, by decide, by decide, by decide, rfl, rfl, by decide, by decide, by decide, by decide, by decide, by decide, by decide, by decide, ⟨86, by decide, by decide⟩, by decide,
    ⟨by decide, ⟨85, by decide, by decide⟩⟩, by decide, by decide, by decide, by decide, by decide, rfl, by decide⟩

/-- The clock before the end of an interval of refresh. -/
theorem witness_PowerSteps_refresh : ({ warm 20 20 with now := 5849 }).now < (({ warm 20 20 with now := 5849 }).dom 0).refStart + (({ warm 20 20 with now := 5849 }).dom 0).refLen := by decide

/-- Port 0 up with its window on the first line of domain 0's DSM. -/
def portS : State :=
  { ctxS freshCtx [] with wafer := { freshWafer with hwin := [2 ^ 47, 0, 0, 0] }, doms := [(0, { freshDom 0 with dsmsize := 1, dsmcfg := 1 })], lines := [(2 ^ 41, sline [])],
                          work := [⟨7, 0, .flush 0, none⟩], posted := [⟨3, 0, 0, 0x4000000000000, [1, 2], 1⟩] }
theorem witness_SecurityAndLinks :
    let user : MmioAcc := ⟨.core 0, false, 1⟩
    let c8 : Ctx := { freshCtx with expert := 8 }
    ((3 : Word).toNat % 4 = 3 ∧ (1 : Word).toNat % 4 ≠ 3 ∧ freshWafer.almlock = false ∧ (0 : Word).toNat % 4 ≤ freshWafer.almpol ∧ freshWafer.almpol < (1 : Word).toNat % 4) ∧
      (freshWafer.keysErased = false ∧ ({ freshWafer with keysErased := true } : Wafer).keysErased = true ∧ (leBytes 32 0).length = 32 ∧ freshWafer.unlockFails ≠ 2 ∧
        ({ freshWafer with unlockFails := 2 } : Wafer).unlockFails = 2) ∧
      portS.ctx 1 = some freshCtx ∧ portS.ctx 2 = none ∧ 2 < 2 ^ 16 ∧
      portS.isUp (.host 0) = true ∧ ({ portS with wafer := { freshWafer with hostup := 0 } }).isUp (.host 0) = false ∧ portS.inboundBase (.host 0) = 2 ^ 47 ∧
      portS.inboundOk (.host 0) (2 ^ 47 + 8) 0 false = false ∧ portS.inboundOk (.host 0) (2 ^ 47 + 8) 4 true = true ∧ portS.inboundOk (.host 0) (2 ^ 47 + 8) 4 false = true ∧ portS.inboundOk (.host 0) (2 ^ 47 + 8) 0 true = false ∧
      (2 ^ 47 + 8) / 64 = 2 ^ 41 ∧ lineIsDsm (2 ^ 41) = true ∧ portS.NothingLands (2 ^ 41) ∧ portS.dir (2 ^ 41) = none ∧ (∀ w ∈ portS.wafer.scOpen, w.2 ≠ 2 ^ 41) ∧
      portS.sline (lineHome (2 ^ 41)) (2 ^ 41) = some (sline []) ∧ (sline []).data.length = 64 ∧ poisoned (sline []).desc = false ∧ (2 ^ 47 + 8) % hostAtomBytes (.add32 1) = 0 ∧
      (2 ^ 47 + 2) % hostAtomBytes (.add32 1) ≠ 0 ∧
      portS.flushNext 1 = none ∧ portS.flushNext 0 = some ⟨7, 0, .flush 0, none⟩ ∧ portS.posted.filter (fun p => p.port == 0 && decide (p.id < 7)) = portS.posted ∧ Memory.wf portS.mem ∧
      portS.isUp (.link 31) = true ∧ portS.isUp (.link 32) = false ∧ ({ portS with wafer := { freshWafer with linkup := 0 } }).isUp (.link 31) = false ∧ portS.wafer.lfail.length = 32 ∧
      (mmioCheck 1 0x100 4 false).isSome = true ∧ 2 % 4 ≠ 0 ∧ freshCtx.bslots < 2 ^ 32 ∧ user.asid = 1 ∧ c8.expert.testBit 3 = true ∧ freshCtx.expert.testBit 3 = false ∧
      (mmioCheck 0 0x100 4 true = none ∧ 0x100 % 4 = 0 ∧ (mmioCheck 0 0x100 2 true).isSome = true ∧ 0x102 % 4 ≠ 0) ∧
      portS.group (gidOf (cidOf 0 144) 0) = none ∧ (dccS dcc0 []).group (gidOf (cidOf 0 144) 1) = some dcc0 :=
  ⟨by decide, by decide, rfl, rfl, by decide, by decide, by decide, rfl, by decide, by decide, by decide, by decide, by decide, by decide, fun w hw => by rw [List.mem_singleton.1 hw]; exact ⟨(fun _ _ _ h => by cases h), (fun _ _ h => by cases h)⟩, rfl, fun _ h => absurd h List.not_mem_nil, rfl, by decide, by decide, by decide, by decide, by decide, by decide, by decide, by decide, by decide, by decide, by decide, rfl, by decide, by decide, by decide, rfl, by decide, by decide, by decide, rfl, rfl⟩

theorem witness_StepKeepsSound : s0.Sound ∧ ∃ t, step s0 = .next t := by
  refine ⟨⟨?_, by decide, by decide, ?_, by decide, by decide⟩, ?_⟩
  · simp only [State.Shaped, Group.Shaped, Rising]; decide
  · simp only [Group.Sane]; decide
  · have h : (match step s0 with
      | .next _ => true
      | _ => false) = true := by decide
    revert h
    cases step s0 with
    | next t => exact fun _ => ⟨t, rfl⟩
    | fault _ => intro h; cases h
    | refused _ => intro h; cases h

theorem witness_DecodeEncode :
    (∃ i w, Instr.wf i = true ∧ encode i = some w ∧ decode i.onDcc w = .ok i) :=
  ⟨.icmp .ltS ⟨plainHdr, regDst .pred 2, regSrc .vec 3, .i 100⟩, 0x252380401000030300000064, by decide, by decide, by decide⟩

theorem witness_SpecWordsDecode :
    assigned ((0xFF0000000000000000000000 : BitVec 96).extractLsb' 88 8).toNat = false ∧
      (0xE0 ≤ ((0xE00000000000000000000000 : BitVec 96).extractLsb' 88 8).toNat ∧ ((0xE70000000000000000000000 : BitVec 96).extractLsb' 88 8).toNat ≤ 0xE7) ∧
      notOnDccOp ((0xA00000000000000000000000 : BitVec 96).extractLsb' 88 8).toNat = true := by decide
/-- ICMP.lt.s p2,v3,100 where withFetchWord places it, and an opcode of a DCC on a core. -/
def stepS (w : Nat) : State := State.reset.withFetchWord 96 w
def go? (s : State) : Option Instr :=
  match s.fetched 0 g0 with
  | .code bs _ => match decode false (wordOfBytes bs) with
    | .ok i => some i
    | .error _ => none
  | _ => none
def goes (s : State) (i : Instr) (f : IssueForm) : Bool :=
  match s.decodedTurn 0 g0 i f [] with
  | .go j _ _ => decide (j = i)
  | _ => false
theorem witness_StepRunsInstruction :
    let s := stepS 0x252380401000030300000064
    let i : Instr := .icmp .ltS ⟨plainHdr, regDst .pred 2, regSrc .vec 3, .i 100⟩
    s.wafer.halted = false ∧ s.before = none ∧ s.groups.filter (fun p => decide (p.1 < 2 ^ 32)) = [(0, g0)] ∧ s.mayIssue 0 g0 = true ∧ g0.sched.bad = false ∧ g0.pend = [] ∧
      g0.replays = none ∧ go? s = some i ∧ (issueForm i).isSome = true ∧ (∀ f ∈ issueForm i, goes s i f = true ∧ s.turns.contains (portKey 0 (onM 0 f)) = false) ∧ g0.sched.fresh = false ∧ (∀ f ∈ issueForm i, g0.meets f = false) :=
  ⟨rfl, by decide, by decide, by decide, rfl, rfl, rfl, by decide, by decide, by decide, rfl, by decide⟩
/-- A parked load whose pages have come issues again without a fetch; a group whose line of code is at hand. -/
theorem witness_StepRunsInstruction_replay :
    let i : Instr := .ld .b32 memo
    let g : Group := { memG 0x10000 with acc := some ⟨1, List.replicate 32 0x10000, [], [], [], false, 0, [], none, none, []⟩, held := some i }
    g.replays = some i ∧ g0.replays = none ∧ (stepS 0).heldBy (gidCid 0) ((stepS 0).asidOf g0) = false :=
  ⟨by decide, rfl, by decide⟩
theorem witness_StepRunsInstruction_issue :
    (match (stepS 0x252380401000030300000064).nextTurn with
      | .issue i t => decide (i = .icmp .ltS ⟨plainHdr, regDst .pred 2, regSrc .vec 3, .i 100⟩) && t.cur == 0
      | _ => false) = true := by decide
theorem witness_StepRunsInstruction_bad :
    let s := stepS 0x0F0000000000000000000000
    s.wafer.halted = false ∧ s.before = none ∧ s.mayIssue 0 g0 = true ∧ (match s.fetched 0 g0 with
      | .code bs _ => match decode false (wordOfBytes bs) with
        | .error .unassignedOpcode => true
        | _ => false
      | _ => false) = true := ⟨rfl, by decide, by decide, by decide⟩
/-! Single steps. Expected values come from the worked examples of the spec, or from its rules by hand. -/

/-- Lane l of vector register r once the instruction's result has landed, from a group whose v4 and v6 hold the same word in every lane. -/
def vec (i : Instr) (a b : Word) (r l : Nat) : Option Word :=
  match exec i (withG { g0 with vregs := [(4, List.replicate 32 a), (6, List.replicate 32 b)] }) with
  | .next t => (t.group 0).map fun g => lane (g.landAndDrain.bankLanes (.vec r)) l
  | .fault _ => none
  | .refused _ => none
/-- The group after an instruction. -/
def after (i : Instr) (g : Group) : Option Group :=
  match exec i (withG g) with
  | .next t => t.group 0
  | .fault _ => none
  | .refused _ => none
def imm8 (w : Word) : Alu := { alu8 with x := .i w }

-- R70, R106: sums wrap; the unsigned clamp of R26 stops at the ends
theorem test_iadd_wraps : vec (.iadd .s32 alu8) 0xFFFFFFFF 2 8 31 = some 1 := by decide
theorem test_isub_borrows : vec (.isub .u32 alu8) 1 2 8 0 = some 0xFFFFFFFF := by decide
theorem test_imulhi_signed : vec (.imulhi .s32 alu8) 0xFFFFFFFF 2 8 5 = some 0xFFFFFFFF := by decide
theorem test_imulhi_unsigned : vec (.imulhi .u32 alu8) 0xFFFFFFFF 2 8 5 = some 1 := by decide
-- R110: a count of 32 or more
theorem test_shl_by_32 : vec (.shl .asGiven (imm8 32)) 1 0 8 0 = some 0 := by decide
theorem test_shl_wrap : vec (.shl .wrap (imm8 33)) 1 0 8 0 = some 2 := by decide
theorem test_sar_by_40 : vec (.sar .asGiven (imm8 40)) 0x80000000 0 8 0 = some 0xFFFFFFFF := by decide
-- R112: eight bits from 4 on, the top one set; a field that runs past bit 31
theorem test_bfe_signed : vec (.bfe .s32 (imm8 0x0804)) 0xF80 0 8 3 = some 0xFFFFFFF8 := by decide
theorem test_bfe_top : vec (.bfe .s32 (imm8 0xFF1C)) 0x80000000 0 8 3 = some 0xFFFFFFF8 := by decide
theorem test_clz_of_zero : vec (.clz .only alu8) 0 0 8 0 = some 32 := by decide
-- R116, R120, R121
theorem test_lea : laneLea ⟨true, 2⟩ 0x100000000 0xFFFFFFFF = 0xFFFFFFFC := by decide
theorem test_prmt : lanePrmt 0x03020180 0x07060504 0x7408 = 0x070480FF := by decide
theorem test_dp4 : laneDp4 .s8u8 0x000000FF 0x000000FF 1 = 0xFFFFFF02 := by decide
-- R122: 1.5 + 2.25, and 2^24 + 1 of R69's example rounds to even with INX
theorem test_fadd : vec (.fadd .f32 alu8) 0x3FC00000 0x40100000 8 9 = some 0x40700000 := by decide
theorem test_fadd_tie : laneFadd .f32 .rne (regDst .vec 8) 0x4B800000 0x3F800000 = (0x4B800000, flInx) := by decide
theorem test_fdiv_by_zero : laneFdiv .rne (regDst .vec 8) 0xBF800000 0 = (0xFF800000, flDbz) := by decide
-- R124: every condition but .ne and .nan is false with a NaN
theorem test_fcmp_nan : laneFcmp .le 0x7FC00000 0 = false ∧ laneFcmp .ne 0x7FC00000 0 = true ∧ laneFcmp .eq 0x80000000 0 = true := by decide
-- R69's example: the accumulator's three steps
theorem test_sum_order : sumElem 0 [(0, f32 0x4B800000, f32 0x3F800000, 0), (1, f32 0x3F800000, f32 0x3F800000, 0), (2, f32 0xCB800000, f32 0x3F800000, 0)] = (0, flInx) := by decide
-- R63's text: 455.0 to F8E4 is 448 with INX alone; R132, R133: exact powers of two
theorem test_f8e4_of_455 : encodeF fmtF8E4 .rne (f32 0x43E38000) = (0x7E, flInx) := by decide +kernel
theorem test_exp2 : laneExp2 (regDst .vec 8) 0xC0400000 = (0x3E000000, 0) := by decide +kernel
theorem test_log2 : laneLog2 (regDst .vec 8) 0x3E000000 = (0xC0400000, 0) := by decide +kernel
-- R138's example, and R52's with the descriptor scale 0x7E
def eight : Nat → Word := fun i => [0x41A00000, 0x40000000, 0, 0x40500000, 0x40A00000, 0xBECCCCCD, 0xC1100000, 0x3F800000].getD i 0
theorem test_packq : lanePackq .q4x .rne eight = (0x1F053A58, flInx ||| flSat) := by decide
theorem test_unpkq : (List.range 8).map (fun k => (laneUnpkq .q4x (regDst .vec 8) 0x1F053A58 (wordOf k)).1) =
    [0x41A00000, 0, 0, 0x40400000, 0x40A00000, 0, 0xC0E00000, 0x3F800000] := by decide
theorem test_q4x_line : ((List.range 8).map fun i => (encodeF fmtF32 .rne ((lineElem .q4x [0x48, 0x3C, 0x85, 0x1F] i).scale (0x7E - 127))).1) =
    [0x40400000, 0, 0, 0x3FC00000, 0x40200000, 0, 0xC0600000, 0x3F000000] := by decide
-- R33's example: lane 6 of .rot(8,3) reads lane 1
theorem test_rot : permLane ⟨.rot, 2, 3⟩ 6 = 1 := by decide
-- R140, R141
theorem test_shfl_up : shflLane .up 3 4 = 3 ∧ shflLane .up 4 4 = 0 ∧ shflLane .down 28 4 = 28 ∧ shflLane .xor 5 33 = 4 := by decide
theorem test_vote : voteOut .ballot 0xE [1, 1, 0, 7] = 0xA ∧ voteOut .uni 0xA [1, 1, 0, 7] = 0xFFFFFFFF := by decide
-- R163's example: four lanes add one to a word that holds ten
def tens : List AtomLane := (List.range 4).map fun l => ⟨l, 0x10000, 1, 0⟩
theorem test_atom_lanes : let r := atomApply (.op .addU32) false (leBytes 64 10) tens
    leVal (slice r.1 0 4) = 14 ∧ r.2.map (fun x => (x.1, x.2.1.getD 0 0)) = [(0, 10), (1, 11), (2, 12), (3, 13)] := by decide
-- R4's example, and R251's: core site 0 of domain 9 to bank 63 of domain 11
theorem test_dram_home : lineHome (0x29000001000 / 64) = 41 := by decide
theorem test_transit : bankSite 63 = 117 ∧ transit 9 0 11 117 = 11 := by decide

-- R91's trace, iteration 2: IF, BREAK, ELSE, CONT, ENDIF, ENDLOOP in lanes 0-3
def traceG (c : List Byte) (p : LaneMask) : Group := { g0 with exm := 0xF, cnt := c ++ List.replicate 28 0, preds := p :: List.replicate 6 0 }
def cntAfter (i : Ctl → Instr) (ofs : BitVec 16) (c : List Byte) (p : LaneMask) : Option (List Byte) :=
  (after (i { ctl with hdr := { plainHdr with guard := ⟨false, false, if p = 0 then 7 else 0⟩ }, q := ofs }) (traceG c p)).map fun g => g.cnt.take 4
theorem test_if : cntAfter .ifi 2 [2, 0, 0, 0] 0x4 = some [3, 1, 0, 1] := by decide
theorem test_break : cntAfter .breaki 1 [3, 1, 0, 1] 0x4 = some [3, 1, 3, 1] := by decide
theorem test_else : cntAfter .elsei 3 [3, 1, 3, 1] 0 = some [3, 0, 3, 0] := by decide
theorem test_cont : cntAfter .cont 1 [3, 0, 3, 0] 0x8 = some [3, 0, 3, 2] := by decide
theorem test_endif : cntAfter .endif 0 [3, 0, 3, 2] 0 = some [2, 0, 2, 1] := by decide
theorem test_endloop : cntAfter .endloop 0xFFF9 [2, 0, 2, 1] 0 = some [2, 0, 2, 0] := by decide
-- R128, R129: RSQ(64) is 1/8
theorem test_rsq : laneRsq (regDst .vec 8) 0x42800000 = (0x3E000000, 0) := by decide +kernel
-- R122: 1.5 * 2 + 0.25
theorem test_ffma : laneFfma .f32 (regDst .vec 8) 0x3FC00000 0x40000000 0x3E800000 = (0x40500000, 0) := by decide
end Sys2Proof.Tests
end

section
/-! SUPPORT. What a lane of a load delivers of a line (R153, R157-R159). -/

namespace Sys2Proof.Machine

/-! Little-endian values. -/

theorem leVal_lt (bs : List Byte) : leVal bs < 256 ^ bs.length := by
  induction bs with
  | nil => simp [leVal]
  | cons b bs ih =>
    have hb := b.isLt
    change b.toNat + 256 * leVal bs < 256 ^ (bs.length + 1)
    rw [pow_succ]
    omega

theorem leVal_slice_lt (bs : List Byte) (o n : Nat) : leVal (slice bs o n) < 256 ^ n := by
  simpa [slice] using leVal_lt (slice bs o n)

/-- The sign of a value of w bits, extended to a word as a load does. -/
theorem signExtend_ofNat_eq_wordOf (w v : Nat) (hw : w ≤ 32) (hv : v < 2 ^ w) :
    (BitVec.ofNat w v).signExtend 32 = if v ≥ 2 ^ (w - 1) then wordOf (v + 2 ^ 32 - 2 ^ w) else wordOf v := by
  have h32 : 2 ^ w ≤ 2 ^ 32 := Nat.pow_le_pow_right (by decide) hw
  apply BitVec.eq_of_toNat_eq
  rw [BitVec.toNat_signExtend, BitVec.msb_eq_decide, BitVec.toNat_setWidth, BitVec.toNat_ofNat, Nat.mod_eq_of_lt hv, Nat.mod_eq_of_lt (by omega)]
  by_cases hs : 2 ^ (w - 1) ≤ v
  · simp only [hs, decide_true, if_true, wordOf, BitVec.toNat_ofNat]
    omega
  · simp only [hs, decide_false, if_false, wordOf, BitVec.toNat_ofNat, Bool.false_eq_true]
    omega

/-! The forms of a load. -/

section
variable (img : LineImg) (o : Nat)

theorem loadLane_desc : loadLane img o .desc = ([img.desc.zeroExtend 32], 0) := by
  have hd : wordOf img.desc.toNat = img.desc.zeroExtend 32 := BitVec.eq_of_toNat_eq (by simp [wordOf])
  simp only [loadLane, hd]

/-- A poisoned line reads as zeros, with PSN (R157). -/
theorem loadLane_data_of_poisoned (h : poisoned img.desc = true) (sz : LdSz) :
    (loadLane img o (.data sz)).2 = flPsn ∧ ∀ w ∈ (loadLane img o (.data sz)).1, w = 0 := by
  cases sz <;> simp [loadLane, h, flagIf, wordOf]

variable (h : poisoned img.desc = false)
include h

/-- A single unsigned value, as long as it is stored. -/
theorem loadLane_unsigned :
    loadLane img o (.data .u8) = ([wordOf (leVal (slice img.data o 1))], 0) ∧ loadLane img o (.data .u16) = ([wordOf (leVal (slice img.data o 2))], 0) ∧
      loadLane img o (.data .b32) = ([wordOf (leVal (slice img.data o 4))], 0) := by
  simp [loadLane, h, flagIf]

theorem loadLane_s8 : loadLane img o (.data .s8) = ([(BitVec.ofNat 8 (leVal (slice img.data o 1))).signExtend 32], 0) := by
  rw [signExtend_ofNat_eq_wordOf 8 _ (by decide) (leVal_slice_lt img.data o 1)]
  simp [loadLane, h, flagIf]

theorem loadLane_s16 : loadLane img o (.data .s16) = ([(BitVec.ofNat 16 (leVal (slice img.data o 2))).signExtend 32], 0) := by
  rw [signExtend_ofNat_eq_wordOf 16 _ (by decide) (leVal_slice_lt img.data o 2)]
  simp [loadLane, h, flagIf]

theorem loadLane_b64 : loadLane img o (.data .b64) = ((List.range 2).map fun k => wordOf (leVal (slice img.data (o + 4 * k) 4)), 0) := by
  simp [loadLane, h, flagIf, List.range_succ]

theorem loadLane_b128 : loadLane img o (.data .b128) = ((List.range 4).map fun k => wordOf (leVal (slice img.data (o + 4 * k) 4)), 0) := by
  simp [loadLane, h, flagIf, List.range_succ]

/-- An index past the line's elements is invalid (R158). -/
theorem loadLane_elem_beyond (i : Word) (hi : (descFmt img.desc).count ≤ i.toNat) : loadLane img o (.elem i) = ([0], flInv) := by
  simp [loadLane, h, hi]

/-- An element is scaled and rounded to F32 (R158). -/
theorem loadLane_elem (i : Word) (hi : i.toNat < (descFmt img.desc).count) :
    let r := encodeF fmtF32 .rne ((lineElem (descFmt img.desc) img.data i.toNat).scale (lineScale img.desc))
    loadLane img o (.elem i) = ([wordOf r.1], r.2) := by
  simp [loadLane, h, Nat.not_le.2 hi]

end

/-- Settles O28, form by form. -/
theorem loadedValue : Obligations.LoadedValue := by
  unfold Obligations.LoadedValue
  intro img o
  refine ⟨loadLane_desc img o, loadLane_data_of_poisoned img o, fun h => ?_⟩
  obtain ⟨hu8, hu16, hb32⟩ := loadLane_unsigned img o h
  exact ⟨hu8, loadLane_s8 img o h, hu16, loadLane_s16 img o h, hb32, loadLane_b64 img o h, loadLane_b128 img o h,
    fun i => ⟨loadLane_elem_beyond img o h i, loadLane_elem img o h i⟩⟩

end Sys2Proof.Machine
end

section
/-! SUPPORT. A context created while a set of the home slice is full: the victim that goes home across a domain boundary is counted for another
context (R246, R354; log 93). -/

namespace Sys2Proof.Machine

/-- A line of zeros that core 0 wrote for context 1, M in slice 0. -/
def writtenLine : SLine :=
  { data := zeroLine, desc := Config.freshDesc, st := .m, wts := 0, rts := 0, epoch := false, used := 0, writer := some (0, 1) }

/-- Contexts 0 and 1 exist, and slice 0 owns the first DRAM line of each of the domains 1 to 12: they fill the twelve ways of set 0 of its bank 0, where
the first line of domain 0 belongs as well. -/
def fullSetState : State :=
  { State.reset with
    ctxs := [(0, freshCtx), (1, freshCtx)]
    lines := (List.range 12).map fun k => (lineKey 0 (2 ^ 30 * (k + 1)), writtenLine)
    dirs := (List.range 12).map fun k => (2 ^ 30 * (k + 1), { owner := some 0, sharers := [], used := 0 }) }

/-- A new context is given the first line of domain 0. -/
def firstLineInit : CtxInit := { ptroot := 0, fqbase := 0, fqmask := 63, save := 0, savesz := 0, lines := [0] }

/-- The counterexample is no malformed state. -/
theorem fullSetState_sound : fullSetState.Sound := by
  have none_of_nil {α : Type} {P : α → Prop} : ∀ x ∈ ([] : List α), P x := fun _ hx => absurd hx List.not_mem_nil
  have lines_rise : Rising fullSetState.lines := by
    unfold Rising
    decide
  exact ⟨⟨List.Pairwise.nil, none_of_nil, none_of_nil, none_of_nil, none_of_nil, lines_rise, by decide, none_of_nil⟩, by decide, by decide, none_of_nil,
    none_of_nil, none_of_nil⟩

/-- Creating context 2 counts the 64 bytes of the victim's way home for context 1. -/
theorem contextCreate_charges_other_context :
    ((stateAfter fullSetState (exec (.contextCreate 2 firstLineInit) fullSetState)).ctx 1).map (·.bytes) = some 64 := by decide

/-- Refutes O55: CONTEXT_CREATE need not leave every other context as it was. It writes the descriptors of the new context's lines at their home slice
(R58); where their set is full, a victim that goes home to another domain is counted for the context that wrote it last (R354, log 93). -/
theorem not_securityAndLinks : ¬ Obligations.SecurityAndLinks := by
  unfold Obligations.SecurityAndLinks
  intro h
  obtain ⟨-, -, contexts, -⟩ := h
  obtain ⟨-, created, -⟩ := contexts fullSetState 2 firstLineInit
  obtain ⟨t, c, ht, -, others, -⟩ := created rfl (by decide)
  have charged := contextCreate_charges_other_context
  rw [ht, stateAfter, others 1 (by decide)] at charged
  exact absurd charged (by decide)

end Sys2Proof.Machine
end

section
/-! SUPPORT. Rounding to an integer multiple of a power of two (R60): what roundAt gives is the integer that the mode names. -/

namespace Sys2Proof.Machine

/-! Lengths of numbers. -/

theorem lt_two_pow_bitLen (m : Nat) : m < 2 ^ bitLen m := by
  unfold bitLen
  split
  · omega
  · exact Nat.lt_log2_self

theorem two_pow_bitLen_le {m : Nat} (h : m ≠ 0) : 2 ^ bitLen m ≤ 2 * m := by
  rw [bitLen, if_neg h, pow_succ]
  have := Nat.log2_self_le h
  omega

theorem bitLen_eq {m w : Nat} (hlo : 2 ^ w ≤ m) (hhi : m < 2 ^ (w + 1)) : bitLen m = w + 1 := by
  have hm : m ≠ 0 := by have := Nat.two_pow_pos w; omega
  rw [bitLen, if_neg hm, (Nat.log2_eq_iff hm).2 ⟨hlo, hhi⟩]

theorem bitLen_le {m w : Nat} (h : m < 2 ^ w) : bitLen m ≤ w := by
  unfold bitLen
  split
  · omega
  · next hm => exact (Nat.log2_lt hm).2 h

/-- Equal values have their leading bits at one place. -/
theorem bitLen_add_eq {m m' : Nat} {e e' : Int} (hm : m ≠ 0) (hm' : m' ≠ 0) (h : (m : ℚ) * 2 ^ e = m' * 2 ^ e') :
    e + (bitLen m : Int) = e' + (bitLen m' : Int) := by
  have key : ∀ {a b : Nat} {x y : Int}, a ≠ 0 → (a : ℚ) * 2 ^ x = b * 2 ^ y → x + (bitLen a : Int) ≤ y + (bitLen b : Int) := by
    intro a b x y ha hab
    have hlo : (2 : ℚ) ^ (x + (bitLen a : Int)) ≤ 2 * (a * 2 ^ x) := by
      have : ((2 ^ bitLen a : Nat) : ℚ) ≤ ((2 * a : Nat) : ℚ) := Nat.cast_le.2 (two_pow_bitLen_le ha)
      push_cast at this
      rw [zpow_add₀ two_ne_zero, zpow_natCast]
      have hx : (0 : ℚ) < 2 ^ x := by positivity
      nlinarith
    have hhi : (b : ℚ) * 2 ^ y < 2 ^ (y + (bitLen b : Int)) := by
      have : (b : ℚ) < ((2 ^ bitLen b : Nat) : ℚ) := Nat.cast_lt.2 (lt_two_pow_bitLen b)
      push_cast at this
      rw [zpow_add₀ two_ne_zero, zpow_natCast]
      have hy : (0 : ℚ) < 2 ^ y := by positivity
      nlinarith
    have hlt : (2 : ℚ) ^ (x + (bitLen a : Int)) < 2 ^ (y + (bitLen b : Int) + 1) := by
      rw [zpow_add_one₀ two_ne_zero]
      linarith
    have := (zpow_lt_zpow_iff_right₀ (one_lt_two : (1 : ℚ) < 2)).1 hlt
    omega
  exact le_antisymm (key hm h) (key hm' h.symm)

/-! The integer that a mode names (R60). -/

theorem roundsInt_self (rm : Rm) (z : Int) : RoundsInt rm z z := by
  cases rm <;> simp [RoundsInt]

/-- An integer is rounded to itself in every mode. -/
theorem RoundsInt.eq_of_int {rm : Rm} {z n : Int} (h : RoundsInt rm z n) : n = z := by
  cases rm with
  | rne =>
    have hlt : |((z - n : Int) : ℚ)| < 1 := by
      push_cast
      exact lt_of_le_of_lt h.1 (by norm_num)
    rw [← Int.cast_abs] at hlt
    have : |z - n| < 1 := by exact_mod_cast hlt
    have := Int.abs_lt_one_iff.1 this
    omega
  | rz => simpa [RoundsInt] using h
  | rd => simpa [RoundsInt] using h
  | ru => simpa [RoundsInt] using h

/-- roundAt where bits are shifted out: d of them, the leading ones beyond the significand left out or not. -/
def roundShift (rm : Rm) (neg sticky : Bool) (m d : Nat) : Nat × Bool :=
  let k := m / 2 ^ d
  let rest := m % 2 ^ d
  let half := 2 ^ (d - 1)
  let inexact := rest != 0 || sticky
  let up :=
    match rm with
    | .rne => decide (half < rest) || (rest == half && (sticky || k % 2 == 1))
    | .rz => false
    | .rd => neg && inexact
    | .ru => !neg && inexact
  (if up then k + 1 else k, inexact)

theorem roundAt_of_le {rm : Rm} {neg : Bool} {m : Nat} {e q : Int} (h : q ≤ e) : roundAt rm neg false m e q = (m * 2 ^ (e - q).toNat, false) := by
  simp [roundAt, h]

/-- A shift by two bits more than the significand has gives what every longer shift gives. -/
theorem roundShift_min (rm : Rm) (neg sticky : Bool) (m d : Nat) :
    roundShift rm neg sticky m (min d (bitLen m + 2)) = roundShift rm neg sticky m d := by
  by_cases h : d ≤ bitLen m + 2
  · rw [min_eq_left h]
  · have hm := lt_two_pow_bitLen m
    have small : ∀ s, bitLen m + 2 ≤ s → m / 2 ^ s = 0 ∧ m % 2 ^ s = m ∧ decide (2 ^ (s - 1) < m) = false ∧ (m == 2 ^ (s - 1)) = false := by
      intro s hs
      have h1 : 2 ^ bitLen m ≤ 2 ^ (s - 1) := Nat.pow_le_pow_right (by decide) (by omega)
      have h2 : 2 ^ (s - 1) ≤ 2 ^ s := Nat.pow_le_pow_right (by decide) (by omega)
      exact ⟨Nat.div_eq_of_lt (by omega), Nat.mod_eq_of_lt (by omega), decide_eq_false (by omega), beq_eq_false_iff_ne.2 (by omega)⟩
    obtain ⟨k1, r1, a1, b1⟩ := small (bitLen m + 2) le_rfl
    obtain ⟨k2, r2, a2, b2⟩ := small d (by omega)
    rw [min_eq_right (by omega)]
    simp only [roundShift, k1, r1, a1, b1, k2, r2, a2, b2]

theorem roundAt_of_lt {rm : Rm} {neg sticky : Bool} {m : Nat} {e q : Int} (h : e < q) :
    roundAt rm neg sticky m e q = roundShift rm neg sticky m (q - e).toNat := by
  rw [← roundShift_min, roundAt, if_neg (Int.not_le.2 h)]
  rfl

/-- The quotient and the rest of a shift, as parts of the value. -/
theorem shift_value (m d : Nat) : (m : ℚ) / 2 ^ d = (m / 2 ^ d : Nat) + ((m % 2 ^ d : Nat) : ℚ) / 2 ^ d := by
  have hP : (0 : ℚ) < 2 ^ d := by positivity
  have hm : (m : ℚ) = 2 ^ d * (m / 2 ^ d : Nat) + (m % 2 ^ d : Nat) := by exact_mod_cast (Nat.div_add_mod m (2 ^ d)).symm
  rw [eq_comm, eq_div_iff hP.ne', add_mul, div_mul_cancel₀ _ hP.ne']
  linarith

theorem floor_shift (m d : Nat) : ⌊(m : ℚ) / 2 ^ d⌋ = (m / 2 ^ d : Nat) := by
  have := Nat.floor_div_eq_div (K := ℚ) m (2 ^ d)
  rw [← this]
  push_cast
  exact (Int.natCast_floor_eq_floor (by positivity)).symm

theorem ceil_shift (m d : Nat) : ⌈(m : ℚ) / 2 ^ d⌉ = (m / 2 ^ d : Nat) + if m % 2 ^ d = 0 then 0 else 1 := by
  have hP : (0 : ℚ) < 2 ^ d := by positivity
  have hr : ((m % 2 ^ d : Nat) : ℚ) < 2 ^ d := by exact_mod_cast Nat.mod_lt m (Nat.two_pow_pos d)
  rw [Int.ceil_eq_iff, shift_value, Int.cast_add, Int.cast_natCast]
  split
  · next h => simp only [h, Nat.cast_zero, zero_div, Int.cast_zero]; constructor <;> linarith
  · next h =>
    have h0 : (0 : ℚ) < ((m % 2 ^ d : Nat) : ℚ) := by exact_mod_cast Nat.pos_of_ne_zero h
    have h1 := div_pos h0 hP
    have h2 := (div_lt_one hP).2 hr
    rw [Int.cast_one]
    constructor <;> linarith

/-- What roundShift gives of a rest of zero is the quotient. -/
theorem roundShift_exact {rm : Rm} {n : Bool} {m d : Nat} (h : m % 2 ^ d = 0) : roundShift rm n false m d = (m / 2 ^ d, false) := by
  have hH : 0 < 2 ^ (d - 1) := Nat.two_pow_pos _
  cases rm <;> simp [roundShift, h, hH.ne]

/-- To nearest, ties to even: by the rest below, at or above one half. -/
theorem roundShift_nearest (n : Bool) {m d : Nat} (hd : 0 < d) (h : m % 2 ^ d ≠ 0) :
    |(m : ℚ) / 2 ^ d - (roundShift .rne n false m d).1| ≤ 1 / 2 ∧
      (|(m : ℚ) / 2 ^ d - (roundShift .rne n false m d).1| = 1 / 2 → (roundShift .rne n false m d).1 % 2 = 0) := by
  have hhalf : (2 : ℚ) ^ d = 2 * (2 ^ (d - 1) : Nat) := by exact_mod_cast (by rw [← pow_succ', Nat.sub_add_cancel hd] : 2 ^ d = 2 * 2 ^ (d - 1))
  have hlt : ((m % 2 ^ d : Nat) : ℚ) < 2 ^ d := by exact_mod_cast Nat.mod_lt m (Nat.two_pow_pos d)
  have hP : (0 : ℚ) < 2 ^ d := by positivity
  have hr : 0 ≤ ((m % 2 ^ d : Nat) : ℚ) := by positivity
  have hx := shift_value m d
  have below : m % 2 ^ d < 2 ^ (d - 1) ↔ ((m % 2 ^ d : Nat) : ℚ) / 2 ^ d < 1 / 2 := by
    rw [div_lt_iff₀ hP, hhalf, ← Nat.cast_lt (α := ℚ)]
    ring_nf
  have above : 2 ^ (d - 1) < m % 2 ^ d ↔ 1 / 2 < ((m % 2 ^ d : Nat) : ℚ) / 2 ^ d := by
    rw [lt_div_iff₀ hP, hhalf, ← Nat.cast_lt (α := ℚ)]
    ring_nf
  have h0 : 0 ≤ ((m % 2 ^ d : Nat) : ℚ) / 2 ^ d := by positivity
  have h1 : ((m % 2 ^ d : Nat) : ℚ) / 2 ^ d < 1 := (div_lt_one hP).2 hlt
  have hk : (roundShift .rne n false m d).1 =
      if 2 ^ (d - 1) < m % 2 ^ d ∨ m % 2 ^ d = 2 ^ (d - 1) ∧ m / 2 ^ d % 2 = 1 then m / 2 ^ d + 1 else m / 2 ^ d := by
    simp [roundShift]
  rw [hk, hx]
  generalize ((m % 2 ^ d : Nat) : ℚ) / 2 ^ d = t at *
  generalize m / 2 ^ d = k at *
  obtain hlow | htie | hhigh := lt_trichotomy (m % 2 ^ d) (2 ^ (d - 1))
  · have ht := below.1 hlow
    rw [if_neg (by omega), add_sub_cancel_left, abs_of_nonneg h0]
    exact ⟨ht.le, fun e => absurd e ht.ne⟩
  · have ht : t = 1 / 2 := le_antisymm (not_lt.1 fun c => absurd (above.2 c) (by omega)) (not_lt.1 fun c => absurd (below.2 c) (by omega))
    subst ht
    by_cases hodd : k % 2 = 1
    · rw [if_pos (by omega)]
      push_cast
      refine ⟨le_of_eq ?_, fun _ => by omega⟩
      rw [abs_of_nonpos] <;> linarith
    · rw [if_neg (by omega), add_sub_cancel_left]
      exact ⟨by norm_num, fun _ => by omega⟩
  · have ht := above.1 hhigh
    rw [if_pos (Or.inl hhigh)]
    push_cast
    rw [abs_of_nonpos (by linarith)]
    exact ⟨by linarith, fun e => absurd e (by linarith)⟩

/-- A rest that is not zero is known of, and the quotient or its successor is given as the mode says. -/
theorem roundShift_inexact {rm : Rm} {n : Bool} {m d : Nat} (hd : 0 < d) (h : m % 2 ^ d ≠ 0) :
    (roundShift rm n false m d).2 = true ∧
      RoundsInt rm (if n then -((m : ℚ) / 2 ^ d) else (m : ℚ) / 2 ^ d) (if n then -((roundShift rm n false m d).1 : Int) else (roundShift rm n false m d).1) := by
  have hhalf : 2 ^ d = 2 * 2 ^ (d - 1) := by rw [← pow_succ', Nat.sub_add_cancel hd]
  have hlt := Nat.mod_lt m (Nat.two_pow_pos d)
  have hfl := floor_shift m d
  have hce := ceil_shift m d
  rw [if_neg h] at hce
  have hP : (0 : ℚ) < 2 ^ d := by positivity
  have hr : (0 : ℚ) < (m % 2 ^ d : Nat) := by exact_mod_cast Nat.pos_of_ne_zero h
  have hx := shift_value m d
  have hpos : 0 < (m : ℚ) / 2 ^ d := by
    rw [hx]
    positivity
  refine ⟨by simp [roundShift, h], ?_⟩
  cases rm with
  | rz => cases n <;> simp [roundShift, RoundsInt, hfl, Int.ceil_neg, hpos.le, not_le.2 hpos]
  | rd => cases n <;> simp [roundShift, RoundsInt, hfl, hce, h, Int.floor_neg]
  | ru => cases n <;> simp [roundShift, RoundsInt, hfl, hce, h, Int.ceil_neg]
  | rne =>
    obtain ⟨near, even⟩ := roundShift_nearest n hd h
    generalize (roundShift .rne n false m d).1 = k at *
    have hdist : |(if n then -((m : ℚ) / 2 ^ d) else (m : ℚ) / 2 ^ d) - ((if n then -(k : Int) else k : Int) : ℚ)| = |(m : ℚ) / 2 ^ d - k| := by
      cases n
      · simp
      · simp [neg_add_eq_sub, abs_sub_comm]
    refine ⟨hdist ▸ near, fun tie => ?_⟩
    have := even (hdist ▸ tie)
    split <;> omega

/-- A shift rounds the value as the mode says, and knows whether it changed it. -/
theorem roundShift_rounds (rm : Rm) (n : Bool) (m d : Nat) (hd : 0 < d) :
    RoundsInt rm (if n then -((m : ℚ) / 2 ^ d) else (m : ℚ) / 2 ^ d) (if n then -((roundShift rm n false m d).1 : Int) else (roundShift rm n false m d).1) ∧
      ((roundShift rm n false m d).2 = false ↔ (m : ℚ) / 2 ^ d = (roundShift rm n false m d).1) := by
  by_cases h : m % 2 ^ d = 0
  · have hx : (m : ℚ) / 2 ^ d = (m / 2 ^ d : Nat) := by rw [shift_value, h, Nat.cast_zero, zero_div, add_zero]
    rw [roundShift_exact h, hx]
    refine ⟨?_, by simp⟩
    cases n
    · exact_mod_cast roundsInt_self rm ((m / 2 ^ d : Nat) : Int)
    · exact_mod_cast roundsInt_self rm (-((m / 2 ^ d : Nat) : Int))
  · obtain ⟨inexact, rounds⟩ := roundShift_inexact (rm := rm) (n := n) hd h
    refine ⟨rounds, by simp [inexact], fun hx => ?_⟩
    rw [div_eq_iff (by positivity)] at hx
    have : m = (roundShift rm n false m d).1 * 2 ^ d := by exact_mod_cast hx
    exact absurd (by rw [this, Nat.mul_mod_left]) h

/-- roundAt gives the multiple of 2^q that the mode names, and knows whether that is another value (R60). -/
theorem roundAt_rounds (rm : Rm) (n : Bool) (m : Nat) (e q : Int) :
    RoundsInt rm (ratOf n m (e - q)) (if n then -((roundAt rm n false m e q).1 : Int) else (roundAt rm n false m e q).1) ∧
      ((roundAt rm n false m e q).2 = false ↔ (m : ℚ) * 2 ^ (e - q) = (roundAt rm n false m e q).1) := by
  obtain h | h := le_or_gt q e
  · have hz : (m : ℚ) * 2 ^ (e - q) = (m * 2 ^ (e - q).toNat : Nat) := by
      obtain ⟨k, hk⟩ := Int.eq_ofNat_of_zero_le (Int.sub_nonneg.2 h)
      simp [hk]
    rw [roundAt_of_le h, ratOf, mul_assoc, hz]
    refine ⟨?_, by simp⟩
    cases n
    · simpa using roundsInt_self rm ((m * 2 ^ (e - q).toNat : Nat) : Int)
    · simpa using roundsInt_self rm (-((m * 2 ^ (e - q).toNat : Nat) : Int))
  · have hz : (m : ℚ) * 2 ^ (e - q) = m / 2 ^ (q - e).toNat := by
      obtain ⟨k, hk⟩ := Int.eq_ofNat_of_zero_le (Int.sub_nonneg.2 h.le)
      rw [← neg_sub q e, hk, zpow_neg, zpow_natCast, Int.toNat_natCast, div_eq_mul_inv]
    rw [roundAt_of_lt h, ratOf, mul_assoc, hz]
    have := roundShift_rounds rm n m (q - e).toNat (by omega)
    cases n <;> simpa using this

/-- An integer number of units is given as it is. -/
theorem roundAt_of_int {rm : Rm} {n : Bool} {m k : Nat} {e q : Int} (h : (m : ℚ) * 2 ^ (e - q) = k) : roundAt rm n false m e q = (k, false) := by
  obtain ⟨rounds, exact'⟩ := roundAt_rounds rm n m e q
  have hk : (if n then -((roundAt rm n false m e q).1 : Int) else (roundAt rm n false m e q).1) = if n then -(k : Int) else k := by
    refine RoundsInt.eq_of_int (rm := rm) ?_
    rw [ratOf, mul_assoc, h] at rounds
    cases n <;> simpa using rounds
  have h1 : (roundAt rm n false m e q).1 = k := by split at hk <;> omega
  exact Prod.ext h1 (exact'.2 (by rw [h1, h]))

end Sys2Proof.Machine
end

section
/-! SUPPORT. The patterns of a format and their values (R50), and what one rounding can give (R60, R62). -/

namespace Sys2Proof.Machine

/-! The significand that roundAt gives, by the length of what it rounds. -/

/-- The number of whole units of 2^q. -/
def wholeUnits (m : Nat) (e q : Int) : Nat := if q ≤ e then m * 2 ^ (e - q).toNat else m / 2 ^ (q - e).toNat

theorem succ_if_bounds (c : Bool) (k : Nat) : k ≤ (if c then k + 1 else k) ∧ (if c then k + 1 else k) ≤ k + 1 := by
  cases c <;> simp

theorem roundAt_near (rm : Rm) (n st : Bool) (m : Nat) (e q : Int) :
    wholeUnits m e q ≤ (roundAt rm n st m e q).1 ∧ (roundAt rm n st m e q).1 ≤ wholeUnits m e q + 1 := by
  unfold wholeUnits
  obtain h | h := le_or_gt q e
  · simp only [roundAt, h, if_true]
    exact succ_if_bounds _ _
  · rw [roundAt_of_lt h, if_neg (by omega)]
    exact succ_if_bounds _ _

theorem wholeUnits_lt {m w : Nat} {e q : Int} (h : e + bitLen m ≤ q + w) : wholeUnits m e q < 2 ^ w := by
  have hm := lt_two_pow_bitLen m
  unfold wholeUnits
  split
  · calc m * 2 ^ (e - q).toNat < 2 ^ bitLen m * 2 ^ (e - q).toNat := Nat.mul_lt_mul_of_pos_right hm (Nat.two_pow_pos _)
      _ = 2 ^ (bitLen m + (e - q).toNat) := (pow_add ..).symm
      _ ≤ 2 ^ w := Nat.pow_le_pow_right (by decide) (by omega)
  · rw [Nat.div_lt_iff_lt_mul (Nat.two_pow_pos _), ← pow_add]
    exact lt_of_lt_of_le hm (Nat.pow_le_pow_right (by decide) (by omega))

theorem two_pow_le_wholeUnits {m w : Nat} {e q : Int} (hm : m ≠ 0) (h : q + w + 1 ≤ e + bitLen m) : 2 ^ w ≤ wholeUnits m e q := by
  have hlo := two_pow_bitLen_le hm
  unfold wholeUnits
  split
  · have : 2 ^ (w + 1) ≤ 2 * (m * 2 ^ (e - q).toNat) :=
      calc 2 ^ (w + 1) ≤ 2 ^ (bitLen m + (e - q).toNat) := Nat.pow_le_pow_right (by decide) (by omega)
        _ = 2 ^ bitLen m * 2 ^ (e - q).toNat := pow_add ..
        _ ≤ 2 * m * 2 ^ (e - q).toNat := Nat.mul_le_mul_right _ hlo
        _ = _ := by ring
    rw [pow_succ] at this
    omega
  · rw [Nat.le_div_iff_mul_le (Nat.two_pow_pos _), ← pow_add]
    have : 2 ^ (w + (q - e).toNat + 1) ≤ 2 ^ bitLen m := Nat.pow_le_pow_right (by decide) (by omega)
    rw [pow_succ] at this
    omega

/-! Patterns by their fields. -/

/-- A format has an exponent and a fraction. -/
abbrev Fmt.Std (f : Fmt) : Prop := 1 < f.ew ∧ 0 < f.fw

/-- The fields of an infinity or a NaN. -/
def Fmt.Special (f : Fmt) (ex fr : Nat) : Prop := ex = f.eMax ∧ (f.e4 = true → fr = 2 ^ f.fw - 1)

theorem Fmt.eMax_lt (f : Fmt) : f.eMax < 2 ^ f.ew := Nat.sub_lt (Nat.two_pow_pos _) one_pos

theorem Fmt.fields (f : Fmt) (n : Bool) {ex fr : Nat} (hex : ex < 2 ^ f.ew) (hfr : fr < 2 ^ f.fw) :
    let b := f.sign n + ex * 2 ^ f.fw + fr
    (b / 2 ^ (f.ew + f.fw) % 2 == 1) = n ∧ b / 2 ^ f.fw % 2 ^ f.ew = ex ∧ b % 2 ^ f.fw = fr ∧ b < 2 ^ f.width := by
  have hlow : ex * 2 ^ f.fw + fr < 2 ^ (f.ew + f.fw) := by
    rw [pow_add]
    calc ex * 2 ^ f.fw + fr < (ex + 1) * 2 ^ f.fw := by rw [add_mul]; omega
      _ ≤ 2 ^ f.ew * 2 ^ f.fw := Nat.mul_le_mul_right _ hex
  have hb : f.sign n + ex * 2 ^ f.fw + fr = fr + (ex + 2 ^ f.ew * n.toNat) * 2 ^ f.fw := by
    cases n <;> simp [Fmt.sign, pow_add] <;> ring
  have hb' : f.sign n + ex * 2 ^ f.fw + fr = (ex * 2 ^ f.fw + fr) + n.toNat * 2 ^ (f.ew + f.fw) := by
    cases n <;> simp [Fmt.sign]; ring
  have hn := n.toNat_lt
  refine ⟨?_, ?_, ?_, ?_⟩
  · rw [hb', Nat.add_mul_div_right _ _ (Nat.two_pow_pos _), Nat.div_eq_of_lt hlow, zero_add, Nat.mod_eq_of_lt hn]
    cases n <;> rfl
  · rw [hb, Nat.add_mul_div_right _ _ (Nat.two_pow_pos _), Nat.div_eq_of_lt hfr, zero_add, Nat.add_mul_mod_self_left, Nat.mod_eq_of_lt hex]
  · rw [hb, Nat.add_mul_mod_self_right, Nat.mod_eq_of_lt hfr]
  · have hw : 2 ^ f.width = 2 * 2 ^ (f.ew + f.fw) := by rw [Fmt.width, add_assoc, add_comm 1, pow_succ, mul_comm]
    have : n.toNat * 2 ^ (f.ew + f.fw) ≤ 1 * 2 ^ (f.ew + f.fw) := Nat.mul_le_mul_right _ (by omega)
    omega

/-- A pattern is its sign, exponent and fraction. -/
theorem Fmt.eq_fields (f : Fmt) {b : Nat} (hb : b < 2 ^ f.width) :
    b = f.sign (b / 2 ^ (f.ew + f.fw) % 2 == 1) + b / 2 ^ f.fw % 2 ^ f.ew * 2 ^ f.fw + b % 2 ^ f.fw := by
  have h1 := Nat.div_add_mod b (2 ^ f.fw)
  have h2 := Nat.div_add_mod (b / 2 ^ f.fw) (2 ^ f.ew)
  rw [Nat.div_div_eq_div_mul, ← pow_add, add_comm f.fw] at h2
  have hs : b / 2 ^ (f.ew + f.fw) < 2 := by
    rw [Nat.div_lt_iff_lt_mul (Nat.two_pow_pos _), ← pow_succ', add_comm, ← add_assoc]
    exact hb
  have hsign : f.sign (b / 2 ^ (f.ew + f.fw) % 2 == 1) = 2 ^ f.fw * (2 ^ f.ew * (b / 2 ^ (f.ew + f.fw))) := by
    rw [← mul_assoc, ← pow_add, add_comm f.fw]
    generalize b / 2 ^ (f.ew + f.fw) = t at hs
    interval_cases t <;> simp [Fmt.sign]
  rw [hsign, mul_comm (_ % _), ← mul_add, h2, h1]

/-- The value of a pattern whose fields are those of a number. -/
theorem decodeF_finite {f : Fmt} {b : Nat} (h : ¬f.Special (b / 2 ^ f.fw % 2 ^ f.ew) (b % 2 ^ f.fw)) :
    decodeF f b = if b / 2 ^ f.fw % 2 ^ f.ew = 0 then .fin (b / 2 ^ (f.ew + f.fw) % 2 == 1) (b % 2 ^ f.fw) f.qMin
      else .fin (b / 2 ^ (f.ew + f.fw) % 2 == 1) (2 ^ f.fw + b % 2 ^ f.fw) (f.qMin + (b / 2 ^ f.fw % 2 ^ f.ew - 1 : Nat)) := by
  unfold Fmt.Special at h
  cases h4 : f.e4 <;> simp_all [decodeF]

theorem decodeF_special {f : Fmt} {b : Nat} (h : f.Special (b / 2 ^ f.fw % 2 ^ f.ew) (b % 2 ^ f.fw)) :
    decodeF f b = if f.e4 = false ∧ b % 2 ^ f.fw = 0 then .inf (b / 2 ^ (f.ew + f.fw) % 2 == 1) else .nan := by
  obtain ⟨hex, hfr⟩ := h
  cases h4 : f.e4 <;> simp_all [decodeF]

end Sys2Proof.Machine
end

section
/-! SUPPORT. What one rounding gives (R60, R62). -/

namespace Sys2Proof.Machine

/-- A significand of a format, or the one after it, by its hidden bit and its fraction. -/
theorem significand_cases {w k : Nat} (hk : k ≤ 2 ^ (w + 1)) :
    (k / 2 ^ w = 0 ∧ k % 2 ^ w = k ∧ k < 2 ^ w) ∨ (k / 2 ^ w = 1 ∧ k % 2 ^ w = k - 2 ^ w ∧ 2 ^ w ≤ k ∧ k < 2 ^ (w + 1)) ∨
      (k / 2 ^ w = 2 ∧ k % 2 ^ w = 0 ∧ k = 2 ^ (w + 1)) := by
  have h2 : 2 ^ (w + 1) = 2 * 2 ^ w := pow_succ' ..
  have hpos := Nat.two_pow_pos w
  obtain h | h | h : k < 2 ^ w ∨ (2 ^ w ≤ k ∧ k < 2 ^ (w + 1)) ∨ k = 2 ^ (w + 1) := by omega
  · exact Or.inl ⟨Nat.div_eq_of_lt h, Nat.mod_eq_of_lt h, h⟩
  · have hd : k / 2 ^ w = 1 := Nat.div_eq_of_lt_le (by omega) (by omega)
    have := Nat.div_add_mod k (2 ^ w)
    rw [hd] at this
    exact Or.inr (Or.inl ⟨hd, by omega, h.1, h.2⟩)
  · rw [h, h2]
    exact Or.inr (Or.inr ⟨Nat.mul_div_cancel _ hpos, Nat.mul_mod_left _ _, rfl⟩)

/-- A pattern below the largest finite value is a number, that of its significand and unit where the significand has the hidden bit. -/
theorem decodeF_packBits {f : Fmt} (hf : f.Std) (n : Bool) {k : Nat} {q : Int} (hq : f.qMin ≤ q) (hk : k ≤ 2 ^ (f.fw + 1))
    (hmax : q < f.maxQ ∨ q = f.maxQ ∧ k ≤ f.maxM) :
    packBits f n k q < 2 ^ f.width ∧ ∃ m e, decodeF f (packBits f n k q) = .fin n m e ∧ (q = f.qMin ∨ 2 ^ f.fw ≤ k → ratOf n m e = ratOf n k q) := by
  obtain ⟨hew, hfw⟩ := hf
  have hE := f.eMax_lt
  have hP1 : 2 ≤ 2 ^ f.fw := by simpa using Nat.pow_le_pow_right (n := 2) (by decide) hfw
  have h2P : 2 ^ (f.fw + 1) = 2 * 2 ^ f.fw := pow_succ' ..
  obtain ⟨t, ht⟩ := Int.eq_ofNat_of_zero_le (Int.sub_nonneg.2 hq)
  have hmaxQ : f.maxQ - f.qMin = (f.eMax : Int) - if f.e4 then 1 else 2 := by
    unfold Fmt.maxQ Fmt.qMin
    split <;> omega
  have hmaxM : f.maxM = 2 ^ (f.fw + 1) - if f.e4 then 2 else 1 := by
    unfold Fmt.maxM
    split <;> rfl
  have hpack : packBits f n k q = f.sign n + (t + k / 2 ^ f.fw) * 2 ^ f.fw + k % 2 ^ f.fw := by
    have := Nat.div_add_mod k (2 ^ f.fw)
    rw [packBits, ht, Int.toNat_natCast, add_mul, mul_comm (k / _)]
    omega
  have hfr := Nat.mod_lt k (Nat.two_pow_pos f.fw)
  have carry := significand_cases hk
  have special : ¬f.Special (t + k / 2 ^ f.fw) (k % 2 ^ f.fw) ∧ t + k / 2 ^ f.fw ≤ f.eMax := by
    unfold Fmt.Special
    cases h4 : f.e4 <;> simp only [h4, if_true, if_false, Bool.false_eq_true, forall_const, false_imp_iff, and_true] at hmaxQ hmaxM ⊢ <;> omega
  obtain ⟨hn, hex, hmod, hwidth⟩ := f.fields n (ex := t + k / 2 ^ f.fw) (by omega) hfr
  rw [← hpack] at hn hex hmod hwidth
  refine ⟨hwidth, ?_⟩
  rw [decodeF_finite (by rw [hex, hmod]; exact special.1), hn, hex, hmod]
  have hqt : q = f.qMin + t := by omega
  obtain ⟨hdiv, hrest, hlow⟩ | ⟨hdiv, hrest, hlow⟩ | ⟨hdiv, hrest, rfl⟩ := carry
  · split
    · exact ⟨_, _, rfl, fun _ => by rw [hrest, hqt, show t = 0 by omega, Nat.cast_zero, add_zero]⟩
    · exact ⟨_, _, rfl, fun h => by omega⟩
  · rw [if_neg (by omega)]
    exact ⟨_, _, rfl, fun _ => by rw [hdiv, hrest, hqt, Nat.add_sub_cancel, Nat.add_sub_cancel' hlow.1]⟩
  · rw [if_neg (by omega)]
    refine ⟨_, _, rfl, fun _ => ?_⟩
    rw [hdiv, hrest, hqt, add_zero, show t + 2 - 1 = t + 1 by omega, ratOf, ratOf, Nat.cast_add, Nat.cast_one, ← add_assoc, zpow_add_one₀ two_ne_zero, h2P]
    push_cast
    ring

/-- The exponent of the last place that a rounding of m * 2^e keeps. -/
def Fmt.unitAt (f : Fmt) (m : Nat) (e : Int) : Int := max (e + (bitLen m : Int) - 1 - f.fw) f.qMin

/-- Zero keeps its sign. -/
@[simp] theorem roundF_zero (f : Fmt) (rm : Rm) (n : Bool) (e : Int) : roundF f rm n false 0 e = (f.sign n, 0) := rfl

/-- Whether an overflow goes to the infinity in a format that has it (R62). -/
def overflowsToInf (rm : Rm) (n : Bool) : Bool :=
  match rm with
  | .rne => true
  | .rz => false
  | .rd => n
  | .ru => !n

/-- What an overflow gives (R62). -/
def overflowF (f : Fmt) (rm : Rm) (n : Bool) : Nat × Flags :=
  if f.e4 then (f.maxBits n, flOvf ||| flInx ||| flSat)
  else (if overflowsToInf rm n then f.infBits n else f.maxBits n, flOvf ||| flInx)

/-- Whether a rounding with unbounded exponent stays below the smallest normal value (R62). -/
def tinyF (f : Fmt) (rm : Rm) (n st : Bool) (m : Nat) (e : Int) : Bool :=
  let qu := e + (bitLen m : Int) - 1 - f.fw
  decide (qu < f.qMin) && !(qu + 1 == f.qMin && (roundAt rm n st m e qu).1 == 2 ^ (f.fw + 1))

theorem roundF_of_ne_zero (f : Fmt) (rm : Rm) (n st : Bool) {m : Nat} (e : Int) (h : m ≠ 0 ∨ st = true) :
    roundF f rm n st m e =
      if f.unitAt m e > f.maxQ || (f.unitAt m e == f.maxQ && (roundAt rm n st m e (f.unitAt m e)).1 > f.maxM) then overflowF f rm n
      else (packBits f n (roundAt rm n st m e (f.unitAt m e)).1 (f.unitAt m e),
        flagIf (roundAt rm n st m e (f.unitAt m e)).2 flInx ||| flagIf (tinyF f rm n st m e && (roundAt rm n st m e (f.unitAt m e)).2) flUnf) := by
  have hzero : ¬(m = 0 && !st) = true := by
    obtain h | h := h <;> simp [h]
  unfold roundF
  rw [if_neg hzero]
  rfl

theorem overflowF_flags (f : Fmt) (rm : Rm) (n : Bool) : (overflowF f rm n).2 &&& flOvf = flOvf := by
  unfold overflowF
  split
  · exact (by decide : (flOvf ||| flInx ||| flSat) &&& flOvf = flOvf)
  · exact (by decide : (flOvf ||| flInx) &&& flOvf = flOvf)

theorem overflowF_bits (f : Fmt) (rm : Rm) (n : Bool) : (overflowF f rm n).1 = f.maxBits n ∨ f.e4 = false ∧ (overflowF f rm n).1 = f.infBits n := by
  unfold overflowF
  cases f.e4 <;> cases overflowsToInf rm n <;> simp

/-- One rounding overflows, or gives the pattern of the significand that roundAt gives, with INX as roundAt says (R62). -/
theorem roundF_cases (f : Fmt) (rm : Rm) (n st : Bool) {m : Nat} (e : Int) (h : m ≠ 0 ∨ st = true) :
    let q := f.unitAt m e
    let k := roundAt rm n st m e q
    roundF f rm n st m e = overflowF f rm n ∨
      ((q < f.maxQ ∨ q = f.maxQ ∧ k.1 ≤ f.maxM) ∧ roundF f rm n st m e = (packBits f n k.1 q, flagIf k.2 flInx ||| flagIf (tinyF f rm n st m e && k.2) flUnf)) := by
  intro q k
  rw [roundF_of_ne_zero f rm n st e h]
  split
  · exact Or.inl rfl
  · next hmax =>
    simp only [Bool.or_eq_true, decide_eq_true_eq, Bool.and_eq_true, beq_iff_eq, not_or, not_and, not_lt] at hmax
    obtain ⟨hle, hm⟩ := hmax
    exact Or.inr ⟨(lt_or_eq_of_le hle).imp_right fun h => ⟨h, hm h⟩, rfl⟩

/-- The significand of a rounding fits, and has the hidden bit where the unit is not the lowest. -/
theorem significand_bounds (f : Fmt) (rm : Rm) (n st : Bool) (m : Nat) (e : Int) :
    (roundAt rm n st m e (f.unitAt m e)).1 ≤ 2 ^ (f.fw + 1) ∧ (m ≠ 0 → f.unitAt m e = f.qMin ∨ 2 ^ f.fw ≤ (roundAt rm n st m e (f.unitAt m e)).1) := by
  have hnear := roundAt_near rm n st m e (f.unitAt m e)
  have hlt : wholeUnits m e (f.unitAt m e) < 2 ^ (f.fw + 1) := wholeUnits_lt (by
    have := le_max_left (e + (bitLen m : Int) - 1 - f.fw) f.qMin
    unfold Fmt.unitAt
    push_cast
    omega)
  refine ⟨by omega, fun hm => ?_⟩
  obtain h | h := max_choice (e + (bitLen m : Int) - 1 - f.fw) f.qMin
  · right
    have := two_pow_le_wholeUnits (w := f.fw) (e := e) (q := f.unitAt m e) hm (by unfold Fmt.unitAt; omega)
    omega
  · exact Or.inl h

theorem qMin_le_unitAt (f : Fmt) (m : Nat) (e : Int) : f.qMin ≤ f.unitAt m e := le_max_right _ _

end Sys2Proof.Machine
end

section
/-! SUPPORT. Rounding to nearest, and roundings that change nothing (R60, R62). -/

namespace Sys2Proof.Machine

/-- The significand and the unit of a number of a format, and its pattern by them. -/
theorem decodeF_eq_fin {f : Fmt} (hf : f.Std) {b : Nat} {n : Bool} {m : Nat} {e : Int} (h : decodeF f b = .fin n m e) :
    m < 2 ^ (f.fw + 1) ∧ f.qMin ≤ e ∧ (e = f.qMin ∨ 2 ^ f.fw ≤ m) ∧ (e < f.maxQ ∨ e = f.maxQ ∧ m ≤ f.maxM) ∧ (b < 2 ^ f.width → b = packBits f n m e) := by
  obtain ⟨hew, hfw⟩ := hf
  have special : ¬f.Special (b / 2 ^ f.fw % 2 ^ f.ew) (b % 2 ^ f.fw) := fun hs => by
    rw [decodeF_special hs] at h
    split at h <;> cases h
  have hb := f.eq_fields (b := b)
  rw [decodeF_finite special] at h
  have hE : f.eMax = 2 ^ f.ew - 1 := rfl
  have hE2 : 4 ≤ 2 ^ f.ew := by simpa using Nat.pow_le_pow_right (n := 2) (by decide) hew
  have hex := Nat.mod_lt (b / 2 ^ f.fw) (Nat.two_pow_pos f.ew)
  have hfr := Nat.mod_lt b (Nat.two_pow_pos f.fw)
  have h2P : 2 ^ (f.fw + 1) = 2 * 2 ^ f.fw := pow_succ' ..
  have hmaxQ : f.maxQ - f.qMin = (f.eMax : Int) - if f.e4 then 1 else 2 := by
    unfold Fmt.maxQ Fmt.qMin
    split <;> omega
  have hmaxM : f.maxM = 2 ^ (f.fw + 1) - if f.e4 then 2 else 1 := by
    unfold Fmt.maxM
    split <;> rfl
  unfold Fmt.Special at special
  generalize b / 2 ^ f.fw % 2 ^ f.ew = ex at *
  generalize b % 2 ^ f.fw = fr at *
  split at h
  · next h0 =>
    obtain ⟨rfl, rfl, rfl⟩ := FVal.fin.inj h
    refine ⟨by omega, le_rfl, Or.inl rfl, ?_, fun hw => ?_⟩
    · cases h4 : f.e4 <;> simp only [h4, if_true, if_false, Bool.false_eq_true] at hmaxQ hmaxM <;> omega
    · simpa [packBits, h0] using hb hw
  · next h0 =>
    obtain ⟨rfl, rfl, rfl⟩ := FVal.fin.inj h
    refine ⟨by omega, by omega, Or.inr (by omega), ?_, fun hw => ?_⟩
    · cases h4 : f.e4 <;> simp only [h4, if_true, if_false, Bool.false_eq_true, forall_const, false_imp_iff, and_true] at hmaxQ hmaxM special <;> omega
    · rw [packBits, add_sub_cancel_left, Int.toNat_natCast]
      have : ex * 2 ^ f.fw = (ex - 1) * 2 ^ f.fw + 2 ^ f.fw := by
        rw [← Nat.succ_mul, Nat.succ_eq_add_one, Nat.sub_add_cancel (by omega)]
      have := hb hw
      omega

/-- A number of the format is rounded to its own pattern, with no flag. -/
theorem roundF_of_decodeF {f : Fmt} (hf : f.Std) (rm : Rm) {b : Nat} {n : Bool} {m m' : Nat} {e e' : Int} (hw : b < 2 ^ f.width)
    (h : decodeF f b = .fin n m' e') (hm' : m' ≠ 0) (hv : (m : ℚ) * 2 ^ e = m' * 2 ^ e') : roundF f rm n false m e = (b, 0) := by
  obtain ⟨hlt, hmin, hidden, hmax, hpack⟩ := decodeF_eq_fin hf h
  have hm : m ≠ 0 := by
    rintro rfl
    have : (m' : ℚ) * 2 ^ e' ≠ 0 := by positivity
    exact this (by rw [← hv]; simp)
  have hlen := bitLen_add_eq hm hm' hv
  have hunit : f.unitAt m e = e' := by
    unfold Fmt.unitAt
    rw [hlen]
    have hle := bitLen_le hlt
    obtain hq | hn := hidden
    · omega
    · rw [bitLen_eq hn hlt]
      omega
  have hround : roundAt rm n false m e e' = (m', false) := roundAt_of_int (by rw [zpow_sub₀ two_ne_zero, mul_div_assoc', hv, mul_div_assoc, div_self (by positivity), mul_one])
  rw [roundF_of_ne_zero f rm n false e (Or.inl hm), hunit, hround, if_neg (by simp; omega), hpack hw]
  simp [flagIf]

/-- A value in a smaller unit. -/
theorem units_value (m : Nat) {e q : Int} (h : q ≤ e) : ((m * 2 ^ (e - q).toNat : Nat) : ℚ) * 2 ^ q = m * 2 ^ e := by
  obtain ⟨d, hd⟩ := Int.eq_ofNat_of_zero_le (Int.sub_nonneg.2 h)
  obtain rfl : e = q + d := by omega
  rw [hd, Int.toNat_natCast, zpow_add₀ two_ne_zero, zpow_natCast]
  push_cast
  ring

/-- A value of few bits, neither too small nor too large, is a number of the format: its rounding sets no flag. -/
theorem roundF_exact {f : Fmt} (hf : f.Std) (rm : Rm) (n : Bool) {m : Nat} {e : Int} (hm : m < 2 ^ (f.fw + 1)) (hmin : f.qMin ≤ e)
    (hmax : e < f.maxQ ∨ e = f.maxQ ∧ m ≤ f.maxM) :
    (roundF f rm n false m e).2 = 0 ∧ (roundF f rm n false m e).1 < 2 ^ f.width ∧
      ∃ m' e', decodeF f (roundF f rm n false m e).1 = .fin n m' e' ∧ ratOf n m' e' = ratOf n m e := by
  by_cases h0 : m = 0
  · subst h0
    have hfields := f.fields n (Nat.two_pow_pos f.ew) (Nat.two_pow_pos f.fw)
    simp only [zero_mul, add_zero] at hfields
    obtain ⟨hn, hex, hfr, hw⟩ := hfields
    have special : ¬f.Special 0 0 := fun hs => by
      have : 2 ^ 1 < 2 ^ f.ew := Nat.pow_lt_pow_right (by decide) hf.1
      have := hs.1
      unfold Fmt.eMax at this
      omega
    rw [roundF_zero]
    refine ⟨rfl, hw, 0, f.qMin, ?_, by simp [ratOf]⟩
    rw [decodeF_finite (by rwa [hex, hfr]), if_pos hex, hn, hfr]
  · have hq : f.unitAt m e ≤ e := by
      have := bitLen_le hm
      unfold Fmt.unitAt
      omega
    have hround : roundAt rm n false m e (f.unitAt m e) = (m * 2 ^ (e - f.unitAt m e).toNat, false) := roundAt_of_le hq
    have hfits : f.unitAt m e < f.maxQ ∨ f.unitAt m e = f.maxQ ∧ m * 2 ^ (e - f.unitAt m e).toNat ≤ f.maxM := by
      obtain hlt | ⟨rfl, hm'⟩ := hmax
      · exact Or.inl (by omega)
      · obtain hlt | heq := lt_or_eq_of_le hq
        · exact Or.inl hlt
        · exact Or.inr ⟨heq, by rw [heq]; simpa using hm'⟩
    have hcond : (f.unitAt m e > f.maxQ || (f.unitAt m e == f.maxQ && (roundAt rm n false m e (f.unitAt m e)).1 > f.maxM)) = false := by
      rw [hround]
      simp
      omega
    obtain ⟨hk, hidden⟩ := significand_bounds f rm n false m e
    obtain ⟨hw, m', e', hdec, hval⟩ := decodeF_packBits hf n (qMin_le_unitAt f m e) hk (by rwa [hround])
    rw [roundF_of_ne_zero f rm n false e (Or.inl h0), hcond]
    refine ⟨by simp [hround, flagIf], hw, m', e', hdec, ?_⟩
    rw [hval (hidden h0), hround, ratOf, ratOf, mul_assoc, mul_assoc, units_value m hq]

end Sys2Proof.Machine
end

section
/-! SUPPORT. Rounding to nearest gives a nearest number of the format (R60). -/

namespace Sys2Proof.Machine

theorem formats_std : ∀ f ∈ [fmtF32, fmtF16, fmtBF16, fmtF8E4, fmtF8E5], f.Std := by decide

theorem Fmt.Std.qMin_lt_maxQ {f : Fmt} (hf : f.Std) : f.qMin < f.maxQ := by
  have : 4 ≤ 2 ^ f.ew := by simpa using Nat.pow_le_pow_right (n := 2) (by decide) hf.1
  unfold Fmt.qMin Fmt.maxQ Fmt.eMax
  split <;> omega

theorem abs_ratOf (n : Bool) (m : Nat) (e : Int) : |ratOf n m e| = m * 2 ^ e := by
  rw [ratOf, abs_mul, abs_mul, Nat.abs_cast, abs_of_nonneg (by positivity : (0 : ℚ) ≤ 2 ^ e)]
  cases n <;> simp

theorem ratOf_unit (n : Bool) (m : Nat) (e q : Int) : ratOf n m e = ratOf n m (e - q) * 2 ^ q := by
  rw [ratOf, ratOf, mul_assoc _ _ ((2 : ℚ) ^ q), ← zpow_add₀ two_ne_zero, sub_add_cancel]

theorem ratOf_zero (n : Bool) (e : Int) : ratOf n 0 e = 0 := by simp [ratOf]

/-- A signed number of units. -/
theorem ratOf_units (n : Bool) (k : Nat) : ratOf n k 0 = ((if n then -(k : Int) else k : Int) : ℚ) := by
  cases n <;> simp [ratOf]

/-- No integer is nearer than one within a half. -/
theorem nearest_int {x : ℚ} {n : Int} (h : |x - n| ≤ 1 / 2) (z : Int) : |x - n| ≤ |x - z| := by
  obtain rfl | hne := eq_or_ne n z
  · exact le_rfl
  · have h1 : (1 : ℚ) ≤ |((n - z : Int) : ℚ)| := by
      rw [← Int.cast_abs]
      exact_mod_cast Int.one_le_abs (sub_ne_zero.2 hne)
    have h2 : |((n - z : Int) : ℚ)| ≤ |x - n| + |x - z| := by
      rw [show ((n - z : Int) : ℚ) = (x - z) - (x - n) by push_cast; ring, add_comm]
      exact abs_sub _ _
    linarith

/-- What is within half a unit of a value is no farther from it than any number of the format: a number that is no multiple of the unit lies
nearer zero than the value's leading bit. -/
theorem nearest_number (f : Fmt) (n : Bool) {m : Nat} (hm : m ≠ 0) (e : Int) {z : Int} (near : |ratOf n m (e - f.unitAt m e) - z| ≤ 1 / 2)
    (n' : Bool) {m' : Nat} (hm' : m' < 2 ^ (f.fw + 1)) {e' : Int} (he' : f.qMin ≤ e') :
    |ratOf n m (e - f.unitAt m e) - z| ≤ |ratOf n m (e - f.unitAt m e) - ratOf n' m' (e' - f.unitAt m e)| := by
  obtain hle | hlt := le_or_gt (f.unitAt m e) e'
  · have hint : ratOf n' m' (e' - f.unitAt m e) = ((if n' then -((m' * 2 ^ (e' - f.unitAt m e).toNat : Nat) : Int) else (m' * 2 ^ (e' - f.unitAt m e).toNat : Nat) : Int) : ℚ) := by
      rw [← ratOf_units, ratOf, ratOf, mul_assoc, mul_assoc, ← units_value m' (Int.sub_nonneg.2 hle), sub_zero]
    rw [hint]
    exact nearest_int near _
  · have hunit : f.unitAt m e = e + (bitLen m : Int) - 1 - f.fw := by
      unfold Fmt.unitAt at hlt ⊢
      omega
    have hx : (2 : ℚ) ^ f.fw ≤ |ratOf n m (e - f.unitAt m e)| := by
      have hlow : (2 : ℚ) ^ bitLen m ≤ 2 * m := by exact_mod_cast two_pow_bitLen_le hm
      rw [abs_ratOf, hunit, show e - (e + (bitLen m : Int) - 1 - f.fw) = (f.fw : Int) + 1 - bitLen m by ring, zpow_sub₀ two_ne_zero, zpow_add_one₀ two_ne_zero,
        zpow_natCast, zpow_natCast, mul_div_assoc', le_div_iff₀ (by positivity)]
      have : (0 : ℚ) < 2 ^ f.fw := by positivity
      nlinarith
    have hw : |ratOf n' m' (e' - f.unitAt m e)| ≤ 2 ^ f.fw := by
      have hm1 : (m' : ℚ) ≤ 2 ^ (f.fw + 1) := by exact_mod_cast hm'.le
      have he1 : (2 : ℚ) ^ (e' - f.unitAt m e) ≤ 2 ^ (-1 : Int) := zpow_le_zpow_right₀ one_le_two (by omega)
      rw [abs_ratOf]
      calc (m' : ℚ) * 2 ^ (e' - f.unitAt m e) ≤ 2 ^ (f.fw + 1) * 2 ^ (-1 : Int) := mul_le_mul hm1 he1 (by positivity) (by positivity)
        _ = 2 ^ f.fw := by rw [pow_succ, zpow_neg_one]; ring
    have hlead := nearest_int near (if n then -((2 ^ f.fw : Nat) : Int) else (2 ^ f.fw : Nat))
    have hsame : |ratOf n m (e - f.unitAt m e) - ((if n then -((2 ^ f.fw : Nat) : Int) else (2 ^ f.fw : Nat) : Int) : ℚ)| = |ratOf n m (e - f.unitAt m e)| - 2 ^ f.fw := by
      rw [abs_ratOf] at hx ⊢
      rw [ratOf, mul_assoc]
      generalize (m : ℚ) * 2 ^ (e - f.unitAt m e) = X at hx ⊢
      cases n
      · simpa using hx
      · have : -X + (2 : ℚ) ^ f.fw ≤ 0 := by linarith
        simp [abs_of_nonpos this]
        ring
    have := abs_sub_abs_le_abs_sub (ratOf n m (e - f.unitAt m e)) (ratOf n' m' (e' - f.unitAt m e))
    linarith

/-- The flags of a rounding that does not overflow tell of a change. -/
theorem inexact_flag (inexact tiny : Bool) : (flagIf inexact flInx ||| flagIf (tiny && inexact) flUnf) &&& flInx = 0 ↔ inexact = false := by
  revert inexact tiny
  decide

/-- A rounding to nearest that does not overflow gives a nearest number of the format, with INX when it is another value. -/
theorem roundF_nearest {f : Fmt} (hf : f.Std) (n : Bool) (m : Nat) (e : Int) (h : (roundF f .rne n false m e).2 &&& flOvf = 0) :
    ∃ m' e', decodeF f (roundF f .rne n false m e).1 = .fin n m' e' ∧
      (∀ n1 m1 e1 w, decodeF f w = .fin n1 m1 e1 → |ratOf n m' e' - ratOf n m e| ≤ |ratOf n1 m1 e1 - ratOf n m e|) ∧
      ((roundF f .rne n false m e).2 &&& flInx = 0 ↔ ratOf n m' e' = ratOf n m e) := by
  by_cases hm : m = 0
  · subst hm
    obtain ⟨flags, -, m', e', hdec, hval⟩ := roundF_exact hf .rne n (Nat.two_pow_pos _) le_rfl (Or.inl hf.qMin_lt_maxQ)
    rw [roundF_zero] at hdec flags ⊢
    rw [ratOf_zero] at hval ⊢
    exact ⟨m', e', hdec, fun _ _ _ _ _ => by simp [hval], by simp [hval]⟩
  · obtain hov | ⟨hmax, hr⟩ := roundF_cases f .rne n false e (Or.inl hm)
    · rw [hov, overflowF_flags] at h
      exact absurd h (by decide)
    · obtain ⟨hk, hidden⟩ := significand_bounds f .rne n false m e
      obtain ⟨-, m', e', hdec, hval⟩ := decodeF_packBits hf n (qMin_le_unitAt f m e) hk hmax
      obtain ⟨⟨near, -⟩, exact'⟩ := roundAt_rounds .rne n m e (f.unitAt m e)
      have hpos : (0 : ℚ) < 2 ^ f.unitAt m e := by positivity
      have hres := (hval (hidden hm)).trans (ratOf_unit n _ _ (f.unitAt m e))
      rw [sub_self, ratOf_units] at hres
      have hx := ratOf_unit n m e (f.unitAt m e)
      rw [hr]
      refine ⟨m', e', hdec, fun n1 m1 e1 w hw => ?_, ?_⟩
      · obtain ⟨hm1, he1, -⟩ := decodeF_eq_fin hf hw
        rw [hres, hx, ratOf_unit n1 m1 e1 (f.unitAt m e), ← sub_mul, ← sub_mul, abs_mul, abs_mul, abs_sub_comm, abs_sub_comm (ratOf n1 _ _)]
        exact mul_le_mul_of_nonneg_right (nearest_number f n hm e near n1 hm1 he1) (abs_nonneg _)
      · rw [inexact_flag, exact', hres, hx, mul_left_inj' hpos.ne', ratOf, mul_assoc]
        cases n <;> simp [eq_comm]

/-- Settles O9: roundF_nearest over the five formats. -/
theorem roundsToNearest : Obligations.RoundsToNearest := by
  unfold Obligations.RoundsToNearest
  intro val finite f hf n m e x r hovf
  obtain ⟨m', e', hdec, nearest, inexact⟩ := roundF_nearest (formats_std f hf) n m e hovf
  have hval : val (decodeF f r.1) = ratOf n m' e' := congrArg val hdec
  refine ⟨?_, fun w _ hw => ?_, ?_⟩
  · change finite (decodeF f (roundF f .rne n false m e).1)
    rw [hdec]
    exact ⟨rfl, rfl⟩
  · rw [hval]
    cases hd : decodeF f w with
    | fin n1 m1 e1 => exact nearest n1 m1 e1 w hd
    | inf _ => simp [finite, hd, FVal.isInf] at hw
    | nan => simp [finite, hd, FVal.isNan] at hw
  · rw [hval]
    exact inexact

end Sys2Proof.Machine
end

section
/-! SUPPORT. Floating-point values as rational numbers: the exact operations, comparison, and rounding by value (R50, R60). -/

namespace Sys2Proof.Machine

/-- The number a value holds, zero for a NaN or an infinity. -/
def FVal.val : FVal → ℚ
  | .fin n m e => ratOf n m e
  | _ => 0

/-- The value is a number. -/
def FVal.Fin (v : FVal) : Prop := ∃ n m e, v = .fin n m e

@[simp] theorem fin_val (n : Bool) (m : Nat) (e : Int) : (FVal.fin n m e).val = ratOf n m e := rfl
@[simp] theorem fin_Fin (n : Bool) (m : Nat) (e : Int) : (FVal.fin n m e).Fin := ⟨n, m, e, rfl⟩

theorem ratOf_eq_zero {n : Bool} {m : Nat} {e : Int} : ratOf n m e = 0 ↔ m = 0 := by
  have he := zpow_ne_zero e (two_ne_zero : (2 : ℚ) ≠ 0)
  cases n <;> simp [ratOf, he]

theorem ratOf_neg {n : Bool} {m : Nat} {e : Int} : ratOf n m e < 0 ↔ n = true ∧ m ≠ 0 := by
  have he : (0 : ℚ) < 2 ^ e := by positivity
  have hm : (0 : ℚ) ≤ m := by positivity
  cases n
  · simp [ratOf]
    positivity
  · simp [ratOf, he, Nat.pos_iff_ne_zero]

theorem ratOf_not (n : Bool) (m : Nat) (e : Int) : ratOf (!n) m e = -ratOf n m e := by
  cases n <;> simp [ratOf]

/-! Exact operations. -/

theorem sig_value (n : Bool) (m : Nat) {e q : Int} (h : q ≤ e) : (sig n m e q : ℚ) * 2 ^ q = ratOf n m e := by
  have := units_value m h
  cases n <;> simp only [sig, ratOf, if_true, if_false, Bool.false_eq_true] <;> push_cast at * <;> linarith

theorem ratOf_natAbs (v : Int) (q : Int) : ratOf (decide (v < 0)) v.natAbs q = v * 2 ^ q := by
  rw [ratOf, Nat.cast_natAbs]
  by_cases h : v < 0
  · simp [h, abs_of_neg h]
  · simp [h, abs_of_nonneg (not_lt.1 h)]

@[simp] theorem ofInt_val (i : Int) : (FVal.ofInt i).val = i := by simp [FVal.ofInt, ratOf_natAbs]
@[simp] theorem ofInt_Fin (i : Int) : (FVal.ofInt i).Fin := fin_Fin ..

/-- A sum of numbers is their exact sum. -/
theorem exAdd_num (rm : Rm) {a b : FVal} (ha : a.Fin) (hb : b.Fin) : (exAdd rm a b).Fin ∧ (exAdd rm a b).val = a.val + b.val := by
  obtain ⟨n, m, e, rfl⟩ := ha
  obtain ⟨n', m', e', rfl⟩ := hb
  have hsum : ((sig n m e (min e e') + sig n' m' e' (min e e') : Int) : ℚ) * 2 ^ min e e' = ratOf n m e + ratOf n' m' e' := by
    rw [Int.cast_add, add_mul, sig_value n m (min_le_left _ _), sig_value n' m' (min_le_right _ _)]
  simp only [exAdd, fin_val]
  split
  · next hz =>
    obtain ⟨rfl, rfl⟩ : m = 0 ∧ m' = 0 := by simpa using hz
    split <;> simp [ratOf_zero]
  · split
    · next hv =>
      rw [hv] at hsum
      simpa [ratOf_zero] using hsum
    · exact ⟨fin_Fin .., by rw [fin_val, ratOf_natAbs, hsum]⟩

theorem neg_num {a : FVal} (ha : a.Fin) : a.neg.Fin ∧ a.neg.val = -a.val := by
  obtain ⟨n, m, e, rfl⟩ := ha
  exact ⟨fin_Fin .., ratOf_not n m e⟩

theorem scale_num {a : FVal} (ha : a.Fin) (k : Int) : (a.scale k).Fin ∧ (a.scale k).val = a.val * 2 ^ k := by
  obtain ⟨n, m, e, rfl⟩ := ha
  exact ⟨fin_Fin .., by rw [FVal.scale, fin_val, fin_val, ratOf, ratOf, zpow_add₀ two_ne_zero, ← mul_assoc]⟩

theorem abs_num {a : FVal} (ha : a.Fin) : a.abs.Fin ∧ a.abs.val = |a.val| := by
  obtain ⟨n, m, e, rfl⟩ := ha
  exact ⟨fin_Fin .., by rw [FVal.abs, fin_val, fin_val, abs_ratOf]; simp [ratOf]⟩

theorem isZero_num {a : FVal} (ha : a.Fin) : a.isZero = decide (a.val = 0) := by
  obtain ⟨n, m, e, rfl⟩ := ha
  cases m <;> simp [FVal.isZero, ratOf_eq_zero]

theorem isNan_num {a : FVal} (ha : a.Fin) : a.isNan = false := by
  obtain ⟨n, m, e, rfl⟩ := ha
  rfl

theorem isInf_num {a : FVal} (ha : a.Fin) : a.isInf = false := by
  obtain ⟨n, m, e, rfl⟩ := ha
  rfl

/-- Numbers are compared by value. -/
theorem fLt_num {a b : FVal} (ha : a.Fin) (hb : b.Fin) : fLt a b = decide (a.val < b.val) := by
  obtain ⟨n, m, e, rfl⟩ := ha
  obtain ⟨n', m', e', rfl⟩ := hb
  have hq : (0 : ℚ) < 2 ^ min e e' := by positivity
  simp only [fLt, fin_val, ← sig_value n m (min_le_left e e'), ← sig_value n' m' (min_le_right e e'), mul_lt_mul_iff_left₀ hq, Int.cast_lt]

theorem fEq_num {a b : FVal} (ha : a.Fin) (hb : b.Fin) : fEq a b = decide (a.val = b.val) := by
  rw [fEq, isNan_num ha, isNan_num hb, fLt_num ha hb, fLt_num hb ha]
  by_cases h : a.val = b.val
  · simp [h]
  · obtain hlt | hlt := lt_or_gt_of_ne h <;> simp [h, hlt]

/-- A number rounded to an integral value is the integer that the mode names (R64, R125). -/
theorem roundInt_num (rm : Rm) {v : FVal} (hv : v.Fin) :
    ∃ z : Int, (roundInt rm v).1.Fin ∧ (roundInt rm v).1.val = z ∧ fvInt (roundInt rm v).1 = z ∧ RoundsInt rm v.val z ∧ ((roundInt rm v).2 = false ↔ v.val = z) := by
  obtain ⟨n, m, e, rfl⟩ := hv
  by_cases he : e ≥ 0
  · have hval := sig_value n m he
    rw [zpow_zero, mul_one] at hval
    refine ⟨sig n m e 0, ?_⟩
    simp only [roundInt, he, if_true, fvInt, fin_val, ← hval]
    exact ⟨fin_Fin .., trivial, trivial, roundsInt_self rm _, by simp⟩
  · obtain ⟨rounds, exact'⟩ := roundAt_rounds rm n m e 0
    rw [sub_zero] at rounds exact'
    refine ⟨_, ?_, ?_, ?_, rounds, ?_⟩
    · simp [roundInt, he]
    · simp only [roundInt, he, if_false, fin_val, ratOf_units]
    · simp [roundInt, he, fvInt, sig]
    · simp only [roundInt, he, if_false, fin_val, exact', ← ratOf_units]
      rw [ratOf, ratOf, zpow_zero, mul_one, mul_assoc]
      cases n <;> simp

/-! Rounding by value. -/

/-- A number of the format, but for zero, is rounded to its own pattern. -/
theorem encodeF_of_val {f : Fmt} (hf : f.Std) (rm : Rm) {v : FVal} (hv : v.Fin) {b : Nat} (hb : b < 2 ^ f.width) (hd : (decodeF f b).Fin) (h0 : v.val ≠ 0)
    (h : v.val = (decodeF f b).val) : encodeF f rm v = (b, 0) := by
  obtain ⟨n, m, e, rfl⟩ := hv
  obtain ⟨n', m', e', hd⟩ := hd
  rw [hd, fin_val, fin_val] at h
  have hm : m ≠ 0 := fun hm => h0 (ratOf_eq_zero.2 hm)
  have hm' : m' ≠ 0 := fun hm' => h0 (h.trans (ratOf_eq_zero.2 hm'))
  have hn : n = n' := by
    have hneg : ratOf n m e < 0 ↔ ratOf n' m' e' < 0 := by rw [h]
    rw [ratOf_neg, ratOf_neg] at hneg
    cases n <;> cases n' <;> simp_all
  subst hn
  refine roundF_of_decodeF hf rm hb hd hm' ?_
  rw [← abs_ratOf n, h, abs_ratOf]

/-- A value of few bits is rounded to a pattern of that value, with no flag. -/
theorem encodeF_exact {f : Fmt} (hf : f.Std) (rm : Rm) {v : FVal} (hv : v.Fin) {n : Bool} {m : Nat} {e : Int} (h : v.val = ratOf n m e) (hm : m < 2 ^ (f.fw + 1))
    (hmin : f.qMin ≤ e) (hmax : e < f.maxQ ∨ e = f.maxQ ∧ m ≤ f.maxM) :
    (encodeF f rm v).2 = 0 ∧ (encodeF f rm v).1 < 2 ^ f.width ∧ (decodeF f (encodeF f rm v).1).Fin ∧ (decodeF f (encodeF f rm v).1).val = v.val := by
  by_cases h0 : v.val = 0
  · obtain ⟨n', m', e', rfl⟩ := hv
    obtain rfl := ratOf_eq_zero.1 h0
    obtain ⟨flags, hw, m'', e'', hd, hval⟩ := roundF_exact hf rm n' (Nat.two_pow_pos _) le_rfl (Or.inl hf.qMin_lt_maxQ)
    rw [roundF_zero] at flags hw hd
    rw [ratOf_zero] at hval
    simp only [encodeF, roundF_zero, hd, fin_val, hval, ratOf_zero]
    exact ⟨trivial, hw, fin_Fin .., trivial⟩
  · obtain ⟨-, hw, m', e', hd, hval⟩ := roundF_exact hf rm n hm hmin hmax
    have henc := encodeF_of_val hf rm hv hw ⟨_, _, _, hd⟩ h0 (by rw [hd, fin_val, hval, h])
    rw [henc, hd]
    exact ⟨rfl, hw, fin_Fin .., by rw [fin_val, hval, h]⟩

end Sys2Proof.Machine
end

section
/-! SUPPORT. F32 words by their bits and by their values (R50), and results without scale and clamp. -/

namespace Sys2Proof.Machine

/-- The value of R50's formula is that of the decoded pattern. -/
theorem patVal_eq {f : Fmt} {b : Nat} (h : (decodeF f b).Fin) : patVal f.ew f.fw b = (decodeF f b).val := by
  have special : ¬f.Special (b / 2 ^ f.fw % 2 ^ f.ew) (b % 2 ^ f.fw) := fun hs => by
    obtain ⟨n, m, e, hd⟩ := h
    rw [decodeF_special hs] at hd
    split at hd <;> cases hd
  have hbias : f.qMin = 1 - (2 ^ (f.ew - 1) - 1) - f.fw := by
    have := Nat.two_pow_pos (f.ew - 1)
    unfold Fmt.qMin Fmt.bias
    push_cast [this]
    ring
  rw [decodeF_finite special, patVal]
  by_cases hex : b / 2 ^ f.fw % 2 ^ f.ew = 0
  · simp [hex, ratOf, hbias]
  · have he : f.qMin + ((b / 2 ^ f.fw % 2 ^ f.ew - 1 : Nat) : Int) = (b / 2 ^ f.fw % 2 ^ f.ew : Nat) - (2 ^ (f.ew - 1) - 1) - f.fw := by omega
    simp only [hex, if_false, fin_val, ratOf, he, beq_iff_eq, mul_assoc]

/-! The fields of a word. -/

theorem std32 : fmtF32.Std := by decide

theorem f32_fields (w : Word) :
    w.toNat / 2 ^ fmtF32.fw % 2 ^ fmtF32.ew = f32Mag w / 2 ^ 23 ∧ w.toNat % 2 ^ fmtF32.fw = f32Mag w % 2 ^ 23 ∧ (w.toNat / 2 ^ (fmtF32.ew + fmtF32.fw) % 2 == 1) = w.msb := by
  have hw := w.isLt
  change w.toNat / 2 ^ 23 % 2 ^ 8 = _ ∧ w.toNat % 2 ^ 23 = _ ∧ (w.toNat / 2 ^ 31 % 2 == 1) = _
  rw [f32Mag, BitVec.msb_eq_decide, Bool.eq_iff_iff, beq_iff_eq, decide_eq_true_eq]
  omega

/-- The value of a finite word, by its exponent and its fraction. -/
theorem f32_of_finite {w : Word} (h : f32Finite w) :
    f32 w = if f32Mag w / 2 ^ 23 = 0 then .fin w.msb (f32Mag w % 2 ^ 23) (-149) else .fin w.msb (2 ^ 23 + f32Mag w % 2 ^ 23) (-149 + (f32Mag w / 2 ^ 23 - 1 : Nat)) := by
  obtain ⟨hex, hfr, hn⟩ := f32_fields w
  have hs : ¬fmtF32.Special (f32Mag w / 2 ^ 23) (f32Mag w % 2 ^ 23) := fun hs => by
    have : f32Mag w / 2 ^ 23 = 255 := hs.1
    omega
  rw [f32, decodeF_finite (by rwa [hex, hfr]), hex, hfr, hn]
  rfl

theorem f32_of_notFinite {w : Word} (h : ¬f32Finite w) : f32 w = if f32Mag w = 0x7F800000 then .inf w.msb else .nan := by
  obtain ⟨hex, hfr, hn⟩ := f32_fields w
  have hw : f32Mag w < 2 ^ 31 := Nat.mod_lt _ (by decide)
  have hs : fmtF32.Special (f32Mag w / 2 ^ 23) (f32Mag w % 2 ^ 23) := ⟨by change _ = 255; omega, fun h => by cases h⟩
  rw [f32, decodeF_special (by rwa [hex, hfr]), hfr, hn]
  have : fmtF32.e4 = false ∧ f32Mag w % 2 ^ 23 = 0 ↔ f32Mag w = 0x7F800000 := by
    simp only [show fmtF32.e4 = false from rfl, true_and]
    omega
  simp only [this]

theorem f32_of_inf {w : Word} (h : f32IsInf w) : f32 w = .inf w.msb := by rw [f32_of_notFinite (by omega), if_pos h]
theorem f32_of_nan {w : Word} (h : f32IsNan w) : f32 w = .nan := by rw [f32_of_notFinite (by omega), if_neg (by omega)]

theorem f32_Fin {w : Word} (h : f32Finite w) : (f32 w).Fin := by
  rw [f32_of_finite h]
  split <;> exact fin_Fin ..

theorem f32Finite_of_Fin {w : Word} (h : (f32 w).Fin) : f32Finite w := by
  by_contra hn
  obtain ⟨n, m, e, hf⟩ := h
  rw [f32_of_notFinite hn] at hf
  split at hf <;> cases hf

theorem f32Val_eq {w : Word} (h : f32Finite w) : f32Val w = (f32 w).val := patVal_eq (f := fmtF32) (f32_Fin h)

theorem f32_sgn {w : Word} (h : ¬f32IsNan w) : (f32 w).sgn = w.msb := by
  by_cases hf : f32Finite w
  · rw [f32_of_finite hf]
    split <;> rfl
  · rw [f32_of_inf (by omega)]
    rfl

theorem f32Val_eq_zero {w : Word} (h : f32Finite w) : f32Val w = 0 ↔ f32IsZero w := by
  rw [f32Val_eq h, f32_of_finite h]
  split <;> rw [fin_val, ratOf_eq_zero] <;> omega

/-! A word of a sign and a magnitude. -/

theorem f32Of_toNat (n : Bool) {x : Nat} (hx : x < 2 ^ 31) : (f32Of n x).toNat = (if n then 2 ^ 31 else 0) + x := by
  rw [f32Of, BitVec.toNat_ofNat, Nat.mod_eq_of_lt]
  split <;> omega

theorem f32Mag_f32Of (n : Bool) {x : Nat} (hx : x < 2 ^ 31) : f32Mag (f32Of n x) = x := by
  rw [f32Mag, f32Of_toNat n hx]
  split <;> omega

theorem msb_f32Of (n : Bool) {x : Nat} (hx : x < 2 ^ 31) : (f32Of n x).msb = n := by
  rw [BitVec.msb_eq_decide, f32Of_toNat n hx]
  cases n
  · simpa using hx
  · simp

theorem f32Of_msb_mag (w : Word) : f32Of w.msb (f32Mag w) = w := by
  have hw := w.isLt
  apply BitVec.eq_of_toNat_eq
  rw [f32Of_toNat _ (show f32Mag w < 2 ^ 31 from Nat.mod_lt _ (by decide)), BitVec.msb_eq_decide, f32Mag]
  simp only [decide_eq_true_eq]
  split <;> omega

/-- The sign and the magnitude of a power of two of the normal range. -/
theorem f32_normal_pow (n : Bool) {x : Nat} (h1 : 1 ≤ x) (h2 : x ≤ 254) : f32 (f32Of n (x * 2 ^ 23)) = .fin n (2 ^ 23) ((x : Int) - 150) := by
  have hx : x * 2 ^ 23 < 2 ^ 31 := by omega
  rw [f32_of_finite (by rw [f32Finite, f32Mag_f32Of n hx]; omega), f32Mag_f32Of n hx, msb_f32Of n hx, if_neg (by omega)]
  congr 1 <;> omega

theorem f32Val_normal_pow (n : Bool) {x : Nat} (h1 : 1 ≤ x) (h2 : x ≤ 254) :
    f32Finite (f32Of n (x * 2 ^ 23)) ∧ f32Val (f32Of n (x * 2 ^ 23)) = ratOf n 1 ((x : Int) - 127) := by
  have hd := f32_normal_pow n h1 h2
  have hf : f32Finite (f32Of n (x * 2 ^ 23)) := f32Finite_of_Fin ⟨_, _, _, hd⟩
  refine ⟨hf, ?_⟩
  rw [f32Val_eq hf, hd, fin_val, ratOf, ratOf, show (x : Int) - 127 = 23 + (x - 150) by ring, zpow_add₀ two_ne_zero]
  push_cast
  ring

theorem f32Val_subnormal_pow (n : Bool) {j : Nat} (h : j < 23) : f32Finite (f32Of n (2 ^ j)) ∧ f32Val (f32Of n (2 ^ j)) = ratOf n 1 ((j : Int) - 149) := by
  have hlt : 2 ^ j < 2 ^ 23 := Nat.pow_lt_pow_right (by decide) h
  have hx : 2 ^ j < 2 ^ 31 := by omega
  have hf : f32Finite (f32Of n (2 ^ j)) := by rw [f32Finite, f32Mag_f32Of n hx]; omega
  refine ⟨hf, ?_⟩
  rw [f32Val_eq hf, f32_of_finite hf, f32Mag_f32Of n hx, msb_f32Of n hx, if_pos (Nat.div_eq_of_lt hlt), Nat.mod_eq_of_lt hlt, fin_val, ratOf, ratOf, sub_eq_add_neg,
    zpow_add₀ two_ne_zero, zpow_natCast]
  push_cast
  ring

/-- A number of F32 is rounded to its word. -/
theorem encode32_of_val (rm : Rm) {v : FVal} (hv : v.Fin) {w : Word} (hw : f32Finite w) (h0 : v.val ≠ 0) (h : v.val = f32Val w) :
    encodeF fmtF32 rm v = (w.toNat, 0) :=
  encodeF_of_val std32 rm hv w.isLt (f32_Fin hw) h0 (h.trans (f32Val_eq hw))

/-! Results without scale and clamp. -/

@[simp] theorem scale_zero (v : FVal) : v.scale 0 = v := by
  cases v <;> simp [FVal.scale]

@[simp] theorem sclOf_zero : sclOf Dst.zero.scl = 0 := rfl

@[simp] theorem finishF_zero (f : Fmt) (rm : Rm) (v : FVal) : finishF f rm Dst.zero v = encodeF f rm v := by
  rw [finishF, sclOf_zero, scale_zero]
  exact Prod.ext rfl (BitVec.or_zero ..)

@[simp] theorem finishSpecial_zero (b : Nat) (fl : Flags) : finishSpecial Dst.zero b fl = (BitVec.ofNat 32 b, fl) := by
  exact Prod.ext rfl (BitVec.or_zero ..)

@[simp] theorem ofNat_toNat (w : Word) : BitVec.ofNat 32 w.toNat = w := BitVec.eq_of_toNat_eq (by simp)

end Sys2Proof.Machine
end

section
/-! SUPPORT. Every NaN that an operation gives in F32 is the canonical one (R61). -/

namespace Sys2Proof.Machine

/-- A pattern of F32 that is no NaN but the canonical one. -/
abbrev Canonical32 (b : Nat) : Prop := b < 2 ^ 32 ∧ (0x7F800000 < b % 2 ^ 31 → b = 0x7FC00000)

/-- A word that is no NaN but the canonical one. -/
def CanonicalNan (w : Word) : Prop := f32IsNan w → w = canon

theorem Canonical32.word {b : Nat} (h : Canonical32 b) : CanonicalNan (BitVec.ofNat 32 b) := by
  intro hn
  rw [f32IsNan, f32Mag, BitVec.toNat_ofNat, Nat.mod_eq_of_lt h.1] at hn
  rw [h.2 hn]
  rfl

theorem canonical_of_Fin {b : Nat} (hb : b < 2 ^ 32) (h : (decodeF fmtF32 b).Fin) : Canonical32 b := by
  have hw : (BitVec.ofNat 32 b).toNat = b := by rw [BitVec.toNat_ofNat, Nat.mod_eq_of_lt hb]
  have hf : f32Finite (BitVec.ofNat 32 b) := f32Finite_of_Fin (by rwa [f32, hw])
  rw [f32Finite, f32Mag, hw] at hf
  exact ⟨hb, fun h => by omega⟩

theorem canonical_of_not_nan {w : Word} (h : (f32 w).isNan = false) : Canonical32 w.toNat := by
  refine ⟨w.isLt, fun hn => ?_⟩
  rw [f32_of_nan hn] at h
  cases h

theorem canonical_nan : Canonical32 fmtF32.nan := by decide
theorem canonical_sign : ∀ n, Canonical32 (fmtF32.sign n) := by decide
theorem canonical_infBits : ∀ n, Canonical32 (fmtF32.infBits n) := by decide
theorem canonical_maxBits : ∀ n, Canonical32 (fmtF32.maxBits n) := by decide

/-! Rounding, clamps and the common ends of the operations. -/

theorem canonical_roundF (rm : Rm) (n st : Bool) (m : Nat) (e : Int) : Canonical32 (roundF fmtF32 rm n st m e).1 := by
  by_cases h : m ≠ 0 ∨ st = true
  · obtain hov | ⟨hmax, hr⟩ := roundF_cases fmtF32 rm n st e h
    · rw [hov]
      obtain hb | ⟨-, hb⟩ := overflowF_bits fmtF32 rm n
      · exact hb ▸ canonical_maxBits n
      · exact hb ▸ canonical_infBits n
    · obtain ⟨hk, -⟩ := significand_bounds fmtF32 rm n st m e
      obtain ⟨hw, m', e', hd, -⟩ := decodeF_packBits std32 n (qMin_le_unitAt fmtF32 m e) hk hmax
      rw [hr]
      exact canonical_of_Fin hw ⟨_, _, _, hd⟩
  · obtain ⟨rfl, rfl⟩ : m = 0 ∧ st = false := by simpa using h
    exact canonical_sign n

theorem canonical_encodeF (rm : Rm) (v : FVal) : Canonical32 (encodeF fmtF32 rm v).1 := by
  cases v with
  | nan => exact canonical_nan
  | inf n => exact canonical_infBits n
  | fin n m e => exact canonical_roundF rm n false m e

theorem canonical_clampF (c : Clamp) {b : Nat} (h : Canonical32 b) : Canonical32 (clampF fmtF32 c b).1 := by
  have zero : Canonical32 0 := by decide
  cases c <;> simp only [clampF]
  case none => exact h
  case unit =>
    split_ifs
    · exact zero
    · exact canonical_encodeF ..
    · exact h
  case sym =>
    split_ifs
    · exact zero
    · exact canonical_encodeF ..
    · exact canonical_encodeF ..
    · exact h
  case sat =>
    split_ifs
    · exact canonical_maxBits _
    · exact h

theorem canonical_finishF (rm : Rm) (d : Dst) (v : FVal) : Canonical32 (finishF fmtF32 rm d v).1 := canonical_clampF _ (canonical_encodeF ..)
theorem canonical_finishInv (rm : Rm) (d : Dst) (v : FVal) : Canonical32 (finishInv fmtF32 rm d v).1 := canonical_finishF rm d v

theorem canonical_finishSticky (rm : Rm) (d : Dst) (n st : Bool) (m : Nat) (e : Int) : CanonicalNan (finishSticky rm d n st m e).1 :=
  (canonical_clampF _ (canonical_roundF ..)).word

theorem canonical_finishSpecial (d : Dst) {b : Nat} (fl : Flags) (h : Canonical32 b) : CanonicalNan (finishSpecial d b fl).1 := (canonical_clampF _ h).word

/-- An algorithm that stops, stops with a pattern that is no NaN but the canonical one. -/
def Fin32.Canonical : Fin32 → Prop
  | .stop b _ => Canonical32 b
  | .final _ _ => True

theorem canonical_finishSpecialFn (d : Dst) {r : Fin32} (h : r.Canonical) : CanonicalNan (finishSpecialFn d r).1 := by
  cases r with
  | final v inx => exact (canonical_finishF ..).word
  | stop b fl => exact canonical_finishSpecial d fl h

theorem canonical_cvtOne (rm : Rm) (d : Dst) (v : FVal) : CanonicalNan (cvtOne rm d v).1 := (canonical_finishF ..).word

/-! The operations. -/

section
variable (rm : Rm) (d : Dst) (a b c : Word)

theorem canonical_laneFadd : CanonicalNan (laneFadd .f32 rm d a b).1 := (canonical_finishInv ..).word
theorem canonical_laneFmul : CanonicalNan (laneFmul .f32 rm d a b).1 := (canonical_finishInv ..).word
theorem canonical_laneFfma : CanonicalNan (laneFfma .f32 d a b c).1 := (canonical_finishInv ..).word

/-- FMIN and FMAX choose an operand that is no NaN, or the canonical NaN. -/
theorem canonical_minmax (isMax : Bool) : Canonical32 (minmax fmtF32 isMax a.toNat b.toNat) := by
  change Canonical32 (if (f32 a).isNan then (if (f32 b).isNan then fmtF32.nan else b.toNat) else if (f32 b).isNan then a.toNat
    else if isMax then (if minLt (f32 a) (f32 b) then b.toNat else a.toNat) else (if minLt (f32 b) (f32 a) then b.toNat else a.toNat))
  have choice : ∀ {c : Bool} {x y : Nat}, Canonical32 x → Canonical32 y → Canonical32 (if c then x else y) := by
    intro c x y hx hy
    cases c
    · exact hy
    · exact hx
  cases ha : (f32 a).isNan <;> cases hb : (f32 b).isNan
  · have hca := canonical_of_not_nan ha
    have hcb := canonical_of_not_nan hb
    exact choice (c := isMax) (choice hcb hca) (choice hcb hca)
  · exact canonical_of_not_nan ha
  · exact canonical_of_not_nan hb
  · exact canonical_nan

theorem canonical_laneFminmax (isMax : Bool) : CanonicalNan (laneFminmax .f32 isMax d a b).1 := (canonical_clampF _ (canonical_minmax a b isMax)).word

theorem canonical_laneFrnd : CanonicalNan (laneFrnd .f32 rm d a).1 := by
  simp only [laneFrnd, elementwise]
  split_ifs with hz
  · refine (canonical_clampF _ (canonical_of_not_nan ?_)).word
    rw [f32]
    cases hd : decodeF fmtF32 a.toNat <;> simp_all [fmtOf, FVal.isZero, FVal.isNan]
  · exact (canonical_clampF _ (canonical_encodeF ..)).word

theorem canonical_laneFldexp : CanonicalNan (laneFldexp rm d a b).1 := (canonical_finishF ..).word

theorem canonical_laneFdiv : CanonicalNan (laneFdiv rm d a b).1 := by
  unfold laneFdiv
  split
  · exact canonical_finishSpecial d _ canonical_nan
  · exact canonical_finishSpecial d _ canonical_nan
  · exact canonical_finishSpecial d _ canonical_nan
  · exact canonical_finishSpecial d _ (canonical_infBits _)
  · exact canonical_finishSpecial d _ (canonical_sign _)
  · split_ifs
    · exact canonical_finishSpecial d _ canonical_nan
    · exact canonical_finishSpecial d _ (canonical_infBits _)
    · exact canonical_finishSpecial d _ (canonical_sign _)
    · exact canonical_finishSticky _ _ _ _ _ _

theorem canonical_laneFsqrt : CanonicalNan (laneFsqrt rm d a).1 := by
  unfold laneFsqrt
  split
  · exact canonical_finishSpecial d _ canonical_nan
  · split_ifs
    · exact canonical_finishSpecial d _ canonical_nan
    · exact canonical_finishSpecial d _ (canonical_infBits _)
  · split_ifs
    · exact canonical_finishSpecial d _ (canonical_sign _)
    · exact canonical_finishSpecial d _ canonical_nan
    · exact canonical_finishSticky _ _ _ _ _ _

theorem canonical_laneFdot2 (t : DotTy) : CanonicalNan (laneFdot2 t d a b c).1 := (canonical_clampF _ (canonical_encodeF ..)).word

end

/-! The algorithms of the special functions, branch by branch. -/

theorem Fin32.Canonical.ite {c : Prop} [Decidable c] {x y : Fin32} (hx : x.Canonical) (hy : y.Canonical) : (if c then x else y).Canonical := by
  split
  · exact hx
  · exact hy

theorem canonical_rcpCore (x : FVal) : (rcpCore x).Canonical :=
  match x with
  | .nan => canonical_nan
  | .inf _ => canonical_sign _
  | .fin _ _ _ => .ite (canonical_infBits _) (.ite (x := .final _ _) (y := .final _ _) trivial trivial)

theorem canonical_rsqCore (x : FVal) : (rsqCore x).Canonical :=
  match x with
  | .nan => canonical_nan
  | .inf _ => .ite (x := .stop _ _) (y := .stop _ _) canonical_nan (canonical_sign false)
  | .fin _ _ _ => .ite (x := .stop _ _) (canonical_infBits _) (.ite (x := .stop _ _) canonical_nan (.ite (x := .final _ _) (y := .final _ _) trivial trivial))

theorem canonical_exp2Core (x : FVal) : (exp2Core x).Canonical :=
  match x with
  | .nan => canonical_nan
  | .inf _ => .ite (x := .stop _ _) (y := .stop _ _) (canonical_sign false) (canonical_infBits _)
  | .fin _ _ _ => .ite (x := .final _ _) trivial (.ite (x := .final _ _) (y := .final _ _) trivial trivial)

theorem canonical_log2Core (x : FVal) : (log2Core x).Canonical :=
  match x with
  | .nan => canonical_nan
  | .inf _ => .ite (x := .stop _ _) (y := .stop _ _) canonical_nan (canonical_infBits _)
  | .fin _ _ _ => .ite (x := .stop _ _) (canonical_infBits _) (.ite (x := .stop _ _) (y := .final _ _) canonical_nan trivial)

theorem canonical_sinpiCore (x : FVal) : (sinpiCore x).Canonical :=
  .ite (x := .stop _ _) canonical_nan (.ite (x := .stop _ _) canonical_nan
    (.ite (x := .stop _ _) (canonical_sign _) (.ite (x := .final _ _) (y := .final _ _) trivial trivial)))

theorem canonical_cospiCore (x : FVal) : (cospiCore x).Canonical :=
  .ite (x := .stop _ _) canonical_nan (.ite (x := .stop _ _) canonical_nan (.ite (x := .stop _ _) (canonical_sign false)
    (.ite (x := .final _ _) trivial (.ite (x := .final _ _) trivial (.ite (x := .final _ _) (y := .final _ _) trivial trivial)))))

theorem canonical_tanhCore (x : FVal) : (tanhCore x).Canonical :=
  match x with
  | .nan => canonical_nan
  | .inf _ => canonical_encodeF ..
  | .fin _ _ _ => .ite (x := .stop _ _) (canonical_sign _) (.ite (x := .final _ _) trivial (.ite (x := .final _ _) (y := .final _ _) trivial trivial))

/-- Every result in F32 of a lane operation but for the reductions. -/
def f32Results (rm : Rm) (d : Dst) (a b c : Word) : List Word :=
  [(laneFadd .f32 rm d a b).1, (laneFmul .f32 rm d a b).1, (laneFfma .f32 d a b c).1, (laneFminmax .f32 false d a b).1,
    (laneFminmax .f32 true d a b).1, (laneFrnd .f32 rm d a).1, (laneFldexp rm d a b).1, (laneFdiv rm d a b).1, (laneFsqrt rm d a).1,
    (laneFdot2 .f16 d a b c).1, (laneFdot2 .bf16 d a b c).1, (laneRcp d a).1, (laneRsq d a).1, (laneExp2 d a).1, (laneLog2 d a).1,
    (laneSinpi d a).1, (laneCospi d a).1, (laneTanh d a).1, (laneUnpkq .q4x d a b).1, (laneUnpkq .i4 d a b).1] ++
    [CvtV.f32s32, .f32u32, .f32f16, .f32bf16, .f32f8e4, .f32f8e5, .f32s8, .f32i4].map fun v => (laneCvt v rm d a b).1

theorem canonical_f32Results (rm : Rm) (d : Dst) (a b c : Word) : ∀ r ∈ f32Results rm d a b c, CanonicalNan r := by
  simp only [f32Results, List.forall_mem_append, List.forall_mem_map, List.forall_mem_cons]
  exact ⟨⟨canonical_laneFadd rm d a b, canonical_laneFmul rm d a b, canonical_laneFfma d a b c, canonical_laneFminmax d a b false, canonical_laneFminmax d a b true,
    canonical_laneFrnd rm d a, canonical_laneFldexp rm d a b, canonical_laneFdiv rm d a b, canonical_laneFsqrt rm d a, canonical_laneFdot2 d a b c .f16,
    canonical_laneFdot2 d a b c .bf16, canonical_finishSpecialFn d (canonical_rcpCore _), canonical_finishSpecialFn d (canonical_rsqCore _),
    canonical_finishSpecialFn d (canonical_exp2Core _), canonical_finishSpecialFn d (canonical_log2Core _), canonical_finishSpecialFn d (canonical_sinpiCore _),
    canonical_finishSpecialFn d (canonical_cospiCore _), canonical_finishSpecialFn d (canonical_tanhCore _), canonical_cvtOne .rne d _, canonical_cvtOne .rne d _,
    List.forall_mem_nil _⟩,
    canonical_cvtOne rm d _, canonical_cvtOne rm d _, canonical_cvtOne rm d _, canonical_cvtOne rm d _, canonical_cvtOne rm d _, canonical_cvtOne rm d _,
    canonical_cvtOne rm d _, canonical_cvtOne rm d _, List.forall_mem_nil _⟩

/-- A sum over at least two lanes ends with an addition (R142). -/
theorem canonical_reduce_fadd (rm : Rm) (vals : Lanes) (l m : Nat) (ls : List Nat) : CanonicalNan (reduce .fadd rm vals (l :: m :: ls)).w := by
  have step : ∀ (ls : List Nat) (acc : Word × Flags), CanonicalNan acc.1 →
      CanonicalNan (ls.foldl (fun acc m => ((redStep .fadd rm acc.1 (lane vals m)).1, acc.2 ||| (redStep .fadd rm acc.1 (lane vals m)).2)) acc).1 := by
    intro ls
    induction ls with
    | nil => exact fun acc h => h
    | cons m ls ih => exact fun acc _ => ih _ (canonical_laneFadd rm Dst.zero acc.1 (lane vals m))
  exact step ls _ (canonical_laneFadd rm Dst.zero _ _)

/-! NaN operands of the special functions (R128). -/

theorem finishSpecialFn_nan {d : Dst} (h : d.clmp = .none) : finishSpecialFn d (.stop fmtF32.nan 0) = (canon, 0) := by
  rw [finishSpecialFn, finishSpecial, h]
  rfl

theorem special_of_nan {a : Word} (ha : f32IsNan a) {d : Dst} (hd : d.clmp = .none) :
    ∀ r ∈ [laneRcp d a, laneRsq d a, laneExp2 d a, laneLog2 d a, laneSinpi d a, laneCospi d a, laneTanh d a], r = (canon, 0) := by
  have stops := finishSpecialFn_nan hd
  simp only [laneRcp, laneRsq, laneExp2, laneLog2, laneSinpi, laneCospi, laneTanh, f32_of_nan ha, List.forall_mem_cons]
  exact ⟨stops, stops, stops, stops, stops, stops, stops, List.forall_mem_nil _⟩

end Sys2Proof.Machine
end

section
/-! SUPPORT. The special functions where their results are tabulated (R128-R135). -/

namespace Sys2Proof.Machine

/-! The ends of an algorithm without scale and clamp. -/

theorem stop_zero (b : Nat) (fl : Flags) : finishSpecialFn Dst.zero (.stop b fl) = (BitVec.ofNat 32 b, fl) := finishSpecial_zero b fl

theorem final_zero (v : FVal) (inx : Bool) :
    finishSpecialFn Dst.zero (.final v inx) = (BitVec.ofNat 32 (encodeF fmtF32 .rne v).1, (encodeF fmtF32 .rne v).2 ||| flagIf inx flInx) := by
  rw [finishSpecialFn, finishF_zero]

/-- An exact end that is a number of F32 gives its word. -/
theorem final_of_val {v : FVal} (hv : v.Fin) {w : Word} (hw : f32Finite w) (h0 : v.val ≠ 0) (h : v.val = f32Val w) :
    finishSpecialFn Dst.zero (.final v false) = (w, 0) := by
  rw [final_zero, encode32_of_val .rne hv hw h0 h, ofNat_toNat]
  exact Prod.ext rfl (BitVec.or_zero ..)

/-- A polynomial or refinement path sets INX (R128). -/
theorem final_inexact (v : FVal) : (finishSpecialFn Dst.zero (.final v true)).2 &&& flInx = flInx := by
  rw [final_zero]
  exact (by decide : ∀ fl : Flags, (fl ||| flagIf true flInx) &&& flInx = flInx) _

theorem sign_word (n : Bool) : BitVec.ofNat 32 (fmtF32.sign n) = f32Of n 0 := by cases n <;> rfl
theorem infBits_word (n : Bool) : BitVec.ofNat 32 (fmtF32.infBits n) = f32Of n 0x7F800000 := by cases n <;> rfl

/-- The word of 1 and of -1. -/
theorem f32Val_one (n : Bool) : f32Finite (f32Of n 0x3F800000) ∧ f32Val (f32Of n 0x3F800000) = if n then -1 else 1 := by
  obtain ⟨hf, hval⟩ := f32Val_normal_pow n (x := 127) (by decide) (by decide)
  exact ⟨hf, hval.trans (by cases n <;> simp [ratOf])⟩

/-! Words by what they hold. -/

theorem f32_of_zero {a : Word} (h : f32IsZero a) : f32 a = .fin a.msb 0 (-149) := by
  rw [f32_of_finite (by omega), if_pos (by omega), show f32Mag a % 2 ^ 23 = 0 by omega]

theorem f32_of_nonzero {a : Word} (h : f32Finite a) (h0 : ¬f32IsZero a) : ∃ m e, f32 a = .fin a.msb m e ∧ m ≠ 0 := by
  rw [f32_of_finite h]
  split
  · exact ⟨_, _, rfl, by omega⟩
  · exact ⟨_, _, rfl, by omega⟩

/-- The significand of a normal number has the hidden bit. -/
theorem f32_of_normal {a : Word} (h : f32Finite a) (h1 : 1 ≤ f32Mag a / 2 ^ 23) :
    f32 a = .fin a.msb (2 ^ 23 + f32Mag a % 2 ^ 23) ((f32Mag a / 2 ^ 23 : Nat) - 150) := by
  rw [f32_of_finite h, if_neg (by omega)]
  congr 1
  omega

theorem f32_of_pow {a : Word} (h : f32Mag a % 2 ^ 23 = 0) (h1 : 1 ≤ f32Mag a / 2 ^ 23) (h2 : f32Mag a / 2 ^ 23 ≤ 253) :
    f32 a = .fin a.msb (2 ^ 23) ((f32Mag a / 2 ^ 23 : Nat) - 150) := by
  rw [f32_of_normal (by omega) h1, h, add_zero]

/-- A word below zero is minus infinity or a number with its sign. -/
theorem f32_of_neg {a : Word} (hn : ¬f32IsNan a) (h : f32Key a < 0) : f32 a = .inf true ∨ ∃ m e, f32 a = .fin true m e ∧ m ≠ 0 := by
  have hmsb : a.msb = true := by
    by_contra hm
    rw [f32Key, if_neg hm] at h
    omega
  have hmag : ¬f32IsZero a := fun hz => by
    rw [f32Key, if_pos hmsb, hz] at h
    exact absurd h (by decide)
  by_cases hf : f32Finite a
  · exact Or.inr (hmsb ▸ f32_of_nonzero hf hmag)
  · exact Or.inl (hmsb ▸ f32_of_inf (by omega))

/-! RCP and RSQ (R130, R131). -/

/-- The fraction of a normal number lies in [1, 2). -/
theorem decompose_normal {r : Nat} (hr : r < 2 ^ 23) (e : Int) :
    decompose (2 ^ 23 + r) e = (.fin false (2 ^ 23 + r) (-23), e + 23) := by
  have hlen : bitLen (2 ^ 23 + r) = 24 := bitLen_eq (by omega) (by omega)
  rw [decompose, hlen]
  congr 1
  omega

theorem fraction_val (r : Nat) : (FVal.fin false (2 ^ 23 + r) (-23)).val = 1 + (r : ℚ) / 2 ^ 23 := by
  rw [fin_val, ratOf, zpow_neg]
  push_cast
  norm_num
  ring

theorem one_num : FVal.one.Fin ∧ FVal.one.val = 1 := ⟨fin_Fin .., by simp [FVal.one, ratOf]⟩

theorem fEq_fraction_one {r : Nat} : fEq (.fin false (2 ^ 23 + r) (-23)) .one = decide (r = 0) := by
  rw [fEq_num (fin_Fin ..) one_num.1, fraction_val, one_num.2]
  simp

theorem rcpCore_pow (n : Bool) (e : Int) : rcpCore (.fin n (2 ^ 23) e) = .final (.fin n 1 (-(e + 23))) false := by
  have hd := decompose_normal (r := 0) (by decide) e
  have hq := fEq_fraction_one (r := 0)
  rw [add_zero] at hd hq
  simp only [rcpCore, hd, hq]
  rfl

theorem rcpCore_refined (n : Bool) {r : Nat} (hr : r < 2 ^ 23) (h0 : r ≠ 0) (e : Int) : ∃ v, rcpCore (.fin n (2 ^ 23 + r) e) = .final v true := by
  simp only [rcpCore, decompose_normal hr, fEq_fraction_one, h0, decide_false, Bool.false_eq_true, if_false, show 2 ^ 23 + r ≠ 0 by omega]
  exact ⟨_, rfl⟩

/-- RCP of a power of two is the power of two. -/
theorem laneRcp_pow {a : Word} (h : f32Mag a % 2 ^ 23 = 0) (h1 : 1 ≤ f32Mag a / 2 ^ 23) (h2 : f32Mag a / 2 ^ 23 ≤ 253) :
    laneRcp Dst.zero a = (f32Of a.msb ((254 - f32Mag a / 2 ^ 23) * 2 ^ 23), 0) := by
  obtain ⟨hf, hval⟩ := f32Val_normal_pow a.msb (x := 254 - f32Mag a / 2 ^ 23) (by omega) (by omega)
  rw [laneRcp, f32_of_pow h h1 h2, rcpCore_pow]
  refine final_of_val (fin_Fin ..) hf (fun h => one_ne_zero (ratOf_eq_zero.1 h)) ?_
  rw [hval, fin_val]
  congr 1
  omega

theorem laneRcp_zero {a : Word} (h : f32IsZero a) : laneRcp Dst.zero a = (f32Of a.msb 0x7F800000, flDbz) := by
  rw [laneRcp, f32_of_zero h, ← infBits_word]
  exact stop_zero _ _

theorem laneRcp_inf {a : Word} (h : f32IsInf a) : laneRcp Dst.zero a = (f32Of a.msb 0, 0) := by
  rw [laneRcp, f32_of_inf h, ← sign_word]
  exact stop_zero _ _

theorem laneRcp_inexact {a : Word} (h : f32Finite a) (h1 : 1 ≤ f32Mag a / 2 ^ 23) (h0 : f32Mag a % 2 ^ 23 ≠ 0) : (laneRcp Dst.zero a).2 &&& flInx = flInx := by
  obtain ⟨v, hv⟩ := rcpCore_refined a.msb (Nat.mod_lt (f32Mag a) (by decide : 0 < 2 ^ 23)) h0 ((f32Mag a / 2 ^ 23 : Nat) - 150)
  rw [laneRcp, f32_of_normal h h1, hv]
  exact final_inexact v

/-- A negative operand of RSQ or LOG2 is invalid. -/
theorem laneRsq_neg {a : Word} (hn : ¬f32IsNan a) (h : f32Key a < 0) : laneRsq Dst.zero a = (canon, flInv) := by
  rw [laneRsq]
  obtain hi | ⟨m, e, hf, hm⟩ := f32_of_neg hn h
  · rw [hi]
    exact stop_zero _ _
  · rw [hf, rsqCore, if_neg hm, if_pos rfl]
    exact stop_zero _ _

theorem laneRsq_zero {a : Word} (h : f32IsZero a) : laneRsq Dst.zero a = (f32Of a.msb 0x7F800000, flDbz) := by
  rw [laneRsq, f32_of_zero h, ← infBits_word]
  exact stop_zero _ _

theorem laneRsq_inf : laneRsq Dst.zero 0x7F800000 = (0, 0) := by
  rw [laneRsq, f32_of_inf (by decide)]
  exact stop_zero _ _

theorem rsqCore_pow {e : Int} (he : (e + 23) % 2 = 0) : rsqCore (.fin false (2 ^ 23) e) = .final (.fin false 1 (-((e + 23) / 2))) false := by
  have hd := decompose_normal (r := 0) (by decide) e
  have hq := fEq_fraction_one (r := 0)
  rw [add_zero] at hd hq
  simp only [rsqCore, hd, beq_iff_eq, he, if_true, hq]
  rfl

/-- RSQ of a power of four is a power of two. -/
theorem laneRsq_pow {a : Word} (h : f32Mag a % 2 ^ 23 = 0) (h1 : 1 ≤ f32Mag a / 2 ^ 23) (h2 : f32Mag a / 2 ^ 23 ≤ 253) (hs : a.msb = false)
    (hodd : f32Mag a / 2 ^ 23 % 2 = 1) : laneRsq Dst.zero a = (f32Of false ((381 - f32Mag a / 2 ^ 23) / 2 * 2 ^ 23), 0) := by
  obtain ⟨hf, hval⟩ := f32Val_normal_pow false (x := (381 - f32Mag a / 2 ^ 23) / 2) (by omega) (by omega)
  rw [laneRsq, f32_of_pow h h1 h2, hs, rsqCore_pow (by omega)]
  refine final_of_val (fin_Fin ..) hf (fun h => one_ne_zero (ratOf_eq_zero.1 h)) ?_
  rw [hval, fin_val]
  congr 1
  omega

end Sys2Proof.Machine
end

section
/-! SUPPORT. EXP2 of integers and beyond its range, LOG2 of powers of two (R132, R133). -/

namespace Sys2Proof.Machine

/-- A value and what it is rounded to have one sign. -/
theorem roundInt_form (rm : Rm) (n : Bool) (m : Nat) (e : Int) : ∃ k q, (roundInt rm (.fin n m e)).1 = .fin n k q := by
  simp only [roundInt]
  split
  · exact ⟨_, _, rfl⟩
  · exact ⟨_, _, rfl⟩

/-- A value and its opposite add up to one zero. -/
theorem exAdd_opposite {rm : Rm} {n : Bool} {m m' : Nat} {e e' : Int} (h : ratOf n m e = ratOf n m' e') : exAdd rm (.fin n m e) (.fin (!n) m' e') = .fin (rm == .rd) 0 0 := by
  simp only [exAdd]
  split
  · cases n <;> rfl
  · have hsum : ((sig n m e (min e e') + sig (!n) m' e' (min e e') : Int) : ℚ) * 2 ^ min e e' = 0 := by
      rw [Int.cast_add, add_mul, sig_value n m (min_le_left _ _), sig_value (!n) m' (min_le_right _ _), ratOf_not, h, add_neg_cancel]
    rw [if_pos]
    have hq : (2 : ℚ) ^ min e e' ≠ 0 := by positivity
    exact_mod_cast (mul_eq_zero.1 hsum).resolve_right hq

/-- The polynomial of EXP2 at a fraction of zero gives exactly one. -/
theorem exp2_poly_zero :
    exAdd .rne (exMul (horner (.fin false 0 0) (floatOf 0x39218688) [0x3AAEC3FF, 0x3C1D955B, 0x3D635847, 0x3E75FDF0, 0x3F317218]) (.fin false 0 0)) .one =
      .fin false (2 ^ 24) (-24) := by decide +kernel

/-- EXP2 of an integer within its range ends with the power of two, by no polynomial's error. -/
theorem exp2Core_int {n : Bool} {m : Nat} {e k : Int} (h : ratOf n m e = k) (hlo : -192 ≤ k) (hhi : k < 192) :
    exp2Core (.fin n m e) = .final (.fin false (2 ^ 24) (-24 + k)) false := by
  obtain ⟨a, q, hr⟩ := roundInt_form .rne n m e
  obtain ⟨z, -, hval, hint, rounds, -⟩ := roundInt_num .rne (fin_Fin n m e)
  rw [fin_val, h] at rounds
  obtain rfl := rounds.eq_of_int
  rw [hr, fin_val] at hval
  rw [hr] at hint
  have hlt : fLt (.fin n m e) (FVal.ofInt 192) = true := by
    rw [fLt_num (fin_Fin ..) (ofInt_Fin _), fin_val, h, ofInt_val]
    exact decide_eq_true (by exact_mod_cast hhi)
  have hge : fLt (.fin n m e) (FVal.ofInt (-192)) = false := by
    rw [fLt_num (fin_Fin ..) (ofInt_Fin _), fin_val, h, ofInt_val]
    exact decide_eq_false (not_lt.2 (by exact_mod_cast hlo))
  simp only [exp2Core, hlt, hge, hr, FVal.neg, exAdd_opposite (rm := .rne) (h.trans hval.symm), Bool.not_true, Bool.false_eq_true, if_false]
  rw [show (Rm.rne == Rm.rd) = false from rfl, exp2_poly_zero]
  exact congrArg (fun i => Fin32.final (.fin false (2 ^ 24) (-24 + i)) false) hint

theorem ratOf_two_pow (k : Int) : (FVal.fin false (2 ^ 24) (-24 + k)).val = ratOf false 1 k := by
  rw [fin_val, ratOf, ratOf, zpow_add₀ two_ne_zero]
  push_cast
  norm_num
  ring

/-- EXP2 of an integer ends with the word of the power of two. -/
theorem laneExp2_int {a : Word} (ha : f32Finite a) {k : Int} (h : f32Val a = k) (hlo : -192 ≤ k) (hhi : k < 192) {w : Word} (hw : f32Finite w)
    (hv : f32Val w = ratOf false 1 k) : laneExp2 Dst.zero a = (w, 0) := by
  obtain ⟨n, m, e, hd⟩ := f32_Fin ha
  rw [f32Val_eq ha, hd, fin_val] at h
  rw [laneExp2, hd, exp2Core_int h hlo hhi]
  have hval := ratOf_two_pow k
  exact final_of_val (fin_Fin ..) hw (by rw [hval, ne_eq, ratOf_eq_zero]; exact one_ne_zero) (hval.trans hv.symm)

theorem laneExp2_normal {a : Word} (ha : f32Finite a) {k : Int} (h : f32Val a = k) (hlo : -126 ≤ k) (hhi : k ≤ 127) :
    laneExp2 Dst.zero a = (f32Of false ((127 + k).toNat * 2 ^ 23), 0) := by
  obtain ⟨hf, hval⟩ := f32Val_normal_pow false (x := (127 + k).toNat) (by omega) (by omega)
  rw [show (((127 + k).toNat : Nat) : Int) - 127 = k by omega] at hval
  exact laneExp2_int ha h (by omega) (by omega) hf hval

theorem laneExp2_subnormal {a : Word} (ha : f32Finite a) {k : Int} (h : f32Val a = k) (hlo : -149 ≤ k) (hhi : k ≤ -127) :
    laneExp2 Dst.zero a = (f32Of false (2 ^ (149 + k).toNat), 0) := by
  obtain ⟨hf, hval⟩ := f32Val_subnormal_pow false (j := (149 + k).toNat) (by omega)
  rw [show (((149 + k).toNat : Nat) : Int) - 149 = k by omega] at hval
  exact laneExp2_int ha h (by omega) (by omega) hf hval

theorem laneExp2_overflow {a : Word} (ha : f32Finite a) (h : 192 ≤ f32Val a) : laneExp2 Dst.zero a = (0x7F800000, flOvf ||| flInx) := by
  have hd := f32_Fin ha
  have hlt : fLt (f32 a) (FVal.ofInt 192) = false := by
    rw [fLt_num hd (ofInt_Fin _), ofInt_val, ← f32Val_eq ha]
    exact decide_eq_false (not_lt.2 (by exact_mod_cast h))
  obtain ⟨n, m, e, hd⟩ := hd
  rw [laneExp2, hd, exp2Core, ← hd, hlt]
  exact (by decide +kernel : finishSpecialFn Dst.zero (.final (.fin false 1 192) false) = (0x7F800000, flOvf ||| flInx))

theorem laneExp2_underflow {a : Word} (ha : f32Finite a) (h : f32Val a < -192) : laneExp2 Dst.zero a = (0, flUnf ||| flInx) := by
  have hd := f32_Fin ha
  have hlt : fLt (f32 a) (FVal.ofInt 192) = true := by
    rw [fLt_num hd (ofInt_Fin _), ofInt_val, ← f32Val_eq ha]
    exact decide_eq_true (by push_cast; linarith)
  have hlow : fLt (f32 a) (FVal.ofInt (-192)) = true := by
    rw [fLt_num hd (ofInt_Fin _), ofInt_val, ← f32Val_eq ha]
    exact decide_eq_true (by exact_mod_cast h)
  obtain ⟨n, m, e, hd⟩ := hd
  rw [laneExp2, hd, exp2Core, ← hd, hlt, hlow]
  exact (by decide +kernel : finishSpecialFn Dst.zero (.final (.fin false 1 (-192)) false) = (0, flUnf ||| flInx))

theorem laneExp2_inf : laneExp2 Dst.zero 0x7F800000 = (0x7F800000, 0) ∧ laneExp2 Dst.zero 0xFF800000 = (0, 0) := by
  rw [laneExp2, laneExp2, f32_of_inf (by decide), f32_of_inf (by decide)]
  exact ⟨stop_zero _ _, stop_zero _ _⟩

/-! LOG2. -/

theorem laneLog2_neg {a : Word} (hn : ¬f32IsNan a) (h : f32Key a < 0) : laneLog2 Dst.zero a = (canon, flInv) := by
  rw [laneLog2]
  obtain hi | ⟨m, e, hf, hm⟩ := f32_of_neg hn h
  · rw [hi]
    exact stop_zero _ _
  · rw [hf, log2Core, if_neg hm, if_pos rfl]
    exact stop_zero _ _

theorem laneLog2_zero {a : Word} (h : f32IsZero a) : laneLog2 Dst.zero a = (0xFF800000, flDbz) := by
  rw [laneLog2, f32_of_zero h]
  exact stop_zero _ _

theorem laneLog2_inf : laneLog2 Dst.zero 0x7F800000 = (0x7F800000, 0) := by
  rw [laneLog2, f32_of_inf (by decide)]
  exact stop_zero _ _

/-- The polynomial of LOG2 at t = 0, with the sign its last coefficient gives the zero. -/
theorem log2_poly_zero :
    (0x3FB504F3 ≤ bitsOf (.fin false (2 ^ 23) (-23))) = False ∧ (fadd (.fin false (2 ^ 23) (-23)) FVal.one.neg) = .fin false 0 (-149) ∧
      ∃ n e, exMul (.fin false 0 (-149)) (horner (.fin false 0 (-149)) (floatOf 0xBE38AA3B)
        [0x3E530B4C, 0xBE76384A, 0x3E93BB63, 0xBEB8AA3B, 0x3EF6384A, 0xBF38AA3B, 0x3FB8AA3B]) = .fin n 0 e := by
  refine ⟨eq_false (by decide +kernel), by decide +kernel, false, -149 + -23, by decide +kernel⟩

/-- LOG2 of a power of two ends with its exponent. -/
theorem log2Core_pow (e : Int) : ∃ v : FVal, log2Core (.fin false (2 ^ 23) e) = .final v false ∧ v.Fin ∧ v.val = ((e + 23 : Int) : ℚ) := by
  have hd := decompose_normal (r := 0) (by decide) e
  rw [add_zero] at hd
  obtain ⟨low, zero, n, q, prod⟩ := log2_poly_zero
  obtain ⟨hf, hval⟩ := exAdd_num .rne (fin_Fin n 0 q) (ofInt_Fin (e + 23))
  refine ⟨_, ?_, hf, ?_⟩
  · simp only [log2Core, hd, low, zero, prod, if_false]
    rfl
  · rw [hval, fin_val, ratOf_zero, ofInt_val, zero_add]

end Sys2Proof.Machine
end

section
/-! SUPPORT. Exact conversions into F32, LOG2, SINPI, COSPI and TANH where their results are tabulated (R133-R135). -/

namespace Sys2Proof.Machine

/-- A result is a number of F32 and sets no flag. -/
def IsExactly (r : Word × Flags) (x : ℚ) : Prop := r.2 = 0 ∧ f32Finite r.1 ∧ f32Val r.1 = x

/-- A value of at most 24 bits goes to F32 unchanged. -/
theorem encode32_exact (rm : Rm) {v : FVal} (hv : v.Fin) {n : Bool} {m : Nat} {e : Int} (h : v.val = ratOf n m e) (hm : m < 2 ^ 24) (hmin : -149 ≤ e) (hmax : e ≤ 104) :
    IsExactly (BitVec.ofNat 32 (encodeF fmtF32 rm v).1, (encodeF fmtF32 rm v).2) v.val := by
  have hfits : e < fmtF32.maxQ ∨ e = fmtF32.maxQ ∧ m ≤ fmtF32.maxM := by
    have hQ : fmtF32.maxQ = 104 := by decide
    have hM : fmtF32.maxM = 2 ^ 24 - 1 := by decide
    omega
  obtain ⟨flags, hw, hfin, hval⟩ := encodeF_exact std32 rm hv h hm hmin hfits
  have hb : (BitVec.ofNat 32 (encodeF fmtF32 rm v).1).toNat = (encodeF fmtF32 rm v).1 := by
    rw [BitVec.toNat_ofNat]
    exact Nat.mod_eq_of_lt hw
  have hd : f32 (BitVec.ofNat 32 (encodeF fmtF32 rm v).1) = decodeF fmtF32 (encodeF fmtF32 rm v).1 := by rw [f32, hb]
  have hf := f32Finite_of_Fin (hd ▸ hfin)
  exact ⟨flags, hf, by rw [f32Val_eq hf, hd, hval]⟩

theorem encode32_int (rm : Rm) {v : FVal} (hv : v.Fin) {i : Int} (h : v.val = i) (hi : i.natAbs < 2 ^ 24) :
    IsExactly (BitVec.ofNat 32 (encodeF fmtF32 rm v).1, (encodeF fmtF32 rm v).2) i := by
  have := encode32_exact rm hv (n := decide (i < 0)) (m := i.natAbs) (e := 0) (by rw [h, ratOf_natAbs, zpow_zero, mul_one]) hi (by decide) (by decide)
  rwa [h] at this

/-- LOG2 of a power of two is its exponent. -/
theorem laneLog2_pow {a : Word} (h : f32Mag a % 2 ^ 23 = 0) (h1 : 1 ≤ f32Mag a / 2 ^ 23) (h2 : f32Mag a / 2 ^ 23 ≤ 253) (hs : a.msb = false) :
    IsExactly (laneLog2 Dst.zero a) ((f32Mag a / 2 ^ 23 : Nat) - 127) := by
  obtain ⟨v, hv, hf, hval⟩ := log2Core_pow ((f32Mag a / 2 ^ 23 : Nat) - 150)
  have hres := encode32_int .rne hf hval (by omega)
  obtain ⟨flags, hfin, hv'⟩ := hres
  rw [laneLog2, f32_of_pow h h1 h2, hs, hv, final_zero]
  refine ⟨by rw [flags]; rfl, hfin, hv'.trans ?_⟩
  generalize f32Mag a / 2 ^ 23 = x
  push_cast
  ring

/-! SINPI and COSPI. -/

theorem half_num : half.Fin ∧ half.val = 1 / 2 := ⟨fin_Fin .., by simp [half, ratOf]⟩

/-- The reduction leaves a value less an even integer nearest to it. -/
theorem reduce2_num {x : FVal} (hx : x.Fin) : ∃ z : Int, (reduce2 x).Fin ∧ (reduce2 x).val = x.val - 2 * z ∧ RoundsInt .rne (x.val / 2) z := by
  obtain ⟨hf, hval⟩ := scale_num hx (-1)
  obtain ⟨z, hzf, hzv, -, rounds, -⟩ := roundInt_num .rne hf
  obtain ⟨hsf, hsv⟩ := scale_num hzf 1
  obtain ⟨hnf, hnv⟩ := neg_num hsf
  obtain ⟨haf, hav⟩ := exAdd_num .rne hx hnf
  refine ⟨z, haf, ?_, ?_⟩
  · rw [reduce2, hav, hnv, hsv, hzv, zpow_one]
    ring
  · rwa [hval, zpow_neg_one, ← div_eq_mul_inv] at rounds

/-- An integer is reduced to zero where it is even, to one or minus one where it is odd. -/
theorem reduce2_int {x : FVal} (hx : x.Fin) {k : Int} (h : x.val = k) :
    (reduce2 x).Fin ∧ (k % 2 = 0 ∧ (reduce2 x).val = 0 ∨ k % 2 = 1 ∧ ((reduce2 x).val = 1 ∨ (reduce2 x).val = -1)) := by
  obtain ⟨z, hf, hval, near, -⟩ := reduce2_num hx
  rw [h] at hval near
  have hle : |k - 2 * z| ≤ 1 := by
    have : |((k - 2 * z : Int) : ℚ)| ≤ 1 := by
      rw [show ((k - 2 * z : Int) : ℚ) = 2 * ((k : ℚ) / 2 - z) by push_cast; ring, abs_mul, abs_two]
      linarith
    rw [← Int.cast_abs] at this
    exact_mod_cast this
  have hcast : (reduce2 x).val = ((k - 2 * z : Int) : ℚ) := by rw [hval]; push_cast; ring
  refine ⟨hf, ?_⟩
  rw [abs_le] at hle
  obtain hd | hd | hd : k - 2 * z = 0 ∨ k - 2 * z = 1 ∨ k - 2 * z = -1 := by omega
  · exact Or.inl ⟨by omega, by rw [hcast, hd]; rfl⟩
  · exact Or.inr ⟨by omega, Or.inl (by rw [hcast, hd]; rfl)⟩
  · exact Or.inr ⟨by omega, Or.inr (by rw [hcast, hd]; rfl)⟩

/-- An odd multiple of one half is reduced to one half or minus one half. -/
theorem reduce2_half {x : FVal} (hx : x.Fin) {k : Int} (h : x.val = k + 1 / 2) :
    (reduce2 x).Fin ∧ (reduce2 x).val = if k % 2 = 1 then -1 / 2 else 1 / 2 := by
  obtain ⟨z, hf, hval, near, -⟩ := reduce2_num hx
  rw [h] at hval near
  have hle : |2 * k + 1 - 4 * z| ≤ 2 := by
    have : |((2 * k + 1 - 4 * z : Int) : ℚ)| ≤ 2 := by
      rw [show ((2 * k + 1 - 4 * z : Int) : ℚ) = 4 * (((k : ℚ) + 1 / 2) / 2 - z) by push_cast; ring, abs_mul, abs_of_pos (by norm_num : (0 : ℚ) < 4)]
      linarith
    rw [← Int.cast_abs] at this
    exact_mod_cast this
  rw [abs_le] at hle
  refine ⟨hf, ?_⟩
  rw [hval]
  obtain hd | hd : k = 2 * z ∨ k = 2 * z - 1 := by omega
  · rw [if_neg (by omega), hd]
    push_cast
    ring
  · rw [if_pos (by omega), hd]
    push_cast
    ring

theorem laneSinpi_inf {a : Word} (h : f32IsInf a) : laneSinpi Dst.zero a = (canon, flInv) ∧ laneCospi Dst.zero a = (canon, flInv) := by
  rw [laneSinpi, laneCospi, f32_of_inf h]
  exact ⟨stop_zero _ _, stop_zero _ _⟩

/-- SINPI's second reduction, to [-1/2, 1/2]. -/
def foldHalf (r : FVal) : FVal :=
  if fLt half r then exAdd .rne .one r.neg else if fLt r half.neg then exAdd .rne FVal.one.neg r.neg else r

theorem foldHalf_num {r : FVal} (hr : r.Fin) :
    (foldHalf r).Fin ∧ (foldHalf r).val = if 1 / 2 < r.val then 1 - r.val else if r.val < -(1 / 2) then -1 - r.val else r.val := by
  obtain ⟨hhf, hhv⟩ := half_num
  obtain ⟨hof, hov⟩ := one_num
  obtain ⟨hnf, hnv⟩ := neg_num hr
  obtain ⟨hmf, hmv⟩ := neg_num hof
  obtain ⟨hgf, hgv⟩ := neg_num hhf
  obtain ⟨huf, huv⟩ := exAdd_num .rne hof hnf
  obtain ⟨hlf, hlv⟩ := exAdd_num .rne hmf hnf
  unfold foldHalf
  rw [fLt_num hhf hr, fLt_num hr hgf, hgv, hhv]
  simp only [decide_eq_true_eq]
  split
  · exact ⟨huf, by rw [huv, hov, hnv]; ring⟩
  · split
    · exact ⟨hlf, by rw [hlv, hmv, hov, hnv]; ring⟩
    · exact ⟨hr, rfl⟩

theorem sinpiCore_eq {x : FVal} (hx : x.Fin) :
    sinpiCore x = if (foldHalf (reduce2 x)).isZero then .stop (fmtF32.sign x.sgn) 0
      else if fEq (foldHalf (reduce2 x)).abs half then .final ((foldHalf (reduce2 x)).scale 1) false else sinPoly (foldHalf (reduce2 x)) := by
  rw [sinpiCore, isNan_num hx, isInf_num hx]
  rfl

theorem cospiCore_eq {x : FVal} (hx : x.Fin) :
    cospiCore x =
      let a := (reduce2 x).abs
      if fEq a half then .stop 0 0
      else if a.isZero then .final .one false
      else if fEq a .one then .final FVal.one.neg false
      else
        let w := fadd half a.neg
        if fEq w.abs half then .final (w.scale 1) false else sinPoly w := by
  rw [cospiCore, isNan_num hx, isInf_num hx]
  rfl

theorem laneSinpi_int {a : Word} (ha : f32Finite a) {k : Int} (h : f32Val a = k) : laneSinpi Dst.zero a = (f32Of a.msb 0, 0) := by
  have hx := f32_Fin ha
  rw [f32Val_eq ha] at h
  obtain ⟨hrf, hcases⟩ := reduce2_int hx h
  obtain ⟨hff, hfv⟩ := foldHalf_num hrf
  have hzero : (foldHalf (reduce2 (f32 a))).val = 0 := by
    rw [hfv]
    obtain ⟨-, hr⟩ | ⟨-, hr | hr⟩ := hcases <;> rw [hr] <;> norm_num
  rw [laneSinpi, sinpiCore_eq hx, isZero_num hff, hzero, f32_sgn (by omega), ← sign_word]
  exact stop_zero _ _

theorem laneCospi_int {a : Word} (ha : f32Finite a) {k : Int} (h : f32Val a = k) : laneCospi Dst.zero a = (f32Of (decide (k % 2 = 1)) 0x3F800000, 0) := by
  have hx := f32_Fin ha
  rw [f32Val_eq ha] at h
  obtain ⟨hrf, hcases⟩ := reduce2_int hx h
  obtain ⟨haf, hav⟩ := abs_num hrf
  rw [laneCospi, cospiCore_eq hx]
  simp only [fEq_num haf half_num.1, fEq_num haf one_num.1, isZero_num haf, hav, half_num.2, one_num.2]
  obtain ⟨hk, hr⟩ | ⟨hk, hr⟩ := hcases
  · rw [hr, hk]
    norm_num
    exact final_of_val one_num.1 (f32Val_one false).1 (by rw [one_num.2]; norm_num) (one_num.2.trans (f32Val_one false).2.symm)
  · have habs : |(reduce2 (f32 a)).val| = 1 := by obtain hr | hr := hr <;> rw [hr] <;> norm_num
    obtain ⟨hmf, hmv⟩ := neg_num one_num.1
    rw [habs, hk]
    norm_num
    rw [one_num.2] at hmv
    exact final_of_val hmf (f32Val_one true).1 (by rw [hmv]; norm_num) (hmv.trans (f32Val_one true).2.symm)

theorem laneSinpi_half {a : Word} (ha : f32Finite a) {k : Int} (h : f32Val a = k + 1 / 2) : laneSinpi Dst.zero a = (f32Of (decide (k % 2 = 1)) 0x3F800000, 0) := by
  have hx := f32_Fin ha
  rw [f32Val_eq ha] at h
  obtain ⟨hrf, hrv⟩ := reduce2_half hx h
  obtain ⟨hff, hfv⟩ := foldHalf_num hrf
  have hsame : (foldHalf (reduce2 (f32 a))).val = if k % 2 = 1 then -1 / 2 else 1 / 2 := by
    rw [hfv, hrv]
    split <;> norm_num
  obtain ⟨haf, hav⟩ := abs_num hff
  obtain ⟨hsf, hsv⟩ := scale_num hff 1
  have hhalf : |(foldHalf (reduce2 (f32 a))).val| = 1 / 2 := by
    rw [hsame]
    split <;> norm_num
  have hne : (foldHalf (reduce2 (f32 a))).val ≠ 0 := by
    rw [hsame]
    split <;> norm_num
  rw [laneSinpi, sinpiCore_eq hx, isZero_num hff, fEq_num haf half_num.1, hav, hhalf, half_num.2, decide_eq_false hne, decide_eq_true rfl]
  refine final_of_val hsf (f32Val_one _).1 (by rw [hsv]; simpa using hne) ?_
  rw [hsv, hsame, (f32Val_one _).2]
  by_cases hk : k % 2 = 1 <;> simp [hk]

theorem laneCospi_half {a : Word} (ha : f32Finite a) {k : Int} (h : f32Val a = k + 1 / 2) : laneCospi Dst.zero a = (0, 0) := by
  have hx := f32_Fin ha
  rw [f32Val_eq ha] at h
  obtain ⟨hrf, hrv⟩ := reduce2_half hx h
  obtain ⟨haf, hav⟩ := abs_num hrf
  have hhalf : |(reduce2 (f32 a)).val| = 1 / 2 := by
    rw [hrv]
    split <;> norm_num
  rw [laneCospi, cospiCore_eq hx]
  simp only [fEq_num haf half_num.1, hav, hhalf, half_num.2, decide_true, if_true]
  exact stop_zero _ _

/-! TANH. -/

theorem laneTanh_zero {a : Word} (h : f32IsZero a) : laneTanh Dst.zero a = (a, 0) := by
  have ha := f32Of_msb_mag a
  rw [h] at ha
  rw [laneTanh, f32_of_zero h]
  nth_rw 2 [← ha]
  rw [← sign_word]
  exact stop_zero _ _

theorem laneTanh_inf {a : Word} (h : f32IsInf a) : laneTanh Dst.zero a = (f32Of a.msb 0x3F800000, 0) := by
  rw [laneTanh, f32_of_inf h]
  cases a.msb <;> decide +kernel

/-- The branches of TANH of a number that is not zero. -/
theorem tanhCore_cases (n : Bool) {m : Nat} (hm : m ≠ 0) (e : Int) :
    tanhCore (.fin n m e) = .final (.fin n 1 0) false ∧ 10 ≤ |ratOf n m e| ∨ (∃ v, tanhCore (.fin n m e) = .final v true) ∧ |ratOf n m e| < 10 := by
  obtain ⟨haf, hav⟩ := abs_num (fin_Fin n m e)
  rw [fin_val] at hav
  have hlt : fLt (FVal.fin n m e).abs (FVal.ofInt 10) = decide (|ratOf n m e| < 10) := by
    rw [fLt_num haf (ofInt_Fin _), hav, ofInt_val]
    rfl
  simp only [tanhCore, hm, if_false, hlt]
  by_cases h : |ratOf n m e| < 10
  · right
    refine ⟨?_, h⟩
    simp only [h, decide_true, Bool.not_true, Bool.false_eq_true, if_false]
    split
    · exact ⟨_, rfl⟩
    · exact ⟨_, rfl⟩
  · left
    simp [h, not_lt.1 h]

theorem laneTanh_large {a : Word} (ha : f32Finite a) (h : 10 ≤ |f32Val a|) : laneTanh Dst.zero a = (f32Of a.msb 0x3F800000, 0) := by
  have hz : ¬f32IsZero a := fun hz => by
    rw [(f32Val_eq_zero ha).2 hz] at h
    norm_num at h
  obtain ⟨m, e, hd, hm⟩ := f32_of_nonzero ha hz
  rw [f32Val_eq ha, hd, fin_val] at h
  obtain ⟨hcore, -⟩ | ⟨-, hlt⟩ := tanhCore_cases a.msb hm e
  · rw [laneTanh, hd, hcore]
    refine final_of_val (fin_Fin ..) (f32Val_one _).1 (by rw [fin_val, ne_eq, ratOf_eq_zero]; exact one_ne_zero) ?_
    rw [(f32Val_one _).2]
    simp [ratOf]
  · exact absurd h (not_le.2 hlt)

theorem laneTanh_inexact {a : Word} (ha : f32Finite a) (hz : ¬f32IsZero a) (h : |f32Val a| < 10) : (laneTanh Dst.zero a).2 &&& flInx = flInx := by
  obtain ⟨m, e, hd, hm⟩ := f32_of_nonzero ha hz
  rw [f32Val_eq ha, hd, fin_val] at h
  obtain ⟨-, hge⟩ | ⟨⟨v, hcore⟩, -⟩ := tanhCore_cases a.msb hm e
  · exact absurd h (not_lt.2 hge)
  · rw [laneTanh, hd, hcore]
    exact final_inexact v

end Sys2Proof.Machine
end

section
/-! SUPPORT. The conversions of CVT where their results are tabulated (R63, R64, R136). -/

namespace Sys2Proof.Machine

@[simp] theorem cvtOne_zero (rm : Rm) (v : FVal) : cvtOne rm Dst.zero v = (BitVec.ofNat 32 (encodeF fmtF32 rm v).1, (encodeF fmtF32 rm v).2) := by
  rw [cvtOne, cvtTo, finishF_zero]

/-! Integers to F32. -/

theorem cvtOne_ofInt (rm : Rm) (i : Int) :
    RoundsOnce fmtF32 rm i (cvtOne rm Dst.zero (FVal.ofInt i)).1.toNat (cvtOne rm Dst.zero (FVal.ofInt i)).2 := by
  refine ⟨decide (i < 0), i.natAbs, 0, by rw [ratOf_natAbs, zpow_zero, mul_one], ?_, by rw [cvtOne_zero]; rfl⟩
  rw [cvtOne_zero, BitVec.toNat_ofNat, Nat.mod_eq_of_lt (canonical_encodeF ..).1]
  rfl

/-! F32 to integers. -/

/-- R64's table of a result r, by the ends of a range and the codes of its integers. -/
def ToRange (rm : Rm) (a : Word) (lo hi : Int) (code : Int → Word) (r : Word × Flags) : Prop :=
  (f32IsNan a → r = (0, flInv)) ∧ (f32IsInf a → r = (code (if a.msb then lo else hi), flInv ||| flSat)) ∧
    (f32Finite a → ∃ n : Int, RoundsInt rm (f32Val a) n ∧ r =
      if n < lo then (code lo, flInv ||| flSat) else if hi < n then (code hi, flInv ||| flSat) else (code n, if f32Val a = n then 0 else flInx))

theorem toIntRange_num (rm : Rm) (lo hi : Int) {v : FVal} (hv : v.Fin) :
    ∃ n : Int, RoundsInt rm v.val n ∧ toIntRange rm lo hi v =
      if n < lo then (lo, flInv ||| flSat) else if hi < n then (hi, flInv ||| flSat) else (n, if v.val = n then 0 else flInx) := by
  obtain ⟨z, -, -, hint, rounds, inexact⟩ := roundInt_num rm hv
  have hflag : flagIf (roundInt rm v).2 flInx = if v.val = z then 0 else flInx := by
    by_cases h : v.val = z
    · rw [if_pos h, inexact.2 h]
      rfl
    · rw [if_neg h, Bool.eq_true_of_not_eq_false fun hf => h (inexact.1 hf)]
      rfl
  obtain ⟨n, m, e, rfl⟩ := hv
  exact ⟨z, rounds, by simp only [toIntRange, hint, hflag]⟩

/-- A conversion that codes what toIntRange gives keeps the table. -/
theorem toRange_of_code (rm : Rm) (a : Word) {lo hi : Int} (hlo : lo ≤ 0) (hhi : 0 ≤ hi) {code code' : Int → Word} (h0 : code 0 = 0)
    (hcode : ∀ i, lo ≤ i → i ≤ hi → code' i = code i) :
    ToRange rm a lo hi code (code' (cvtInt rm Dst.zero lo hi a).1, (cvtInt rm Dst.zero lo hi a).2) := by
  rw [cvtInt, sclOf_zero, scale_zero]
  refine ⟨fun h => ?_, fun h => ?_, fun h => ?_⟩
  · rw [f32_of_nan h, toIntRange, hcode 0 hlo hhi, h0]
  · rw [f32_of_inf h, toIntRange]
    cases a.msb
    · exact Prod.ext (hcode hi (hlo.trans hhi) le_rfl) rfl
    · exact Prod.ext (hcode lo le_rfl (hlo.trans hhi)) rfl
  · obtain ⟨n, rounds, hr⟩ := toIntRange_num rm lo hi (f32_Fin h)
    rw [f32Val_eq h, hr]
    refine ⟨n, rounds, ?_⟩
    split_ifs
    · rw [hcode lo le_rfl (hlo.trans hhi)]
    · rw [hcode hi (hlo.trans hhi) le_rfl]
    · rw [hcode n (by omega) (by omega)]
    · rw [hcode n (by omega) (by omega)]

theorem i4Code_eq {i : Int} (hlo : -7 ≤ i) (hhi : i ≤ 7) : i4Code i = (if i < 0 then 8 else 0) + i.natAbs := by
  unfold i4Code
  split <;> omega

/-- The code of an integer in the result of a conversion to integers. -/
def intCode (t : CvtV) (i : Int) : Word := if t = .i4f32 then BitVec.ofNat 32 ((if i < 0 then 8 else 0) + i.natAbs) else BitVec.ofInt 32 i

theorem laneCvt_toRange (rm : Rm) (a b : Word) :
    ∀ t ∈ [(CvtV.s32f32, (-(2 ^ 31) : Int), (2 ^ 31 - 1 : Int)), (.u32f32, 0, 2 ^ 32 - 1), (.s8f32, -128, 127), (.i4f32, -7, 7)],
      ToRange rm a t.2.1 t.2.2 (intCode t.1) (laneCvt t.1 rm Dst.zero a b) := by
  simp only [List.forall_mem_cons]
  exact ⟨toRange_of_code rm a (by decide) (by decide) (by decide) (code' := BitVec.ofInt 32) fun _ _ _ => rfl,
    toRange_of_code rm a (by decide) (by decide) (by decide) (code' := BitVec.ofInt 32) fun _ _ _ => rfl,
    toRange_of_code rm a (by decide) (by decide) (by decide) (code' := BitVec.ofInt 32) fun _ _ _ => rfl,
    toRange_of_code rm a (by decide) (by decide) (by decide) (code' := fun i => BitVec.ofNat 32 (i4Code i)) fun i hlo hhi => congrArg _ (i4Code_eq hlo hhi),
    List.forall_mem_nil _⟩

/-! Narrow formats to F32. -/

/-- R63's table of a result r of the pattern x. -/
def Widens (f : Fmt) (x : Nat) (r : Word × Flags) : Prop :=
  r.2 = 0 ∧
    (let top := x / 2 ^ f.fw % 2 ^ f.ew = 2 ^ f.ew - 1
     let frac := x % 2 ^ f.fw
     let isNan := top ∧ (if f.e4 then frac = 2 ^ f.fw - 1 else frac ≠ 0)
     (isNan → r.1 = canon) ∧ (top ∧ f.e4 = false ∧ frac = 0 → r.1 = f32Of (x / 2 ^ (f.ew + f.fw) % 2 = 1) 0x7F800000) ∧
      (¬isNan ∧ ¬(top ∧ f.e4 = false) → f32Finite r.1 ∧ f32Val r.1 = patVal f.ew f.fw x))

/-- A format whose numbers are all numbers of F32. -/
abbrev Fmt.Narrow (f : Fmt) : Prop := f.Std ∧ f.fw ≤ 23 ∧ -149 ≤ f.qMin + f.fw - 23 ∧ f.maxQ + f.fw ≤ 127

theorem encode32_narrow (rm : Rm) {f : Fmt} (hf : f.Narrow) {x : Nat} (h : (decodeF f x).Fin) :
    IsExactly (BitVec.ofNat 32 (encodeF fmtF32 rm (decodeF f x)).1, (encodeF fmtF32 rm (decodeF f x)).2) (patVal f.ew f.fw x) := by
  obtain ⟨hstd, hfw, hmin, hmax⟩ := hf
  rw [patVal_eq h]
  obtain ⟨n, m, e, hd⟩ := h
  obtain ⟨hm, he, -, hq, -⟩ := decodeF_eq_fin hstd hd
  have hlt : m * 2 ^ (23 - f.fw) < 2 ^ 24 := by
    calc m * 2 ^ (23 - f.fw) < 2 ^ (f.fw + 1) * 2 ^ (23 - f.fw) := Nat.mul_lt_mul_of_pos_right hm (Nat.two_pow_pos _)
      _ = 2 ^ 24 := by rw [← pow_add]; congr 1; omega
  have hval : (decodeF f x).val = ratOf n (m * 2 ^ (23 - f.fw)) (e - (23 - f.fw : Nat)) := by
    rw [hd, fin_val, ratOf, ratOf, zpow_sub₀ two_ne_zero, zpow_natCast]
    push_cast
    field_simp
  exact encode32_exact rm ⟨n, m, e, hd⟩ hval hlt (by omega) (by omega)

theorem widens_encode (rm : Rm) {f : Fmt} (hf : f.Narrow) (x : Nat) :
    Widens f x (BitVec.ofNat 32 (encodeF fmtF32 rm (decodeF f x)).1, (encodeF fmtF32 rm (decodeF f x)).2) := by
  have hspecial : f.Special (x / 2 ^ f.fw % 2 ^ f.ew) (x % 2 ^ f.fw) ↔
      x / 2 ^ f.fw % 2 ^ f.ew = 2 ^ f.ew - 1 ∧ (f.e4 = true → x % 2 ^ f.fw = 2 ^ f.fw - 1) := Iff.rfl
  by_cases hs : f.Special (x / 2 ^ f.fw % 2 ^ f.ew) (x % 2 ^ f.fw)
  · rw [decodeF_special hs]
    obtain ⟨htop, hfr⟩ := hspecial.1 hs
    by_cases hinf : f.e4 = false ∧ x % 2 ^ f.fw = 0
    · rw [if_pos hinf]
      refine ⟨rfl, fun hn => ?_, fun _ => infBits_word _, fun hn => absurd ⟨htop, hinf.1⟩ hn.2⟩
      rw [if_neg (by simp [hinf.1])] at hn
      exact absurd hinf.2 hn.2
    · rw [if_neg hinf]
      refine ⟨rfl, fun _ => rfl, fun hi => absurd hi.2 hinf, fun hn => absurd ⟨htop, ?_⟩ hn.1⟩
      cases h4 : f.e4
      · simpa [h4] using hinf
      · simpa [h4] using hfr h4
  · have hfin : (decodeF f x).Fin := by
      rw [decodeF_finite hs]
      split <;> exact fin_Fin ..
    obtain ⟨flags, hres⟩ := encode32_narrow rm hf hfin
    refine ⟨flags, fun hn => ?_, fun hi => ?_, fun _ => hres⟩
    · refine absurd (hspecial.2 ⟨hn.1, fun h4 => ?_⟩) hs
      rw [h4] at hn
      exact hn.2
    · exact absurd (hspecial.2 ⟨hi.1, fun h4 => by rw [hi.2.1] at h4; cases h4⟩) hs

theorem narrow_formats : ∀ f ∈ [fmtF16, fmtBF16, fmtF8E4, fmtF8E5], f.Narrow := by decide

theorem byteOf_toNat (a : Word) (i : Nat) : (byteOf a i).toNat = a.toNat / 256 ^ i % 256 := by
  rw [byteOf, BitVec.extractLsb'_toNat, Nat.shiftRight_eq_div_pow, show (256 : Nat) = 2 ^ 8 from rfl, pow_mul]

/-- A code of I4 read as an integer (R51). -/
theorem i4Val_eq {c : Nat} (hc : c < 16) : ((i4Val c : Int) : ℚ) = if c < 8 then (c : ℚ) else 8 - c := by
  interval_cases c <;> norm_num [i4Val]

theorem i4Val_natAbs (c : Nat) : (i4Val c).natAbs < 2 ^ 24 := by
  unfold i4Val
  dsimp only
  split <;> omega

theorem cvtOne_i4 (rm : Rm) {c : Nat} (hc : c < 16) : IsExactly (cvtOne rm Dst.zero (FVal.ofInt (i4Val c))) (if c < 8 then (c : ℚ) else 8 - c) := by
  rw [cvtOne_zero, ← i4Val_eq hc]
  exact encode32_int rm (ofInt_Fin _) (ofInt_val _) (i4Val_natAbs c)

/-- A byte read as I8. -/
theorem cvtOne_s8 (rm : Rm) (x : Byte) : IsExactly (cvtOne rm Dst.zero (FVal.ofInt x.toInt)) (if x.toNat < 128 then (x.toNat : ℚ) else (x.toNat : ℚ) - 256) := by
  have hx := x.isLt
  have hi : x.toInt = if x.toNat < 128 then (x.toNat : Int) else x.toNat - 256 := by
    rw [BitVec.toInt_eq_toNat_cond]
    split <;> split <;> omega
  have hc : ((x.toInt : Int) : ℚ) = if x.toNat < 128 then (x.toNat : ℚ) else (x.toNat : ℚ) - 256 := by
    rw [hi]
    split <;> push_cast <;> rfl
  rw [cvtOne_zero, ← hc]
  refine encode32_int rm (ofInt_Fin _) (ofInt_val _) ?_
  rw [hi]
  split <;> omega

/-! F32 to narrow formats. -/

/-- R63's table of a narrowed pattern and its flags. -/
def Narrows (rm : Rm) (f : Fmt) (w : Word) (x : Nat × Flags) : Prop :=
  (f32IsNan w → x = (f.nan, 0)) ∧ (f32IsInf w → x = if f.e4 then (f.maxBits w.msb, flSat) else (f.infBits w.msb, 0)) ∧
    (f32Finite w → RoundsOnce f rm (f32Val w) x.1 x.2)

theorem narrows_encode (rm : Rm) (f : Fmt) (w : Word) : Narrows rm f w (encodeF f rm (f32 w)) := by
  refine ⟨fun h => by rw [f32_of_nan h]; rfl, fun h => by rw [f32_of_inf h]; rfl, fun h => ?_⟩
  rw [f32Val_eq h]
  obtain ⟨n, m, e, hd⟩ := f32_Fin h
  rw [hd]
  exact ⟨n, m, e, rfl, rfl, rfl⟩

theorem laneCvt_narrows (rm : Rm) (a b : Word) :
    ∀ t ∈ [(CvtV.f16x2, fmtF16), (.bf16x2, fmtBF16), (.f8e4x2, fmtF8E4), (.f8e5x2, fmtF8E5)],
      ∃ x y : Nat × Flags, Narrows rm t.2 a x ∧ Narrows rm t.2 b y ∧ laneCvt t.1 rm Dst.zero a b = (BitVec.ofNat 32 (x.1 + y.1 * 2 ^ t.2.width), x.2 ||| y.2) := by
  have pair : ∀ f : Fmt, ∃ x y : Nat × Flags, Narrows rm f a x ∧ Narrows rm f b y ∧ cvtPair f f.width rm Dst.zero a b = (BitVec.ofNat 32 (x.1 + y.1 * 2 ^ f.width), x.2 ||| y.2) :=
    fun f => ⟨_, _, narrows_encode rm f a, narrows_encode rm f b, by simp only [cvtPair, cvtTo, finishF_zero, add_comm]⟩
  simp only [List.forall_mem_cons]
  exact ⟨pair fmtF16, pair fmtBF16, pair fmtF8E4, pair fmtF8E5, List.forall_mem_nil _⟩

end Sys2Proof.Machine
end

section
/-! SUPPORT. The codes of PACKQ (R137) and the elements of UNPKQ (R138). -/

namespace Sys2Proof.Machine

/-! One element. -/

/-- The integer that a word is rounded to in PACKQ, if the word is finite. -/
def packInt (rm : Rm) (w : Word) : Int := fvInt (roundInt rm (f32 w)).1

/-- An infinity, or a number that is rounded to an integer n outside -7 to 7. -/
def BeyondSeven (w : Word) (n : Int) : Prop := f32IsInf w ∨ f32Finite w ∧ 7 < n.natAbs

/-- R137's ordinary code of a word that is rounded to n, and its flags. -/
def OrdinaryCode (w : Word) (n : Int) (c : Nat) (fl : Flags) : Prop :=
  (f32IsNan w → c = 0 ∧ fl = flInv) ∧ (f32IsInf w → c = (if w.msb then 15 else 7) ∧ fl = flSat) ∧
    (f32Finite w → c = (if n < 0 then 8 else 0) + min n.natAbs 7 ∧
      fl = (if 7 < n.natAbs then flSat else 0) ||| (if f32Val w = n then 0 else flInx))

theorem packInt_rounds (rm : Rm) {w : Word} (h : f32Finite w) :
    RoundsInt rm (f32Val w) (packInt rm w) ∧ ((roundInt rm (f32 w)).2 = false ↔ f32Val w = packInt rm w) := by
  obtain ⟨z, -, -, hint, rounds, inexact⟩ := roundInt_num rm (f32_Fin h)
  rw [packInt, hint, f32Val_eq h]
  exact ⟨rounds, inexact⟩

theorem f32IsNan_or_inf_or_finite (w : Word) : f32IsNan w ∨ f32IsInf w ∨ f32Finite w := by omega

theorem f32_isNan (w : Word) : (f32 w).isNan = true ↔ f32IsNan w := by
  obtain h | h | h := f32IsNan_or_inf_or_finite w
  · rw [f32_of_nan h]
    exact ⟨fun _ => h, fun _ => rfl⟩
  · rw [f32_of_inf h]
    exact ⟨fun hc => (by cases hc), fun hc => by omega⟩
  · rw [isNan_num (f32_Fin h)]
    exact ⟨fun hc => (by cases hc), fun hc => by omega⟩

theorem ordCode_num (rm : Rm) {v : FVal} (hv : v.Fin) :
    let i := fvInt (roundInt rm v).1
    ordCode rm v = ((if i < 0 then 8 else 0) + min i.natAbs 7, (if 7 < i.natAbs then flSat else 0) ||| flagIf (roundInt rm v).2 flInx) := by
  obtain ⟨n, m, e, rfl⟩ := hv
  intro i
  have hcode : ordCode rm (.fin n m e) =
      (i4Code (if i < -7 then -7 else if 7 < i then 7 else i), flagIf ((if i < -7 then -7 else if 7 < i then 7 else i) != i) flSat ||| flagIf (roundInt rm (.fin n m e)).2 flInx) := rfl
  rw [hcode, i4Code_eq (by split_ifs <;> omega) (by split_ifs <;> omega)]
  congr 1
  · split_ifs <;> omega
  · congr 1
    by_cases h : 7 < i.natAbs
    · rw [if_pos h, show ((if i < -7 then -7 else if 7 < i then 7 else i) != i) = true by rw [bne_iff_ne]; split_ifs <;> omega]
      rfl
    · rw [if_neg h, if_neg (by omega), if_neg (by omega), bne_self_eq_false]
      rfl

theorem ordCode_ordinary (rm : Rm) (w : Word) : OrdinaryCode w (packInt rm w) (ordCode rm (f32 w)).1 (ordCode rm (f32 w)).2 := by
  refine ⟨fun h => ?_, fun h => ?_, fun h => ?_⟩
  · rw [f32_of_nan h]
    exact ⟨rfl, rfl⟩
  · rw [f32_of_inf h]
    cases w.msb <;> exact ⟨rfl, rfl⟩
  · have inexact := (packInt_rounds rm h).2
    have hflag : flagIf (roundInt rm (f32 w)).2 flInx = if f32Val w = packInt rm w then 0 else flInx := by
      split_ifs with hv
      · rw [inexact.2 hv]
        rfl
      · rw [Bool.eq_true_of_not_eq_false fun hf => hv (inexact.1 hf)]
        rfl
    rw [ordCode_num rm (f32_Fin h), hflag]
    exact ⟨rfl, rfl⟩

theorem OrdinaryCode.lt {w : Word} {n : Int} {c : Nat} {fl : Flags} (h : OrdinaryCode w n c fl) : c < 16 := by
  obtain ⟨hnan, hinf, hfin⟩ := h
  obtain hw | hw | hw := f32IsNan_or_inf_or_finite w
  · rw [(hnan hw).1]
    decide
  · rw [(hinf hw).1]
    split <;> decide
  · rw [(hfin hw).1]
    split <;> omega

theorem beyond7_iff (rm : Rm) (w : Word) : beyond7 rm (f32 w) = true ↔ BeyondSeven w (packInt rm w) := by
  rw [BeyondSeven, packInt]
  obtain h | h | h := f32IsNan_or_inf_or_finite w
  · rw [f32_of_nan h]
    exact ⟨fun hc => (by cases hc), fun hc => by omega⟩
  · rw [f32_of_inf h]
    exact ⟨fun _ => Or.inl h, fun _ => rfl⟩
  · obtain ⟨n, m, e, hf⟩ := f32_Fin h
    rw [hf, beyond7, decide_eq_true_eq]
    exact ⟨fun hc => Or.inr ⟨h, hc⟩, fun hc => hc.elim (fun hi => by omega) And.right⟩

theorem dropsValue_flag (rm : Rm) (w : Word) : flagIf (dropsValue rm (f32 w)) flSat = if f32Finite w ∧ packInt rm w = 0 then 0 else flSat := by
  by_cases h : f32Finite w
  · obtain ⟨n, m, e, hf⟩ := f32_Fin h
    simp only [packInt, hf, dropsValue, flagIf, h, true_and, bne_iff_ne]
    split_ifs <;> trivial
  · rw [if_neg (fun hc => h hc.1), f32_of_notFinite h]
    split <;> rfl

/-! Four elements. -/

/-- The first element of a group of Q4X is its outlier. -/
def packsOutlier (v : PackTy) (rm : Rm) (w : Word) : Bool := v == .q4x && ((f32 w).isNan || beyond7 rm (f32 w))

theorem packsOutlier_iff (v : PackTy) (rm : Rm) (w : Word) :
    packsOutlier v rm w = true ↔ v = .q4x ∧ (f32IsNan w ∨ BeyondSeven w (packInt rm w)) := by
  rw [packsOutlier, Bool.and_eq_true, Bool.or_eq_true, beq_iff_eq, f32_isNan, beyond7_iff]

/-- Code k of the group of the words a, and the flags it comes with. -/
def groupCode (v : PackTy) (rm : Rm) (a : Nat → Word) (k : Nat) : Nat × Flags :=
  let outlier := encodeF fmtF8E4 rm (f32 (a 0))
  if packsOutlier v rm (a 0) then
    match k with
    | 0 => (8, outlier.2)
    | 1 => (outlier.1 / 16, flagIf (dropsValue rm (f32 (a 1))) flSat)
    | 2 => (outlier.1 % 16, flagIf (dropsValue rm (f32 (a 2))) flSat)
    | _ => ordCode rm (f32 (a k))
  else ordCode rm (f32 (a k))

theorem flagIf_or (p q : Bool) (f : Flags) : flagIf (p || q) f = flagIf p f ||| flagIf q f := by
  cases p <;> cases q <;> simp [flagIf]

theorem packGroup_eq (v : PackTy) (rm : Rm) (a : Nat → Word) :
    let x := groupCode v rm a
    packGroup v rm (f32 (a 0)) (f32 (a 1)) (f32 (a 2)) (f32 (a 3)) =
      ((x 0).1 + (x 1).1 * 16 + (x 2).1 * 256 + (x 3).1 * 4096, (x 0).2 ||| (x 1).2 ||| (x 2).2 ||| (x 3).2) := by
  intro x
  by_cases h : packsOutlier v rm (a 0) = true
  · have hx : x = groupCode v rm a := rfl
    have hg : packGroup v rm (f32 (a 0)) (f32 (a 1)) (f32 (a 2)) (f32 (a 3)) =
        let e := encodeF fmtF8E4 rm (f32 (a 0))
        (8 + e.1 / 16 * 16 + e.1 % 16 * 256 + (ordCode rm (f32 (a 3))).1 * 4096,
          e.2 ||| (ordCode rm (f32 (a 3))).2 ||| flagIf (dropsValue rm (f32 (a 1)) || dropsValue rm (f32 (a 2))) flSat) := if_pos h
    rw [hg, hx]
    simp only [groupCode, if_pos h, flagIf_or]
    refine Prod.ext (by omega) ?_
    ac_rfl
  · have hx : x = fun k => ordCode rm (f32 (a k)) := funext fun k => if_neg h
    rw [hx]
    exact if_neg h

theorem encodeF_f8e4_lt (rm : Rm) (v : FVal) : (encodeF fmtF8E4 rm v).1 < 256 := by
  have ends : ∀ n, fmtF8E4.sign n < 256 ∧ fmtF8E4.maxBits n < 256 := by decide
  cases v with
  | nan => exact (by decide : fmtF8E4.nan < 256)
  | inf n => exact (ends n).2
  | fin n m e =>
    by_cases hm : m = 0
    · subst hm
      exact (ends n).1
    · obtain hov | ⟨hmax, hr⟩ := roundF_cases fmtF8E4 rm n false e (Or.inl hm)
      · obtain hb | ⟨h4, -⟩ := overflowF_bits fmtF8E4 rm n
        · rw [encodeF, hov, hb]
          exact (ends n).2
        · cases h4
      · obtain ⟨hk, -⟩ := significand_bounds fmtF8E4 rm n false m e
        rw [encodeF, hr]
        exact (decodeF_packBits (by decide) n (qMin_le_unitAt fmtF8E4 m e) hk hmax).1

theorem groupCode_lt (v : PackTy) (rm : Rm) (a : Nat → Word) (k : Nat) : (groupCode v rm a k).1 < 16 := by
  have hord : (ordCode rm (f32 (a k))).1 < 16 := (ordCode_ordinary rm (a k)).lt
  have hbits := encodeF_f8e4_lt rm (f32 (a 0))
  unfold groupCode
  dsimp only
  split
  · split
    · exact (by decide : 8 < 16)
    · dsimp only
      omega
    · dsimp only
      omega
    · exact hord
  · exact hord

/-- R137's group of four codes from the words a, where n is what they are rounded to. -/
def PackedGroup (v : PackTy) (rm : Rm) (a : Nat → Word) (n : Nat → Int) (c : Nat → Nat) (fl : Nat → Flags) (o : Nat) : Prop :=
  let outlier := v = .q4x ∧ (f32IsNan (a o) ∨ BeyondSeven (a o) (n o))
  OrdinaryCode (a (o + 3)) (n (o + 3)) (c (o + 3)) (fl (o + 3)) ∧
    (¬outlier → ∀ i < 3, OrdinaryCode (a (o + i)) (n (o + i)) (c (o + i)) (fl (o + i))) ∧
    (outlier → c o = 8 ∧
      (let x := c (o + 1) * 16 + c (o + 2)
       (f32IsNan (a o) → x = 0x7F ∧ fl o = 0) ∧ (f32IsInf (a o) → x = (if (a o).msb then 0xFE else 0x7E) ∧ fl o = flSat) ∧
        (f32Finite (a o) → RoundsOnce fmtF8E4 rm (f32Val (a o)) x (fl o))) ∧
      ∀ i ∈ [1, 2], fl (o + i) = if f32Finite (a (o + i)) ∧ n (o + i) = 0 then 0 else flSat)

theorem packedGroup_groupCode (v : PackTy) (rm : Rm) (a : Nat → Word) {c : Nat → Nat} {fl : Nat → Flags} (o : Nat)
    (h : ∀ k < 4, (c (o + k), fl (o + k)) = groupCode v rm (fun j => a (o + j)) k) : PackedGroup v rm a (fun i => packInt rm (a i)) c fl o := by
  have hc : ∀ k < 4, c (o + k) = (groupCode v rm (fun j => a (o + j)) k).1 := fun k hk => congrArg Prod.fst (h k hk)
  have hfl : ∀ k < 4, fl (o + k) = (groupCode v rm (fun j => a (o + j)) k).2 := fun k hk => congrArg Prod.snd (h k hk)
  have hiff := packsOutlier_iff v rm (a o)
  refine ⟨?_, fun hno i hi => ?_, fun hout => ⟨?_, ?_, ?_⟩⟩
  · have h3 : groupCode v rm (fun j => a (o + j)) 3 = ordCode rm (f32 (a (o + 3))) := ite_self _
    rw [hc 3 (by decide), hfl 3 (by decide), h3]
    exact ordCode_ordinary rm _
  · have hi' : groupCode v rm (fun j => a (o + j)) i = ordCode rm (f32 (a (o + i))) := if_neg fun hp => hno (hiff.1 hp)
    rw [hc i (by omega), hfl i (by omega), hi']
    exact ordCode_ordinary rm _
  · have h0 : groupCode v rm (fun j => a (o + j)) 0 = (8, (encodeF fmtF8E4 rm (f32 (a o))).2) := if_pos (hiff.2 hout)
    exact (hc 0 (by decide)).trans (congrArg Prod.fst h0)
  · have h0 : groupCode v rm (fun j => a (o + j)) 0 = (8, (encodeF fmtF8E4 rm (f32 (a o))).2) := if_pos (hiff.2 hout)
    have h1 : (groupCode v rm (fun j => a (o + j)) 1).1 = (encodeF fmtF8E4 rm (f32 (a o))).1 / 16 := congrArg Prod.fst (if_pos (hiff.2 hout))
    have h2 : (groupCode v rm (fun j => a (o + j)) 2).1 = (encodeF fmtF8E4 rm (f32 (a o))).1 % 16 := congrArg Prod.fst (if_pos (hiff.2 hout))
    have hx : c (o + 1) * 16 + c (o + 2) = (encodeF fmtF8E4 rm (f32 (a o))).1 := by
      rw [hc 1 (by decide), hc 2 (by decide), h1, h2]
      omega
    have hf : fl o = (encodeF fmtF8E4 rm (f32 (a o))).2 := (hfl 0 (by decide)).trans (by rw [h0])
    obtain ⟨hnan, hinf, hfin⟩ := narrows_encode rm fmtF8E4 (a o)
    rw [hx, hf]
    refine ⟨fun hw => ?_, fun hw => ?_, hfin⟩
    · rw [hnan hw]
      exact ⟨rfl, rfl⟩
    · rw [hinf hw]
      cases (a o).msb <;> exact ⟨rfl, rfl⟩
  · simp only [List.forall_mem_cons]
    refine ⟨?_, ?_, List.forall_mem_nil _⟩
    · rw [hfl 1 (by decide), ← dropsValue_flag]
      exact congrArg Prod.snd (if_pos (hiff.2 hout))
    · rw [hfl 2 (by decide), ← dropsValue_flag]
      exact congrArg Prod.snd (if_pos (hiff.2 hout))

/-! Eight elements. -/

/-- Code i of the eight, in the group it is in. -/
def packCode (v : PackTy) (rm : Rm) (a : Nat → Word) (i : Nat) : Nat × Flags := groupCode v rm (fun j => a (i / 4 * 4 + j)) (i % 4)

theorem packCode_add (v : PackTy) (rm : Rm) (a : Nat → Word) (g : Nat) {k : Nat} (hk : k < 4) :
    packCode v rm a (4 * g + k) = groupCode v rm (fun j => a (4 * g + j)) k := by
  have hdiv : (4 * g + k) / 4 * 4 = 4 * g := by omega
  have hmod : (4 * g + k) % 4 = k := by omega
  rw [packCode, hdiv, hmod]

theorem packGroup_codes (v : PackTy) (rm : Rm) (a : Nat → Word) (g : Nat) :
    let x := fun k => packCode v rm a (4 * g + k)
    packGroup v rm (f32 (a (4 * g))) (f32 (a (4 * g + 1))) (f32 (a (4 * g + 2))) (f32 (a (4 * g + 3))) =
      ((x 0).1 + (x 1).1 * 16 + (x 2).1 * 256 + (x 3).1 * 4096, (x 0).2 ||| (x 1).2 ||| (x 2).2 ||| (x 3).2) := by
  intro x
  have hx : ∀ k < 4, x k = groupCode v rm (fun j => a (4 * g + j)) k := fun k hk => packCode_add v rm a g hk
  rw [hx 0 (by decide), hx 1 (by decide), hx 2 (by decide), hx 3 (by decide)]
  exact packGroup_eq v rm fun j => a (4 * g + j)

theorem lanePackq_eq (v : PackTy) (rm : Rm) (a : Nat → Word) :
    let lo := packGroup v rm (f32 (a 0)) (f32 (a 1)) (f32 (a 2)) (f32 (a 3))
    let hi := packGroup v rm (f32 (a 4)) (f32 (a 5)) (f32 (a 6)) (f32 (a 7))
    lanePackq v rm a = (BitVec.ofNat 32 (hi.1 * 65536 + lo.1), lo.2 ||| hi.2) := rfl

theorem sum_sixteenths (c : Nat → Nat) :
    ((List.range 8).map fun i => c i * 16 ^ i).sum =
      (c 4 + c 5 * 16 + c 6 * 256 + c 7 * 4096) * 65536 + (c 0 + c 1 * 16 + c 2 * 256 + c 3 * 4096) := by
  simp only [List.range_succ, List.range_zero, List.map_append, List.map_cons, List.map_nil, List.sum_append, List.sum_cons, List.sum_nil, List.nil_append]
  ring

theorem foldl_flags (fl : Nat → Flags) :
    (List.range 8).foldl (fun x i => x ||| fl i) 0 = (fl 0 ||| fl 1 ||| fl 2 ||| fl 3) ||| (fl 4 ||| fl 5 ||| fl 6 ||| fl 7) := by
  have zero : ∀ x : Flags, 0 ||| x = x := fun _ => BitVec.zero_or
  simp only [List.range_succ, List.range_zero, List.foldl_append, List.foldl_cons, List.foldl_nil, zero]
  ac_rfl

theorem lanePackq_codes (v : PackTy) (rm : Rm) (a : Nat → Word) :
    lanePackq v rm a = (BitVec.ofNat 32 (((List.range 8).map fun i => (packCode v rm a i).1 * 16 ^ i).sum),
      (List.range 8).foldl (fun x i => x ||| (packCode v rm a i).2) 0) := by
  rw [sum_sixteenths fun i => (packCode v rm a i).1, foldl_flags fun i => (packCode v rm a i).2, lanePackq_eq]
  have lo := packGroup_codes v rm a 0
  have hi := packGroup_codes v rm a 1
  simp only [Nat.mul_zero, Nat.mul_one, Nat.zero_add, Nat.add_zero, Nat.reduceAdd] at lo hi
  rw [lo, hi]

theorem lanePackq_groups (v : PackTy) (rm : Rm) (a : Nat → Word) :
    ∃ (n : Nat → Int) (c : Nat → Nat) (fl : Nat → Flags),
      (∀ i < 8, c i < 16 ∧ (f32Finite (a i) → RoundsInt rm (f32Val (a i)) (n i))) ∧
        lanePackq v rm a = (BitVec.ofNat 32 (((List.range 8).map fun i => c i * 16 ^ i).sum), (List.range 8).foldl (fun x i => x ||| fl i) 0) ∧
        ∀ g < 2, PackedGroup v rm a n c fl (4 * g) :=
  ⟨fun i => packInt rm (a i), fun i => (packCode v rm a i).1, fun i => (packCode v rm a i).2,
    fun _ _ => ⟨groupCode_lt .., fun h => (packInt_rounds rm h).1⟩, lanePackq_codes v rm a,
    fun g _ => packedGroup_groupCode v rm a (4 * g) fun _ hk => packCode_add v rm a g hk⟩

/-! Unpacking. -/

/-- The value of an ordinary code (R51). -/
def plainValue (c : Nat) : ℚ := if c < 8 then (c : ℚ) else 8 - c

theorem laneUnpkq_i4 (a b : Word) : IsExactly (laneUnpkq .i4 Dst.zero a b) (plainValue (nibble a (b.toNat % 8))) :=
  cvtOne_i4 .rne (Nat.mod_lt _ (by decide))

theorem laneUnpkq_q4x (a b : Word) :
    let g := b.toNat % 8 / 4 * 4
    laneUnpkq .q4x Dst.zero a b = cvtOne .rne Dst.zero (q4xElem (nibble a g) (nibble a (g + 1)) (nibble a (g + 2)) (nibble a (g + 3)) (b.toNat % 8 % 4)) := rfl

theorem q4xElem_first (c1 c2 c3 : Nat) : q4xElem 8 c1 c2 c3 0 = decodeF fmtF8E4 (c1 * 16 + c2) := if_pos rfl
theorem q4xElem_second (c1 c2 c3 : Nat) : q4xElem 8 c1 c2 c3 1 = .zero := if_pos rfl
theorem q4xElem_third (c1 c2 c3 : Nat) : q4xElem 8 c1 c2 c3 2 = .zero := if_pos rfl
theorem q4xElem_last (c1 c2 c3 : Nat) : q4xElem 8 c1 c2 c3 3 = FVal.ofInt (i4Val c3) := if_pos rfl

/-- A group without an outlier. -/
theorem laneUnpkq_plain {a b : Word} (h : nibble a (b.toNat % 8 / 4 * 4) ≠ 8) :
    IsExactly (laneUnpkq .q4x Dst.zero a b) (plainValue (nibble a (b.toNat % 8))) := by
  have hj : q4xElem (nibble a (b.toNat % 8 / 4 * 4)) (nibble a (b.toNat % 8 / 4 * 4 + 1)) (nibble a (b.toNat % 8 / 4 * 4 + 2)) (nibble a (b.toNat % 8 / 4 * 4 + 3))
      (b.toNat % 8 % 4) = FVal.ofInt (i4Val (nibble a (b.toNat % 8))) := by
    have hlt : b.toNat % 8 < 8 := Nat.mod_lt _ (by decide)
    generalize b.toNat % 8 = j at *
    interval_cases j <;> exact if_neg h
  rw [laneUnpkq_q4x, hj]
  exact cvtOne_i4 .rne (Nat.mod_lt _ (by decide))

/-- The last element of a group with an outlier. -/
theorem laneUnpkq_last {a b : Word} (h : nibble a (b.toNat % 8 / 4 * 4) = 8) (hj : b.toNat % 8 = b.toNat % 8 / 4 * 4 + 3) :
    IsExactly (laneUnpkq .q4x Dst.zero a b) (plainValue (nibble a (b.toNat % 8))) := by
  have h3 : b.toNat % 8 % 4 = 3 := by omega
  rw [laneUnpkq_q4x, h3, h, q4xElem_last, ← hj]
  exact cvtOne_i4 .rne (Nat.mod_lt _ (by decide))

/-- The elements that give up their codes to an outlier. -/
theorem laneUnpkq_dropped {a b : Word} (h : nibble a (b.toNat % 8 / 4 * 4) = 8)
    (hj : b.toNat % 8 = b.toNat % 8 / 4 * 4 + 1 ∨ b.toNat % 8 = b.toNat % 8 / 4 * 4 + 2) : laneUnpkq .q4x Dst.zero a b = (0, 0) := by
  have zero : cvtOne .rne Dst.zero .zero = (0, 0) := by decide
  rw [laneUnpkq_q4x, h]
  obtain hj | hj := hj
  · rw [show b.toNat % 8 % 4 = 1 by omega, q4xElem_second, zero]
  · rw [show b.toNat % 8 % 4 = 2 by omega, q4xElem_third, zero]

/-- An outlier. -/
theorem laneUnpkq_outlier {a b : Word} (h : nibble a (b.toNat % 8 / 4 * 4) = 8) (hj : b.toNat % 8 = b.toNat % 8 / 4 * 4) :
    let x := nibble a (b.toNat % 8 / 4 * 4 + 1) * 16 + nibble a (b.toNat % 8 / 4 * 4 + 2)
    if x % 128 = 127 then laneUnpkq .q4x Dst.zero a b = (canon, 0) else IsExactly (laneUnpkq .q4x Dst.zero a b) (patVal 4 3 x) := by
  intro x
  have h0 : b.toNat % 8 % 4 = 0 := by omega
  have hr : laneUnpkq .q4x Dst.zero a b = (BitVec.ofNat 32 (encodeF fmtF32 .rne (decodeF fmtF8E4 x)).1, (encodeF fmtF32 .rne (decodeF fmtF8E4 x)).2) := by
    rw [laneUnpkq_q4x, h0, h, q4xElem_first, cvtOne_zero]
  obtain ⟨flags, hnan, -, hfin⟩ := widens_encode .rne (narrow_formats fmtF8E4 (by decide)) x
  rw [← hr] at flags hnan hfin
  have hiff : (x / 2 ^ 3 % 2 ^ 4 = 2 ^ 4 - 1 ∧ x % 2 ^ 3 = 2 ^ 3 - 1) ↔ x % 128 = 127 := by omega
  split
  · next hx => exact Prod.ext (hnan (hiff.2 hx)) flags
  · next hx => exact ⟨flags, hfin ⟨fun hc => hx (hiff.1 hc), fun hc => by cases hc.2⟩⟩

end Sys2Proof.Machine
end

section
/-! O10: the canonical NaN and the special values. -/

namespace Sys2Proof.Machine

/-! R129-R135's tables, function by function. -/

theorem laneRcp_table (a : Word) :
    let ex : Nat := f32Mag a / 2 ^ 23
    (f32IsZero a → laneRcp Dst.zero a = (f32Of a.msb 0x7F800000, flDbz)) ∧ (f32IsInf a → laneRcp Dst.zero a = (f32Of a.msb 0, 0)) ∧
      (f32Mag a % 2 ^ 23 = 0 ∧ 1 ≤ ex ∧ ex ≤ 253 → laneRcp Dst.zero a = (f32Of a.msb ((254 - ex) * 2 ^ 23), 0)) ∧
      (f32Finite a ∧ 1 ≤ ex ∧ ¬f32Mag a % 2 ^ 23 = 0 → (laneRcp Dst.zero a).2 &&& flInx = flInx) :=
  ⟨laneRcp_zero, laneRcp_inf, fun ⟨h, h1, h2⟩ => laneRcp_pow h h1 h2, fun ⟨h, h1, h0⟩ => laneRcp_inexact h h1 h0⟩

theorem laneRsq_table (a : Word) :
    let ex : Nat := f32Mag a / 2 ^ 23
    (¬f32IsNan a ∧ f32Key a < 0 → laneRsq Dst.zero a = (canon, flInv)) ∧ (f32IsZero a → laneRsq Dst.zero a = (f32Of a.msb 0x7F800000, flDbz)) ∧
      (a = 0x7F800000 → laneRsq Dst.zero a = (0, 0)) ∧
      ((f32Mag a % 2 ^ 23 = 0 ∧ 1 ≤ ex ∧ ex ≤ 253) ∧ a.msb = false ∧ ex % 2 = 1 → laneRsq Dst.zero a = (f32Of false ((381 - ex) / 2 * 2 ^ 23), 0)) :=
  ⟨fun ⟨hn, h⟩ => laneRsq_neg hn h, laneRsq_zero, fun h => h ▸ laneRsq_inf, fun ⟨⟨h, h1, h2⟩, hs, hodd⟩ => laneRsq_pow h h1 h2 hs hodd⟩

theorem laneExp2_table (a : Word) :
    (a = 0x7F800000 → laneExp2 Dst.zero a = (a, 0)) ∧ (a = 0xFF800000 → laneExp2 Dst.zero a = (0, 0)) ∧
      (f32Finite a → ∀ k : Int, f32Val a = k →
        (-126 ≤ k ∧ k ≤ 127 → laneExp2 Dst.zero a = (f32Of false ((127 + k).toNat * 2 ^ 23), 0)) ∧
        (-149 ≤ k ∧ k ≤ -127 → laneExp2 Dst.zero a = (f32Of false (2 ^ (149 + k).toNat), 0))) ∧
      (f32Finite a ∧ 192 ≤ f32Val a → laneExp2 Dst.zero a = (0x7F800000, flOvf ||| flInx)) ∧
      (f32Finite a ∧ f32Val a < -192 → laneExp2 Dst.zero a = (0, flUnf ||| flInx)) :=
  ⟨fun h => h ▸ laneExp2_inf.1, fun h => h ▸ laneExp2_inf.2,
    fun ha _ hk => ⟨fun ⟨hlo, hhi⟩ => laneExp2_normal ha hk hlo hhi, fun ⟨hlo, hhi⟩ => laneExp2_subnormal ha hk hlo hhi⟩,
    fun ⟨ha, h⟩ => laneExp2_overflow ha h, fun ⟨ha, h⟩ => laneExp2_underflow ha h⟩

theorem laneLog2_table (a : Word) :
    let ex : Nat := f32Mag a / 2 ^ 23
    (¬f32IsNan a ∧ f32Key a < 0 → laneLog2 Dst.zero a = (canon, flInv)) ∧ (f32IsZero a → laneLog2 Dst.zero a = (0xFF800000, flDbz)) ∧
      (a = 0x7F800000 → laneLog2 Dst.zero a = (a, 0)) ∧
      ((f32Mag a % 2 ^ 23 = 0 ∧ 1 ≤ ex ∧ ex ≤ 253) ∧ a.msb = false →
        f32Val (laneLog2 Dst.zero a).1 = (ex : ℚ) - 127 ∧ f32Finite (laneLog2 Dst.zero a).1 ∧ (laneLog2 Dst.zero a).2 = 0) :=
  ⟨fun ⟨hn, h⟩ => laneLog2_neg hn h, laneLog2_zero, fun h => h ▸ laneLog2_inf, fun ⟨⟨h, h1, h2⟩, hs⟩ =>
    have ⟨flags, fin, hval⟩ := laneLog2_pow h h1 h2 hs
    ⟨hval, fin, flags⟩⟩

theorem laneSinpiCospi_table (a : Word) :
    (f32IsInf a → laneSinpi Dst.zero a = (canon, flInv) ∧ laneCospi Dst.zero a = (canon, flInv)) ∧
      (f32Finite a → ∀ k : Int,
        (f32Val a = k → laneSinpi Dst.zero a = (f32Of a.msb 0, 0) ∧ laneCospi Dst.zero a = (f32Of (decide (k % 2 = 1)) 0x3F800000, 0)) ∧
        (f32Val a = k + 1 / 2 → laneSinpi Dst.zero a = (f32Of (decide (k % 2 = 1)) 0x3F800000, 0) ∧ laneCospi Dst.zero a = (0, 0))) :=
  ⟨laneSinpi_inf, fun ha _ => ⟨fun h => ⟨laneSinpi_int ha h, laneCospi_int ha h⟩, fun h => ⟨laneSinpi_half ha h, laneCospi_half ha h⟩⟩⟩

theorem laneTanh_table (a : Word) :
    (f32IsZero a → laneTanh Dst.zero a = (a, 0)) ∧
      (f32IsInf a ∨ f32Finite a ∧ 10 ≤ |f32Val a| → laneTanh Dst.zero a = (f32Of a.msb 0x3F800000, 0)) ∧
      (f32Finite a ∧ ¬f32IsZero a ∧ |f32Val a| < 10 → (laneTanh Dst.zero a).2 &&& flInx = flInx) :=
  ⟨laneTanh_zero, fun h => h.elim laneTanh_inf fun ⟨ha, h⟩ => laneTanh_large ha h, fun ⟨ha, hz, h⟩ => laneTanh_inexact ha hz h⟩

/-! R136's widenings and integers read from a part of a word. -/

theorem laneCvt_halves (rm : Rm) (a b : Word) :
    Widens fmtF16 (a.toNat % 65536) (laneCvt .f32f16 rm Dst.zero a b) ∧ Widens fmtBF16 (a.toNat % 65536) (laneCvt .f32bf16 rm Dst.zero a b) := by
  simp only [laneCvt, cvtOne_zero]
  exact ⟨widens_encode rm (narrow_formats _ (by decide)) _, widens_encode rm (narrow_formats _ (by decide)) _⟩

theorem laneCvt_bytes (rm : Rm) (a b : Word) :
    let at8 := a.toNat / 256 ^ (b.toNat % 4) % 256
    Widens fmtF8E4 at8 (laneCvt .f32f8e4 rm Dst.zero a b) ∧ Widens fmtF8E5 at8 (laneCvt .f32f8e5 rm Dst.zero a b) ∧
      IsExactly (laneCvt .f32s8 rm Dst.zero a b) (if at8 < 128 then (at8 : ℚ) else (at8 : ℚ) - 256) := by
  intro at8
  have hbyte : (byteOf a (b.toNat % 4)).toNat = at8 := byteOf_toNat a _
  have hs8 := cvtOne_s8 rm (byteOf a (b.toNat % 4))
  rw [hbyte] at hs8
  refine ⟨?_, ?_, hs8⟩
  · rw [laneCvt, cvtOne_zero, hbyte]
    exact widens_encode rm (narrow_formats _ (by decide)) _
  · rw [laneCvt, cvtOne_zero, hbyte]
    exact widens_encode rm (narrow_formats _ (by decide)) _

theorem laneCvt_nibble (rm : Rm) (a b : Word) :
    let c := a.toNat / 16 ^ (b.toNat % 8) % 16
    let r := laneCvt .f32i4 rm Dst.zero a b
    r.2 = 0 ∧ f32Finite r.1 ∧ (f32Val r.1 = if c < 8 then (c : ℚ) else 8 - c) ∧ (c = 8 → r.1 = 0) := by
  intro c r
  have hr : r = cvtOne rm Dst.zero (FVal.ofInt (i4Val c)) := rfl
  obtain ⟨flags, fin, hval⟩ := cvtOne_i4 rm (c := c) (Nat.mod_lt _ (by decide))
  refine ⟨hr ▸ flags, hr ▸ fin, hr ▸ hval, fun hc => ?_⟩
  rw [hr, hc]
  cases rm <;> decide

/-- Settles O10: each clause is the table of its instruction, the exactness of each value resting on one rounding that changes nothing. -/
theorem nansAndSpecialValues : Obligations.NansAndSpecialValues := by
  refine ⟨fun rm d a b c => ⟨canonical_f32Results rm d a b c, fun vals l m ls => canonical_reduce_fadd rm vals l m ls, fun ha hd => special_of_nan ha hd⟩,
    fun a => ⟨laneRcp_table a, laneRsq_table a, laneExp2_table a, laneLog2_table a, laneSinpiCospi_table a, laneTanh_table a⟩,
    fun rm a b => ⟨cvtOne_ofInt rm a.toInt, cvtOne_ofInt rm a.toNat, laneCvt_toRange rm a b, ?_, laneCvt_narrows rm a b⟩,
    lanePackq_groups, by decide, fun a b => ⟨laneUnpkq_i4 a b, laneUnpkq_plain, fun h => ⟨laneUnpkq_outlier h, laneUnpkq_dropped h, laneUnpkq_last h⟩⟩⟩
  obtain ⟨hf16, hbf16⟩ := laneCvt_halves rm a b
  obtain ⟨hf8e4, hf8e5, hs8⟩ := laneCvt_bytes rm a b
  exact ⟨hf16, hbf16, hf8e4, hf8e5, hs8, laneCvt_nibble rm a b⟩

end Sys2Proof.Machine
end

section
/-! SUPPORT. Two TLB entries whose frames differ in bit 48 alone: the address map reads PA[47:0] (R5), so both pages are the scratchpad's first page
(R77), and one STDESC gives one scratchpad line two descriptors. -/

namespace Sys2Proof.Machine

/-- Pages 0x20 and 0x21 of context 1 as a core's TLB holds them. -/
def aliasTlb : List TlbEnt :=
  [⟨1, 0x20, 1, 2 ^ 47 + 2 ^ 44, true, false, false⟩, ⟨1, 0x21, 1, 2 ^ 48 + 2 ^ 47 + 2 ^ 44, true, false, false⟩]

/-- Lanes 0 and 1 are present: v5:v4 names the first line of a page each, v6 a descriptor each. -/
def aliasGroup : Group :=
  { fetchGroup 1 false with exm := 3, vregs := [(4, [0x20000, 0x21000]), (6, [0x7F10, 0x7F11])] }

/-- The group at issue on core 0, whose team has 4096 bytes of scratchpad. -/
def aliasState : State :=
  { State.reset.withFetchWord 96 0 with groups := [(0, aliasGroup)], cores := [(0, { freshCore with tlb := aliasTlb })] }

/-- STDESC [v4], v6. -/
def aliasStore : Mem :=
  ⟨plainHdr, regDst .vec 0, regSrc .vec 4, .src (regSrc .vec 6), ⟨.team, .plain, false, false, false, .normal, 0⟩⟩

/-- The physical address of each lane. -/
def aliasAt (l : Nat) : Nat := if l = 0 then 2 ^ 47 + 2 ^ 44 else 2 ^ 48 + 2 ^ 47 + 2 ^ 44

/-- The counterexample is no malformed state. -/
theorem aliasState_sound : aliasState.Sound := by
  have none_of_nil {α : Type} {P : α → Prop} : ∀ x ∈ ([] : List α), P x := fun _ hx => absurd hx List.not_mem_nil
  have groups_sane : ∀ p ∈ aliasState.groups, p.2.Sane := by
    intro p hp
    obtain rfl : p = (0, aliasGroup) := List.mem_singleton.1 hp
    exact ⟨by decide, by decide, List.Pairwise.nil, none_of_nil⟩
  exact ⟨⟨by unfold Rising; decide, by unfold Group.Shaped; decide, by decide, none_of_nil, by unfold Rising; decide, List.Pairwise.nil, none_of_nil, none_of_nil⟩,
    by decide, by decide, groups_sane, by decide, none_of_nil⟩

/-- The lanes that run are 0 and 1. -/
theorem aliasGroup_runs (l : Nat) (hl : l < 32) (h : (aliasGroup.memRun aliasStore.hdr).getLsbD l = true) : l = 0 ∨ l = 1 := by
  revert l
  decide

/-- The access is ready: both lanes' pages are held, and both addresses are lines of the team's scratchpad. -/
theorem aliasState_accessReady :
    aliasState.AccessReady 0 aliasGroup aliasStore.hdr (srcUse aliasStore.a 0 2 Perm.id :: bopUse aliasStore.b 1) []
      ⟨false, 64, .write, true, true, false, false, [], [], []⟩ (fun l => aliasGroup.ea64 0 aliasStore.a aliasStore.q 64 0 true l) aliasAt := by
  refine ⟨rfl, by decide, by decide, fun l hl hr => ?_⟩
  obtain rfl | rfl := aliasGroup_runs l hl hr
  · exact ⟨by decide, by decide, ⟨2 ^ 47 + 2 ^ 44, true, false, false, by decide, by decide⟩, by decide⟩
  · exact ⟨by decide, by decide, ⟨2 ^ 48 + 2 ^ 47 + 2 ^ 44, true, false, false, by decide, by decide⟩, by decide⟩

/-- What is said of the state in which a store completes holds of some state. -/
theorem State.StoresWith.more {s : State} {gid : Nat} {g : Group} {h : Hdr} {us : List Use} {x : Host.Outcome State Fault Refusal} {hits : Prop}
    {more : State → Group → Prop} (stores : s.StoresWith gid g h us x hits more) : ∃ t g', more t g' := by
  obtain ⟨_, _, _, ⟨t, g', _, _, _, _, _, _, _, _, _, holds⟩, _⟩ := stores
  exact ⟨t, g', holds⟩

/-- Refutes O31: the statement asks of each lane whose line no higher lane names that the scratchpad line hold that lane's descriptor. Nothing in it
bounds a frame of the TLB to 48 bits: here lanes 0 and 1 name two lines, 2^42 apart, of which the address map makes one, and it would hold both 0x7F10
and 0x7F11. -/
theorem not_storeDescriptor : ¬ Obligations.StoreDescriptor := by
  unfold Obligations.StoreDescriptor
  intro h
  obtain ⟨t, -, -, -, -, lines⟩ := (h aliasState 0 aliasGroup aliasStore aliasAt ⟨rfl, rfl⟩ (by decide) aliasState_accessReady).more
  obtain ⟨spad0, -⟩ := lines 0 (by decide) (by decide) (by decide)
  obtain ⟨spad1, -⟩ := lines 1 (by decide) (by decide) (by decide)
  obtain ⟨m0, hm0, desc0, -⟩ := spad0 0 (fetchTeam 0 0) (by decide) (by decide)
  obtain ⟨m1, hm1, desc1, -⟩ := spad1 0 (fetchTeam 0 0) (by decide) (by decide)
  obtain rfl : m0 = m1 := Option.some.inj (hm0.symm.trans hm1)
  exact absurd (desc0.symm.trans desc1) (by decide)

end Sys2Proof.Machine
end

section
/-! SUPPORT. Completing an instruction with the counters and the loops that it leaves, at a taken transfer or at the next word or back edge
(R41, R85, R92, R98). -/

namespace Sys2Proof.Machine

/-! The counters of lanes (R85). -/

@[simp] theorem setCnt_exm (g : Group) (f : Nat → Nat → Nat) : (g.setCnt f).exm = g.exm := rfl
@[simp] theorem putLoop_cntOf (g : Group) (k : Nat) (l : LoopReg) (i : Nat) : (g.putLoop k l).cntOf i = g.cntOf i := rfl

theorem cntOf_lt (g : Group) (l : Nat) : g.cntOf l < 256 := BitVec.isLt _

/-- A counter as setCnt leaves it, where the new value fits its eight bits. -/
theorem cntOf_setCnt (g : Group) (f : Nat → Nat → Nat) (l : Nat) (hl : l < 32) (fits : f l (g.cntOf l) < 256 ∨ g.exm.getLsbD l = false) :
    (g.setCnt f).cntOf l = if g.exm.getLsbD l then f l (g.cntOf l) else g.cntOf l := by
  have hc : (g.setCnt f).cntOf l = (if g.exm.getLsbD l then f l (g.cntOf l) else g.cntOf l) % 2 ^ 8 := by
    simp only [Group.cntOf, Group.setCnt, getD_map_range _ _ _ hl, BitVec.toNat_ofNat]
  rw [hc]
  refine Nat.mod_eq_of_lt ?_
  split
  · rename_i hp
    exact fits.resolve_right (by simp [hp])
  · exact cntOf_lt g l

/-- Whether some present lane's counter meets a condition, as the rules say it. -/
theorem anyPresent_iff (g : Group) (p : Nat → Bool) : g.anyPresent p = true ↔ g.SomeLane g.cntOf (p · = true) := by
  simp [Group.anyPresent, Group.SomeLane]

theorem anyZero_iff (g : Group) : g.anyZero = true ↔ g.SomeLane g.cntOf (· = 0) := by
  simp [Group.anyZero, Group.SomeLane]

/-- Whether a lane runs, of a group whose counters are n. -/
theorem anyZero_of_counts (g q : Group) (n : Nat → Nat) (he : q.exm = g.exm) (hn : ∀ l, l < 32 → q.cntOf l = n l) :
    q.anyZero = true ↔ g.SomeLane n (· = 0) := by
  rw [anyZero_iff, Group.SomeLane, Group.SomeLane, he]
  exact exists_congr fun l => and_congr_right fun hl => by rw [hn l hl]

/-! Addresses of instructions (R18, R34, R94). -/

theorem target_eq_onward (a : Addr) (n : Int) : target a n = onward a n := by
  unfold target onward
  rw [BitVec.ofInt_add, BitVec.ofInt_natCast, BitVec.ofNat_toNat, BitVec.setWidth_eq]

theorem pcWord_eq (a : Addr) : pcWord a = BitVec.ofNat 32 (a.toNat / 4) :=
  BitVec.eq_of_toNat_eq (by simp [pcWord, Nat.shiftRight_eq_div_pow])

/-- PC[47:34] as a number. -/
theorem pcHigh_eq (a : Addr) : a.extractLsb' 34 14 = BitVec.ofNat 14 (a.toNat / 2 ^ 34) :=
  BitVec.eq_of_toNat_eq (by simp [Nat.shiftRight_eq_div_pow])

/-- An address of HI, a word number and the two zero bits. -/
theorem loopAddress_toNat (h : BitVec 14) (w : Word) : (h ++ w ++ (0 : BitVec 2)).toNat = h.toNat * 2 ^ 34 + w.toNat * 4 := by
  have hw : w.toNat < 2 ^ 32 := w.isLt
  have hor : (h ++ w).toNat = h.toNat <<< 32 + w.toNat := by rw [BitVec.toNat_append, Nat.shiftLeft_add_eq_or_of_lt hw]
  rw [BitVec.toNat_append, hor]
  simp only [BitVec.ofNat_eq_ofNat, BitVec.toNat_ofNat, Nat.zero_mod, Nat.or_zero, Nat.shiftLeft_eq]
  omega

/-- The guard that never runs (R86), by its fields. -/
theorem never_iff (h : Hdr) : never h = true ↔ h.guard = ⟨true, false, 7⟩ := by
  obtain ⟨⟨neg, stage, idx⟩, _⟩ := h
  simp [never, and_assoc]

/-! Where a group goes on, and what else completing an instruction leaves of it. -/

/-- The group at a taken transfer or, without one, past the back edge at its instruction, and the address there. -/
def Group.goesOn (g : Group) (jump : Option Addr) : Group × Addr :=
  match jump with
  | some a => (g, a)
  | none => ((g.backEdge 4).1, (g.backEdge 4).2.getD (g.pc + 12))

/-- A transfer is taken, or no loop ends here. -/
theorem goesOn_plain (g : Group) (jump : Option Addr) (h : jump.isSome ∨ g.NoLoopEnd) : g.goesOn jump = (g, jump.getD (g.pc + 12)) := by
  cases jump with
  | some a => rfl
  | none => simp only [Group.goesOn, backEdge_none g 4 (h.resolve_left (by simp)), Option.getD]

/-- g' is g where its instruction leads, by pc, counters and loops. -/
structure Group.WentOn (g g' : Group) (jump : Option Addr) : Prop where
  pc : g'.pc = (g.goesOn jump).2
  cnt : g'.cnt = (g.goesOn jump).1.cnt
  loops : g'.loops = (g.goesOn jump).1.loops

theorem past_wentOn (g : Group) (clk gen : Nat) (jump : Option Addr) : g.WentOn (g.past clk gen jump) jump := by
  cases jump <;> exact ⟨rfl, rfl, rfl⟩

/-- Past its instruction the group is as it was but for pc, counters, loops, REPLAY and the state of the issue. -/
theorem past_frame (g : Group) (clk gen : Nat) (jump : Option Addr) :
    ∃ pc c ls rp sc, g.past clk gen jump =
        { g with pc := pc, cnt := c, loops := ls, replay := rp, acc := none, rel := none, held := none, sched := sc } ∧
      sc.issued = g.sched.issued + 1 := by
  cases jump with
  | some a => exact ⟨a, g.cnt, g.loops, _, _, rfl, rfl⟩
  | none =>
    obtain ⟨pc, c, ls, rp, sc, heq, hissued, -⟩ := past_eq g clk gen
    exact ⟨pc, c, ls, rp, sc, heq, hissued⟩

/-- The instruction completes: the group goes on where it leads. -/
theorem finish_wentOn (s : State) (gid : Nat) (g : Group) (h : Hdr) (jump : Option Addr) :
    ∃ g', s.finish gid g h jump = s.putGroup gid g' ∧ g.WentOn g' jump := by
  obtain ⟨v, sr, rs, b, pk, hm⟩ :=
    movedOn_eq (g.past (s.cclk (gidCid gid)) (s.core (gidCid gid)).igen jump) h.sch.sw (h.sch.sw && !g.sched.drained)
  obtain ⟨hpc, hcnt, hloops⟩ := past_wentOn g (s.cclk (gidCid gid)) (s.core (gidCid gid)).igen jump
  exact ⟨_, rfl, by rw [hm]; exact ⟨hpc, hcnt, hloops⟩⟩

/-- What completes with new counters and loops keeps every register but those read with KILL, and every result that has yet to land. -/
theorem finish_moved (s : State) (gid : Nat) {g g1 : Group} {us : List Use} (p : g.Prepared g1 us) (c : List Byte) (ls : List LoopReg) (h : Hdr)
    (jump : Option Addr) :
    ∃ g', s.finish gid { g1 with cnt := c, loops := ls } h jump = s.putGroup gid g' ∧ g.Moved g' us ∧
      ({ g1 with cnt := c, loops := ls } : Group).WentOn g' jump ∧ ∀ r ∈ g1.results, r.landed = false → r ∈ g'.results := by
  let q : Group := { g1 with cnt := c, loops := ls }
  let a := q.past (s.cclk (gidCid gid)) (s.core (gidCid gid)).igen jump
  obtain ⟨hv, hs, hr⟩ : a.vregs = q.vregs ∧ a.sregs = q.sregs ∧ a.results = q.results := past_banks _ _ _ _
  obtain ⟨pc, c', ls', rp, sc, hpast, hissued⟩ := past_frame q (s.cclk (gidCid gid)) (s.core (gidCid gid)).igen jump
  obtain ⟨v, sr, rs, b, pk, hmoved⟩ := movedOn_eq a h.sch.sw (h.sch.sw && !g1.sched.drained)
  obtain ⟨hpc, hcnt, hloops⟩ : q.WentOn a jump := past_wentOn _ _ _ _
  have hg := p.move
  refine ⟨a.movedOn h.sch.sw (h.sch.sw && !g1.sched.drained), rfl, ⟨?_, ?_, ?_⟩, ?_, ?_⟩
  · rw [hmoved, show a = _ from hpast, show q = { g1 with cnt := c, loops := ls } from rfl, hg]
  · rw [hmoved, show a.sched = sc by rw [show a = _ from hpast], hissued, show q.sched = g1.sched from rfl, hg]
  · intro hsane n l hl hk
    have sane_a : a.Sane := sane_congr g1 _ hv hs hr (p.sane hsane)
    rw [stands_movedOn _ _ _ sane_a n l hl, stands_congr g1 _ n l hv hs hr hl (p.sane hsane), p.regs hsane n l hl hk]
  · rw [hmoved]
    exact ⟨hpc, hcnt, hloops⟩
  · exact fun r hmem hl => mem_movedOn _ _ _ r (hr ▸ hmem) hl

/-! The statements' words for an instruction that completes. -/

/-- An instruction that completes with counters n and loops ls passes, whatever it read with KILL. -/
theorem passes_finish (s : State) (gid : Nat) {g g1 : Group} {us : List Use} (p : g.Prepared g1 us) (c : List Byte) (ls : List LoopReg) (h : Hdr)
    (jump : Option Addr) (n : Nat → Nat) (hn : ∀ l, l < 32 → ({ g with cnt := c } : Group).cntOf l = n l) :
    s.Passes gid g us n ls jump (.next (s.finish gid { g1 with cnt := c, loops := ls } h jump)) := by
  obtain ⟨g', hfinish, hmoved, ⟨hpc, hcnt, hloops⟩, -⟩ := finish_moved s gid p c ls h jump
  refine ⟨g', congrArg _ hfinish, hmoved, fun hj => ?_⟩
  have hgoes := goesOn_plain ({ g1 with cnt := c, loops := ls } : Group) jump (by rw [p.move]; exact hj)
  rw [hgoes] at hpc hcnt hloops
  refine ⟨by rw [hpc, p.move], hloops, fun l hl => ?_⟩
  rw [← hn l hl, Group.cntOf, hcnt]
  rfl

/-- An instruction that leaves counters and loops as they are. -/
theorem passes_plain (s : State) (gid : Nat) {g g1 : Group} {us : List Use} (p : g.Prepared g1 us) (h : Hdr) (jump : Option Addr) :
    s.Passes gid g us g.cntOf g.loops jump (.next (s.finish gid g1 h jump)) := by
  have same : g1 = { g1 with cnt := g.cnt, loops := g.loops } := by rw [p.move]
  rw [same]
  exact passes_finish s gid p g.cnt g.loops h jump g.cntOf fun _ _ => rfl

/-- An instruction that only counts anew. -/
theorem passes_counts (s : State) (gid : Nat) (g q : Group) (h : Hdr) (jump : Option Addr) (n : Nat → Nat) (hq : q = { g with cnt := q.cnt })
    (hn : ∀ l, l < 32 → q.cntOf l = n l) : s.Passes gid g [] n g.loops jump (.next (s.finish gid q h jump)) := by
  rw [hq]
  exact passes_finish s gid (prepared_refl g []) q.cnt g.loops h jump n hn

/-- An instruction that counts anew and skips when no present lane is left running. -/
theorem passes_finishSkip (s : State) (gid : Nat) (g q : Group) (h : Hdr) (e : Addr) (n : Nat → Nat) (hq : q = { g with cnt := q.cnt })
    (hn : ∀ l, l < 32 → q.cntOf l = n l) :
    (g.SomeLane n (· = 0) → s.Passes gid g [] n g.loops none (.next (s.finishSkip gid q h e))) ∧
      (¬g.SomeLane n (· = 0) → s.Passes gid g [] n g.loops (some e) (.next (s.finishSkip gid q h e))) := by
  have runs := anyZero_of_counts g q n (by rw [hq]) hn
  refine ⟨fun hz => ?_, fun hz => ?_⟩
  · rw [State.finishSkip, if_pos (runs.mpr hz)]
    exact passes_counts s gid g q h none n hq hn
  · rw [State.finishSkip, if_neg (mt runs.mp hz)]
    exact passes_counts s gid g q h (some e) n hq hn

/-! How control instructions begin. -/

theorem withGroup_issues {s : State} {gid : Nat} {g : Group} (hi : s.Issues gid g) (f : Nat → Group → State) : s.withGroup f = .next (f gid g) := by
  obtain ⟨rfl, hg⟩ := hi
  simp only [State.withGroup, hg]

/-- A structured instruction under the never guard does nothing but go on (R87). -/
theorem structured_never {s : State} {gid : Nat} {g : Group} (hi : s.Issues gid g) (o : Ctl) (f : Nat → Group → State)
    (hn : o.hdr.guard = ⟨true, false, 7⟩) : s.Passes gid g [] g.cntOf g.loops none (s.structured o f) := by
  rw [State.structured, withGroup_issues hi, if_pos ((never_iff o.hdr).mpr hn)]
  exact passes_plain s gid (prepared_refl g []) o.hdr none

theorem structured_runs {s : State} {gid : Nat} {g : Group} (hi : s.Issues gid g) (o : Ctl) (f : Nat → Group → State)
    (hn : ¬o.hdr.guard = ⟨true, false, 7⟩) : s.structured o f = .next (f gid g) := by
  rw [State.structured, withGroup_issues hi, if_neg (mt (never_iff o.hdr).mp hn)]

end Sys2Proof.Machine
end

section
/-! O18: the divergence instructions on the nesting counters (R85-R90, R101). -/

namespace Sys2Proof.Machine

/-- The loop directly around is pipelined, and some lane runs (R101). -/
theorem pipeFault_iff (g : Group) :
    g.pipeFault = true ↔ (∃ k, g.innerLoop = some k ∧ (g.loop k).pipe = true) ∧ g.SomeLane g.cntOf (· = 0) := by
  rw [Group.pipeFault, Bool.and_eq_true, anyZero_iff]
  refine and_congr_left fun _ => ?_
  cases g.innerLoop <;> simp

/-- Two more for the lanes that do not run, as LOOP and the hardware loops count (R89, R95). -/
theorem cntOf_deeper (g : Group) (room : ¬g.SomeLane g.cntOf (254 ≤ ·)) (l : Nat) (hl : l < 32) :
    (g.setCnt fun _ c => if c > 0 then c + 2 else 0).cntOf l = if g.exm.getLsbD l = true ∧ 0 < g.cntOf l then g.cntOf l + 2 else g.cntOf l := by
  by_cases hp : g.exm.getLsbD l = true
  · have hlt : g.cntOf l < 254 := Nat.lt_of_not_le fun h => room ⟨l, hl, hp, h⟩
    rw [cntOf_setCnt g _ l hl (.inl (by split_ifs <;> omega)), if_pos hp]
    simp only [hp, true_and]
    split_ifs <;> omega
  · rw [cntOf_setCnt g _ l hl (.inr (by simpa using hp)), if_neg hp, if_neg fun h => hp h.1]

/-- The lanes that wait for the end of a loop's pass run again: ENDLOOP, and the back edge of a hardware loop (R89, R98). -/
theorem cntOf_enter (g : Group) (l : Nat) (hl : l < 32) :
    (g.setCnt fun _ c => if c == 1 then 0 else c).cntOf l = if g.exm.getLsbD l = true ∧ g.cntOf l = 1 then 0 else g.cntOf l := by
  have hlt := cntOf_lt g l
  rw [cntOf_setCnt g _ l hl (.inl (by split_ifs <;> omega))]
  simp only [beq_iff_eq, ite_and]

/-- Two less for the lanes that left a loop: its end (R89, R98). -/
theorem cntOf_leave (g : Group) (l : Nat) (hl : l < 32) :
    (g.setCnt fun _ c => if c == 2 then 0 else if c > 2 then c - 2 else c).cntOf l =
      if g.exm.getLsbD l = true then (if g.cntOf l = 2 then 0 else if 2 < g.cntOf l then g.cntOf l - 2 else g.cntOf l) else g.cntOf l := by
  have hlt := cntOf_lt g l
  rw [cntOf_setCnt g _ l hl (.inl (by split_ifs <;> omega))]
  simp only [beq_iff_eq, gt_iff_lt]

section
variable {s : State} {gid : Nat} {g : Group} (hi : s.Issues gid g) (o : Ctl)
include hi

theorem exec_nop : exec (.nop o) s = .next (s.finish gid g o.hdr none) := (rfl : _ = execNop o s).trans (withGroup_issues hi _)

theorem nop_passes : s.Passes gid g [] g.cntOf g.loops none (exec (.nop o) s) := by
  rw [exec_nop hi o]
  exact passes_plain s gid (prepared_refl g []) o.hdr none

/-! BREAK and CONT (R90, R101). -/

theorem leave_never (n : Nat) (hn : o.hdr.guard = ⟨true, false, 7⟩) : s.Passes gid g [] g.cntOf g.loops none (s.leave o n) := by
  rw [State.leave, withGroup_issues hi, if_pos ((never_iff o.hdr).mpr hn)]
  exact passes_plain s gid (prepared_refl g []) o.hdr none

variable (hn : ¬o.hdr.guard = ⟨true, false, 7⟩)
include hn

theorem leave_traps (n : Nat) (piped : g.pipeFault = true) : s.leave o n = .next (s.trapHere gid g 0x0B 0xFFFF) := by
  rw [State.leave, withGroup_issues hi, if_neg (mt (never_iff o.hdr).mp hn), if_pos piped]

theorem leave_passes (n : Nat) (fits : n < 256) (plain : ¬g.pipeFault = true) :
    s.Passes gid g [] (fun l => if g.exm.getLsbD l = true ∧ g.cntOf l = 0 ∧ g.guardAt o.hdr.guard l = true then n else g.cntOf l) g.loops none
      (s.leave o n) := by
  rw [State.leave, withGroup_issues hi, if_neg (mt (never_iff o.hdr).mp hn), if_neg plain]
  refine passes_counts s gid g _ o.hdr none _ rfl fun l hl => ?_
  have hlt := cntOf_lt g l
  rw [cntOf_setCnt g _ l hl (.inl (by split_ifs <;> omega))]
  simp only [Bool.and_eq_true, beq_iff_eq, ite_and]

/-! IF, ELSE and ENDIF (R88). -/

theorem exec_ifi : exec (.ifi o) s = .next (if g.anyPresent (· == 255) then s.trapHere gid g 0x09 0
    else s.finishSkip gid (g.setCnt fun l c => if c > 0 then c + 1 else if g.guardAt o.hdr.guard l then 0 else 1) o.hdr (onward g.pc o.q.toInt)) := by
  rw [← target_eq_onward]
  exact (rfl : _ = execIfi o s).trans (structured_runs hi o _ hn)

theorem ifi_traps (full : g.SomeLane g.cntOf (· = 255)) : exec (.ifi o) s = .next (s.trapHere gid g 0x09 0) := by
  rw [exec_ifi hi o hn, if_pos ((anyPresent_iff g _).mpr (by simpa using full))]

theorem ifi_passes (room : ¬g.SomeLane g.cntOf (· = 255)) :
    let n := fun l => if g.exm.getLsbD l = true then
      (if 0 < g.cntOf l then g.cntOf l + 1 else if g.guardAt o.hdr.guard l = true then 0 else 1) else g.cntOf l
    (g.SomeLane n (· = 0) → s.Passes gid g [] n g.loops none (exec (.ifi o) s)) ∧
      (¬g.SomeLane n (· = 0) → s.Passes gid g [] n g.loops (some (onward g.pc o.q.toInt)) (exec (.ifi o) s)) := by
  intro n
  rw [exec_ifi hi o hn, if_neg fun h => room (by simpa using (anyPresent_iff g _).mp h)]
  refine passes_finishSkip s gid g _ o.hdr _ n rfl fun l hl => cntOf_setCnt g _ l hl ?_
  by_cases hp : g.exm.getLsbD l = true
  · have h255 : g.cntOf l ≠ 255 := fun h => room ⟨l, hl, hp, h⟩
    have hlt := cntOf_lt g l
    left
    split_ifs <;> omega
  · exact .inr (by simpa using hp)

theorem elsei_passes :
    let n := fun l => if g.exm.getLsbD l = true then (if g.cntOf l = 0 then 1 else if g.cntOf l = 1 then 0 else g.cntOf l) else g.cntOf l
    (g.SomeLane n (· = 0) → s.Passes gid g [] n g.loops none (exec (.elsei o) s)) ∧
      (¬g.SomeLane n (· = 0) → s.Passes gid g [] n g.loops (some (onward g.pc o.q.toInt)) (exec (.elsei o) s)) := by
  intro n
  rw [← target_eq_onward, show exec (.elsei o) s = _ from (rfl : _ = execElsei o s).trans (structured_runs hi o _ hn)]
  refine passes_finishSkip s gid g _ o.hdr _ n rfl fun l hl => ?_
  have hlt := cntOf_lt g l
  rw [cntOf_setCnt g _ l hl (.inl (by split_ifs <;> omega))]
  simp only [n, beq_iff_eq]

theorem endif_passes :
    s.Passes gid g [] (fun l => if g.exm.getLsbD l = true then g.cntOf l - 1 else g.cntOf l) g.loops none (exec (.endif o) s) := by
  rw [show exec (.endif o) s = _ from (rfl : _ = execEndif o s).trans (structured_runs hi o _ hn)]
  refine passes_counts s gid g _ o.hdr none _ rfl fun l hl => cntOf_setCnt g _ l hl (.inl ?_)
  have hlt := cntOf_lt g l
  omega

/-! LOOP and ENDLOOP (R89, R101). -/

theorem exec_loop : exec (.loop o) s = .next (if g.pipeFault then s.trapHere gid g 0x0B 0xFFFF
    else if g.anyPresent (· ≥ 254) then s.trapHere gid g 0x09 0
    else s.finishSkip gid (g.setCnt fun _ c => if c > 0 then c + 2 else 0) o.hdr (onward g.pc o.q.toInt)) := by
  rw [← target_eq_onward]
  exact (rfl : _ = execLoop o s).trans (structured_runs hi o _ hn)

theorem loop_pipeTraps (piped : g.pipeFault = true) : exec (.loop o) s = .next (s.trapHere gid g 0x0B 0xFFFF) := by
  rw [exec_loop hi o hn, if_pos piped]

theorem loop_nestingTraps (plain : ¬g.pipeFault = true) (full : g.SomeLane g.cntOf (254 ≤ ·)) :
    exec (.loop o) s = .next (s.trapHere gid g 0x09 0) := by
  rw [exec_loop hi o hn, if_neg plain, if_pos ((anyPresent_iff g _).mpr (by simpa using full))]

theorem loop_passes (plain : ¬g.pipeFault = true) (room : ¬g.SomeLane g.cntOf (254 ≤ ·)) :
    let n := fun l => if g.exm.getLsbD l = true ∧ 0 < g.cntOf l then g.cntOf l + 2 else g.cntOf l
    (g.SomeLane n (· = 0) → s.Passes gid g [] n g.loops none (exec (.loop o) s)) ∧
      (¬g.SomeLane n (· = 0) → s.Passes gid g [] n g.loops (some (onward g.pc o.q.toInt)) (exec (.loop o) s)) := by
  intro n
  rw [exec_loop hi o hn, if_neg plain, if_neg fun h => room (by simpa using (anyPresent_iff g _).mp h)]
  exact passes_finishSkip s gid g _ o.hdr _ n rfl (cntOf_deeper g room)

theorem endloop_passes :
    let n := fun l => if g.exm.getLsbD l = true ∧ g.cntOf l = 1 then 0 else g.cntOf l
    (g.SomeLane n (· = 0) → s.Passes gid g [] n g.loops (some (onward g.pc o.q.toInt)) (exec (.endloop o) s)) ∧
      (¬g.SomeLane n (· = 0) →
        s.Passes gid g [] (fun l => if g.exm.getLsbD l = true then (if n l = 2 then 0 else if 2 < n l then n l - 2 else n l) else g.cntOf l) g.loops
          none (exec (.endloop o) s)) := by
  intro n
  let entered := g.setCnt fun _ c => if c == 1 then 0 else c
  have runs := anyZero_of_counts g entered n rfl (cntOf_enter g)
  have heq : exec (.endloop o) s = .next (if entered.anyZero then s.finish gid entered o.hdr (some (onward g.pc o.q.toInt))
      else s.finish gid (entered.setCnt fun _ c => if c == 2 then 0 else if c > 2 then c - 2 else c) o.hdr none) := by
    rw [← target_eq_onward]
    exact (rfl : _ = execEndloop o s).trans (structured_runs hi o _ hn)
  refine ⟨fun hz => ?_, fun hz => ?_⟩
  · rw [heq, if_pos (runs.mpr hz)]
    exact passes_counts s gid g entered o.hdr _ n rfl (cntOf_enter g)
  · rw [heq, if_neg (mt runs.mp hz)]
    refine passes_counts s gid g _ o.hdr none _ rfl fun l hl => ?_
    rw [cntOf_leave entered l hl, setCnt_exm, cntOf_enter g l hl]
    refine ite_congr rfl (fun _ => rfl) fun hp => if_neg fun h => hp h.1

end

/-- Settles O18: each instruction by its own rule, over the lanes' counters as setCnt leaves them. -/
theorem divergence : Obligations.Divergence := by
  unfold Obligations.Divergence
  intro s gid g o hi c here yes piped ends past neverRun
  refine ⟨nop_passes hi o, fun hn i hmem => ?_, fun hn => ?_⟩
  · simp only [List.mem_cons, List.not_mem_nil, or_false] at hmem
    rcases hmem with rfl | rfl | rfl | rfl | rfl | rfl | rfl
    · exact (structured_never hi o _ hn : ends c none (execIfi o s))
    · exact (structured_never hi o _ hn : ends c none (execElsei o s))
    · exact (structured_never hi o _ hn : ends c none (execEndif o s))
    · exact (structured_never hi o _ hn : ends c none (execLoop o s))
    · exact (structured_never hi o _ hn : ends c none (execEndloop o s))
    · exact leave_never hi o _ hn
    · exact leave_never hi o _ hn
  · have pipe := pipeFault_iff g
    refine ⟨⟨ifi_traps hi o hn, ifi_passes hi o hn⟩, elsei_passes hi o hn, endif_passes hi o hn,
      ⟨fun h => loop_pipeTraps hi o hn (pipe.mpr h), fun h => loop_nestingTraps hi o hn (mt pipe.mp h), fun h => loop_passes hi o hn (mt pipe.mp h)⟩,
      endloop_passes hi o hn, fun h => ⟨leave_traps hi o hn _ (pipe.mpr h), leave_traps hi o hn _ (pipe.mpr h)⟩,
      fun h => ⟨fun hq => ?_, fun hq => ?_⟩⟩
    · have fits : o.q.toNat % 256 + 2 = o.q.toNat + 2 := by omega
      exact fits ▸ leave_passes hi o hn (o.q.toNat % 256 + 2) (by omega) (mt pipe.mp h)
    · have fits : o.q.toNat % 256 + 1 = o.q.toNat + 1 := by omega
      exact fits ▸ leave_passes hi o hn (o.q.toNat % 256 + 1) (by omega) (mt pipe.mp h)

end Sys2Proof.Machine
end

section
/-! O19: jumps and calls (R92). -/

namespace Sys2Proof.Machine

/-- Some present lane is off the group's path: its counter is not 0. -/
theorem apart_iff (g : Group) : g.anyPresent (· != 0) = true ↔ g.SomeLane g.cntOf (· ≠ 0) := by
  rw [anyPresent_iff]
  simp only [bne_iff_ne]

/-- A return address that R92 refuses: beyond 48 bits, or not of a word. -/
theorem retFault_iff (p : DWord) : (p.extractLsb' 48 16 != 0 || p.extractLsb' 0 2 != 0) = true ↔ 2 ^ 48 ≤ p.toNat ∨ p.toNat % 4 ≠ 0 := by
  have hlt : p.toNat < 2 ^ 64 := p.isLt
  simp only [Bool.or_eq_true, bne_iff_ne, ne_eq, ← BitVec.toNat_inj, BitVec.extractLsb'_toNat, Nat.shiftRight_eq_div_pow, BitVec.ofNat_eq_ofNat,
    BitVec.toNat_ofNat]
  omega

/-- CALL's pair in flight: the address after the call, low word and high half-word. -/
def Group.withReturn (g : Group) (due r : Nat) : Group :=
  (g.addResult due (.scal r) 1 [(g.pc + 12).extractLsb' 0 32] 0).addResult due (.scal (r + 1)) 1
    [((g.pc + 12).extractLsb' 32 16).zeroExtend 32] 0

section
variable {s : State} {gid : Nat} {g : Group} (hi : s.Issues gid g) (o : Ctl)

/-- An instruction for the whole group that no lane runs only goes on (R39). -/
theorem uniform_idle (idle : g.runMask o.hdr = 0) (us : List Use) (d : List (SFile × Nat × Nat)) (f : Group → State) :
    s.Passes gid g [] g.cntOf g.loops none (.next (s.uniform gid g o.hdr us d f)) := by
  rw [State.uniform, if_pos idle]
  exact passes_plain s gid (prepared_refl g []) o.hdr none

theorem uniform_runs (runs : g.runMask o.hdr ≠ 0) {us : List Use} {d : List (SFile × Nat × Nat)} (named : g.useFault us d = none) (f : Group → State) :
    s.uniform gid g o.hdr us d f = f (g.killUses (g.runMask o.hdr) (g.runMask o.hdr) us) := by
  rw [State.uniform, if_neg runs, named]

include hi

theorem exec_jmp : exec (.jmp o) s = .next (s.finish gid g o.hdr (if g.runMask o.hdr = 0 then none else some (onward g.pc o.q.toInt))) := by
  rw [← target_eq_onward]
  exact (rfl : _ = execJmp o s).trans (withGroup_issues hi _)

theorem exec_jmps : exec (.jmps o) s = .next (s.uniform gid g o.hdr [srcUse o.a 0 1 Perm.id] [] fun g' =>
    s.finish gid g' o.hdr (some (onward g.pc (o.q.toInt + (g.readScal gid o.a.reg.toNat).toInt)))) := by
  rw [← target_eq_onward]
  exact (rfl : _ = execJmps o s).trans (withGroup_issues hi _)

theorem exec_call : exec (.call o) s = .next (s.uniform gid g o.hdr [] (dstUse o.d 2) fun _ =>
    if g.anyPresent (· != 0) then s.trapHere gid g 0x09 0
    else s.finish gid (g.withReturn (s.cclk (gidCid gid) + 1) o.d.reg.toNat) o.hdr (some (onward g.pc o.q.toInt))) := by
  rw [← target_eq_onward]
  exact (rfl : _ = execCall o s).trans (withGroup_issues hi _)

theorem exec_ret : exec (.ret o) s = .next (s.uniform gid g o.hdr [srcUse o.a 0 2 Perm.id] [] fun g' =>
    let p := g.readPair gid o.a.reg.toNat
    if g.anyPresent (· != 0) then s.trapHere gid g 0x09 0
    else if p.extractLsb' 48 16 != 0 || p.extractLsb' 0 2 != 0 then s.trapHere gid g 0x03 0
    else s.finish gid g' o.hdr (some (p.extractLsb' 0 48))) :=
  (rfl : _ = execRet o s).trans (withGroup_issues hi _)

theorem jumps_idle (idle : g.runMask o.hdr = 0) : ∀ i ∈ [Instr.jmp o, .jmps o, .call o, .ret o], s.Passes gid g [] g.cntOf g.loops none (exec i s) := by
  intro i hmem
  simp only [List.mem_cons, List.not_mem_nil, or_false] at hmem
  rcases hmem with rfl | rfl | rfl | rfl
  · rw [exec_jmp hi, if_pos idle]
    exact passes_plain s gid (prepared_refl g []) o.hdr none
  · exact exec_jmps hi o ▸ uniform_idle o idle _ _ _
  · exact exec_call hi o ▸ uniform_idle o idle _ _ _
  · exact exec_ret hi o ▸ uniform_idle o idle _ _ _

variable (runs : g.runMask o.hdr ≠ 0)
include runs

theorem jmp_passes : s.Passes gid g [] g.cntOf g.loops (some (onward g.pc o.q.toInt)) (exec (.jmp o) s) := by
  rw [exec_jmp hi, if_neg runs]
  exact passes_plain s gid (prepared_refl g []) o.hdr _

theorem jmps_passes (named : g.useFault [srcUse o.a 0 1 Perm.id] [] = none) :
    s.Passes gid g [srcUse o.a 0 1 Perm.id] g.cntOf g.loops (some (onward g.pc (o.q.toInt + (g.readScal gid o.a.reg.toNat).toInt))) (exec (.jmps o) s) := by
  rw [exec_jmps hi, uniform_runs o runs named]
  exact passes_plain s gid (prepared_killUses g _ _ _) o.hdr _

theorem call_traps (named : g.useFault [] (dstUse o.d 2) = none) (apart : g.SomeLane g.cntOf (· ≠ 0)) :
    exec (.call o) s = .next (s.trapHere gid g 0x09 0) := by
  rw [exec_call hi, uniform_runs o runs named, if_pos ((apart_iff g).mpr apart)]

theorem call_passes (named : g.useFault [] (dstUse o.d 2) = none) (together : ¬g.SomeLane g.cntOf (· ≠ 0)) :
    ∃ g', exec (.call o) s = .next (s.putGroup gid g') ∧ g.Moved g' [] ∧ g'.pc = onward g.pc o.q.toInt ∧ g'.loops = g.loops ∧ g'.cnt = g.cnt ∧
      g'.Awaits g.sched.issued (s.cclk (gidCid gid) + 1) (.scal o.d.reg.toNat) 1 (fun _ => (g.pc + 12).extractLsb' 0 32) 0 ∧
      g'.Awaits g.sched.issued (s.cclk (gidCid gid) + 1) (.scal (o.d.reg.toNat + 1)) 1 (fun _ => ((g.pc + 12).extractLsb' 32 16).zeroExtend 32) 0 := by
  have p : g.Prepared (g.withReturn (s.cclk (gidCid gid) + 1) o.d.reg.toNat) [] := ((prepared_refl g []).addResult _ _ _ _ _).addResult _ _ _ _ _
  obtain ⟨g', hfinish, hmoved, ⟨hpc, hcnt, hloops⟩, hkeeps⟩ := finish_moved s gid p g.cnt g.loops o.hdr (some (onward g.pc o.q.toInt))
  have same : ({ g.withReturn (s.cclk (gidCid gid) + 1) o.d.reg.toNat with cnt := g.cnt, loops := g.loops } : Group) =
      g.withReturn (s.cclk (gidCid gid) + 1) o.d.reg.toNat := by rw [p.move]
  refine ⟨g', ?_, hmoved, hpc, hloops, hcnt, ?_, ?_⟩
  · rw [exec_call hi, uniform_runs o runs named, if_neg (mt (apart_iff g).mp together), ← hfinish, same]
  · exact awaits_mono _ _ _ _ _ _ _ _ hkeeps (awaits_mono _ _ _ _ _ _ _ _ (fun r h _ => addResult_keeps _ _ _ _ _ _ r h)
      (awaits_addResult g _ _ _ _ _ _ _ rfl (by decide) (lane_one _ _ rfl)))
  · exact awaits_mono _ _ _ _ _ _ _ _ hkeeps (awaits_addResult _ _ _ _ _ _ _ _ (by rw [addResult_issued]) (by decide) (lane_one _ _ rfl))

section
variable (named : g.useFault [srcUse o.a 0 2 Perm.id] [] = none)
include named

theorem ret_nestingTraps (apart : g.SomeLane g.cntOf (· ≠ 0)) : exec (.ret o) s = .next (s.trapHere gid g 0x09 0) := by
  rw [exec_ret hi, uniform_runs o runs named]
  dsimp only
  rw [if_pos ((apart_iff g).mpr apart)]

variable (together : ¬g.SomeLane g.cntOf (· ≠ 0))
include together

theorem ret_addressTraps (bad : 2 ^ 48 ≤ (g.readPair gid o.a.reg.toNat).toNat ∨ (g.readPair gid o.a.reg.toNat).toNat % 4 ≠ 0) :
    exec (.ret o) s = .next (s.trapHere gid g 0x03 0) := by
  rw [exec_ret hi, uniform_runs o runs named]
  dsimp only
  rw [if_neg (mt (apart_iff g).mp together), if_pos ((retFault_iff _).mpr bad)]

theorem ret_passes (short : (g.readPair gid o.a.reg.toNat).toNat < 2 ^ 48) (word : (g.readPair gid o.a.reg.toNat).toNat % 4 = 0) :
    s.Passes gid g [srcUse o.a 0 2 Perm.id] g.cntOf g.loops (some (BitVec.ofNat 48 (g.readPair gid o.a.reg.toNat).toNat)) (exec (.ret o) s) := by
  rw [exec_ret hi, uniform_runs o runs named]
  dsimp only
  rw [if_neg (mt (apart_iff g).mp together), if_neg (mt (retFault_iff _).mp (by omega))]
  have address : (g.readPair gid o.a.reg.toNat).extractLsb' 0 48 = BitVec.ofNat 48 (g.readPair gid o.a.reg.toNat).toNat := rfl
  rw [address]
  exact passes_plain s gid (prepared_killUses g _ _ _) o.hdr _

end
end

/-- Settles O19: no lane runs, or the registers can be named, and then the nesting, the return address and the target in that order. -/
theorem jumps : Obligations.Jumps := by
  unfold Obligations.Jumps
  intro s gid g o hi ends apart
  refine ⟨jumps_idle hi o, fun runs => ⟨jmp_passes hi o runs, jmps_passes hi o runs, fun named => ?_, fun named => ?_⟩⟩
  · exact ⟨call_traps hi o runs named, call_passes hi o runs named⟩
  · exact ⟨ret_nestingTraps hi o runs named, ret_addressTraps hi o runs named, ret_passes hi o runs named⟩

end Sys2Proof.Machine
end

section
/-! O20: the start and the exit of hardware loops (R94-R97, R100). -/

namespace Sys2Proof.Machine

/-! The faults of R95 and R96. -/

theorem liveLoops_full (g : Group) : 4 ≤ g.liveLoops.length ↔ ∀ j, j < 4 → j < 4 ∧ (g.loop j).live = true := by
  have all : g.liveLoops.length = (List.range 4).length ↔ ∀ j ∈ List.range 4, (g.loop j).live = true := List.length_filter_eq_length_iff
  have most : g.liveLoops.length ≤ (List.range 4).length := List.length_filter_le ..
  simp only [List.length_range, List.mem_range] at all most
  constructor
  · exact fun h j hj => ⟨hj, all.mp (by omega) j hj⟩
  · exact fun h => (all.mpr fun j hj => (h j hj).2).ge

/-- An address in another window of 2^34 bytes (R94). -/
theorem otherWindow_iff (a b : Addr) : a.extractLsb' 34 14 ≠ b.extractLsb' 34 14 ↔ a.toNat / 2 ^ 34 ≠ b.toNat / 2 ^ 34 := by
  have ha : a.toNat < 2 ^ 48 := a.isLt
  have hb : b.toNat < 2 ^ 48 := b.isLt
  rw [pcHigh_eq, pcHigh_eq, ne_eq, ← BitVec.toNat_inj, BitVec.toNat_ofNat, BitVec.toNat_ofNat]
  omega

theorem hloopFault_iff (g : Group) (k : BitVec 2) (ofs : Int) (e : Addr) (n S : Nat) :
    g.hloopFault k.toNat ofs e n S = true ↔
      (k.toNat < 4 ∧ (g.loop k.toNat).live = true) ∨ (∀ j, j < 4 → j < 4 ∧ (g.loop j).live = true) ∨ ofs ≤ 0 ∨
        e.toNat / 2 ^ 34 ≠ g.pc.toNat / 2 ^ 34 ∨ 2 ^ 32 ≤ n + S - 1 ∨
          ∃ j, g.innerLoop = some j ∧ (g.loop j).hi.toNat * 2 ^ 34 + (g.loop j).fin.toNat * 4 < e.toNat := by
  have hk : k.toNat < 4 := k.isLt
  have many : 0xFFFFFFFF < n + S - 1 ↔ 2 ^ 32 ≤ n + S - 1 := by omega
  unfold Group.hloopFault
  cases g.innerLoop with
  | none =>
    simp only [Bool.or_eq_true, decide_eq_true_eq, bne_iff_ne, otherWindow_iff, liveLoops_full, ge_iff_le, gt_iff_lt, many, hk, true_and,
      Bool.false_eq_true, reduceCtorEq, false_and, exists_false, or_false, or_assoc]
  | some i =>
    simp only [Bool.or_eq_true, decide_eq_true_eq, bne_iff_ne, otherWindow_iff, liveLoops_full, ge_iff_le, gt_iff_lt, many, hk, true_and,
      Option.some.injEq, exists_eq_left', BitVec.lt_def, LoopReg.endAt, loopAddress_toNat, or_assoc]
    rw [or_comm (a := 2 ^ 32 ≤ n + S - 1)]

/-! HLOOP and HLOOPP (R95-R97). -/

/-- The group once the depth has been read, with KILL where some lane runs. -/
def Group.depthRead (g : Group) (o : Ctl) : Group := if g.anyZero then g.killUses 0 0 (bopUse o.b 1) else g

theorem prepared_depthRead (g : Group) (o : Ctl) : g.Prepared (g.depthRead o) (bopUse o.b 1) := by
  unfold Group.depthRead
  split
  · exact prepared_killUses g 0 0 _
  · exact prepared_refl g _

/-- The loop register of a loop entered at the pc, of n trips in S stages, whose last instruction is at e. -/
def Group.freshLoop (g : Group) (e : Addr) (n S size : Nat) (base : BitVec 10) (pipe : Bool) : LoopReg :=
  { start := BitVec.ofNat 32 ((g.pc + 12).toNat / 4), fin := BitVec.ofNat 32 (e.toNat / 4), count := BitVec.ofNat 32 (n + S - 1), index := 0,
    rrb := 0, base := base, size := BitVec.ofNat 7 size, live := true, pipe := pipe,
    level := ((List.range 4).filter fun j => (g.loop j).live).length, sm1 := BitVec.ofNat 3 (S - 1), stmask := 1,
    hi := BitVec.ofNat 14 (g.pc.toNat / 2 ^ 34) }

section
variable {s : State} {gid : Nat} {g : Group} (o : Ctl) (k : BitVec 2) (S size : Nat) (base : BitVec 10) (pipe : Bool)
  (named : g.SomeLane g.cntOf (· = 0) → g.useFault (bopUse o.b 1) [] = none)
include named

/-- With a register that can be named, or with no lane running, the start of a loop is a choice among two faults, a skip and the entry. -/
theorem hloopStart_eq : s.hloopStart gid g o k.toNat S pipe base size =
    if g.hloopFault k.toNat o.q.toInt (onward g.pc o.q.toInt) (g.bopWord gid o.b).toNat S then s.trapHere gid g 0x0A k.toNat
    else if (g.bopWord gid o.b).toNat = 0 || !g.anyZero then s.finish gid (g.depthRead o) o.hdr (some (onward g.pc o.q.toInt + 12))
    else if g.anyPresent (· ≥ 254) then s.trapHere gid g 0x09 0
    else
      let q := (g.depthRead o).setCnt fun _ c => if c > 0 then c + 2 else 0
      s.finish gid { q with loops := g.loops.set k.toNat (g.freshLoop (onward g.pc o.q.toInt) (g.bopWord gid o.b).toNat S size base pipe) } o.hdr none := by
  have known : ¬(g.anyZero && (g.useFault (bopUse o.b 1) []).isSome) = true := by
    rw [Bool.and_eq_true, not_and, anyZero_iff]
    intro hz
    rw [named hz]
    simp
  have loops : (g.depthRead o).loops = g.loops := by rw [(prepared_depthRead g o).move]
  unfold State.hloopStart
  rw [if_neg known, target_eq_onward, ← loops]
  unfold Group.freshLoop
  rw [← pcWord_eq, ← pcWord_eq, ← pcHigh_eq]
  rfl

/-- A loop of no trips, or one that no lane runs, is skipped. -/
theorem hloopStart_skips (good : ¬g.hloopFault k.toNat o.q.toInt (onward g.pc o.q.toInt) (g.bopWord gid o.b).toNat S = true)
    (skipped : (g.bopWord gid o.b).toNat = 0 ∨ ¬g.SomeLane g.cntOf (· = 0)) :
    s.Passes gid g (bopUse o.b 1) g.cntOf g.loops (some (onward g.pc o.q.toInt + 12)) (.next (s.hloopStart gid g o k.toNat S pipe base size)) := by
  have skip : ((g.bopWord gid o.b).toNat = 0 || !g.anyZero) = true := by
    rw [Bool.or_eq_true, decide_eq_true_eq, Bool.not_eq_true', ← Bool.not_eq_true, anyZero_iff]
    exact skipped
  rw [hloopStart_eq o k S size base pipe named, if_neg good, if_pos skip]
  exact passes_plain s gid (prepared_depthRead g o) o.hdr _

section
variable (good : ¬g.hloopFault k.toNat o.q.toInt (onward g.pc o.q.toInt) (g.bopWord gid o.b).toNat S = true)
  (trips : (g.bopWord gid o.b).toNat ≠ 0) (runs : g.SomeLane g.cntOf (· = 0))
include good trips runs

theorem hloopStart_nestingTraps (full : g.SomeLane g.cntOf (254 ≤ ·)) :
    s.hloopStart gid g o k.toNat S pipe base size = s.trapHere gid g 0x09 0 := by
  rw [hloopStart_eq o k S size base pipe named, if_neg good, if_neg (by simp [trips, (anyZero_iff g).mpr runs]),
    if_pos ((anyPresent_iff g _).mpr (by simpa using full))]

theorem hloopStart_enters (room : ¬g.SomeLane g.cntOf (254 ≤ ·)) :
    s.Passes gid g (bopUse o.b 1) (fun l => if g.exm.getLsbD l = true ∧ 0 < g.cntOf l then g.cntOf l + 2 else g.cntOf l)
      (g.loops.set k.toNat (g.freshLoop (onward g.pc o.q.toInt) (g.bopWord gid o.b).toNat S size base pipe)) none
      (.next (s.hloopStart gid g o k.toNat S pipe base size)) := by
  rw [hloopStart_eq o k S size base pipe named, if_neg good, if_neg (by simp [trips, (anyZero_iff g).mpr runs]),
    if_neg fun h => room (by simpa using (anyPresent_iff g _).mp h)]
  refine passes_finish s gid (prepared_depthRead g o) _ _ o.hdr none _ fun l hl => ?_
  have same : ((g.depthRead o).setCnt fun _ c => if c > 0 then c + 2 else 0).cnt = (g.setCnt fun _ c => if c > 0 then c + 2 else 0).cnt := by
    rw [(prepared_depthRead g o).move]
    rfl
  rw [same]
  exact cntOf_deeper g room l hl

end

end

/-- HLOOP and HLOOPP are both the start of a loop, with the stages and the rotating region that their fields name (R97). -/
theorem exec_hloopStart (s : State) (o : Ctl) (k : BitVec 2) (i : Instr) (S size : Nat) (base : BitVec 10)
    (pipe : Bool)
    (form : i = .hloop k o ∧ S = 1 ∧ size = 0 ∧ base = 0 ∧ pipe = false ∨
      i = .hloopp k o ∧ S = o.d.reg.toNat / 64 % 8 + 1 ∧ size = o.d.reg.toNat % 64 + 1 ∧ base = o.a.reg ∧ pipe = true) :
    exec i s = s.structured o fun gid g => s.hloopStart gid g o k.toNat S pipe base size := by
  rcases form with ⟨rfl, rfl, rfl, rfl, rfl⟩ | ⟨rfl, rfl, rfl, rfl, rfl⟩
  · rfl
  · have stages : (o.d.reg.extractLsb' 6 3).toNat = o.d.reg.toNat / 64 % 8 := by simp [Nat.shiftRight_eq_div_pow]
    have region : (o.d.reg.extractLsb' 0 6).toNat = o.d.reg.toNat % 64 := by simp
    rw [← stages, ← region]
    rfl

/-! HLEXIT (R100). -/

section
variable {s : State} {gid : Nat} {g : Group} (hi : s.Issues gid g) (o : Ctl) (k : BitVec 2)
include hi

theorem exec_hlexit : exec (.hlexit k o) s = .next (if g.runMask o.hdr = 0 then s.finish gid g o.hdr none
    else if !(g.loop k.toNat).live then s.trapHere gid g 0x0B k.toNat
    else s.finish gid { g with loops := g.loops.set k.toNat { g.loop k.toNat with
      count := BitVec.ofNat 32 (min (g.loop k.toNat).count.toNat ((g.loop k.toNat).sm1.toNat + 1)) } } o.hdr none) := by
  have hm : (g.loop k.toNat).sm1.toNat < 2 ^ 3 := (g.loop k.toNat).sm1.isLt
  have fits : (wordOf ((g.loop k.toNat).sm1.toNat + 1)).toNat = (g.loop k.toNat).sm1.toNat + 1 := by
    rw [wordOf, BitVec.toNat_ofNat]
    omega
  have bound : (if (g.loop k.toNat).count ≤ wordOf ((g.loop k.toNat).sm1.toNat + 1) then (g.loop k.toNat).count
      else wordOf ((g.loop k.toNat).sm1.toNat + 1)) = BitVec.ofNat 32 (min (g.loop k.toNat).count.toNat ((g.loop k.toNat).sm1.toNat + 1)) := by
    simp only [BitVec.le_def, fits, Nat.min_def]
    split
    · rw [BitVec.ofNat_toNat, BitVec.setWidth_eq]
    · rfl
  rw [← bound]
  exact (rfl : _ = execHlexit k o s).trans (withGroup_issues hi _)

theorem hlexit_idle (idle : g.runMask o.hdr = 0) : s.Passes gid g [] g.cntOf g.loops none (exec (.hlexit k o) s) := by
  rw [exec_hlexit hi, if_pos idle]
  exact passes_plain s gid (prepared_refl g []) o.hdr none

variable (runs : g.runMask o.hdr ≠ 0)
include runs

theorem hlexit_traps (dead : (g.loop k.toNat).live = false) : exec (.hlexit k o) s = .next (s.trapHere gid g 0x0B k.toNat) := by
  rw [exec_hlexit hi, if_neg runs, if_pos (by rw [dead]; rfl)]

theorem hlexit_passes (live : (g.loop k.toNat).live = true) :
    s.Passes gid g [] g.cntOf
      (g.loops.set k.toNat { g.loop k.toNat with count := BitVec.ofNat 32 (min (g.loop k.toNat).count.toNat ((g.loop k.toNat).sm1.toNat + 1)) })
      none (exec (.hlexit k o) s) := by
  rw [exec_hlexit hi, if_neg runs, if_neg (by rw [live]; decide)]
  exact passes_finish s gid (prepared_refl g []) g.cnt _ o.hdr none _ fun _ _ => rfl

end

/-- Settles O20: both starts of a loop are one choice, taken fault by fault; HLEXIT lowers COUNT alone. -/
theorem hardwareLoops : Obligations.HardwareLoops := by
  unfold Obligations.HardwareLoops
  intro s gid g o k hi _
  refine ⟨fun i S size base pipe form => ?_, hlexit_idle hi o k, fun runs => ⟨hlexit_traps hi o k runs, hlexit_passes hi o k runs⟩⟩
  rw [exec_hloopStart s o k i S size base pipe form]
  refine ⟨structured_never hi o _, ?_⟩
  intro hn us named n e live bad
  have fault := hloopFault_iff g k o.q.toInt e n S
  rw [structured_runs hi o _ hn]
  refine ⟨fun hb => ?_, fun hb => hloopStart_skips o k S size base pipe named (mt fault.mp hb), fun hb trips runs => ⟨fun full => ?_, ?_⟩⟩
  · rw [hloopStart_eq o k S size base pipe named, if_pos (fault.mpr hb)]
  · rw [hloopStart_nestingTraps o k S size base pipe named (mt fault.mp hb) trips runs full]
  · exact hloopStart_enters o k S size base pipe named (mt fault.mp hb) trips runs

end Sys2Proof.Machine
end

section
/-! SUPPORT. Where the back edge leads (R98): the innermost loop that ends at an instruction takes it or ends, and then the next one. -/

namespace Sys2Proof.Machine

/-! What the back edge reads: the pc, the mask, the counters and the loops. -/

/-- Two groups that the back edge does not tell apart. -/
structure Group.SameControl (g q : Group) : Prop where
  pc : q.pc = g.pc
  exm : q.exm = g.exm
  cnt : q.cnt = g.cnt
  loops : q.loops = g.loops

theorem Group.SameControl.trans {a b c : Group} (h : a.SameControl b) (k : b.SameControl c) : a.SameControl c :=
  ⟨k.pc.trans h.pc, k.exm.trans h.exm, k.cnt.trans h.cnt, k.loops.trans h.loops⟩

theorem Group.BankMove.sameControl {g q : Group} (h : g.BankMove q) : g.SameControl q := by
  obtain ⟨_, _, _, _, rfl⟩ := h
  exact ⟨rfl, rfl, rfl, rfl⟩

theorem Group.Prepared.sameControl {g q : Group} {us : List Use} (h : g.Prepared q us) : g.SameControl q := by
  rw [h.move]
  exact ⟨rfl, rfl, rfl, rfl⟩

section
variable {g q : Group} (h : g.SameControl q)
include h

theorem Group.SameControl.loop (k : Nat) : q.loop k = g.loop k := by simp only [Group.loop, h.loops]

theorem Group.SameControl.cntOf (l : Nat) : q.cntOf l = g.cntOf l := by simp only [Group.cntOf, h.cnt]

theorem Group.SameControl.innerLoop : q.innerLoop = g.innerLoop := by simp only [Group.innerLoop, Group.innermost, h.loop]

theorem Group.SameControl.anyZero : q.anyZero = g.anyZero := by simp only [Group.anyZero, h.exm, h.cntOf]

theorem Group.SameControl.setCnt (f : Nat → Nat → Nat) : (g.setCnt f).SameControl (q.setCnt f) :=
  ⟨h.pc, h.exm, by simp only [Group.setCnt, h.exm, h.cntOf], h.loops⟩

theorem Group.SameControl.putLoop (k : Nat) (l : LoopReg) : (g.putLoop k l).SameControl (q.putLoop k l) :=
  ⟨h.pc, h.exm, h.cnt, by simp only [Group.putLoop, h.loops]⟩

end

/-! One loop's end. -/

/-- Loop k ends at the group's instruction. -/
def Group.EndsHere (g : Group) (k : Nat) : Prop := (g.loop k).fin = pcWord g.pc ∧ (g.loop k).hi = g.pc.extractLsb' 34 14

/-- The lanes that wait for the end of the pass run again. -/
def Group.enterPass (g : Group) : Group := g.setCnt fun _ c => if c == 1 then 0 else c

/-- The loop register as a taken back edge leaves it. -/
def LoopReg.nextPass (L : LoopReg) : LoopReg :=
  let next := { L with count := L.count - 1, index := L.index + 1 }
  if L.pipe then
    { next with
      rrb := BitVec.ofNat 6 ((L.rrb.toNat + L.size.toNat - 1) % L.size.toNat),
      stmask := BitVec.ofNat 8 ((2 * L.stmask.toNat + bool1 (decide ((L.count - 1).toNat > L.sm1.toNat + 1 - 1))) % 2 ^ (L.sm1.toNat + 1)) }
  else next

/-- The group with loop k ended: the lanes that left it run again. -/
def Group.leaveLoop (g : Group) (k : Nat) : Group :=
  (g.enterPass.setCnt fun _ c => if c == 2 then 0 else if c > 2 then c - 2 else c).putLoop k { g.loop k with live := false, level := 0 }

theorem backEdge_succ (g : Group) (fuel k : Nat) (inner : g.innerLoop = some k) (ends : g.EndsHere k) :
    g.backEdge (fuel + 1) =
      if (g.loop k).count.toNat > 1 && g.enterPass.anyZero then
        (g.enterPass.putLoop k (g.loop k).nextPass, some ((g.loop k).nextPass.hi ++ (g.loop k).nextPass.start ++ (0 : BitVec 2)))
      else (g.leaveLoop k).backEdge fuel := by
  rw [Group.backEdge, inner]
  dsimp only
  unfold Group.EndsHere at ends
  rw [if_pos ends]
  rfl

theorem backEdge_past (g : Group) (fuel k : Nat) (inner : g.innerLoop = some k) (other : ¬g.EndsHere k) : g.backEdge (fuel + 1) = (g, none) := by
  rw [Group.backEdge, inner]
  unfold Group.EndsHere at other
  dsimp only
  rw [if_neg other]

/-- The back edge leads groups that it does not tell apart to the same place. -/
theorem Group.SameControl.backEdge {g q : Group} (h : g.SameControl q) (fuel : Nat) :
    (q.backEdge fuel).2 = (g.backEdge fuel).2 ∧ (g.backEdge fuel).1.SameControl (q.backEdge fuel).1 := by
  induction fuel generalizing g q with
  | zero => exact ⟨rfl, h⟩
  | succ n ih =>
    cases inner : g.innerLoop with
    | none =>
      have inner' := h.innerLoop.trans inner
      rw [Group.backEdge, Group.backEdge, inner, inner']
      exact ⟨rfl, h⟩
    | some k =>
      have inner' := h.innerLoop.trans inner
      have same : q.EndsHere k ↔ g.EndsHere k := by rw [Group.EndsHere, Group.EndsHere, h.loop, h.pc]
      by_cases ends : g.EndsHere k
      · have entered : g.enterPass.SameControl q.enterPass := h.setCnt _
        rw [backEdge_succ g n k inner ends, backEdge_succ q n k inner' (same.mpr ends), h.loop, entered.anyZero]
        split
        · exact ⟨rfl, entered.putLoop _ _⟩
        · refine ih ?_
          rw [Group.leaveLoop, Group.leaveLoop, h.loop]
          exact (entered.setCnt _).putLoop _ _
      · rw [backEdge_past g n k inner ends, backEdge_past q n k inner' (mt same.mp ends)]
        exact ⟨rfl, h⟩

theorem Group.SameControl.wentOn {g q g' : Group} (h : g.SameControl q) (w : q.WentOn g' none) : g.WentOn g' none := by
  obtain ⟨haddr, hsame⟩ := h.backEdge 4
  refine ⟨w.pc.trans ?_, w.cnt.trans hsame.cnt, w.loops.trans hsame.loops⟩
  simp only [Group.goesOn, haddr, h.pc]

/-! The loop registers. -/

/-- A live loop is one that the group has. -/
theorem live_lt (g : Group) (k : Nat) (h : (g.loop k).live = true) : k < g.loops.length := by
  by_contra hk
  rw [Group.loop, List.getD_eq_default _ _ (Nat.le_of_not_lt hk)] at h
  exact absurd h (by decide)

theorem putLoop_loop_same (g : Group) (k : Nat) (l : LoopReg) (hk : k < g.loops.length) : (g.putLoop k l).loop k = l := by
  simp [Group.loop, Group.putLoop, setAt, List.getD, hk]

theorem putLoop_loop_other (g : Group) (j k : Nat) (l : LoopReg) (h : j ≠ k) : (g.putLoop k l).loop j = g.loop j := by
  simp [Group.loop, Group.putLoop, setAt, List.getD, List.getElem?_set_ne h.symm]

theorem leaveLoop_loop_same (g : Group) (k : Nat) (live : (g.loop k).live = true) :
    (g.leaveLoop k).loop k = { g.loop k with live := false, level := 0 } :=
  putLoop_loop_same _ k _ (live_lt g k live)

theorem leaveLoop_loop_other (g : Group) (j k : Nat) (h : j ≠ k) : (g.leaveLoop k).loop j = g.loop j := putLoop_loop_other _ j k _ h

theorem nextPass_count (L : LoopReg) (h : 1 < L.count.toNat) : L.nextPass.count.toNat = L.count.toNat - 1 := by
  have hc : L.nextPass.count = L.count - 1 := by unfold LoopReg.nextPass; split <;> rfl
  have hlt : L.count.toNat < 2 ^ 32 := L.count.isLt
  rw [hc]
  simp only [BitVec.toNat_sub, BitVec.ofNat_eq_ofNat, BitVec.toNat_ofNat]
  omega

theorem nextPass_index (L : LoopReg) : L.nextPass.index = L.index + 1 := by unfold LoopReg.nextPass; split <;> rfl

/-- A taken back edge writes COUNT, INDEX, the rotation base and the stage mask. -/
theorem nextPass_frame (L : LoopReg) :
    L.nextPass = { L with count := L.nextPass.count, index := L.nextPass.index, rrb := L.nextPass.rrb, stmask := L.nextPass.stmask } := by
  unfold LoopReg.nextPass; split <;> rfl

theorem nextPass_plain (L : LoopReg) (h : L.pipe = false) : L.nextPass.rrb = L.rrb ∧ L.nextPass.stmask = L.stmask := by
  simp [LoopReg.nextPass, h]

/-- The rotation base goes down by one around the region, and the next stage's bit is set while passes remain (R97, R98). -/
theorem nextPass_piped (L : LoopReg) (h : L.pipe = true) (some : 0 < L.size.toNat) (fits : L.size.toNat ≤ 64) :
    (L.nextPass.rrb.toNat : Int) = ((L.rrb.toNat : Int) - 1) % L.size.toNat ∧
      L.nextPass.stmask.toNat = (2 * L.stmask.toNat + if L.sm1.toNat < L.nextPass.count.toNat then 1 else 0) % 2 ^ (L.sm1.toNat + 1) := by
  have hm : L.sm1.toNat < 2 ^ 3 := L.sm1.isLt
  have rotated : (L.rrb.toNat + L.size.toNat - 1) % L.size.toNat < 64 := Nat.lt_of_lt_of_le (Nat.mod_lt _ some) fits
  have staged : 2 ^ (L.sm1.toNat + 1) ≤ 2 ^ 8 := Nat.pow_le_pow_right (by decide) (by omega)
  unfold LoopReg.nextPass
  simp only [h, if_true, BitVec.toNat_ofNat, Nat.add_sub_cancel]
  constructor
  · rw [Nat.mod_eq_of_lt rotated, Int.natCast_mod, ← Int.add_emod_right (_ - 1)]
    congr 1
    omega
  · rw [Nat.mod_eq_of_lt (Nat.lt_of_lt_of_le (Nat.mod_lt _ (by positivity)) staged)]
    simp [bool1]

/-! Where the group is then. -/

/-- g' is where x, an outcome of the back edge, leads, and where its address is none at the next word. -/
structure Group.At (g' : Group) (x : Group × Option Addr) (next : Addr) : Prop where
  pc : g'.pc = x.2.getD next
  cnt : g'.cnt = x.1.cnt
  loops : g'.loops = x.1.loops

theorem Group.WentOn.reached {g g' : Group} (w : g.WentOn g' none) : g'.At (g.backEdge 4) (g.pc + 12) := ⟨w.pc, w.cnt, w.loops⟩

/-- Loop j of g', J before, has been entered again with counters c. -/
def LoopReg.Taken (J : LoopReg) (j : Nat) (c : Nat → Nat) (g' : Group) : Prop :=
  let M := g'.loop j
  g'.pc.toNat = J.hi.toNat * 2 ^ 34 + J.start.toNat * 4 ∧ (∀ l, l < 32 → g'.cntOf l = c l) ∧ M.count.toNat = J.count.toNat - 1 ∧
    M.index = J.index + 1 ∧ M = { J with count := M.count, index := M.index, rrb := M.rrb, stmask := M.stmask } ∧
    (J.pipe = false → M.rrb = J.rrb ∧ M.stmask = J.stmask) ∧
    (J.pipe = true → 0 < J.size.toNat → J.size.toNat ≤ 64 →
      (M.rrb.toNat : Int) = ((J.rrb.toNat : Int) - 1) % J.size.toNat ∧
      M.stmask.toNat = (2 * J.stmask.toNat + if J.sm1.toNat < M.count.toNat then 1 else 0) % 2 ^ (J.sm1.toNat + 1))

/-- A lane's counter at the end of a pass, from c before, and once the loop has ended. -/
def enterCount (g : Group) (c : Nat → Nat) (l : Nat) : Nat := if g.exm.getLsbD l = true ∧ c l = 1 then 0 else c l
def leaveCount (g : Group) (c : Nat → Nat) (l : Nat) : Nat :=
  if g.exm.getLsbD l = true then (if c l = 2 then 0 else if 2 < c l then c l - 2 else c l) else c l

theorem enterPass_cntOf (g : Group) (c : Nat → Nat) (hc : ∀ l, l < 32 → g.cntOf l = c l) (l : Nat) (hl : l < 32) :
    g.enterPass.cntOf l = enterCount g c l := by
  rw [Group.enterPass, cntOf_enter g l hl, hc l hl, enterCount]

theorem leaveLoop_cntOf (g : Group) (k : Nat) (c : Nat → Nat) (hc : ∀ l, l < 32 → g.enterPass.cntOf l = c l) (l : Nat) (hl : l < 32) :
    (g.leaveLoop k).cntOf l = leaveCount g c l := by
  rw [Group.leaveLoop, putLoop_cntOf, cntOf_leave _ l hl, hc l hl]
  rfl

section
variable {q g' : Group} {fuel j : Nat} {next : Addr} {c : Nat → Nat} (inner : q.innerLoop = some j) (ends : q.EndsHere j)
  (hc : ∀ l, l < 32 → q.enterPass.cntOf l = c l)
  (reached : g'.At (q.backEdge (fuel + 1)) next)
include inner ends hc reached

/-- With a pass left and a lane to run it, the innermost loop takes its back edge. -/
theorem backEdge_takes (again : 1 < (q.loop j).count.toNat ∧ q.SomeLane c (· = 0)) :
    (q.loop j).Taken j c g' ∧ ∀ n, n ≠ j → g'.loop n = q.loop n := by
  have runs := (anyZero_of_counts q q.enterPass c rfl hc).mpr again.2
  rw [backEdge_succ q fuel j inner ends, if_pos (by simp [again.1, runs])] at reached
  obtain ⟨hpc, hcnt, hloops⟩ := reached
  have here : g'.loop j = (q.loop j).nextPass := by
    rw [Group.loop, hloops]
    exact putLoop_loop_same q.enterPass j _ (live_lt q j (innermost_live q _ j inner).1)
  refine ⟨?_, fun n hn => ?_⟩
  · unfold LoopReg.Taken
    rw [here]
    refine ⟨?_, fun l hl => ?_, nextPass_count _ again.1, nextPass_index _, nextPass_frame _, nextPass_plain _, nextPass_piped _⟩
    · rw [hpc, ← congrArg LoopReg.hi (nextPass_frame (q.loop j)), ← congrArg LoopReg.start (nextPass_frame (q.loop j))]
      exact loopAddress_toNat _ _
    · rw [← hc l hl, Group.cntOf, hcnt]
      rfl
  · rw [Group.loop, hloops]
    exact putLoop_loop_other q.enterPass n j _ hn

/-- Else the innermost loop ends, and the loops around it are looked at. -/
theorem backEdge_leaves (last : ¬(1 < (q.loop j).count.toNat ∧ q.SomeLane c (· = 0))) : g'.At ((q.leaveLoop j).backEdge fuel) next := by
  have runs := anyZero_of_counts q q.enterPass c rfl hc
  rwa [backEdge_succ q fuel j inner ends, if_neg (by simpa [runs] using last)] at reached

end

/-- Where no loop is left that ends here, the group goes on at the next word. -/
theorem backEdge_falls {q g' : Group} {fuel : Nat} {next : Addr} (reached : g'.At (q.backEdge fuel) next) (plain : q.NoLoopEnd) :
    g'.pc = next ∧ (∀ l, g'.cntOf l = q.cntOf l) ∧ ∀ k, g'.loop k = q.loop k := by
  rw [backEdge_none q fuel plain] at reached
  obtain ⟨hpc, hcnt, hloops⟩ := reached
  exact ⟨hpc, fun l => by simp only [Group.cntOf, hcnt], fun k => by simp only [Group.loop, hloops]⟩

end Sys2Proof.Machine
end

section
/-! SUPPORT. A lane instruction and a scratchpad load come to the back edge with the pc, the mask, the counters and the loops of their issue (R98, R156). -/

namespace Sys2Proof.Machine

/-! Lane instructions. -/

/-- A lane instruction that can run completes from a group that has only its results in flight and its sources read. -/
theorem alu_finishes {s : State} {gid : Nat} {g : Group} (hi : s.Issues gid g) (o : Alu) (sh : Shape) (t : Types) (lat : Nat) (f : AluIn → Nat → LaneOut)
    (ready : g.LaneReady o sh) :
    ∃ q, s.alu o sh t lat f = .next (s.finish gid q o.hdr none) ∧ g.Prepared q (aluUses o sh.w sh.readsA sh.readsB sh.single) := by
  obtain ⟨runs, named⟩ := ready
  rw [State.alu, withGroup_issues hi]
  dsimp only
  rw [if_neg runs, State.aluRun]
  dsimp only
  rw [named]
  exact ⟨_, rfl, prepared_writeAlu (prepared_killUses g _ _ _) _ _ _ _ _⟩

/-! States that hold a group with the control state of g. -/

/-- Group gid of the state is one that the back edge does not tell from g. -/
def State.HasControl (s : State) (gid : Nat) (g : Group) : Prop := ∃ q, s.group gid = some q ∧ g.SameControl q

theorem hasControl_putGroup (s : State) (gid : Nat) {g q : Group} (h : g.SameControl q) : (s.putGroup gid q).HasControl gid g :=
  ⟨q, State.group_putGroup s gid q, h⟩

/-- What does not touch the groups. -/
theorem hasControl_congr {s t : State} {gid : Nat} {g : Group} (h : s.HasControl gid g) (same : t.groups = s.groups) : t.HasControl gid g := by
  obtain ⟨q, hq, hsame⟩ := h
  exact ⟨q, by rw [State.group, same]; exact hq, hsame⟩

theorem hasControl_modGroup {s : State} {gid : Nat} {g : Group} (h : s.HasControl gid g) (f : Group → Group) (hf : ∀ q : Group, q.SameControl (f q)) :
    (s.modGroup gid f).HasControl gid g := by
  obtain ⟨q, hq, hsame⟩ := h
  rw [State.modGroup, hq]
  exact hasControl_putGroup s gid (hsame.trans (hf q))

theorem countPoison_groups (s : State) (cid : Nat) (img : LineImg) : (s.countPoison cid img).groups = s.groups := by
  unfold State.countPoison
  split <;> rfl

theorem spadRead_groups (s : State) (tid : Nat) : (s.spadRead tid).groups = s.groups := by
  unfold State.spadRead
  split <;> rfl

theorem countPoisons_groups {α : Type} (s : State) (cid : Nat) (img : α → LineImg) (xs : List α) :
    (xs.foldl (fun s x => s.countPoison cid (img x)) s).groups = s.groups := by
  induction xs generalizing s with
  | nil => rfl
  | cons x xs ih => exact (ih _).trans (countPoison_groups s cid (img x))

theorem hasControl_addVRes {s : State} {gid : Nat} {g : Group} (h : s.HasControl gid g) (v : VRes) (poll : Bool) : (s.addVRes gid v poll).HasControl gid g := by
  refine hasControl_congr (hasControl_modGroup h (fun g =>
    { g with vres := g.vres ++ [v], sched := { g.sched with poll := if poll then g.sched.poll ++ [v.id] else g.sched.poll } }) fun _ => ?_) rfl
  exact ⟨rfl, rfl, rfl, rfl⟩

theorem hasControl_deliver {s : State} {gid : Nat} {g : Group} (h : s.HasControl gid g) (op : Nat) (vals : List (Nat × List Word × Flags)) (wts : Nat)
    (far : Bool) (due : Nat) : (s.deliver gid op vals wts far due).HasControl gid g :=
  hasControl_modGroup h _ fun _ => ⟨rfl, rfl, rfl, rfl⟩

theorem hasControl_scratchRes {s : State} {gid : Nat} {g : Group} (h : s.HasControl gid g) (kind : VKind) (dsts : List RegName)
    (lanes : List (Nat × Nat × List Word)) (vals : List (Nat × List Word × Flags)) (due : Nat) (q : MemQ) :
    (s.scratchRes gid kind dsts lanes vals due q).HasControl gid g := by
  obtain ⟨q', hq, hsame⟩ := h
  unfold State.scratchRes
  rw [hq]
  dsimp only
  refine hasControl_deliver (hasControl_addVRes ?_ _ _) _ _ _ _ _
  exact hasControl_congr ⟨q', hq, hsame⟩ rfl

/-! The window at a memory instruction. -/

theorem bankMove_foldl {α : Type} (f : Group → α → Group) (hf : ∀ (g : Group) x, g.BankMove (f g x)) (xs : List α) (g : Group) :
    g.BankMove (xs.foldl f g) := by
  induction xs generalizing g with
  | nil => exact bankMove_results g g.results
  | cons x xs ih => exact (hf g x).trans (ih _)

/-- The issue of a memory instruction moves the banks and the state of the issue alone. -/
theorem memStart_frame (g : Group) (h : Hdr) (rel : Bool) (ks : Kills) :
    ∃ v sr rs b sc, g.memStart h rel ks = { g with vregs := v, sregs := sr, results := rs, bad := b, sched := sc } := by
  unfold Group.memStart
  split
  · obtain ⟨v, sr, rs, b, hmoved⟩ := bankMove_foldl (fun g (r : Result) => g.writeBank r.dst (r.liveMask &&& ~~~(Kills.of ks r)) r.vals)
      (fun g r => bankMove_writeBank g _ _ _) (g.results.filter (·.landed))
      { g with
        results := g.results.filterMap fun r =>
          if !r.landed then some r else if Kills.of ks r = 0 then none else some { r with mask := r.mask &&& Kills.of ks r },
        sched := { g.sched with drained := true } }
    exact ⟨v, sr, rs, b, _, hmoved⟩
  · exact ⟨_, _, _, _, _, rfl⟩

theorem sameControl_memStart (g : Group) (h : Hdr) (rel : Bool) (ks : Kills) : g.SameControl (g.memStart h rel ks) := by
  obtain ⟨_, _, _, _, _, heq⟩ := memStart_frame g h rel ks
  rw [heq]
  exact ⟨rfl, rfl, rfl, rfl⟩

theorem sameControl_spend (g : Group) (ks : Kills) : g.SameControl (g.spend ks) := by
  unfold Group.spend
  dsimp only
  split <;> exact ⟨rfl, rfl, rfl, rfl⟩

/-! Scratchpad instructions. -/

/-- A scratchpad access whose act leaves the control state ends at the back edge of its issue. -/
theorem scratchGo_wentOn (s : State) (gid : Nat) {g q : Group} {m : Team} (same : g.SameControl q) (team : s.team q.team = some m) (h : Hdr) (u : Nat)
    (a : Access) (act : State → Team → List (Nat × Nat × List Word) → Nat → State)
    (keeps : ∀ (s : State) t ls due, s.HasControl gid g → (act s t ls due).HasControl gid g) :
    ∃ g', (s.scratchGo gid q h u a act).group gid = some g' ∧ g.WentOn g' none := by
  have spent : g.SameControl { q.spend a.kills with park := .running, acc := none } :=
    same.trans ((sameControl_spend q a.kills).trans ⟨rfl, rfl, rfl, rfl⟩)
  unfold State.scratchGo
  rw [team]
  dsimp only
  obtain ⟨x, hx, control⟩ := keeps _ _ _ _ (hasControl_congr (hasControl_putGroup s gid spent) (spadRead_groups _ q.team))
  rw [hx]
  dsimp only
  obtain ⟨g', hfinish, went⟩ := finish_wentOn _ gid x h none
  rw [hfinish]
  exact ⟨g', State.group_putGroup _ _ _, control.wentOn went⟩

theorem nameFault_none_iff (g : Group) (us : List (SFile × Nat × Nat)) :
    g.nameFault us = none ↔ (∀ u ∈ us, g.pairFault u.1 u.2.1 u.2.2 = false) ∧ ∀ u ∈ us, g.inWindow u.1 u.2.1 u.2.2 = true := by
  have all : g.nameFault us = none ↔ (us.any fun u => g.pairFault u.1 u.2.1 u.2.2) = false ∧ (us.all fun u => g.inWindow u.1 u.2.1 u.2.2) = true := by
    unfold Group.nameFault
    split_ifs with rotating window <;> simp_all
  rw [all, List.any_eq_false, List.all_eq_true]
  simp only [Bool.not_eq_true]

/-- The registers of an instruction can be named when they all can, whichever part of them is tested. -/
theorem useFault_parts (g : Group) (us : List Use) (d : List (SFile × Nat × Nat)) (h : g.useFault us d = none) :
    g.useFault us [] = none ∧ g.useFault [] d = none := by
  simp only [Group.useFault, nameFault_none_iff, List.mem_append, or_imp, forall_and] at h ⊢
  simp_all

theorem maskOf_eq_zero (f : Nat → Bool) (h : ∀ l, l < 32 → f l = false) : maskOf f = 0 := by
  rw [← maskOf_false, maskOf, maskOf]
  congr 1
  refine List.foldl_ext _ _ _ fun a l hl => ?_
  rw [h l (List.mem_range.mp hl)]

/-- A load from the scratchpad whose access is ready goes to the scratchpad. -/
theorem scratch_goes (s : State) (gid : Nat) (g : Group) (m : Team) (o : Mem) (u : Nat) (addr : List Use) (d : List (SFile × Nat × Nat))
    (eaOf : Group → Nat → Nat) (valsOf : Group → Nat → List Word) (act : State → Team → List (Nat × Nat × List Word) → Nat → State)
    (ready : s.ScratchReady gid g m o addr d u (eaOf g)) :
    ∃ q a, s.scratch gid g o.hdr u false addr [] d eaOf valsOf act = s.scratchGo gid q o.hdr u a act ∧ g.SameControl q ∧ q.team = g.team := by
  obtain ⟨team, -, -, noAcc, -, runs, named, fit⟩ := ready
  obtain ⟨namedA, namedD⟩ := useFault_parts g addr d named
  have aligned : (maskOf fun l => (g.memRun o.hdr).getLsbD l &&
      ((List.range 32).map fun l => if (g.memRun o.hdr).getLsbD l then eaOf g l else 0).getD l 0 % u != 0) = 0 :=
    maskOf_eq_zero _ fun l hl => by
      rw [getD_map_range _ _ _ hl]
      cases run : (g.memRun o.hdr).getLsbD l with
      | false => rfl
      | true => simp [(fit l hl run).1]
  have inside : (maskOf fun l => (g.memRun o.hdr).getLsbD l &&
      decide (((List.range 32).map fun l => if (g.memRun o.hdr).getLsbD l then eaOf g l else 0).getD l 0 + u > m.spBytes)) = 0 :=
    maskOf_eq_zero _ fun l hl => by
      rw [getD_map_range _ _ _ hl]
      cases run : (g.memRun o.hdr).getLsbD l with
      | false => rfl
      | true => simp [(fit l hl run).2]
  unfold State.scratch
  rw [noAcc]
  dsimp only
  rw [if_neg runs, namedA]
  dsimp only
  rw [if_neg (by rw [aligned]; decide), team]
  dsimp only [Option.map_some, Option.getD_some]
  rw [if_neg (by rw [inside]; decide), namedD]
  dsimp only
  rw [if_neg (by simp [State.scratchHeld])]
  obtain ⟨_, _, _, _, _, started⟩ := memStart_frame g o.hdr false (g.killsOf (g.memRun o.hdr) (g.memRun o.hdr) (addr ++ []))
  exact ⟨_, _, rfl, sameControl_memStart g _ _ _, by rw [started]⟩

/-- LDS of a ready access comes to the back edge of its issue. -/
theorem lds_wentOn {s : State} {gid : Nat} {g : Group} (hi : s.Issues gid g) (v : LdSz) (o : Mem) (m : Team)
    (ready : s.ScratchReady gid g m o (srcUse o.a 0 1 Perm.id :: bopUse o.b 1) (dstUse o.d v.regs) (ldBytes v)
      (fun l => g.ea32 gid o.a o.q (ldBytes v) (g.laneOffset gid o.b l) l)) :
    ∃ t g', exec (.lds v o) s = .next t ∧ t.group gid = some g' ∧ g.WentOn g' none := by
  rw [show exec (.lds v o) s = _ from (rfl : _ = execLds v o s).trans (withGroup_issues hi _)]
  have team := ready.1
  obtain ⟨q, a, goes, same, sameTeam⟩ := scratch_goes s gid g m o (ldBytes v) _ _ (fun g l => g.ea32 gid o.a o.q (ldBytes v) (g.laneOffset gid o.b l) l)
    (fun _ _ => []) _ ready
  rw [goes]
  refine ⟨_, (scratchGo_wentOn s gid same (by rw [sameTeam]; exact team) o.hdr (ldBytes v) a _ ?_).imp fun _ h => ⟨rfl, h⟩⟩
  exact fun s t ls due h => hasControl_scratchRes (hasControl_congr h (countPoisons_groups s (gidCid gid) _ ls)) _ _ _ _ _ _

end Sys2Proof.Machine
end

section
/-! O21: the back edge of a hardware loop (R98). -/

namespace Sys2Proof.Machine

/-- NOP, a lane instruction and a scratchpad load all go on from the pc, the counters and the loops of their issue; NOP changes nothing else. -/
theorem instr_wentOn {s : State} {gid : Nat} {g : Group} {i : Instr} (hi : s.Issues gid g)
    (form : (∃ o, i = .nop o) ∨ (∃ o, i = .iadd .u32 o ∧ g.LaneReady o {}) ∨
      ∃ v o m, i = .lds v o ∧ s.ScratchReady gid g m o (srcUse o.a 0 1 Perm.id :: bopUse o.b 1) (dstUse o.d v.regs) (ldBytes v)
        (fun l => g.ea32 gid o.a o.q (ldBytes v) (g.laneOffset gid o.b l) l)) :
    ∃ t g', exec i s = .next t ∧ t.group gid = some g' ∧ g.WentOn g' none ∧ ((∃ o, i = .nop o) → t = s.putGroup gid g' ∧ g.Moved g' []) := by
  rcases form with ⟨o, rfl⟩ | ⟨o, rfl, ready⟩ | ⟨v, o, m, rfl, ready⟩
  · obtain ⟨g', hfinish, hmoved, went, -⟩ := finish_moved s gid (prepared_refl g []) g.cnt g.loops o.hdr none
    exact ⟨_, g', exec_nop hi o, by rw [show s.finish gid g o.hdr none = _ from hfinish, State.group_putGroup], went, fun _ => ⟨hfinish, hmoved⟩⟩
  · obtain ⟨q, heq, prepared⟩ := alu_finishes hi o {} (ty4Of .u32) latAlu (addSub (· + ·) .u32 o) ready
    obtain ⟨g', hfinish, went⟩ := finish_wentOn s gid q o.hdr none
    refine ⟨_, g', heq, by rw [hfinish, State.group_putGroup], prepared.sameControl.wentOn went, fun ⟨_, h⟩ => ?_⟩
    cases h
  · obtain ⟨t, g', heq, hgroup, went⟩ := lds_wentOn hi v o m ready
    exact ⟨t, g', heq, hgroup, went, fun ⟨_, h⟩ => by cases h⟩

section
variable {g : Group} {j k : Nat} (live : (g.loop k).live = true)
include live

/-- A loop that is live once loop k has ended is another, and as it was. -/
theorem leaveLoop_live (h : ((g.leaveLoop k).loop j).live = true) : j ≠ k ∧ (g.leaveLoop k).loop j = g.loop j := by
  have hj : j ≠ k := by
    rintro rfl
    rw [leaveLoop_loop_same g j live] at h
    exact Bool.noConfusion h
  exact ⟨hj, leaveLoop_loop_other g j k hj⟩

/-- A loop that is live once loop k has ended ends where it did. -/
theorem leaveLoop_endsHere (h : ((g.leaveLoop k).loop j).live = true) : (g.leaveLoop k).EndsHere j ↔ g.EndsHere j := by
  unfold Group.EndsHere
  rw [(leaveLoop_live live h).2]
  exact Iff.rfl

/-- Once loop k has ended, no loop ends here if no other live loop does. -/
theorem leaveLoop_noLoopEnd (others : ∀ j, j ≠ k → (g.loop j).live = true → ¬g.EndsHere j) : (g.leaveLoop k).NoLoopEnd := by
  intro j hlive
  obtain ⟨hj, same⟩ := leaveLoop_live live hlive
  exact mt (leaveLoop_endsHere live hlive).mp (others j hj (same ▸ hlive))

end

/-- Settles O21: up to two loops end at the instruction, the innermost first; each takes its back edge or ends. -/
theorem backEdge : Obligations.BackEdge := by
  unfold Obligations.BackEdge
  intro s gid g i k hi _ inner form L fin high goes enter leave ended again takes falls here c
  obtain ⟨t, g', heq, hgroup, went, hnop⟩ := instr_wentOn hi form
  have goes_of : ∀ more : Group → Prop, more g' → goes more := fun more h => ⟨t, g', heq, hgroup, h, hnop⟩
  have live : (g.loop k).live = true := (innermost_live g _ k inner).1
  have ends : g.EndsHere k := ⟨fin.trans (pcWord_eq g.pc).symm, high.trans (pcHigh_eq g.pc).symm⟩
  have entered : ∀ l, l < 32 → g.enterPass.cntOf l = c l := enterPass_cntOf g g.cntOf fun _ _ => rfl
  have left : ∀ l, l < 32 → (g.leaveLoop k).cntOf l = leave c l := leaveLoop_cntOf g k c entered
  have here_of : ∀ j, (g.loop j).live = true → g.EndsHere j → here j := fun j hl he => ⟨hl, he.1.trans ends.1.symm, he.2.trans ends.2.symm⟩
  refine ⟨fun h => goes_of _ (backEdge_takes inner ends entered went.reached h), fun h others => goes_of _ ?_, fun j h innerJ hereJ => ?_⟩
  · have plain := leaveLoop_noLoopEnd live fun j hj hl he => others j hj (here_of j hl he)
    obtain ⟨hpc, hcnt, hloops⟩ := backEdge_falls (backEdge_leaves inner ends entered went.reached h) plain
    refine ⟨⟨hpc, fun l hl => (hcnt l).trans (left l hl)⟩, (hloops k).trans (leaveLoop_loop_same g k live), fun j hj => ?_⟩
    exact (hloops j).trans (leaveLoop_loop_other g j k hj)
  · let q := g.leaveLoop k
    have innerQ : q.innerLoop = some j := innerJ
    have liveQ : (q.loop j).live = true := (innermost_live q _ j innerQ).1
    obtain ⟨hj, sameJ⟩ : j ≠ k ∧ q.loop j = g.loop j := leaveLoop_live live liveQ
    have endsQ : q.EndsHere j := (leaveLoop_endsHere live liveQ).mpr ⟨hereJ.2.1.trans ends.1, hereJ.2.2.trans ends.2⟩
    have enteredQ : ∀ l, l < 32 → q.enterPass.cntOf l = enter (leave c) l := enterPass_cntOf q (leave c) left
    have reached : g'.At (q.backEdge 3) (g.pc + 12) := backEdge_leaves inner ends entered went.reached h
    refine ⟨fun h2 => goes_of _ ?_, fun h2 others => goes_of _ ?_⟩
    · obtain ⟨taken, rest⟩ := backEdge_takes innerQ endsQ enteredQ reached (sameJ ▸ h2)
      rw [sameJ] at taken
      refine ⟨taken, (rest k hj.symm).trans (leaveLoop_loop_same g k live), fun n hk hn => ?_⟩
      exact (rest n hn).trans (leaveLoop_loop_other g n k hk)
    · have plain := leaveLoop_noLoopEnd liveQ fun n hn hl he => by
        obtain ⟨hk, same⟩ := leaveLoop_live live hl
        exact others n hk hn (here_of n (same ▸ hl) ((leaveLoop_endsHere live hl).mp he))
      obtain ⟨hpc, hcnt, hloops⟩ := backEdge_falls (backEdge_leaves innerQ endsQ enteredQ reached (sameJ ▸ h2)) plain
      refine ⟨⟨hpc, fun l hl => (hcnt l).trans (leaveLoop_cntOf q j _ enteredQ l hl)⟩, ?_, ?_, fun n hk hn => ?_⟩
      · exact (hloops k).trans ((leaveLoop_loop_other q k j hj.symm).trans (leaveLoop_loop_same g k live))
      · rw [hloops j, leaveLoop_loop_same q j liveQ, sameJ]
      · exact (hloops n).trans ((leaveLoop_loop_other q n j hn).trans (leaveLoop_loop_other g n k hk))

end Sys2Proof.Machine
end

section
/-! SUPPORT. Lane instructions by their arm of exec: the result in flight is what the rule computes in each running lane (R39, R106). -/

namespace Sys2Proof.Machine

/-- Results that agree in the running lanes are the same result in flight. -/
theorem laneResult_congr {g g' : Group} {due : Nat} {d : Dst} {wide : Bool} {run : LaneMask} {f out : Nat → LaneOut} (runs : run ≠ 0)
    (same : ∀ l, l < 32 → run.getLsbD l = true → f l = out l) (h : g.LaneResult g' due d wide run f) : g.LaneResult g' due d wide run out := by
  have first : f (firstLane run) = out (firstLane run) := same _ (firstLane_mem run runs).1 (firstLane_mem run runs).2
  have flags : orFlagsOf run (fun l => (f l).fl) = orFlagsOf run fun l => (out l).fl :=
    orFlagsOf_congr run _ _ fun l hl hb => by rw [same l hl hb]
  have awaits : ∀ {num : Nat} {n : RegName} {fl : Flags} (w : LaneOut → Word), g'.Awaits num due n run (fun l => w (f l)) fl →
      g'.Awaits num due n run (fun l => w (out l)) fl := by
    rintro num n fl w ⟨r, hr, hnum, hdue, hland, hdst, hmask, hfl, hv⟩
    exact ⟨r, hr, hnum, hdue, hland, hdst, hmask, hfl, fun l hl hb => (hv l hl hb).trans (congrArg w (same l hl hb))⟩
  unfold Group.LaneResult at h ⊢
  dsimp only at h ⊢
  split
  · next scal =>
    rw [if_pos scal] at h
    rwa [← first]
  · next lanes =>
    rw [if_neg lanes] at h
    rw [← flags]
    exact ⟨awaits LaneOut.w h.1, fun hw => awaits LaneOut.hi (h.2 hw)⟩

/-- A lane instruction whose arm of exec is the frame of the lane instructions completes with what a rule says of its lanes, whichever lanes
of A it reads. -/
theorem laneDone_of_alu {s : State} {gid : Nat} {g : Group} {o : Alu} {sh : Shape} {t : Types} {lat : Nat} {f : AluIn → Nat → LaneOut}
    {reads : Option (AluIn → Nat → List Nat)} {out : Nat → LaneOut} {x : Host.Outcome State Fault Refusal} (hi : s.Issues gid g) (ready : g.LaneReady o sh)
    (arm : x = s.alu o { sh with aLanes := reads } t lat f)
    (same : ∀ l, l < 32 → f (s.aluIn gid g o t sh.w sh.single sh.signed) l = out l) : s.LaneDone gid g o sh lat out x := by
  obtain ⟨g', next, done, result⟩ := alu_done s gid g o { sh with aLanes := reads } t lat f hi ready
  exact ⟨g', arm.trans next, done, laneResult_congr ready.1 (fun l hl _ => same l hl) result⟩

end Sys2Proof.Machine
end

section
/-! O3: the integer instructions (R109). -/

namespace Sys2Proof.Machine

theorem addSub_eq (op : Int → Int → Int) (v : IntTy4) (o : Alu) (x : AluIn) (l : Nat) :
    addSub op v o x l = exactOut (ty4Wide v) (o.d.clmp == .sat) (ty4Signed v) (op (x.intA (ty4Wide v) (ty4Signed v) l) (x.intB (ty4Wide v) (ty4Signed v) l)) := by
  cases v <;> rfl

theorem madOut_eq (v : MadTy) (o : Alu) (x : AluIn) (l : Nat) :
    madOut v o x l = exactOut (madWide v) (o.d.clmp == .sat) (v == .s32 || v == .wideS)
      (x.intA false (v == .s32 || v == .wideS) l * x.intB false (v == .s32 || v == .wideS) l + x.intC (madWide v) (v == .s32 || v == .wideS) l) := by
  cases v <;> rfl

/-- The integer of a word gives the word back. -/
theorem ofInt_intOf (signed : Bool) (a : Word) : BitVec.ofInt 32 (intOf signed a) = a := by
  cases signed <;> simp [intOf]

theorem laneImin_eq (t : IntTy) (a b : Word) : laneImin t a b = BitVec.ofInt 32 (min (intOf (tySigned t) a) (intOf (tySigned t) b)) := by
  rw [laneImin, min_comm, min_def_lt, apply_ite (BitVec.ofInt 32), ofInt_intOf, ofInt_intOf]

theorem laneImax_eq (t : IntTy) (a b : Word) : laneImax t a b = BitVec.ofInt 32 (max (intOf (tySigned t) a) (intOf (tySigned t) b)) := by
  rw [laneImax, max_def_lt, apply_ite (BitVec.ofInt 32), ofInt_intOf, ofInt_intOf]

theorem laneIadif_eq (t : IntTy) (a b : Word) : laneIadif t a b = BitVec.ofInt 32 |intOf (tySigned t) a - intOf (tySigned t) b| := by
  rw [laneIadif, Int.natCast_natAbs]

/-- Settles O3: each instruction's arm is the frame of the lane instructions over R109's exact result. -/
theorem integerArithmetic : Obligations.IntegerArithmetic := by
  unfold Obligations.IntegerArithmetic
  intro s gid g o hi
  refine ⟨fun v ready => ?_, fun v ready => ?_, fun v ready => ?_⟩
  · exact ⟨laneDone_of_alu hi ready rfl fun l _ => addSub_eq (· + ·) v o _ l, laneDone_of_alu hi ready rfl fun l _ => addSub_eq (· - ·) v o _ l⟩
  · refine ⟨?_, ?_, ?_, ?_, ?_⟩
    · exact laneDone_of_alu hi ready rfl fun l _ => rfl
    · exact laneDone_of_alu hi ready rfl fun l _ => rfl
    · exact laneDone_of_alu hi ready rfl fun l _ => congrArg wordOut (laneImin_eq v _ _)
    · exact laneDone_of_alu hi ready rfl fun l _ => congrArg wordOut (laneImax_eq v _ _)
    · exact laneDone_of_alu hi ready rfl fun l _ => congrArg wordOut (laneIadif_eq v _ _)
  · exact laneDone_of_alu hi ready rfl fun l _ => madOut_eq v o _ l

end Sys2Proof.Machine
end

section
/-! O7, O11, O12: the floating-point instructions, the special functions and the conversions (R122-R138). -/

namespace Sys2Proof.Machine

theorem fTypes_eq (v : FTy) : fTypes v = Types.all (if v = .f32 then .f32 else .pack) := by cases v <;> rfl

theorem cvtTypes_eq (v : CvtV) : cvtTypes v = Types.all (if v = .f32s32 then .s32 else if v = .f32u32 then .u32 else .f32) := by cases v <;> rfl

/-- Settles O7: each instruction's arm is the frame of the lane instructions over its function of Float.lean. -/
theorem floatArithmetic : Obligations.FloatArithmetic := by
  unfold Obligations.FloatArithmetic
  intro s gid g o hi rm
  refine ⟨fun ready => ⟨fun v => ?_, ⟨fun v => ?_, ?_⟩, ?_, fun v => ?_⟩, fun ready => ⟨fun v => ?_, ?_⟩⟩
  · simp only [State.in32, ← fTypes_eq]
    refine ⟨?_, ?_, ?_, ?_, ?_⟩ <;> exact laneDone_of_alu hi ready rfl fun l _ => rfl
  · exact laneDone_of_alu hi ready rfl fun l _ => rfl
  · exact laneDone_of_alu hi ready rfl fun l _ => rfl
  · exact laneDone_of_alu hi ready rfl fun l _ => rfl
  · exact laneDone_of_alu hi ready rfl fun l _ => rfl
  · simp only [State.in1, ← fTypes_eq]
    exact laneDone_of_alu hi ready rfl fun l _ => rfl
  · exact laneDone_of_alu hi ready rfl fun l _ => rfl

/-- Settles O11: the seven arms are one frame over the function of each row. -/
theorem specialFunctions : Obligations.SpecialFunctions := by
  unfold Obligations.SpecialFunctions
  intro s gid g o hi sh a ready
  refine ⟨?_, ?_, ?_, ?_, ?_, ?_, ?_⟩ <;> exact laneDone_of_alu hi ready rfl fun l _ => rfl

/-- Settles O12: the arms of CVT, PACKQ and UNPKQ over the lane functions of Convert.lean. -/
theorem conversions : Obligations.Conversions := by
  unfold Obligations.Conversions
  intro s gid g o hi
  refine ⟨fun v ready => ?_, fun v => ⟨fun ready => ?_, fun ready => ?_⟩⟩
  · rw [← cvtTypes_eq]
    exact laneDone_of_alu hi ready rfl fun l _ => rfl
  · exact laneDone_of_alu hi ready rfl fun l _ => rfl
  · exact laneDone_of_alu hi ready rfl fun l _ => rfl

end Sys2Proof.Machine
end

section
/-! SUPPORT. Words put together bit by bit, and what the arms read of the issuing group. -/

namespace Sys2Proof.Machine

/-- A number put together of the lowest n bits of a function. -/
def bitSum (f : Nat → Bool) (n : Nat) : Nat := (List.range n).foldl (fun a l => if f l then a + 2 ^ l else a) 0

theorem bitSum_succ (f : Nat → Bool) (n : Nat) : bitSum f (n + 1) = if f n then bitSum f n + 2 ^ n else bitSum f n := by
  simp [bitSum, List.range_succ]

theorem bitSum_lt (f : Nat → Bool) (n : Nat) : bitSum f n < 2 ^ n := by
  induction n with
  | zero => exact Nat.one_pos
  | succ n ih =>
    rw [bitSum_succ, pow_succ]
    split <;> omega

theorem testBit_bitSum (f : Nat → Bool) (n i : Nat) : (bitSum f n).testBit i = (decide (i < n) && f i) := by
  induction n with
  | zero => simp [bitSum]
  | succ n ih =>
    have step : bitSum f (n + 1) = bitSum f n ||| if f n then 2 ^ n else 0 := by
      rw [bitSum_succ]
      split
      · rw [Nat.add_comm, Nat.or_comm, ← mul_one (2 ^ n), Nat.two_pow_add_eq_or_of_lt (bitSum_lt f n)]
      · rw [Nat.or_zero]
    rw [step, Nat.testBit_or, ih]
    by_cases hi : i = n
    · subst hi
      cases f i <;> simp
    · have : decide (i < n + 1) = decide (i < n) := by simp; omega
      rw [this]
      split <;> simp [Nat.testBit_two_pow_of_ne (Ne.symm hi)]

/-- The bits of a word given bit by bit. -/
theorem maskOf_bit (f : Nat → Bool) (i : Nat) (hi : i < 32) : (maskOf f).getLsbD i = f i := by
  change (BitVec.ofNat 32 (bitSum f 32)).getLsbD i = f i
  rw [BitVec.getLsbD_ofNat, testBit_bitSum]
  simp [hi]

/-- A word is the one that is given bit by bit. -/
theorem eq_maskOf {w : Word} {f : Nat → Bool} (h : ∀ i, i < 32 → w.getLsbD i = f i) : w = maskOf f :=
  BitVec.eq_of_getLsbD_eq fun i hi => (h i hi).trans (maskOf_bit f i hi).symm

theorem foldl_addIf (p : Nat → Bool) (v : Nat → Nat) (ls : List Nat) (a : Nat) :
    ls.foldl (fun a k => if p k then a + v k else a) a = a + (ls.map fun k => if p k then v k else 0).sum := by
  induction ls generalizing a with
  | nil => rfl
  | cons k ls ih =>
    rw [List.foldl_cons, ih, List.map_cons, List.sum_cons]
    split <;> omega

section
variable {s : State} {gid : Nat} {g : Group} (hi : s.Issues gid g)
include hi

theorem curGroup {α : Type} (f : Group → α) (d : α) : ((s.group s.cur).map f).getD d = f g := by
  obtain ⟨rfl, hg⟩ := hi
  rw [hg]
  rfl

theorem curRun_eq (h : Hdr) : s.curRun h = g.runMask h := curGroup hi _ _

theorem curPred_eq (x : Src) : s.curPred x = g.predSource x := curGroup hi _ _

end

end Sys2Proof.Machine
end

section
/-! O13: exchange within the group (R139-R144). -/

namespace Sys2Proof.Machine

/-- The votes of R141, by what holds of the running lanes. -/
theorem voteOut_eq (v : VoteV) (run : LaneMask) (a : Lanes) :
    voteOut v run a = match v with
      | .any => truth (decide (∃ l ∈ lanesOf run, lane a l ≠ 0))
      | .all => truth (decide (∀ l ∈ lanesOf run, lane a l ≠ 0))
      | .uni => truth (decide ((∀ l ∈ lanesOf run, lane a l ≠ 0) ∨ ∀ l ∈ lanesOf run, ¬lane a l ≠ 0))
      | .ballot => maskOf fun l => run.getLsbD l && decide (lane a l ≠ 0) := by
  have none' : ((lanesOf run).filter fun l => lane a l != 0).isEmpty = decide (∀ l ∈ lanesOf run, ¬lane a l ≠ 0) := by
    rw [Bool.eq_iff_iff]
    simp [List.filter_eq_nil_iff]
  have all' : (((lanesOf run).filter fun l => lane a l != 0).length == (lanesOf run).length) = decide (∀ l ∈ lanesOf run, lane a l ≠ 0) := by
    rw [Bool.eq_iff_iff]
    simp [List.length_filter_eq_length_iff]
  cases v with
  | any =>
    refine congrArg truth ?_
    rw [none', ← decide_not]
    simp
  | all => exact congrArg truth all'
  | uni =>
    refine congrArg truth ?_
    rw [none', all', Bool.or_comm, Bool.decide_or]
  | ballot =>
    refine eq_maskOf fun i hi => (maskOf_bit _ i hi).trans ?_
    rw [Bool.eq_iff_iff]
    simp [lanesOf_mem, hi]

theorem scanOp_excludes (v : ScanV) : (scanOp v).2 = (v == .iaddEx || v == .faddEx) := by cases v <;> rfl

/-- The lanes that a scan takes in (R143). -/
theorem scan_takes (ex : Bool) (l m : Nat) : (decide (m < l) || (m == l && !ex)) = if ex then decide (m < l) else decide (m ≤ l) := by
  rw [Bool.eq_iff_iff]
  cases ex <;> simp [le_iff_lt_or_eq]

/-- Settles O13: the arms of SHFL, VOTE, GRED, GSCAN and RNG over the running lanes of the issuing group. -/
theorem exchangeWithinGroup : Obligations.ExchangeWithinGroup := by
  unfold Obligations.ExchangeWithinGroup
  intro s gid g o hi
  refine ⟨fun v ready => ?_, fun ready => ⟨fun v => ?_, fun v => ?_, fun v => ?_⟩, fun v ready => ?_⟩
  · exact laneDone_of_alu hi ready rfl fun l _ => by cases v <;> rfl
  · refine laneDone_of_alu hi ready rfl fun l _ => ?_
    rw [curRun_eq hi, voteOut_eq]
    rfl
  · refine laneDone_of_alu hi ready rfl fun l _ => ?_
    rw [curRun_eq hi]
    rfl
  · refine laneDone_of_alu hi ready rfl fun l _ => ?_
    rw [curRun_eq hi, scanOp_excludes]
    simp only [scan_takes]
    rfl
  · refine laneDone_of_alu hi ready rfl fun l _ => ?_
    cases v <;> rfl

end Sys2Proof.Machine
end

section
/-! O14: PLOP, P2V and V2P (R145, R146). -/

namespace Sys2Proof.Machine

theorem predSource_bit (g : Group) (x : Src) (l : Nat) (hl : l < 32) :
    (g.predSource x).getLsbD l = ((if x.file = .vec then (g.predMask x.reg.toNat).getLsbD l else g.stages.getLsbD x.reg.toNat) != x.neg) := by
  have ones : (0xFFFFFFFF : LaneMask).getLsbD l = true := by
    revert l
    decide
  have mask : (if x.file == .vec then g.predMask x.reg.toNat else if g.stages.getLsbD x.reg.toNat then 0xFFFFFFFF else 0 : LaneMask).getLsbD l =
      if x.file = .vec then (g.predMask x.reg.toNat).getLsbD l else g.stages.getLsbD x.reg.toNat := by
    by_cases hf : x.file = .vec
    · simp [hf]
    · rw [if_neg (by simpa using hf), if_neg hf]
      cases g.stages.getLsbD x.reg.toNat
      · simp
      · exact ones
  rw [← mask, Group.predSource]
  cases x.neg <;> simp [hl]

theorem packPreds_eq (g : Group) (l : Nat) :
    packPreds g l = BitVec.ofNat 32 (((List.range 8).map fun k => if (g.predMask k).getLsbD l then 2 ^ k else 0).sum) := by
  rw [packPreds, wordOf, foldl_addIf, Nat.zero_add]

/-! Several results of one instruction. -/

/-- Results entered one after the other in the lanes of one mask. -/
def Group.addResults (g : Group) (due : Nat) (mask : LaneMask) (dst : Nat → RegName) (vals : Nat → Lanes) (ks : List Nat) : Group :=
  ks.foldl (fun g k => g.addResult due (dst k) mask (vals k) 0) g

section
variable {g g' : Group} {us : List Use} (due : Nat) {mask : LaneMask} (dst : Nat → RegName) (vals : Nat → Lanes)

theorem Group.Prepared.addResults (p : g.Prepared g' us) (ks : List Nat) : g.Prepared (g'.addResults due mask dst vals ks) us := by
  induction ks generalizing g' with
  | nil => exact p
  | cons k ks ih => exact ih (p.addResult ..)

theorem addResults_keeps (ks : List Nat) (r : Result) (h : r ∈ g.results) : r ∈ (g.addResults due mask dst vals ks).results := by
  induction ks generalizing g with
  | nil => exact h
  | cons k ks ih => exact ih (addResult_keeps g _ _ _ _ _ r h)

theorem addResults_awaits {ks : List Nat} {k : Nat} (hk : k ∈ ks) (runs : mask ≠ 0) :
    (g.addResults due mask dst vals ks).Awaits g.sched.issued due (dst k) mask (lane (vals k)) 0 := by
  induction ks generalizing g with
  | nil => cases hk
  | cons j ks ih =>
    obtain rfl | hk := List.mem_cons.mp hk
    · exact awaits_mono _ _ _ _ _ _ _ _ (fun r h _ => addResults_keeps due dst vals ks r h)
        (awaits_addResult g _ _ _ _ _ _ _ rfl (fun h => runs h.1) fun _ _ _ => rfl)
    · have := ih (g := g.addResult due (dst j) mask (vals j) 0) hk
      rwa [addResult_issued] at this

end

/-- V2P.unpack enters one result for each of p0-p6 (R146). -/
theorem v2pUnpack_done {s : State} {gid : Nat} {g : Group} (o : Alu) (runs : g.runMask o.hdr ≠ 0)
    (named : g.nameFault ((aluUses o {} true false false).map (·.name)) = none) :
    ∃ g', s.v2pUnpack gid g o = s.putGroup gid g' ∧ g.Done g' (aluUses o {} true false false) ∧
      ∀ k, k < 7 → g'.Awaits g.sched.issued (s.cclk (gidCid gid) + 2) (.pred k) (g.runMask o.hdr)
        (fun l => truth ((lane (s.in32 gid g o .u32).a l).getLsbD k)) 0 := by
  let run := g.runMask o.hdr
  let us := aluUses o {} true false false
  let q := g.killUses run run us
  let vals := fun k => (List.range 32).map fun l => boolWord ((lane (s.in32 gid g o .u32).a l).getLsbD k)
  have killed : g.Prepared q us := prepared_killUses g run run us
  obtain ⟨g', hf, done, -, keeps⟩ := finish_done s gid g _ o.hdr us (killed.addResults (s.cclk (gidCid gid) + 2) (mask := run) .pred vals (List.range 7))
  refine ⟨g', ?_, done, fun k hk => ?_⟩
  · simp only [State.v2pUnpack, if_neg runs, named]
    exact hf
  · have issued : q.sched.issued = g.sched.issued := by rw [killed.move]
    obtain ⟨r, hr, hnum, hdue, hland, hdst, hmask, hfl, hv⟩ := addResults_awaits (g := q) (s.cclk (gidCid gid) + 2) RegName.pred vals (List.mem_range.mpr hk) runs
    refine ⟨r, keeps r hr hland, hnum.trans issued, hdue, hland, hdst, hmask, hfl, fun l hl hb => (hv l hl hb).trans ?_⟩
    exact lane_map_range _ _ hl

/-- Settles O14: the arms of PLOP, P2V and V2P over the predicates of the issuing group. -/
theorem predicateMoves : Obligations.PredicateMoves := by
  unfold Obligations.PredicateMoves
  intro s gid g o hi
  refine ⟨fun ready => ⟨fun v b p rm hx => ?_, ?_, ?_⟩, fun ready => ?_, fun file ready => ?_⟩
  · refine laneDone_of_alu hi ready rfl fun l hl => ?_
    simp only [hx, curPred_eq hi, predSource_bit g _ l hl]
    rfl
  · refine laneDone_of_alu hi ready rfl fun l _ => ?_
    simp only [curGroup hi, packPreds_eq]
    rfl
  · refine laneDone_of_alu hi ready rfl fun l _ => ?_
    simp only [curPred_eq hi]
    rfl
  · refine laneDone_of_alu hi ready rfl fun l _ => ?_
    exact congrArg (fun c => wordOut (truth c)) (Bool.eq_iff_iff.mpr (bne_iff_ne.trans decide_eq_true_iff.symm))
  · have named : g.nameFault ((aluUses o {} true false false).map (·.name)) = none := by
      have := ready.2
      rwa [dstUse, file, List.append_nil] at this
    obtain ⟨g', next, done, awaits⟩ := v2pUnpack_done (s := s) (gid := gid) o ready.1 named
    exact ⟨g', (withGroup_issues hi fun gid g => s.v2pUnpack gid g o).trans (congrArg _ next), done, awaits⟩

end Sys2Proof.Machine
end

section
/-! SUPPORT. Shifts, rotates, bit fields, counts and reversal of a lane, by numbers and bit by bit (R110-R113). -/

namespace Sys2Proof.Machine

/-! Shifts (R110). -/

theorem shiftCount_eq (v : ShiftV) (b : Word) : shiftCount v b = if v = .wrap then b.toNat % 32 else b.toNat := by cases v <;> rfl

theorem laneShl_eq (v : ShiftV) (a b : Word) : laneShl v a b = BitVec.ofNat 32 (a.toNat * 2 ^ shiftCount v b) := by
  unfold laneShl
  generalize shiftCount v b = n
  apply BitVec.eq_of_toNat_eq
  split
  · rw [BitVec.toNat_shiftLeft, Nat.shiftLeft_eq, BitVec.toNat_ofNat]
  · next h =>
    obtain ⟨k, rfl⟩ := Nat.exists_eq_add_of_le (not_lt.1 h)
    rw [BitVec.toNat_ofNat, pow_add, mul_left_comm, Nat.mul_mod_right]
    rfl

theorem laneShr_eq (v : ShiftV) (a b : Word) : laneShr v a b = BitVec.ofNat 32 (a.toNat / 2 ^ shiftCount v b) := by
  unfold laneShr
  generalize shiftCount v b = n
  apply BitVec.eq_of_toNat_eq
  rw [BitVec.toNat_ofNat, Nat.mod_eq_of_lt (lt_of_le_of_lt (Nat.div_le_self _ _) a.isLt)]
  split
  · rw [BitVec.toNat_ushiftRight, Nat.shiftRight_eq_div_pow]
  · next h =>
    rw [Nat.div_eq_of_lt (lt_of_lt_of_le a.isLt (Nat.pow_le_pow_right (by decide) (not_lt.1 h)))]
    rfl

/-- Beyond 31 places only the sign is left. -/
theorem sar_far (x : Int) (n : Nat) (hlo : -2 ^ 31 ≤ x) (hhi : x < 2 ^ 31) (hn : 31 ≤ n) : x / 2 ^ n = if x < 0 then -1 else 0 := by
  have hp : (2 : Int) ^ 31 ≤ 2 ^ n := pow_le_pow_right₀ (by decide) hn
  split
  · next h => exact Int.ediv_eq_neg_one_of_neg_of_le h (by omega)
  · next h => exact Int.ediv_eq_zero_of_lt (by omega) (by omega)

theorem laneSar_eq (v : ShiftV) (a b : Word) : laneSar v a b = BitVec.ofInt 32 (a.toInt / 2 ^ shiftCount v b) := by
  unfold laneSar
  generalize shiftCount v b = n
  have hlo : -2 ^ 31 ≤ a.toInt := BitVec.le_toInt a
  have hhi : a.toInt < 2 ^ 31 := BitVec.toInt_lt
  have shifted : a.sshiftRight (min n 31) = BitVec.ofInt 32 (a.toInt / 2 ^ min n 31) := by
    rw [← BitVec.ofInt_toInt (x := a.sshiftRight (min n 31)), BitVec.toInt_sshiftRight, Int.shiftRight_eq_div_pow]
    norm_cast
  rw [shifted]
  obtain h | h := le_total n 31
  · rw [min_eq_left h]
  · rw [min_eq_right h, sar_far _ 31 hlo hhi le_rfl, sar_far _ n hlo hhi h]

theorem laneRol_eq (a b : Word) : laneRol a b = maskOf fun i => a.getLsbD ((i + 32 - b.toNat % 32) % 32) := by
  refine eq_maskOf fun i hi => ?_
  have hr : b.toNat % 32 < 32 := Nat.mod_lt _ (by decide)
  rw [laneRol, BitVec.getLsbD_rotateLeft]
  generalize b.toNat % 32 = r at hr
  rw [Nat.mod_eq_of_lt hr]
  by_cases h : i < r
  · rw [decide_eq_true h, cond_true]
    congr 1
    omega
  · rw [decide_eq_false h, cond_false, decide_eq_true hi, Bool.true_and]
    congr 1
    omega

/-! Bit fields (R112). -/

/-- The bits of a field that is there: its lowest bit, its width, and the bit above its highest. -/
theorem fieldAt_eq (b : Word) : fieldAt b = (fieldLen b != 0 && decide (fieldPos b < 32), fieldPos b, min (fieldPos b + fieldLen b) 32) := rfl

theorem noField_iff (b : Word) : (fieldLen b = 0 || 32 ≤ fieldPos b) = !(fieldAt b).1 := by
  rw [fieldAt_eq, Bool.eq_iff_iff]
  simp

/-- A field has at least one bit, and ends within the word. -/
theorem fieldWidth_eq {b : Word} (h : (fieldAt b).1 = true) : fieldPos b + fieldWidth b = min (fieldPos b + fieldLen b) 32 ∧ 0 < fieldWidth b ∧ fieldPos b < 32 := by
  rw [fieldAt_eq] at h
  simp at h
  unfold fieldWidth
  omega

theorem le_iff_top_bit {f w : Nat} (hf : f < 2 ^ (w + 1)) : 2 ^ w ≤ f ↔ f.testBit w = true := by
  have h2 : 2 ^ (w + 1) = 2 * 2 ^ w := pow_succ' ..
  constructor
  · intro h
    rw [Nat.testBit_eq_decide_div_mod_eq, show f / 2 ^ w = 1 from Nat.div_eq_of_lt_le (by omega) (by omega)]
    rfl
  · exact Nat.ge_two_pow_of_testBit

theorem laneBfe_eq (v : ExtV) (a b : Word) :
    laneBfe v a b = maskOf fun i => (fieldAt b).1 && (if (fieldAt b).2.1 + i < (fieldAt b).2.2 then a.getLsbD ((fieldAt b).2.1 + i)
      else v == .s32 && a.getLsbD ((fieldAt b).2.2 - 1)) := by
  refine eq_maskOf fun i hi => ?_
  cases hf : (fieldAt b).1
  · have : (fieldLen b = 0 || 32 ≤ fieldPos b) = true := by rw [noField_iff, hf]; rfl
    rw [laneBfe, if_pos this]
    simp
  · have : ¬(fieldLen b = 0 || 32 ≤ fieldPos b) = true := by rw [noField_iff, hf]; decide
    obtain ⟨hup, hw, hpos⟩ := fieldWidth_eq hf
    rw [laneBfe, if_neg this, fieldAt_eq, ← hup]
    generalize fieldPos b = pos at *
    obtain ⟨w, hw'⟩ : ∃ w, fieldWidth b = w + 1 := ⟨_, (Nat.sub_add_cancel hw).symm⟩
    rw [hw'] at hup ⊢
    have hlt : a.toNat / 2 ^ pos % 2 ^ (w + 1) < 2 ^ (w + 1) := Nat.mod_lt _ (Nat.two_pow_pos _)
    have bits : ∀ j, (a.toNat / 2 ^ pos % 2 ^ (w + 1)).testBit j = (decide (j < w + 1) && a.getLsbD (pos + j)) := fun j => by
      rw [Nat.testBit_mod_two_pow, ← Nat.shiftRight_eq_div_pow, Nat.testBit_shiftRight]
      rfl
    have top : 2 ^ (w + 1 - 1) ≤ a.toNat / 2 ^ pos % 2 ^ (w + 1) ↔ a.getLsbD (pos + w) = true := by
      rw [Nat.add_sub_cancel, le_iff_top_bit hlt, bits]
      simp
    have filled : a.toNat / 2 ^ pos % 2 ^ (w + 1) + (2 ^ 32 - 2 ^ (w + 1)) = 2 ^ (w + 1) * (2 ^ (31 - w) - 1) + a.toNat / 2 ^ pos % 2 ^ (w + 1) := by
      rw [Nat.mul_sub, ← pow_add, show w + 1 + (31 - w) = 32 by omega, mul_one, Nat.add_comm]
    simp only [Bool.true_and, decide_eq_true_eq, Bool.and_eq_true, beq_iff_eq, top]
    simp only [Nat.add_lt_add_iff_left, show pos + (w + 1) - 1 = pos + w from rfl]
    by_cases hs : v = .s32 ∧ a.getLsbD (pos + w) = true
    · rw [if_pos hs, BitVec.getLsbD_ofNat, filled, Nat.testBit_two_pow_mul_add _ hlt, Nat.testBit_two_pow_sub_one, bits, hs.1, hs.2]
      split <;> simp [hi] <;> omega
    · have sign : (v == .s32 && a.getLsbD (pos + w)) = false := by simpa using hs
      rw [if_neg hs, sign, BitVec.getLsbD_ofNat, bits]
      split <;> simp [hi] <;> omega

theorem fieldMask_bit (w pos i : Nat) : (BitVec.ofNat 32 ((2 ^ w - 1) * 2 ^ pos)).getLsbD i = (decide (i < 32) && (decide (pos ≤ i) && decide (i < pos + w))) := by
  rw [BitVec.getLsbD_ofNat, Nat.testBit_mul_two_pow, Nat.testBit_two_pow_sub_one, Bool.eq_iff_iff]
  simp
  omega

theorem laneBfi_eq (a b c : Word) :
    laneBfi a b c = maskOf fun i => if (fieldAt b).1 && decide ((fieldAt b).2.1 ≤ i) && decide (i < (fieldAt b).2.2) then a.getLsbD (i - (fieldAt b).2.1)
      else c.getLsbD i := by
  refine eq_maskOf fun i hi => ?_
  cases hf : (fieldAt b).1
  · have : (fieldLen b = 0 || 32 ≤ fieldPos b) = true := by rw [noField_iff, hf]; rfl
    rw [laneBfi, if_pos this]
    rfl
  · have : ¬(fieldLen b = 0 || 32 ≤ fieldPos b) = true := by rw [noField_iff, hf]; decide
    obtain ⟨hup, -, -⟩ := fieldWidth_eq hf
    rw [laneBfi, if_neg this, fieldAt_eq, ← hup]
    generalize fieldPos b = pos at *
    simp only [BitVec.getLsbD_or, BitVec.getLsbD_and, BitVec.getLsbD_not, BitVec.getLsbD_shiftLeft, fieldMask_bit, hi, decide_true, Bool.true_and]
    by_cases inside : pos ≤ i ∧ i < pos + fieldWidth b
    · simp [inside]
    · have : (decide (pos ≤ i) && decide (i < pos + fieldWidth b)) = false := by simpa using inside
      simp [this]

/-! Counts and reversal (R113). -/

theorem countBits_eq (n k : Nat) : countBits n k = ((List.range k).filter fun i => n.testBit i).length := by
  induction k with
  | zero => rfl
  | succ k ih =>
    rw [countBits, ih, List.range_succ, List.filter_append, List.length_append, Nat.add_comm]
    congr 1
    have := Nat.mod_two_eq_zero_or_one (n / 2 ^ k)
    rw [List.filter_singleton, Nat.testBit_eq_decide_div_mod_eq]
    obtain h | h := this <;> simp [h]

theorem lanePopc_eq (a : Word) : lanePopc a = BitVec.ofNat 32 ((List.range 32).filter fun i => a.getLsbD i).length := by
  rw [lanePopc, popcount, countBits_eq]
  rfl

/-- The numbers before the first that fails. -/
theorem takeWhile_range {p : Nat → Bool} {k n : Nat} (hk : k ≤ n) (below : ∀ i, i < k → p i = true) (here : k < n → p k = false) :
    (List.range n).takeWhile p = List.range k := by
  obtain ⟨d, rfl⟩ := Nat.exists_eq_add_of_le hk
  rw [List.range_add, List.takeWhile_append_of_pos fun i hi => below i (List.mem_range.mp hi)]
  cases d with
  | zero => simp
  | succ d => rw [List.range_succ_eq_map, List.map_cons, Nat.add_zero, List.takeWhile_cons_of_neg (by simp [here (by omega)]), List.append_nil]

theorem laneClz_eq (a : Word) : laneClz a = BitVec.ofNat 32 ((List.range 32).takeWhile fun i => !a.getLsbD (31 - i)).length := by
  rw [laneClz]
  split
  · next h =>
    subst h
    rfl
  · next h =>
    have h0 : a.toNat ≠ 0 := fun e => h (BitVec.eq_of_toNat_eq e)
    have hlog : a.toNat.log2 < 32 := (Nat.log2_lt h0).2 a.isLt
    have high : ∀ i, i < 31 - a.toNat.log2 → (!a.getLsbD (31 - i)) = true := fun i hi => by
      rw [Bool.not_eq_true', BitVec.getLsbD, Nat.testBit_lt_two_pow]
      exact (Nat.log2_lt h0).1 (by omega)
    have top : (!a.getLsbD (31 - (31 - a.toNat.log2))) = false := by
      rw [Bool.not_eq_false', BitVec.getLsbD, show 31 - (31 - a.toNat.log2) = a.toNat.log2 by omega]
      exact (le_iff_top_bit Nat.lt_log2_self).1 (Nat.log2_self_le h0)
    rw [takeWhile_range (by omega) high fun _ => top, List.length_range]

theorem laneBrev_eq (a : Word) : laneBrev a = maskOf fun i => a.getLsbD (31 - i) := by
  refine eq_maskOf fun i hi => ?_
  rw [laneBrev, BitVec.getLsbD_reverse, BitVec.getMsbD]
  simp [hi]

end Sys2Proof.Machine
end

section
/-! SUPPORT. Comparison, addresses, byte permutation and byte dot products of a lane (R114-R116, R120, R121). -/

namespace Sys2Proof.Machine

theorem icmpTypes_eq (v : ICond) : icmpTypes v = Types.all (if v = .ltU ∨ v = .leU ∨ v = .gtU ∨ v = .geU then .u32 else .s32) := by cases v <;> rfl

theorem laneIcmp_eq (v : ICond) (a b : Word) : laneIcmp v a b = condHolds v a b := by
  cases v with
  | eq => exact Bool.beq_eq_decide_eq a b
  | ne => rw [laneIcmp, condHolds, bne, Bool.beq_eq_decide_eq, decide_not]
  | _ => rfl

theorem laneLea_eq (v : LeaV) (a : DWord) (b : Word) : laneLea v a b = BitVec.ofInt 64 (a.toNat + intOf v.sx b * 2 ^ v.n.toNat) := by
  have wide : (if v.sx then b.signExtend 64 else b.setWidth 64) = BitVec.ofInt 64 (intOf v.sx b) := by
    cases v.sx
    · exact ((BitVec.ofInt_natCast ..).trans (BitVec.ofNat_toNat ..)).symm
    · rfl
  have scaled : BitVec.ofInt 64 (2 ^ v.n.toNat) = BitVec.twoPow 64 v.n.toNat := by
    apply BitVec.eq_of_toNat_eq
    rw [BitVec.toNat_twoPow]
    exact_mod_cast BitVec.toNat_ofNat ..
  rw [laneLea, wide, BitVec.ofInt_add, BitVec.ofInt_mul, scaled, ← BitVec.shiftLeft_eq_mul_twoPow, BitVec.ofInt_natCast, BitVec.ofNat_toNat, BitVec.setWidth_eq]

/-- One byte of R120, by its selector. -/
theorem prmt_pick (a b c : Word) (i : Nat) :
    (let n := (c.extractLsb' (4 * i) 4).toNat
     let x := if n % 8 < 4 then byteOf a (n % 8) else byteOf b (n % 8 - 4)
     if 8 ≤ n then (if x.msb then 0xFF else 0) else x : Byte) =
      (let n := c.toNat / 16 ^ i % 16
       let x := prmtByte a b (n % 8)
       if n < 8 then x else if x.getLsbD 7 then 0xFF else 0) := by
  have selector : (c.extractLsb' (4 * i) 4).toNat = c.toNat / 16 ^ i % 16 := by
    rw [BitVec.extractLsb'_toNat, Nat.shiftRight_eq_div_pow, pow_mul]
    rfl
  rw [selector]
  generalize c.toNat / 16 ^ i % 16 = n
  simp only [← not_lt (a := n), ite_not]
  rfl

theorem lanePrmt_eq (a b c : Word) :
    lanePrmt a b c =
      (let pick := fun (i : Nat) =>
        let n := c.toNat / 16 ^ i % 16
        let x := prmtByte a b (n % 8)
        if n < 8 then x else if x.getLsbD 7 then 0xFF else 0
       pick 3 ++ pick 2 ++ pick 1 ++ pick 0) := by
  dsimp only
  rw [← prmt_pick, ← prmt_pick, ← prmt_pick, ← prmt_pick]
  rfl

theorem laneDp4_eq (v : Dp4V) (a b c : Word) :
    laneDp4 v a b c =
      (let t := fun (i : Nat) => byteInt (v == .s8s8 || v == .s8u8) (a.extractLsb' (8 * i) 8) * byteInt (v == .s8s8 || v == .u8s8) (b.extractLsb' (8 * i) 8)
       BitVec.ofInt 32 (c.toInt + (t 0 + t 1 + t 2 + t 3))) := by
  have same : ∀ t : Int, BitVec.ofInt 32 ((c.toNat : Int) + t) = BitVec.ofInt 32 (c.toInt + t) := fun t => by
    rw [BitVec.ofInt_add, BitVec.ofInt_add, BitVec.ofInt_natCast, BitVec.ofInt_toInt, BitVec.ofNat_toNat, BitVec.setWidth_eq]
  dsimp only
  rw [← same, ← Int.add_assoc, ← Int.add_assoc, ← Int.add_assoc]
  rfl

end Sys2Proof.Machine
end

section
/-! O4, O5: how the bit instructions and those of comparison, selection and moves complete (R110-R121). -/

namespace Sys2Proof.Machine

theorem predMask_constant (g : Group) (l : Nat) (hl : l < 32) : (g.predMask 7).getLsbD l = true := by
  have ones : ∀ l, l < 32 → (0xFFFFFFFF : LaneMask).getLsbD l = true := by decide
  exact ones l hl

section
variable {s : State} {gid : Nat} {g : Group} {o : Alu} (hi : s.Issues gid g)

/-- The immediate of a single-source instruction is what every lane reads (R29). -/
theorem in1_immediate (t : OpTy) {imm : Word} (hx : o.x = .i imm) (l : Nat) (hl : l < 32) : lane (s.in1 gid g o t).a l = imm := by
  simp only [State.in1, State.aluIn, hx, if_true]
  exact (List.getD_eq_getElem _ _ (by simpa using hl)).trans (List.getElem_replicate ..)

include hi

theorem shift_done (ready : g.LaneReady o {}) (v : ShiftV) :
    let a := lane (s.in32 gid g o .u32).a
    let n := fun l => if v = .wrap then (lane (s.in32 gid g o .u32).b l).toNat % 32 else (lane (s.in32 gid g o .u32).b l).toNat
    s.LaneDone gid g o {} 4 (fun l => wordOut (BitVec.ofNat 32 ((a l).toNat * 2 ^ n l))) (exec (.shl v o) s) ∧
      s.LaneDone gid g o {} 4 (fun l => wordOut (BitVec.ofNat 32 ((a l).toNat / 2 ^ n l))) (exec (.shr v o) s) ∧
      s.LaneDone gid g o {} 4 (fun l => wordOut (BitVec.ofInt 32 ((a l).toInt / 2 ^ n l))) (exec (.sar v o) s) := by
  simp only [← shiftCount_eq]
  refine ⟨?_, ?_, ?_⟩
  · exact laneDone_of_alu hi ready rfl fun l _ => congrArg wordOut (laneShl_eq v _ _)
  · exact laneDone_of_alu hi ready rfl fun l _ => congrArg wordOut (laneShr_eq v _ _)
  · exact laneDone_of_alu hi ready rfl fun l _ => congrArg wordOut (laneSar_eq v _ _)

theorem bitLogic_done (ready : g.LaneReady o {}) :
    let a := lane (s.in32 gid g o .u32).a
    let b := lane (s.in32 gid g o .u32).b
    s.LaneDone gid g o {} 4 (fun l => wordOut (maskOf fun i => (a l).getLsbD i && (b l).getLsbD i)) (exec (.and .only o) s) ∧
      s.LaneDone gid g o {} 4 (fun l => wordOut (maskOf fun i => (a l).getLsbD i || (b l).getLsbD i)) (exec (.or .only o) s) ∧
      s.LaneDone gid g o {} 4 (fun l => wordOut (maskOf fun i => (a l).getLsbD i != (b l).getLsbD i)) (exec (.xor .only o) s) ∧
      s.LaneDone gid g o {} 4 (fun l => wordOut (maskOf fun i => (a l).getLsbD i && !(b l).getLsbD i)) (exec (.andn .only o) s) := by
  refine ⟨?_, ?_, ?_, ?_⟩
  · exact laneDone_of_alu hi ready rfl fun l _ => congrArg wordOut (eq_maskOf fun i _ => BitVec.getLsbD_and)
  · exact laneDone_of_alu hi ready rfl fun l _ => congrArg wordOut (eq_maskOf fun i _ => BitVec.getLsbD_or)
  · exact laneDone_of_alu hi ready rfl fun l _ => congrArg wordOut (eq_maskOf fun i _ => BitVec.getLsbD_xor)
  · exact laneDone_of_alu hi ready rfl fun l _ => congrArg wordOut (eq_maskOf fun i h => by simp [State.in32, h])

theorem counts_done (ready : g.LaneReady o unary) :
    let a := lane (s.in1 gid g o .u32).a
    s.LaneDone gid g o unary 4 (fun l => wordOut (BitVec.ofNat 32 ((List.range 32).filter fun i => (a l).getLsbD i).length)) (exec (.popc .only o) s) ∧
      s.LaneDone gid g o unary 4 (fun l => wordOut (BitVec.ofNat 32 ((List.range 32).takeWhile fun i => !(a l).getLsbD (31 - i)).length)) (exec (.clz .only o) s) ∧
      s.LaneDone gid g o unary 4 (fun l => wordOut (maskOf fun i => (a l).getLsbD (31 - i))) (exec (.brev .only o) s) := by
  refine ⟨?_, ?_, ?_⟩
  · exact laneDone_of_alu hi ready rfl fun l _ => congrArg wordOut (lanePopc_eq _)
  · exact laneDone_of_alu hi ready rfl fun l _ => congrArg wordOut (laneClz_eq _)
  · exact laneDone_of_alu hi ready rfl fun l _ => congrArg wordOut (laneBrev_eq _)

theorem movls_done :
    let run := g.runMask o.hdr
    (g.LaneReady o (movlsShape .get run) → s.LaneDone gid g o (movlsShape .get run) 8
        (fun l => wordOut (lane (s.in32 gid g o .u32).a ((lane (s.in32 gid g o .u32).b l).toNat % 32))) (exec (.movls .get o) s)) ∧
      (g.LaneReady o (movlsShape .first run) → s.LaneDone gid g o (movlsShape .first run) 8
        (fun _ => wordOut (lane (s.in32 gid g o .u32).a (firstLane run))) (exec (.movls .first o) s)) ∧
      (g.LaneReady o (movlsShape .put run) → s.LaneDone gid g o (movlsShape .put run) 8
        (fun l => wordOut (lane (s.in1 gid g o .u32).a l)) (exec (.movls .put o) s)) := by
  refine ⟨fun ready => ?_, fun ready => ?_, fun ready => ?_⟩
  · exact laneDone_of_alu hi ready rfl fun l _ => rfl
  · refine laneDone_of_alu hi ready rfl fun l _ => ?_
    simp only [movlsOut, curGroup hi]
    rfl
  · exact laneDone_of_alu hi ready rfl fun l _ => rfl

end

end Sys2Proof.Machine
end

section
/-! SUPPORT. What a word that decodes holds: its OP is that of the instruction, and its fields are those that the opcode accepts (R38). -/

namespace Sys2Proof

/-! The combinators of the decoder, when they answer an instruction. -/

theorem decVAlu_ok {V : Type} {t : List (Nat × V)} {mk : V → Alu → Instr} {three : Bool} {f : Fields} {i : Instr} (h : decVAlu t mk three f = .ok i) :
    ∃ v o, i = mk v o ∧ ofCode t f.var.toNat = .ok v ∧ decAlu three f = .ok o := by
  unfold decVAlu at h
  split at h
  · next v o hv ho => exact ⟨v, o, (Except.ok.inj h).symm, hv, ho⟩
  · cases h
  · cases h

theorem decAnyAlu_ok {mk : Alu → Instr} {f : Fields} {i : Instr} (h : decAnyAlu mk f = .ok i) : ∃ o, i = mk o ∧ decAlu false f = .ok o := by
  unfold decAnyAlu at h
  split at h
  · next o ho => exact ⟨o, (Except.ok.inj h).symm, ho⟩
  · cases h

section
variable {Q V : Type} {q : BitVec 16 → Except DecodeErr Q} {f : Fields} {i : Instr}

theorem decVGen_ok {t : List (Nat × V)} {mk : V → Gen Q → Instr} (h : decVGen t q mk f = .ok i) : ∃ v o, i = mk v o := by
  unfold decVGen at h
  split at h
  · next v o _ _ => exact ⟨v, o, (Except.ok.inj h).symm⟩
  · cases h
  · cases h

theorem decGen0_ok {mk : Gen Q → Instr} (h : decGen0 q mk f = .ok i) : ∃ o, i = mk o := by
  unfold decGen0 at h
  split at h
  · split at h
    · next o _ => exact ⟨o, (Except.ok.inj h).symm⟩
    · cases h
  · cases h

theorem decLoop_ok {mk : BitVec 2 → Ctl → Instr} (h : decLoop mk f = .ok i) : ∃ k o, i = mk k o := by
  unfold decLoop at h
  split at h
  · split at h
    · next o _ => exact ⟨_, o, (Except.ok.inj h).symm⟩
    · cases h
  · cases h

theorem decAny_ok {mk : Gen Q → Except DecodeErr Instr} (h : decAny q mk f = .ok i) : ∃ o, mk o = .ok i := by
  unfold decAny at h
  split at h
  · next o _ => exact ⟨o, h⟩
  · cases h

end

/-! The OP of an instruction (R37). -/

/-- The OP that the encoder writes. -/
def Instr.opcode (i : Instr) : Option (BitVec 8) := (encodeFields i).map (·.op)

section
variable {f : Fields} {lo : Nat} {i : Instr}

theorem decOp0_opcode (h : decOp0 lo f = .ok i) : i.opcode = some (BitVec.ofNat 8 (0 + lo)) := by
  unfold decOp0 at h
  split at h
  case h_16 => cases h
  case h_9 | h_10 | h_11 =>
    obtain ⟨k, o, rfl⟩ := decLoop_ok h
    rfl
  all_goals
    obtain ⟨o, rfl⟩ := decGen0_ok h
    rfl

theorem decOp1_opcode (h : decOp1 lo f = .ok i) : i.opcode = some (BitVec.ofNat 8 (16 + lo)) := by
  unfold decOp1 at h
  split at h
  case h_17 => cases h
  all_goals
    obtain ⟨v, o, rfl, -⟩ := decVAlu_ok h
    rfl

theorem decOp2_opcode (h : decOp2 lo f = .ok i) : i.opcode = some (BitVec.ofNat 8 (32 + lo)) := by
  unfold decOp2 at h
  split at h
  case h_15 => cases h
  case h_7 | h_8 =>
    obtain ⟨o, rfl, -⟩ := decAnyAlu_ok h
    rfl
  all_goals
    obtain ⟨v, o, rfl, -⟩ := decVAlu_ok h
    rfl

theorem decOp3_opcode (h : decOp3 lo f = .ok i) : i.opcode = some (BitVec.ofNat 8 (48 + lo)) := by
  unfold decOp3 at h
  split at h
  case h_12 => cases h
  all_goals
    obtain ⟨v, o, rfl, -⟩ := decVAlu_ok h
    rfl

theorem decOp4_opcode (h : decOp4 lo f = .ok i) : i.opcode = some (BitVec.ofNat 8 (64 + lo)) := by
  unfold decOp4 at h
  split at h
  case h_11 => cases h
  all_goals
    obtain ⟨v, o, rfl, -⟩ := decVAlu_ok h
    rfl

theorem decOp5_opcode (h : decOp5 lo f = .ok i) : i.opcode = some (BitVec.ofNat 8 (80 + lo)) := by
  unfold decOp5 at h
  split at h
  case h_7 => cases h
  all_goals
    obtain ⟨v, o, rfl, -⟩ := decVAlu_ok h
    rfl

theorem decOp6_opcode (h : decOp6 lo f = .ok i) : i.opcode = some (BitVec.ofNat 8 (96 + lo)) := by
  unfold decOp6 at h
  split at h
  case h_5 => cases h
  case h_1 =>
    obtain ⟨o, rfl, -⟩ := decAnyAlu_ok h
    rfl
  all_goals
    obtain ⟨v, o, rfl, -⟩ := decVAlu_ok h
    rfl

theorem decOp7_opcode (h : decOp7 lo f = .ok i) : i.opcode = some (BitVec.ofNat 8 (112 + lo)) := by
  unfold decOp7 at h
  split at h
  case h_12 => cases h
  all_goals
    obtain ⟨v, o, rfl⟩ := decVGen_ok h
    rfl

theorem decOp8_opcode (h : decOp8 lo f = .ok i) : i.opcode = some (BitVec.ofNat 8 (128 + lo)) := by
  unfold decOp8 at h
  split at h
  case h_6 => cases h
  all_goals
    obtain ⟨v, o, rfl⟩ := decVGen_ok h
    rfl

theorem decCpydsm_opcode (h : decCpydsm f = .ok i) : i.opcode = some 0x94 := by
  obtain ⟨o, h⟩ := decAny_ok h
  split at h <;> cases h <;> rfl

theorem decMmas_opcode (h : decMmas f = .ok i) : i.opcode = some 0xA4 := by
  obtain ⟨o, h⟩ := decAny_ok h
  split at h <;> cases h
  rfl

theorem decMrd_opcode (h : decMrd f = .ok i) : i.opcode = some 0xA6 := by
  obtain ⟨o, h⟩ := decAny_ok h
  split at h
  · split at h <;> cases h
    rfl
  · split at h <;> cases h
    rfl

theorem decMacc_opcode (h : decMacc f = .ok i) : i.opcode = some 0xA9 := by
  obtain ⟨o, h⟩ := decAny_ok h
  split at h
  · cases h
    rfl
  · split at h <;> cases h
    rfl

theorem decBupd_opcode (h : decBupd f = .ok i) : i.opcode = some 0xB0 := by
  obtain ⟨o, h⟩ := decAny_ok h
  split at h <;> cases h
  rfl

theorem decCbar_opcode (h : decCbar f = .ok i) : i.opcode = some 0xC3 := by
  obtain ⟨o, h⟩ := decAny_ok h
  split at h <;> cases h
  rfl

theorem decGsub_opcode (h : decGsub f = .ok i) : i.opcode = some 0xE0 := by
  obtain ⟨o, h⟩ := decAny_ok h
  split at h <;> cases h <;> rfl

theorem decOp9_opcode (h : decOp9 lo f = .ok i) : i.opcode = some (BitVec.ofNat 8 (144 + lo)) := by
  unfold decOp9 at h
  split at h
  case h_8 => cases h
  case h_5 => exact decCpydsm_opcode h
  all_goals
    obtain ⟨o, rfl⟩ := decGen0_ok h
    rfl

theorem decOpA_opcode (h : decOpA lo f = .ok i) : i.opcode = some (BitVec.ofNat 8 (160 + lo)) := by
  unfold decOpA at h
  split at h
  case h_11 => cases h
  case h_4 =>
    obtain ⟨v, o, rfl⟩ := decVGen_ok h
    rfl
  case h_5 => exact decMmas_opcode h
  case h_7 => exact decMrd_opcode h
  case h_10 => exact decMacc_opcode h
  all_goals
    obtain ⟨o, rfl⟩ := decGen0_ok h
    rfl

theorem decOpB_opcode (h : decOpB lo f = .ok i) : i.opcode = some (BitVec.ofNat 8 (176 + lo)) := by
  unfold decOpB at h
  split at h
  case h_7 => cases h
  case h_1 => exact decBupd_opcode h
  case h_2 =>
    obtain ⟨v, o, rfl⟩ := decVGen_ok h
    rfl
  all_goals
    obtain ⟨o, rfl⟩ := decGen0_ok h
    rfl

theorem decOpC_opcode (h : decOpC lo f = .ok i) : i.opcode = some (BitVec.ofNat 8 (192 + lo)) := by
  unfold decOpC at h
  split at h
  case h_8 => cases h
  case h_1 | h_2 | h_3 =>
    obtain ⟨o, h⟩ := decAny_ok h
    cases h
    rfl
  case h_4 => exact decCbar_opcode h
  all_goals
    obtain ⟨o, rfl⟩ := decGen0_ok h
    rfl

theorem decOpD_opcode (h : decOpD lo f = .ok i) : i.opcode = some (BitVec.ofNat 8 (208 + lo)) := by
  unfold decOpD at h
  split at h
  case h_9 => cases h
  all_goals
    obtain ⟨o, rfl⟩ := decGen0_ok h
    rfl

theorem decOpE_opcode (h : decOpE lo f = .ok i) : i.opcode = some (BitVec.ofNat 8 (224 + lo)) := by
  unfold decOpE at h
  split at h
  case h_9 => cases h
  case h_1 => exact decGsub_opcode h
  all_goals
    obtain ⟨o, rfl⟩ := decGen0_ok h
    rfl

/-- A word decodes to an instruction of its own OP. -/
theorem decodeFields_opcode (h : decodeFields f = .ok i) : i.opcode = some f.op := by
  have nibbles : ∀ op : BitVec 8, op = BitVec.ofNat 8 (16 * (op.extractLsb' 4 4).toNat + (op.extractLsb' 0 4).toNat) := by decide
  rw [nibbles f.op]
  unfold decodeFields at h
  generalize (f.op.extractLsb' 4 4).toNat = hi at h ⊢
  split at h
  case h_16 => cases h
  case h_1 => exact decOp0_opcode h
  case h_2 => exact decOp1_opcode h
  case h_3 => exact decOp2_opcode h
  case h_4 => exact decOp3_opcode h
  case h_5 => exact decOp4_opcode h
  case h_6 => exact decOp5_opcode h
  case h_7 => exact decOp6_opcode h
  case h_8 => exact decOp7_opcode h
  case h_9 => exact decOp8_opcode h
  case h_10 => exact decOp9_opcode h
  case h_11 => exact decOpA_opcode h
  case h_12 => exact decOpB_opcode h
  case h_13 => exact decOpC_opcode h
  case h_14 => exact decOpD_opcode h
  case h_15 => exact decOpE_opcode h

end

theorem decode_ok {dcc : Bool} {w : BitVec 96} {i : Instr} (h : decode dcc w = .ok i) : decodeFields (Fields.ofWord w) = .ok i ∧ i.wf = true := by
  unfold decode at h
  dsimp only at h
  split at h
  · cases h
  split at h
  · cases h
  split at h
  · cases h
  split at h
  · cases h
  · next j hj =>
    split at h
    · cases h
    · next hwf =>
      cases h
      refine ⟨hj, ?_⟩
      simp only [Bool.or_eq_true, Bool.not_eq_true', not_or, Bool.not_eq_false] at hwf
      exact hwf.1

/-! The tables of VAR. -/

theorem ofCode_only {n : Nat} {v : Only} (h : ofCode tOnly n = .ok v) : n = 0 ∧ v = .only := by
  cases n with
  | zero => exact ⟨rfl, (Except.ok.inj h).symm⟩
  | succ n => cases h

theorem ofCode_shift {n : Nat} {v : ShiftV} (h : ofCode tShiftV n = .ok v) : n ≤ 1 ∧ v = if n = 0 then .asGiven else .wrap := by
  match n with
  | 0 | 1 => exact ⟨by decide, (Except.ok.inj h).symm⟩
  | n + 2 => cases h

theorem ofCode_ext {n : Nat} {v : ExtV} (h : ofCode tExtV n = .ok v) : n ≤ 1 ∧ v = if n = 0 then .u32 else .s32 := by
  match n with
  | 0 | 1 => exact ⟨by decide, (Except.ok.inj h).symm⟩
  | n + 2 => cases h

theorem ofCode_dp4 {n : Nat} {v : Dp4V} (h : ofCode tDp4V n = .ok v) : n ≤ 3 ∧ v = match (generalizing := false) n with
    | 0 => .s8s8
    | 1 => .u8u8
    | 2 => .s8u8
    | _ => .u8s8 := by
  match n with
  | 0 | 1 | 2 | 3 => exact ⟨by decide, (Except.ok.inj h).symm⟩
  | n + 4 => cases h

/-! What an opcode of 0x10-0x63 accepts (R107). -/

/-- The parts of an opcode's acceptance. -/
theorem aluOk_parts {acc : Acc} {o : Alu} (h : aluOk acc o = true) :
    dstRegOk acc.wd o.d = true ∧ dstModOk acc o.d = true ∧ aOk acc o = true ∧ formOk acc o = true ∧ uniformOk acc o = true := by
  simp only [aluOk, Bool.and_eq_true] at h
  obtain ⟨⟨⟨⟨⟨-, hreg⟩, hmod⟩, ha⟩, hform⟩, huni⟩ := h
  exact ⟨hreg, hmod, ha, hform, huni⟩

/-- An opcode with a third source takes form C alone (R29, R31). -/
theorem threeSources {acc : Acc} {o : Alu} (h : aluOk acc o = true) (three : acc.three = true) : ∃ b c, o.x = .c b c := by
  have := fits_of_aluOk acc o h
  rw [three] at this
  cases hx : o.x with
  | c b c => exact ⟨b, c, rfl⟩
  | _ => simp [hx, AluX.fits] at this

/-- An opcode without clamps takes CLMP 00, and one without SCL takes SCL 0 (R26, R107). -/
theorem plainDst {acc : Acc} {d : Dst} (h : dstModOk acc d = true) :
    (acc.clUnit = false → acc.clSat = false → d.clmp = .none) ∧ (acc.scl = false → d.scl = 0) := by
  simp only [dstModOk, Bool.and_eq_true, Bool.or_eq_true, beq_iff_eq] at h
  obtain ⟨hc, hs⟩ := h
  refine ⟨fun hu ht => ?_, fun h0 => hs.resolve_left (by simp [h0])⟩
  cases hd : d.clmp <;> simp_all

/-- A source that is no predicate, of an opcode that reads it. -/
theorem srcOk_parts {file : SFile} {files : List SFile} {neg sub wide : Bool} {x : Src} (h : srcOk (file :: files) neg sub wide false x = true) :
    srcModOk neg sub x = true ∧ (wide = true → srcWideOk x = true) := by
  simp only [srcOk, List.isEmpty_cons, Bool.false_eq_true, if_false, Bool.and_eq_true] at h
  obtain ⟨⟨-, hmod⟩, hwide⟩ := h
  refine ⟨hmod, fun hw => ?_⟩
  rwa [hw, Bool.not_true, Bool.false_or] at hwide

/-- An opcode without NEG takes neither NEG nor ABS (R28, R107). -/
theorem plainSrc {sub : Bool} {x : Src} (h : srcModOk false sub x = true) : x.neg = false ∧ x.abs = false := by
  simp only [srcModOk, Bool.false_or, Bool.and_eq_true, Bool.not_eq_true'] at h
  exact h.1

/-- A single-source immediate leaves A zero (R29). -/
theorem singleImmediate {acc : Acc} {o : Alu} (h : aluOk acc o = true) (single : acc.single = true) {imm : Word} (hx : o.x = .i imm) : o.a = Src.zero := by
  obtain ⟨-, -, ha, -, -⟩ := aluOk_parts h
  simpa [aOk, hx, single] using ha

end Sys2Proof
end

section
/-! O4: shifts, rotates, bit logic, bit fields, counts and reversal (R110-R113). -/

namespace Sys2Proof.Machine

/-- The words of the bit instructions of form N or I, and of BFI's three sources. -/
theorem bitWord_variants {f : Fields} {i : Instr} (h : decodeFields f = .ok i) (wf : i.wf = true) :
    let op := f.op
    let v := f.var.toNat
    (op = 0x18 → v ≤ 1 ∧ ∃ o, i = .shl (if v = 0 then .asGiven else .wrap) o) ∧ (op = 0x19 → v ≤ 1 ∧ ∃ o, i = .shr (if v = 0 then .asGiven else .wrap) o) ∧
      (op = 0x1A → v ≤ 1 ∧ ∃ o, i = .sar (if v = 0 then .asGiven else .wrap) o) ∧ (op = 0x1B → v = 0 ∧ ∃ o, i = .rol .only o) ∧
      (op = 0x1C → v = 0 ∧ ∃ o, i = .and .only o) ∧ (op = 0x1D → v = 0 ∧ ∃ o, i = .or .only o) ∧ (op = 0x1E → v = 0 ∧ ∃ o, i = .xor .only o) ∧
      (op = 0x1F → v = 0 ∧ ∃ o, i = .andn .only o) ∧ (op = 0x20 → v ≤ 1 ∧ ∃ o, i = .bfe (if v = 0 then .u32 else .s32) o) ∧
      (op = 0x21 → v = 0 ∧ ∃ o, i = .bfi .only o ∧ ∃ b c, o.x = .c b c) := by
  have shift : ∀ {mk}, decVAlu tShiftV mk false f = .ok i → f.var.toNat ≤ 1 ∧ ∃ o, i = mk (if f.var.toNat = 0 then .asGiven else .wrap) o := fun hd => by
    obtain ⟨v, o, rfl, hv, -⟩ := decVAlu_ok hd
    obtain ⟨small, rfl⟩ := ofCode_shift hv
    exact ⟨small, o, rfl⟩
  have plain : ∀ {mk three}, decVAlu tOnly mk three f = .ok i → f.var.toNat = 0 ∧ ∃ o, i = mk .only o := fun hd => by
    obtain ⟨v, o, rfl, hv, -⟩ := decVAlu_ok hd
    obtain ⟨zero, rfl⟩ := ofCode_only hv
    exact ⟨zero, o, rfl⟩
  refine ⟨fun hop => ?_, fun hop => ?_, fun hop => ?_, fun hop => ?_, fun hop => ?_, fun hop => ?_, fun hop => ?_, fun hop => ?_, fun hop => ?_, fun hop => ?_⟩
  · exact shift ((decodeFields_at f 0x18 1 8 hop rfl rfl).symm.trans h)
  · exact shift ((decodeFields_at f 0x19 1 9 hop rfl rfl).symm.trans h)
  · exact shift ((decodeFields_at f 0x1A 1 10 hop rfl rfl).symm.trans h)
  · exact plain ((decodeFields_at f 0x1B 1 11 hop rfl rfl).symm.trans h)
  · exact plain ((decodeFields_at f 0x1C 1 12 hop rfl rfl).symm.trans h)
  · exact plain ((decodeFields_at f 0x1D 1 13 hop rfl rfl).symm.trans h)
  · exact plain ((decodeFields_at f 0x1E 1 14 hop rfl rfl).symm.trans h)
  · exact plain ((decodeFields_at f 0x1F 1 15 hop rfl rfl).symm.trans h)
  · obtain ⟨v, o, rfl, hv, -⟩ := decVAlu_ok ((decodeFields_at f 0x20 2 0 hop rfl rfl).symm.trans h)
    obtain ⟨small, rfl⟩ := ofCode_ext hv
    exact ⟨small, o, rfl⟩
  · obtain ⟨zero, o, rfl⟩ := plain ((decodeFields_at f 0x21 2 1 hop rfl rfl).symm.trans h)
    exact ⟨zero, o, rfl, threeSources wf rfl⟩

/-- The words of POPC, CLZ and BREV: their OP, VAR 0, and no A beside an immediate. -/
theorem countWord_form {f : Fields} {o : Alu} {i : Instr} (h : decodeFields f = .ok i) (wf : i.wf = true) (hi : i = .popc .only o ∨ i = .clz .only o ∨ i = .brev .only o) :
    f.var.toNat = 0 ∧ ((f.op = 0x22 ∧ i = .popc .only o) ∨ (f.op = 0x23 ∧ i = .clz .only o) ∨ (f.op = 0x24 ∧ i = .brev .only o)) ∧
      ∀ imm, o.x = .i imm → o.a = Src.zero := by
  have zero : ∀ {mk}, decVAlu tOnly mk false f = .ok i → f.var.toNat = 0 := fun hd => by
    obtain ⟨v, -, -, hv, -⟩ := decVAlu_ok hd
    exact (ofCode_only hv).1
  have opcode : ∀ {op}, i.opcode = some op → f.op = op := fun he => Option.some.inj ((decodeFields_opcode h).symm.trans he)
  obtain hi | hi | hi := hi
  · have hop : f.op = 0x22 := opcode (by rw [hi]; rfl)
    refine ⟨zero ((decodeFields_at f 0x22 2 2 hop rfl rfl).symm.trans h), .inl ⟨hop, hi⟩, fun imm hx => ?_⟩
    subst hi
    exact singleImmediate wf rfl hx
  · have hop : f.op = 0x23 := opcode (by rw [hi]; rfl)
    refine ⟨zero ((decodeFields_at f 0x23 2 3 hop rfl rfl).symm.trans h), .inr (.inl ⟨hop, hi⟩), fun imm hx => ?_⟩
    subst hi
    exact singleImmediate wf rfl hx
  · have hop : f.op = 0x24 := opcode (by rw [hi]; rfl)
    refine ⟨zero ((decodeFields_at f 0x24 2 4 hop rfl rfl).symm.trans h), .inr (.inr ⟨hop, hi⟩), fun imm hx => ?_⟩
    subst hi
    exact singleImmediate wf rfl hx

/-- Settles O4: the lane functions bit by bit, and the decoder's arms of the rows of R110-R113. -/
theorem shiftsAndBits : Obligations.ShiftsAndBits := by
  unfold Obligations.ShiftsAndBits
  refine ⟨fun s gid g o hi => ⟨fun ready => ?_, fun ready => ?_⟩, fun dcc w i h => ?_⟩
  · obtain ⟨band, bor, bxor, bandn⟩ := bitLogic_done hi ready
    refine ⟨shift_done hi ready, ?_, band, bor, bxor, bandn, fun v => ?_, ?_⟩
    · exact laneDone_of_alu hi ready rfl fun l _ => congrArg wordOut (laneRol_eq _ _)
    · exact laneDone_of_alu hi ready rfl fun l _ => congrArg wordOut (laneBfe_eq v _ _)
    · exact laneDone_of_alu hi ready rfl fun l _ => congrArg wordOut (laneBfi_eq _ _ _)
  · obtain ⟨popc, clz, brev⟩ := counts_done hi ready
    exact ⟨popc, clz, brev, fun imm hx l hl => in1_immediate .u32 hx l hl⟩
  · obtain ⟨fields, wf⟩ := decode_ok h
    obtain ⟨shl, shr, sar, rol, band, bor, bxor, bandn, bfe, bfi⟩ := bitWord_variants fields wf
    exact ⟨shl, shr, sar, rol, band, bor, bxor, bandn, bfe, bfi, fun o hi => countWord_form fields wf hi⟩

end Sys2Proof.Machine
end

section
/-! O5: comparison, selection, addresses, moves, byte permutation and byte dot products (R114-R121). -/

namespace Sys2Proof.Machine

/-- A source that every lane reads alike: a scalar, or a special register other than sr.laneid and sr.cnt (R39, R76). -/
def Src.Uniform (q : Src) : Prop := q.file = .scal ∨ q.file = .spec ∧ q.reg ≠ 0x01 ∧ q.reg ≠ 0x1F

theorem uniform_of_not_perLane {q : Src} (h : q.perLane = false) : Src.Uniform q := by
  have number : ∀ k : BitVec 10, q.reg.toNat ≠ k.toNat → q.reg ≠ k := fun k hk e => hk (congrArg _ e)
  unfold Src.Uniform
  cases hf : q.file with
  | vec => simp [Src.perLane, hf] at h
  | scal => exact .inl rfl
  | spec =>
    simp [Src.perLane, specialPerLane, hf] at h
    exact .inr ⟨rfl, number 0x01 h.1, number 0x1F h.2⟩

/-- A scalar SEL reads the constant predicate and uniform sources (R39, R115). -/
theorem sel_scalar {v : SelV} {o : Alu} (wf : (Instr.sel v o).wf = true) (scal : o.d.file = .scal) :
    v.k = 7 ∧ Src.Uniform o.a ∧ ∀ b p rm, o.x = .n b p rm → Src.Uniform b := by
  obtain ⟨ok, constant⟩ := Bool.and_eq_true_iff.mp wf
  obtain ⟨-, -, -, -, uniform⟩ := aluOk_parts ok
  have reads : readsLanes accBits o = false := by simpa [uniformOk, scal, accBits] using uniform
  have lanesOfA : o.a.perLane = false := by
    cases hx : o.x <;> simp_all [readsLanes, accBits, anySrc]
  refine ⟨by simpa [scal] using constant, uniform_of_not_perLane lanesOfA, fun b p rm hx => uniform_of_not_perLane ?_⟩
  simpa [readsLanes, accBits, anySrc, hx, lanesOfA] using reads

/-- LEA writes and reads even registers, and takes no modifier of A, no NEG or ABS of B and no clamp (R28, R107, R116). -/
theorem lea_accepts {v : LeaV} {o : Alu} (wf : (Instr.lea v o).wf = true) :
    o.d.clmp = .none ∧ o.d.reg.toNat % 2 = 0 ∧ o.a.reg.toNat % 2 = 0 ∧ o.a.neg = false ∧ o.a.abs = false ∧ o.a.sub = .whole ∧
      ∀ b p rm, o.x = .n b p rm → b.neg = false ∧ b.abs = false := by
  obtain ⟨reg, mods, a, form, -⟩ := aluOk_parts (acc := accLea) wf
  have pair : srcWideOk o.a = true := by
    unfold aOk at a
    split at a <;> exact (srcOk_parts a).2 rfl
  simp only [srcWideOk, even, Bool.and_eq_true, Bool.not_eq_true', beq_iff_eq] at pair
  obtain ⟨⟨⟨⟨-, ha⟩, hneg⟩, habs⟩, hsub⟩ := pair
  have evenD : o.d.reg.toNat % 2 = 0 := by
    simp only [dstRegOk, accLea, even, Bool.and_eq_true, Bool.not_true, Bool.false_or, beq_iff_eq] at reg
    exact reg.2
  refine ⟨(plainDst mods).1 rfl rfl, evenD, ha, hneg, habs, hsub, fun b p rm hx => ?_⟩
  simp only [formOk, hx, Bool.and_eq_true] at form
  exact plainSrc (srcOk_parts form.2).1

/-- Settles O5: the lane functions by the rules' own words, and what the words of SEL, LEA, PRMT and DP4 hold. -/
theorem compareSelectMove : Obligations.CompareSelectMove := by
  unfold Obligations.CompareSelectMove
  refine ⟨fun s gid g o hi => ⟨fun v ready => ?_, fun ready => ⟨fun v => ?_, ?_, fun v => ?_⟩, fun v ready => ?_, fun v ready => ?_, movls_done hi, fun ready => ?_,
    fun l hl => predMask_constant g l hl⟩, fun dcc w i h => ?_⟩
  · simp only [State.in32, ← icmpTypes_eq]
    exact laneDone_of_alu hi ready rfl fun l _ => congrArg (fun c => wordOut (truth c)) (laneIcmp_eq v _ _)
  · refine laneDone_of_alu hi ready rfl fun l _ => ?_
    rw [curGroup hi]
    rfl
  · exact laneDone_of_alu hi ready rfl fun l _ => congrArg wordOut (lanePrmt_eq _ _ _)
  · exact laneDone_of_alu hi ready rfl fun l _ => congrArg wordOut (laneDp4_eq v _ _ _)
  · exact laneDone_of_alu hi ready rfl fun l _ => congrArg (fun x => outOfWide (x, 0)) (laneLea_eq v _ _)
  · exact laneDone_of_alu hi ready rfl fun l _ => rfl
  · exact laneDone_of_alu hi ready rfl fun l _ => rfl
  · obtain ⟨fields, wf⟩ := decode_ok h
    refine ⟨fun hop => ?_, fun hop => ?_, fun hop => ?_, fun hop => ?_⟩
    · obtain ⟨o, rfl, -⟩ := decAnyAlu_ok ((decodeFields_at _ 0x26 2 6 hop rfl rfl).symm.trans fields)
      exact ⟨o, rfl, sel_scalar wf⟩
    · obtain ⟨o, rfl, -⟩ := decAnyAlu_ok ((decodeFields_at _ 0x27 2 7 hop rfl rfl).symm.trans fields)
      exact ⟨o, rfl, lea_accepts wf⟩
    · obtain ⟨v, o, rfl, hv, -⟩ := decVAlu_ok ((decodeFields_at _ 0x2C 2 12 hop rfl rfl).symm.trans fields)
      obtain ⟨zero, rfl⟩ := ofCode_only hv
      obtain ⟨b, c, hx⟩ := threeSources (acc := accThree) wf rfl
      exact ⟨BitVec.eq_of_toNat_eq zero, o, b, c, rfl, hx⟩
    · obtain ⟨v, o, rfl, hv, -⟩ := decVAlu_ok ((decodeFields_at _ 0x2D 2 13 hop rfl rfl).symm.trans fields)
      obtain ⟨small, rfl⟩ := ofCode_dp4 hv
      obtain ⟨b, c, hx⟩ := threeSources (acc := accThree) wf rfl
      obtain ⟨clmp, scl⟩ := plainDst (aluOk_parts (acc := accThree) wf).2.1
      exact ⟨small, o, b, c, rfl, hx, clmp rfl rfl, scl rfl⟩

end Sys2Proof.Machine
end

section
/-! SUPPORT. The order of the numbers of F32 by their bits, and R26's clamps of a word. -/

namespace Sys2Proof.Machine

/-! Magnitudes in units of the smallest subnormal number (R50). -/

/-- The units of 2^-149 in a magnitude. -/
def f32Units (x : Nat) : Nat := if x / 2 ^ 23 = 0 then x % 2 ^ 23 else (2 ^ 23 + x % 2 ^ 23) * 2 ^ (x / 2 ^ 23 - 1)

theorem f32Units_strictMono : StrictMono f32Units := by
  refine strictMono_nat_of_lt_succ fun x => ?_
  have hfr := Nat.mod_lt x (show 2 ^ 23 > 0 by decide)
  by_cases carry : x % 2 ^ 23 = 2 ^ 23 - 1
  · have hex : (x + 1) / 2 ^ 23 = x / 2 ^ 23 + 1 := by omega
    have hnew : (x + 1) % 2 ^ 23 = 0 := by omega
    simp only [f32Units, hex, hnew, carry, Nat.add_one_ne_zero, if_false, Nat.add_sub_cancel, Nat.add_zero]
    split
    · next h => rw [h]; decide
    · next h =>
      obtain ⟨k, hk⟩ := Nat.exists_eq_succ_of_ne_zero h
      have hp := Nat.two_pow_pos k
      rw [hk, Nat.succ_sub_one, Nat.pow_succ 2 k]
      omega
  · have hex : (x + 1) / 2 ^ 23 = x / 2 ^ 23 := by omega
    have hnew : (x + 1) % 2 ^ 23 = x % 2 ^ 23 + 1 := by omega
    simp only [f32Units, hex, hnew]
    split
    · exact Nat.lt_succ_self _
    · exact Nat.mul_lt_mul_of_pos_right (Nat.lt_succ_self _) (Nat.two_pow_pos _)

theorem f32_val_units {w : Word} (h : f32Finite w) : (f32 w).val = ratOf w.msb (f32Units (f32Mag w)) (-149) := by
  rw [f32_of_finite h, f32Units]
  split
  · rfl
  · rw [fin_val, ratOf, ratOf, zpow_add₀ two_ne_zero, zpow_natCast]
    push_cast
    ring

/-- A key of the order in units, its sign kept. -/
def keyUnits (k : Int) : Int := if k < 0 then -(f32Units k.natAbs : Int) else f32Units k.natAbs

theorem keyUnits_strictMono : StrictMono keyUnits := by
  intro x y h
  have mono : ∀ {m n : Nat}, m < n → (f32Units m : Int) < f32Units n := fun h => by exact_mod_cast f32Units_strictMono h
  unfold keyUnits
  split
  · next hx =>
    split
    · have := mono (show y.natAbs < x.natAbs by omega)
      omega
    · have := mono (show 0 < x.natAbs by omega)
      omega
  · rw [if_neg (by omega)]
    exact mono (by omega)

theorem f32_val_key {w : Word} (h : f32Finite w) : (f32 w).val = (keyUnits (f32Key w) : Int) * 2 ^ (-149 : Int) := by
  rw [f32_val_units h, keyUnits, f32Key, ratOf]
  cases hs : w.msb
  · rw [if_neg Bool.false_ne_true, if_neg Bool.false_ne_true, if_neg (by omega), Int.natAbs_natCast]
    simp
  · rw [if_pos rfl, if_pos rfl, Int.natAbs_neg, Int.natAbs_natCast]
    split
    · push_cast
      ring
    · next h0 =>
      rw [show f32Mag w = 0 by omega, show f32Units 0 = 0 from rfl]
      simp

theorem f32_val_lt {a b : Word} (ha : f32Finite a) (hb : f32Finite b) : (f32 a).val < (f32 b).val ↔ f32Key a < f32Key b := by
  rw [f32_val_key ha, f32_val_key hb, mul_lt_mul_iff_left₀ (by positivity), Int.cast_lt, keyUnits_strictMono.lt_iff_lt]

theorem f32Key_bounds {w : Word} (h : f32Finite w) : -0x7F800000 < f32Key w ∧ f32Key w < 0x7F800000 := by
  unfold f32Key
  split <;> omega

theorem f32Key_inf {w : Word} (h : f32IsInf w) : f32Key w = if w.msb then -0x7F800000 else 0x7F800000 := by
  unfold f32Key
  rw [h]
  rfl

/-! Comparison (R123, R124). -/

/-- Words that are no NaN are compared by their keys. -/
theorem fLt_key {a b : Word} (ha : ¬f32IsNan a) (hb : ¬f32IsNan b) : fLt (f32 a) (f32 b) = decide (f32Key a < f32Key b) := by
  by_cases fa : f32Finite a <;> by_cases fb : f32Finite b
  · rw [fLt_num (f32_Fin fa) (f32_Fin fb)]
    exact decide_eq_decide.mpr (f32_val_lt fa fb)
  · have ib : f32IsInf b := by omega
    obtain ⟨n, m, e, hd⟩ := f32_Fin fa
    have := f32Key_bounds fa
    rw [f32_of_inf ib, hd, fLt, f32Key_inf ib]
    cases b.msb <;> simp <;> omega
  · have ia : f32IsInf a := by omega
    obtain ⟨n, m, e, hd⟩ := f32_Fin fb
    have := f32Key_bounds fb
    rw [f32_of_inf ia, hd, fLt, f32Key_inf ia]
    cases a.msb <;> simp <;> omega
  · have ia : f32IsInf a := by omega
    have ib : f32IsInf b := by omega
    rw [f32_of_inf ia, f32_of_inf ib, fLt, f32Key_inf ia, f32Key_inf ib]
    cases a.msb <;> cases b.msb <;> rfl

theorem f32_not_nan {w : Word} (h : ¬f32IsNan w) : (f32 w).isNan = false := by
  cases hn : (f32 w).isNan
  · rfl
  · exact absurd ((f32_isNan w).mp hn) h

theorem fEq_key {a b : Word} (ha : ¬f32IsNan a) (hb : ¬f32IsNan b) : fEq (f32 a) (f32 b) = decide (f32Key a = f32Key b) := by
  rw [fEq, f32_not_nan ha, f32_not_nan hb, fLt_key ha hb, fLt_key hb ha, Bool.eq_iff_iff]
  simp
  omega

theorem minLt_key {a b : Word} (ha : ¬f32IsNan a) (hb : ¬f32IsNan b) : minLt (f32 a) (f32 b) = decide (f32MinKey a < f32MinKey b) := by
  rw [minLt, fLt_key ha hb, fEq_key ha hb, f32_sgn ha, f32_sgn hb, Bool.eq_iff_iff]
  unfold f32Key f32MinKey
  cases a.msb <;> cases b.msb <;> simp <;> omega

/-! Clamps (R26). -/

/-- Comparison goes by the values of numbers. -/
theorem fLt_congr {v v' : FVal} (hv : v.Fin) (hv' : v'.Fin) (same : v.val = v'.val) (w : FVal) : fLt v w = fLt v' w ∧ fLt w v = fLt w v' := by
  cases w with
  | fin n m e =>
    rw [fLt_num hv (fin_Fin ..), fLt_num hv' (fin_Fin ..), fLt_num (fin_Fin ..) hv, fLt_num (fin_Fin ..) hv', same]
    exact ⟨rfl, rfl⟩
  | _ =>
    obtain ⟨n, m, e, rfl⟩ := hv
    obtain ⟨n', m', e', rfl⟩ := hv'
    exact ⟨rfl, rfl⟩

/-- A number is compared with a word as a word of its value is. -/
theorem fLt_key_of_val {a w : Word} {v : FVal} (ha : ¬f32IsNan a) (hw : f32Finite w) (hv : v.Fin) (same : v.val = f32Val w) :
    fLt (f32 a) v = decide (f32Key a < f32Key w) ∧ fLt v (f32 a) = decide (f32Key w < f32Key a) := by
  obtain ⟨left, right⟩ := fLt_congr hv (f32_Fin hw) (same.trans (f32Val_eq hw)) (f32 a)
  exact ⟨right.trans (fLt_key ha (by omega)), left.trans (fLt_key (by omega) ha)⟩

section
variable {w : Word} (hn : ¬f32IsNan w)
include hn

theorem below_zero : fLt (f32 w) .zero = decide (f32Key w < 0) :=
  (fLt_key_of_val (w := 0) hn (by decide) (fin_Fin ..) (by rw [(f32Val_eq_zero (by decide)).mpr (by decide)]; simp [ratOf_zero])).1

theorem above_one : fLt .one (f32 w) = decide (f32Key w > 0x3F800000) := by
  obtain ⟨hf, hv⟩ := f32Val_one false
  exact (fLt_key_of_val hn hf one_num.1 (one_num.2.trans hv.symm)).2

theorem below_minusOne : fLt (f32 w) (.fin true 1 0) = decide (f32Key w < -0x3F800000) := by
  obtain ⟨hf, hv⟩ := f32Val_one true
  exact (fLt_key_of_val hn hf (fin_Fin ..) (Eq.trans (by simp [ratOf]) hv.symm)).1

end

theorem encode_one : (encodeF fmtF32 .rne (.fin false 1 0)).1 = 0x3F800000 ∧ (encodeF fmtF32 .rne (.fin true 1 0)).1 = 0xBF800000 := by decide

theorem maxBits_word (n : Bool) : BitVec.ofNat 32 (fmtF32.maxBits n) = f32Of n 0x7F7FFFFF := by cases n <;> rfl

/-- A pattern and its flags as a word. -/
def toWord (r : Nat × Flags) : Word × Flags := (BitVec.ofNat 32 r.1, r.2)

theorem toWord_toNat (w : Word) (fl : Flags) : toWord (w.toNat, fl) = (w, fl) := by rw [toWord, ofNat_toNat]

theorem isInf_word (w : Word) : (f32 w).isInf = true ↔ f32IsInf w := by
  obtain h | h | h := f32IsNan_or_inf_or_finite w
  · rw [f32_of_nan h]
    simp [FVal.isInf]
    omega
  · rw [f32_of_inf h]
    exact ⟨fun _ => h, fun _ => rfl⟩
  · rw [isInf_num (f32_Fin h)]
    simp
    omega

/-- The clamp of a pattern is R26's of its word. -/
theorem clampF_word (c : Clamp) (w : Word) : toWord (clampF fmtF32 c w.toNat) = F32Clamp c w := by
  have pattern : decodeF fmtF32 w.toNat = f32 w := rfl
  obtain ⟨one, minusOne⟩ := encode_one
  obtain hn | hn := em (f32IsNan w)
  · have nan : decide (0x7F800000 < f32Mag w) = true := decide_eq_true hn
    have inf : ¬f32Mag w = 0x7F800000 := by omega
    simp only [clampF, F32Clamp, pattern, f32_of_nan hn, nan, if_neg inf]
    cases c with
    | none | sat => exact toWord_toNat w 0
    | unit | sym => rfl
  · have nan : decide (0x7F800000 < f32Mag w) = false := decide_eq_false hn
    simp only [clampF, F32Clamp, pattern, f32_not_nan hn, nan, below_zero hn, above_one hn, below_minusOne hn, one, minusOne, Bool.false_or, decide_eq_true_eq,
      Bool.false_eq_true, if_false, isInf_word, f32_sgn hn]
    cases c with
    | none => exact toWord_toNat w 0
    | unit => simp only [apply_ite toWord, toWord_toNat]; rfl
    | sym => simp only [apply_ite toWord, toWord_toNat]; rfl
    | sat =>
      simp only [apply_ite toWord, toWord_toNat]
      rw [toWord, maxBits_word]

end Sys2Proof.Machine
end

section
/-! SUPPORT. How the F32 operations end (R24, R26): a result before the clamp, and the clamp on it. -/

namespace Sys2Proof.Machine

/-! One rounding of a value (R60). -/

theorem encodeF_rounds (f : Fmt) (rm : Rm) {v : FVal} (hv : v.Fin) : RoundsOnce f rm v.val (encodeF f rm v).1 (encodeF f rm v).2 := by
  obtain ⟨n, m, e, rfl⟩ := hv
  exact ⟨n, m, e, rfl, rfl, rfl⟩

theorem encode32_toNat (rm : Rm) (v : FVal) : (BitVec.ofNat 32 (encodeF fmtF32 rm v).1).toNat = (encodeF fmtF32 rm v).1 := by
  rw [BitVec.toNat_ofNat, Nat.mod_eq_of_lt (canonical_encodeF rm v).1]

/-- A word that is no NaN but the canonical one is the rounding of its value. -/
theorem encode_f32 (rm : Rm) {w : Word} (h : CanonicalNan w) : encodeF fmtF32 rm (f32 w) = (w.toNat, 0) := by
  obtain hw | hw | hw := f32IsNan_or_inf_or_finite w
  · rw [f32_of_nan hw, h hw]
    rfl
  · have inf : f32Of w.msb 0x7F800000 = w := by rw [← hw, f32Of_msb_mag]
    rw [f32_of_inf hw, encodeF, if_neg (by decide), ← inf, msb_f32Of _ (by decide), f32Of_toNat _ (by decide)]
    cases w.msb <;> rfl
  · by_cases hz : f32IsZero w
    · have zero : f32Of w.msb 0 = w := by rw [← show f32Mag w = 0 from hz, f32Of_msb_mag]
      rw [f32_of_zero hz, encodeF, roundF_zero, ← zero, msb_f32Of _ (by decide), f32Of_toNat _ (by decide)]
      cases w.msb <;> rfl
    · have val := f32Val_eq hw
      exact encode32_of_val rm (f32_Fin hw) hw (val ▸ fun h0 => hz ((f32Val_eq_zero hw).mp h0)) val.symm

/-! Ends. -/

/-- A result of the pattern and flags r before the clamp (R26). -/
def Ended (d : Dst) (r : Nat × Flags) (x : Word × Flags) : Prop := x = finishSpecial d r.1 r.2

/-- A result without a clamp. -/
theorem ended_plain {d : Dst} (hd : d.clmp = .none) {r : Nat × Flags} {x : Word × Flags} (h : Ended d r x) : x = toWord r := by
  rw [h, finishSpecial, hd]
  exact Prod.ext rfl (BitVec.or_zero ..)

/-- The clamp acts on the unclamped result by R26's table. -/
theorem ended_clamped (d : Dst) {r : Nat × Flags} {x y : Word × Flags} (hr : r.1 < 2 ^ 32) (h : Ended d r x) (plain : y = toWord r) :
    x = ((F32Clamp d.clmp y.1).1, y.2 ||| (F32Clamp d.clmp y.1).2) := by
  have word : (toWord r).1.toNat = r.1 := by rw [toWord, BitVec.toNat_ofNat, Nat.mod_eq_of_lt hr]
  rw [h, plain, ← clampF_word, word]
  rfl

/-- The pattern and flags of FADD, FMUL and FFMA before the clamp: one rounding of the value times 2^SCL, INV for a NaN (R122). -/
def scaledInv (rm : Rm) (scl : BitVec 3) (v : FVal) : Nat × Flags :=
  ((encodeF fmtF32 rm (v.scale (sclOf scl))).1, (encodeF fmtF32 rm (v.scale (sclOf scl))).2 ||| flagIf v.isNan flInv)

theorem or_swap_last (x y z : Flags) : x ||| y ||| z = x ||| z ||| y := by rw [BitVec.or_assoc, BitVec.or_comm y, BitVec.or_assoc]

theorem finishInv_ended (rm : Rm) (d : Dst) (v : FVal) : Ended d (scaledInv rm d.scl v) (toWord (finishInv fmtF32 rm d v)) :=
  Prod.ext rfl (or_swap_last ..)

theorem finishF_ended (rm : Rm) (d : Dst) (v : FVal) : Ended d (encodeF fmtF32 rm (v.scale (sclOf d.scl))) (toWord (finishF fmtF32 rm d v)) := rfl

/-- The clamp of a pattern with no flag of its own. -/
theorem clampF_ended (d : Dst) (b : Nat) : Ended d (b, 0) (toWord (clampF fmtF32 d.clmp b)) := by
  refine Prod.ext rfl ?_
  exact (BitVec.zero_or ..).symm

section
variable (rm : Rm) (scl : BitVec 3)

theorem scaledInv_num {v : FVal} (hv : v.Fin) :
    scaledInv rm scl v = encodeF fmtF32 rm (v.scale (sclOf scl)) ∧ RoundsOnce fmtF32 rm (v.val * (2 : ℚ) ^ scl.toInt) (scaledInv rm scl v).1 (scaledInv rm scl v).2 := by
  have plain : scaledInv rm scl v = encodeF fmtF32 rm (v.scale (sclOf scl)) := by
    rw [scaledInv, isNan_num hv]
    exact Prod.ext rfl (BitVec.or_zero ..)
  obtain ⟨fin, val⟩ := scale_num hv (sclOf scl)
  refine ⟨plain, ?_⟩
  have := encodeF_rounds fmtF32 rm fin
  rwa [val, ← plain] at this

theorem scaledInv_nan : toWord (scaledInv rm scl .nan) = (canon, flInv) := Prod.ext rfl (BitVec.zero_or ..)

theorem scaledInv_inf (n : Bool) : toWord (scaledInv rm scl (.inf n)) = (f32Of n 0x7F800000, 0) := Prod.ext (infBits_word n) (BitVec.zero_or ..)

theorem scaledInv_zero (n : Bool) (e : Int) : toWord (scaledInv rm scl (.fin n 0 e)) = (f32Of n 0, 0) := Prod.ext (sign_word n) (BitVec.zero_or ..)

end

/-! Sums and products (R122). -/

theorem exMul_num {a b : FVal} (ha : a.Fin) (hb : b.Fin) : (exMul a b).Fin ∧ (exMul a b).val = a.val * b.val := by
  obtain ⟨n, m, e, rfl⟩ := ha
  obtain ⟨n', m', e', rfl⟩ := hb
  refine ⟨fin_Fin .., ?_⟩
  rw [exMul, fin_val, fin_val, fin_val, ratOf, ratOf, ratOf, zpow_add₀ two_ne_zero]
  push_cast
  cases n <;> cases n' <;> simp <;> ring

/-- Numbers that cancel, and zeros. -/
theorem exAdd_cancel {rm : Rm} {n n' : Bool} {m m' : Nat} {e e' : Int} (h : ratOf n m e + ratOf n' m' e' = 0) :
    exAdd rm (.fin n m e) (.fin n' m' e') = .fin (if m = 0 ∧ n = n' then n else rm == .rd) 0 0 := by
  by_cases hm : m = 0
  · obtain rfl : m' = 0 := by
      rw [hm, ratOf_zero, zero_add] at h
      exact ratOf_eq_zero.mp h
    subst hm
    cases n <;> cases n' <;> rfl
  · have hq : (0 : ℚ) < 2 ^ min e e' := by positivity
    have hv : sig n m e (min e e') + sig n' m' e' (min e e') = 0 := by
      rw [← sig_value n m (min_le_left e e'), ← sig_value n' m' (min_le_right e e'), ← add_mul, ← Int.cast_add] at h
      exact_mod_cast (mul_eq_zero.mp h).resolve_right hq.ne'
    simp [exAdd, hm, hv]

theorem exAdd_nan_right (rm : Rm) (a : FVal) : exAdd rm a .nan = .nan := by cases a <;> rfl
theorem exAdd_inf_fin (rm : Rm) (n : Bool) {b : FVal} (hb : b.Fin) : exAdd rm (.inf n) b = .inf n ∧ exAdd rm b (.inf n) = .inf n := by
  obtain ⟨_, _, _, rfl⟩ := hb
  exact ⟨rfl, rfl⟩
theorem exAdd_inf_same (rm : Rm) (n : Bool) : exAdd rm (.inf n) (.inf n) = .inf n := by cases n <;> rfl
theorem exAdd_inf_opposite (rm : Rm) {n n' : Bool} (h : n ≠ n') : exAdd rm (.inf n) (.inf n') = .nan := by
  rw [exAdd, if_neg (by simpa using h)]

theorem exMul_nan_right (a : FVal) : exMul a .nan = .nan := by cases a <;> rfl

end Sys2Proof.Machine
end

section
/-! SUPPORT. The values of FADD, FMUL and FFMA in F32 (R122). -/

namespace Sys2Proof.Machine

theorem f32_number {a : Word} (h : f32Finite a) : ∃ m e, f32 a = .fin a.msb m e ∧ (m = 0 ↔ f32IsZero a) := by
  by_cases hz : f32IsZero a
  · exact ⟨0, -149, f32_of_zero hz, iff_of_true rfl hz⟩
  · obtain ⟨m, e, hd, hm⟩ := f32_of_nonzero h hz
    exact ⟨m, e, hd, iff_of_false hm hz⟩

theorem zero_word {a : Word} (h : f32IsZero a) : f32Of a.msb 0 = a := by rw [← show f32Mag a = 0 from h, f32Of_msb_mag]
theorem inf_word {a : Word} (h : f32IsInf a) : f32Of a.msb 0x7F800000 = a := by rw [← show f32Mag a = 0x7F800000 from h, f32Of_msb_mag]

theorem scaledInv_rounds (rm : Rm) (scl : BitVec 3) {v : FVal} (hv : v.Fin) {x : ℚ} (hx : v.val = x) :
    RoundsOnce fmtF32 rm (x * (2 : ℚ) ^ scl.toInt) (toWord (scaledInv rm scl v)).1.toNat (toWord (scaledInv rm scl v)).2 := by
  obtain ⟨-, rounds⟩ := scaledInv_num rm scl hv
  rwa [toWord, scaledInv, encode32_toNat, ← hx]

section
variable {rm : Rm} {d : Dst} (hd : d.clmp = .none) {a b c : Word}
include hd

theorem laneFadd_eq : laneFadd .f32 rm d a b = toWord (scaledInv rm d.scl (exAdd rm (f32 a) (f32 b))) := ended_plain hd (finishInv_ended ..)
theorem laneFmul_eq : laneFmul .f32 rm d a b = toWord (scaledInv rm d.scl (exMul (f32 a) (f32 b))) := ended_plain hd (finishInv_ended ..)
theorem laneFfma_eq : laneFfma .f32 d a b c = toWord (scaledInv .rne d.scl (exAdd .rne (exMul (f32 a) (f32 b)) (f32 c))) := ended_plain hd (finishInv_ended ..)

/-! Sums. -/

theorem laneFadd_rounds (ha : f32Finite a) (hb : f32Finite b) :
    RoundsOnce fmtF32 rm ((f32Val a + f32Val b) * (2 : ℚ) ^ d.scl.toInt) (laneFadd .f32 rm d a b).1.toNat (laneFadd .f32 rm d a b).2 := by
  obtain ⟨fin, val⟩ := exAdd_num rm (f32_Fin ha) (f32_Fin hb)
  rw [laneFadd_eq hd]
  exact scaledInv_rounds rm d.scl fin (by rw [val, f32Val_eq ha, f32Val_eq hb])

theorem laneFadd_cancel (ha : f32Finite a) (hb : f32Finite b) (h : f32Val a + f32Val b = 0) :
    laneFadd .f32 rm d a b = (if f32IsZero a ∧ (a.msb != b.msb) = false then a else f32Of (rm == .rd) 0, 0) := by
  obtain ⟨m, e, da, za⟩ := f32_number ha
  obtain ⟨m', e', db, -⟩ := f32_number hb
  rw [f32Val_eq ha, f32Val_eq hb, da, db] at h
  rw [laneFadd_eq hd, da, db, exAdd_cancel h, scaledInv_zero]
  by_cases same : f32IsZero a ∧ a.msb = b.msb
  · rw [if_pos ⟨za.mpr same.1, same.2⟩, if_pos ⟨same.1, by simp [same.2]⟩, zero_word same.1]
  · rw [if_neg (by rwa [za]), if_neg (by simpa using same)]

theorem laneFadd_invalid (h : f32IsNan a ∨ f32IsNan b ∨ f32IsInf a ∧ f32IsInf b ∧ (a.msb != b.msb) = true) : laneFadd .f32 rm d a b = (canon, flInv) := by
  have nan : exAdd rm (f32 a) (f32 b) = .nan := by
    obtain h | h | ⟨ia, ib, h⟩ := h
    · rw [f32_of_nan h]; rfl
    · rw [f32_of_nan h, exAdd_nan_right]
    · rw [f32_of_inf ia, f32_of_inf ib, exAdd_inf_opposite rm (by simpa using h)]
  rw [laneFadd_eq hd, nan, scaledInv_nan]

theorem laneFadd_inf (ha : f32IsInf a) (hb : f32Finite b ∨ b = a) : laneFadd .f32 rm d a b = (a, 0) ∧ laneFadd .f32 rm d b a = (a, 0) := by
  have inf : exAdd rm (f32 a) (f32 b) = .inf a.msb ∧ exAdd rm (f32 b) (f32 a) = .inf a.msb := by
    rw [f32_of_inf ha]
    obtain hb | rfl := hb
    · exact exAdd_inf_fin rm a.msb (f32_Fin hb)
    · rw [f32_of_inf ha, exAdd_inf_same]
      exact ⟨rfl, rfl⟩
  rw [laneFadd_eq hd, laneFadd_eq hd, inf.1, inf.2, scaledInv_inf, inf_word ha]
  exact ⟨rfl, rfl⟩

/-! Products. -/

theorem laneFmul_rounds (ha : f32Finite a) (hb : f32Finite b) :
    RoundsOnce fmtF32 rm (f32Val a * f32Val b * (2 : ℚ) ^ d.scl.toInt) (laneFmul .f32 rm d a b).1.toNat (laneFmul .f32 rm d a b).2 := by
  obtain ⟨fin, val⟩ := exMul_num (f32_Fin ha) (f32_Fin hb)
  rw [laneFmul_eq hd]
  exact scaledInv_rounds rm d.scl fin (by rw [val, f32Val_eq ha, f32Val_eq hb])

theorem laneFmul_zero (ha : f32Finite a) (hb : f32Finite b) (h : f32IsZero a ∨ f32IsZero b) : laneFmul .f32 rm d a b = (f32Of (a.msb != b.msb) 0, 0) := by
  obtain ⟨m, e, da, za⟩ := f32_number ha
  obtain ⟨m', e', db, zb⟩ := f32_number hb
  have zero : m * m' = 0 := Nat.mul_eq_zero.mpr (h.imp za.mpr zb.mpr)
  rw [laneFmul_eq hd, da, db, exMul, zero, scaledInv_zero]

omit hd

/-- The operands whose product is no number (R122). -/
abbrev NoProduct (a b : Word) : Prop := f32IsNan a ∨ f32IsNan b ∨ f32IsZero a ∧ f32IsInf b ∨ f32IsInf a ∧ f32IsZero b

theorem exMul_invalid (h : NoProduct a b) : exMul (f32 a) (f32 b) = .nan := by
  obtain h | h | ⟨ha, hb⟩ | ⟨ha, hb⟩ := h
  · rw [f32_of_nan h]; rfl
  · rw [f32_of_nan h, exMul_nan_right]
  · rw [f32_of_zero ha, f32_of_inf hb]; rfl
  · rw [f32_of_inf ha, f32_of_zero hb]; rfl

theorem exMul_inf (h : ¬NoProduct a b) (inf : f32IsInf a ∨ f32IsInf b) : exMul (f32 a) (f32 b) = .inf (a.msb != b.msb) := by
  by_cases ha : f32Finite a
  · have hb : f32IsInf b := by omega
    obtain ⟨m, e, da, hm⟩ := f32_of_nonzero ha (by omega)
    rw [da, f32_of_inf hb, exMul, if_neg hm]
  · have ia : f32IsInf a := by omega
    by_cases hb : f32Finite b
    · obtain ⟨m, e, db, hm⟩ := f32_of_nonzero hb (by omega)
      rw [f32_of_inf ia, db, exMul, if_neg hm]
    · rw [f32_of_inf ia, f32_of_inf (show f32IsInf b by omega), exMul]

include hd

theorem laneFmul_invalid (h : NoProduct a b) : laneFmul .f32 rm d a b = (canon, flInv) := by rw [laneFmul_eq hd, exMul_invalid h, scaledInv_nan]

theorem laneFmul_inf (h : ¬NoProduct a b) (inf : f32IsInf a ∨ f32IsInf b) : laneFmul .f32 rm d a b = (f32Of (a.msb != b.msb) 0x7F800000, 0) := by
  rw [laneFmul_eq hd, exMul_inf h inf, scaledInv_inf]

/-- A product by 1.0 is the other operand. -/
theorem laneFmul_one (hn : ¬f32IsNan a) (scl : d.scl = 0) : laneFmul .f32 rm d a 0x3F800000 = (a, 0) := by
  have one : f32 0x3F800000 = .fin false (2 ^ 23) (-23) := by decide
  have plus : (0x3F800000 : Word).msb = false := by decide
  have mag : f32Mag 0x3F800000 = 0x3F800000 := by decide
  by_cases inf : f32IsInf a
  · rw [laneFmul_inf hd (by omega) (.inl inf), plus, Bool.bne_false, inf_word inf]
  · have fin : f32Finite a := by omega
    by_cases zero : f32IsZero a
    · rw [laneFmul_zero hd fin (by decide) (.inl zero), plus, Bool.bne_false, zero_word zero]
    · obtain ⟨num, val⟩ := exMul_num (f32_Fin fin) (show (f32 0x3F800000).Fin from one ▸ fin_Fin ..)
      have same : (exMul (f32 a) (f32 0x3F800000)).val = f32Val a := by
        rw [val, one, f32Val_eq fin, fin_val, ratOf]
        norm_num
      have nonzero : f32Val a ≠ 0 := fun h => zero ((f32Val_eq_zero fin).mp h)
      rw [laneFmul_eq hd, (scaledInv_num rm d.scl num).1, scl, show sclOf 0 = 0 from rfl, scale_zero,
        encode32_of_val rm num fin (same ▸ nonzero) same, toWord_toNat]

/-! Fused products and sums. -/

theorem laneFfma_rounds (ha : f32Finite a) (hb : f32Finite b) (hc : f32Finite c) :
    RoundsOnce fmtF32 .rne ((f32Val a * f32Val b + f32Val c) * (2 : ℚ) ^ d.scl.toInt) (laneFfma .f32 d a b c).1.toNat (laneFfma .f32 d a b c).2 := by
  obtain ⟨mul, prod⟩ := exMul_num (f32_Fin ha) (f32_Fin hb)
  obtain ⟨add, sum⟩ := exAdd_num .rne mul (f32_Fin hc)
  rw [laneFfma_eq hd]
  exact scaledInv_rounds .rne d.scl add (by rw [sum, prod, f32Val_eq ha, f32Val_eq hb, f32Val_eq hc])

theorem laneFfma_invalid (h : NoProduct a b ∨ f32IsNan c ∨ (f32IsInf a ∨ f32IsInf b) ∧ f32IsInf c ∧ c.msb ≠ (a.msb != b.msb)) :
    laneFfma .f32 d a b c = (canon, flInv) := by
  have nan : exAdd .rne (exMul (f32 a) (f32 b)) (f32 c) = .nan := by
    by_cases bad : NoProduct a b
    · rw [exMul_invalid bad]; rfl
    · obtain h | hc | ⟨inf, ic, ne⟩ := h
      · exact absurd h bad
      · rw [f32_of_nan hc, exAdd_nan_right]
      · rw [exMul_inf bad inf, f32_of_inf ic, exAdd_inf_opposite .rne ne.symm]
  rw [laneFfma_eq hd, nan, scaledInv_nan]

theorem laneFfma_product_inf (h : ¬NoProduct a b) (inf : f32IsInf a ∨ f32IsInf b) (hc : f32Finite c ∨ f32IsInf c ∧ c.msb = (a.msb != b.msb)) :
    laneFfma .f32 d a b c = (f32Of (a.msb != b.msb) 0x7F800000, 0) := by
  have sum : exAdd .rne (exMul (f32 a) (f32 b)) (f32 c) = .inf (a.msb != b.msb) := by
    rw [exMul_inf h inf]
    obtain hc | ⟨ic, same⟩ := hc
    · exact (exAdd_inf_fin .rne _ (f32_Fin hc)).1
    · rw [f32_of_inf ic, same, exAdd_inf_same]
  rw [laneFfma_eq hd, sum, scaledInv_inf]

theorem laneFfma_addend_inf (ha : f32Finite a) (hb : f32Finite b) (hc : f32IsInf c) : laneFfma .f32 d a b c = (c, 0) := by
  obtain ⟨mul, -⟩ := exMul_num (f32_Fin ha) (f32_Fin hb)
  rw [laneFfma_eq hd, f32_of_inf hc, (exAdd_inf_fin .rne _ mul).2, scaledInv_inf, inf_word hc]

end

end Sys2Proof.Machine
end

section
/-! SUPPORT. The values of FMIN, FMAX, FCMP, FRND and FLDEXP in F32 (R123-R125). -/

namespace Sys2Proof.Machine

/-! The smaller and the greater number (R123). -/

theorem minmax_eq (isMax : Bool) (a b : Word) : minmax fmtF32 isMax a.toNat b.toNat =
    if (f32 a).isNan then (if (f32 b).isNan then fmtF32.nan else b.toNat) else if (f32 b).isNan then a.toNat
    else if isMax then (if minLt (f32 a) (f32 b) then b.toNat else a.toNat) else (if minLt (f32 b) (f32 a) then b.toNat else a.toNat) := rfl

/-- The number of the two words that R123 takes, a NaN only when both are. -/
def pickWord (takeB : Prop) [Decidable takeB] (a b : Word) : Word :=
  if f32IsNan a then (if f32IsNan b then canon else b) else if f32IsNan b then a else if takeB then b else a

theorem minmax_word (a b : Word) : toWord (minmax fmtF32 false a.toNat b.toNat, 0) = (pickWord (f32MinKey b < f32MinKey a) a b, 0) ∧
    toWord (minmax fmtF32 true a.toNat b.toNat, 0) = (pickWord (f32MinKey a < f32MinKey b) a b, 0) := by
  rw [minmax_eq, minmax_eq, pickWord, pickWord]
  by_cases ha : f32IsNan a
  · by_cases hb : f32IsNan b
    · simp [(f32_isNan _).mpr ha, (f32_isNan _).mpr hb, ha, hb, toWord, canon, Fmt.nan, fmtF32, Fmt.eMax]
    · simp [(f32_isNan _).mpr ha, f32_not_nan hb, ha, hb, toWord]
  · by_cases hb : f32IsNan b
    · simp [f32_not_nan ha, (f32_isNan _).mpr hb, ha, hb, toWord]
    · simp [f32_not_nan ha, f32_not_nan hb, ha, hb, toWord, minLt_key ha hb, minLt_key hb ha, apply_ite (BitVec.ofNat 32)]

theorem laneFminmax_ended (isMax : Bool) (d : Dst) (a b : Word) : Ended d (minmax fmtF32 isMax a.toNat b.toNat, 0) (laneFminmax .f32 isMax d a b) := clampF_ended ..

theorem laneFminmax_eq {d : Dst} (hd : d.clmp = .none) (a b : Word) : laneFminmax .f32 false d a b = (pickWord (f32MinKey b < f32MinKey a) a b, 0) ∧
    laneFminmax .f32 true d a b = (pickWord (f32MinKey a < f32MinKey b) a b, 0) := by
  rw [ended_plain hd (laneFminmax_ended ..), ended_plain hd (laneFminmax_ended ..)]
  exact minmax_word a b

/-! Comparison (R124). -/

/-- What a condition of R124 says of two words. -/
def fcondHolds (v : FCond) (a b : Word) : Prop :=
  let num := ¬f32IsNan a ∧ ¬f32IsNan b
  match v with
  | .eq => num ∧ f32Key a = f32Key b
  | .ne => ¬(num ∧ f32Key a = f32Key b)
  | .lt => num ∧ f32Key a < f32Key b
  | .le => num ∧ f32Key a ≤ f32Key b
  | .gt => num ∧ f32Key a > f32Key b
  | .ge => num ∧ f32Key a ≥ f32Key b
  | .num => num
  | .nan => ¬num

theorem fLt_nan {x y : FVal} (h : x.isNan = true ∨ y.isNan = true) : fLt x y = false := by
  cases x <;> cases y <;> simp_all [FVal.isNan, fLt]

theorem laneFcmp_iff (v : FCond) (a b : Word) : laneFcmp v a b = true ↔ fcondHolds v a b := by
  by_cases num : ¬f32IsNan a ∧ ¬f32IsNan b
  · obtain ⟨ha, hb⟩ := num
    simp only [laneFcmp, fcondHolds, fEq_key ha hb, fLt_key ha hb, fLt_key hb ha, f32_not_nan ha, f32_not_nan hb]
    cases v <;> simp [ha, hb]
  · have nan : ((f32 a).isNan || (f32 b).isNan) = true := by
      rw [Bool.or_eq_true, f32_isNan, f32_isNan]
      tauto
    have either := Bool.or_eq_true_iff.mp nan
    have ne : fEq (f32 a) (f32 b) = false := by
      obtain h | h := either <;> simp [fEq, h]
    simp only [laneFcmp, fcondHolds, fLt_nan either, fLt_nan either.symm, ne, nan, eq_false num]
    cases v <;> simp

/-! The integral value of the mode (R125). -/

/-- An integral rounding of a number of F32 is a number of F32. -/
theorem encode_roundInt (rm : Rm) {a : Word} (ha : f32Finite a) (h0 : ¬f32IsZero a) :
    ∃ n : Int, RoundsInt rm (f32Val a) n ∧ IsExactly (toWord ((encodeF fmtF32 .rne (roundInt rm (f32 a)).1).1, 0)) n := by
  obtain ⟨n, num, val, -, rounds, -⟩ := roundInt_num rm (f32_Fin ha)
  rw [← f32Val_eq ha] at rounds
  refine ⟨n, rounds, ?_⟩
  obtain ⟨m, e, da, -⟩ := f32_of_nonzero ha h0
  obtain ⟨hm, -⟩ := decodeF_eq_fin std32 (show decodeF fmtF32 a.toNat = _ from da)
  by_cases whole : e ≥ 0
  · have same : (roundInt rm (f32 a)).1 = f32 a := by
      rw [da, roundInt]
      simp [whole]
    rw [same] at val ⊢
    rw [encode_f32 .rne (fun hn => absurd hn (by omega)), toWord_toNat]
    exact ⟨rfl, ha, (f32Val_eq ha).trans val⟩
  · have few : n.natAbs < 2 ^ 24 := by
      obtain ⟨-, near⟩ := roundAt_near rm a.msb false m e 0
      have half : wholeUnits m e 0 < 2 ^ 23 := by
        obtain ⟨j, hj⟩ : ∃ j : Nat, (0 - e).toNat = j + 1 := ⟨(0 - e).toNat - 1, by omega⟩
        rw [wholeUnits, if_neg whole, hj, Nat.div_lt_iff_lt_mul (Nat.two_pow_pos _), ← pow_add]
        exact hm.trans_le (Nat.pow_le_pow_right (by decide) (by simp [fmtF32]; omega))
      have form : (roundInt rm (f32 a)).1 = .fin a.msb (roundAt rm a.msb false m e 0).1 0 := by
        rw [da, roundInt]
        simp [whole]
      rw [form, fin_val, ratOf_units] at val
      rw [← Int.cast_inj.mp val]
      split <;> omega
    obtain ⟨-, fin, exact⟩ := encode32_int .rne num val few
    exact ⟨rfl, fin, exact⟩

/-- The pattern of FRND before the clamp. -/
def frndBits (rm : Rm) (a : Word) : Nat := if (f32 a).isZero then a.toNat else (encodeF fmtF32 .rne (roundInt rm (f32 a)).1).1

theorem laneFrnd_ended (rm : Rm) (d : Dst) (a : Word) : Ended d (frndBits rm a, 0) (laneFrnd .f32 rm d a) := by
  have whole : laneFrnd .f32 rm d a = toWord (if (f32 a).isZero then clampF fmtF32 d.clmp a.toNat
    else clampF fmtF32 d.clmp (encodeF fmtF32 .rne (roundInt rm (f32 a)).1).1) := rfl
  rw [whole, ← apply_ite (clampF fmtF32 d.clmp)]
  exact clampF_ended ..

section
variable (rm : Rm) {d : Dst} (hd : d.clmp = .none) {a b : Word}
include hd

theorem laneFrnd_eq : laneFrnd .f32 rm d a = toWord (frndBits rm a, 0) := ended_plain hd (laneFrnd_ended ..)

theorem laneFrnd_nan (h : f32IsNan a) : laneFrnd .f32 rm d a = (canon, 0) := by
  rw [laneFrnd_eq rm hd, frndBits, f32_of_nan h]
  rfl

theorem laneFrnd_same (h : f32IsInf a ∨ f32IsZero a) : laneFrnd .f32 rm d a = (a, 0) := by
  have bits : frndBits rm a = a.toNat := by
    obtain h | h := h
    · have canonical : CanonicalNan a := fun hn => absurd hn (by omega)
      rw [frndBits, f32_of_inf h]
      change (encodeF fmtF32 .rne (.inf a.msb)).1 = a.toNat
      rw [← f32_of_inf h, encode_f32 .rne canonical]
    · rw [frndBits, f32_of_zero h]
      rfl
  rw [laneFrnd_eq rm hd, bits, toWord_toNat]

theorem laneFrnd_rounds (ha : f32Finite a) :
    (laneFrnd .f32 rm d a).2 = 0 ∧ f32Finite (laneFrnd .f32 rm d a).1 ∧ ∃ n : Int, RoundsInt rm (f32Val a) n ∧ f32Val (laneFrnd .f32 rm d a).1 = n := by
  by_cases h0 : f32IsZero a
  · have zero := (f32Val_eq_zero ha).mpr h0
    rw [laneFrnd_same rm hd (.inr h0)]
    exact ⟨rfl, ha, 0, zero ▸ by exact_mod_cast roundsInt_self rm 0, by simpa using zero⟩
  · obtain ⟨n, rounds, flags, fin, val⟩ := encode_roundInt rm ha h0
    have bits : frndBits rm a = (encodeF fmtF32 .rne (roundInt rm (f32 a)).1).1 := by
      obtain ⟨m, e, da, hm⟩ := f32_of_nonzero ha h0
      rw [frndBits, isZero_num (f32_Fin ha), ← f32Val_eq ha, decide_eq_false (fun h => h0 ((f32Val_eq_zero ha).mp h))]
      rfl
    rw [laneFrnd_eq rm hd, bits]
    exact ⟨flags, fin, n, rounds, val⟩

/-! A power of two as a factor (R125). -/

theorem laneFldexp_eq : laneFldexp rm d a b = toWord (encodeF fmtF32 rm (((f32 a).scale b.toInt).scale (sclOf d.scl))) := ended_plain hd (finishF_ended ..)

theorem laneFldexp_nan (h : f32IsNan a) : laneFldexp rm d a b = (canon, 0) := by
  rw [laneFldexp_eq rm hd, f32_of_nan h]
  rfl

theorem laneFldexp_same (h : f32IsInf a ∨ f32IsZero a) : laneFldexp rm d a b = (a, 0) := by
  obtain h | h := h
  · rw [laneFldexp_eq rm hd, f32_of_inf h]
    exact Prod.ext ((infBits_word _).trans (inf_word h)) rfl
  · rw [laneFldexp_eq rm hd, f32_of_zero h]
    exact Prod.ext ((sign_word _).trans (zero_word h)) rfl

theorem laneFldexp_rounds (ha : f32Finite a) :
    RoundsOnce fmtF32 rm (f32Val a * (2 : ℚ) ^ (b.toInt + d.scl.toInt)) (laneFldexp rm d a b).1.toNat (laneFldexp rm d a b).2 := by
  obtain ⟨fin, val⟩ := scale_num (f32_Fin ha) b.toInt
  obtain ⟨fin', val'⟩ := scale_num fin (sclOf d.scl)
  rw [laneFldexp_eq rm hd, toWord, encode32_toNat, zpow_add₀ two_ne_zero, ← mul_assoc, f32Val_eq ha, ← val]
  exact val' ▸ encodeF_rounds fmtF32 rm fin'

end

end Sys2Proof.Machine
end

section
/-! SUPPORT. Quotients and square roots in F32 (R126): a whole part, whether anything follows it, one rounding. -/

namespace Sys2Proof.Machine

/-! Quotients. -/

/-- The pattern and flags of FDIV before the clamp (R126). -/
def quotientF (rm : Rm) (scl : BitVec 3) : FVal → FVal → Nat × Flags
  | .nan, _ => (fmtF32.nan, 0)
  | _, .nan => (fmtF32.nan, 0)
  | .inf _, .inf _ => (fmtF32.nan, flInv)
  | .inf n, .fin n' _ _ => (fmtF32.infBits (n != n'), 0)
  | .fin n _ _, .inf n' => (fmtF32.sign (n != n'), 0)
  | .fin n m e, .fin n' m' e' =>
    if m' = 0 then if m = 0 then (fmtF32.nan, flInv) else (fmtF32.infBits (n != n'), flDbz)
    else if m = 0 then (fmtF32.sign (n != n'), 0)
    else roundF fmtF32 rm (n != n') (m * 2 ^ (28 + bitLen m') % m' != 0) (m * 2 ^ (28 + bitLen m') / m') (e - e' - (28 + bitLen m' : Nat) + sclOf scl)

theorem laneFdiv_ended (rm : Rm) (d : Dst) (a b : Word) : Ended d (quotientF rm d.scl (f32 a) (f32 b)) (laneFdiv rm d a b) := by
  unfold laneFdiv
  generalize f32 a = x, f32 b = y
  cases x with
  | fin n m e =>
    cases y with
    | fin n' m' e' =>
      simp only [quotientF]
      split <;> split <;> rfl
    | _ => rfl
  | _ => cases y <;> rfl

theorem quotientF_lt (rm : Rm) (scl : BitVec 3) (x y : FVal) : (quotientF rm scl x y).1 < 2 ^ 32 := by
  cases x with
  | fin n m e =>
    cases y with
    | fin n' m' e' =>
      simp only [quotientF]
      split
      · split
        · exact canonical_nan.1
        · exact (canonical_infBits _).1
      · split
        · exact (canonical_sign _).1
        · exact (canonical_roundF ..).1
    | nan => exact canonical_nan.1
    | inf n' => exact (canonical_sign _).1
  | nan => exact canonical_nan.1
  | inf n =>
    cases y with
    | fin => exact (canonical_infBits _).1
    | _ => exact canonical_nan.1

/-- A quotient of natural numbers is known by its whole part and by whether anything is left. -/
theorem roundsRoot_quotient (rm : Rm) (n : Bool) {N D : Nat} (hD : 0 < D) (many : 2 ^ 25 ≤ N / D) (e : Int) {x : ℚ} (hx : x = (N : ℚ) / D * (2 : ℚ) ^ e) :
    RoundsRoot rm n (fun y => y ≤ x) (toWord (roundF fmtF32 rm n (N % D != 0) (N / D) e)).1 (toWord (roundF fmtF32 rm n (N % D != 0) (N / D) e)).2 := by
  have unit : (0 : ℚ) < (2 : ℚ) ^ e := by positivity
  have hD' : (0 : ℚ) < D := by exact_mod_cast hD
  have parts : (N : ℚ) = (N / D : Nat) * D + (N % D : Nat) := by exact_mod_cast (Nat.div_add_mod' N D).symm
  have rest : ((N % D : Nat) : ℚ) < D := by exact_mod_cast Nat.mod_lt N hD
  subst hx
  refine ⟨N / D, e, N % D != 0, many, ?_, ?_, ?_, ?_, rfl⟩
  · have : (0 : ℚ) ≤ (N % D : Nat) := Nat.cast_nonneg _
    beta_reduce
    rw [mul_le_mul_iff_left₀ unit, le_div_iff₀ hD']
    linarith
  · beta_reduce
    rw [mul_le_mul_iff_left₀ unit, le_div_iff₀ hD', not_le]
    linarith
  · simp only [not_le]
    rw [show (∀ y > ((N / D : Nat) : ℚ) * (2 : ℚ) ^ e, (N : ℚ) / D * (2 : ℚ) ^ e < y) ↔ (N : ℚ) / D * (2 : ℚ) ^ e ≤ (N / D : Nat) * (2 : ℚ) ^ e from
      forall_gt_iff_le, mul_le_mul_iff_left₀ unit, div_le_iff₀ hD', parts]
    simp
  · exact Nat.mod_eq_of_lt (canonical_roundF ..).1

theorem quotient_many {m m' : Nat} (hm : m ≠ 0) (hm' : m' ≠ 0) : 2 ^ 25 ≤ m * 2 ^ (28 + bitLen m') / m' := by
  rw [Nat.le_div_iff_mul_le (Nat.pos_of_ne_zero hm')]
  calc 2 ^ 25 * m' ≤ 2 ^ 28 * 2 ^ bitLen m' := Nat.mul_le_mul (by decide) (lt_two_pow_bitLen m').le
    _ = 1 * 2 ^ (28 + bitLen m') := by rw [one_mul, pow_add]
    _ ≤ m * 2 ^ (28 + bitLen m') := Nat.mul_le_mul_right _ (Nat.pos_of_ne_zero hm)

section
variable (rm : Rm) {d : Dst} (hd : d.clmp = .none) {a b : Word}
include hd

theorem laneFdiv_eq : laneFdiv rm d a b = toWord (quotientF rm d.scl (f32 a) (f32 b)) := ended_plain hd (laneFdiv_ended ..)

theorem laneFdiv_nan (h : f32IsNan a ∨ f32IsNan b) : laneFdiv rm d a b = (canon, 0) := by
  rw [laneFdiv_eq rm hd]
  obtain h | h := h
  · rw [f32_of_nan h]; rfl
  · rw [f32_of_nan h]; cases f32 a <;> rfl

theorem laneFdiv_invalid (h : f32IsZero a ∧ f32IsZero b ∨ f32IsInf a ∧ f32IsInf b) : laneFdiv rm d a b = (canon, flInv) := by
  rw [laneFdiv_eq rm hd]
  obtain ⟨ha, hb⟩ | ⟨ha, hb⟩ := h
  · rw [f32_of_zero ha, f32_of_zero hb]; rfl
  · rw [f32_of_inf ha, f32_of_inf hb]; rfl

theorem laneFdiv_by_zero (ha : f32Finite a) (h0 : ¬f32IsZero a) (hb : f32IsZero b) : laneFdiv rm d a b = (f32Of (a.msb != b.msb) 0x7F800000, flDbz) := by
  obtain ⟨m, e, da, hm⟩ := f32_of_nonzero ha h0
  rw [laneFdiv_eq rm hd, da, f32_of_zero hb, quotientF, if_pos rfl, if_neg hm, toWord, infBits_word]

theorem laneFdiv_of_inf (ha : f32IsInf a) (hb : f32Finite b) : laneFdiv rm d a b = (f32Of (a.msb != b.msb) 0x7F800000, 0) := by
  obtain ⟨m, e, db, -⟩ := f32_number hb
  rw [laneFdiv_eq rm hd, f32_of_inf ha, db, quotientF, toWord, infBits_word]

theorem laneFdiv_zero (h : f32Finite a ∧ f32IsInf b ∨ f32IsZero a ∧ f32Finite b ∧ ¬f32IsZero b) : laneFdiv rm d a b = (f32Of (a.msb != b.msb) 0, 0) := by
  rw [laneFdiv_eq rm hd]
  obtain ⟨ha, hb⟩ | ⟨ha, hb, h0⟩ := h
  · obtain ⟨m, e, da, -⟩ := f32_number ha
    rw [da, f32_of_inf hb, quotientF, toWord, sign_word]
  · obtain ⟨m, e, db, hm⟩ := f32_of_nonzero hb h0
    rw [f32_of_zero ha, db, quotientF, if_neg hm, if_pos rfl, toWord, sign_word]

theorem laneFdiv_rounds (ha : f32Finite a) (hb : f32Finite b) (ha0 : ¬f32IsZero a) (hb0 : ¬f32IsZero b) :
    RoundsRoot rm (a.msb != b.msb) (fun y => y ≤ |f32Val a / f32Val b| * (2 : ℚ) ^ d.scl.toInt) (laneFdiv rm d a b).1 (laneFdiv rm d a b).2 := by
  obtain ⟨m, e, da, hm⟩ := f32_of_nonzero ha ha0
  obtain ⟨m', e', db, hm'⟩ := f32_of_nonzero hb hb0
  rw [laneFdiv_eq rm hd, da, db, quotientF, if_neg hm', if_neg hm]
  refine roundsRoot_quotient rm _ (Nat.pos_of_ne_zero hm') (quotient_many hm hm') _ ?_
  rw [f32Val_eq ha, f32Val_eq hb, da, db, abs_div, fin_val, fin_val, abs_ratOf, abs_ratOf, sclOf, zpow_add₀ two_ne_zero, zpow_sub₀ two_ne_zero,
    zpow_sub₀ two_ne_zero, zpow_natCast]
  push_cast
  field_simp

end

/-! Square roots. -/

/-- Number r is the whole part of the square root of n. -/
def IsRoot (n r : Nat) : Prop := r * r ≤ n ∧ n < (r + 1) * (r + 1)

theorem isqrtFrom_isRoot {n : Nat} (k : Nat) {r : Nat} (lo : r * r ≤ n) (hi : n < (r + 2 ^ (k + 1)) * (r + 2 ^ (k + 1))) : IsRoot n (isqrtFrom n k r) := by
  induction k generalizing r with
  | zero =>
    unfold isqrtFrom
    split
    · next h => exact ⟨h, hi⟩
    · next h => exact ⟨lo, Nat.lt_of_not_le h⟩
  | succ k ih =>
    unfold isqrtFrom
    split
    · next h => exact ih h (by rwa [add_assoc, ← two_mul, ← pow_succ'])
    · next h => exact ih lo (Nat.lt_of_not_le h)

theorem isqrt_isRoot (n : Nat) : IsRoot n (isqrt n) := by
  refine isqrtFrom_isRoot _ (Nat.zero_le n) ?_
  calc n < 2 ^ bitLen n := lt_two_pow_bitLen n
    _ ≤ 2 ^ (bitLen n / 2 + 1 + (bitLen n / 2 + 1)) := Nat.pow_le_pow_right (by decide) (by omega)
    _ = _ := by rw [zero_add, pow_add]

/-- A root that is no integer goes on beyond its whole part. -/
theorem root_goes_on {n r : Nat} (h : r * r < n) : ∃ y : ℚ, (r : ℚ) < y ∧ y ^ 2 ≤ n := by
  have room : ((r * r : Nat) : ℚ) + 1 ≤ n := by exact_mod_cast h
  have hr : (0 : ℚ) ≤ r := Nat.cast_nonneg r
  refine ⟨r + 1 / (2 * r + 1), lt_add_of_pos_right _ (by positivity), ?_⟩
  refine le_trans ?_ room
  push_cast
  have more : (r + 1 / (2 * r + 1) : ℚ) ^ 2 = r * r + (2 * r * (2 * r + 1) + 1) / (2 * r + 1) ^ 2 := by
    field_simp
    ring
  rw [more, add_le_add_iff_left, div_le_one (by positivity)]
  nlinarith only [hr]

/-- A square root is known by its whole part and by whether the number is a square. -/
theorem roundsRoot_root (rm : Rm) {v r : Nat} (root : IsRoot v r) (many : 2 ^ 25 ≤ r) (e : Int) {x : ℚ} (hx : x = v * ((2 : ℚ) ^ e) ^ 2) :
    RoundsRoot rm false (fun y => y ^ 2 ≤ x) (toWord (roundF fmtF32 rm false (r * r != v) r e)).1 (toWord (roundF fmtF32 rm false (r * r != v) r e)).2 := by
  obtain ⟨lo, hi⟩ := root
  have unit : (0 : ℚ) < (2 : ℚ) ^ e := by positivity
  have square : (0 : ℚ) < ((2 : ℚ) ^ e) ^ 2 := by positivity
  subst hx
  refine ⟨r, e, r * r != v, many, ?_, ?_, ?_, ?_, rfl⟩
  · beta_reduce
    rw [mul_pow, mul_le_mul_iff_left₀ square, sq]
    exact_mod_cast lo
  · beta_reduce
    rw [mul_pow, mul_le_mul_iff_left₀ square, not_le, sq]
    exact_mod_cast hi
  · rw [bne_eq_false_iff_eq]
    constructor
    · rintro rfl y hy
      have := pow_lt_pow_left₀ hy (by positivity) two_ne_zero
      rw [mul_pow, sq (r : ℚ)] at this
      push_cast
      exact not_le.mpr this
    · intro last
      by_contra ne
      obtain ⟨y, above, below⟩ := root_goes_on (lt_of_le_of_ne lo ne)
      refine last (y * (2 : ℚ) ^ e) ((mul_lt_mul_iff_left₀ unit).mpr above) ?_
      beta_reduce
      rwa [mul_pow, mul_le_mul_iff_left₀ square]
  · exact Nat.mod_eq_of_lt (canonical_roundF ..).1

/-- The places by which FSQRT widens a significand: an even exponent is left. -/
def rootShift (m : Nat) (e : Int) : Nat := if (e - (56 - bitLen m : Nat)) % 2 = 0 then 56 - bitLen m else 56 - bitLen m + 1

theorem rootShift_even (m : Nat) (e : Int) : (e - rootShift m e) % 2 = 0 := by
  unfold rootShift
  split
  · assumption
  · push_cast
    omega

theorem root_many {m : Nat} (hm : m ≠ 0) (e : Int) : 2 ^ 25 ≤ isqrt (m * 2 ^ rootShift m e) := by
  have wide : 2 ^ 56 ≤ 2 * (m * 2 ^ rootShift m e) :=
    calc 2 ^ 56 ≤ 2 ^ (bitLen m + rootShift m e) := Nat.pow_le_pow_right (by decide) (by unfold rootShift; split <;> omega)
      _ = 2 ^ bitLen m * 2 ^ rootShift m e := pow_add ..
      _ ≤ 2 * m * 2 ^ rootShift m e := Nat.mul_le_mul_right _ (two_pow_bitLen_le hm)
      _ = _ := mul_assoc ..
  obtain ⟨-, hi⟩ := isqrt_isRoot (m * 2 ^ rootShift m e)
  by_contra few
  have le : isqrt (m * 2 ^ rootShift m e) + 1 ≤ 2 ^ 25 := by omega
  have := Nat.mul_le_mul le le
  omega

/-- The pattern and flags of FSQRT before the clamp (R126). -/
def rootF (rm : Rm) (scl : BitVec 3) : FVal → Nat × Flags
  | .nan => (fmtF32.nan, 0)
  | .inf n => if n then (fmtF32.nan, flInv) else (fmtF32.infBits false, 0)
  | .fin n m e =>
    if m = 0 then (fmtF32.sign n, 0)
    else if n then (fmtF32.nan, flInv)
    else
      let v := m * 2 ^ rootShift m e
      roundF fmtF32 rm false (isqrt v * isqrt v != v) (isqrt v) ((e - rootShift m e) / 2 + sclOf scl)

theorem laneFsqrt_ended (rm : Rm) (d : Dst) (a : Word) : Ended d (rootF rm d.scl (f32 a)) (laneFsqrt rm d a) := by
  unfold laneFsqrt
  generalize f32 a = x
  cases x with
  | nan => rfl
  | inf n => cases n <;> rfl
  | fin n m e =>
    simp only [rootF]
    split
    · rfl
    · cases n <;> rfl

theorem rootF_lt (rm : Rm) (scl : BitVec 3) (x : FVal) : (rootF rm scl x).1 < 2 ^ 32 := by
  cases x with
  | nan => exact canonical_nan.1
  | inf n =>
    cases n
    · exact (canonical_infBits false).1
    · exact canonical_nan.1
  | fin n m e =>
    simp only [rootF]
    split
    · exact (canonical_sign _).1
    · split
      · exact canonical_nan.1
      · exact (canonical_roundF ..).1

section
variable (rm : Rm) {d : Dst} (hd : d.clmp = .none) {a : Word}
include hd

theorem laneFsqrt_eq : laneFsqrt rm d a = toWord (rootF rm d.scl (f32 a)) := ended_plain hd (laneFsqrt_ended ..)

theorem laneFsqrt_nan (h : f32IsNan a) : laneFsqrt rm d a = (canon, 0) := by
  rw [laneFsqrt_eq rm hd, f32_of_nan h]
  rfl

theorem laneFsqrt_same (h : f32IsZero a ∨ a = 0x7F800000) : laneFsqrt rm d a = (a, 0) := by
  rw [laneFsqrt_eq rm hd]
  obtain h | rfl := h
  · rw [f32_of_zero h, rootF, if_pos rfl, toWord, sign_word, zero_word h]
  · rw [f32_of_inf (by decide)]
    rfl

theorem laneFsqrt_negative (hn : ¬f32IsNan a) (h : f32Key a < 0) : laneFsqrt rm d a = (canon, flInv) := by
  rw [laneFsqrt_eq rm hd]
  obtain h | ⟨m, e, h, hm⟩ := f32_of_neg hn h
  · rw [h]; rfl
  · rw [h, rootF, if_neg hm]; rfl

theorem laneFsqrt_rounds (ha : f32Finite a) (h : 0 < f32Key a) :
    RoundsRoot rm false (fun y => y ^ 2 ≤ f32Val a * ((2 : ℚ) ^ d.scl.toInt) ^ 2) (laneFsqrt rm d a).1 (laneFsqrt rm d a).2 := by
  have positive : a.msb = false ∧ ¬f32IsZero a := by
    unfold f32Key at h
    split at h
    · omega
    · next hs => exact ⟨by simpa using hs, by omega⟩
  obtain ⟨m, e, da, hm⟩ := f32_of_nonzero ha positive.2
  rw [positive.1] at da
  rw [laneFsqrt_eq rm hd, da, rootF, if_neg hm]
  refine roundsRoot_root rm (isqrt_isRoot _) (root_many hm e) _ ?_
  obtain ⟨j, hj⟩ : ∃ j, e - rootShift m e = 2 * j := ⟨(e - rootShift m e) / 2, by have := rootShift_even m e; omega⟩
  have he : e = j + j + (rootShift m e : Int) := by omega
  rw [f32Val_eq ha, da, fin_val, ratOf, hj, Int.mul_ediv_cancel_left _ two_ne_zero, sclOf, zpow_add₀ two_ne_zero]
  conv_lhs => rw [he, zpow_add₀ two_ne_zero, zpow_add₀ two_ne_zero, zpow_natCast]
  push_cast
  ring

end

end Sys2Proof.Machine
end

section
/-! SUPPORT. The values of FDOT2 (R127) and of the packed variants of FADD, FMUL and FFMA (R122), by halves. -/

namespace Sys2Proof.Machine

/-! Halves of a word and their formats. -/

/-- Half i of a word. -/
def halfOf (w : Word) (i : Nat) : Nat := w.toNat / 65536 ^ i % 65536

/-- The formats of a half. -/
def Fmt.Half (f : Fmt) : Prop := f = fmtF16 ∨ f = fmtBF16

theorem fmtOf_half {t : FTy} (ht : t ≠ .f32) : (fmtOf t).Half := by
  cases t with
  | f32 => exact absurd rfl ht
  | f16x2 => exact .inl rfl
  | bf16x2 => exact .inr rfl

/-- A pattern that is no infinity and no NaN. -/
abbrev Fmt.Number (f : Fmt) (b : Nat) : Prop := b / 2 ^ f.fw % 2 ^ f.ew ≠ 2 ^ f.ew - 1

theorem decodeF_number {f : Fmt} {b : Nat} (h : f.Number b) : (decodeF f b).Fin ∧ (decodeF f b).val = patVal f.ew f.fw b := by
  have fin : (decodeF f b).Fin := by
    rw [decodeF_finite fun special => h special.1]
    split <;> exact fin_Fin ..
  exact ⟨fin, (patVal_eq fin).symm⟩

theorem encodeF_lt_half {f : Fmt} (hf : f.Half) (rm : Rm) (v : FVal) (hv : v.Fin) : (encodeF f rm v).1 < 65536 := by
  have std : f.Std ∧ f.width = 16 := by obtain rfl | rfl := hf <;> decide
  have fixed : ∀ n, f.sign n < 65536 ∧ f.maxBits n < 65536 ∧ f.infBits n < 65536 := by obtain rfl | rfl := hf <;> decide
  obtain ⟨n, m, e, rfl⟩ := hv
  change (roundF f rm n false m e).1 < 65536
  obtain ⟨sign, max, inf⟩ := fixed n
  by_cases h : m = 0
  · rwa [h, roundF_zero]
  · obtain overflow | ⟨fits, packed⟩ := roundF_cases f rm n false e (.inl h)
    · rw [overflow]
      obtain bits | ⟨-, bits⟩ := overflowF_bits f rm n <;> rwa [bits]
    · obtain ⟨k, -⟩ := significand_bounds f rm n false m e
      obtain ⟨bits, -⟩ := decodeF_packBits std.1 n (qMin_le_unitAt f m e) k fits
      rw [packed]
      rwa [std.2] at bits

/-! Two sums of products (R127). -/

/-- F32(acc + p). -/
def sumF (acc p : FVal) : Nat × Flags := encodeF fmtF32 .rne (exAdd .rne acc p)

theorem mulAddStep_eq (acc p : FVal) : mulAddStep acc p = (f32 (toWord (sumF acc p)).1, (sumF acc p).2 ||| flagIf (exAdd .rne acc p).isNan flInv) := by
  rw [toWord, sumF, f32, encode32_toNat]
  rfl

/-- The rounded sum of two numbers. -/
theorem mulAddStep_num {acc p : FVal} (ha : acc.Fin) (hp : p.Fin) : ∃ (w : Word) (fl : Flags),
    mulAddStep acc p = (f32 w, fl) ∧ CanonicalNan w ∧ RoundsOnce fmtF32 .rne (acc.val + p.val) w.toNat fl := by
  obtain ⟨fin, val⟩ := exAdd_num .rne ha hp
  refine ⟨(toWord (sumF acc p)).1, (sumF acc p).2, ?_, (canonical_encodeF ..).word, ?_⟩
  · rw [mulAddStep_eq, isNan_num fin]
    exact Prod.ext rfl (BitVec.or_zero ..)
  · rw [toWord, sumF, encode32_toNat, ← val]
    exact encodeF_rounds fmtF32 .rne fin

/-- The format of the halves of FDOT2. -/
def dotFmt (t : DotTy) : Fmt := if t == .f16 then fmtF16 else fmtBF16

/-- The product of halves i of FDOT2. -/
def dotProduct (t : DotTy) (a b : Word) (i : Nat) : FVal := exMul (decodeF (dotFmt t) (halfOf a i)) (decodeF (dotFmt t) (halfOf b i))

/-- The pattern and flags of FDOT2 before the clamp. -/
def dotF (t : DotTy) (a b c : Word) : Nat × Flags :=
  let first := mulAddStep (f32 c) (dotProduct t a b 0)
  let second := mulAddStep first.1 (dotProduct t a b 1)
  ((encodeF fmtF32 .rne second.1).1, first.2 ||| second.2)

theorem laneFdot2_ended (t : DotTy) (d : Dst) (a b c : Word) : Ended d (dotF t a b c) (laneFdot2 t d a b c) := rfl

theorem dotProduct_num {t : DotTy} {a b : Word} {i : Nat} (ha : (dotFmt t).Number (halfOf a i)) (hb : (dotFmt t).Number (halfOf b i)) :
    (dotProduct t a b i).Fin ∧ (dotProduct t a b i).val = patVal (dotFmt t).ew (dotFmt t).fw (halfOf a i) * patVal (dotFmt t).ew (dotFmt t).fw (halfOf b i) := by
  obtain ⟨fa, va⟩ := decodeF_number ha
  obtain ⟨fb, vb⟩ := decodeF_number hb
  rw [← va, ← vb]
  exact exMul_num fa fb

theorem laneFdot2_rounds (t : DotTy) {d : Dst} (hd : d.clmp = .none) {a b c : Word} (ha : ∀ i < 2, (dotFmt t).Number (halfOf a i))
    (hb : ∀ i < 2, (dotFmt t).Number (halfOf b i)) (hc : f32Finite c) :
    let v := fun (w : Word) (i : Nat) => patVal (dotFmt t).ew (dotFmt t).fw (halfOf w i)
    ∃ (mid : Word) (fl fl' : Flags), RoundsOnce fmtF32 .rne (f32Val c + v a 0 * v b 0) mid.toNat fl ∧
      (f32Finite mid → RoundsOnce fmtF32 .rne (f32Val mid + v a 1 * v b 1) (laneFdot2 t d a b c).1.toNat fl' ∧ (laneFdot2 t d a b c).2 = fl ||| fl') := by
  intro v
  obtain ⟨fin0, val0⟩ := dotProduct_num (ha 0 (by decide)) (hb 0 (by decide))
  obtain ⟨fin1, val1⟩ := dotProduct_num (ha 1 (by decide)) (hb 1 (by decide))
  obtain ⟨mid, fl, first, -, rounds⟩ := mulAddStep_num (f32_Fin hc) fin0
  rw [val0, ← f32Val_eq hc] at rounds
  by_cases hm : f32Finite mid
  · obtain ⟨w, fl', second, canonical, rounds'⟩ := mulAddStep_num (f32_Fin hm) fin1
    rw [val1, ← f32Val_eq hm] at rounds'
    have result : laneFdot2 t d a b c = (w, fl ||| fl') := by
      rw [ended_plain hd (laneFdot2_ended ..), dotF, first, second, encode_f32 .rne canonical, toWord_toNat]
    rw [result]
    exact ⟨mid, fl, fl', rounds, fun _ => ⟨rounds', rfl⟩⟩
  · exact ⟨mid, fl, 0, rounds, fun h => absurd h hm⟩

theorem dotF_lt (t : DotTy) (a b c : Word) : (dotF t a b c).1 < 2 ^ 32 := (canonical_encodeF ..).1

/-! Packed operations (R108). -/

/-- A packed operation acts on each half. -/
theorem elementwise_halves {t : FTy} (ht : t ≠ .f32) {op : Nat → Nat → Nat → Nat × Flags} {a b c : Word}
    (small : ∀ i < 2, (op (halfOf a i) (halfOf b i) (halfOf c i)).1 < 65536) :
    (elementwise t op a b c).2 = (op (halfOf a 0) (halfOf b 0) (halfOf c 0)).2 ||| (op (halfOf a 1) (halfOf b 1) (halfOf c 1)).2 ∧
      ∀ i < 2, halfOf (elementwise t op a b c).1 i = (op (halfOf a i) (halfOf b i) (halfOf c i)).1 := by
  have low : ∀ w : Word, halfOf w 0 = w.toNat % 65536 := fun w => by simp [halfOf]
  have high : ∀ w : Word, halfOf w 1 = w.toNat / 65536 := fun w => by simp only [halfOf]; omega
  have packed : elementwise t op a b c = (BitVec.ofNat 32 ((op (halfOf a 1) (halfOf b 1) (halfOf c 1)).1 * 65536 + (op (halfOf a 0) (halfOf b 0) (halfOf c 0)).1),
      (op (halfOf a 0) (halfOf b 0) (halfOf c 0)).2 ||| (op (halfOf a 1) (halfOf b 1) (halfOf c 1)).2) := by
    simp only [low, high]
    cases t with
    | f32 => exact absurd rfl ht
    | _ => rfl
  have lo := small 0 (by decide)
  have hi := small 1 (by decide)
  rw [packed]
  refine ⟨rfl, fun i hi2 => ?_⟩
  obtain rfl | rfl : i = 0 ∨ i = 1 := by omega
  · rw [low, BitVec.toNat_ofNat]
    omega
  · rw [high, BitVec.toNat_ofNat]
    omega

/-- The halves of a word are one rounding each, with their flags. -/
def HalvesRound (f : Fmt) (rm : Rm) (x : Nat → ℚ) (r : Word × Flags) : Prop :=
  ∃ fl : Nat → Flags, r.2 = fl 0 ||| fl 1 ∧ ∀ i < 2, RoundsOnce f rm (x i) (halfOf r.1 i) (fl i)

theorem finishInv_num (f : Fmt) (rm : Rm) {d : Dst} (hd : d.clmp = .none) {v : FVal} (hv : v.Fin) : finishInv f rm d v = encodeF f rm (v.scale (sclOf d.scl)) := by
  have plain : finishInv f rm d v = ((encodeF f rm (v.scale (sclOf d.scl))).1, (encodeF f rm (v.scale (sclOf d.scl))).2 ||| 0 ||| 0) := by
    simp only [finishInv, finishF, hd, clampF, isNan_num hv]
    rfl
  exact plain.trans (Prod.ext rfl ((BitVec.or_zero ..).trans (BitVec.or_zero ..)))

/-- A packed operation whose exact results are numbers rounds each of them once. -/
theorem elementwise_rounds {t : FTy} (ht : t ≠ .f32) (rm : Rm) {d : Dst} (hd : d.clmp = .none) {value : Nat → Nat → Nat → FVal} {a b c : Word} {x : Nat → ℚ}
    (num : ∀ i < 2, (value (halfOf a i) (halfOf b i) (halfOf c i)).Fin ∧ (value (halfOf a i) (halfOf b i) (halfOf c i)).val = x i) :
    HalvesRound (fmtOf t) rm (fun i => x i * (2 : ℚ) ^ d.scl.toInt) (elementwise t (fun l m n => finishInv (fmtOf t) rm d (value l m n)) a b c) := by
  have scaled : ∀ i < 2, finishInv (fmtOf t) rm d (value (halfOf a i) (halfOf b i) (halfOf c i)) =
      encodeF (fmtOf t) rm ((value (halfOf a i) (halfOf b i) (halfOf c i)).scale (sclOf d.scl)) := fun i hi => finishInv_num _ rm hd (num i hi).1
  have small : ∀ i < 2, (finishInv (fmtOf t) rm d (value (halfOf a i) (halfOf b i) (halfOf c i))).1 < 65536 := fun i hi =>
    scaled i hi ▸ encodeF_lt_half (fmtOf_half ht) rm _ (scale_num (num i hi).1 _).1
  obtain ⟨flags, halves⟩ := elementwise_halves ht (op := fun l m n => finishInv (fmtOf t) rm d (value l m n)) small
  refine ⟨fun i => (finishInv (fmtOf t) rm d (value (halfOf a i) (halfOf b i) (halfOf c i))).2, flags, fun i hi => ?_⟩
  obtain ⟨fin, val⟩ := scale_num (num i hi).1 (sclOf d.scl)
  beta_reduce
  rw [halves i hi, scaled i hi, ← (num i hi).2]
  exact val ▸ encodeF_rounds (fmtOf t) rm fin

section
variable {t : FTy} (ht : t ≠ .f32) (rm : Rm) {d : Dst} (hd : d.clmp = .none) {a b c : Word} (ha : ∀ i < 2, (fmtOf t).Number (halfOf a i))
  (hb : ∀ i < 2, (fmtOf t).Number (halfOf b i))
include ht hd ha hb

/-- The value of half i of a word. -/
def halfVal (t : FTy) (w : Word) (i : Nat) : ℚ := patVal (fmtOf t).ew (fmtOf t).fw (halfOf w i)

theorem laneFadd_halves : HalvesRound (fmtOf t) rm (fun i => (halfVal t a i + halfVal t b i) * (2 : ℚ) ^ d.scl.toInt) (laneFadd t rm d a b) := by
  refine elementwise_rounds ht rm hd (value := fun x y _ => exAdd rm (decodeF (fmtOf t) x) (decodeF (fmtOf t) y)) fun i hi => ?_
  obtain ⟨fa, va⟩ := decodeF_number (ha i hi)
  obtain ⟨fb, vb⟩ := decodeF_number (hb i hi)
  rw [halfVal, halfVal, ← va, ← vb]
  exact exAdd_num rm fa fb

theorem laneFmul_halves : HalvesRound (fmtOf t) rm (fun i => halfVal t a i * halfVal t b i * (2 : ℚ) ^ d.scl.toInt) (laneFmul t rm d a b) := by
  refine elementwise_rounds ht rm hd (value := fun x y _ => exMul (decodeF (fmtOf t) x) (decodeF (fmtOf t) y)) fun i hi => ?_
  obtain ⟨fa, va⟩ := decodeF_number (ha i hi)
  obtain ⟨fb, vb⟩ := decodeF_number (hb i hi)
  rw [halfVal, halfVal, ← va, ← vb]
  exact exMul_num fa fb

theorem laneFfma_halves (hc : ∀ i < 2, (fmtOf t).Number (halfOf c i)) :
    HalvesRound (fmtOf t) .rne (fun i => (halfVal t a i * halfVal t b i + halfVal t c i) * (2 : ℚ) ^ d.scl.toInt) (laneFfma t d a b c) := by
  refine elementwise_rounds ht .rne hd (value := fun x y z => exAdd .rne (exMul (decodeF (fmtOf t) x) (decodeF (fmtOf t) y)) (decodeF (fmtOf t) z)) fun i hi => ?_
  obtain ⟨fa, va⟩ := decodeF_number (ha i hi)
  obtain ⟨fb, vb⟩ := decodeF_number (hb i hi)
  obtain ⟨fc, vc⟩ := decodeF_number (hc i hi)
  obtain ⟨fin, val⟩ := exMul_num fa fb
  rw [halfVal, halfVal, halfVal, ← va, ← vb, ← vc, ← val]
  exact exAdd_num .rne fin fc

end

end Sys2Proof.Machine
end

section
/-! O8: the values of the floating-point operations. -/

namespace Sys2Proof.Machine

/-- The clamp acts on the unclamped result by R26's table. -/
def Clamps (d : Dst) (op : Dst → Word × Flags) : Prop :=
  op d = ((F32Clamp d.clmp (op { d with clmp := .none }).1).1, (op { d with clmp := .none }).2 ||| (F32Clamp d.clmp (op { d with clmp := .none }).1).2)

/-- An operation whose result before the clamp does not depend on the clamp. -/
theorem clamps_of_ended {op : Dst → Word × Flags} {r : BitVec 3 → Nat × Flags} (ended : ∀ d, Ended d (r d.scl) (op d)) (lt : ∀ scl, (r scl).1 < 2 ^ 32) (d : Dst) :
    Clamps d op := ended_clamped d (lt d.scl) (ended d) (ended_plain rfl (ended { d with clmp := .none }))

theorem frndBits_lt (rm : Rm) (a : Word) : frndBits rm a < 2 ^ 32 := by
  unfold frndBits
  split
  · exact a.isLt
  · exact (canonical_encodeF ..).1

section
variable (rm : Rm) (d : Dst) (a b c : Word)

theorem laneFadd_clamps : Clamps d (laneFadd .f32 rm · a b) :=
  clamps_of_ended (r := fun scl => scaledInv rm scl (exAdd rm (f32 a) (f32 b))) (fun d => finishInv_ended rm d _) (fun _ => (canonical_encodeF ..).1) d

theorem laneFmul_clamps : Clamps d (laneFmul .f32 rm · a b) :=
  clamps_of_ended (r := fun scl => scaledInv rm scl (exMul (f32 a) (f32 b))) (fun d => finishInv_ended rm d _) (fun _ => (canonical_encodeF ..).1) d

theorem laneFfma_clamps : Clamps d (laneFfma .f32 · a b c) :=
  clamps_of_ended (r := fun scl => scaledInv .rne scl (exAdd .rne (exMul (f32 a) (f32 b)) (f32 c))) (fun d => finishInv_ended .rne d _) (fun _ => (canonical_encodeF ..).1) d

theorem laneFminmax_clamps (isMax : Bool) : Clamps d (laneFminmax .f32 isMax · a b) :=
  clamps_of_ended (r := fun _ => (minmax fmtF32 isMax a.toNat b.toNat, 0)) (fun d => laneFminmax_ended isMax d a b) (fun _ => (canonical_minmax ..).1) d

theorem laneFrnd_clamps : Clamps d (laneFrnd .f32 rm · a) :=
  clamps_of_ended (r := fun _ => (frndBits rm a, 0)) (fun d => laneFrnd_ended rm d a) (fun _ => frndBits_lt rm a) d

theorem laneFldexp_clamps : Clamps d (laneFldexp rm · a b) :=
  clamps_of_ended (r := fun scl => encodeF fmtF32 rm (((f32 a).scale b.toInt).scale (sclOf scl))) (fun d => finishF_ended rm d _) (fun _ => (canonical_encodeF ..).1) d

theorem laneFdiv_clamps : Clamps d (laneFdiv rm · a b) :=
  clamps_of_ended (r := fun scl => quotientF rm scl (f32 a) (f32 b)) (fun d => laneFdiv_ended rm d a b) (fun _ => quotientF_lt ..) d

theorem laneFsqrt_clamps : Clamps d (laneFsqrt rm · a) :=
  clamps_of_ended (r := fun scl => rootF rm scl (f32 a)) (fun d => laneFsqrt_ended rm d a) (fun _ => rootF_lt ..) d

theorem laneFdot2_clamps (t : DotTy) : Clamps d (laneFdot2 t · a b c) :=
  clamps_of_ended (r := fun _ => dotF t a b c) (fun d => laneFdot2_ended t d a b c) (fun _ => dotF_lt t a b c) d

end

/-- Settles O8: each operation ends one rounding of its exact value, or a special result, with the clamp. -/
theorem floatOperationsRoundOnce : Obligations.FloatOperationsRoundOnce := by
  unfold Obligations.FloatOperationsRoundOnce
  intro rm d a b c p k opp
  have hp : p.clmp = .none := rfl
  refine ⟨fun ha hb => ⟨⟨laneFadd_rounds hp ha hb, laneFadd_cancel hp ha hb⟩, ⟨laneFmul_rounds hp ha hb, laneFmul_zero hp ha hb⟩, laneFfma_rounds hp ha hb⟩,
    laneFadd_invalid hp, fun ⟨ha, hb⟩ => laneFadd_inf hp ha hb,
    ⟨laneFmul_invalid hp, fun ⟨h, inf⟩ => laneFmul_inf hp h inf, laneFfma_invalid hp, fun ⟨h, inf, hc⟩ => laneFfma_product_inf hp h inf hc,
      fun ⟨ha, hb, hc⟩ => laneFfma_addend_inf hp ha hb hc⟩,
    laneFmul_one hp, laneFminmax_eq hp a b,
    ⟨laneFcmp_iff .eq a b, laneFcmp_iff .ne a b, laneFcmp_iff .lt a b, laneFcmp_iff .le a b, laneFcmp_iff .gt a b, laneFcmp_iff .ge a b,
      laneFcmp_iff .num a b, laneFcmp_iff .nan a b⟩,
    ⟨laneFrnd_nan rm hp, laneFrnd_same rm hp, laneFrnd_rounds rm hp⟩, ⟨laneFldexp_nan rm hp, laneFldexp_same rm hp, laneFldexp_rounds rm hp⟩,
    ⟨laneFdiv_nan rm hp, laneFdiv_invalid rm hp, fun ⟨ha, h0, hb⟩ => laneFdiv_by_zero rm hp ha h0 hb, fun ⟨ha, hb⟩ => laneFdiv_of_inf rm hp ha hb,
      laneFdiv_zero rm hp, fun ⟨ha, hb, ha0, hb0⟩ => laneFdiv_rounds rm hp ha hb ha0 hb0⟩,
    ⟨laneFsqrt_nan rm hp, laneFsqrt_same rm hp, fun ⟨hn, h⟩ => laneFsqrt_negative rm hp hn h, fun ⟨ha, h⟩ => laneFsqrt_rounds rm hp ha h⟩,
    ?dot, ?packed, ?clamped⟩
  case dot =>
    intro t
    cases t with
    | f16 => exact fun ha hb hc => laneFdot2_rounds .f16 hp ha hb hc
    | bf16 => exact fun ha hb hc => laneFdot2_rounds .bf16 hp ha hb hc
  case packed =>
    intro t ht
    cases t with
    | f32 => exact absurd rfl ht
    | f16x2 => exact fun ha hb => ⟨laneFadd_halves ht rm hp ha hb, laneFmul_halves ht rm hp ha hb, laneFfma_halves ht hp ha hb⟩
    | bf16x2 => exact fun ha hb => ⟨laneFadd_halves ht rm hp ha hb, laneFmul_halves ht rm hp ha hb, laneFfma_halves ht hp ha hb⟩
  case clamped =>
    exact ⟨laneFadd_clamps rm d a b, laneFmul_clamps rm d a b, laneFfma_clamps d a b c, laneFminmax_clamps d a b false, laneFminmax_clamps d a b true,
      laneFrnd_clamps rm d a, laneFldexp_clamps rm d a b, laneFdiv_clamps rm d a b, laneFsqrt_clamps rm d a, laneFdot2_clamps d a b c⟩

end Sys2Proof.Machine
end
